-- ==== Sys2Proof/Word.lean ====
section
/-! DEFINITION. The word types of the machine (01_notation.md R7) and the shape of its sparse tables. -/

namespace Sys2Proof

/-- A 64-bit word. -/
abbrev Word := BitVec 64
/-- A byte, the unit of memory. -/
abbrev Byte := BitVec 8
/-- A lane of a vector register (04_numbers.md R54). -/
abbrev Lane := BitVec 32
/-- The 48 lanes of a vector register (02_core.md R23). -/
abbrev Lanes := Vector Lane 48
/-- A table held sparsely: pairs of a key and an entry, keys rising. -/
abbrev Tab (α : Type) := List (Nat × α)

end Sys2Proof
end

