-- ==== Sys2Proof/Config.lean ====
section
/-! DEFINITION. What is fixed for the machine (00_scope.md R1), and the free values: opaque constants whose values no
proof can see. -/

namespace Sys2Proof

/-- Logical cores (R1). -/
def nCores : Nat := 4096
/-- Rows of eight cores (R1). -/
def nRows : Nat := 512
/-- Clusters: 16 in each of four towers (R1). -/
def nClusters : Nat := 64
/-- Rintur ports (R1). -/
def nPorts : Nat := 24
/-- Devices a pod can hold (R319). -/
def nDevices : Nat := 192
/-- Host command queues (R329). -/
def nHostQueues : Nat := 64
/-- Bytes of device memory: 1,280 GiB (R198). -/
def dramBytes : Nat := 1280 * 2 ^ 30
/-- Bytes of one DRAM channel: 320 MiB (R198). -/
def channelBytes : Nat := 320 * 2 ^ 20
/-- Entries of the name table (R251). -/
def nNames : Nat := 262144
/-- Handle slots (R253). -/
def nHandles : Nat := 1048576

namespace Config

/-- Free value: the `f32` result that the device gives for a transcendental instruction (06 R104), by the instruction's
function code, before the bound of R104 is applied. DESIGN CHOICE, log entry 9. -/
opaque transc : Nat → BitVec 32 → BitVec 32

/-- Free value: whether a firmware image or a configuration record verifies against a key, by their digests (24 R344). DESIGN CHOICE, log
entry 10. -/
opaque verifies : BitVec 256 → BitVec 256 → Bool

/-- The digest of the root public key that the boot ROM holds, and that of the boot ROM (24 R344, R345). DESIGN CHOICE, log entry 10. -/
opaque rootKey : BitVec 256
opaque romDigest : BitVec 256

/-- Free value: the key that an image certifies for the images and records after it, by the image's digest (24 R344). DESIGN CHOICE, log
entry 10. -/
opaque certified : BitVec 256 → BitVec 256

/-- Free value: the signature of an SPDM answer, by its measurements and the nonce (24 R345). DESIGN CHOICE, log entry 10. -/
opaque signature : List (BitVec 256) → BitVec 256 → BitVec 256

/-- Free value: a temperature or a power, by the sensor and the cycle (24 R349). DESIGN CHOICE, log entry 10. -/
opaque sensor : Nat → Nat → BitVec 64

/-- Free value: the soft error that strikes in a cycle, if any: where, and whether it cannot be corrected (18 R302). DESIGN CHOICE, log
entry 14. -/
opaque upset : Nat → Option (Nat × Bool)

/-- Free value: whether the arrival log of a save area of a size is full with a number of arrivals (18 R310). DESIGN CHOICE, log entry 102. -/
opaque logFull : Nat → Nat → Bool

/-- Free value: the bytes that a number of arrivals take in the arrival log (18 R309). DESIGN CHOICE, log entry 102. -/
opaque logBytes : Nat → Nat

/-- The bytes of an entry of an arrival log, by the number of its packet (18 R309: the spec gives no layout; log entry 27). -/
opaque logByte : Nat → Nat → Byte

/-- Free value: the plane that the hash of (source core, device, STAG) chooses (20 R316). DESIGN CHOICE, log entry 11. -/
opaque plane : Nat → Nat → Nat → Nat

/-- Free value: SEQ of a message that belongs to no stream (07 R116, R131). DESIGN CHOICE, log entry 16. -/
opaque freeSeq : Nat → BitVec 16

/-- Free value: which of the free slots of a queue an arriving message takes (07 R118). DESIGN CHOICE, log entry 16. -/
opaque slotChoice : Nat → Nat

/-- Free value: TRAPVAL of the trap of `defer` with barriers registered (07 R130). DESIGN CHOICE, log entry 16. -/
opaque deferVal : Nat → Word

/-- Free value: TRAPVAL when the wait of `dmask` reaches the limit (08 R156). DESIGN CHOICE, log entry 16. -/
opaque maskVal : Nat → Word

/-- Free value: TRAPVAL when the wait of `fence` or `eret` for the W stream reaches the limit (10 R184, 18 R291). DESIGN CHOICE, log
entry 77. -/
opaque waitVal : Nat → Word

/-- Free value: from which handle slot on a free one is sought (14 R258). DESIGN CHOICE, log entry 16. -/
opaque handleSlot : Nat → Nat

/-- Free value: the ordering kind of a page of a peer (10 R177): 0 SO, 1 RC, else UO; by the 64 KiB page of the global address.
DESIGN CHOICE, log entry 74. -/
opaque peerKind : Nat → Nat

/-- Free value: by how many 50,000ths of its rate, less 10, PTP corrects NOW in a cycle (20 R315). DESIGN CHOICE, log entry 13. -/
opaque slew : Nat → Fin 21

/-- Free value: how many more of the core's own stores its streamer has seen at one of its reads (12 R227). DESIGN CHOICE, log entry 80. -/
opaque streamSees : Nat → Nat

/-- Free value: whether a part of the device whose steps have no stated time moves in a cycle, by the cycle and the part's number (10 R177,
25 R350). DESIGN CHOICE, log entry 12. -/
opaque moves : Nat → Nat → Bool

/-- Free value: the content of a packet's flits (20 R317). DESIGN CHOICE, log entry 16. -/
opaque flit : Nat → Nat → BitVec 256

/-- Free value: whether a packet has two data flits, not one (20 R317). DESIGN CHOICE, log entry 16. -/
opaque twoData : Nat → Bool

end Config

end Sys2Proof
end

