-- ==== Sys2Proof/Syntax.lean ====
section
/-! DEFINITION. The syntax of the LK980: operand types (03_formats_opcode_map.md R42 to R44), the payloads that the
machine's own steps carry, and `Instr`, one constructor per row of the opcode table. -/

namespace Sys2Proof

/-- A scalar register s0 to s31 (R42). -/
abbrev Reg := BitVec 5
/-- A vector register v0 to v31. -/
abbrev VReg := BitVec 5
/-- A mask register k0 to k7. -/
abbrev KReg := BitVec 3
/-- An accumulator tile a0 to a15. -/
abbrev AReg := BitVec 4
/-- A constant-window index. -/
abbrev CIx := BitVec 8
/-- A domain id (R136). -/
abbrev Dom := BitVec 16
/-- A context id (R304). -/
abbrev Ctx := BitVec 16

/-- The long-immediate prefixes before a word (R46): their payloads, first word first. -/
inductive Pfx where
  | none
  | one (p : BitVec 26)
  | two (p q : BitVec 26)
deriving DecidableEq, Repr

/-- How many prefix words there are. -/
def Pfx.count : Pfx → Nat
  | .none => 0
  | .one _ => 1
  | .two _ _ => 2

/-- Scalar integer width, XF of the R and C formats (R43). -/
inductive STy where | i64 | i32
deriving DecidableEq, Repr

/-- TY of the M format for loads (R43). -/
inductive MTy where | i8 | i16 | i32 | i64 | u8 | u16 | u32 | u64
deriving DecidableEq, Repr

/-- TY of the M format for stores (R43). -/
inductive StTy where | i8 | i16 | i32 | i64
deriving DecidableEq, Repr

/-- The type of `amin` and `amax` (R266). -/
inductive ATy where | i64 | i32 | u64 | u32
deriving DecidableEq, Repr

/-- The vector types that arithmetic accepts (R52). -/
inductive VTy where | f32 | bf16 | i32
deriving DecidableEq, Repr

/-- The floating vector types, of the transcendental instructions (R104). -/
inductive FTy where | f32 | bf16
deriving DecidableEq, Repr

/-- The block classes of `vbld` and `vbst` (R110). -/
inductive BTy where | i10 | f10e4 | f10e5 | i5 | f5
deriving DecidableEq, Repr

/-- The type position of `mma` and `mmaj` (R168). -/
inductive MTyp where | i10 | i5
deriving DecidableEq, Repr

/-- The output type of `rdout` (R168, R174). -/
inductive RTyp where | i32 | f32 | bf16 | i10 | i5
deriving DecidableEq, Repr

/-- Ordering of a load (R43). -/
inductive LdOrd where | pg | acq
deriving DecidableEq, Repr

/-- Ordering of a store (R43). -/
inductive StOrd where | pg | rel
deriving DecidableEq, Repr

/-- Ordering of `fence` (R186). -/
inductive FenceOrd where | acqrel | acq | rel
deriving DecidableEq, Repr

/-- Scope (R43, R179). -/
inductive Scope where | core | row | clu | die | dev | pod
deriving DecidableEq, Repr

/-- The domain position of one bit (R43). -/
inductive Dm where | inh | imm
deriving DecidableEq, Repr

/-- The domain position of families 0x0C to 0x11 (R43). -/
inductive DmR where
  | inh
  | imm
  | reg (b : Reg)
deriving DecidableEq, Repr

/-- The control words (R35). -/
inductive Cw where
  | corestat | domain | cyc | now | trapcause | trappc | trapval | itervec | ckpttab | handlerbase
deriving DecidableEq, Repr

/-- The access kinds of a fault-queue entry (R297). -/
inductive Acc where | fetch | load | store | atomic | tagged | jobRead | jobWrite | strip
deriving DecidableEq, Repr

/-- A task: launch and record index; none for a task without a record (R125). -/
abbrev TaskRef := Option (Nat × Nat)

/-- A 64-byte message (R116): the header's fields and the payload's four words, low word first. -/
structure Msg where
  hnd : BitVec 12
  inl : Bool
  ext : Bool
  txc : Bool
  dom : Dom
  inst : BitVec 48
  stmp : BitVec 32
  srcc : BitVec 12
  srcd : BitVec 8
  stag : BitVec 16
  seq : BitVec 16
  rply : Word
  p0 : Word
  p1 : Word
  p2 : Word
  p3 : Word
deriving DecidableEq, Repr

/-- One slot of a derived tile as a linear part or a remote add makes it (R232, R237): lineage, coefficient, poison,
and the ripple-table entry of the upstream core that feeds it: 64 times the number of entries that the core's table has given before
it, plus its place there. -/
structure NewSlot where
  ldev : BitVec 8
  lin : BitVec 16
  coef : BitVec 48
  psn : Bool
  hdev : BitVec 8
  hcore : BitVec 12
  htile : BitVec 4
  entry : Nat
deriving DecidableEq, Repr

/-- The tagged operations of R93. -/
inductive TagOp where | ldw | take | stw | stf | tset | tclr | trd | twait
deriving DecidableEq, Repr

/-- The atomic operations of R266. -/
inductive AtOp where | add | min | max | minu | maxu | and | or | xchg | cas
deriving DecidableEq, Repr

/-- What a packet between the parts of the pod asks for. -/
inductive PBody where
  /-- A message to queue `q` of a core (R127). `after` and `afterW` are the numbers of the first accesses of the sender's S stream and W
  stream that it need not wait for (R190). -/
  | msg (core : Nat) (q : BitVec 2) (m : Msg) (task : TaskRef) (from_ after afterW : Nat)
  /-- A signal on a signal word of a core (R273), from job `job` of core `src`. -/
  | signal (core : Nat) (off : Nat) (ann : Bool) (src job : Nat)
  /-- A ripple or a final mark of a ripple-table entry of core `src` (R242, R243). -/
  | ripple (core : Nat) (slot : Nat) (tile : BitVec 4) (seq : BitVec 16) (cells : Tab (BitVec 48)) (src entry : Nat)
  | mark (core : Nat) (slot : Nat) (tile : BitVec 4) (seq : BitVec 16) (psn : Bool) (src entry : Nat)
  /-- The tile of a remote residue add (R276), from job `job` of core `src`. -/
  | tile (core : Nat) (tile : BitVec 4) (cells : Tab (BitVec 48)) (slots : List NewSlot) (src job : Nat)
  /-- A data packet of a one-sided operation (R272). -/
  | data (addr : Word) (bytes : List Byte) (src job : Nat)
  /-- Accesses of a peer to this device's memory (R321). `tok` names the waiting party of the peer. -/
  | load (addr : Word) (size : Nat) (tok : Nat)
  | store (addr : Word) (bytes : List Byte)
  | atomic (op : AtOp) (addr : Word) (size : Nat) (b e : Word) (tok : Nat)
  | tagop (op : TagOp) (addr : Word) (v : Word) (tok : Nat)
  | sigw (addr : Word) (v : Word) (tok : Nat)
  | fetch (addr : Word) (size : Nat) (tok : Nat)
  /-- An arrival on a barrier object of a peer (R133, R191). -/
  | arrive (addr : Word) (dep ann : Bool)
  /-- A waiting tagged operation of party `tok` is abandoned (R189). -/
  | cancel (tok : Nat)
  /-- Notices between EXUs (R144, R145, R154, R155): the domain id is the home's. -/
  | annulNotice (d : Dom)
  | instNotice (d : Dom) (inst : Word)
  | maskNotice (d : Dom) (mask : BitVec 256)
  | annulReq (d : Dom)
  | extendReq (d : Dom) (inst : Word)
  | noticeAck (d : Dom)
  /-- A drop notice for a data packet of job `job` of core `src` (R272). -/
  | dropNotice (src job : Nat)
  /-- An acknowledgement of ripples below `seq` on entry `entry` of core `src` (R249). -/
  | rippleAck (src entry : Nat) (seq : BitVec 16)
  /-- The answer to a remote tile add (R276), with the slot that each of the source's entries feeds. -/
  | tileDone (src job : Nat) (ok : Bool) (slots : List (Nat × Nat))
  /-- The refusal of an access packet without a port-map entry, or of one that is a violation at its source (R320, R321). -/
  | refusal (src : Nat) (addr : Word) (d : Dom) (task : TaskRef)
deriving DecidableEq, Repr

/-- A packet from a peer as its link flit and data flits give it (R317, R320). -/
structure PeerPkt where
  srcDev : BitVec 8
  srcCore : BitVec 12
  srcCtx : Ctx
  dom : Dom
  ext : Bool
  inst : BitVec 48
  body : PBody
deriving DecidableEq, Repr

/-- What LOAD_REPLY brings from outside: nothing for an access to this device; for one to a peer the value read, or that
the reply carries no value because the error could not be corrected (R302). -/
inductive PeerReply where
  | own
  | val (v : BitVec 128)
  | corrected
  | dataErr
  /-- the peer has performed, or dropped, what packet `p` took to it (R148, R179); or has taken the message of that packet (R226) -/
  | performed (p : Nat)
  /-- the peer has withdrawn the request of an abandoned tagged operation (R96, R189) -/
  | withdrawn
  /-- the checks at the peer end in a demand fault of kind `fk` (R321): of the access that packet `p` took there, else of what waits -/
  | fault (p : Option Nat) (fk : BitVec 4)
deriving DecidableEq, Repr

/-- What soft error, if any, JOB_ITERATION meets (R223, R302), and the bytes a read at a peer returns. -/
inductive JobErr where
  | none
  | corrected
  | uncorrectable
  | peer (bytes : List Byte)
deriving DecidableEq, Repr

/-- What the ring jobs of neighbouring ranks must agree in (R282): NR, KIND, DT, LEN and TMO. -/
structure RingKey where
  nr : Nat
  kind : Nat
  dt : Nat
  len : Nat
  tmo : Nat
deriving DecidableEq, Repr

/-- What a ring sequencer has received from PREVD at a chunk boundary (R281, R282), with what PREVD's card says, and the source of the
packets (20 R320): the chunk's bytes, or a tile with the device and core that it comes from and its slots. -/
inductive RingIn where
  | chunk (ctx : Ctx) (card : RingKey) (bytes : List Byte)
  | tiles (ctx : Ctx) (card : RingKey) (src : Nat) (cells : Tab (BitVec 48)) (slots : List NewSlot)
deriving DecidableEq, Repr

/-- What the host does (R265, R328, R329): CXL.mem reads and writes of device memory, a CXL.cache atomic on a system-atomic page, a read of
a command-queue register at its offset, and a write of the host's own memory, where the rings and buffers stand. -/
inductive HostAcc where
  | reg (q off : Nat)
  | own (a : Nat) (bytes : List Byte)
  | read (pa : Nat) (n : Nat)
  | write (pa : Nat) (bytes : List Byte)
  | atomic (pa : Nat) (op : AtOp) (size : Nat) (b e : Word)
deriving DecidableEq, Repr

/-- A context record as the firmware writes it (R304). -/
structure CtxRec where
  root : Word
  hbase : Word
  save : Word
  ssz : Word
  wlg : BitVec 6
  txc : Bool
deriving DecidableEq, Repr

/-- A flow-table entry as the firmware writes it (R324), FRAMES apart. -/
structure FlowRec where
  dmac : BitVec 48
  etype : BitVec 16
  vid : BitVec 12
  ipp : BitVec 8
  msk : BitVec 6
  l4dst : BitVec 16
  core : BitVec 12
  q : BitVec 2
  stag : BitVec 16
  hnd : BitVec 12
  budget : BitVec 32
  ctx : Ctx
  ring : Word
  nslot : BitVec 32
  slog : BitVec 8
  cons : Word
deriving DecidableEq, Repr

/-- A setting of a configuration record (R303, R319, R320, R326, R344). -/
inductive CfgSet where
  | podSize (n : Nat) (own : BitVec 8)
  | portMap (port : Nat) (dev : BitVec 8) (src dst : Ctx)
  | domBlock (port : Nat) (lo n : Nat)
  | spare (core : Nat)
deriving DecidableEq, Repr

/-- An item of a halted core's state that the debug module writes (R340), of those that a full save keeps (R308). -/
inductive DbgItem where
  | pc (v : Word)
  | s (r : Reg) (v : Word)
  | v (r : VReg) (l : BitVec 6) (x : BitVec 32)
  | k (r : KReg) (x : BitVec 48)
  | q (n : BitVec 3) (l : List Word)
  | corestat (v : Word)
  | domain (d : Dom) (inst : BitVec 48) (ext : Bool)
  | trap (intrap : Bool) (cause : BitVec 9) (pc val : Word)
  | iter (v : Word)
  | ckpttab (v : Word)
  | hbase (v : Word)
  | sp (off : Nat) (bytes : List Byte)
  | tag (off : Nat) (full : Bool)
  | bars (l : List (Nat × Nat))
  | age (n : Nat)
  | wiv (n : Nat)
  | wbuf (l : List (BitVec 32 × Word))
  | wpendV (rem : Nat) (r : VReg) (mask : BitVec 48) (x : List (BitVec 32)) (fl : BitVec 5)
  | wpendK (rem : Nat) (r : KReg) (mask x : BitVec 48) (fl : BitVec 5)
  | wpendQ (rem : Nat) (n : BitVec 2) (x : Word) (fl : BitVec 5)
  | wpendNone
  | stream (r : BitVec 3) (next : Option Word)
  | cell (t : BitVec 4) (i : Nat) (x : BitVec 48)
  | header (t : BitVec 4) (d : Dom) (inst : BitVec 48) (ext : Bool) (pnd : Bool) (st : BitVec 2)
  | slot (t : BitVec 4) (i : BitVec 2) (v : Bool) (coef : BitVec 48) (ldev : BitVec 8) (lin : BitVec 16) (psn fin : Bool) (seq : BitVec 16)
  | parts (l : List (BitVec 32 × Word))
  | ripple (e : Nat) (v : Bool) (seq ack : BitVec 16) (ddev : BitVec 8) (dcore : BitVec 12) (dtile : BitVec 4) (dslot : Nat) (fin : Bool)
  | armed (i : Nat) (trig : Nat) (thr src dst : Word) (len : Nat) (sig : Word) (cmpl : Nat)
  | job (i : Nat) (src dst : Word) (iter : Word) (done : Nat)
  | msg (q : BitVec 2) (ix : Nat) (m : Msg)
deriving DecidableEq, Repr

/-- What the sideband reads (R349). -/
inductive SbItem where
  | temperature (n : Nat)
  | power (n : Nat)
  | ptpLock
  | linkDown (port : Nat)
  | aged (port : Option Nat)
  | nodev (port : Nat)
  | nomap (port : Nat)
  | expd (port : Nat)
  | expdAt (ep : Nat)
deriving DecidableEq, Repr

/-- Registers that the host, the firmware or a Tsuat controller writes, or reads over the debug module or the sideband, and that have no row
of their own (REGISTER_WRITE). -/
inductive FwReg where
  /-- a configuration record of the management flash, by its number: version, digest, settings (R344) -/
  | config (n : Nat) (version : BitVec 32) (digest : BitVec 256) (l : List CfgSet)
  /-- the host windows that the operator configures for a queue: base and bytes (R331) -/
  | caps (q : Nat) (l : List (Nat × Nat))
  /-- a plane is live, or not, at a device's end (R316) -/
  | planeAt (dev port : Nat) (live : Bool)
  /-- the state of a halted core is read, or an item of it written (R340) -/
  | coreRead (core : Nat)
  | coreWrite (core : Nat) (i : DbgItem)
  | sideband (i : SbItem)
  | rbase (q : Nat) (v : Word)
  | rsize (q : Nat) (v : Word)
  | cbase (q : Nat) (v : Word)
  | csize (q : Nat) (v : Word)
  | irq (q : Nat) (v : Word)
  | flow (port n : Nat) (f : FlowRec)
  | egress (port q : Nat) (ring size tailVa : Word) (ctx : Ctx)
  | context (c : Ctx) (r : CtxRec)
  | traceRing (core : Nat) (base size : Word)
  | bp (core : Nat) (n : BitVec 2) (v : Word)
  | wp (core : Nat) (n : Bool) (v : Word) (ld st : Bool)
  | dctlEn (core : Nat) (bpen : BitVec 4) (wpen : BitVec 2)
  | pte (pa : Nat) (v : Word)
  /-- the frame that the fault service assigns to a 64 KiB page of a context (R333) -/
  | frame (c : Ctx) (va : Word) (pa : Nat)
deriving DecidableEq, Repr

/-- The acknowledgement that comes with a flit (20 R317): the flit that the far end expects next, and whether it refuses that flit. -/
structure FlitAck where
  next : BitVec 16
  refused : Bool
deriving DecidableEq, Repr

/-- A firmware image in the management flash (R344, R346): the slot, its version, and its bytes' digest. -/
structure FwImage where
  slot : Bool
  version : BitVec 32
  digest : BitVec 256
deriving DecidableEq, Repr

/-- The instructions and steps of the machine, one constructor per row of the opcode table: those
with operands first. `pf` and the hints other than `hintMark` use none of their operand fields (R49, R92); `hintMark`,
`trap` and `brk` read theirs from the word being executed, `State.ir`.
A row with an encoding is an instruction that `decode` reads; the other rows are steps of the machine that no word
encodes (95_what_each_step_holds.md), whose arguments name what they happen to and what comes from outside. -/
inductive Instr where
  | add (t : STy) (b : Reg) (a : Reg) (d : Reg)  -- R80
  | sub (t : STy) (b : Reg) (a : Reg) (d : Reg)  -- R80
  | and (t : STy) (b : Reg) (a : Reg) (d : Reg)  -- R80
  | or (t : STy) (b : Reg) (a : Reg) (d : Reg)  -- R80
  | xor (t : STy) (b : Reg) (a : Reg) (d : Reg)  -- R80
  | andn (t : STy) (b : Reg) (a : Reg) (d : Reg)  -- R80
  | orn (t : STy) (b : Reg) (a : Reg) (d : Reg)  -- R80
  | shl (t : STy) (b : Reg) (a : Reg) (d : Reg)  -- R80
  | shr (t : STy) (b : Reg) (a : Reg) (d : Reg)  -- R80
  | sra (t : STy) (b : Reg) (a : Reg) (d : Reg)  -- R80
  | ror (t : STy) (b : Reg) (a : Reg) (d : Reg)  -- R80
  | mul (t : STy) (b : Reg) (a : Reg) (d : Reg)  -- R80
  | mulh (t : STy) (b : Reg) (a : Reg) (d : Reg)  -- R80
  | mulhu (t : STy) (b : Reg) (a : Reg) (d : Reg)  -- R80
  | div (t : STy) (b : Reg) (a : Reg) (d : Reg)  -- R81
  | divu (t : STy) (b : Reg) (a : Reg) (d : Reg)  -- R81
  | rem (t : STy) (b : Reg) (a : Reg) (d : Reg)  -- R81
  | remu (t : STy) (b : Reg) (a : Reg) (d : Reg)  -- R81
  | min (t : STy) (b : Reg) (a : Reg) (d : Reg)  -- R80
  | max (t : STy) (b : Reg) (a : Reg) (d : Reg)  -- R80
  | minu (t : STy) (b : Reg) (a : Reg) (d : Reg)  -- R80
  | maxu (t : STy) (b : Reg) (a : Reg) (d : Reg)  -- R80
  | ceq (t : STy) (b : Reg) (a : Reg) (d : Reg)  -- R80
  | cne (t : STy) (b : Reg) (a : Reg) (d : Reg)  -- R80
  | clt (t : STy) (b : Reg) (a : Reg) (d : Reg)  -- R80
  | cltu (t : STy) (b : Reg) (a : Reg) (d : Reg)  -- R80
  | cle (t : STy) (b : Reg) (a : Reg) (d : Reg)  -- R80
  | cleu (t : STy) (b : Reg) (a : Reg) (d : Reg)  -- R80
  | abs (t : STy) (a : Reg) (d : Reg)  -- R80
  | clz (t : STy) (a : Reg) (d : Reg)  -- R80
  | ctz (t : STy) (a : Reg) (d : Reg)  -- R80
  | popc (t : STy) (a : Reg) (d : Reg)  -- R80
  | bfx (t : STy) (b : Reg) (a : Reg) (d : Reg)  -- R82
  | addConst (c : CIx) (t : STy) (a : Reg) (d : Reg)  -- R79
  | subConst (c : CIx) (t : STy) (a : Reg) (d : Reg)  -- R79
  | andConst (c : CIx) (t : STy) (a : Reg) (d : Reg)  -- R79
  | orConst (c : CIx) (t : STy) (a : Reg) (d : Reg)  -- R79
  | xorConst (c : CIx) (t : STy) (a : Reg) (d : Reg)  -- R79
  | andnConst (c : CIx) (t : STy) (a : Reg) (d : Reg)  -- R79
  | ornConst (c : CIx) (t : STy) (a : Reg) (d : Reg)  -- R79
  | shlConst (c : CIx) (t : STy) (a : Reg) (d : Reg)  -- R79
  | shrConst (c : CIx) (t : STy) (a : Reg) (d : Reg)  -- R79
  | sraConst (c : CIx) (t : STy) (a : Reg) (d : Reg)  -- R79
  | rorConst (c : CIx) (t : STy) (a : Reg) (d : Reg)  -- R79
  | mulConst (c : CIx) (t : STy) (a : Reg) (d : Reg)  -- R79
  | mulhConst (c : CIx) (t : STy) (a : Reg) (d : Reg)  -- R79
  | mulhuConst (c : CIx) (t : STy) (a : Reg) (d : Reg)  -- R79
  | divConst (c : CIx) (t : STy) (a : Reg) (d : Reg)  -- R79
  | divuConst (c : CIx) (t : STy) (a : Reg) (d : Reg)  -- R79
  | remConst (c : CIx) (t : STy) (a : Reg) (d : Reg)  -- R79
  | remuConst (c : CIx) (t : STy) (a : Reg) (d : Reg)  -- R79
  | minConst (c : CIx) (t : STy) (a : Reg) (d : Reg)  -- R79
  | maxConst (c : CIx) (t : STy) (a : Reg) (d : Reg)  -- R79
  | minuConst (c : CIx) (t : STy) (a : Reg) (d : Reg)  -- R79
  | maxuConst (c : CIx) (t : STy) (a : Reg) (d : Reg)  -- R79
  | ceqConst (c : CIx) (t : STy) (a : Reg) (d : Reg)  -- R79
  | cneConst (c : CIx) (t : STy) (a : Reg) (d : Reg)  -- R79
  | cltConst (c : CIx) (t : STy) (a : Reg) (d : Reg)  -- R79
  | cltuConst (c : CIx) (t : STy) (a : Reg) (d : Reg)  -- R79
  | cleConst (c : CIx) (t : STy) (a : Reg) (d : Reg)  -- R79
  | cleuConst (c : CIx) (t : STy) (a : Reg) (d : Reg)  -- R79
  | bfxConst (c : CIx) (t : STy) (a : Reg) (d : Reg)  -- R82
  | addImm (x : Pfx) (i : BitVec 12) (a : Reg) (d : Reg)  -- R79
  | andImm (x : Pfx) (i : BitVec 12) (a : Reg) (d : Reg)  -- R79
  | orImm (x : Pfx) (i : BitVec 12) (a : Reg) (d : Reg)  -- R79
  | xorImm (x : Pfx) (i : BitVec 12) (a : Reg) (d : Reg)  -- R79
  | shlImm (x : Pfx) (i : BitVec 12) (a : Reg) (d : Reg)  -- R79
  | shrImm (x : Pfx) (i : BitVec 12) (a : Reg) (d : Reg)  -- R79
  | sraImm (x : Pfx) (i : BitVec 12) (a : Reg) (d : Reg)  -- R79
  | rorImm (x : Pfx) (i : BitVec 12) (a : Reg) (d : Reg)  -- R79
  | mulImm (x : Pfx) (i : BitVec 12) (a : Reg) (d : Reg)  -- R79
  | minImm (x : Pfx) (i : BitVec 12) (a : Reg) (d : Reg)  -- R79
  | maxImm (x : Pfx) (i : BitVec 12) (a : Reg) (d : Reg)  -- R79
  | ceqImm (x : Pfx) (i : BitVec 12) (a : Reg) (d : Reg)  -- R79
  | cneImm (x : Pfx) (i : BitVec 12) (a : Reg) (d : Reg)  -- R79
  | cltImm (x : Pfx) (i : BitVec 12) (a : Reg) (d : Reg)  -- R79
  | cleImm (x : Pfx) (i : BitVec 12) (a : Reg) (d : Reg)  -- R79
  | cltuImm (x : Pfx) (i : BitVec 12) (a : Reg) (d : Reg)  -- R79
  | li (x : Pfx) (i : BitVec 21) (d : Reg)  -- R83
  | beq (x : Pfx) (o : BitVec 13) (b : Reg) (a : Reg)  -- R84
  | bne (x : Pfx) (o : BitVec 13) (b : Reg) (a : Reg)  -- R84
  | blt (x : Pfx) (o : BitVec 13) (b : Reg) (a : Reg)  -- R84
  | bge (x : Pfx) (o : BitVec 13) (b : Reg) (a : Reg)  -- R84
  | bltu (x : Pfx) (o : BitVec 13) (b : Reg) (a : Reg)  -- R84
  | bgeu (x : Pfx) (o : BitVec 13) (b : Reg) (a : Reg)  -- R84
  | loop (x : Pfx) (o : BitVec 13) (a : Reg)  -- R84
  | j (x : Pfx) (o : BitVec 21)  -- R85
  | call (x : Pfx) (o : BitVec 21) (d : Reg)  -- R85
  | jr (a : Reg) (d : Reg)  -- R85
  | ld (x : Pfx) (o : BitVec 7) (r : LdOrd) (sc : Scope) (t : MTy) (a : Reg) (d : Reg)  -- R88
  | st (x : Pfx) (o : BitVec 7) (r : StOrd) (sc : Scope) (m : Dm) (t : StTy) (a : Reg) (d : Reg)  -- R88
  | ldw (x : Pfx) (o : BitVec 12) (a : Reg) (d : Reg)  -- R93
  | take (x : Pfx) (o : BitVec 12) (m : Dm) (a : Reg) (d : Reg)  -- R93
  | stw (x : Pfx) (o : BitVec 12) (m : Dm) (a : Reg) (d : Reg)  -- R93
  | stf (x : Pfx) (o : BitVec 12) (m : Dm) (a : Reg) (d : Reg)  -- R93
  | tset (x : Pfx) (o : BitVec 12) (m : Dm) (a : Reg)  -- R93
  | tclr (x : Pfx) (o : BitVec 12) (m : Dm) (a : Reg)  -- R93
  | trd (x : Pfx) (o : BitVec 12) (a : Reg) (d : Reg)  -- R93
  | twait (x : Pfx) (o : BitVec 12) (a : Reg)  -- R93
  | ldx (t : MTy) (b : Reg) (a : Reg) (d : Reg)  -- R92
  | stx (t : StTy) (b : Reg) (a : Reg) (d : Reg)  -- R92
  | ldp (b : Reg) (a : Reg) (d : Reg)  -- R92
  | stp (b : Reg) (a : Reg) (d : Reg)  -- R92
  | zblk (a : Reg)  -- R92
  | fence (o : FenceOrd) (sc : Scope)  -- R184
  | qpush (a : Reg) (n : BitVec 2)  -- R97
  | qpop (n : BitVec 2) (d : Reg)  -- R97
  | send (m : Dm) (b : Reg) (a : Reg)  -- R127
  | sendi (m : Dm) (b : Reg) (a : Reg)  -- R127
  | enq (x : DmR) (d : Reg)  -- R129
  | defer (a : Reg)  -- R130
  | breg (a : Reg)  -- R134
  | barr (a : Reg)  -- R134
  | dnew (a : Reg) (d : Reg)  -- R151
  | djoin (x : DmR) (a : Reg) (d : Reg)  -- R152
  | dleave (x : DmR) (a : Reg) (d : Reg)  -- R153
  | dannul (x : DmR) (d : Reg)  -- R154
  | dwhen (x : DmR) (a : Reg) (d : Reg)  -- R155
  | dmask (x : DmR) (a : Reg) (d : Reg)  -- R156
  | nopen (m : Dm) (b : Reg) (a : Reg) (d : Reg)  -- R258
  | nopenWait (m : Dm) (b : Reg) (a : Reg) (d : Reg)  -- R258
  | nclose (a : Reg) (d : Reg)  -- R259
  | nbind (m : Dm) (a : Reg) (d : Reg)  -- R260
  | nq (b : Reg) (a : Reg) (d : Reg)  -- R261
  | rseal (b : Reg) (a : Reg) (d : Reg)  -- R212
  | cpy (m : Dm) (a : Reg) (d : Reg)  -- R215
  | waitp (a : Reg)  -- R224
  | wm (a : Reg) (d : Reg)  -- R225
  | aadd (m : Dm) (t : STy) (b : Reg) (a : Reg) (d : Reg)  -- R267
  | amin (m : Dm) (t : ATy) (b : Reg) (a : Reg) (d : Reg)  -- R267
  | amax (m : Dm) (t : ATy) (b : Reg) (a : Reg) (d : Reg)  -- R267
  | aand (m : Dm) (t : STy) (b : Reg) (a : Reg) (d : Reg)  -- R267
  | aor (m : Dm) (t : STy) (b : Reg) (a : Reg) (d : Reg)  -- R267
  | axchg (m : Dm) (t : STy) (b : Reg) (a : Reg) (d : Reg)  -- R267
  | acas (m : Dm) (t : STy) (b : Reg) (a : Reg) (d : Reg)  -- R267
  | put (x : DmR) (a : Reg) (d : Reg)  -- R272
  | putsg (x : DmR) (a : Reg) (d : Reg)  -- R273
  | get (x : DmR) (a : Reg) (d : Reg)  -- R272
  | padd (x : DmR) (a : Reg) (d : Reg)  -- R275
  | arm (x : DmR) (a : Reg) (d : Reg)  -- R277
  | sigw (b : Reg) (a : Reg) (d : Reg)  -- R274
  | ringj (x : DmR) (a : Reg) (d : Reg)  -- R278
  | cwr (w : Cw) (d : Reg)  -- R293
  | cww (w : Cw) (a : Reg)  -- R293
  | ckpt (i : BitVec 12)  -- R307
  | time (d : Reg)  -- R294
  | cyc (d : Reg)  -- R294
  | waitc (a : Reg)  -- R294
  | vadd (k : KReg) (t : VTy) (b : VReg) (a : VReg) (d : VReg)  -- R100
  | vsub (k : KReg) (t : VTy) (b : VReg) (a : VReg) (d : VReg)  -- R100
  | vmul (k : KReg) (t : VTy) (b : VReg) (a : VReg) (d : VReg)  -- R100
  | vmin (k : KReg) (t : VTy) (b : VReg) (a : VReg) (d : VReg)  -- R100
  | vmax (k : KReg) (t : VTy) (b : VReg) (a : VReg) (d : VReg)  -- R100
  | vabs (k : KReg) (t : VTy) (a : VReg) (d : VReg)  -- R100
  | vneg (k : KReg) (t : VTy) (a : VReg) (d : VReg)  -- R100
  | vceq (k : KReg) (t : VTy) (b : VReg) (a : VReg) (d : KReg)  -- R101
  | vclt (k : KReg) (t : VTy) (b : VReg) (a : VReg) (d : KReg)  -- R101
  | vcle (k : KReg) (t : VTy) (b : VReg) (a : VReg) (d : KReg)  -- R101
  | vsel (k : KReg) (t : VTy) (b : VReg) (a : VReg) (d : VReg)  -- R102
  | vand (k : KReg) (t : VTy) (b : VReg) (a : VReg) (d : VReg)  -- R102
  | vor (k : KReg) (t : VTy) (b : VReg) (a : VReg) (d : VReg)  -- R102
  | vxor (k : KReg) (t : VTy) (b : VReg) (a : VReg) (d : VReg)  -- R102
  | vshl (k : KReg) (b : VReg) (a : VReg) (d : VReg)  -- R102
  | vshr (k : KReg) (b : VReg) (a : VReg) (d : VReg)  -- R102
  | vsra (k : KReg) (b : VReg) (a : VReg) (d : VReg)  -- R102
  | vcvt (k : KReg) (t : VTy) (s : VTy) (a : VReg) (d : VReg)  -- R103
  | vrcp (k : KReg) (t : FTy) (a : VReg) (d : VReg)  -- R104
  | vrsq (k : KReg) (t : FTy) (a : VReg) (d : VReg)  -- R104
  | vexp (k : KReg) (t : FTy) (a : VReg) (d : VReg)  -- R104
  | vlog (k : KReg) (t : FTy) (a : VReg) (d : VReg)  -- R104
  | vtanh (k : KReg) (t : FTy) (a : VReg) (d : VReg)  -- R104
  | vsig (k : KReg) (t : FTy) (a : VReg) (d : VReg)  -- R104
  | vperm (k : KReg) (b : VReg) (a : VReg) (d : VReg)  -- R102
  | vfmaF32 (k : KReg) (c : VReg) (b : VReg) (a : VReg) (d : VReg)  -- R100
  | vfmaBf16 (k : KReg) (c : VReg) (b : VReg) (a : VReg) (d : VReg)  -- R100
  | vfmsF32 (k : KReg) (c : VReg) (b : VReg) (a : VReg) (d : VReg)  -- R100
  | vfmsBf16 (k : KReg) (c : VReg) (b : VReg) (a : VReg) (d : VReg)  -- R100
  | vfmaI32 (k : KReg) (c : VReg) (b : VReg) (a : VReg) (d : VReg)  -- R100
  | vfmsI32 (k : KReg) (c : VReg) (b : VReg) (a : VReg) (d : VReg)  -- R100
  | vaddF32Const (k : KReg) (c : CIx) (a : VReg) (d : VReg)  -- R105
  | vsubF32Const (k : KReg) (c : CIx) (a : VReg) (d : VReg)  -- R105
  | vmulF32Const (k : KReg) (c : CIx) (a : VReg) (d : VReg)  -- R105
  | vminF32Const (k : KReg) (c : CIx) (a : VReg) (d : VReg)  -- R105
  | vmaxF32Const (k : KReg) (c : CIx) (a : VReg) (d : VReg)  -- R105
  | vceqF32Const (k : KReg) (c : CIx) (a : VReg) (d : KReg)  -- R105
  | vcltF32Const (k : KReg) (c : CIx) (a : VReg) (d : KReg)  -- R105
  | vcleF32Const (k : KReg) (c : CIx) (a : VReg) (d : KReg)  -- R105
  | vandF32Const (k : KReg) (c : CIx) (a : VReg) (d : VReg)  -- R105
  | vorF32Const (k : KReg) (c : CIx) (a : VReg) (d : VReg)  -- R105
  | vxorF32Const (k : KReg) (c : CIx) (a : VReg) (d : VReg)  -- R105
  | vaddBf16Const (k : KReg) (c : CIx) (a : VReg) (d : VReg)  -- R105
  | vsubBf16Const (k : KReg) (c : CIx) (a : VReg) (d : VReg)  -- R105
  | vmulBf16Const (k : KReg) (c : CIx) (a : VReg) (d : VReg)  -- R105
  | vminBf16Const (k : KReg) (c : CIx) (a : VReg) (d : VReg)  -- R105
  | vmaxBf16Const (k : KReg) (c : CIx) (a : VReg) (d : VReg)  -- R105
  | vceqBf16Const (k : KReg) (c : CIx) (a : VReg) (d : KReg)  -- R105
  | vcltBf16Const (k : KReg) (c : CIx) (a : VReg) (d : KReg)  -- R105
  | vcleBf16Const (k : KReg) (c : CIx) (a : VReg) (d : KReg)  -- R105
  | vandBf16Const (k : KReg) (c : CIx) (a : VReg) (d : VReg)  -- R105
  | vorBf16Const (k : KReg) (c : CIx) (a : VReg) (d : VReg)  -- R105
  | vxorBf16Const (k : KReg) (c : CIx) (a : VReg) (d : VReg)  -- R105
  | vaddI32Const (k : KReg) (c : CIx) (a : VReg) (d : VReg)  -- R105
  | vsubI32Const (k : KReg) (c : CIx) (a : VReg) (d : VReg)  -- R105
  | vmulI32Const (k : KReg) (c : CIx) (a : VReg) (d : VReg)  -- R105
  | vminI32Const (k : KReg) (c : CIx) (a : VReg) (d : VReg)  -- R105
  | vmaxI32Const (k : KReg) (c : CIx) (a : VReg) (d : VReg)  -- R105
  | vceqI32Const (k : KReg) (c : CIx) (a : VReg) (d : KReg)  -- R105
  | vcltI32Const (k : KReg) (c : CIx) (a : VReg) (d : KReg)  -- R105
  | vcleI32Const (k : KReg) (c : CIx) (a : VReg) (d : KReg)  -- R105
  | vandI32Const (k : KReg) (c : CIx) (a : VReg) (d : VReg)  -- R105
  | vorI32Const (k : KReg) (c : CIx) (a : VReg) (d : VReg)  -- R105
  | vxorI32Const (k : KReg) (c : CIx) (a : VReg) (d : VReg)  -- R105
  | vshlI32Const (k : KReg) (c : CIx) (a : VReg) (d : VReg)  -- R105
  | vshrI32Const (k : KReg) (c : CIx) (a : VReg) (d : VReg)  -- R105
  | vsraI32Const (k : KReg) (c : CIx) (a : VReg) (d : VReg)  -- R105
  | vext (t : VTy) (l : BitVec 6) (q : BitVec 2) (v : VReg)  -- R106
  | vins (t : VTy) (l : BitVec 6) (q : BitVec 2) (v : VReg)  -- R106
  | vbc (k : KReg) (t : VTy) (q : BitVec 2) (v : VReg)  -- R106
  | vred (k : KReg) (t : VTy) (q : BitVec 2) (v : VReg)  -- R107
  | vrmax (k : KReg) (t : VTy) (q : BitVec 2) (v : VReg)  -- R107
  | vrmin (k : KReg) (t : VTy) (q : BitVec 2) (v : VReg)  -- R107
  | kget (q : BitVec 2) (r : KReg)  -- R106
  | kput (q : BitVec 2) (r : KReg)  -- R106
  | vld (k : KReg) (t : VTy) (p : Bool) (q : BitVec 2) (o : BitVec 12) (d : VReg)  -- R109
  | vst (k : KReg) (t : VTy) (p : Bool) (q : BitVec 2) (o : BitVec 12) (d : VReg)  -- R109
  | vbld (k : KReg) (t : BTy) (p : Bool) (q : BitVec 2) (o : BitVec 12) (d : VReg)  -- R110
  | vbst (k : KReg) (t : BTy) (p : Bool) (q : BitVec 2) (o : BitVec 12) (d : VReg)  -- R111
  | vgath (k : KReg) (t : VTy) (p : Bool) (q : BitVec 2) (i : VReg) (d : VReg)  -- R109
  | vscat (k : KReg) (t : VTy) (p : Bool) (q : BitVec 2) (i : VReg) (d : VReg)  -- R109
  | smode (c : CIx) (d : BitVec 3)  -- R228
  | soff (d : BitVec 3)  -- R229
  | mma (c : CIx) (w : Bool) (l : Bool) (g : Bool) (y : MTyp) (t : AReg)  -- R170
  | mmaj (c : CIx) (w : Bool) (l : Bool) (g : Bool) (y : MTyp) (t : AReg)  -- R172
  | aclr (t : AReg)  -- R173
  | acpy (s : AReg) (t : AReg)  -- R173
  | radd (s : AReg) (t : AReg)  -- R173
  | rscl (j : BitVec 3) (t : AReg)  -- R173
  | rdout (c : CIx) (y : RTyp) (t : AReg)  -- R174
  | publOpen (t : AReg)  -- R235
  | publClose (t : AReg)  -- R236
  | still (c : CIx)  -- R246
  | aspl (c : CIx) (t : AReg)  -- R175
  | afil (c : CIx) (t : AReg)  -- R175
  | mwait (c : CIx)  -- R176
  | pf  -- R92
  | drain  -- R185
  | done  -- R86
  | xfence  -- R227
  | trap  -- R292
  | eret  -- R291
  | brk  -- R292
  | nop  -- R49
  | hintPoll  -- R49
  | hintMark  -- R49
  | hintOther  -- R49
  | illegalInstruction  -- R53
  | wDispatch (w : BitVec 32)  -- R21
  | wIssue (c : Nat)  -- R22
  | wWriteLanding (c : Nat)  -- R26
  | stripFetch (c : Nat) (r : BitVec 3)  -- R228
  | slicePartStart (c : Nat)  -- R163
  | slicePartComplete (c : Nat)  -- R163
  | gangStart (row : Nat)  -- R162
  | gangComplete (row : Nat)  -- R163
  | mmajIterationBoundary (row : Nat)  -- R172
  | gangto (row : Nat)  -- R162
  | rippleArrival (c : Nat)  -- R244
  | markArrival (c : Nat)  -- R244
  | rippleAck (c : Nat) (e : Nat) (q : BitVec 16)  -- R249
  | rippleResend (c : Nat)  -- R249
  | remoteTileArrival (c : Nat)  -- R276
  | wbHeldWrite (c : Nat)  -- R161
  | activationStart (c : Nat)  -- R33
  | activationEnd (c : Nat)  -- R34
  | deferEligible (c : Nat) (q : BitVec 2) (ix : Nat)  -- R130
  | messageArrival (p : Nat)  -- R128
  | outboundEntryFree (c : Nat)  -- R127
  | packetHop (p : Nat)  -- R142
  | packetAgedOut (p : Nat)  -- R318
  | domainCacheFill (ep : Nat) (d : Dom)  -- R143
  | domainCacheUpdate (ep : Nat) (d : Dom)  -- R143
  | domainExpiry (d : Dom)  -- R144
  | annulmentNotice (ep : Nat) (d : Dom)  -- R148
  | peerNoticeResend (d : Dom) (dev : Nat)  -- R147
  | domainIdFree (d : Dom)  -- R147
  | peerPacketReceive (port : Nat) (pk : PeerPkt)  -- R320
  | shadowNotice (p : Nat)  -- R145
  | storePerform (c : Nat) (i : Nat)  -- R177
  | loadReply (c : Nat) (r : PeerReply)  -- R179
  | taggedWaitWake (c : Nat)  -- R94
  | waitLimitExpiry (c : Nat)  -- R95
  | cycleWaitEnd (c : Nat)  -- R294
  | fenceDrainEnd (c : Nat)  -- R184
  | serviceReply (c : Nat)  -- R150
  | barrierArrival (c : Nat) (i : Nat)  -- R133
  | trapEntry (c : Nat)  -- R289
  | clusterReport (cl : Nat)  -- R132
  | recordReady (l : Nat) (r : Nat)  -- R125
  | leaseGrant (l : Nat) (r : Nat) (va : Word)  -- R205
  | leaseRefusal (l : Nat) (r : Nat)  -- R205
  | taskPlacement (l : Nat) (r : Nat)  -- R132
  | gangReservation (l : Nat) (r : Nat)  -- R132
  | taskComplete (l : Nat) (r : Nat)  -- R126
  | jobRelease (c : Nat) (j : Nat)  -- R217
  | jobStart (c : Nat) (j : Nat)  -- R208
  | jobIteration (c : Nat) (j : Nat) (err : JobErr)  -- R214
  | jobComplete (c : Nat) (j : Nat)  -- R218
  | dropNoticeArrival (c : Nat) (j : Nat)  -- R272
  | putDataArrival (p : Nat)  -- R272
  | signalSend (c : Nat) (j : Nat)  -- R273
  | signalArrival (p : Nat)  -- R273
  | heldFiringSubmit (c : Nat)  -- R277
  | atomicPerform (c : Nat) (i : Nat)  -- R268
  | ringJobStart (port : Nat)  -- R278
  | ringChunkStep (port : Nat) (inp : RingIn)  -- R281
  | ringLossTimeout (port : Nat)  -- R282
  | lossMarkArrival (port : Nat) (mask : BitVec 192)  -- R282
  | ringJobEnd (port : Nat)  -- R282
  | tableWalk (c : Nat) (va : Word) (acc : Acc)  -- R200
  | lateViolationReport (c : Nat) (adr : Word) (d : Dom) (task : TaskRef)  -- R300
  | shootdown (cmd : BitVec 128)  -- R203
  | clusterShootdownAck (cl : Nat)  -- R203
  | shootdownComplete  -- R203
  | leaseRecall (dev : Nat) (lease : Nat)  -- R322
  | leaseRecallTimeout (dev : Nat)  -- R322
  | peerAccess (p : Nat)  -- R321
  | faultRetry (q : Nat) (ix : Nat)  -- R298
  | faultDeny (q : Nat) (ix : Nat)  -- R298
  | faultAck (q : Nat) (ix : Nat)  -- R298
  | thaw (c : Nat) (ch : Option (BitVec 2))  -- R301
  | coreRetire (c : Nat)  -- R303
  | preemptRequest (c : Nat)  -- R305
  | preemptTimeout (c : Nat)  -- R305
  | contextResume (c : Nat) (ctx : Ctx)  -- R310
  | haltRequest (c : Nat)  -- R339
  | haltRelease (c : Nat)  -- R340
  | singleStep (c : Nat)  -- R339
  | debugHalt (c : Nat)  -- R340
  | counterProgram (c : Nat) (n : BitVec 2) (code : BitVec 3)  -- R343
  | counterOverflow (c : Nat) (n : BitVec 2)  -- R343
  | accumulatorReadClear (c : Nat)  -- R342
  | flitReceive (port : Nat) (sq : BitVec 16) (ok : Bool) (dat : BitVec 256) (ack : FlitAck)  -- R317
  | flitResend (port : Nat)  -- R317
  | linkDown (port : Nat)  -- R317
  | frameReceive (port : Nat) (frame : List Byte) (fcs : Bool)  -- R325
  | frameHeldRelease (port : Nat)  -- R326
  | egressTailWrite (port : Nat) (q : Nat)  -- R327
  | frameTransmit (port : Nat) (q : Nat)  -- R327
  | ptpLockChange (lock : Bool) (adv : Nat)  -- R315
  | hostMemoryAccess (a : HostAcc)  -- R328
  | doorbell (q : Nat) (tail : BitVec 32)  -- R329
  | ctlEnable (q : Nat) (en : Bool)  -- R329
  | ctlRestart (q : Nat)  -- R332
  | registerWrite (r : FwReg)  -- R329
  | nopPacket (q : Nat) (pk : BitVec 512)  -- R332
  | launch (q : Nat) (pk : BitVec 512)  -- R333
  | indirect (q : Nat) (op : BitVec 64) (hadr : Word) (rest : BitVec 384)  -- R332
  | annul (q : Nat) (pk : BitVec 512)  -- R332
  | queueStop (q : Nat) (pk : BitVec 512)  -- R332
  | launchComplete (l : Nat)  -- R334
  | irqCoalesceTimeout (q : Nat)  -- R335
  | powerOn (img : FwImage)  -- R344
  | firmwareHandover (img : FwImage)  -- R346
  | handoverTimeout  -- R346
  | spdmRequest (nonce : BitVec 256)  -- R345
  | checkpoint  -- R347
  | restore  -- R347
  | powerLimitGate  -- R348
  | contextDestroyed (ctx : Ctx)  -- R253
  | powerLimitCleared  -- R348
  | newImageReady  -- R346
  | linkLiveAgain (port : Nat)  -- R317
deriving DecidableEq, Repr

end Sys2Proof
end

