-- ==== Sys2Proof/Machine/Num.lean ====
section
/-! DEFINITION. Number formats of the vector unit, stored element formats, described blocks, checks and residue
arithmetic (04_numbers.md R54 to R77): pure functions on bit vectors, with no state. -/

namespace Sys2Proof.Machine

/-! The sticky flags of one result, in the order of CORESTAT [11:7] (R36). -/

def flNV : BitVec 5 := 16#5
def flOF : BitVec 5 := 8#5
def flUF : BitVec 5 := 4#5
def flNX : BitVec 5 := 2#5
def flIS : BitVec 5 := 1#5

/-- A floating value read from a format: NaN (signalling or not), infinity, or (-1)^s * m * 2^e exactly. -/
inductive FV where
  | nan (sig : Bool)
  | inf (s : Bool)
  | fin (s : Bool) (m : Nat) (e : Int)
deriving DecidableEq, Repr

/-- Where a format of `p` bits of precision has its least bit and its end: the weight of the least subnormal bit is
2^qmin, and `top` is the bit pattern of infinity. -/
structure Fmt where
  p : Nat
  qmin : Int
  top : Nat
deriving DecidableEq, Repr

/-- binary32 (R54). -/
def fmtF32 : Fmt := ⟨24, -149, 0x7F800000⟩
/-- The upper half of binary32 (R54). -/
def fmtBF16 : Fmt := ⟨8, -133, 0x7F80⟩

/-- The value of a binary32 pattern (R54). -/
def f32Val (w : BitVec 32) : FV :=
  let s := w.getLsbD 31
  let x := (w.extractLsb' 23 8).toNat
  let f := (w.extractLsb' 0 23).toNat
  if x = 255 then (if f = 0 then .inf s else .nan (f < 2 ^ 22))
  else if x = 0 then .fin s f (-149)
  else .fin s (2 ^ 23 + f) ((x : Int) - 150)

/-- The value of a BF16 element: the upper half of a binary32 pattern (R54). -/
def bf16Val (h : BitVec 16) : FV := f32Val (h ++ 0#16)

/-- m * 2^e as an integer, to nearest, ties to even; with whether a non-zero fraction was lost. -/
def rneInt (m : Nat) (e : Int) : Nat × Bool :=
  match e with
  | .ofNat n => (m * 2 ^ n, false)
  | .negSucc n =>
    let d := 2 ^ (n + 1)
    let q := m / d
    let r := m % d
    (if r * 2 > d ∨ (r * 2 = d ∧ q % 2 = 1) then q + 1 else q, r != 0)

/-- The number of bits of `m`. -/
def bitLen (m : Nat) : Nat := if m = 0 then 0 else m.log2 + 1

/-- One rounding of a finite value to a format, to nearest, ties to even, overflow to infinity: the pattern without its
sign, and the flags (R55). -/
def roundMag (f : Fmt) (m : Nat) (e : Int) : Nat × BitVec 5 :=
  if m = 0 then (0, 0#5) else
  let q0 := e + (bitLen m : Int) - f.p
  let q := max q0 f.qmin
  let (r, lost) := rneInt m (e - q)
  let (r0, _) := rneInt m (e - q0)
  let bits := (q - f.qmin).toNat * 2 ^ (f.p - 1) + r
  let tiny := decide (q0 < f.qmin) && ! decide (r0 = 2 ^ f.p ∧ q0 + 1 = f.qmin)
  if bits ≥ f.top then (f.top, flOF ||| flNX)
  else (bits, (if lost then flNX else 0#5) ||| (if lost && tiny then flUF else 0#5))

/-- The default NaN, an infinity or one rounding, as a binary32 pattern (R55). -/
def f32Of : FV → BitVec 32 × BitVec 5
  | .nan sig => (0x7FC00000#32, if sig then flNV else 0#5)
  | .inf s => (BitVec.ofBool s ++ 0x7F800000#31, 0#5)
  | .fin s m e =>
    let (b, fl) := roundMag fmtF32 m e
    (BitVec.ofBool s ++ BitVec.ofNat 31 b, fl)

/-- The same as a BF16 element (R55). -/
def bf16Of : FV → BitVec 16 × BitVec 5
  | .nan sig => (0x7FC0#16, if sig then flNV else 0#5)
  | .inf s => (BitVec.ofBool s ++ 0x7F80#15, 0#5)
  | .fin s m e =>
    let (b, fl) := roundMag fmtBF16 m e
    (BitVec.ofBool s ++ BitVec.ofNat 15 b, fl)

def FV.isNan : FV → Bool
  | .nan _ => true
  | _ => false
def FV.sig : FV → Bool
  | .nan s => s
  | _ => false
def FV.neg : FV → FV
  | .nan s => .nan s
  | .inf s => .inf !s
  | .fin s m e => .fin (!s) m e
def FV.abs : FV → FV
  | .nan s => .nan s
  | .inf _ => .inf false
  | .fin _ m e => .fin false m e

/-- A signed mantissa. -/
def sgn (s : Bool) (m : Nat) : Int := if s then -(m : Int) else m

/-- The exact sum of two finite values; an exact zero is +0 unless both terms are negative (IEEE 754, to nearest). -/
def addFin (s1 : Bool) (m1 : Nat) (e1 : Int) (s2 : Bool) (m2 : Nat) (e2 : Int) : FV :=
  let e := min e1 e2
  let v := sgn s1 (m1 * 2 ^ (e1 - e).toNat) + sgn s2 (m2 * 2 ^ (e2 - e).toNat)
  if v = 0 then .fin (s1 && s2) 0 e else .fin (decide (v < 0)) v.natAbs e

/-- The exact sum, or NaN, with whether the operation is invalid (R55, R100). -/
def fAdd (a b : FV) : FV × Bool :=
  match a, b with
  | .nan s, y => (.nan false, s || y.sig)
  | x, .nan s => (.nan false, s || x.sig)
  | .inf s, .inf t => if s = t then (.inf s, false) else (.nan false, true)
  | .inf s, .fin _ _ _ => (.inf s, false)
  | .fin _ _ _, .inf s => (.inf s, false)
  | .fin s m e, .fin t n g => (addFin s m e t n g, false)

/-- The exact product, or NaN, with whether the operation is invalid (R55, R100). -/
def fMul (a b : FV) : FV × Bool :=
  match a, b with
  | .nan s, y => (.nan false, s || y.sig)
  | x, .nan s => (.nan false, s || x.sig)
  | .inf s, .inf t => (.inf (s != t), false)
  | .inf s, .fin t m _ => if m = 0 then (.nan false, true) else (.inf (s != t), false)
  | .fin s m _, .inf t => if m = 0 then (.nan false, true) else (.inf (s != t), false)
  | .fin s m e, .fin t n g => (.fin (s != t) (m * n) (e + g), false)

/-- a * b + c exactly; infinity times zero is invalid whatever c is (R100). -/
def fFma (a b c : FV) : FV × Bool :=
  let (p, i) := fMul a b
  let (r, j) := fAdd p c
  (r, i || j)

/-- The order of two values that are not NaN: -1, 0 or 1 by their real values. -/
def fCmp (a b : FV) : Int :=
  match a, b with
  | .inf s, .inf t => if s = t then 0 else if s then -1 else 1
  | .inf s, _ => if s then -1 else 1
  | _, .inf t => if t then 1 else -1
  | .fin s m e, .fin t n g =>
    let d := min e g
    (sgn s (m * 2 ^ (e - d).toNat) - sgn t (n * 2 ^ (g - d).toNat)).sign
  | _, _ => 0

def FV.sign : FV → Bool
  | .nan _ => false
  | .inf s => s
  | .fin s _ _ => s

/-- The lesser or greater, -0 below +0; a NaN input gives the default NaN (R100). -/
def fMin (a b : FV) : FV × Bool :=
  if a.isNan || b.isNan then (.nan false, a.sig || b.sig)
  else
    let c := fCmp a b
    (if c < 0 ∨ (c = 0 ∧ a.sign) then a else b, false)
def fMax (a b : FV) : FV × Bool :=
  if a.isNan || b.isNan then (.nan false, a.sig || b.sig)
  else
    let c := fCmp a b
    (if c > 0 ∨ (c = 0 ∧ ! a.sign) then a else b, false)

/-- An exact result with its invalid mark, rounded once to binary32. -/
def toF32 (r : FV × Bool) : BitVec 32 × BitVec 5 :=
  let (b, fl) := f32Of r.1
  (b, fl ||| if r.2 then flNV else 0#5)
/-- The same to BF16. -/
def toBF16 (r : FV × Bool) : BitVec 16 × BitVec 5 :=
  let (b, fl) := bf16Of r.1
  (b, fl ||| if r.2 then flNV else 0#5)

/-- Rounds a value to an integer, ties to even, and clamps it: ISAT on a clamp, 0 with VNV for a NaN, VNX when the
rounding discards a non-zero fraction (R75, R103, R111). -/
def toIntSat (v : FV) (lo hi : Int) : Int × BitVec 5 :=
  match v with
  | .nan _ => (0, flNV)
  | .inf s => (if s then lo else hi, flIS)
  | .fin s m e =>
    let (r, lost) := rneInt m e
    let n := sgn s r
    let nx := if lost then flNX else 0#5
    if n < lo then (lo, nx ||| flIS) else if n > hi then (hi, nx ||| flIS) else (n, nx)

/-! Transcendental functions (06 R104): the free value of `Config.transc` where it keeps the bound of R104 against a
fixed-point value of 96 fraction bits, and that value's rounding where it does not. DESIGN CHOICE, log entry 9. -/

/-- Fraction bits of the fixed-point values below. -/
def fxBits : Nat := 96
def fxOne : Int := 2 ^ fxBits

/-- The sum of x^k / k! from term `k` on, `t` being the term before, in fixed point. -/
def fxExpTerms (x : Int) : Nat → Nat → Int → Int
  | 0, _, _ => 0
  | n + 1, k, t =>
    let u := t * x / fxOne / (k : Int)
    u + fxExpTerms x n (k + 1) u

/-- ln 2 in fixed point, 96 fraction bits. -/
def fxLn2 : Int := 0xB17217F7D1CF79ABC9E3B398

/-- atanh z = z + z^3/3 + ... in fixed point; `p` is the power of z reached. -/
def fxAtanhTerms (z2 : Int) : Nat → Nat → Int → Int
  | 0, _, _ => 0
  | n + 1, k, p => p / (k : Int) + fxAtanhTerms z2 n (k + 2) (p * z2 / fxOne)

/-- e^x for x = ±m * 2^e as a mantissa in fixed point and a power of two. -/
def expDy (s : Bool) (m : Nat) (e : Int) : Nat × Int :=
  let x : Int := sgn s (m * 2 ^ (e + fxBits).toNat / 2 ^ (-(e + fxBits)).toNat)
  let k := (x + fxLn2 / 2) / fxLn2
  let r := x - k * fxLn2
  ((fxOne + fxExpTerms r 32 1 fxOne).toNat, k - fxBits)

/-- ln of m * 2^e, in fixed point. -/
def lnDy (m : Nat) (e : Int) : Int :=
  let k := e + (bitLen m : Int)
  let y : Int := (m * 2 ^ (fxBits + 1)) / 2 ^ bitLen m
  -- y / fxOne in [1, 2): ln (m 2^e) = (k - 1) ln 2 + 2 atanh ((y-1)/(y+1))
  let z := (y - fxOne) * fxOne / (y + fxOne)
  (k - 1) * fxLn2 + 2 * fxAtanhTerms (z * z / fxOne) 64 1 z

/-- The distance of a binary32 pattern's value from v (a mantissa and a power of two, with a sign) is at most `u` units
of the last place of v in binary32, or at most 2^-24 where `ab` is set. -/
def within (b : BitVec 32) (s : Bool) (m : Nat) (e : Int) (u : Nat) (ab : Bool) : Bool :=
  match f32Val b with
  | .fin t n g =>
    let q := max (e + (bitLen m : Int) - 24) (-149)
    let d := min (min e g) (min q (-24))
    let diff := (sgn s (m * 2 ^ (e - d).toNat) - sgn t (n * 2 ^ (g - d).toNat)).natAbs
    decide (diff ≤ u * 2 ^ (q - d).toNat) || (ab && decide (diff ≤ 2 ^ ((-24 : Int) - d).toNat))
  | _ => false

/-- The BF16 rounding of a binary32 pattern lies within one unit of the last place of v in BF16, or overflows as v does (R104). -/
def withinBf (b : BitVec 32) (s : Bool) (m : Nat) (e : Int) : Bool :=
  match bf16Val (bf16Of (f32Val b)).1 with
  | .fin t n g =>
    let q := max (e + (bitLen m : Int) - 8) (-133)
    let d := min (min e g) q
    decide ((sgn s (m * 2 ^ (e - d).toNat) - sgn t (n * 2 ^ (g - d).toNat)).natAbs ≤ 2 ^ (q - d).toNat)
  | _ => (bf16Of (f32Val b)).1 == (bf16Of (.fin s m e)).1

/-- The result of a transcendental function whose value is ±m * 2^e and no exact special value, for a result in BF16 or in binary32:
the free value of the device where it keeps the bound, that for BF16 too on an input of BF16, else the rounding; VNX always, VOF or VUF
as R55 says: VUF where a tiny value is not delivered exactly. -/
def transRes (fn : Nat) (bf : Bool) (a : BitVec 32) (s : Bool) (m : Nat) (e : Int) (u : Nat) (ab : Bool) : BitVec 32 × BitVec 5 :=
  let (r, fl) := f32Of (.fin s m e)
  let v := Config.transc fn a
  let r := if fl &&& flOF = 0#5 ∧ within v s m e u ab ∧ (a.extractLsb' 0 16 ≠ 0#16 ∨ withinBf v s m e) then v else r
  let got := if bf then bf16Val (bf16Of (f32Val r)).1 else f32Val r
  let x : FV := if fCmp got (.fin s m e) = 0 then .fin s m e else .fin s (m * 2 ^ 40 + 1) (e - 40)
  (r, (if bf then (bf16Of x).2 else (f32Of x).2) ||| flNX)

/-- The floor of the square root of n, by `k` halvings. -/
def isqrt (n : Nat) : Nat := n.sqrt

/-- `vrcp` on binary32 (R104). -/
def rcp32 (bf : Bool) (a : BitVec 32) : BitVec 32 × BitVec 5 :=
  match f32Val a with
  | .nan sig => (0x7FC00000#32, if sig then flNV else 0#5)
  | .inf s => (BitVec.ofBool s ++ 0#31, 0#5)
  | .fin s m e =>
    if m = 0 then (BitVec.ofBool s ++ 0x7F800000#31, flOF)
    else if a = 0x3F800000#32 then (a, 0#5)
    else transRes 0x12 bf a s (2 ^ 160 / m) (-160 - e) 1 false

/-- `vrsq` on binary32 (R104). -/
def rsq32 (bf : Bool) (a : BitVec 32) : BitVec 32 × BitVec 5 :=
  match f32Val a with
  | .nan sig => (0x7FC00000#32, if sig then flNV else 0#5)
  | .inf s => if s then (0x7FC00000#32, flNV) else (0#32, 0#5)
  | .fin s m e =>
    if m = 0 then (BitVec.ofBool s ++ 0x7F800000#31, flOF)
    else if s then (0x7FC00000#32, flNV)
    else if a = 0x3F800000#32 then (a, 0#5)
    else
      let (m2, e2) := if e % 2 = 0 then (m, e) else (m * 2, e - 1)
      transRes 0x13 bf a false (isqrt (2 ^ 240 / m2)) (-120 - e2 / 2) 1 false

/-- `vexp` on binary32 (R104). -/
def exp32 (bf : Bool) (a : BitVec 32) : BitVec 32 × BitVec 5 :=
  match f32Val a with
  | .nan sig => (0x7FC00000#32, if sig then flNV else 0#5)
  | .inf s => (if s then 0#32 else 0x7F800000#32, 0#5)
  | .fin s m e =>
    if m = 0 then (0x3F800000#32, 0#5)
    else if fCmp (.fin s m e) (.fin false 200 0) > 0 then transRes 0x14 bf a false 1 300 2 false
    else if fCmp (.fin s m e) (.fin true 200 0) < 0 then transRes 0x14 bf a false 1 (-300) 2 false
    else
      let (x, g) := expDy s m e
      transRes 0x14 bf a false x g 2 false

/-- `vlog` on binary32 (R104): 2 ulp, or 2^-24 absolute for a in [0.9375, 1.0625]. -/
def log32 (bf : Bool) (a : BitVec 32) : BitVec 32 × BitVec 5 :=
  match f32Val a with
  | .nan sig => (0x7FC00000#32, if sig then flNV else 0#5)
  | .inf s => if s then (0x7FC00000#32, flNV) else (0x7F800000#32, 0#5)
  | .fin s m e =>
    if m = 0 then (0xFF800000#32, flOF)
    else if s then (0x7FC00000#32, flNV)
    else if a = 0x3F800000#32 then (0#32, 0#5)
    else
      let l := lnDy m e
      transRes 0x15 bf a (decide (l < 0)) l.natAbs (-fxBits) 2
        (decide (0x3F700000 ≤ a.toNat ∧ a.toNat ≤ 0x3F880000))

/-- `vsig` on binary32 (R104). -/
def sig32 (bf : Bool) (a : BitVec 32) : BitVec 32 × BitVec 5 :=
  match f32Val a with
  | .nan sig => (0x7FC00000#32, if sig then flNV else 0#5)
  | .inf s => (if s then 0#32 else 0x3F800000#32, 0#5)
  | .fin s m e =>
    if m = 0 then (0x3F000000#32, 0#5)
    else if fCmp (.fin false m e) (.fin false 200 0) > 0 then
      (if s then transRes 0x17 bf a false 1 (-300) 2 true else transRes 0x17 bf a false (2 ^ 200 - 1) (-200) 2 true)
    else
      -- 1 / (1 + e^-a), from e^-|a| = x * 2^g with g negative; below -32 it is e^a up to a part in 2^46
      let (x, g) := expDy true m e
      if s ∧ fCmp (.fin s m e) (.fin true 32 0) < 0 then transRes 0x17 bf a false x g 2 true else
      let y := x * 2 ^ fxBits / 2 ^ (-(g + 0)).toNat
      let d := 2 ^ fxBits + y
      let n := if s then y else 2 ^ fxBits
      transRes 0x17 bf a false (n * 2 ^ 200 / d) (-200) 2 true

/-- `vtanh` on binary32 (R104). -/
def tanh32 (bf : Bool) (a : BitVec 32) : BitVec 32 × BitVec 5 :=
  match f32Val a with
  | .nan sig => (0x7FC00000#32, if sig then flNV else 0#5)
  | .inf s => (BitVec.ofBool s ++ 0x3F800000#31, 0#5)
  | .fin s m e =>
    if m = 0 then (a, 0#5)
    else if fCmp (.fin false m e) (.fin false 100 0) > 0 then transRes 0x16 bf a s (2 ^ 200 - 1) (-200) 2 true
    else if fCmp (.fin false m e) (.fin false 1 (-40)) < 0 then transRes 0x16 bf a s (m * 2 ^ 40 - 1) (e - 40) 2 true
    else
      -- (1 - t) / (1 + t) with t = e^(-2|a|)
      let (x, g) := expDy true m (e + 1)
      let y := x * 2 ^ fxBits / 2 ^ (-g).toNat
      transRes 0x16 bf a s ((2 ^ fxBits - y) * 2 ^ 200 / (2 ^ fxBits + y)) (-200) 2 true

/-- A transcendental on a BF16 element: the binary32 function, then one rounding to BF16 (R104). -/
def transBF16 (f : Bool → BitVec 32 → BitVec 32 × BitVec 5) (h : BitVec 16) : BitVec 16 × BitVec 5 :=
  let (r, fl) := f true (h ++ 0#16)
  let (b, fl2) := bf16Of (f32Val r)
  (b, fl ||| (fl2 &&& ~~~ flUF))

/-! Checks. -/

/-- One bit of CRC-16 (R64). -/
def crc16Bit (c : BitVec 16) (b : Bool) : BitVec 16 :=
  if c.getLsbD 15 != b then (c <<< 1) ^^^ 0x1021#16 else c <<< 1
/-- One byte of CRC-16, most significant bit first (R64). -/
def crc16Byte (c : BitVec 16) (b : Byte) : BitVec 16 :=
  [7, 6, 5, 4, 3, 2, 1, 0].foldl (fun c i => crc16Bit c (b.getLsbD i)) c
/-- CRC-16 of bytes in address order (R64). -/
def crc16 (bs : List Byte) : BitVec 16 := bs.foldl crc16Byte 0xFFFF#16
/-- One byte of CRC-32C, reflected (R210). -/
def crc32cByte (c : BitVec 32) (b : Byte) : BitVec 32 :=
  [0, 1, 2, 3, 4, 5, 6, 7].foldl
    (fun c (_ : Nat) => if c.getLsbD 0 then (c >>> 1) ^^^ 0x82F63B78#32 else c >>> 1) (c ^^^ b.setWidth 32)
/-- CRC-32C of bytes in address order (R210). -/
def crc32c (bs : List Byte) : BitVec 32 := (bs.foldl crc32cByte 0xFFFFFFFF#32) ^^^ 0xFFFFFFFF#32

/-- The little-endian value of bytes (01 R7). -/
def leNat : List Byte → Nat
  | [] => 0
  | b :: bs => b.toNat + 256 * leNat bs
/-- The `n` little-endian bytes of a value (01 R7). -/
def leBytes : Nat → Nat → List Byte
  | 0, _ => []
  | n + 1, v => BitVec.ofNat 8 v :: leBytes n (v / 256)

/-! Described blocks (R60 to R65). A block is the 62 bytes before CHK as one number, with CHK checked by the reader. -/

/-- What a block evaluates to (R65), with its format byte, scale and payload. -/
structure Blk where
  fmt : BitVec 8
  scale : BitVec 8
  pay : BitVec 480
  chkOk : Bool
deriving DecidableEq, Repr

/-- A block read from its 64 bytes (R60). -/
def blkOf (bs : List Byte) : Blk :=
  { fmt := bs.getD 0 0#8
    scale := bs.getD 1 0#8
    pay := BitVec.ofNat 480 (leNat ((bs.drop 2).take 60))
    chkOk := BitVec.ofNat 16 (leNat ((bs.drop 62).take 2)) == crc16 (bs.take 62) }

/-- The 64 bytes of a block, CHK computed (R60, R64). -/
def blkBytes (fmt scale : BitVec 8) (pay : BitVec 480) : List Byte :=
  let body := fmt :: scale :: leBytes 60 pay.toNat
  body ++ leBytes 2 (crc16 body).toNat

def Blk.cls (b : Blk) : Nat := (b.fmt.toNat) / 16
/-- The scale of group 1 less that of group 0 (R62). -/
def Blk.delta (b : Blk) : Int := (b.fmt.extractLsb' 0 4).toInt
def Blk.isNull (b : Blk) : Bool := (b.cls == 1 || b.cls == 2 || b.cls == 3) && b.scale == 0xFF#8
/-- A format byte of R61 that is not reserved. -/
def fmtListed (f : BitVec 8) : Bool :=
  let n := f.toNat
  decide (n ≤ 0x12) || (decide (0x20 ≤ n) && decide (n ≤ 0x44))

/-- The code of R65 for a consumer that accepts what `acc` says. -/
def Blk.eval (b : Blk) (acc : Blk → Bool) : Nat :=
  if ! b.chkOk then 2
  else if ! fmtListed b.fmt || (b.fmt == 0x44#8 && b.pay.extractLsb' 384 96 != 0#96) then 3
  else if b.isNull then 1
  else if (b.cls == 2 || b.cls == 3) &&
      (decide ((b.scale.toNat : Int) + b.delta < 0) || decide ((b.scale.toNat : Int) + b.delta > 254)) then 4
  else if ! acc b then 5
  else 0

/-- The scale of group g (R62). -/
def Blk.gscale (b : Blk) (g : Bool) : Int := (b.scale.toNat : Int) + if g then b.delta else 0
/-- Element n of a 10-bit class (R60). -/
def Blk.el10 (b : Blk) (n : Nat) : BitVec 10 := b.pay.extractLsb' (10 * n) 10
/-- Element n of a 5-bit class (R60). -/
def Blk.el5 (b : Blk) (n : Nat) : BitVec 5 := b.pay.extractLsb' (5 * n) 5
/-- Cell n of a spill block (R60). -/
def Blk.cell (b : Blk) (n : Nat) : BitVec 48 := b.pay.extractLsb' (48 * n) 48

/-- The value of a stored floating element with `w` fraction bits, `x` exponent bits and bias, at scale s (R57, R58). -/
def storedVal (sign : Bool) (x f : Nat) (w : Nat) (bias : Int) (top : Nat) (txc : Bool) (s : Int) : FV :=
  if x = top ∧ ! txc then (if f = 0 then .inf sign else .nan false)
  else if x = 0 then .fin sign f (1 - bias - w + (s - 127))
  else .fin sign (2 ^ w + f) ((x : Int) - bias - w + (s - 127))

/-- Element n of a block as an exact value, read with TXC (R56, R57, R62, R63). -/
def Blk.elem (b : Blk) (txc : Bool) (n : Nat) : FV :=
  if b.isNull then .fin false 0 0 else
  match b.cls with
  | 1 =>
    let e := b.el10 n
    match b.fmt.toNat with
    | 0x10 => let i := e.toInt; .fin (decide (i < 0)) i.natAbs ((b.scale.toNat : Int) - 127)
    | 0x11 => storedVal (e.getLsbD 9) (e.extractLsb' 5 4).toNat (e.extractLsb' 0 5).toNat 5 7 15 txc b.scale.toNat
    | _ => storedVal (e.getLsbD 9) (e.extractLsb' 4 5).toNat (e.extractLsb' 0 4).toNat 4 15 31 txc b.scale.toNat
  | 2 =>
    let i := (b.el5 n).toInt
    .fin (decide (i < 0)) i.natAbs (b.gscale (decide (48 ≤ n)) - 127)
  | _ =>
    let e := b.el5 n
    storedVal (e.getLsbD 4) (e.extractLsb' 2 2).toNat (e.extractLsb' 0 2).toNat 2 1 3 txc (b.gscale (decide (48 ≤ n)))

/-- The format of a stored floating element of a class as a rounding target, with the pattern of the largest finite value. -/
def storeFmt (p : Nat) (bias : Int) (xbits : Nat) (txc : Bool) : Fmt :=
  ⟨p, 2 - bias - p, if txc then 2 ^ (xbits + p - 1) else (2 ^ xbits - 1) * 2 ^ (p - 1)⟩

/-- Conversion of a value into F10 or F5 with scale s (R59): the pattern, sign first, and the flags. -/
def storeFlt (p : Nat) (bias : Int) (xbits : Nat) (txc : Bool) (s : Int) (v : FV) : Nat × BitVec 5 :=
  let f := storeFmt p bias xbits txc
  let sb := 2 ^ (xbits + p - 1)
  let infp := (2 ^ xbits - 1) * 2 ^ (p - 1)
  match v with
  | .nan _ => if txc then (0, flNV) else (infp + 1, flNV)
  | .inf t => if txc then ((if t then sb else 0) + sb - 1, flOF ||| flNX) else ((if t then sb else 0) + infp, 0#5)
  | .fin t m e =>
    let (b, fl) := roundMag f m (e - (s - 127))
    let b2 := if fl &&& flOF ≠ 0#5 then (if txc then sb - 1 else infp) else b
    let fl2 := if fl &&& flOF = 0#5 ∧ fl &&& flNX ≠ 0#5 ∧ b < 2 ^ (p - 1) then fl ||| flUF else fl
    ((if t then sb else 0) + b2, fl2)

/-! Residues (R67 to R71). -/

/-- The cell of an integer (R67, R68). -/
def cellOf (x : Int) : BitVec 48 :=
  0#2 ++ BitVec.ofInt 16 (x % 65521) ++ BitVec.ofInt 10 (x % 1024) ++ BitVec.ofInt 10 (x % 1023) ++ BitVec.ofInt 10 (x % 1021)

def cDK (c : BitVec 48) : Nat := (c.extractLsb' 30 16).toNat
def cDC (c : BitVec 48) : Nat := (c.extractLsb' 20 10).toNat
def cDB (c : BitVec 48) : Nat := (c.extractLsb' 10 10).toNat
def cDA (c : BitVec 48) : Nat := (c.extractLsb' 0 10).toNat

/-- A cell made of four digits. -/
def mkCell (k c b a : Nat) : BitVec 48 :=
  0#2 ++ BitVec.ofNat 16 k ++ BitVec.ofNat 10 c ++ BitVec.ofNat 10 b ++ BitVec.ofNat 10 a

/-- Digit by digit sum (R68, R173). -/
def cellAdd (x y : BitVec 48) : BitVec 48 :=
  mkCell ((cDK x + cDK y) % 65521) ((cDC x + cDC y) % 1024) ((cDB x + cDB y) % 1023) ((cDA x + cDA y) % 1021)
/-- Digit by digit product (R68, R244). -/
def cellMul (x y : BitVec 48) : BitVec 48 :=
  mkCell ((cDK x * cDK y) % 65521) ((cDC x * cDC y) % 1024) ((cDB x * cDB y) % 1023) ((cDA x * cDA y) % 1021)
/-- Digit by digit scaling by 2^j, or by -1 for j = 7 (R173). -/
def cellScl (j : BitVec 3) (x : BitVec 48) : BitVec 48 :=
  if j = 7#3 then
    mkCell ((65521 - cDK x % 65521) % 65521) ((1024 - cDC x) % 1024) ((1023 - cDB x % 1023) % 1023) ((1021 - cDA x % 1021) % 1021)
  else
    mkCell (cDK x * 2 ^ j.toNat % 65521) (cDC x * 2 ^ j.toNat % 1024) (cDB x * 2 ^ j.toNat % 1023) (cDA x * 2 ^ j.toNat % 1021)

/-- Reconstruction of a cell (R69): the value and whether its check passes. -/
def cellVal (c : BitVec 48) : Int × Bool :=
  let g1 : Int := cDA c
  let g2 := (((cDB c : Int) - g1) * 511) % 1023
  let g3 := ((((cDC c : Int) - g1) * 341 - g2) * 1023) % 1024
  let x0 := g1 + 1021 * g2 + 1044483 * g3
  let x := if x0 ≥ 534775296 then x0 - 1069550592 else x0
  (x, decide (x % 65521 = cDK c) && decide (cDA c < 1021) && decide (cDB c < 1023) && decide (cDK c < 65521))

/-- The treatment of a pair of scale groups (R73): the sum of its terms as an integer, and the flags RND, UAL, OAL. -/
def alignPair (as bs : List Int) (d : Int) : Int × BitVec 3 :=
  if d < -10 then (0, 2#3)
  else if d < 0 then
    let sh := as.map fun a => (sgn (decide (a < 0)) (rneInt a.natAbs d).1, (rneInt a.natAbs d).2)
    (((sh.zip bs).foldl (fun t p => t + p.1.1 * p.2) 0), if sh.any (·.2) then 1#3 else 0#3)
  else
    let t := (as.zip bs).foldl (fun t p => t + p.1 * p.2) 0
    (t * 2 ^ (min d 6).toNat, if d > 6 then 4#3 else 0#3)

/-! Reductions (R76). -/

/-- Pairs (2i, 2i + 1) combined. -/
def pairUp {α : Type} (f : α → α → α) : List α → List α
  | a :: b :: r => f a b :: pairUp f r
  | r => r

/-- The fixed tree over 48 values (R76). -/
def tree48 {α : Type} (f : α → α → α) (z : α) (l : List α) : α :=
  match pairUp f (pairUp f (pairUp f (pairUp f l))) with
  | [a, b, c] => f (f a b) c
  | a :: _ => a
  | [] => z

end Sys2Proof.Machine
end

