-- ==== Sys2Proof/Machine/State.lean ====
section
/-! DEFINITION. The state of the machine as plain data: everything the spec gives the LK980, grouped by the part that
holds it, and the state after reset. A part that has never been used is left out of its sparse table and reads as its
default. -/

namespace Sys2Proof.Machine

/-- The domain that a piece of work carries (R116, R139): id, low 48 bits of its instant, EXT. -/
structure DTag where
  id : Dom
  inst : BitVec 48
  ext : Bool
deriving DecidableEq, Repr

/-- Domain 0 (R137). -/
def DTag.imm : DTag := ⟨0#16, 0#48, false⟩

/-- The ordering kind of a place (R181, R182): `sp` is the kind of its own that scratchpads have. -/
inductive PKind where | so | rc | uo | sp
deriving DecidableEq, Repr

/-- Where a piece of an access is performed (R177): a scratchpad, device memory, or the place of a peer's address. -/
inductive Place where
  | sp (core off : Nat)
  | dram (pa : Nat)
  | peer (addr : Word)
deriving DecidableEq, Repr

/-- One piece of an access (R89, R187): its virtual address, place, size, kind, and the leaf's SYSA bit. -/
structure Piece where
  va : Word
  at_ : Place
  n : Nat
  kind : PKind
  sysa : Bool
deriving DecidableEq, Repr

/-- What an access not yet performed does at its place (R177). -/
inductive AccOp where
  | store (bytes : List Byte)
  | atomic (op : AtOp) (b e : Word) (wait : Bool)
  | arrive (dep ann : Bool)
deriving DecidableEq, Repr

/-- An access that has issued and is not yet performed (R177). `aid` numbers the access, `rel` marks a release; the accesses of the
other stream with numbers below `after` come before it (R32, R113); `sent` is the packet that takes it to a peer; `fl` are the flags
that land with it (06 R114). -/
structure PAcc where
  aid : Nat
  w : Bool
  p : Piece
  op : AccOp
  dom : DTag
  rel : Bool
  task : TaskRef
  ctx : Ctx
  act : Nat
  after : Nat
  sent : Option Nat
  fl : BitVec 5
deriving DecidableEq, Repr

/-! The W stream (R21 to R27). -/

/-- An entry of the W buffer (R21, R29, R108). `base` is the queue entry B once it has been read at the head; the S accesses with numbers
below `aid` precede it in program order (09 R166). -/
structure WEnt where
  word : BitVec 32
  cst : Word
  pc : Word
  t : Nat
  base : Option Word
  aid : Nat
deriving DecidableEq, Repr

/-- The target of a pending write (R26). -/
inductive WTgt where
  | v (r : VReg) (mask : BitVec 48) (x : Lanes)
  | k (r : KReg) (mask : BitVec 48) (x : BitVec 48)
  /-- `after` numbers the first access of the W stream that does not precede the write (R32) -/
  | q (n : BitVec 2) (x : Word) (after : Nat)
  | none
deriving DecidableEq, Repr

/-- A pending W write (R26): the cycle at whose end it lands, its target and its flags. -/
structure WPend where
  land : Nat
  tgt : WTgt
  fl : BitVec 5
deriving DecidableEq, Repr

/-- A register in stream mode (R228, R229): its nest, the next iteration to fetch, the strips fetched. -/
structure Stream where
  base : Word
  cnt : Word
  ss : List Word
  next : Option Word
  buf : List Lanes
  last : Lanes
  /-- a strip that faulted: fault kind, address, LEASE -/
  bad : Option (BitVec 4 × Word × Bool)
deriving DecidableEq, Repr

/-! Tiles and slices (R67, R159, R231 to R246). -/

/-- The state of a tile (R231). -/
inductive TSt where | settled | published | derived | poisoned
deriving DecidableEq, Repr

/-- A slot of a tile (R232). -/
structure Slot where
  coef : BitVec 48
  ldev : BitVec 8
  lin : BitVec 16
  hdev : BitVec 8
  hcore : BitVec 12
  htile : BitVec 4
  seq : BitVec 16
  psn : Bool
  fin : Bool
  v : Bool
  /-- the MODEL's own: the upstream ripple-table entry that feeds the slot -/
  ent : Nat
deriving DecidableEq, Repr

/-- The slot that is not in use. -/
def Slot.zero : Slot := ⟨0#48, 0#8, 0#16, 0#8, 0#12, 0#4, 0#16, false, false, false, 0⟩

/-- A tile header with its slots (R231, R232). -/
structure Tile where
  dom : DTag
  pnd : Bool
  st : TSt
  slots : Vector Slot 4
deriving DecidableEq, Repr

/-- The header at reset (R231). -/
def Tile.zero : Tile := ⟨DTag.imm, false, .settled, Vector.replicate 4 Slot.zero⟩

/-- An entry of the ripple table (R243). -/
structure RipEnt where
  seq : BitVec 16
  ack : BitVec 16
  ddev : BitVec 8
  dcore : BitVec 12
  dtile : BitVec 4
  dslot : Nat
  stile : BitVec 4
  sslot : Nat
  fin : Bool
  v : Bool
  /-- what is not acknowledged (R249): number, whether a mark, its PSN, a ripple's cells -/
  sent : List (BitVec 16 × Bool × Bool × Tab (BitVec 48))
  /-- the MODEL's own: the entry's number, 64 times a count plus its place, so that no two entries of a place have one number -/
  uid : Nat
  /-- the target of a remote add has not answered yet: ripples and marks wait, so that none reaches it before the tile (15 R276) -/
  wait : Bool
deriving DecidableEq, Repr

def RipEnt.zero : RipEnt := ⟨0#16, 0#16, 0#8, 0#12, 0#4, 0, 0#4, 0, false, false, [], 0, false⟩

/-- A part in a slice inbox (R159): the instruction word, its constant, and what it carries. -/
structure Part where
  word : BitVec 32
  cst : Word
  dom : DTag
  task : TaskRef
  t : Nat
  src : Nat
  job : Nat
  ctx : Ctx
  /-- START of an `mmaj` that a pre-emption stopped (R308) -/
  adv : Option Word
deriving DecidableEq, Repr

/-- What stands in the queue of unapplied arrivals (R244, R276). `job` and `src` name the waiting `padd`; `ring` the job of this device
whose ring brings the tile (15 R280). -/
inductive Arr where
  | ripple (slot : Nat) (tile : BitVec 4) (seq : BitVec 16) (cells : Tab (BitVec 48)) (src entry : Nat)
  | mark (slot : Nat) (tile : BitVec 4) (seq : BitVec 16) (psn : Bool) (src entry : Nat)
  | tile (tile : BitVec 4) (cells : Tab (BitVec 48)) (slots : List NewSlot) (src job : Nat) (ring : Option Nat)
deriving DecidableEq, Repr

/-- A slice: cells of a0 to a15 (key 1536 t + 48 r + n; an absent cell is 0), headers, ripple table, inbox, the part in
progress, and the accumulated status of `mwait` (R176). -/
structure Slice where
  cells : Tab (BitVec 48)
  tiles : Vector Tile 16
  rip : Tab RipEnt
  /-- the MODEL's own: how many entries the table has given -/
  ripGen : Nat
  inbox : List Part
  busy : Nat
  cur : Option (Part × Nat)
  waitFrom : Option Nat
  arrs : List Arr
  stBad : Bool
  stChk : Bool
  stClmp : Bool
  stOpc : BitVec 4
  stFop : BitVec 4
  wb : Tab (List Byte)
  /-- writes to the weight buffer that are not performed yet: block, bytes, job (R161) -/
  wbHeld : List (Nat × List Byte × Nat)
  /-- blocks of its output that the part in progress has written (04 R66) -/
  blk : Nat
deriving DecidableEq, Repr

def Slice.zero : Slice :=
  ⟨[], Vector.replicate 16 Tile.zero, [], 0, [], 0, none, none, [], false, false, false, 0#4, 0#4, [], [], 0⟩

/-! Waits, traps and the status of the S stream. -/

/-- A trap to be taken (R289): cause, address of the instruction, value, whether the W stream raised it. -/
structure TrapRec where
  cause : BitVec 8
  pc : Word
  val : Word
  wstr : Bool
deriving DecidableEq, Repr

/-- What an S instruction waits for (R95, R185, R224, R294, R358), with what it needs to complete. -/
inductive SWait where
  /-- a load from device memory or through the aperture (R179): the pieces that it has still to read, and the bytes it has read (R89) -/
  | load (ps : List Piece) (sgn : Bool) (rd : Reg) (hi : Option Reg) (got : List Byte)
  /-- a tagged operation (R94), by the ticket of its arrival, and the request that has been sent to a peer: its packet, and 0 sent, 1 asked
  back, 2 withdrawn (R96) -/
  | tag (op : TagOp) (core off : Nat) (rd : Reg) (v : Word) (ticket : Nat) (dom : DTag) (req : Option (Nat × Nat))
  /-- `sigw` (R274) -/
  | sigw (core off : Nat) (rd : Reg) (v : Word) (ticket : Nat) (req : Option (Nat × Nat))
  /-- a waiting atomic (R267); the value once it has been performed -/
  | atomic (aid : Nat) (rd : Reg) (v : Option Word) (t : ATy)
  /-- `fence` (R184), `drain` (R185), `xfence` (R227): whether stores must be performed, UO ones included, and for the streamer -/
  | fence (stores uo eng : Bool)
  /-- a service that has performed its operation and replies `v` (R129, R150, R257) -/
  | service (rd : Reg) (v : Word)
  /-- `dwhen` replies the instant that the domain has when it completes (R155) -/
  | inst (rd : Reg) (d : Dom)
  /-- `dannul` and `dleave`, until every endpoint has acknowledged the domain (R144, R153, R154) -/
  | acks (rd : Reg) (v : Word) (d : Dom)
  /-- a parked `nopen.wait` (R258) -/
  | tarn (k : Word) (o : Word) (rd : Reg) (dom : DTag) (ticket : Nat)
  /-- `dmask` of a shadow without a mask (R156) -/
  | mask (d : Dom) (q : BitVec 2) (rd : Reg)
  /-- `waitc` (R294) and `waitp` (R224) -/
  | cycle (t : Word) (promise : Bool)
  /-- `rseal`, until its store is performed (R212) -/
  | seal (aid : Nat) (rd : Reg)
deriving DecidableEq, Repr

/-- What the S stream does (R21, R34, R289, R296, R300, R308). -/
inductive SStat where
  | idle
  | run
  | wait (w : SWait) (words : Nat) (cost : Nat)
  /-- `done` or `defer` has issued (R34, R130) -/
  | ending (defer : Option Word)
  /-- a trap waits for the W stream to drain (R289) -/
  | trapping (t : TrapRec)
  | frozen
  /-- pre-empted: no context is resident (R305) -/
  | out
deriving DecidableEq, Repr

/-- A message in an inbox slot (R118). -/
structure InSlot where
  ix : Nat
  m : Msg
  ctx : Ctx
  task : TaskRef
  arr : Nat
  elig : Nat
  running : Bool
  /-- deferred, and not eligible again yet (R130) -/
  deferred : Bool
deriving DecidableEq, Repr

/-- The running activation (R33): its message, queue, slot, context, task, start cycle, and the number of the binding it
holds (R255). -/
structure Act where
  m : Msg
  q : BitVec 2
  ix : Nat
  ctx : Ctx
  task : TaskRef
  arr : Nat
  start : Nat
  bind : Option Nat
  id : Nat
deriving DecidableEq, Repr

/-- An entry of the outbound buffer (R127); `after` and `afterW` are the numbers of the first accesses of the S stream and of the W stream
that it need not wait for (R190). -/
structure OutEnt where
  dev : Nat
  core : Nat
  q : BitVec 2
  m : Msg
  ctx : Ctx
  after : Nat
  afterW : Nat
deriving DecidableEq, Repr

/-- The control words of a core that hold state (R35 to R39), and the sticky flags and bits of CORESTAT. -/
structure Ctl where
  fl : BitVec 5
  intrap : Bool
  preq : Bool
  txc : Bool
  dom : DTag
  cause : BitVec 9
  tpc : Word
  tval : Word
  iter : Word
  ckpttab : Word
  hbase : Word
deriving DecidableEq, Repr

/-- The registers of a core (R23, R24). -/
structure Regs where
  s : Vector Word 32
  v : Vector Lanes 32
  k : Vector (BitVec 48) 8
  q : Vector (List Word) 8
deriving DecidableEq, Repr

/-- Every register zero, every queue empty (R33). -/
def Regs.zero : Regs :=
  ⟨Vector.replicate 32 0#64, Vector.replicate 32 (Vector.replicate 48 0#32), Vector.replicate 8 0#48, Vector.replicate 8 []⟩

/-- A job of a copy streamer (R208, R213 to R218), also of a put, get or remote add (R271). `kind` 0 COPY, 1 WBFILL,
2 put, 3 get, 4 element add, 5 tile add. -/
structure Job where
  id : Nat
  kind : Nat
  ch : Nat
  wmk : Bool
  stag : BitVec 16
  seq : BitVec 16
  src : Word
  dst : Word
  cnt : Word
  ss : List Word
  ds : List Word
  run : Nat
  len : Nat
  ety : Nat
  cmpl : Nat
  sig : Word
  sigA : Bool
  fps : List (BitVec 128)
  dom : DTag
  task : TaskRef
  ctx : Ctx
  act : Option Nat
  promise : Nat
  edges : List Nat
  /-- 0 waits for edges, 1 released, 2 runs, 3 parked, 4 iterations done, 5 finished, 6 frozen -/
  st : Nat
  iter : Word
  done : Nat
  code : Nat
  flight : Nat
  after : Nat
  sigSent : Bool
  /-- the iteration at `iter` has been written, and its writes are being performed -/
  wr : Bool
  /-- the packets that the job has sent; `flight` writes are not known to be performed or dropped -/
  pkts : List Nat
deriving DecidableEq, Repr

/-- An armed put (R277). -/
structure Armed where
  trig : Nat
  thr : Word
  src : Word
  dst : Word
  len : Nat
  sig : Word
  cmpl : Nat
  dom : DTag
  ctx : Ctx
  task : TaskRef
  fired : Option (Nat × Bool)
  act : Nat
deriving DecidableEq, Repr

/-- A cached translation (R199): context, page size as a power of two, virtual page base, the leaf. -/
structure Tlb where
  ctx : Ctx
  lg : Nat
  vp : Word
  leaf : Word
deriving DecidableEq, Repr

/-- The debug module, trace encoder and counters of a core (R339 to R343). -/
structure Dbg where
  hcause : BitVec 8
  bpen : BitVec 4
  wpen : BitVec 2
  step : Bool
  halted : Bool
  halt : Bool
  /-- when the halt began, for the wait counts that pause (R340) -/
  since : Nat
  /-- the core resumes at the boundary where it halted: its instruction halts it no second time (R340) -/
  skip : Bool
  /-- an access has matched a watchpoint (R340) -/
  hit : Bool
  bp : Vector Word 4
  wp : Vector (Word × Bool × Bool) 2
  trBase : Word
  trSize : Word
  trPos : Nat
  lost : Nat
  ctr : Vector (BitVec 48) 4
  code : Vector (Option (BitVec 3)) 4
  /-- overflows whose sample is not written yet (R343): counter, event code, PC, whether the W stream caused it, the cycle of the event -/
  ovf : List (BitVec 2 × BitVec 3 × Word × Bool × Nat)
  /-- the instruction at the S head in this cycle (R343) -/
  head : Word
  /-- sums of messages, TRN, QW and HT per sender (R342); key 2^20 is the shared other accumulator -/
  acc : Tab (Word × Word × Word × Word)
deriving DecidableEq, Repr

def Dbg.zero : Dbg :=
  ⟨0#8, 0#4, 0#2, false, false, false, 0, false, false, Vector.replicate 4 0#64, Vector.replicate 2 (0#64, false, false), 0#64, 0#64, 0, 0,
    Vector.replicate 4 0#48, Vector.replicate 4 none, [], 0#64, []⟩

/-- A core (R21 to R39, R118 to R131, R208, R277). -/
structure Core where
  r : Regs
  c : Ctl
  pc : Word
  stat : SStat
  ready : Nat
  waitFrom : Option Nat
  waitVal : Word
  wbuf : List WEnt
  wpend : List WPend
  wReady : Nat
  wFrom : Option Nat
  wVal : Word
  /-- parked on the fault entry with this number, since a cycle (R296) -/
  park : Option (Nat × Nat)
  str : Tab Stream
  /-- bytes read at a peer by the S stream (key 0) or the W stream (key 1): address, bytes asked for, bytes received -/
  pread : Tab (Word × Nat × List Byte)
  act : Option Act
  /-- for each entry of a queue register: the first cycle in which it can be popped (R24), and the number below which the accesses
  of the stream that wrote it precede the write (R32) -/
  qinfo : Vector (List (Nat × Nat)) 8
  /-- the accesses of the other stream that come before those of the S stream, and of the W stream (R32): those with lower numbers -/
  sAfter : Nat
  wAfter : Nat
  regsB : List (Nat × Nat)
  inbox : Vector (List InSlot) 4
  age : Nat
  seqs : Tab (BitVec 16)
  outb : List OutEnt
  /-- messages of streams that have left for a peer and are not known to be delivered: packet, STAG, SEQ (12 R226) -/
  gone : List (Nat × BitVec 16 × BitVec 16)
  sp : List Host.Cell
  /-- stores of the core's streams into its scratchpad that its streamer need not see yet, in order, with the bytes that stood there before
  each (10 R182, 12 R227) -/
  late : List (Nat × List Byte)
  empties : List Nat
  acc : List PAcc
  sl : Slice
  jobs : List Job
  armed : List Armed
  itlb : List Tlb
  dtlb : List Tlb
  stlb : List Tlb
  /-- contexts the core runs, one entry per launch (R337), and the resident one -/
  runs : List (Ctx × Nat)
  res : Option Ctx
  dbg : Dbg
  /-- 0: the slot's own physical core; 8: the row's spare (R303); 9: unavailable -/
  phys : Nat
  /-- when a pre-emption was requested (R305) -/
  preqAt : Nat
  /-- the core's expired drops (R336) -/
  expd : Nat
  /-- words of the scratchpad, and blocks of the weight buffers, that a soft error has struck; true: it cannot be corrected (R302) -/
  ups : Tab Bool
  wbUps : Tab Bool
deriving DecidableEq, Repr

def Ctl.zero : Ctl := ⟨0#5, false, false, false, DTag.imm, 0#9, 0#64, 0#64, 0#64, 0#64, 0#64⟩

/-- A core after reset: idle, every register and every byte zero, every tag full. DESIGN CHOICE 0, log entries 1 and 2. -/
def Core.zero : Core :=
  { r := Regs.zero, c := Ctl.zero, pc := 0#64, stat := .idle, ready := 0, waitFrom := none, waitVal := 0#64, wbuf := []
    wpend := [], wReady := 0, wFrom := none, wVal := 0#64, park := none, str := [], pread := [], act := none, qinfo := Vector.replicate 8 [], sAfter := 0, wAfter := 0, regsB := [], inbox := Vector.replicate 4 [], age := 0
    seqs := [], outb := [], gone := [], sp := [], late := [], empties := [], acc := [], sl := Slice.zero, jobs := [], armed := [], itlb := []
    dtlb := [], stlb := [], runs := [], res := none, dbg := Dbg.zero, phys := 0, preqAt := 0, expd := 0, ups := [], wbUps := [] }

/-! Rows and clusters. -/

/-- A gang operation that has started and not yet reported (R162, R163, R171): its eight parts, the
offsets of their barrier objects, the start, the period, the
card's descriptor, counts and level words, the next iteration while it runs, the steps performed, the status so far, and the
iteration it stopped before. -/
structure Gang where
  parts : List Part
  bars : List Nat
  g : Nat
  per : Nat
  base : Word
  cnt : Word
  lv : List Word
  iter : Option Word
  k : Nat
  code : BitVec 4
  opc : BitVec 4
  fsl : BitVec 3
  fl : BitVec 3
  stop : Option Word
deriving DecidableEq, Repr

/-- A row's joint array (R158, R162): since when some heads but not all are gang parts, gang operations in progress, the
reservation of a gang record (07 R132), and since when a complete gang waits for derived tiles (13 R240). -/
structure Row where
  waitFrom : Option Nat
  gangs : List Gang
  resv : Option (Nat × Nat)
  derFrom : Option Nat
deriving DecidableEq, Repr

def Row.zero : Row := ⟨none, [], none, none⟩

/-- Whom a fault entry parks (R296). -/
inductive Party where
  | none
  | core (c : Nat)
  | job (c j : Nat)
  /-- the job at the head of a ring sequencer's queue -/
  | ring (port : Nat)
deriving DecidableEq, Repr

/-- A fault-queue entry (R297), by its number. -/
structure FEnt where
  n : Nat
  kind : BitVec 8
  acc : BitVec 4
  fk : BitVec 4
  wstr : Bool
  lease : Bool
  ch : BitVec 2
  core : BitVec 12
  ctx : Ctx
  dom : Dom
  pc : Word
  iter : Word
  addr : Word
  party : Party
  /-- what a RECLAIM event carries besides (14 R255): the generation and the length -/
  recl : Option (BitVec 32 × Word)
deriving DecidableEq, Repr

/-- A fault queue (R296): slots with their index, events held for room, SOFTCOR overflow. -/
structure FQueue where
  ents : Tab FEnt
  held : List FEnt
  lostN : Nat
deriving DecidableEq, Repr

def FQueue.zero : FQueue := ⟨[], [], 0⟩

/-- A cluster (R132, R199, R203, R296). -/
structure Cluster where
  fq : FQueue
  /-- free slots of each queue and idleness of each core in the last report -/
  report : Tab (Nat × Nat × Nat × Nat × Bool)
  repAt : Nat
  placed : Tab Nat
  l2 : List Tlb
deriving DecidableEq, Repr

def Cluster.zero : Cluster := ⟨FQueue.zero, [], 0, [], []⟩

/-! The hub. -/

/-- The state of a domain (R138). -/
inductive DSt where | free | live | annulled
deriving DecidableEq, Repr
/-- The kind of a domain (R138). -/
inductive DKd where | ord | join | shOrd | shJoin
deriving DecidableEq, Repr

/-- An entry of the domain table (R138), with the acknowledgements outstanding after an annulment (R144, R147). -/
structure DEnt where
  inst : Word
  st : DSt
  kind : DKd
  ctx : Ctx
  hdev : BitVec 8
  hid : Dom
  peers : List Nat
  mem : BitVec 256
  hasMask : Bool
  jl : List (Dom × Nat)
  annAt : Nat
  acks : List Nat
  peerAcks : List Nat
deriving DecidableEq, Repr

def DEnt.zero : DEnt := ⟨0#64, .free, .ord, 0#16, 0#8, 0#16, [], 0#256, false, [], 0, [], []⟩

/-- What a domain cache holds of a domain (R143). -/
structure DView where
  st : DSt
  kind : DKd
  inst : Word
deriving DecidableEq, Repr

/-- A Tarn name (R251) with the number of its binding. -/
structure Name where
  ctx : Ctx
  key : Word
  bgen : BitVec 32
  bind : Option Nat
deriving DecidableEq, Repr

/-- A binding (R252, R255). -/
structure TBind where
  id : Nat
  ctx : Ctx
  key : Word
  bgen : BitVec 32
  base : Word
  bytes : Word
  lrec : Word
  ver : BitVec 32
  retired : Bool
deriving DecidableEq, Repr

/-- A handle slot (R253): the generation, and context, domain and binding while it is open. -/
structure Hdl where
  gen : BitVec 24
  own : Option (Ctx × Dom × Nat)
deriving DecidableEq, Repr

/-- The state of a task record (R125, R126, R205); `discarded`: its domain was annulled before it was placed, and it is complete
(R148, R149). -/
inductive RSt where | waiting | ready | leased | placed | done | failed | discarded
deriving DecidableEq, Repr

/-- A task record (R123, R129). A pin is a page's base with its size as a power of two in the low bits. -/
structure Rec where
  key : Word
  hix : BitVec 8
  q : BitVec 2
  gang : Bool
  args : List Word
  fps : List (BitVec 128)
  aft : List Nat
  rply : Word
  dom : DTag
  st : RSt
  readyAt : Nat
  pins : List Word
  tainted : Bool
  /-- the cluster in whose intake the packet of an `enq` still stands (R129) -/
  intake : Option Nat
deriving DecidableEq, Repr

/-- A launch (R124, R333). -/
structure Launch where
  q : Nat
  pidx : Nat
  ctx : Ctx
  dom : DTag
  first : Nat
  ncore : Nat
  graph : Word
  keys : List (BitVec 8 × Word)
  recs : List Rec
  done : Bool
  firstFail : Option Nat
  /-- its domain has been annulled (R334) -/
  ann : Bool
  /-- the `sp` regions of the launch: offset and bytes (18 R308) -/
  regs : List (Nat × Nat)
deriving DecidableEq, Repr

/-- A handler-table entry (R121). -/
structure HEnt where
  key : Word
  v : Bool
  entry : Word
deriving DecidableEq, Repr

/-- A context: its record (R304) and its handler table (R121). -/
structure Context where
  record : CtxRec
  htab : Tab HEnt
deriving DecidableEq, Repr

/-- A packet in flight (R142, R147, R316 to R320): what it is, where it goes, its domain, and when it was formed. -/
structure Pkt where
  id : Nat
  dev : Nat
  body : PBody
  dom : DTag
  ctx : Ctx
  srcCore : Nat
  peer : Bool
  t : Nat
  stag : BitVec 16
  held : Bool
  port : Option Nat
deriving DecidableEq, Repr

/-- A save area (R308 to R310): the core it was taken from with all that R308 names, kind, checkpoint index, CYCS, the
arrival log. -/
structure Save where
  ctx : Ctx
  full : Bool
  ckix : Nat
  cycs : Nat
  core : Core
  log : List Pkt
  /-- the ranges of the scratchpad that the save holds -/
  keep : List (Nat × Nat)
deriving DecidableEq, Repr

/-- A ring job (R278 to R282). -/
structure RingJob where
  core : Nat
  nr : Nat
  rank : Nat
  nextd : Nat
  prevd : Nat
  dt : Nat
  kind : Nat
  tmo : Nat
  src : Word
  dst : Word
  len : Nat
  cmpl : Nat
  lrec : Nat
  dom : DTag
  ctx : Ctx
  task : TaskRef
  started : Bool
  step : Nat
  lastAt : Nat
  lost : BitVec 192
  first : Nat
  code : Option Nat
  lossSent : Bool
  /-- the MODEL's own: the job's number -/
  id : Nat
  /-- parked on a demand fault: the number of the fault entry (11 R207) -/
  park : Option Nat
  /-- the activation that submitted it (18 R300) -/
  act : Option Nat
  /-- flits of what it sends that wait for room in the port's retry buffer (20 R317) -/
  flits : Nat
  /-- targets of its tile that have not answered yet, and whether one has refused it (R276, R280) -/
  due : Nat
  refused : Bool
deriving DecidableEq, Repr

/-- A Rintur port (R316 to R320), with its AGED, NODEV and EXPD counters (R318, R319, R336). `resent`: the oldest flit held has been sent
again, and no answer has come. `refused`: a flit has been refused, and has not come again (18 R302). -/
structure Port where
  map : List (BitVec 8 × Ctx × Ctx)
  txSeq : BitVec 16
  rxSeq : BitVec 16
  retry : List (BitVec 16 × BitVec 256)
  fails : Nat
  down : Bool
  nomap : Nat
  ring : List RingJob
  resent : Bool
  aged : Nat
  nodev : Nat
  expd : Nat
  refused : Bool
deriving DecidableEq, Repr

def Port.zero : Port := ⟨[], 0#16, 0#16, [], 0, false, 0, [], false, 0, 0, 0, false⟩

/-- A flow-table entry (R324). -/
structure Flow where
  f : FlowRec
  frames : Word
deriving DecidableEq, Repr

/-- An egress queue (R327). -/
structure Egress where
  ring : Word
  size : Word
  tailVa : Word
  ctx : Ctx
  head : Nat
  tail : Nat
  /-- the descriptors of the frames still to be sent, as the TAIL stores have handed them over -/
  desc : List (List Byte)
deriving DecidableEq, Repr

/-- An Ethernet port (R323 to R327). -/
structure Eth where
  flow : Tab Flow
  held : List Pkt
  domLo : Nat
  domN : Nat
  fcs : Nat
  noMatch : Nat
  full : Nat
  oversize : Nat
  nodom : Nat
  eg : Tab Egress
  /-- the next numbers of the port's streams (07 R131) -/
  seqs : Tab (BitVec 16)
deriving DecidableEq, Repr

def Eth.zero : Eth := ⟨[], [], 0, 0, 0, 0, 0, 0, 0, [], []⟩

/-- A host command queue (R329 to R335). -/
structure HQ where
  rbase : Word
  rsize : Word
  tail : BitVec 32
  head : BitVec 32
  cbase : Word
  csize : Word
  erridx : BitVec 32
  err : BitVec 8
  stop : Bool
  en : Bool
  irq : BitVec 32
  cpos : Nat
  pend : Nat
  pendAt : Nat
  /-- packets of an INDIRECT buffer that are still to run (R332) -/
  ibuf : List (BitVec 512)
  /-- the host windows of the queue's capability (R331) -/
  caps : List (Nat × Nat)
deriving DecidableEq, Repr

def HQ.zero : HQ := ⟨0#64, 0#64, 0#32, 0#32, 0#64, 0#64, 0#32, 0#8, false, false, 0#32, 0, 0, 0, [], []⟩

/-- A shoot-down in progress or held (R203, R204). -/
structure Shoot where
  cmd : BitVec 128
  held : Bool
  acks : List Nat
  peers : List (Nat × Nat)
  t : Nat
deriving DecidableEq, Repr

/-- What leaves the device (log entry 5). -/
inductive Out where
  | peer (dev : Nat) (p : Pkt)
  | frame (port : Nat) (bytes : List Byte)
  | host (addr : Nat) (bytes : List Byte)
  | msix (vec : Nat)
  | sideband (what : Nat) (v : Word)
  /-- an SPDM answer: the measurements and their signature (24 R345) -/
  | spdm (l : List (BitVec 256)) (sig : BitVec 256)
  /-- the state of a halted core, as the debug module reads it (24 R340) -/
  | coreState (core : Nat) (x : Core)
  /-- all of device memory goes to the host: the bytes that are not listed are zeros (24 R347) -/
  | memory (cells : List Host.Cell)
  | flit (port : Nat) (seq : BitVec 16) (data : BitVec 256)
  | flitAck (port : Nat) (seq : BitVec 16) (ok : Bool)
  | ring (port step : Nat) (bytes : List Byte) (dom : DTag)
  /-- a rank's tile passes along the ring, with the slots for the ranks ahead (15 R280) -/
  | ringTile (port step src : Nat) (cells : Tab (BitVec 48)) (slots : List NewSlot)
  | lossMark (port : Nat) (mask : BitVec 192)
  | hostRead (bytes : List Byte)
  | accs (core : Nat) (acc : Tab (Word × Word × Word × Word))
  | lease (dev n : Nat) (page : Word)
  | recall (dev lease : Nat)
  | recallAck (dev lease : Nat)
  /-- the request of an abandoned operation of a party of a peer has been withdrawn (05 R96) -/
  | withdrawn (tok : Nat)
  /-- a shoot-down has completed, for the controller that issued it (11 R203) -/
  | shootDone (cmd : BitVec 128)
  /-- the answer to a party of a peer: its value, and the kind of the demand fault if there is one -/
  | token (tok : Nat) (v : BitVec 128) (fk : BitVec 4)
deriving DecidableEq, Repr

/-- The hub's services (R115, R136, R251, R296, R329). -/
structure Hub where
  doms : Tab DEnt
  dcache : Tab DView
  names : List Name
  binds : List TBind
  hdls : Tab Hdl
  launches : Tab Launch
  rr : Nat
  evq : FQueue
  pins : Tab Nat
  shoot : List Shoot
  /-- leases granted to peers (R322): device, number, context, page base with its size in the low bits -/
  leases : List (Nat × Nat × Ctx × Word)
  ctxs : Tab Context
  /-- frames that the fault service has assigned to pages (R333), by context and page -/
  frames : Tab Nat
  saves : Tab Save
  ports : Tab Port
  eths : Tab Eth
  hqs : Tab HQ
  podN : Nat
  dev : BitVec 8
  aged : Nat
  nodev : Nat
  expd : Nat
  /-- the EXPD counters of the endpoints that are no cores (21 R336) -/
  epExpd : Tab Nat
  /-- planes that are not live at a device's end: device and port (20 R316) -/
  deadAt : List (Nat × Nat)
deriving DecidableEq, Repr

/-- Firmware, power and time (R315, R344 to R349). -/
structure Sys where
  locked : Bool
  everLocked : Bool
  lostAt : Nat
  slotB : Bool
  image : Option FwImage
  version : BitVec 32
  pending : Option FwImage
  handover : Option Nat
  gate : Bool
  ckpting : Bool
  /-- the line state of the sync engines: lines held, least recently used first, with their tower (R264) -/
  lines : List (Nat × Nat)
  /-- the active configuration records: version and digest (R344) -/
  recs : Tab (BitVec 32 × BitVec 256)
  /-- what a checkpoint has written to the host's buffer (R347) -/
  buf : Option (List Host.Cell)
deriving DecidableEq, Repr

/-- What runs next (log entry 4): a step that no word encodes, or the S slot of a core. -/
inductive Turn where
  | event (i : Instr)
  | core (c : Nat)
deriving DecidableEq, Repr

/-- In an S slot an instruction is executed or dispatched; in a W issue the head of the W buffer issues (R21, R22). -/
inductive Phase where | s | w
deriving DecidableEq, Repr

/-- The state of the LK980. CYC and NOW (R2) count without bound here and are read modulo 2^64. `hostMem` is the host's own memory, and
`upsets` the words that a soft error has struck (18 R302). The last six fields are the MODEL's own (INVENTORY.md). -/
structure State where
  cyc : Nat
  now : Nat
  mem : List Host.Cell
  cores : Tab Core
  rows : Tab Row
  cls : Tab Cluster
  hub : Hub
  sys : Sys
  net : List Pkt
  out : List Out
  hostMem : List Host.Cell
  /-- by the number of the word of device memory; true: it cannot be corrected -/
  upsets : Tab Bool
  /-- the core whose turn it is -/
  cur : Nat
  phase : Phase
  /-- the word being executed -/
  ir : BitVec 32
  agenda : List Turn
  /-- the next number of packets, accesses, jobs, bindings, tickets and activations -/
  nextId : Nat
  /-- 60,000ths of a nanosecond towards the next of NOW -/
  frac : Nat
deriving DecidableEq, Repr

/-- Why the machine stops with a fault. -/
inductive Fault where
  /-- Raised by `step`: the agenda names a step whose numbers or payload no part of the device has (`Instr.wf`). Safe: the
  spec describes no such step. -/
  | illFormedStep
deriving DecidableEq, Repr

/-- Why an instruction has no meaning. -/
inductive Refusal where
  /-- Raised by `exec` for an instruction that is not modelled yet. Safe: the model stops where the device goes on. -/
  | notModelled (mnemonic : String)
deriving DecidableEq, Repr

/-- The hub after reset: every table empty, one device in the pod, number 0. -/
def Hub.zero : Hub :=
  { doms := [], dcache := [], names := [], binds := [], hdls := [], launches := [], rr := 0, evq := FQueue.zero, pins := []
    shoot := [], leases := [], ctxs := [], frames := [], saves := [], ports := [], eths := [], hqs := [], podN := 1, dev := 0#8
    aged := 0, nodev := 0, expd := 0, epExpd := [], deadAt := [] }

/-- The machine right after power-on: CYC is 0 (R315), memory lists nothing, every table is empty. -/
def State.reset : State :=
  { cyc := 0, now := 0, mem := [], cores := [], rows := [], cls := [], hub := Hub.zero
    sys := ⟨false, false, 0, false, none, 0#32, none, none, false, false, [], [], none⟩
    net := [], out := [], hostMem := [], upsets := [], cur := 0, phase := .s, ir := 0#32, agenda := [], nextId := 1, frac := 0 }

end Sys2Proof.Machine
end

