-- ==== Sys2Proof/Machine/Mem.lean ====
section
/-! DEFINITION. Sparse tables, byte memory in its canonical form, and messages as bytes (01_notation.md R7,
07_tasks_and_messages.md R116). -/

namespace Sys2Proof.Machine

/-! Tables: keys rise. -/

def tGet {α : Type} : Tab α → Nat → Option α
  | [], _ => none
  | (k, v) :: r, a => if k = a then some v else tGet r a

def tPut {α : Type} : Tab α → Nat → α → Tab α
  | [], a, v => [(a, v)]
  | (k, w) :: r, a, v =>
    if a < k then (a, v) :: (k, w) :: r else if a = k then (a, v) :: r else (k, w) :: tPut r a v

def tDel {α : Type} : Tab α → Nat → Tab α
  | [], _ => []
  | (k, w) :: r, a => if k = a then tDel r a else (k, w) :: tDel r a

/-- The lowest number from `n` on, below `m`, that is no key. -/
def tFree {α : Type} (t : Tab α) : Nat → Nat → Option Nat
  | 0, _ => none
  | k + 1, n => if (tGet t n).isNone then some n else tFree t k (n + 1)

/-! Byte memory: a list of cells, addresses rising, no cell 0, which is what an unlisted address reads as. DESIGN CHOICE,
log entry 2. -/

def Memory.get : List Host.Cell → Nat → Byte
  | [], _ => 0#8
  | (k, b) :: r, a => if k = a then b else Memory.get r a

def Memory.set (m : List Host.Cell) (a : Nat) (b : Byte) : List Host.Cell := if b = 0#8 then tDel m a else tPut m a b

/-- The canonical form, above an address. -/
def Memory.wfFrom : Nat → List Host.Cell → Bool
  | _, [] => true
  | n, (k, b) :: r => decide (n ≤ k) && decide (b ≠ 0#8) && Memory.wfFrom (k + 1) r

/-- The canonical form of a memory. -/
def Memory.wf (m : List Host.Cell) : Bool := Memory.wfFrom 0 m

/-- `n` bytes from address `a` on. -/
def Memory.read (m : List Host.Cell) (a : Nat) : Nat → List Byte
  | 0 => []
  | n + 1 => Memory.get m a :: Memory.read m (a + 1) n

/-- Bytes written from address `a` on. -/
def Memory.write : List Host.Cell → Nat → List Byte → List Host.Cell
  | m, _, [] => m
  | m, a, b :: bs => Memory.write (Memory.set m a b) (a + 1) bs

/-- A little-endian word of 64 bits (R7). -/
def Memory.word (m : List Host.Cell) (a : Nat) : Word := BitVec.ofNat 64 (leNat (Memory.read m a 8))

/-- The bytes of a 64-bit word. -/
def wordBytes (w : Word) : List Byte := leBytes 8 w.toNat

/-- The 64-bit word of eight bytes. -/
def bytesWord (bs : List Byte) : Word := BitVec.ofNat 64 (leNat bs)

/-! Sets of scratchpad words that are empty (R31): numbers rising. -/

def setIns (a : Nat) : List Nat → List Nat
  | [] => [a]
  | k :: r => if a < k then a :: k :: r else if a = k then k :: r else k :: setIns a r
def setDel (a : Nat) (l : List Nat) : List Nat := l.filter (· != a)

/-! Messages (R116). -/

/-- The header as one little-endian 256-bit value (R116). -/
def msgHeader (m : Msg) : BitVec 256 :=
  m.rply ++ 0#28 ++ m.seq ++ m.stag ++ m.srcd ++ m.srcc ++ m.stmp ++ m.inst ++ m.dom ++ 0#1 ++
    BitVec.ofBool m.txc ++ BitVec.ofBool m.ext ++ BitVec.ofBool m.inl ++ m.hnd

/-- The 64 bytes of a message. -/
def msgBytes (m : Msg) : List Byte :=
  leBytes 32 (msgHeader m).toNat ++ wordBytes m.p0 ++ wordBytes m.p1 ++ wordBytes m.p2 ++ wordBytes m.p3

def msgTag (m : Msg) : DTag := ⟨m.dom, m.inst, m.ext⟩

/-- A message with every field zero. -/
def msgZero : Msg :=
  ⟨0#12, false, false, false, 0#16, 0#48, 0#32, 0#12, 0#8, 0#16, 0#16, 0#64, 0#64, 0#64, 0#64, 0#64⟩

/-- Bits [hi : lo] of a word as a number. -/
def bits (w : Word) (hi lo : Nat) : Nat := w.toNat / 2 ^ lo % 2 ^ (hi + 1 - lo)

end Sys2Proof.Machine
end

