-- ==== Sys2Proof/Machine/Ops.lean ====
section
/-! DEFINITION. The named operations over registers, memory, domains, queues and traps that the meanings share. -/

namespace Sys2Proof.Machine

/-! Parts of the state. -/

def State.core (s : State) (c : Nat) : Core := (tGet s.cores c).getD Core.zero
def State.setCore (s : State) (c : Nat) (x : Core) : State := { s with cores := tPut s.cores c x }
def State.upd (s : State) (c : Nat) (f : Core → Core) : State := s.setCore c (f (s.core c))
/-- The core whose turn it is. -/
def State.me (s : State) : Core := s.core s.cur
def State.updMe (s : State) (f : Core → Core) : State := s.upd s.cur f
def State.row (s : State) (r : Nat) : Row := (tGet s.rows r).getD Row.zero
def State.setRow (s : State) (r : Nat) (x : Row) : State := { s with rows := tPut s.rows r x }
def State.cl (s : State) (k : Nat) : Cluster := (tGet s.cls k).getD Cluster.zero
def State.updCl (s : State) (k : Nat) (f : Cluster → Cluster) : State := { s with cls := tPut s.cls k (f (s.cl k)) }
def State.updHub (s : State) (f : Hub → Hub) : State := { s with hub := f s.hub }
def State.emit (s : State) (o : Out) : State := { s with out := s.out ++ [o] }
def clusterOf (c : Nat) : Nat := c / 64
def rowOf (c : Nat) : Nat := c / 8

/-- A fresh number, and the state after it. -/
def State.fresh (s : State) : State := { s with nextId := s.nextId + 1 }

/-! Registers (R23, R24): s0 reads zero and discards writes, k0 reads all ones and discards writes. -/

def Core.rs (c : Core) (r : Reg) : Word := if r = 0#5 then 0#64 else c.r.s[r.toNat]'r.isLt
def Core.ws (c : Core) (r : Reg) (x : Word) : Core :=
  if r = 0#5 then c else { c with r := { c.r with s := c.r.s.set r.toNat x r.isLt } }
def Core.rv (c : Core) (r : VReg) : Lanes := c.r.v[r.toNat]'r.isLt
def Core.rk (c : Core) (r : KReg) : BitVec 48 := if r = 0#3 then BitVec.allOnes 48 else c.r.k[r.toNat]'r.isLt
def Core.rq (c : Core) (n : BitVec 3) : List Word := c.r.q[n.toNat]'n.isLt
def Core.wq (c : Core) (n : BitVec 3) (x : List Word) : Core := { c with r := { c.r with q := c.r.q.set n.toNat x n.isLt } }
/-- An entry is added to a queue register: it can be popped from a cycle on, after the accesses below a number (R24, R32). -/
def Core.push (c : Core) (n : BitVec 3) (x : Word) (from_ after : Nat) : Core :=
  let c := c.wq n (c.rq n ++ [x])
  { c with qinfo := c.qinfo.set n.toNat ((c.qinfo[n.toNat]'n.isLt) ++ [(from_, after)]) n.isLt }
/-- What is noted of the oldest entry of a queue register. -/
def Core.qhead (c : Core) (n : BitVec 3) : Nat × Nat := (c.qinfo[n.toNat]'n.isLt).headD (0, 0)
/-- The oldest entry of a queue register is popped (R24). -/
def Core.pop (c : Core) (n : BitVec 3) : Core :=
  let c := c.wq n (c.rq n).tail
  { c with qinfo := c.qinfo.set n.toNat (c.qinfo[n.toNat]'n.isLt).tail n.isLt }
/-- The number of an S register, by its place in s0 to s31. -/
def sreg (n : Nat) : Reg := BitVec.ofNat 5 n

/-! Domains (R136 to R146). -/

/-- The endpoints (R143, 15 R268): the cores by their numbers, the hub's services, then the inboxes, the scratchpads, the DRAM channel
controllers, the sync engines of the towers, and the hub's host-coherent point. -/
def hubEp : Nat := nCores
def inboxEp (c : Nat) : Nat := nCores + 1 + c
def spEp (c : Nat) : Nat := 2 * nCores + 1 + c
def chanEp (n : Nat) : Nat := 3 * nCores + 1 + n
def syncEp (tower : Nat) : Nat := 4 * nCores + 1 + tower
def hostEp : Nat := 4 * nCores + 5
def nEndpoints : Nat := 4 * nCores + 6
/-- The core that an endpoint stands at: that of an inbox, a scratchpad, or a channel. -/
def epCore (ep : Nat) : Option Nat :=
  if ep < nCores then some ep else if nCores < ep ∧ ep ≤ 4 * nCores then some ((ep - nCores - 1) % nCores) else none

def State.dom (s : State) (d : Dom) : DEnt := (tGet s.hub.doms d.toNat).getD DEnt.zero
def State.setDom (s : State) (d : Dom) (e : DEnt) : State := s.updHub fun h => { h with doms := tPut h.doms d.toNat e }

/-- A packed instant has passed at a checker whose NOW reads `now` (R137). -/
def instPassed (now : Nat) (i : BitVec 48) : Bool := decide ((now % 2 ^ 48 + 2 ^ 48 - i.toNat) % 2 ^ 48 < 2 ^ 47)

/-- What an endpoint knows of a domain (R143). On a miss it waits for the EXU's entry: it sees that entry. -/
def State.domView (s : State) (ep : Nat) (d : Dom) : DView :=
  match tGet s.hub.dcache (ep * 65536 + d.toNat) with
  | some v => v
  | none => let e := s.dom d; ⟨e.st, e.kind, e.inst⟩

/-- A drop for expiry is counted at its endpoint (21 R336): a core, the hub's services, or another. -/
def State.dropAt (s : State) (ep : Nat) : State :=
  if ep < nCores then s.upd ep fun x => { x with expd := x.expd + 1 }
  else if ep = hubEp then s.updHub fun h => { h with expd := h.expd + 1 }
  else s.updHub fun h => { h with epExpd := tPut h.epExpd ep ((tGet h.epExpd ep).getD 0 + 1) }

/-- An endpoint finds work of a domain expired (R143). -/
def State.expired (s : State) (ep : Nat) (t : DTag) : Bool :=
  t.id != 0#16 && ((! t.ext && instPassed s.now t.inst) || (s.domView ep t.id).st != .live)

/-- The domain a packet formed now carries, with its present instant (R139; DEDUCED, log entry 94). -/
def State.tagOf (s : State) (d : Dom) : DTag :=
  if d = 0#16 then DTag.imm else
  let e := s.dom d
  ⟨d, e.inst.setWidth 48, e.kind == .join || e.kind == .shJoin⟩

/-- The domain of work that has been formed earlier and waits at an endpoint, with the instant that the domain has now (R139, R155). -/
def State.dtag (s : State) (t : DTag) : DTag := if (s.dom t.id).st = .live then s.tagOf t.id else t

/-! Trace and counters (R341, R343). -/

/-- Writes the trace record of an event of a cycle; one that finds the ring full is counted in LOST (R341). -/
def State.traceAt (s : State) (c : Nat) (kind : BitVec 8) (d1 d2 d3 : Word) (t : Nat) : State :=
  let x := s.core c
  if x.dbg.trSize = 0#64 then s
  else if x.dbg.trPos + 32 > x.dbg.trSize.toNat then s.upd c fun x => { x with dbg := { x.dbg with lost := x.dbg.lost + 1 } }
  else
    let rec_ : BitVec 256 := d3 ++ d2 ++ d1 ++ kind ++ BitVec.ofNat 12 c ++ BitVec.ofNat 44 t
    let s := { s with mem := Memory.write s.mem (x.dbg.trBase.toNat + x.dbg.trPos) (leBytes 32 rec_.toNat) }
    s.upd c fun x => { x with dbg := { x.dbg with trPos := x.dbg.trPos + 32 } }

/-- Writes the trace record of an event of this cycle. -/
def State.trace (s : State) (c : Nat) (kind : BitVec 8) (d1 d2 d3 : Word) : State := s.traceAt c kind d1 d2 d3 s.cyc

/-- Counts an event of a code on the counters that are programmed for it; an overflow is due a sample record (R343). -/
def State.count (s : State) (c : Nat) (code : BitVec 3) (pc : Word) (w : Bool) : State :=
  [0, 1, 2, 3].foldl (fun s n =>
    let x := s.core c
    if (x.dbg.code.toList.getD n none) = some code then
      let v := (x.dbg.ctr.toList.getD n 0#48) + 1#48
      let s := s.upd c fun x => { x with dbg := { x.dbg with ctr := x.dbg.ctr.setIfInBounds n v } }
      if v = 0#48 then s.upd c fun x => { x with dbg := { x.dbg with ovf := x.dbg.ovf ++ [(BitVec.ofNat 2 n, code, pc, w, s.cyc)] } } else s
    else s) s

/-! Fault queues (R296, R297). -/

/-- An entry with every field 0. -/
def fEnt0 : FEnt := ⟨0, 0#8, 0#4, 0#4, false, false, 0#2, 0#12, 0#16, 0#16, 0#64, 0#64, 0#64, .none, none⟩

/-- Enters an event into a queue of `n` entries at the lowest free index; without room it is held, or counted for SOFTCOR
(R296). -/
def FQueue.enter (q : FQueue) (n : Nat) (e : FEnt) : FQueue :=
  match (if q.held.isEmpty then tFree q.ents n 0 else none) with
  | some i => { q with ents := tPut q.ents i e }
  | none => if e.kind = 0x21#8 then { q with lostN := q.lostN + 1 } else { q with held := q.held ++ [e] }

/-- Enters an event into a core's cluster queue under a fresh number. -/
def State.fault (s : State) (cl : Nat) (e : FEnt) : State :=
  let e := { e with n := s.nextId }
  (s.updCl cl fun k => { k with fq := k.fq.enter 64 e }).fresh

/-- Enters an event into the hub's queue (R296). -/
def State.hubEvent (s : State) (e : FEnt) : State :=
  let e := { e with n := s.nextId }
  (s.updHub fun h => { h with evq := h.evq.enter 256 e }).fresh

/-- The context, the task and the domain, with its instant now (R139), under which a core's stream makes its accesses. -/
structure Who where
  core : Nat
  ctx : Ctx
  task : TaskRef
  act : Nat
  dom : DTag
  w : Bool
deriving DecidableEq, Repr

def State.who (s : State) (c : Nat) (w : Bool) : Who :=
  let x := s.core c
  match x.act with
  | some a => ⟨c, a.ctx, a.task, a.id, s.dtag x.c.dom, w⟩
  | none => ⟨c, x.res.getD 0#16, none, 0, s.dtag x.c.dom, w⟩

/-! Packets (R142, R316 to R319). -/

/-- Puts a packet on its way. -/
def State.send (s : State) (dev : Nat) (body : PBody) (dom : DTag) (ctx : Ctx) (src : Nat) (stag : BitVec 16) : State :=
  ({ s with net := s.net ++ [(⟨s.nextId, dev, body, dom, ctx, src, false, s.cyc, stag, false, none⟩ : Pkt)] }).fresh

def State.own (s : State) : Nat := s.hub.dev.toNat

/-! Scratchpads (R28 to R31): bytes, the inbox view, tags. -/

/-- A byte of the core-local window: the scratchpad below 0x8_0000, the inbox view above it (R30). A slot that holds no message reads as
zeros (DESIGN CHOICE, log entry 75). -/
def Core.spGet (c : Core) (off : Nat) : Byte :=
  if off < 0x80000 then Memory.get c.sp off
  else
    let o := off - 0x80000
    let q := (c.inbox.toList.getD (o / 0x400) [])
    match q.find? (fun e => e.ix == o % 0x400 / 0x40) with
    | some e => (msgBytes e.m).getD (o % 0x40) 0#8
    | none => 0#8

def Core.spRead (c : Core) (off : Nat) : Nat → List Byte
  | 0 => []
  | n + 1 => c.spGet off :: c.spRead (off + 1) n

/-- A word that is stored is whole again (18 R302): those of `n` bytes from an offset on. -/
def mended (u : Tab Bool) (off n : Nat) : Tab Bool := u.filter fun e => decide (e.1 < off / 8) || decide ((off + n + 7) / 8 ≤ e.1)

/-- Whether a soft error has struck one of the words of `n` bytes from an offset on, and one that cannot be corrected (18 R302). -/
def struck (u : Tab Bool) (off n : Nat) : Option Bool :=
  match u.filter fun e => decide (off / 8 ≤ e.1) && decide (e.1 < (off + n + 7) / 8) with
  | [] => none
  | l => some (l.any (·.2))

/-- Bytes written into the scratchpad. Stores to one scratchpad are seen in one order (10 R182): a write of another agent is seen at once, and
so are the stores before it. -/
def Core.spWrite (c : Core) (off : Nat) (bs : List Byte) : Core := { c with sp := Memory.write c.sp off bs, late := [], ups := mended c.ups off bs.length }

/-- A store of the core's own streams, which its streamer need not see before an `xfence` (12 R227). -/
def Core.spStore (c : Core) (off : Nat) (bs : List Byte) : Core :=
  { c with sp := Memory.write c.sp off bs, late := c.late ++ [(off, c.spRead off bs.length)], ups := mended c.ups off bs.length }

/-- Every earlier store is performed for the streamer, at an `xfence` (12 R227). -/
def Core.seen (eng : Bool) (c : Core) : Core := if eng then { c with late := [] } else c

/-- The scratchpad as the core's streamer reads it (12 R227): as it was before the first store that it has not seen. -/
def Core.lateView (c : Core) (off n : Nat) : List Byte :=
  (List.range n).map fun i =>
    match c.late.find? fun e => decide (e.1 ≤ off + i) && decide (off + i < e.1 + e.2.length) with
    | some e => e.2.getD (off + i - e.1) 0#8
    | none => c.spGet (off + i)

def Core.spWord (c : Core) (off : Nat) : Word := bytesWord (c.spRead off 8)
/-- Tag of the word at an offset: true is full (R31). -/
def Core.full (c : Core) (off : Nat) : Bool := ! c.empties.contains (off / 8)
def Core.setTag (c : Core) (off : Nat) (full : Bool) : Core :=
  { c with empties := if full then setDel (off / 8) c.empties else setIns (off / 8) c.empties }

/-- Word n of the constant window (R28). -/
def Core.cw (c : Core) (i : CIx) : Word := c.spWord (8 * i.toNat)

/-- A sync engine holds the line of an address (15 R264). -/
def State.lineHeld (s : State) (pa : Nat) : Bool := s.sys.lines.any fun x => x.1 == pa / 64

/-- An access at a place whose line a sync engine holds uses the line (15 R264). -/
def State.touchLine (s : State) (p : Place) : State :=
  match p with
  | .dram pa =>
    match s.sys.lines.find? fun x => x.1 == pa / 64 with
    | some v => { s with sys := { s.sys with lines := s.sys.lines.filter (fun x => x.1 != pa / 64) ++ [v] } }
    | none => s
  | _ => s

/-- The endpoint that performs an access at a place (R143, 15 R263, R264): the owning scratchpad; the DRAM channel, unless a sync engine
holds the line; for an atomic the sync engine of the frame's tower, or the host-coherent point on a page with SYSA = 1. -/
def State.placeEp (s : State) (p : Place) (sysa atomic : Bool) : Nat :=
  match p with
  | .sp k _ => spEp k
  | .dram pa =>
    if atomic && sysa then hostEp else if atomic || s.lineHeld pa then syncEp (pa / channelBytes / 1024) else chanEp (pa / channelBytes)
  | .peer _ => hubEp

/-- Bytes read at a place. -/
def State.readAt (s : State) (p : Place) (n : Nat) : List Byte :=
  match p with
  | .sp c off => (s.core c).spRead off n
  | .dram pa => Memory.read s.mem pa n
  | .peer _ => List.replicate n 0#8

/-- Bytes that the streamer of a core reads at a place. -/
def State.engRead (s : State) (c : Nat) (p : Place) (n : Nat) : List Byte :=
  match p with
  | .sp k off => if k = c then (s.core c).lateView off n else s.readAt p n
  | _ => s.readAt p n

/-- The streamer of a core reads: how many more of the core's stores it has seen by then is free; it sees them in their order (10 R180,
R182, 12 R227; DESIGN CHOICE, log entry 80). -/
def State.seeLate (s : State) (c : Nat) : State :=
  if (s.core c).late.isEmpty then s
  else (s.fresh).upd c fun x => { x with late := x.late.drop (Config.streamSees s.nextId) }

/-- Bytes written at a place. -/
def State.writeAt (s : State) (p : Place) (bs : List Byte) : State :=
  match p with
  | .sp c off => s.upd c fun x => x.spWrite off bs
  | .dram pa => { s with mem := Memory.write s.mem pa bs, upsets := mended s.upsets pa bs.length }
  | .peer _ => s

/-- What soft error the words of a place have (18 R302). -/
def State.struckAt (s : State) (p : Place) (n : Nat) : Option Bool :=
  match p with
  | .sp k off => struck (s.core k).ups off n
  | .dram pa => struck s.upsets pa n
  | .peer _ => none

/-- The words of a place whose soft error has been corrected are whole again. -/
def State.mendAt (s : State) (p : Place) (n : Nat) : State :=
  match p with
  | .sp k off => s.upd k fun x => { x with ups := mended x.ups off n }
  | .dram pa => { s with upsets := mended s.upsets pa n }
  | .peer _ => s

/-- What soft error a list of pieces meets: one that cannot be corrected, or only corrected ones. -/
def State.struckPs (s : State) (ps : List Piece) : Option Bool :=
  ps.foldl (fun (r : Option Bool) p => match s.struckAt p.at_ p.n, r with | some b, some d => some (b || d) | some b, none => some b | none, _ => r) none

/-- The corrected words of a list of pieces are whole again. -/
def State.mendPs (s : State) (ps : List Piece) : State := ps.foldl (fun (s : State) p => s.mendAt p.at_ p.n) s

/-- A soft error strikes (18 R302): a word of device memory, a word of a scratchpad, or a block of a weight buffer. -/
def State.strike (s : State) (k : Nat) (bad : Bool) : State :=
  let i := k / 3
  if k % 3 = 0 then { s with upsets := tPut s.upsets (i % (dramBytes / 8)) bad }
  else if k % 3 = 1 then s.upd (i / 65536 % nCores) fun x => { x with ups := tPut x.ups (i % 65536) bad }
  else s.upd (i / 2048 % nCores) fun x => { x with wbUps := tPut x.wbUps (i % 2048) bad }

/-! Contexts that are not resident (18 R310). -/

/-- The key of a save area (18 R309). -/
def saveKey (ctx : Ctx) (c : Nat) : Nat := ctx.toNat * 4096 + c

/-- The core runs a context that is not resident on it (07 R128, 18 R310). -/
def State.away (s : State) (c : Nat) (ctx : Ctx) : Bool := (tGet s.hub.saves (saveKey ctx c)).isSome

/-- The save area of a context that has never been resident on the core: an idle core. -/
def saveNew (ctx : Ctx) : Save := ⟨ctx, true, 0, 0, Core.zero, [], [(0, 0x80000)]⟩

/-- The arrival log of a context's save area is full (18 R310): a sender whose arrival finds it so holds it. -/
def State.logFull (s : State) (c : Nat) (ctx : Ctx) : Bool :=
  match tGet s.hub.saves (saveKey ctx c), tGet s.hub.ctxs ctx.toNat with
  | some v, some k => Config.logFull k.record.ssz.toNat v.log.length
  | _, _ => false

/-- A write at a place would go into a log that is full. -/
def State.logStop (s : State) (ctx : Ctx) (p : Place) : Bool := match p with | .sp k _ => s.logFull k ctx | _ => false

/-- The log in a save area's memory grows by its entry number `n`, and LOGEND moves on (18 R309); how an entry is laid out is free. -/
def State.logImage (s : State) (c : Nat) (ctx : Ctx) (n id : Nat) : State :=
  match tGet s.hub.ctxs ctx.toNat with
  | none => s
  | some k =>
    let b := k.record.save.toNat + c * k.record.ssz.toNat
    let e := 0xC2000 + Config.logBytes n
    let e' := 0xC2000 + Config.logBytes (n + 1)
    let m := Memory.write s.mem (b + e) ((List.range (e' - e)).map fun i => Config.logByte id i)
    { s with mem := Memory.write m (b + 48) (leBytes 8 e') }

/-- Appends an arrival to the log of a context that is not resident (18 R310). -/
def State.toLog (s : State) (c : Nat) (k : Pkt) : State :=
  let v := (tGet s.hub.saves (saveKey k.ctx c)).getD (saveNew k.ctx)
  let s := s.logImage c k.ctx v.log.length k.id
  s.updHub fun h => { h with saves := tPut h.saves (saveKey k.ctx c) { v with log := v.log ++ [k] } }

/-- Acts on the core as a context has it: on its save while it is not resident. -/
def State.updIn (s : State) (c : Nat) (ctx : Ctx) (f : Core → Core) : State :=
  match tGet s.hub.saves (saveKey ctx c) with
  | some v => s.updHub fun h => { h with saves := tPut h.saves (saveKey ctx c) { v with core := f v.core } }
  | none => s.upd c f

/-- The core as a context has it. -/
def State.coreIn (s : State) (c : Nat) (ctx : Ctx) : Core := ((tGet s.hub.saves (saveKey ctx c)).map (·.core)).getD (s.core c)

/-- An access uses the lines of its pieces (15 R264). -/
def State.touch (s : State) (ps : List Piece) : State := ps.foldl (fun s p => s.touchLine p.at_) s

/-- Performs a store at its place: for a scratchpad whose context is not resident it is appended to the arrival log. -/
def State.storeTo (s : State) (p : Place) (va : Word) (bs : List Byte) (dom : DTag) (ctx : Ctx) (src : Nat) : State :=
  match p with
  | .sp k _ =>
    if s.away k ctx then (s.toLog k ⟨s.nextId, s.own, .store va bs, dom, ctx, src, false, s.cyc, 0#16, false, none⟩).fresh
    else s.writeAt p bs
  | _ => (s.writeAt p bs).touchLine p

/-! Barrier and completion objects (R133, R164, R218, R311). -/

/-- One arrival on the object at a scratchpad offset (R133); `st` is an engine's status for STAT.ENG (R164). -/
def Core.arrive (c : Core) (off : Nat) (dep ann : Bool) (st : Option (BitVec 48)) : Core :=
  let w0 := c.spWord off
  let w1 := c.spWord (off + 8)
  let init : BitVec 24 := w0.extractLsb' 32 24
  let left : BitVec 24 := w0.extractLsb' 0 24
  if init = 0#24 ∨ left = 0#24 ∨ left > init then c.spWrite (off + 8) (wordBytes (w1 ||| 8#64))
  else
    let w1 : Word :=
      match st with
      | none => w1
      | some e =>
        if left = init then e ++ (w1.extractLsb' 0 16)
        else
          let w1 := w1 ||| ((e.extractLsb' 0 3).setWidth 64 <<< 16)
          if w1.extractLsb' 52 4 = 0#4 then
            (w1 &&& 0xFF001FFFFFFFFFFF#64) ||| ((e.extractLsb' 29 11).setWidth 64 <<< 45)
          else w1
    let dep := w0.getLsbD 62 || dep
    let ann := w0.getLsbD 61 || ann
    let ph := w0.getLsbD 63
    if left = 1#24 then
      let w1 : Word := (w1 &&& 0xFFFFFFFFFFFFFFF9#64) ||| (if ann then 4#64 else 0#64) ||| (if dep then 2#64 else 0#64)
      let w0 : Word := BitVec.ofBool (! ph) ++ 0#7 ++ init ++ 0#8 ++ init
      ((c.spWrite off (wordBytes w0)).spWrite (off + 8) (wordBytes w1)).setTag (off + 8) true
    else
      let w0 : Word := BitVec.ofBool ph ++ BitVec.ofBool dep ++ BitVec.ofBool ann ++ 0#5 ++ init ++ 0#8 ++ (left - 1#24)
      (c.spWrite off (wordBytes w0)).spWrite (off + 8) (wordBytes w1)

/-- The status word of an engine's arrival with a code (R164, R218). -/
def engSt (code : Nat) : BitVec 48 := BitVec.ofNat 48 (code % 16 * 2 ^ 36)

/-! Armed puts (R277). -/

/-- Fires the entries whose trigger word at `off` has COUNT at or above their threshold: they are marked fired, with the number of the
firing, which rises, and the trigger's ANN. An entry whose task has ended belongs to none (07 R126). -/
def Core.evalArmed (c : Core) (off : Nat) (tick : Nat) : Core :=
  let w := c.spWord off
  let n := c.armed.foldl (fun (m : Nat) a => match a.fired with | some (t, _) => max m (t + 1) | none => m) tick
  { c with armed := c.armed.map fun a =>
      if a.trig = off ∧ a.fired.isNone ∧ (w &&& 0x7FFFFFFFFFFFFFFF#64) ≥ a.thr then
        { a with fired := some (n, w.getLsbD 63), act := if c.act.map (·.id) = some a.act then a.act else 0 }
      else a }

/-! Address classes (R194) and translation (R195 to R200). -/

/-- The class of an address (R194), seen from a core; its own device's global addresses count as G = 0, its own aperture
as the core-local window, whose accesses need a range of the footprint as well (R178). -/
inductive ACls where
  | loc (off : Nat)
  | ap (core off : Nat)
  | dva (va : Word)
  | peer (va : Word)
  | resv
deriving DecidableEq, Repr

def classify (own : Nat) (core : Nat) (a : Word) : ACls :=
  let g := bits a 63 56
  let v := bits a 55 0
  if g = 0 ∨ g = own + 1 then
    if v < 0x100000 then .loc v
    else if 0xFE000000000000 ≤ v ∧ v < 0xFE000100000000 then
      let n := (v - 0xFE000000000000) / 0x100000
      if n ≠ core then .ap n (v % 0x100000) else if v % 0x100000 < 0x80000 then .loc (v % 0x100000) else .resv
    else if 0xFE000100000000 ≤ v then .resv
    else .dva (BitVec.ofNat 64 v)
  else if g ≤ 192 then
    if v < 0x100000 ∨ 0xFE000100000000 ≤ v then .resv else .peer a
  else .resv

/-- The address names a scratchpad through the aperture (R178). -/
def viaAperture (a : Word) : Bool := decide (0xFE000000000000 ≤ bits a 55 0)

/-- Outcome of a walk: the leaf with the size of its page, or the fault kind of R207. -/
inductive Walk where
  | leaf (e : Word) (lg : Nat)
  | bad (fk : BitVec 4)
deriving DecidableEq, Repr

/-- A valid entry is malformed (R197); `lv` is its level, `sh` the address bit its index begins at. -/
def pteBad (lv sh : Nat) (e : Word) : Bool :=
  if e.getLsbD 1 then
    decide (lv < 2) || bits e 60 59 == 3 || (e.getLsbD 3 && ! e.getLsbD 2) || bits e 63 61 == 7 ||
      ((bits e 63 61 == 3 || bits e 63 61 == 4) && ! e.getLsbD 58) || bits e 56 53 != 0 || bits e 15 5 != 0 ||
      bits e 52 16 * 2 ^ 16 % 2 ^ sh != 0 || decide (bits e 52 16 * 2 ^ 16 + 2 ^ sh > dramBytes)
  else
    lv == 4 || bits e 63 53 != 0 || bits e 7 2 != 0 || (decide (lv < 3) && bits e 11 8 != 0)

/-- The walk, from a level's table on (R195, R200 steps 4 and 5). A table beyond the end of device memory reads as zeros (DESIGN CHOICE, log
entry 104). -/
def walkFrom (mem : List Host.Cell) (va : Word) : List (Nat × Nat × Nat) → Nat → Walk
  | [], _ => .bad 2#4
  | (lv, hi, sh) :: r, base =>
    let e := Memory.word mem (base + 8 * bits va hi sh)
    if ! e.getLsbD 0 then .bad 1#4
    else if pteBad lv sh e then .bad 2#4
    else if e.getLsbD 1 then .leaf e sh
    else walkFrom mem va r (bits e 52 8 * 256)

/-- The walk from a context's root (R195). -/
def walk (mem : List Host.Cell) (root : Word) (va : Word) : Walk :=
  walkFrom mem va [(0, 55, 48), (1, 47, 39), (2, 38, 30), (3, 29, 21), (4, 20, 16)] root.toNat

def tlbFind (l : List Tlb) (ctx : Ctx) (va : Word) : Option Tlb :=
  l.find? fun e => e.ctx == ctx && e.vp == va >>> e.lg

/-- Which buffer of a core: instruction, data, streamer (R199). -/
inductive TBuf where | i | d | st
deriving DecidableEq, Repr

def Core.tlb (c : Core) : TBuf → List Tlb
  | .i => c.itlb
  | .d => c.dtlb
  | .st => c.stlb
/-- Fills a core buffer. A full one gives up the entry that was filled first (DESIGN CHOICE, log entry 104). -/
def Core.fill (c : Core) (b : TBuf) (e : Tlb) : Core :=
  match b with
  | .i => { c with itlb := (e :: c.itlb).take 32 }
  | .d => { c with dtlb := (e :: c.dtlb).take 64 }
  | .st => { c with stlb := (e :: c.stlb).take 64 }

/-- Lookup in the core buffer, then the second level, then the walk, filling both (R199, R200 step 3). A buffered leaf that does not
allow the access counts as a miss: a permission that has been added is seen without a shoot-down (R202, R204). An access that no core
makes walks the tables. In a context without a record nothing is present, and a full second level gives up the entry that was filled first
(DESIGN CHOICE, log entry 104). -/
def State.xlate (s : State) (c : Nat) (b : TBuf) (ctx : Ctx) (okLeaf : Word → Bool) (va : Word) : Walk × State :=
  match (tlbFind ((s.core c).tlb b) ctx va).filter fun e => okLeaf e.leaf with
  | some e => (.leaf e.leaf e.lg, s)
  | none =>
    match (tlbFind (s.cl (clusterOf c)).l2 ctx va).filter fun e => okLeaf e.leaf with
    | some e => (.leaf e.leaf e.lg, s.upd c fun x => x.fill b e)
    | none =>
      match tGet s.hub.ctxs ctx.toNat with
      | none => (.bad 1#4, s)
      | some k =>
        match walk s.mem k.record.root va with
        | .bad f => (.bad f, s)
        | .leaf e lg =>
          if c ≥ nCores then (.leaf e lg, s)
          else
            let t : Tlb := ⟨ctx, lg, va >>> lg, e⟩
            (.leaf e lg, (s.upd c fun x => x.fill b t).updCl (clusterOf c) fun k => { k with l2 := (t :: k.l2).take 4096 })

/-- Outcome of the checks of an access: its pieces, or the first check that fails (R89, R200). -/
inductive Chk where
  | ok (ps : List Piece) (s : State)
  | align (a : Word)
  | viol (a : Word)
  | dem (a : Word) (fk : BitVec 4) (lease : Bool)
deriving DecidableEq, Repr

def accRead : Acc → Bool
  | .load | .atomic | .jobRead | .strip => true
  | _ => false
def accWrite : Acc → Bool
  | .store | .atomic | .jobWrite => true
  | _ => false
/-- The ACC code of a fault entry (R297). -/
def accCode : Acc → BitVec 4
  | .fetch => 0#4 | .load => 1#4 | .store => 2#4 | .atomic => 3#4 | .tagged => 4#4 | .jobRead => 5#4 | .jobWrite => 6#4 | .strip => 7#4

/-- A footprint range covers an address for the access kinds wanted (R123, R125). -/
def fpCovers (f : BitVec 128) (rd wr : Bool) (a : Nat) : Bool :=
  let b := (f.extractLsb' 0 56).toNat
  let n := (f.extractLsb' 64 64).toNat
  decide (b ≤ a) && decide (a < b + n) && (! rd || f.getLsbD 57) && (! wr || f.getLsbD 58)

/-- The ranges of a task with a record; none for a task without (R125). -/
def State.taskFps (s : State) (t : TaskRef) : Option (List (BitVec 128)) :=
  match t with
  | none => none
  | some (l, r) => ((tGet s.hub.launches l).bind fun x => x.recs[r]?).map (·.fps)

/-- An address lies in the extent of a handle that the context holds open (R254). -/
def State.handleCovers (s : State) (ctx : Ctx) (a : Nat) : Bool :=
  s.hub.hdls.any fun h =>
    match h.2.own with
    | some (k, _, b) =>
      k == ctx && s.hub.binds.any fun x => x.id == b && decide (x.base.toNat ≤ a) && decide (a < x.base.toNat + x.bytes.toNat)
    | none => false

/-- Step 2 of R200 for the bytes of an access, by the ranges given. -/
def State.covered (s : State) (fps : Option (List (BitVec 128))) (ctx : Ctx) (rd wr : Bool) (a n : Nat) : Bool :=
  match fps with
  | none => true
  | some l =>
    (List.range n).all fun i => l.any (fun f => fpCovers f rd wr (a + i)) || (rd && ! wr && s.handleCovers ctx (a + i))

/-- A core's scratchpad is reachable through the aperture: the core runs the activation's launch, or its context for a task without a
record (R178, R337). -/
def State.apReach (s : State) (w : Who) (core : Nat) : Bool :=
  match w.task with
  | some (l, _) =>
    match tGet s.hub.launches l with
    | some x => decide (x.first ≤ core) && decide (core < x.first + x.ncore) && (s.core core).runs.any fun p => p.1 == w.ctx
    | none => false
  | none => (s.core core).runs.any fun p => p.1 == w.ctx && ((s.core w.core).runs.contains p || (s.core w.core).runs.isEmpty)

/-- The address lies in a leased range of the task (R207). -/
def leaseHit (fps : Option (List (BitVec 128))) (a : Nat) : Bool :=
  match fps with
  | none => false
  | some l => l.any fun f => ! f.getLsbD 56 && fpCovers f false false a

/-- A leaf allows an access (R200 step 6). -/
def leafOk (acc : Acc) (e : Word) : Bool :=
  (! accRead acc || e.getLsbD 2) && (! accWrite acc || e.getLsbD 3) && (acc != .fetch || e.getLsbD 4)

/-- The demand fault of a walk: on an address of a leased range it is entered as NOTPRESENT with LEASE (R207). -/
def demFault (fps : Option (List (BitVec 128))) (va : Word) (fk : BitVec 4) : Chk :=
  if leaseHit fps va.toNat then .dem va 1#4 true else .dem va fk false

/-- Checks one piece of a device virtual address (R200 steps 3 to 6). -/
def State.chkPiece (s : State) (c : Nat) (b : TBuf) (ctx : Ctx) (acc : Acc) (fps : Option (List (BitVec 128))) (va : Word)
    (n : Nat) : Chk :=
  match s.xlate c b ctx (leafOk acc) va with
  | (.bad f, _) => demFault fps va f
  | (.leaf e lg, s) =>
    if (accRead acc && ! e.getLsbD 2) || (accWrite acc && ! e.getLsbD 3) then demFault fps va 3#4
    else if acc = .fetch ∧ ! e.getLsbD 4 then .viol va
    else
      let k : PKind := if bits e 60 59 = 0 then .so else if bits e 60 59 = 1 then .rc else .uo
      .ok [⟨va, .dram (bits e 52 16 * 2 ^ 16 + va.toNat % 2 ^ lg), n, k, e.getLsbD 57⟩] s

/-- The naturally aligned parts of an access (R89): an aligned access is one part. -/
def parts : Nat → Word → Nat → List (Word × Nat)
  | 0, _, _ => []
  | f + 1, a, n =>
    if n = 0 then [] else
    let m := [64, 16, 8, 4, 2, 1].find? fun m => decide (m ≤ n) && a.toNat % m == 0 && (m == n || decide (m ≤ 8))
    let m := m.getD 1
    (a, m) :: parts f (a + BitVec.ofNat 64 m) (n - m)

/-- All pieces of an access to a device virtual address are checked before any is performed (R200). -/
def State.chkPieces (s : State) (c : Nat) (b : TBuf) (ctx : Ctx) (acc : Acc) (fps : Option (List (BitVec 128))) :
    List (Word × Nat) → Chk
  | [] => .ok [] s
  | (a, n) :: r =>
    match s.chkPiece c b ctx acc fps a n with
    | .ok ps s2 =>
      match s2.chkPieces c b ctx acc fps r with
      | .ok qs s3 => .ok (ps ++ qs) s3
      | x => x
    | x => x

/-- A store to these offsets of a scratchpad window is a violation (R28 to R30), as is any access to the reserved range. -/
def locViol (acc : Acc) (off n : Nat) : Bool :=
  decide (0x81000 < off + n) || (accWrite acc && (decide (off < 0x80) || decide (0x80000 < off + n)))

/-- The ordering kind of an access of `n` bytes at a peer (R177): that of its page; where it lies in two, the stricter one. The
peer's aperture is a scratchpad (R182). -/
def peerPKind (a : Word) (n : Nat) : PKind :=
  let k (x : Nat) : Nat := Config.peerKind (x / 65536)
  if viaAperture a then .sp
  else
    let m := min (k a.toNat) (k (a.toNat + n - 1))
    if m = 0 then .so else if m = 1 then .rc else .uo

/-- All checks of an access of `n` bytes (R30, R89, R178, R194, R200). Of a misaligned access of the core-local window that is a
violation as well, the alignment trap comes first (DESIGN CHOICE, log entry 76). An access at a peer is one piece: it is split
there. One that begins in device memory and runs into the aperture is a violation as a whole (DESIGN CHOICE, log entry 104). -/
def State.chk (s : State) (w : Who) (b : TBuf) (acc : Acc) (fps : Option (List (BitVec 128))) (a : Word) (n : Nat) : Chk :=
  match classify s.own w.core a with
  | .resv => .viol a
  | .loc off =>
    if a.toNat % n ≠ 0 then .align a
    else if locViol acc off n then .viol a
    else if viaAperture a ∧ ! s.covered fps w.ctx (accRead acc) (accWrite acc) (bits a 55 0) n then .viol a
    else .ok [⟨a, .sp w.core off, n, .sp, false⟩] s
  | .ap c off =>
    if decide (0x80000 < off + n) || (accWrite acc && decide (off < 0x80)) || ! s.apReach w c then .viol a
    else if ! s.covered fps w.ctx (accRead acc) (accWrite acc) (bits a 55 0) n then .viol a
    else .ok ((parts n a n).map fun p => ⟨p.1, .sp c (p.1.toNat % 0x100000), p.2, .sp, false⟩) s
  | .dva va =>
    if 0xFE000000000000 < va.toNat + n ∧ va.toNat < 0xFE000000000000 then .viol a
    else if ! s.covered fps w.ctx (accRead acc) (accWrite acc) va.toNat n then .viol a
    else s.chkPieces w.core b w.ctx acc fps (parts n va n)
  | .peer va =>
    let v := bits va 55 0
    if 0xFE000100000000 < v + n ∨ (v < 0xFE000000000000 ∧ 0xFE000000000000 < v + n) then .viol a
    else .ok [⟨va, .peer va, n, peerPKind va n, false⟩] s

/-! Pending accesses (R177 to R187). -/

/-- A stream's own pending stores laid over bytes read at a place (R90, R113). -/
def overlay (l : List PAcc) (p : Place) (n : Nat) (bs : List Byte) : List Byte :=
  l.foldl (fun bs a =>
    match a.op with
    | .store xs =>
      match p, a.p.at_ with
      | .dram x, .dram y => (List.range n).map fun i => if y ≤ x + i ∧ x + i < y + a.p.n then xs.getD (x + i - y) 0#8 else bs.getD i 0#8
      | .sp c x, .sp d y =>
        if c = d then (List.range n).map fun i => if y ≤ x + i ∧ x + i < y + a.p.n then xs.getD (x + i - y) 0#8 else bs.getD i 0#8
        else bs
      | _, _ => bs
    | _ => bs) bs

/-- The bytes that a load of a stream returns from its pieces, the stream's pending stores included (R90, R113, R179). -/
def State.loadPieces (s : State) (c : Nat) (w : Bool) (ps : List Piece) : List Byte :=
  (ps.map fun p => overlay ((s.core c).acc.filter fun a => a.w == w) p.at_ p.n (s.readAt p.at_ p.n)).flatten

/-- Two places share bytes. -/
def overlaps (p : Place) (n : Nat) (q : Place) (m : Nat) : Bool :=
  match p, q with
  | .dram a, .dram b => decide (a < b + m) && decide (b < a + n)
  | .sp c a, .sp d b => c == d && decide (a < b + m) && decide (b < a + n)
  | .peer a, .peer b => decide (a.toNat < b.toNat + m) && decide (b.toNat < a.toNat + n)
  | _, _ => false

/-- Two places lie in one scratchpad, of this device or of a peer. -/
def sameSp : Place → Place → Bool
  | .sp c _, .sp d _ => c == d
  | .peer a, .peer b => viaAperture a && viaAperture b && a >>> 20 == b >>> 20
  | _, _ => false

/-- An access may be performed: no earlier access of the core that R32, R90, R94, R113, R181, R182, R183 or R187 puts before it is
still pending. -/
def mayPerform (before : List PAcc) (a : PAcc) : Bool :=
  ! before.any fun b =>
    b.aid == a.aid || (b.w == a.w && overlaps b.p.at_ b.p.n a.p.at_ a.p.n) ||
      (b.w == a.w && ((b.p.kind == .so && a.p.kind == .so) || sameSp b.p.at_ a.p.at_)) ||
      (b.w != a.w && decide (b.aid < a.after)) || (a.rel && b.w == a.w && b.p.kind != .uo)

/-- No access of the core that is not UO is pending, or none at all (R184, R185). -/
def Core.drained (c : Core) (uo : Bool) : Bool := ! c.acc.any fun a => uo || a.p.kind != .uo

/-- What a release of a stream waits for of the stream itself (R183, R188): no access of it that is not UO is pending. -/
def Core.released (c : Core) (w : Bool) : Bool := ! c.acc.any fun a => a.w == w && a.p.kind != .uo

/-- The number below which the accesses of the other stream come before a stream's own (R32). -/
def Core.afterOf (c : Core) (w : Bool) : Nat := if w then c.wAfter else c.sAfter

/-- Every access of the other stream that a queue handoff puts before those of this one is performed (R32, R113). -/
def Core.handedOver (c : Core) (w : Bool) : Bool := ! c.acc.any fun a => a.w != w && decide (a.aid < c.afterOf w)

/-- An access of the S stream to the scratchpad is pending: what reads the scratchpad at once waits for it (R32). -/
def Core.spBusy (c : Core) (own : Nat) : Bool := c.acc.any fun a => ! a.w && sameSp a.p.at_ (.sp own 0)

/-- A load of a stream may read its pieces now: SO accesses and accesses to one scratchpad keep program order (R181, R182), a pending
atomic to the same bytes comes first (R90), and so do a store to the same bytes at a peer and what a queue handoff puts before it (R32). -/
def Core.loadReady (c : Core) (w : Bool) (ps : List Piece) : Bool :=
  c.handedOver w && ! c.acc.any fun a => a.w == w && ps.any fun p =>
    (a.p.kind == .so && p.kind == .so) || sameSp a.p.at_ p.at_ ||
      (overlaps a.p.at_ a.p.n p.at_ p.n && match a.op, p.at_ with | .store _, .peer _ => true | .store _, _ => false | _, _ => true)

/-- A store of a stream into the own scratchpad may be performed at its issue (R32): nothing is pending that comes before it. -/
def Core.storeReady (c : Core) (w rel : Bool) (own : Nat) : Bool :=
  c.handedOver w && (! rel || c.released w) && ! c.acc.any fun a => a.w == w && sameSp a.p.at_ (.sp own 0)

/-- Adds the pieces of a store to a core's pending accesses, with the flags that land with them (06 R114). -/
def State.postStore (s : State) (w : Who) (ps : List Piece) (bs : List Byte) (dom : DTag) (rel : Bool) (fl : BitVec 5 := 0#5) : State :=
  let id := s.nextId
  let after := (s.core w.core).afterOf w.w
  let l := ps.foldl (fun (acc : List PAcc × List Byte) p =>
    (acc.1 ++ [⟨id, w.w, p, .store (acc.2.take p.n), dom, rel && p.kind != .uo, w.task, w.ctx, w.act, after, none, fl⟩], acc.2.drop p.n)) ([], bs)
  (s.upd w.core fun x => { x with acc := x.acc ++ l.1 }).fresh

/-- The pieces are the core's own scratchpad. -/
def ownSp (c : Nat) (ps : List Piece) : Bool :=
  ps.all fun p => match p.at_ with | .sp d _ => d == c | _ => false

/-- A store of a stream whose checks have passed must not issue yet: into the own scratchpad it is performed when it issues (R32),
after what comes before it. -/
def State.storeHolds (s : State) (w : Who) (ps : List Piece) (rel : Bool) : Bool :=
  ownSp w.core ps && ! (s.core w.core).storeReady w.w rel w.core

/-- A store whose checks have passed: into the core's own scratchpad at once (R32), unless something that comes before it is still
pending; elsewhere later (R177). -/
def State.doStore (s : State) (w : Who) (ps : List Piece) (bs : List Byte) (dom : DTag) (rel : Bool) (fl : BitVec 5 := 0#5) : State :=
  match ps with
  | [p] =>
    match p.at_ with
    | .sp c off =>
      if c = w.core ∧ (s.core c).storeReady w.w rel c then s.upd c fun x => x.spStore off bs
      else s.postStore w ps bs dom rel fl
    | _ => s.postStore w ps bs dom rel fl
  | _ => s.postStore w ps bs dom rel fl

/-- The new value of an atomic (R266): `n` bytes, old value, operand, comparand. -/
def atNew (op : AtOp) (n : Nat) (w b e : Word) : Word :=
  let m : Word := if n = 4 then 0xFFFFFFFF#64 else 0xFFFFFFFFFFFFFFFF#64
  let sx (x : Word) : Int := if n = 4 then (x.setWidth 32).toInt else x.toInt
  match op with
  | .add => (w + b) &&& m
  | .min => if sx b < sx w then b &&& m else w
  | .max => if sx b > sx w then b &&& m else w
  | .minu => if b &&& m < w then b &&& m else w
  | .maxu => if b &&& m > w then b &&& m else w
  | .and => w &&& b
  | .or => (w ||| b) &&& m
  | .xchg => b &&& m
  | .cas => if w = e &&& m then b &&& m else w

/-- Performs an atomic at its place in one step (R263, R267): the old value and the state after. -/
def State.doAtomic (s : State) (p : Piece) (op : AtOp) (b e : Word) : Word × State :=
  let w := bytesWord (s.readAt p.at_ p.n)
  (w, s.writeAt p.at_ (leBytes p.n (atNew op p.n w b e).toNat))

/-! The end of an S instruction. -/

/-- Halts a core (R339, R340). -/
def State.halt (s : State) (c : Nat) (cause : BitVec 8) : State :=
  let s := s.upd c fun x => { x with dbg := { x.dbg with halted := true, hcause := cause, since := s.cyc } }
  s.trace c 6#8 (cause.setWidth 64) (s.core c).pc 0#64

/-- A single step halts the core once its instruction is through (R339). -/
def State.stepEnd (s : State) (c : Nat) : State :=
  if (s.core c).dbg.step then (s.upd c fun x => { x with dbg := { x.dbg with step := false } }).halt c 2#8 else s

/-- The S instruction of the current core has completed: the next one stands at `pc` and issues no earlier than `cost`
cycles after it (R78). -/
def State.sGo (s : State) (pc : Word) (cost : Nat) (f : Core → Core) : State :=
  let s := s.count s.cur 1#3 s.me.pc false
  (s.updMe fun x =>
    { f x with
      pc := pc, ready := s.cyc + cost, waitFrom := none, stat := .run, pread := tDel x.pread 0
      dbg := { x.dbg with skip := false } }).stepEnd s.cur

/-- Completion at the next instruction in memory, `words` words on; each prefix word adds a cycle (R46, R78). -/
def State.sDone (s : State) (words cost : Nat) (f : Core → Core) : State :=
  s.sGo (s.me.pc + BitVec.ofNat 64 (4 * words)) (cost + (words - 1)) f

/-- The instruction stalls the S stream and is tried again in the next cycle; its wait counts (R24, R95). -/
def State.sStall (s : State) (val : Word) : State :=
  s.updMe fun x => { x with ready := s.cyc + 1, waitFrom := some (x.waitFrom.getD s.cyc), waitVal := val }

/-- The instruction is tried again in the next cycle, and no wait counts. -/
def State.sRetry (s : State) : State := s.updMe fun x => { x with ready := s.cyc + 1 }

/-- The instruction holds the S stream until a later step completes it. -/
def State.sWait (s : State) (w : SWait) (words cost : Nat) (val : Word) : State :=
  s.updMe fun x => { x with stat := .wait w words cost, waitFrom := some (x.waitFrom.getD s.cyc), waitVal := val }

/-- A waiting instruction of a core completes, in the cycles that it spends then and one for each prefix word (R46, R78). -/
def State.wake (s : State) (c words cost : Nat) (f : Core → Core) : State :=
  let s := { s with cur := c }
  s.sGo (s.me.pc + BitVec.ofNat 64 (4 * words)) (cost + (words - 1)) f

/-- The instruction waits for a reply from a memory place that is not its core's own scratchpad (R358): its count pauses while the core is
parked. Every other wait counts on (R95). -/
def SWait.replies (c : Nat) : SWait → Bool
  | .load _ _ _ _ _ | .atomic _ _ _ _ => true
  | .tag _ k _ _ _ _ _ _ | .sigw k _ _ _ _ _ => k != c
  | _ => false

/-- The wait of the S stream of core `c` pauses while the core is parked (R358). -/
def Core.pauses (x : Core) (c : Nat) : Bool := match x.stat with | .wait w _ _ => w.replies c | _ => false

/-- A parked core goes on: the waits that its park has paused have not counted since it began, nor the others since a halt began that lasts
still (R95, R358). -/
def Core.unpark (x : Core) (c now : Nat) : Core :=
  match x.park with
  | some (_, t) =>
    let h := if x.dbg.halted then x.dbg.since else now
    let f (from_ : Nat) (w : Option Nat) : Option Nat := w.map fun u => u + (now - max from_ u)
    { x with
      park := none, waitFrom := f (if x.pauses c then min t h else h) x.waitFrom, wFrom := f (min t h) x.wFrom
      dbg := { x.dbg with since := if x.dbg.halted then now else x.dbg.since } }
  | none => x

/-- The request of a tagged operation at a peer: device, packet, and whether it has been asked back (1) or withdrawn (2). -/
def SWait.request : SWait → Option (Nat × Nat × Nat)
  | .tag _ k _ _ _ _ _ (some (p, b)) => some (k - nCores - 1, p, b)
  | .sigw k _ _ _ _ (some (p, b)) => some (k - nCores - 1, p, b)
  | _ => none

/-- The request is asked back, or has been withdrawn. -/
def SWait.recalled (b : Nat) : SWait → SWait
  | .tag op k off rd v t d (some (p, _)) => .tag op k off rd v t d (some (p, b))
  | .sigw k off rd v t (some (p, _)) => .sigw k off rd v t (some (p, b))
  | w => w

/-- The request of a core's tagged operation that a peer may have performed: it has left, and has not been withdrawn (R96). -/
def State.asked (s : State) (c : Nat) : Bool :=
  match (s.core c).stat with
  | .wait w _ _ => match w.request with | some (_, p, b) => decide (b < 2) && ! s.net.any fun x => x.id == p | none => false
  | _ => false

/-- Before a pre-emption or a W trap the core asks its peer, once, to withdraw the request: an operation that has passed its wait is
performed whole first, and its answer comes back (R96; log entry 98). -/
def State.recall (s : State) (c : Nat) : State :=
  match (s.core c).stat with
  | .wait w n k =>
    match w.request with
    | some (d, _, 0) => (s.upd c fun x => { x with stat := .wait (w.recalled 1) n k }).send d (.cancel c) DTag.imm (s.who c false).ctx c 0#16
    | _ => s
  | _ => s

/-- A core abandons the request of a tagged operation at a peer: it is withdrawn, on its way or at the peer, and an answer is ignored (R96,
R189, R358). -/
def State.unask (s : State) (c : Nat) : State :=
  match (s.core c).stat with
  | .wait w _ _ =>
    match w.request with
    | some (d, p, _) =>
      if s.net.any fun x => x.id == p then { s with net := s.net.filter fun x => x.id != p }
      else if s.asked c then s.send d (.cancel c) DTag.imm (s.who c false).ctx c 0#16 else s
    | none => s
  | _ => s

/-! Ends of activations, traps, violations (R34, R148, R289, R290, R300). -/

/-- The activation of a core runs code of a binding (R255); that of a frozen core has ended (R300). -/
def Core.runsBind (c : Core) (b : Nat) : Bool :=
  c.stat != .frozen && match c.act with | some a => a.bind == some b | none => false

/-- The holds of a binding (R255): open handles, and activations, of pre-empted contexts too. -/
def State.holds (s : State) (b : Nat) : Nat :=
  (s.hub.hdls.filter fun h => match h.2.own with | some (_, _, k) => k == b | none => false).length +
    (s.cores.filter fun c => c.2.runsBind b).length + (s.hub.saves.filter fun v => v.2.core.runsBind b).length

/-- The binding that loses a hold is reclaimed when it is retired and has no other (R255). BGEN and BYTES stand beside the layout of the
entry (DESIGN CHOICE, log entry 91). -/
def State.reclaim (s : State) (b : Nat) : State :=
  match s.hub.binds.find? (fun x => x.id == b) with
  | none => s
  | some x =>
    if x.retired ∧ s.holds b = 0 then
      let s := s.updHub fun h => { h with binds := h.binds.filter fun y => y.id != b }
      s.hubEvent { fEnt0 with kind := 0x40#8, ctx := x.ctx, addr := x.base, pc := x.key, iter := x.lrec, recl := some (x.bgen, x.bytes) }
    else s

/-- The core runs a context for some launch (20 R321, 22 R337). -/
def State.runsCtx (s : State) (c : Nat) (ctx : Ctx) : Bool := (s.core c).runs.any fun p => p.1 == ctx

/-- Departures from a list of registrations of an activation (R134). From an object of a peer the arrival is an access of the task that is
still to be performed (R191, 20 R321); on a core that no longer runs the context there is no object. -/
def State.departs (s : State) (w : Who) (ann : Bool) (l : List (Nat × Nat)) : State :=
  l.foldl (fun (s : State) p =>
    if p.1 > nCores then
      let a : Word := BitVec.ofNat 64 ((p.1 - nCores) * 2 ^ 56 + p.2)
      let e : PAcc := ⟨s.nextId, false, ⟨a, .peer a, 16, .sp, false⟩, .arrive true ann, DTag.imm, true, w.task, w.ctx, w.act, 0, none, 0#5⟩
      (s.fresh).upd w.core fun x => { x with acc := x.acc ++ [e] }
    else if p.1 = w.core ∨ s.runsCtx p.1 w.ctx then
      s.updIn p.1 w.ctx fun x => ((x.arrive p.2 true ann none).evalArmed p.2 s.cyc).evalArmed (p.2 + 8) s.cyc
    else s) s

/-- Every registration of a core departs once (R134). -/
def State.depart (s : State) (c : Nat) (ann : Bool) : State :=
  (s.upd c fun x => { x with regsB := [] }).departs (s.who c false) ann (s.core c).regsB

/-- A core whose activation has ended (R34, R148): W work, stream registers and queue entries are discarded, and in a trap handler the
trap state (R86). -/
def Core.endWork (x : Core) (next : SStat) : Core :=
  { x with
    act := none, stat := next, wbuf := [], wpend := [], str := [], pread := [], waitFrom := none, wFrom := none
    r := { x.r with q := Vector.replicate 8 [] }
    qinfo := Vector.replicate 8 [], sAfter := 0, wAfter := 0
    c := if x.c.intrap then { x.c with intrap := false, cause := 0#9, tpc := 0#64, tval := 0#64 } else x.c }

/-- The sender accumulator of an ended activation (R342). -/
def State.accumulate (s : State) (c : Nat) (a : Act) : State :=
  let key := a.m.srcd.toNat * 4096 + a.m.srcc.toNat
  let x := s.core c
  let key := if (tGet x.dbg.acc key).isSome ∨ x.dbg.acc.length < 32 then key else 2 ^ 20
  let trn := if a.m.srcd = s.hub.dev then (a.arr + 2 ^ 32 - a.m.stmp.toNat) % 2 ^ 32 else 0xFFFFFFFF
  let w (n : Nat) : Word := BitVec.ofNat 64 n
  let (n, t, q, h) := (tGet x.dbg.acc key).getD (0#64, 0#64, 0#64, 0#64)
  s.upd c fun x =>
    { x with dbg := { x.dbg with acc := tPut x.dbg.acc key (n + 1#64, t + w trn, q + w (a.start - a.arr), h + w (s.cyc - a.start)) } }

/-- An activation of the task, or a message that starts one, is still there (07 R126). -/
def State.taskActs (s : State) (t : TaskRef) : Bool :=
  let core (x : Core) : Bool :=
    (x.stat != .frozen && match x.act with | some a => a.task == t | none => false) || x.inbox.toList.any fun q => q.any fun e => ! e.running && e.task == t
  s.cores.any (fun (p : Nat × Core) => core p.2) || s.hub.saves.any (fun (v : Nat × Save) => core v.2.core || v.2.log.any fun k => match k.body with | .msg _ _ _ u _ _ _ => u == t | _ => false) ||
    s.net.any fun k => match k.body with | .msg _ _ _ u _ _ _ => u == t | _ => false

/-- An armed put that has not fired when the last activation of its task ends belongs to no task (07 R126). -/
def State.disown (s : State) (t : TaskRef) : State :=
  if t.isNone ∨ s.taskActs t then s
  else
    let f (x : Core) : Core := { x with armed := x.armed.map fun a => if a.task = t ∧ a.fired.isNone then { a with task := none, act := 0 } else a }
    let s : State := { s with cores := s.cores.map fun (p : Nat × Core) => (p.1, f p.2) }
    s.updHub fun h => { h with saves := h.saves.map fun (v : Nat × Save) => (v.1, { v.2 with core := f v.2.core }) }

/-- The activation of a core ends: W work and queue entries are discarded, registrations depart, stream registers are
switched off, the slot is freed unless it is kept, and the core is idle (R34, R148, R229); the trap state of a trap handler goes with
it (R86). `how` is D3 of the trace
record. -/
def State.endAct (s : State) (c : Nat) (ann keep : Bool) (how : Word) (next : SStat) : State :=
  let s := s.unask c
  match (s.core c).act with
  | none => s.upd c fun x => { x with stat := next }
  | some a =>
    let s := s.depart c ann
    let s := s.upd c fun x =>
      { x.endWork next with
        inbox := if keep then x.inbox else
          x.inbox.setIfInBounds a.q.toNat ((x.inbox.toList.getD a.q.toNat []).filter fun e => e.ix != a.ix) }
    let s := ((s.accumulate c a).trace c 2#8 (BitVec.ofNat 64 (s.cyc - a.start)) 0#64 how).disown a.task
    match a.bind with
    | some b => s.reclaim b
    | none => s

/-- The handler of an index of a context's table, if it is bound (R121): the entry that stands in memory at HANDLERBASE; where no page is
mapped there, what the device has written (DESIGN CHOICE, log entry 25). -/
def State.handler (s : State) (ctx : Ctx) (h : Nat) : Option HEnt :=
  match tGet s.hub.ctxs ctx.toNat with
  | none => none
  | some k =>
    let a := k.record.hbase + BitVec.ofNat 64 (16 * h)
    match walk s.mem k.record.root a with
    | .leaf e lg =>
      let p := bits e 52 16 * 2 ^ 16 + a.toNat % 2 ^ lg
      let w := Memory.word s.mem p
      if w.getLsbD 63 then some ⟨Memory.word s.mem (p + 8), true, w &&& 0x00FFFFFFFFFFFFFC#64⟩ else none
    | .bad _ => (tGet k.htab h).filter (·.v)

def recoverable (cause : BitVec 8) : Bool := cause = 0x10#8 ∨ cause = 0x11#8 ∨ cause = 0x12#8

/-- A fault entry of a core's event. -/
def State.coreEnt (s : State) (c : Nat) (kind : BitVec 8) (pc addr : Word) (wstr : Bool) (p : Party) : FEnt :=
  let w := s.who c wstr
  { fEnt0 with kind := kind, wstr := wstr, core := BitVec.ofNat 12 c, ctx := w.ctx, dom := w.dom.id, pc := pc, addr := addr, party := p }

/-- TAKING A TRAP whose W stream has drained (R289, R290): the trap words are written, INTRAP is set and the S stream goes on
at handler 255; without a handler, or in a trap handler, the activation ends or the core parks. -/
def State.enterTrap (s : State) (c : Nat) (t : TrapRec) : State :=
  let x := s.core c
  let s := s.upd c fun x => { x with dbg := { x.dbg with skip := false } }
  if x.c.intrap then
    ((s.fault (clusterOf c) (s.coreEnt c 0x23#8 t.pc (t.cause.setWidth 64) t.wstr .none)).endAct c false false 2#64 .idle).stepEnd c
  else
    match s.handler (s.who c false).ctx 255 with
    | some h =>
      let s := s.upd c fun x =>
        { x with
          c := { x.c with cause := BitVec.ofBool t.wstr ++ t.cause, tpc := t.pc, tval := t.val, intrap := true }
          pc := h.entry, stat := .run, ready := s.cyc + 1, waitFrom := none, pread := [] }
      (s.trace c 3#8 ((BitVec.ofBool t.wstr ++ t.cause).setWidth 64) t.pc t.val).stepEnd c
    | none =>
      if recoverable t.cause then
        let n := s.nextId
        (s.fault (clusterOf c) (s.coreEnt c t.cause t.pc t.val t.wstr (.core c))).upd c fun x =>
          { x with stat := .run, park := some (n, s.cyc), pc := t.pc, waitFrom := none }
      else ((s.fault (clusterOf c) (s.coreEnt c t.cause t.pc t.val t.wstr .none)).endAct c false false 2#64 .idle).stepEnd c

def Core.wDrained (c : Core) : Bool := c.wbuf.isEmpty && c.wpend.isEmpty

/-- An S instruction of the current core raises a trap (R289): it has no effect; the handler is entered at once when the W
stream has drained, else once it has. -/
def State.sTrap (s : State) (cause : BitVec 8) (val : Word) : State :=
  let t : TrapRec := ⟨cause, s.me.pc, val, false⟩
  if s.me.wDrained then s.enterTrap s.cur t
  else s.updMe fun x => { x with stat := .trapping t, waitFrom := none }

/-- The instruction that waits is abandoned by a W trap or a pre-emption (R96, R289, R305); any other holds its
stream for a reply and completes first. -/
def SWait.abandoned : SWait → Bool
  | .tag _ _ _ _ _ _ _ _ | .sigw _ _ _ _ _ _ | .fence _ _ _ | .tarn _ _ _ _ _ | .mask _ _ _ | .cycle _ _ => true
  | .load _ _ _ _ _ | .atomic _ _ _ _ | .service _ _ | .inst _ _ | .acks _ _ _ | .seal _ _ => false

/-- A W instruction raises a trap (R289): later W instructions are discarded, pending writes land, the S stream stops at its
boundary and a waiting instruction is abandoned. While an S instruction holds its stream for a reply there is no boundary: the W head
is tried again; so it is while a peer may have performed the tagged operation that waits (R96). -/
def State.wTrap (s : State) (c : Nat) (cause : BitVec 8) (pc val : Word) : State :=
  if (match (s.core c).stat with | .wait w _ _ => ! w.abandoned | _ => false) || s.asked c then
    (s.recall c).upd c fun x => { x with wReady := s.cyc + 1 }
  else
  let t : TrapRec := ⟨cause, pc, val, true⟩
  let s := (s.unask c).upd c fun x => { x with wbuf := [], wFrom := none, waitFrom := none, stat := .trapping t }
  if (s.core c).wDrained then s.enterTrap c t else s

/-- Marks a task's record, and every record with an edge from it, failed (R205, R300): the records after it that it feeds
are found when they would be placed. -/
def State.failTask (s : State) (t : TaskRef) : State :=
  match t with
  | none => s
  | some (l, r) =>
    match tGet s.hub.launches l with
    | none => s
    | some x =>
      let x := { x with
        recs := x.recs.modify r fun y => { y with tainted := true }
        firstFail := some (x.firstFail.getD r) }
      s.updHub fun h => { h with launches := tPut h.launches l x }

/-- A violation by a core (R300): it freezes, halted with HCAUSE 6 (24 R339), its activation ends, its registrations depart, its slot is
kept, its task is failed, the queue receives the report, and the binding whose code it ran loses a hold (14 R255). -/
def State.viol (s : State) (c : Nat) (acc : Acc) (wstr : Bool) (pc addr : Word) (kind : BitVec 8) : State :=
  let e := { s.coreEnt c kind pc addr wstr .none with acc := accCode acc }
  let t := (s.who c wstr).task
  let s := (s.fault (clusterOf c) e).failTask t
  let s := (s.unask c).depart c false
  let s := match (s.core c).act with
    | some a => s.accumulate c a
    | none => s
  let s := s.trace c 2#8 (BitVec.ofNat 64 (s.cyc - ((s.core c).act.map (·.start)).getD s.cyc)) 0#64 2#64
  let s := ((s.upd c fun x => { x with stat := .frozen, waitFrom := none }).halt c 6#8).disown t
  match ((s.core c).act.bind (·.bind)) with
  | some b => s.reclaim b
  | none => s

/-- A soft error that has been corrected is reported (18 R302). -/
def State.softCor (s : State) (c : Nat) (acc : Acc) (wstr : Bool) (pc a : Word) : State :=
  s.fault (clusterOf c) { s.coreEnt c 0x21#8 pc a wstr .none with acc := accCode acc }

/-- What a soft error in the words that an access of a core reads does (18 R302): one that cannot be corrected freezes the core, a corrected
one is reported, and its word is whole again; then `k`. -/
def State.soft (s : State) (c : Nat) (acc : Acc) (wstr : Bool) (pc a : Word) (ps : List Piece) (k : State → State) : State :=
  match s.struckPs ps with
  | none => k s
  | some true => s.viol c acc wstr pc a 0x24#8
  | some false => k ((s.softCor c acc wstr pc a).mendPs ps)

/-- A violation by the S stream of the current core. -/
def State.sViol (s : State) (acc : Acc) (addr : Word) : State := s.viol s.cur acc false s.me.pc addr 0x30#8

/-- A demand fault by a core (R207): the core parks at the instruction and nothing of it is performed; the instruction is issued again at
RETRY (18 R298), and a wait of the S stream that faults then counts afresh. -/
def State.demand (s : State) (c : Nat) (acc : Acc) (wstr : Bool) (pc addr : Word) (fk : BitVec 4) (lease : Bool) : State :=
  let n := s.nextId
  let s := s.count c 5#3 pc wstr
  let e := { s.coreEnt c 0x20#8 pc addr wstr (.core c) with acc := accCode acc, fk := fk, lease := lease }
  (s.fault (clusterOf c) e).upd c fun x => { x with park := some (n, s.cyc), waitFrom := if wstr then x.waitFrom else none }

/-- Notes an access that matches a watchpoint of the core (24 R339). -/
def State.watch (s : State) (c : Nat) (acc : Acc) (a : Word) (n : Nat) : State :=
  let d := (s.core c).dbg
  let m (i : Nat) : Bool :=
    d.wpen.getLsbD i &&
      match d.wp.toList[i]? with
      | some (w, ld, st) =>
        ((ld && (accRead acc || acc == .tagged)) || (st && (accWrite acc || acc == .tagged))) &&
          decide (a.toNat < w.toNat + 8) && decide (w.toNat < a.toNat + n)
      | none => false
  if m 0 || m 1 then s.upd c fun x => { x with dbg := { x.dbg with hit := true } } else s

/-- What follows the checks of an S access: the traps, the violation or the demand fault, or `k` on its pieces. -/
def State.sAcc (s : State) (acc : Acc) (a : Word) (n : Nat) (k : List Piece → State → State) : State :=
  let w := s.who s.cur false
  match s.chk w .d acc (s.taskFps w.task) a n with
  | .ok ps s => k ps (s.watch s.cur acc a n)
  | .align v => s.sTrap 0x02#8 v
  | .viol v => s.sViol acc v
  | .dem v fk l => s.demand s.cur acc false s.me.pc v fk l

/-- An untagged load lies in the armed range of a watermark and ends above it (12 R225). -/
def Core.wmBlocks (c : Core) (ea : Word) (n : Nat) : Bool :=
  c.jobs.any fun j =>
    j.wmk && (j.st == 2 || j.st == 3) && decide (j.dst.toNat ≤ ea.toNat) && decide (ea.toNat + n ≤ j.dst.toNat + j.len) &&
      decide (j.dst.toNat + j.done < ea.toNat + n)

/-- The activation's limit on a wait (R95, R304). -/
def State.waitLimit (s : State) (c : Nat) : Nat :=
  match tGet s.hub.ctxs (s.who c false).ctx.toNat with
  | some k => 2 ^ k.record.wlg.toNat
  | none => 2 ^ 24

/-! Ports, their flits, and what a ring sequencer sends (15 R278 to R282, 20 R316 to R319). -/

def State.port (s : State) (p : Nat) : Port := (tGet s.hub.ports p).getD Port.zero
def State.updPort (s : State) (p : Nat) (f : Port → Port) : State := s.updHub fun h => { h with ports := tPut h.ports p (f (s.port p)) }

/-- The ports whose plane is live (R317). -/
def State.upPorts (s : State) : List Nat := (List.range nPorts).filter fun p => ! ((tGet s.hub.ports p).getD Port.zero).down

/-- The planes that are live at both ends, towards a device (R316). -/
def State.livePorts (s : State) (dev : Nat) : List Nat := s.upPorts.filter fun p => ! s.hub.deadAt.contains (dev, p)

/-- The flits of a packet: the link flit and one or two data flits (R317). -/
def flitsOf (id : Nat) : Nat := if Config.twoData id then 3 else 2

/-- Flits leave on a plane, and stand in its retry buffer until they are acknowledged (R317). -/
def State.putFlits (s : State) (pl id n : Nat) : State :=
  (List.range n).foldl (fun (s : State) i =>
    let po := (tGet s.hub.ports pl).getD Port.zero
    let d := Config.flit id i
    (s.updPort pl fun p => { p with txSeq := p.txSeq + 1#16, retry := p.retry ++ [(po.txSeq, d)] }).emit (.flit pl po.txSeq d)) s

/-- A packet with a domain leaves for a device: its PEERS bit is set, and a join's first member-mask notice is sent (08 R145); a device
that comes into PEERS after the annulment is sent the notice, and its acknowledgement is awaited (08 R144, R147). -/
def State.markPeer (s : State) (d : Dom) (dev : Nat) : State :=
  if d = 0#16 then s
  else
    let e := s.dom d
    if e.peers.contains dev then s
    else
      let s := s.setDom d { e with peers := e.peers ++ [dev], peerAcks := if e.st = .annulled then e.peerAcks ++ [dev] else e.peerAcks }
      if e.st = .annulled then s.send dev (.annulNotice d) DTag.imm e.ctx nCores 0#16
      else if e.kind = .join then s.send dev (.maskNotice d e.mem) DTag.imm e.ctx nCores 0#16 else s

/-- The head of a port's queue of ring jobs is replaced. -/
def State.setRing (s : State) (port : Nat) (j : RingJob) : State := s.updPort port fun p => { p with ring := j :: p.ring.drop 1 }

/-- The number by which the targets of a ring job's tile answer: no other job has it. -/
def ringNo (port : Nat) : Nat := 2 ^ 64 + port

/-- Nothing leaves for the next rank: it is outside the pod's count, or the plane is not live (20 R319). -/
def State.ringCut (s : State) (port : Nat) (j : RingJob) : Bool :=
  decide (s.hub.podN ≤ j.nextd) || (s.port port).down || s.hub.deadAt.contains (j.nextd, port)

/-- Flits of the job at the head leave as the retry buffer has room (20 R317). -/
def State.ringPump (s : State) (port : Nat) : State :=
  match (s.port port).ring with
  | [] => s
  | j :: _ =>
    let n := min j.flits (1024 - (s.port port).retry.length)
    if n = 0 then s else ((s.setRing port { j with flits := j.flits - n }).putFlits port s.nextId n).fresh

/-- A ring job, which goes on as `j`, sends `n` bytes to the next rank with its domain, whose PEERS bit for that device is set (08 R139, R145):
for each 64 bytes a link flit and two data flits (20 R317). What cannot leave is dropped at the port and counted (20 R319). -/
def State.ringSend (s : State) (port : Nat) (j : RingJob) (n : Nat) (o : Out) : State :=
  if s.ringCut port j then
    ((s.updHub fun h => { h with nodev := h.nodev + 1 }).updPort port fun p => { p with nodev := p.nodev + 1 }).setRing port j
  else
    (((s.markPeer j.dom.id j.nextd).emit o).setRing port { j with flits := j.flits + 3 * ((n + 63) / 64) }).ringPump port

/-- The meaning's answer. -/
abbrev Out1 := Host.Outcome State Fault Refusal

end Sys2Proof.Machine
end

