-- ==== Sys2Proof/Machine/Flags.lean ====
section
/-! DEFINITION. CORESTAT (02_core.md R36): its value, writes to it, and the sticky flags. -/

namespace Sys2Proof.Machine

/-- Bit n of QNE: q_n holds a readable entry. -/
def Core.qne (c : Core) : BitVec 8 :=
  [7, 6, 5, 4, 3, 2, 1, 0].foldl (fun (b : BitVec 8) n => (b <<< 1) ||| (if (c.r.q.toList.getD n []).isEmpty then 0#8 else 1#8)) 0#8

/-- CORESTAT as a read gives it (R36, R293). -/
def Core.corestat (c : Core) : Word :=
  0#24 ++ c.qne ++ 0#3 ++ BitVec.ofNat 5 c.wbuf.length ++ 0#6 ++ ((c.act.map (·.q)).getD 0#2) ++ 0#4 ++ c.c.fl ++ 0#1 ++
    BitVec.ofBool c.c.intrap ++ BitVec.ofBool c.c.preq ++ 0#3 ++ BitVec.ofBool c.c.txc

/-- The sticky flags a landed W instruction or a readout raises (R36). -/
def Core.raise (c : Core) (f : BitVec 5) : Core := { c with c := { c.c with fl := c.c.fl ||| f } }

/-- A write to CORESTAT: ones clear sticky flags, bit 0 is TXC, every other bit is ignored (R36). -/
def Core.writeCorestat (c : Core) (w : Word) : Core :=
  { c with c := { c.c with fl := c.c.fl &&& ~~~ (w.extractLsb' 7 5), txc := w.getLsbD 0 } }

end Sys2Proof.Machine
end

