-- ==== Sys2Proof/WellFormed.lean ====
section
/-! DEFINITION. Which terms of `Instr` are instructions or steps of the machine: the limits that 03_formats_opcode_map.md
R43, R44, R45, R49 and R52 put on operands, and the numbers of the parts that a step names (00_scope.md R1). -/

namespace Sys2Proof

/-- A format that accepts one prefix (R45). -/
def Pfx.atMostOne : Pfx → Bool
  | .none => true
  | .one _ => true
  | .two _ _ => false

/-- A domain register is never s0 (R43). -/
def DmR.ok : DmR → Bool
  | .inh => true
  | .imm => true
  | .reg b => b != 0#5

/-- A host access lies within device memory; an atomic is of an aligned word of 4 or 8 bytes (20 R328, 15 R265). -/
def HostAcc.wf : HostAcc → Bool
  | .read pa n => decide (pa + n ≤ dramBytes)
  | .write pa bs => decide (pa + bs.length ≤ dramBytes)
  | .atomic pa _ n _ _ => (n == 4 || n == 8) && pa % n == 0 && decide (pa + n ≤ dramBytes)
  | .reg q off => decide (q < nHostQueues) && off % 8 == 0 && decide (off < 64)
  | .own a bs => decide (a + bs.length ≤ 2 ^ 64)

/-- A setting is one that the device can have (20 R319, R320, R326, 18 R303). -/
def CfgSet.wf : CfgSet → Bool
  | .podSize n own => decide (1 ≤ n) && decide (n ≤ nDevices) && decide (own.toNat < n)
  | .portMap port _ _ _ => port < nPorts
  | .domBlock port lo n => decide (port < 2) && decide (0 < lo) && decide (lo + n ≤ 0xF000)
  | .spare c => c < nCores

/-- An item of a core's state within its bounds (18 R308, R309). -/
def DbgItem.wf : DbgItem → Bool
  | .v _ l _ => l.toNat < 48
  | .q _ l => l.length ≤ 4
  | .sp off bs => decide (off + bs.length ≤ 0x80000)
  | .tag off _ => off % 8 == 0 && decide (off < 0x80000)
  | .bars l => l.length ≤ 4
  | .wbuf l => l.length ≤ 16
  | .wpendV _ _ _ x _ => x.length == 48
  | .cell _ i _ => i < 1536
  | .parts l => l.length ≤ 8
  | .ripple e _ _ _ _ _ _ n _ => decide (e < 64) && decide (n < 4)
  | .armed i _ _ _ _ _ _ _ => i < 32
  | .msg _ ix _ => ix < 16
  | _ => true

/-- The sideband names a part of the device (24 R349). -/
def SbItem.wf : SbItem → Bool
  | .linkDown p | .nodev p | .nomap p | .expd p | .aged (some p) => p < nPorts
  | _ => true

/-- The register that a write names is one of the device (20 R319, R324, R327, R329, 24 R339). -/
def FwReg.wf : FwReg → Bool
  | .rbase q _ => q < nHostQueues
  | .rsize q _ => q < nHostQueues
  | .cbase q _ => q < nHostQueues
  | .csize q _ => q < nHostQueues
  | .irq q _ => q < nHostQueues
  | .flow port n _ => decide (port < 2) && decide (n < 4096)
  | .egress port q _ _ _ _ => decide (port < 2) && decide (q < 16)
  | .context _ _ => true
  | .config _ _ _ l => l.all CfgSet.wf
  | .caps q _ => q < nHostQueues
  | .planeAt dev port _ => decide (dev < nDevices) && decide (port < nPorts)
  | .coreRead c => c < nCores
  | .coreWrite c i => decide (c < nCores) && i.wf
  | .sideband i => i.wf
  | .traceRing c _ _ => c < nCores
  | .bp c _ _ => c < nCores
  | .wp c _ _ _ _ => c < nCores
  | .dctlEn c _ _ => c < nCores
  | .pte pa _ => pa % 8 == 0 && decide (pa + 8 ≤ dramBytes)
  | .frame _ _ pa => pa % 65536 == 0 && decide (pa + 65536 ≤ dramBytes)

/-- The opcode of a packet: its byte 0 (20 R332). -/
def opc (pk : BitVec 512) : BitVec 8 := pk.extractLsb' 0 8

/-- The instruction or step is one that the spec describes. -/
def Instr.wf : Instr → Bool
  | .add _ _ _ _ => true
  | .sub _ _ _ _ => true
  | .and _ _ _ _ => true
  | .or _ _ _ _ => true
  | .xor _ _ _ _ => true
  | .andn _ _ _ _ => true
  | .orn _ _ _ _ => true
  | .shl _ _ _ _ => true
  | .shr _ _ _ _ => true
  | .sra _ _ _ _ => true
  | .ror _ _ _ _ => true
  | .mul _ _ _ _ => true
  | .mulh _ _ _ _ => true
  | .mulhu _ _ _ _ => true
  | .div _ _ _ _ => true
  | .divu _ _ _ _ => true
  | .rem _ _ _ _ => true
  | .remu _ _ _ _ => true
  | .min _ _ _ _ => true
  | .max _ _ _ _ => true
  | .minu _ _ _ _ => true
  | .maxu _ _ _ _ => true
  | .ceq _ _ _ _ => true
  | .cne _ _ _ _ => true
  | .clt _ _ _ _ => true
  | .cltu _ _ _ _ => true
  | .cle _ _ _ _ => true
  | .cleu _ _ _ _ => true
  | .abs _ _ _ => true
  | .clz _ _ _ => true
  | .ctz _ _ _ => true
  | .popc _ _ _ => true
  | .bfx _ _ _ _ => true
  | .addConst _ _ _ _ => true
  | .subConst _ _ _ _ => true
  | .andConst _ _ _ _ => true
  | .orConst _ _ _ _ => true
  | .xorConst _ _ _ _ => true
  | .andnConst _ _ _ _ => true
  | .ornConst _ _ _ _ => true
  | .shlConst _ _ _ _ => true
  | .shrConst _ _ _ _ => true
  | .sraConst _ _ _ _ => true
  | .rorConst _ _ _ _ => true
  | .mulConst _ _ _ _ => true
  | .mulhConst _ _ _ _ => true
  | .mulhuConst _ _ _ _ => true
  | .divConst _ _ _ _ => true
  | .divuConst _ _ _ _ => true
  | .remConst _ _ _ _ => true
  | .remuConst _ _ _ _ => true
  | .minConst _ _ _ _ => true
  | .maxConst _ _ _ _ => true
  | .minuConst _ _ _ _ => true
  | .maxuConst _ _ _ _ => true
  | .ceqConst _ _ _ _ => true
  | .cneConst _ _ _ _ => true
  | .cltConst _ _ _ _ => true
  | .cltuConst _ _ _ _ => true
  | .cleConst _ _ _ _ => true
  | .cleuConst _ _ _ _ => true
  | .bfxConst _ _ _ _ => true
  | .addImm _ _ _ _ => true
  | .andImm _ _ _ _ => true
  | .orImm _ _ _ _ => true
  | .xorImm _ _ _ _ => true
  | .shlImm _ _ _ _ => true
  | .shrImm _ _ _ _ => true
  | .sraImm _ _ _ _ => true
  | .rorImm _ _ _ _ => true
  | .mulImm _ _ _ _ => true
  | .minImm _ _ _ _ => true
  | .maxImm _ _ _ _ => true
  | .ceqImm _ _ _ _ => true
  | .cneImm _ _ _ _ => true
  | .cltImm _ _ _ _ => true
  | .cleImm _ _ _ _ => true
  | .cltuImm _ _ _ _ => true
  | .li x _ _ => x.atMostOne
  | .beq x _ _ _ => x.atMostOne
  | .bne x _ _ _ => x.atMostOne
  | .blt x _ _ _ => x.atMostOne
  | .bge x _ _ _ => x.atMostOne
  | .bltu x _ _ _ => x.atMostOne
  | .bgeu x _ _ _ => x.atMostOne
  | .loop x _ _ => x.atMostOne
  | .j x _ => x.atMostOne
  | .call x _ d => x.atMostOne && d != 0#5
  | .jr _ _ => true
  | .ld x _ _ _ _ _ _ => x.atMostOne
  | .st x _ _ _ _ _ _ _ => x.atMostOne
  | .ldw x _ _ _ => x.atMostOne
  | .take x _ _ _ _ => x.atMostOne
  | .stw x _ _ _ _ => x.atMostOne
  | .stf x _ _ _ _ => x.atMostOne
  | .tset x _ _ _ => x.atMostOne
  | .tclr x _ _ _ => x.atMostOne
  | .trd x _ _ _ => x.atMostOne
  | .twait x _ _ => x.atMostOne
  | .ldx _ _ _ _ => true
  | .stx _ _ _ _ => true
  | .ldp _ _ _ => true
  | .stp _ _ _ => true
  | .zblk _ => true
  | .fence _ _ => true
  | .qpush _ _ => true
  | .qpop _ _ => true
  | .send _ _ _ => true
  | .sendi _ _ _ => true
  | .enq x _ => x.ok
  | .defer _ => true
  | .breg _ => true
  | .barr _ => true
  | .dnew _ _ => true
  | .djoin x _ _ => x.ok && x != .imm
  | .dleave x _ _ => x.ok && x != .imm
  | .dannul x _ => x.ok && x != .imm
  | .dwhen x _ _ => x.ok
  | .dmask x _ _ => x.ok
  | .nopen _ _ _ _ => true
  | .nopenWait _ _ _ _ => true
  | .nclose _ _ => true
  | .nbind _ _ _ => true
  | .nq _ _ _ => true
  | .rseal _ _ _ => true
  | .cpy _ _ _ => true
  | .waitp _ => true
  | .wm _ _ => true
  | .aadd _ _ _ _ _ => true
  | .amin _ _ _ _ _ => true
  | .amax _ _ _ _ _ => true
  | .aand _ _ _ _ _ => true
  | .aor _ _ _ _ _ => true
  | .axchg _ _ _ _ _ => true
  | .acas _ _ _ _ _ => true
  | .put x _ _ => x.ok
  | .putsg x _ _ => x.ok
  | .get x _ _ => x.ok
  | .padd x _ _ => x.ok
  | .arm x _ _ => x.ok
  | .sigw _ _ _ => true
  | .ringj x _ _ => x.ok
  | .cwr _ _ => true
  | .cww _ _ => true
  | .ckpt _ => true
  | .time _ => true
  | .cyc _ => true
  | .waitc _ => true
  | .vadd _ _ _ _ _ => true
  | .vsub _ _ _ _ _ => true
  | .vmul _ _ _ _ _ => true
  | .vmin _ _ _ _ _ => true
  | .vmax _ _ _ _ _ => true
  | .vabs _ _ _ _ => true
  | .vneg _ _ _ _ => true
  | .vceq _ _ _ _ _ => true
  | .vclt _ _ _ _ _ => true
  | .vcle _ _ _ _ _ => true
  | .vsel _ _ _ _ _ => true
  | .vand _ _ _ _ _ => true
  | .vor _ _ _ _ _ => true
  | .vxor _ _ _ _ _ => true
  | .vshl _ _ _ _ => true
  | .vshr _ _ _ _ => true
  | .vsra _ _ _ _ => true
  | .vcvt _ t s _ _ => t != s
  | .vrcp _ _ _ _ => true
  | .vrsq _ _ _ _ => true
  | .vexp _ _ _ _ => true
  | .vlog _ _ _ _ => true
  | .vtanh _ _ _ _ => true
  | .vsig _ _ _ _ => true
  | .vperm _ _ _ _ => true
  | .vfmaF32 _ _ _ _ _ => true
  | .vfmaBf16 _ _ _ _ _ => true
  | .vfmsF32 _ _ _ _ _ => true
  | .vfmsBf16 _ _ _ _ _ => true
  | .vfmaI32 _ _ _ _ _ => true
  | .vfmsI32 _ _ _ _ _ => true
  | .vaddF32Const _ _ _ _ => true
  | .vsubF32Const _ _ _ _ => true
  | .vmulF32Const _ _ _ _ => true
  | .vminF32Const _ _ _ _ => true
  | .vmaxF32Const _ _ _ _ => true
  | .vceqF32Const _ _ _ _ => true
  | .vcltF32Const _ _ _ _ => true
  | .vcleF32Const _ _ _ _ => true
  | .vandF32Const _ _ _ _ => true
  | .vorF32Const _ _ _ _ => true
  | .vxorF32Const _ _ _ _ => true
  | .vaddBf16Const _ _ _ _ => true
  | .vsubBf16Const _ _ _ _ => true
  | .vmulBf16Const _ _ _ _ => true
  | .vminBf16Const _ _ _ _ => true
  | .vmaxBf16Const _ _ _ _ => true
  | .vceqBf16Const _ _ _ _ => true
  | .vcltBf16Const _ _ _ _ => true
  | .vcleBf16Const _ _ _ _ => true
  | .vandBf16Const _ _ _ _ => true
  | .vorBf16Const _ _ _ _ => true
  | .vxorBf16Const _ _ _ _ => true
  | .vaddI32Const _ _ _ _ => true
  | .vsubI32Const _ _ _ _ => true
  | .vmulI32Const _ _ _ _ => true
  | .vminI32Const _ _ _ _ => true
  | .vmaxI32Const _ _ _ _ => true
  | .vceqI32Const _ _ _ _ => true
  | .vcltI32Const _ _ _ _ => true
  | .vcleI32Const _ _ _ _ => true
  | .vandI32Const _ _ _ _ => true
  | .vorI32Const _ _ _ _ => true
  | .vxorI32Const _ _ _ _ => true
  | .vshlI32Const _ _ _ _ => true
  | .vshrI32Const _ _ _ _ => true
  | .vsraI32Const _ _ _ _ => true
  | .vext _ l _ _ => l.toNat < 48
  | .vins _ l _ _ => l.toNat < 48
  | .vbc _ _ _ _ => true
  | .vred _ _ _ _ => true
  | .vrmax _ _ _ _ => true
  | .vrmin _ _ _ _ => true
  | .kget _ _ => true
  | .kput _ _ => true
  | .vld _ _ _ _ _ _ => true
  | .vst _ _ _ _ _ _ => true
  | .vbld _ _ _ _ _ _ => true
  | .vbst _ _ _ _ _ _ => true
  | .vgath _ _ _ _ _ _ => true
  | .vscat _ _ _ _ _ _ => true
  | .smode _ _ => true
  | .soff _ => true
  | .mma _ _ _ g y _ => !(g && y == .i10)
  | .mmaj _ _ _ g y _ => !(g && y == .i10)
  | .aclr _ => true
  | .acpy _ _ => true
  | .radd _ _ => true
  | .rscl _ _ => true
  | .rdout _ _ _ => true
  | .publOpen _ => true
  | .publClose _ => true
  | .still _ => true
  | .aspl _ _ => true
  | .afil _ _ => true
  | .mwait _ => true
  | .pf => true
  | .drain => true
  | .done => true
  | .xfence => true
  | .trap => true
  | .eret => true
  | .brk => true
  | .nop => true
  | .hintPoll => true
  | .hintMark => true
  | .hintOther => true
  | .illegalInstruction => true
  | .wDispatch _ => true
  | .wIssue c => c < nCores
  | .wWriteLanding c => c < nCores
  | .stripFetch c _ => c < nCores
  | .slicePartStart c => c < nCores
  | .slicePartComplete c => c < nCores
  | .gangStart row => row < nRows
  | .gangComplete row => row < nRows
  | .mmajIterationBoundary row => row < nRows
  | .gangto row => row < nRows
  | .rippleArrival c => c < nCores
  | .markArrival c => c < nCores
  | .rippleAck c _ _ => c < nCores
  | .rippleResend c => c < nCores
  | .remoteTileArrival c => c < nCores
  | .wbHeldWrite c => c < nCores
  | .activationStart c => c < nCores
  | .activationEnd c => c < nCores
  | .deferEligible c _ ix => decide (c < nCores) && decide (ix < 16)
  | .messageArrival _ => true
  | .outboundEntryFree c => c < nCores
  | .packetHop _ => true
  | .packetAgedOut _ => true
  | .domainCacheFill _ _ => true
  | .domainCacheUpdate _ _ => true
  | .domainExpiry _ => true
  | .annulmentNotice _ _ => true
  | .peerNoticeResend _ dev => dev < nDevices
  | .domainIdFree _ => true
  | .peerPacketReceive port _ => port < nPorts
  | .shadowNotice _ => true
  | .storePerform c _ => c < nCores
  | .loadReply c _ => c < nCores
  | .taggedWaitWake c => c < nCores
  | .waitLimitExpiry c => c < nCores
  | .cycleWaitEnd c => c < nCores
  | .fenceDrainEnd c => c < nCores
  | .serviceReply c => c < nCores
  | .barrierArrival c _ => c < nCores
  | .trapEntry c => c < nCores
  | .clusterReport cl => cl < nClusters
  | .recordReady _ _ => true
  | .leaseGrant _ _ _ => true
  | .leaseRefusal _ _ => true
  | .taskPlacement _ _ => true
  | .gangReservation _ _ => true
  | .taskComplete _ _ => true
  | .jobRelease c _ => c < nCores
  | .jobStart c _ => c < nCores
  | .jobIteration c _ _ => c < nCores
  | .jobComplete c _ => c < nCores
  | .dropNoticeArrival c _ => c < nCores
  | .putDataArrival _ => true
  | .signalSend c _ => c < nCores
  | .signalArrival _ => true
  | .heldFiringSubmit c => c < nCores
  | .atomicPerform c _ => c < nCores
  | .ringJobStart port => port < nPorts
  | .ringChunkStep port _ => port < nPorts
  | .ringLossTimeout port => port < nPorts
  | .lossMarkArrival port _ => port < nPorts
  | .ringJobEnd port => port < nPorts
  | .tableWalk c _ _ => c < nCores
  | .lateViolationReport c _ _ _ => c < nCores ∨ (2 ^ 64 ≤ c ∧ c < 2 ^ 64 + nPorts)
  | .shootdown _ => true
  | .clusterShootdownAck cl => cl < nClusters
  | .shootdownComplete => true
  | .leaseRecall dev _ => dev < nDevices
  | .leaseRecallTimeout dev => dev < nDevices
  | .peerAccess _ => true
  | .faultRetry q _ => q ≤ nClusters
  | .faultDeny q _ => q ≤ nClusters
  | .faultAck q _ => q ≤ nClusters
  | .thaw c _ => c < nCores
  | .coreRetire c => c < nCores
  | .preemptRequest c => c < nCores
  | .preemptTimeout c => c < nCores
  | .contextResume c _ => c < nCores
  | .haltRequest c => c < nCores
  | .haltRelease c => c < nCores
  | .singleStep c => c < nCores
  | .debugHalt c => c < nCores
  | .counterProgram c _ _ => c < nCores
  | .counterOverflow c _ => c < nCores
  | .accumulatorReadClear c => c < nCores
  | .flitReceive port _ _ _ _ => port < nPorts
  | .flitResend port => port < nPorts
  | .linkDown port => port < nPorts
  | .frameReceive port _ _ => port < 2
  | .frameHeldRelease port => port < 2
  | .egressTailWrite port q => decide (port < 2) && decide (q < 16)
  | .frameTransmit port q => decide (port < 2) && decide (q < 16)
  | .ptpLockChange _ _ => true
  | .hostMemoryAccess a => a.wf
  | .doorbell q _ => q < nHostQueues
  | .ctlEnable q _ => q < nHostQueues
  | .ctlRestart q => q < nHostQueues
  | .registerWrite r => r.wf
  | .nopPacket q pk => decide (q < nHostQueues) && opc pk == 0#8
  | .launch q pk => decide (q < nHostQueues) && opc pk == 1#8
  | .indirect q op _ _ => decide (q < nHostQueues) && op.extractLsb' 0 8 == 2#8
  | .annul q pk => decide (q < nHostQueues) && opc pk == 3#8
  | .queueStop q pk => decide (q < nHostQueues) && decide (3#8 < opc pk)
  | .launchComplete _ => true
  | .irqCoalesceTimeout q => q < nHostQueues
  | .powerOn _ => true
  | .firmwareHandover _ => true
  | .handoverTimeout => true
  | .spdmRequest _ => true
  | .checkpoint => true
  | .restore => true
  | .powerLimitGate => true
  | .contextDestroyed _ => true
  | .powerLimitCleared => true
  | .newImageReady => true
  | .linkLiveAgain port => port < nPorts

end Sys2Proof
end

