-- ==== Sys2Proof/Decode.lean ====
section
/-! DEFINITION. Decoding (03_formats_opcode_map.md R40 to R53), total on any words, and the encoder. -/

namespace Sys2Proof

/-- Bits [lo + n - 1 : lo] of a word. -/
def fld (w : BitVec 32) (lo n : Nat) : BitVec n := w.extractLsb' lo n

def fn6 (w : BitVec 32) : BitVec 6 := fld w 26 6
def xf (w : BitVec 32) : BitVec 5 := fld w 21 5
def rb (w : BitVec 32) : BitVec 5 := fld w 16 5
def ra (w : BitVec 32) : BitVec 5 := fld w 11 5
def rd (w : BitVec 32) : BitVec 5 := fld w 6 5

/-! The coded fields (R43). -/

def STy.xf : STy → BitVec 5
  | .i64 => 0#5
  | .i32 => 1#5
def STy.ofXf (c : BitVec 5) : Option STy := if c = 0#5 then some .i64 else if c = 1#5 then some .i32 else none
def STy.xf2 : STy → BitVec 2
  | .i64 => 0#2
  | .i32 => 1#2
def STy.ofXf2 (c : BitVec 2) : Option STy := if c = 0#2 then some .i64 else if c = 1#2 then some .i32 else none
def STy.xf3 : STy → BitVec 3
  | .i64 => 0#3
  | .i32 => 1#3
def STy.ofXf3 (c : BitVec 3) : Option STy := if c = 0#3 then some .i64 else if c = 1#3 then some .i32 else none
def MTy.code : MTy → BitVec 3
  | .i8 => 0#3 | .i16 => 1#3 | .i32 => 2#3 | .i64 => 3#3 | .u8 => 4#3 | .u16 => 5#3 | .u32 => 6#3 | .u64 => 7#3
def MTy.ofCode (c : BitVec 3) : MTy :=
  match c.toNat with
  | 0 => .i8 | 1 => .i16 | 2 => .i32 | 3 => .i64 | 4 => .u8 | 5 => .u16 | 6 => .u32 | _ => .u64
def StTy.code3 : StTy → BitVec 3
  | .i8 => 0#3 | .i16 => 1#3 | .i32 => 2#3 | .i64 => 3#3
def StTy.ofCode (c : BitVec 3) : Option StTy :=
  match c.toNat with
  | 0 => some .i8 | 1 => some .i16 | 2 => some .i32 | 3 => some .i64 | _ => none
def ATy.code : ATy → BitVec 3
  | .i64 => 0#3 | .i32 => 1#3 | .u64 => 2#3 | .u32 => 3#3
def ATy.ofCode (c : BitVec 3) : Option ATy :=
  match c.toNat with
  | 0 => some .i64 | 1 => some .i32 | 2 => some .u64 | 3 => some .u32 | _ => none
def VTy.code : VTy → BitVec 3
  | .f32 => 0#3 | .bf16 => 1#3 | .i32 => 2#3
def VTy.ofCode (c : BitVec 3) : Option VTy :=
  match c.toNat with
  | 0 => some .f32 | 1 => some .bf16 | 2 => some .i32 | _ => none
def FTy.code : FTy → BitVec 3
  | .f32 => 0#3 | .bf16 => 1#3
def FTy.ofCode (c : BitVec 3) : Option FTy :=
  match c.toNat with
  | 0 => some .f32 | 1 => some .bf16 | _ => none
def BTy.code : BTy → BitVec 3
  | .i10 => 3#3 | .f10e4 => 4#3 | .f10e5 => 5#3 | .i5 => 6#3 | .f5 => 7#3
def BTy.ofCode (c : BitVec 3) : Option BTy :=
  match c.toNat with
  | 3 => some .i10 | 4 => some .f10e4 | 5 => some .f10e5 | 6 => some .i5 | 7 => some .f5 | _ => none
def MTyp.code : MTyp → BitVec 1
  | .i10 => 0#1 | .i5 => 1#1
def MTyp.ofCode (c : BitVec 1) : MTyp := if c = 0#1 then .i10 else .i5
def RTyp.code : RTyp → BitVec 3
  | .i32 => 0#3 | .f32 => 1#3 | .bf16 => 2#3 | .i10 => 3#3 | .i5 => 4#3
def RTyp.ofCode (c : BitVec 3) : Option RTyp :=
  match c.toNat with
  | 0 => some .i32 | 1 => some .f32 | 2 => some .bf16 | 3 => some .i10 | 4 => some .i5 | _ => none
def LdOrd.code : LdOrd → BitVec 2
  | .pg => 0#2 | .acq => 1#2
def LdOrd.ofCode (c : BitVec 2) : Option LdOrd := if c = 0#2 then some .pg else if c = 1#2 then some .acq else none
def StOrd.code : StOrd → BitVec 2
  | .pg => 0#2 | .rel => 2#2
def StOrd.ofCode (c : BitVec 2) : Option StOrd := if c = 0#2 then some .pg else if c = 2#2 then some .rel else none
def FenceOrd.code : FenceOrd → BitVec 2
  | .acqrel => 0#2 | .acq => 1#2 | .rel => 2#2
def FenceOrd.ofCode (c : BitVec 2) : Option FenceOrd :=
  if c = 0#2 then some .acqrel else if c = 1#2 then some .acq else if c = 2#2 then some .rel else none
def Scope.code : Scope → BitVec 3
  | .core => 0#3 | .row => 1#3 | .clu => 2#3 | .die => 3#3 | .dev => 4#3 | .pod => 5#3
def Scope.ofCode (c : BitVec 3) : Option Scope :=
  match c.toNat with
  | 0 => some .core | 1 => some .row | 2 => some .clu | 3 => some .die | 4 => some .dev | 5 => some .pod | _ => none
def Dm.code : Dm → BitVec 1
  | .inh => 0#1 | .imm => 1#1
def Dm.ofCode (c : BitVec 1) : Dm := if c = 0#1 then .inh else .imm
def Dm.code2 : Dm → BitVec 2
  | .inh => 0#2 | .imm => 1#2
def Dm.ofCode2 (c : BitVec 2) : Option Dm := if c = 0#2 then some .inh else if c = 1#2 then some .imm else none
def DmR.code : DmR → BitVec 2
  | .inh => 0#2 | .imm => 1#2 | .reg _ => 2#2
/-- The RB field that goes with the domain position: 0 unless the position is a register. -/
def DmR.rb : DmR → BitVec 5
  | .inh => 0#5 | .imm => 0#5 | .reg b => b
/-- The domain position of families 0x0C to 0x11; RB is not 0 with a register and is 0 without (R43). -/
def DmR.ofCode (c : BitVec 2) (b : BitVec 5) : Option DmR :=
  match c.toNat with
  | 0 => if b = 0#5 then some .inh else none
  | 1 => if b = 0#5 then some .imm else none
  | 2 => if b = 0#5 then none else some (.reg b)
  | _ => none
/-- The number of a control word (R35). -/
def Cw.code : Cw → BitVec 12
  | .corestat => 0#12 | .domain => 1#12 | .cyc => 2#12 | .now => 3#12 | .trapcause => 4#12
  | .trappc => 5#12 | .trapval => 6#12 | .itervec => 7#12 | .ckpttab => 8#12 | .handlerbase => 9#12
def Cw.ofCode (c : BitVec 12) : Option Cw :=
  match c.toNat with
  | 0 => some .corestat | 1 => some .domain | 2 => some .cyc | 3 => some .now | 4 => some .trapcause
  | 5 => some .trappc | 6 => some .trapval | 7 => some .itervec | 8 => some .ckpttab | 9 => some .handlerbase | _ => none

/-- MAJ 0x01, R format: scalar integer, register operand (R51, R79). -/
def dec01 (w : BitVec 32) : Option Instr :=
  match STy.ofXf (xf w) with
  | none => none
  | some t =>
    match (fn6 w).toNat with
    | 0x0 => some (.add t (rb w) (ra w) (rd w))
    | 0x1 => some (.sub t (rb w) (ra w) (rd w))
    | 0x2 => some (.and t (rb w) (ra w) (rd w))
    | 0x3 => some (.or t (rb w) (ra w) (rd w))
    | 0x4 => some (.xor t (rb w) (ra w) (rd w))
    | 0x5 => some (.andn t (rb w) (ra w) (rd w))
    | 0x6 => some (.orn t (rb w) (ra w) (rd w))
    | 0x7 => some (.shl t (rb w) (ra w) (rd w))
    | 0x8 => some (.shr t (rb w) (ra w) (rd w))
    | 0x9 => some (.sra t (rb w) (ra w) (rd w))
    | 0xA => some (.ror t (rb w) (ra w) (rd w))
    | 0xB => some (.mul t (rb w) (ra w) (rd w))
    | 0xC => some (.mulh t (rb w) (ra w) (rd w))
    | 0xD => some (.mulhu t (rb w) (ra w) (rd w))
    | 0xE => some (.div t (rb w) (ra w) (rd w))
    | 0xF => some (.divu t (rb w) (ra w) (rd w))
    | 0x10 => some (.rem t (rb w) (ra w) (rd w))
    | 0x11 => some (.remu t (rb w) (ra w) (rd w))
    | 0x12 => some (.min t (rb w) (ra w) (rd w))
    | 0x13 => some (.max t (rb w) (ra w) (rd w))
    | 0x14 => some (.minu t (rb w) (ra w) (rd w))
    | 0x15 => some (.maxu t (rb w) (ra w) (rd w))
    | 0x16 => some (.ceq t (rb w) (ra w) (rd w))
    | 0x17 => some (.cne t (rb w) (ra w) (rd w))
    | 0x18 => some (.clt t (rb w) (ra w) (rd w))
    | 0x19 => some (.cltu t (rb w) (ra w) (rd w))
    | 0x1A => some (.cle t (rb w) (ra w) (rd w))
    | 0x1B => some (.cleu t (rb w) (ra w) (rd w))
    | 0x1C => if rb w = 0#5 then some (.abs t (ra w) (rd w)) else none
    | 0x1D => if rb w = 0#5 then some (.clz t (ra w) (rd w)) else none
    | 0x1E => if rb w = 0#5 then some (.ctz t (ra w) (rd w)) else none
    | 0x1F => if rb w = 0#5 then some (.popc t (ra w) (rd w)) else none
    | 0x20 => some (.bfx t (rb w) (ra w) (rd w))
    | _ => none

/-- MAJ 0x02, C format: scalar integer, constant operand (R51, R79). -/
def dec02 (w : BitVec 32) : Option Instr :=
  match STy.ofXf2 (fld w 16 2) with
  | none => none
  | some t =>
    match (fn6 w).toNat with
    | 0x0 => some (.addConst (fld w 18 8) t (ra w) (rd w))
    | 0x1 => some (.subConst (fld w 18 8) t (ra w) (rd w))
    | 0x2 => some (.andConst (fld w 18 8) t (ra w) (rd w))
    | 0x3 => some (.orConst (fld w 18 8) t (ra w) (rd w))
    | 0x4 => some (.xorConst (fld w 18 8) t (ra w) (rd w))
    | 0x5 => some (.andnConst (fld w 18 8) t (ra w) (rd w))
    | 0x6 => some (.ornConst (fld w 18 8) t (ra w) (rd w))
    | 0x7 => some (.shlConst (fld w 18 8) t (ra w) (rd w))
    | 0x8 => some (.shrConst (fld w 18 8) t (ra w) (rd w))
    | 0x9 => some (.sraConst (fld w 18 8) t (ra w) (rd w))
    | 0xA => some (.rorConst (fld w 18 8) t (ra w) (rd w))
    | 0xB => some (.mulConst (fld w 18 8) t (ra w) (rd w))
    | 0xC => some (.mulhConst (fld w 18 8) t (ra w) (rd w))
    | 0xD => some (.mulhuConst (fld w 18 8) t (ra w) (rd w))
    | 0xE => some (.divConst (fld w 18 8) t (ra w) (rd w))
    | 0xF => some (.divuConst (fld w 18 8) t (ra w) (rd w))
    | 0x10 => some (.remConst (fld w 18 8) t (ra w) (rd w))
    | 0x11 => some (.remuConst (fld w 18 8) t (ra w) (rd w))
    | 0x12 => some (.minConst (fld w 18 8) t (ra w) (rd w))
    | 0x13 => some (.maxConst (fld w 18 8) t (ra w) (rd w))
    | 0x14 => some (.minuConst (fld w 18 8) t (ra w) (rd w))
    | 0x15 => some (.maxuConst (fld w 18 8) t (ra w) (rd w))
    | 0x16 => some (.ceqConst (fld w 18 8) t (ra w) (rd w))
    | 0x17 => some (.cneConst (fld w 18 8) t (ra w) (rd w))
    | 0x18 => some (.cltConst (fld w 18 8) t (ra w) (rd w))
    | 0x19 => some (.cltuConst (fld w 18 8) t (ra w) (rd w))
    | 0x1A => some (.cleConst (fld w 18 8) t (ra w) (rd w))
    | 0x1B => some (.cleuConst (fld w 18 8) t (ra w) (rd w))
    | 0x20 => some (.bfxConst (fld w 18 8) t (ra w) (rd w))
    | _ => none

/-- MAJ 0x03, I format: scalar integer, immediate operand (R51, R79). -/
def dec03 (x : Pfx) (w : BitVec 32) : Option Instr :=
  match (fld w 16 4).toNat with
  | 0x0 => some (.addImm x (fld w 20 12) (ra w) (rd w))
  | 0x1 => some (.andImm x (fld w 20 12) (ra w) (rd w))
  | 0x2 => some (.orImm x (fld w 20 12) (ra w) (rd w))
  | 0x3 => some (.xorImm x (fld w 20 12) (ra w) (rd w))
  | 0x4 => some (.shlImm x (fld w 20 12) (ra w) (rd w))
  | 0x5 => some (.shrImm x (fld w 20 12) (ra w) (rd w))
  | 0x6 => some (.sraImm x (fld w 20 12) (ra w) (rd w))
  | 0x7 => some (.rorImm x (fld w 20 12) (ra w) (rd w))
  | 0x8 => some (.mulImm x (fld w 20 12) (ra w) (rd w))
  | 0x9 => some (.minImm x (fld w 20 12) (ra w) (rd w))
  | 0xA => some (.maxImm x (fld w 20 12) (ra w) (rd w))
  | 0xB => some (.ceqImm x (fld w 20 12) (ra w) (rd w))
  | 0xC => some (.cneImm x (fld w 20 12) (ra w) (rd w))
  | 0xD => some (.cltImm x (fld w 20 12) (ra w) (rd w))
  | 0xE => some (.cleImm x (fld w 20 12) (ra w) (rd w))
  | _ => some (.cltuImm x (fld w 20 12) (ra w) (rd w))

/-- MAJ 0x05, B format: RB is [15:11] and RA is [10:6] (R42, R84). -/
def dec05 (x : Pfx) (w : BitVec 32) : Option Instr :=
  match (fld w 16 3).toNat with
  | 0 => some (.beq x (fld w 19 13) (ra w) (rd w))
  | 1 => some (.bne x (fld w 19 13) (ra w) (rd w))
  | 2 => some (.blt x (fld w 19 13) (ra w) (rd w))
  | 3 => some (.bge x (fld w 19 13) (ra w) (rd w))
  | 4 => some (.bltu x (fld w 19 13) (ra w) (rd w))
  | 5 => some (.bgeu x (fld w 19 13) (ra w) (rd w))
  | 6 => if ra w = 0#5 then some (.loop x (fld w 19 13) (rd w)) else none
  | _ => none

/-- MAJ 0x06, J format: `j` when RD is 0, else `call` (R50, R85). -/
def dec06 (x : Pfx) (w : BitVec 32) : Option Instr :=
  if rd w = 0#5 then some (.j x (fld w 11 21)) else some (.call x (fld w 11 21) (rd w))

/-- MAJ 0x07: `jr` (R51, R85). -/
def dec07 (w : BitVec 32) : Option Instr :=
  if fn6 w = 0#6 ∧ xf w = 0#5 ∧ rb w = 0#5 then some (.jr (ra w) (rd w)) else none

/-- MAJ 0x08, M format: `ld` (R43, R87). -/
def dec08 (x : Pfx) (w : BitVec 32) : Option Instr :=
  match LdOrd.ofCode (fld w 23 2), Scope.ofCode (fld w 20 3) with
  | some r, some sc =>
    if fld w 19 1 = 0#1 then some (.ld x (fld w 25 7) r sc (MTy.ofCode (fld w 16 3)) (ra w) (rd w)) else none
  | _, _ => none

/-- MAJ 0x09, M format: `st` (R43, R87). -/
def dec09 (x : Pfx) (w : BitVec 32) : Option Instr :=
  match StOrd.ofCode (fld w 23 2), Scope.ofCode (fld w 20 3), StTy.ofCode (fld w 16 3) with
  | some r, some sc, some t => some (.st x (fld w 25 7) r sc (Dm.ofCode (fld w 19 1)) t (ra w) (rd w))
  | _, _, _ => none

/-- MAJ 0x0A, T format: tagged memory (R51, R93). -/
def dec0A (x : Pfx) (w : BitVec 32) : Option Instr :=
  match (fld w 16 3).toNat with
  | 0 => if fld w 19 1 = 0#1 then some (.ldw x (fld w 20 12) (ra w) (rd w)) else none
  | 1 => some (.take x (fld w 20 12) (Dm.ofCode (fld w 19 1)) (ra w) (rd w))
  | 2 => some (.stw x (fld w 20 12) (Dm.ofCode (fld w 19 1)) (ra w) (rd w))
  | 3 => some (.stf x (fld w 20 12) (Dm.ofCode (fld w 19 1)) (ra w) (rd w))
  | 4 => if rd w = 0#5 then some (.tset x (fld w 20 12) (Dm.ofCode (fld w 19 1)) (ra w)) else none
  | 5 => if rd w = 0#5 then some (.tclr x (fld w 20 12) (Dm.ofCode (fld w 19 1)) (ra w)) else none
  | 6 => if fld w 19 1 = 0#1 then some (.trd x (fld w 20 12) (ra w) (rd w)) else none
  | _ => if fld w 19 1 = 0#1 ∧ rd w = 0#5 then some (.twait x (fld w 20 12) (ra w)) else none

/-- MAJ 0x0B: other memory operations and queue moves (R51, R92, R97, R186). -/
def dec0B (w : BitVec 32) : Option Instr :=
  match (fn6 w).toNat with
  | 0x0 => if fld w 24 2 = 0#2 then some (.ldx (MTy.ofCode (fld w 21 3)) (rb w) (ra w) (rd w)) else none
  | 0x1 =>
    match StTy.ofCode (fld w 21 3) with
    | some t => if fld w 24 2 = 0#2 then some (.stx t (rb w) (ra w) (rd w)) else none
    | none => none
  | 0x2 => if xf w = 0#5 then some (.ldp (rb w) (ra w) (rd w)) else none
  | 0x3 => if xf w = 0#5 then some (.stp (rb w) (ra w) (rd w)) else none
  | 0x4 => if xf w = 0#5 ∧ rb w = 0#5 ∧ rd w = 0#5 then some (.zblk (ra w)) else none
  | 0x5 => if xf w = 0#5 ∧ rb w = 0#5 ∧ rd w = 0#5 then some .pf else none
  | 0x6 =>
    match FenceOrd.ofCode (fld w 24 2), Scope.ofCode (fld w 21 3) with
    | some o, some sc => if rb w = 0#5 ∧ ra w = 0#5 ∧ rd w = 0#5 then some (.fence o sc) else none
    | _, _ => none
  | 0x7 => if xf w = 0#5 ∧ rb w = 0#5 ∧ ra w = 0#5 ∧ rd w = 0#5 then some .drain else none
  | 0x8 => if xf w = 0#5 ∧ rb w = 0#5 ∧ fld w 8 3 = 0#3 then some (.qpush (ra w) (fld w 6 2)) else none
  | 0x9 => if xf w = 0#5 ∧ rb w = 0#5 ∧ fld w 13 3 = 1#3 then some (.qpop (fld w 11 2) (rd w)) else none
  | _ => none

/-- MAJ 0x0C: messaging and tasks (R51, R135). -/
def dec0C (w : BitVec 32) : Option Instr :=
  match (fn6 w).toNat with
  | 0 =>
    match Dm.ofCode2 (fld w 24 2) with
    | some m => if fld w 21 3 = 0#3 ∧ rd w = 0#5 then some (.send m (rb w) (ra w)) else none
    | none => none
  | 1 =>
    match Dm.ofCode2 (fld w 24 2) with
    | some m => if fld w 21 3 = 0#3 ∧ rd w = 0#5 then some (.sendi m (rb w) (ra w)) else none
    | none => none
  | 2 =>
    match DmR.ofCode (fld w 24 2) (rb w) with
    | some x => if fld w 21 3 = 0#3 ∧ ra w = 0#5 then some (.enq x (rd w)) else none
    | none => none
  | 3 => if xf w = 0#5 ∧ rb w = 0#5 ∧ ra w = 0#5 ∧ rd w = 0#5 then some .done else none
  | 4 => if xf w = 0#5 ∧ rb w = 0#5 ∧ rd w = 0#5 then some (.defer (ra w)) else none
  | 5 => if xf w = 0#5 ∧ rb w = 0#5 ∧ rd w = 0#5 then some (.breg (ra w)) else none
  | 6 => if xf w = 0#5 ∧ rb w = 0#5 ∧ rd w = 0#5 then some (.barr (ra w)) else none
  | _ => none

/-- MAJ 0x0D: expiry (R51, R150). -/
def dec0D (w : BitVec 32) : Option Instr :=
  if fld w 21 3 = 0#3 then
    match DmR.ofCode (fld w 24 2) (rb w) with
    | some x =>
      match (fn6 w).toNat with
      | 0 => if x = .inh then some (.dnew (ra w) (rd w)) else none
      | 1 => if x = .imm then none else some (.djoin x (ra w) (rd w))
      | 2 => if x = .imm then none else some (.dleave x (ra w) (rd w))
      | 3 => if x = .imm ∨ ra w ≠ 0#5 then none else some (.dannul x (rd w))
      | 4 => some (.dwhen x (ra w) (rd w))
      | 5 => some (.dmask x (ra w) (rd w))
      | _ => none
    | none => none
  else none

/-- MAJ 0x0E: directory and records (R51, R212, R257). -/
def dec0E (w : BitVec 32) : Option Instr :=
  match (fn6 w).toNat with
  | 0 =>
    match Dm.ofCode2 (fld w 24 2) with
    | some m =>
      if fld w 21 3 = 0#3 then some (.nopen m (rb w) (ra w) (rd w))
      else if fld w 21 3 = 1#3 then some (.nopenWait m (rb w) (ra w) (rd w)) else none
    | none => none
  | 1 => if xf w = 0#5 ∧ rb w = 0#5 then some (.nclose (ra w) (rd w)) else none
  | 2 =>
    match Dm.ofCode2 (fld w 24 2) with
    | some m => if fld w 21 3 = 0#3 ∧ rb w = 0#5 then some (.nbind m (ra w) (rd w)) else none
    | none => none
  | 3 => if xf w = 0#5 then some (.nq (rb w) (ra w) (rd w)) else none
  | 4 => if xf w = 0#5 then some (.rseal (rb w) (ra w) (rd w)) else none
  | _ => none

/-- MAJ 0x0F: streamer (R51, R230). -/
def dec0F (w : BitVec 32) : Option Instr :=
  match (fn6 w).toNat with
  | 0 =>
    match Dm.ofCode2 (fld w 24 2) with
    | some m => if fld w 21 3 = 0#3 ∧ rb w = 0#5 then some (.cpy m (ra w) (rd w)) else none
    | none => none
  | 1 => if xf w = 0#5 ∧ rb w = 0#5 ∧ rd w = 0#5 then some (.waitp (ra w)) else none
  | 2 => if xf w = 0#5 ∧ rb w = 0#5 then some (.wm (ra w) (rd w)) else none
  | 3 => if xf w = 0#5 ∧ rb w = 0#5 ∧ ra w = 0#5 ∧ rd w = 0#5 then some .xfence else none
  | _ => none

/-- MAJ 0x10: atomics (R51, R266). -/
def dec10 (w : BitVec 32) : Option Instr :=
  match Dm.ofCode2 (fld w 24 2) with
  | none => none
  | some m =>
    match (fn6 w).toNat with
    | 0 =>
      match STy.ofXf3 (fld w 21 3) with
      | some t => some (.aadd m t (rb w) (ra w) (rd w))
      | none => none
    | 1 =>
      match ATy.ofCode (fld w 21 3) with
      | some t => some (.amin m t (rb w) (ra w) (rd w))
      | none => none
    | 2 =>
      match ATy.ofCode (fld w 21 3) with
      | some t => some (.amax m t (rb w) (ra w) (rd w))
      | none => none
    | 3 =>
      match STy.ofXf3 (fld w 21 3) with
      | some t => some (.aand m t (rb w) (ra w) (rd w))
      | none => none
    | 4 =>
      match STy.ofXf3 (fld w 21 3) with
      | some t => some (.aor m t (rb w) (ra w) (rd w))
      | none => none
    | 5 =>
      match STy.ofXf3 (fld w 21 3) with
      | some t => some (.axchg m t (rb w) (ra w) (rd w))
      | none => none
    | 6 =>
      match STy.ofXf3 (fld w 21 3) with
      | some t => some (.acas m t (rb w) (ra w) (rd w))
      | none => none
    | _ => none

/-- MAJ 0x11: one-sided operations and collectives (R51, R269). -/
def dec11 (w : BitVec 32) : Option Instr :=
  if fld w 21 3 = 0#3 then
    if fn6 w = 5#6 then
      if fld w 24 2 = 0#2 then some (.sigw (rb w) (ra w) (rd w)) else none
    else
      match DmR.ofCode (fld w 24 2) (rb w) with
      | some x =>
        match (fn6 w).toNat with
        | 0 => some (.put x (ra w) (rd w))
        | 1 => some (.putsg x (ra w) (rd w))
        | 2 => some (.get x (ra w) (rd w))
        | 3 => some (.padd x (ra w) (rd w))
        | 4 => some (.arm x (ra w) (rd w))
        | 6 => some (.ringj x (ra w) (rd w))
        | _ => none
      | none => none
  else none

/-- MAJ 0x12, I format: system (R51, R52, R295). -/
def dec12 (w : BitVec 32) : Option Instr :=
  match (fld w 16 4).toNat with
  | 0 => if ra w = 0#5 ∧ rd w = 0#5 then some .trap else none
  | 1 => if fld w 20 12 = 0#12 ∧ ra w = 0#5 ∧ rd w = 0#5 then some .eret else none
  | 2 =>
    match Cw.ofCode (fld w 20 12) with
    | some c => if ra w = 0#5 then some (.cwr c (rd w)) else none
    | none => none
  | 3 =>
    match Cw.ofCode (fld w 20 12) with
    | some c => if rd w = 0#5 then some (.cww c (ra w)) else none
    | none => none
  | 4 => if ra w = 0#5 ∧ rd w = 0#5 then some (.ckpt (fld w 20 12)) else none
  | 5 => if fld w 20 12 = 0#12 ∧ ra w = 0#5 then some (.time (rd w)) else none
  | 6 => if fld w 20 12 = 0#12 ∧ ra w = 0#5 then some (.cyc (rd w)) else none
  | 7 => if fld w 20 12 = 0#12 ∧ rd w = 0#5 then some (.waitc (ra w)) else none
  | 8 => if ra w = 0#5 ∧ rd w = 0#5 then some .brk else none
  | _ => none

/-- MAJ 0x20, V2 format (R51, R52, R102 to R104). -/
def dec20 (w : BitVec 32) : Option Instr :=
  match (fld w 21 5).toNat with
  | 0x0 => (VTy.ofCode (fld w 26 3)).map fun t => .vadd (fld w 29 3) t (rb w) (ra w) (rd w)
  | 0x1 => (VTy.ofCode (fld w 26 3)).map fun t => .vsub (fld w 29 3) t (rb w) (ra w) (rd w)
  | 0x2 => (VTy.ofCode (fld w 26 3)).map fun t => .vmul (fld w 29 3) t (rb w) (ra w) (rd w)
  | 0x3 => (VTy.ofCode (fld w 26 3)).map fun t => .vmin (fld w 29 3) t (rb w) (ra w) (rd w)
  | 0x4 => (VTy.ofCode (fld w 26 3)).map fun t => .vmax (fld w 29 3) t (rb w) (ra w) (rd w)
  | 0x5 => if rb w = 0#5 then (VTy.ofCode (fld w 26 3)).map fun t => .vabs (fld w 29 3) t (ra w) (rd w) else none
  | 0x6 => if rb w = 0#5 then (VTy.ofCode (fld w 26 3)).map fun t => .vneg (fld w 29 3) t (ra w) (rd w) else none
  | 0x7 => if fld w 9 2 = 0#2 then (VTy.ofCode (fld w 26 3)).map fun t => .vceq (fld w 29 3) t (rb w) (ra w) (fld w 6 3) else none
  | 0x8 => if fld w 9 2 = 0#2 then (VTy.ofCode (fld w 26 3)).map fun t => .vclt (fld w 29 3) t (rb w) (ra w) (fld w 6 3) else none
  | 0x9 => if fld w 9 2 = 0#2 then (VTy.ofCode (fld w 26 3)).map fun t => .vcle (fld w 29 3) t (rb w) (ra w) (fld w 6 3) else none
  | 0xA => (VTy.ofCode (fld w 26 3)).map fun t => .vsel (fld w 29 3) t (rb w) (ra w) (rd w)
  | 0xB => (VTy.ofCode (fld w 26 3)).map fun t => .vand (fld w 29 3) t (rb w) (ra w) (rd w)
  | 0xC => (VTy.ofCode (fld w 26 3)).map fun t => .vor (fld w 29 3) t (rb w) (ra w) (rd w)
  | 0xD => (VTy.ofCode (fld w 26 3)).map fun t => .vxor (fld w 29 3) t (rb w) (ra w) (rd w)
  | 0xE => if (fld w 26 3) = 2#3 then some (.vshl (fld w 29 3) (rb w) (ra w) (rd w)) else none
  | 0xF => if (fld w 26 3) = 2#3 then some (.vshr (fld w 29 3) (rb w) (ra w) (rd w)) else none
  | 0x10 => if (fld w 26 3) = 2#3 then some (.vsra (fld w 29 3) (rb w) (ra w) (rd w)) else none
  | 0x11 => 
    match VTy.ofCode (fld w 26 3), VTy.ofCode (fld w 16 3) with
    | some t, some s => if fld w 19 2 = 0#2 ∧ t ≠ s then some (.vcvt (fld w 29 3) t s (ra w) (rd w)) else none
    | _, _ => none
  | 0x12 => if rb w = 0#5 then (FTy.ofCode (fld w 26 3)).map fun t => .vrcp (fld w 29 3) t (ra w) (rd w) else none
  | 0x13 => if rb w = 0#5 then (FTy.ofCode (fld w 26 3)).map fun t => .vrsq (fld w 29 3) t (ra w) (rd w) else none
  | 0x14 => if rb w = 0#5 then (FTy.ofCode (fld w 26 3)).map fun t => .vexp (fld w 29 3) t (ra w) (rd w) else none
  | 0x15 => if rb w = 0#5 then (FTy.ofCode (fld w 26 3)).map fun t => .vlog (fld w 29 3) t (ra w) (rd w) else none
  | 0x16 => if rb w = 0#5 then (FTy.ofCode (fld w 26 3)).map fun t => .vtanh (fld w 29 3) t (ra w) (rd w) else none
  | 0x17 => if rb w = 0#5 then (FTy.ofCode (fld w 26 3)).map fun t => .vsig (fld w 29 3) t (ra w) (rd w) else none
  | 0x18 => if (fld w 26 3) = 2#3 then some (.vperm (fld w 29 3) (rb w) (ra w) (rd w)) else none
  | _ => none

/-- MAJ 0x21, V3 format (R51). -/
def dec21 (w : BitVec 32) : Option Instr :=
  match (fld w 6 3).toNat with
  | 0 => some (.vfmaF32 (fld w 29 3) (fld w 24 5) (fld w 19 5) (fld w 14 5) (fld w 9 5))
  | 1 => some (.vfmaBf16 (fld w 29 3) (fld w 24 5) (fld w 19 5) (fld w 14 5) (fld w 9 5))
  | 2 => some (.vfmsF32 (fld w 29 3) (fld w 24 5) (fld w 19 5) (fld w 14 5) (fld w 9 5))
  | 3 => some (.vfmsBf16 (fld w 29 3) (fld w 24 5) (fld w 19 5) (fld w 14 5) (fld w 9 5))
  | 4 => some (.vfmaI32 (fld w 29 3) (fld w 24 5) (fld w 19 5) (fld w 14 5) (fld w 9 5))
  | 5 => some (.vfmsI32 (fld w 29 3) (fld w 24 5) (fld w 19 5) (fld w 14 5) (fld w 9 5))
  | _ => none

/-- MAJ 0x22, VC format: f32 (R51, R105). -/
def dec22 (w : BitVec 32) : Option Instr :=
  match (fld w 24 5).toNat with
  | 0x0 => some (.vaddF32Const (fld w 29 3) (fld w 16 8) (ra w) (rd w))
  | 0x1 => some (.vsubF32Const (fld w 29 3) (fld w 16 8) (ra w) (rd w))
  | 0x2 => some (.vmulF32Const (fld w 29 3) (fld w 16 8) (ra w) (rd w))
  | 0x3 => some (.vminF32Const (fld w 29 3) (fld w 16 8) (ra w) (rd w))
  | 0x4 => some (.vmaxF32Const (fld w 29 3) (fld w 16 8) (ra w) (rd w))
  | 0x7 => if fld w 9 2 = 0#2 then some (.vceqF32Const (fld w 29 3) (fld w 16 8) (ra w) (fld w 6 3)) else none
  | 0x8 => if fld w 9 2 = 0#2 then some (.vcltF32Const (fld w 29 3) (fld w 16 8) (ra w) (fld w 6 3)) else none
  | 0x9 => if fld w 9 2 = 0#2 then some (.vcleF32Const (fld w 29 3) (fld w 16 8) (ra w) (fld w 6 3)) else none
  | 0xB => some (.vandF32Const (fld w 29 3) (fld w 16 8) (ra w) (rd w))
  | 0xC => some (.vorF32Const (fld w 29 3) (fld w 16 8) (ra w) (rd w))
  | 0xD => some (.vxorF32Const (fld w 29 3) (fld w 16 8) (ra w) (rd w))
  | _ => none

/-- MAJ 0x23, VC format: bf16 (R51, R105). -/
def dec23 (w : BitVec 32) : Option Instr :=
  match (fld w 24 5).toNat with
  | 0x0 => some (.vaddBf16Const (fld w 29 3) (fld w 16 8) (ra w) (rd w))
  | 0x1 => some (.vsubBf16Const (fld w 29 3) (fld w 16 8) (ra w) (rd w))
  | 0x2 => some (.vmulBf16Const (fld w 29 3) (fld w 16 8) (ra w) (rd w))
  | 0x3 => some (.vminBf16Const (fld w 29 3) (fld w 16 8) (ra w) (rd w))
  | 0x4 => some (.vmaxBf16Const (fld w 29 3) (fld w 16 8) (ra w) (rd w))
  | 0x7 => if fld w 9 2 = 0#2 then some (.vceqBf16Const (fld w 29 3) (fld w 16 8) (ra w) (fld w 6 3)) else none
  | 0x8 => if fld w 9 2 = 0#2 then some (.vcltBf16Const (fld w 29 3) (fld w 16 8) (ra w) (fld w 6 3)) else none
  | 0x9 => if fld w 9 2 = 0#2 then some (.vcleBf16Const (fld w 29 3) (fld w 16 8) (ra w) (fld w 6 3)) else none
  | 0xB => some (.vandBf16Const (fld w 29 3) (fld w 16 8) (ra w) (rd w))
  | 0xC => some (.vorBf16Const (fld w 29 3) (fld w 16 8) (ra w) (rd w))
  | 0xD => some (.vxorBf16Const (fld w 29 3) (fld w 16 8) (ra w) (rd w))
  | _ => none

/-- MAJ 0x24, VC format: i32 (R51, R105). -/
def dec24 (w : BitVec 32) : Option Instr :=
  match (fld w 24 5).toNat with
  | 0x0 => some (.vaddI32Const (fld w 29 3) (fld w 16 8) (ra w) (rd w))
  | 0x1 => some (.vsubI32Const (fld w 29 3) (fld w 16 8) (ra w) (rd w))
  | 0x2 => some (.vmulI32Const (fld w 29 3) (fld w 16 8) (ra w) (rd w))
  | 0x3 => some (.vminI32Const (fld w 29 3) (fld w 16 8) (ra w) (rd w))
  | 0x4 => some (.vmaxI32Const (fld w 29 3) (fld w 16 8) (ra w) (rd w))
  | 0x7 => if fld w 9 2 = 0#2 then some (.vceqI32Const (fld w 29 3) (fld w 16 8) (ra w) (fld w 6 3)) else none
  | 0x8 => if fld w 9 2 = 0#2 then some (.vcltI32Const (fld w 29 3) (fld w 16 8) (ra w) (fld w 6 3)) else none
  | 0x9 => if fld w 9 2 = 0#2 then some (.vcleI32Const (fld w 29 3) (fld w 16 8) (ra w) (fld w 6 3)) else none
  | 0xB => some (.vandI32Const (fld w 29 3) (fld w 16 8) (ra w) (rd w))
  | 0xC => some (.vorI32Const (fld w 29 3) (fld w 16 8) (ra w) (rd w))
  | 0xD => some (.vxorI32Const (fld w 29 3) (fld w 16 8) (ra w) (rd w))
  | 0xE => some (.vshlI32Const (fld w 29 3) (fld w 16 8) (ra w) (rd w))
  | 0xF => some (.vshrI32Const (fld w 29 3) (fld w 16 8) (ra w) (rd w))
  | 0x10 => some (.vsraI32Const (fld w 29 3) (fld w 16 8) (ra w) (rd w))
  | _ => none

/-- MAJ 0x25, VQ format (R43, R44, R51, R106). -/
def dec25 (w : BitVec 32) : Option Instr :=
  if fld w 14 2 = 0#2 then
    match (fld w 16 4).toNat with
    | 0 =>
      match VTy.ofCode (fld w 26 3) with
      | some t =>
        if fld w 29 3 = 0#3 ∧ (fld w 20 6).toNat < 48 ∧ fld w 13 1 = 1#1 then some (.vext t (fld w 20 6) (fld w 11 2) (rd w))
        else none
      | none => none
    | 1 =>
      match VTy.ofCode (fld w 26 3) with
      | some t =>
        if fld w 29 3 = 0#3 ∧ (fld w 20 6).toNat < 48 ∧ fld w 13 1 = 0#1 then some (.vins t (fld w 20 6) (fld w 11 2) (rd w))
        else none
      | none => none
    | 2 =>
      match VTy.ofCode (fld w 26 3) with
      | some t => if fld w 20 6 = 0#6 ∧ fld w 13 1 = 0#1 then some (.vbc (fld w 29 3) t (fld w 11 2) (rd w)) else none
      | none => none
    | 3 =>
      match VTy.ofCode (fld w 26 3) with
      | some t => if fld w 20 6 = 0#6 ∧ fld w 13 1 = 1#1 then some (.vred (fld w 29 3) t (fld w 11 2) (rd w)) else none
      | none => none
    | 4 =>
      match VTy.ofCode (fld w 26 3) with
      | some t => if fld w 20 6 = 0#6 ∧ fld w 13 1 = 1#1 then some (.vrmax (fld w 29 3) t (fld w 11 2) (rd w)) else none
      | none => none
    | 5 =>
      match VTy.ofCode (fld w 26 3) with
      | some t => if fld w 20 6 = 0#6 ∧ fld w 13 1 = 1#1 then some (.vrmin (fld w 29 3) t (fld w 11 2) (rd w)) else none
      | none => none
    | 6 =>
      if fld w 29 3 = 0#3 ∧ fld w 26 3 = 0#3 ∧ fld w 20 6 = 0#6 ∧ fld w 13 1 = 1#1 ∧ fld w 9 2 = 0#2 then
        some (.kget (fld w 11 2) (fld w 6 3))
      else none
    | 7 =>
      if fld w 29 3 = 0#3 ∧ fld w 26 3 = 0#3 ∧ fld w 20 6 = 0#6 ∧ fld w 13 1 = 0#1 ∧ fld w 9 2 = 0#2 then
        some (.kput (fld w 11 2) (fld w 6 3))
      else none
    | _ => none
  else none

/-- MAJ 0x26, VM format: `vld` (R50, R52). -/
def dec26 (w : BitVec 32) : Option Instr :=
  (VTy.ofCode (fld w 26 3)).map fun t => .vld (fld w 29 3) t (fld w 25 1 == 1#1) (fld w 23 2) (fld w 11 12) (rd w)

/-- MAJ 0x27, VM format: `vst` (R50, R52). -/
def dec27 (w : BitVec 32) : Option Instr :=
  (VTy.ofCode (fld w 26 3)).map fun t => .vst (fld w 29 3) t (fld w 25 1 == 1#1) (fld w 23 2) (fld w 11 12) (rd w)

/-- MAJ 0x28, VM format: `vbld` (R50, R52). -/
def dec28 (w : BitVec 32) : Option Instr :=
  (BTy.ofCode (fld w 26 3)).map fun t => .vbld (fld w 29 3) t (fld w 25 1 == 1#1) (fld w 23 2) (fld w 11 12) (rd w)

/-- MAJ 0x29, VM format: `vbst` (R50, R52). -/
def dec29 (w : BitVec 32) : Option Instr :=
  (BTy.ofCode (fld w 26 3)).map fun t => .vbst (fld w 29 3) t (fld w 25 1 == 1#1) (fld w 23 2) (fld w 11 12) (rd w)

/-- MAJ 0x2A, VX format: `vgath` (R50, R52). -/
def dec2A (w : BitVec 32) : Option Instr :=
  if fld w 16 7 = 0#7 then (VTy.ofCode (fld w 26 3)).map fun t => .vgath (fld w 29 3) t (fld w 25 1 == 1#1) (fld w 23 2) (ra w) (rd w)
  else none

/-- MAJ 0x2B, VX format: `vscat` (R50, R52). -/
def dec2B (w : BitVec 32) : Option Instr :=
  if fld w 16 7 = 0#7 then (VTy.ofCode (fld w 26 3)).map fun t => .vscat (fld w 29 3) t (fld w 25 1 == 1#1) (fld w 23 2) (ra w) (rd w)
  else none

/-- MAJ 0x2C, VC format: stream mode; VD is v24 to v31 (R51, R228). -/
def dec2C (w : BitVec 32) : Option Instr :=
  if fld w 29 3 = 0#3 ∧ ra w = 0#5 ∧ fld w 9 2 = 3#2 then
    if fld w 24 5 = 0#5 then some (.smode (fld w 16 8) (fld w 6 3))
    else if fld w 24 5 = 1#5 ∧ fld w 16 8 = 0#8 then some (.soff (fld w 6 3)) else none
  else none

/-- MAJ 0x2D, MX format: matrix and accumulator (R51, R168, R234, R246). -/
def dec2D (w : BitVec 32) : Option Instr :=
  if fld w 10 2 = 0#2 then
    match (fld w 28 4).toNat with
    | 0 =>
      if fld w 16 4 = 0#4 ∧ ¬ (fld w 13 1 = 1#1 ∧ fld w 12 1 = 0#1) then
        some (.mma (fld w 20 8) (fld w 15 1 == 1#1) (fld w 14 1 == 1#1) (fld w 13 1 == 1#1) (MTyp.ofCode (fld w 12 1)) (fld w 6 4))
      else none
    | 1 =>
      if fld w 16 4 = 0#4 ∧ ¬ (fld w 13 1 = 1#1 ∧ fld w 12 1 = 0#1) then
        some (.mmaj (fld w 20 8) (fld w 15 1 == 1#1) (fld w 14 1 == 1#1) (fld w 13 1 == 1#1) (MTyp.ofCode (fld w 12 1)) (fld w 6 4))
      else none
    | 2 => if fld w 12 16 = 0#16 then some (.aclr (fld w 6 4)) else none
    | 3 => if fld w 20 8 = 0#8 ∧ fld w 12 4 = 0#4 then some (.acpy (fld w 16 4) (fld w 6 4)) else none
    | 4 => if fld w 20 8 = 0#8 ∧ fld w 12 4 = 0#4 then some (.radd (fld w 16 4) (fld w 6 4)) else none
    | 5 => if fld w 15 13 = 0#13 then some (.rscl (fld w 12 3) (fld w 6 4)) else none
    | 6 => if fld w 15 5 = 0#5 then (RTyp.ofCode (fld w 12 3)).map fun y => .rdout (fld w 20 8) y (fld w 6 4) else none
    | 7 =>
      if fld w 13 15 = 0#15 then (if fld w 12 1 = 0#1 then some (.publOpen (fld w 6 4)) else some (.publClose (fld w 6 4))) else none
    | 8 => if fld w 12 8 = 0#8 ∧ fld w 6 4 = 0#4 then some (.still (fld w 20 8)) else none
    | 9 => if fld w 12 8 = 0#8 then some (.aspl (fld w 20 8) (fld w 6 4)) else none
    | 10 => if fld w 12 8 = 0#8 then some (.afil (fld w 20 8) (fld w 6 4)) else none
    | 11 => if fld w 12 8 = 0#8 ∧ fld w 6 4 = 0#4 then some (.mwait (fld w 20 8)) else none
    | _ => none
  else none

/-- MAJ 0x3E: hints, which never fail (R49, R53). -/
def dec3E (w : BitVec 32) : Option Instr :=
  match (fld w 26 6).toNat with
  | 0 => some .nop
  | 1 => some .hintPoll
  | 2 => some .hintMark
  | _ => some .hintOther

/-- The word after a run of prefixes `x`: the instruction, or none where decoding fails (R45, R47, R50, R53). -/
def decodeWord (x : Pfx) (w : BitVec 32) : Option Instr :=
  match (fld w 0 6).toNat with
  | 0x03 => dec03 x w
  | 0x04 => if x.atMostOne then some (.li x (fld w 11 21) (rd w)) else none
  | 0x05 => if x.atMostOne then dec05 x w else none
  | 0x06 => if x.atMostOne then dec06 x w else none
  | 0x08 => if x.atMostOne then dec08 x w else none
  | 0x09 => if x.atMostOne then dec09 x w else none
  | 0x0A => if x.atMostOne then dec0A x w else none
  | maj =>
    if x = .none then
      match maj with
      | 0x01 => dec01 w
      | 0x02 => dec02 w
      | 0x07 => dec07 w
      | 0x0B => dec0B w
      | 0x0C => dec0C w
      | 0x0D => dec0D w
      | 0x0E => dec0E w
      | 0x0F => dec0F w
      | 0x10 => dec10 w
      | 0x11 => dec11 w
      | 0x12 => dec12 w
      | 0x20 => dec20 w
      | 0x21 => dec21 w
      | 0x22 => dec22 w
      | 0x23 => dec23 w
      | 0x24 => dec24 w
      | 0x25 => dec25 w
      | 0x26 => dec26 w
      | 0x27 => dec27 w
      | 0x28 => dec28 w
      | 0x29 => dec29 w
      | 0x2A => dec2A w
      | 0x2B => dec2B w
      | 0x2C => dec2C w
      | 0x2D => dec2D w
      | 0x3E => dec3E w
      | _ => none
    else none

/-- What decoding the words at an address gives: an instruction and how many words it has, or the word at which
decoding failed and how many words stand up to it (R41, R47). -/
inductive Dec where
  | ok (i : Instr) (n : Nat)
  | bad (w : BitVec 32) (n : Nat)
deriving DecidableEq, Repr

/-- The major code of a prefix word (R50). -/
def isPfx (w : BitVec 32) : Bool := fld w 0 6 == 0x3F#6

def decodeLast (x : Pfx) (w : BitVec 32) : Dec :=
  match decodeWord x w with
  | some i => .ok i (x.count + 1)
  | none => .bad w (x.count + 1)

/-- Decodes the words at an address, first word first. A prefix with no word after it fails at itself (R47). -/
def decode : List (BitVec 32) → Dec
  | [] => .bad 0#32 0
  | w :: ws =>
    if isPfx w then
      match ws with
      | [] => .bad w 1
      | v :: vs =>
        if isPfx v then
          match vs with
          | [] => .bad v 2
          | u :: _ => decodeLast (.two (fld w 6 26) (fld v 6 26)) u
        else decodeLast (.one (fld w 6 26)) v
    else decodeLast .none w

/-- The instruction the decoder reads from `nbits` bits `w`, the first word lowest, every higher bit zero. -/
def decodeTableWord (nbits w : Nat) : Option Instr :=
  let v := w % 2 ^ nbits
  match decode [BitVec.ofNat 32 v, BitVec.ofNat 32 (v / 2 ^ 32), BitVec.ofNat 32 (v / 2 ^ 64)] with
  | .ok i _ => some i
  | .bad _ _ => none

/-! The formats (R42), fields from bit 31 down. -/

def fR (fn : BitVec 6) (x b a d : BitVec 5) (maj : BitVec 6) : BitVec 32 := fn ++ x ++ b ++ a ++ d ++ maj
def fC (fn : BitVec 6) (c : BitVec 8) (x : BitVec 2) (a d : BitVec 5) (maj : BitVec 6) : BitVec 32 := fn ++ c ++ x ++ a ++ d ++ maj
def fI (i : BitVec 12) (fn : BitVec 4) (a d : BitVec 5) (maj : BitVec 6) : BitVec 32 := i ++ fn ++ a ++ d ++ maj
def fJ (i : BitVec 21) (d : BitVec 5) (maj : BitVec 6) : BitVec 32 := i ++ d ++ maj
def fB (o : BitVec 13) (cnd : BitVec 3) (b a : BitVec 5) (maj : BitVec 6) : BitVec 32 := o ++ cnd ++ b ++ a ++ maj
def fM (o : BitVec 7) (ord : BitVec 2) (sc : BitVec 3) (dm : BitVec 1) (ty : BitVec 3) (a d : BitVec 5) (maj : BitVec 6) : BitVec 32 :=
  o ++ ord ++ sc ++ dm ++ ty ++ a ++ d ++ maj
def fT (o : BitVec 12) (dm : BitVec 1) (fn : BitVec 3) (a d : BitVec 5) (maj : BitVec 6) : BitVec 32 := o ++ dm ++ fn ++ a ++ d ++ maj
def fV2 (k ty : BitVec 3) (fn b a d : BitVec 5) (maj : BitVec 6) : BitVec 32 := k ++ ty ++ fn ++ b ++ a ++ d ++ maj
def fV3 (k : BitVec 3) (c b a d : BitVec 5) (fn : BitVec 3) (maj : BitVec 6) : BitVec 32 := k ++ c ++ b ++ a ++ d ++ fn ++ maj
def fVC (k : BitVec 3) (fn : BitVec 5) (c : BitVec 8) (a d : BitVec 5) (maj : BitVec 6) : BitVec 32 := k ++ fn ++ c ++ a ++ d ++ maj
def fVQ (k ty : BitVec 3) (ln : BitVec 6) (fn : BitVec 4) (q : BitVec 3) (v : BitVec 5) : BitVec 32 :=
  k ++ ty ++ ln ++ fn ++ 0#2 ++ q ++ v ++ 0x25#6
def fVM (k ty : BitVec 3) (p : BitVec 1) (q : BitVec 2) (o : BitVec 12) (d : BitVec 5) (maj : BitVec 6) : BitVec 32 :=
  k ++ ty ++ p ++ q ++ o ++ d ++ maj
def fVX (k ty : BitVec 3) (p : BitVec 1) (q : BitVec 2) (i d : BitVec 5) (maj : BitVec 6) : BitVec 32 :=
  k ++ ty ++ p ++ q ++ 0#7 ++ i ++ d ++ maj
def fMX (fn : BitVec 4) (c : BitVec 8) (s : BitVec 4) (w : BitVec 1) (md : BitVec 3) (t : BitVec 4) : BitVec 32 :=
  fn ++ c ++ s ++ w ++ md ++ 0#2 ++ t ++ 0x2D#6
def fH (k : BitVec 6) (g : BitVec 20) : BitVec 32 := k ++ g ++ 0x3E#6
/-- A prefix word (R46). -/
def fP (p : BitVec 26) : BitVec 32 := p ++ 0x3F#6

def Pfx.words : Pfx → List (BitVec 32)
  | .none => []
  | .one p => [fP p]
  | .two p q => [fP p, fP q]

/-- The words of a well-formed instruction, from the encodings of R42 to R45 and R51; a step of the machine has none. -/
def encode : Instr → List (BitVec 32)
  | .add t b a d => [fR 0x0#6 t.xf b a d 0x01#6]
  | .sub t b a d => [fR 0x1#6 t.xf b a d 0x01#6]
  | .and t b a d => [fR 0x2#6 t.xf b a d 0x01#6]
  | .or t b a d => [fR 0x3#6 t.xf b a d 0x01#6]
  | .xor t b a d => [fR 0x4#6 t.xf b a d 0x01#6]
  | .andn t b a d => [fR 0x5#6 t.xf b a d 0x01#6]
  | .orn t b a d => [fR 0x6#6 t.xf b a d 0x01#6]
  | .shl t b a d => [fR 0x7#6 t.xf b a d 0x01#6]
  | .shr t b a d => [fR 0x8#6 t.xf b a d 0x01#6]
  | .sra t b a d => [fR 0x9#6 t.xf b a d 0x01#6]
  | .ror t b a d => [fR 0xA#6 t.xf b a d 0x01#6]
  | .mul t b a d => [fR 0xB#6 t.xf b a d 0x01#6]
  | .mulh t b a d => [fR 0xC#6 t.xf b a d 0x01#6]
  | .mulhu t b a d => [fR 0xD#6 t.xf b a d 0x01#6]
  | .div t b a d => [fR 0xE#6 t.xf b a d 0x01#6]
  | .divu t b a d => [fR 0xF#6 t.xf b a d 0x01#6]
  | .rem t b a d => [fR 0x10#6 t.xf b a d 0x01#6]
  | .remu t b a d => [fR 0x11#6 t.xf b a d 0x01#6]
  | .min t b a d => [fR 0x12#6 t.xf b a d 0x01#6]
  | .max t b a d => [fR 0x13#6 t.xf b a d 0x01#6]
  | .minu t b a d => [fR 0x14#6 t.xf b a d 0x01#6]
  | .maxu t b a d => [fR 0x15#6 t.xf b a d 0x01#6]
  | .ceq t b a d => [fR 0x16#6 t.xf b a d 0x01#6]
  | .cne t b a d => [fR 0x17#6 t.xf b a d 0x01#6]
  | .clt t b a d => [fR 0x18#6 t.xf b a d 0x01#6]
  | .cltu t b a d => [fR 0x19#6 t.xf b a d 0x01#6]
  | .cle t b a d => [fR 0x1A#6 t.xf b a d 0x01#6]
  | .cleu t b a d => [fR 0x1B#6 t.xf b a d 0x01#6]
  | .abs t a d => [fR 0x1C#6 t.xf 0#5 a d 0x01#6]
  | .clz t a d => [fR 0x1D#6 t.xf 0#5 a d 0x01#6]
  | .ctz t a d => [fR 0x1E#6 t.xf 0#5 a d 0x01#6]
  | .popc t a d => [fR 0x1F#6 t.xf 0#5 a d 0x01#6]
  | .bfx t b a d => [fR 0x20#6 t.xf b a d 0x01#6]
  | .addConst c t a d => [fC 0x0#6 c t.xf2 a d 0x02#6]
  | .subConst c t a d => [fC 0x1#6 c t.xf2 a d 0x02#6]
  | .andConst c t a d => [fC 0x2#6 c t.xf2 a d 0x02#6]
  | .orConst c t a d => [fC 0x3#6 c t.xf2 a d 0x02#6]
  | .xorConst c t a d => [fC 0x4#6 c t.xf2 a d 0x02#6]
  | .andnConst c t a d => [fC 0x5#6 c t.xf2 a d 0x02#6]
  | .ornConst c t a d => [fC 0x6#6 c t.xf2 a d 0x02#6]
  | .shlConst c t a d => [fC 0x7#6 c t.xf2 a d 0x02#6]
  | .shrConst c t a d => [fC 0x8#6 c t.xf2 a d 0x02#6]
  | .sraConst c t a d => [fC 0x9#6 c t.xf2 a d 0x02#6]
  | .rorConst c t a d => [fC 0xA#6 c t.xf2 a d 0x02#6]
  | .mulConst c t a d => [fC 0xB#6 c t.xf2 a d 0x02#6]
  | .mulhConst c t a d => [fC 0xC#6 c t.xf2 a d 0x02#6]
  | .mulhuConst c t a d => [fC 0xD#6 c t.xf2 a d 0x02#6]
  | .divConst c t a d => [fC 0xE#6 c t.xf2 a d 0x02#6]
  | .divuConst c t a d => [fC 0xF#6 c t.xf2 a d 0x02#6]
  | .remConst c t a d => [fC 0x10#6 c t.xf2 a d 0x02#6]
  | .remuConst c t a d => [fC 0x11#6 c t.xf2 a d 0x02#6]
  | .minConst c t a d => [fC 0x12#6 c t.xf2 a d 0x02#6]
  | .maxConst c t a d => [fC 0x13#6 c t.xf2 a d 0x02#6]
  | .minuConst c t a d => [fC 0x14#6 c t.xf2 a d 0x02#6]
  | .maxuConst c t a d => [fC 0x15#6 c t.xf2 a d 0x02#6]
  | .ceqConst c t a d => [fC 0x16#6 c t.xf2 a d 0x02#6]
  | .cneConst c t a d => [fC 0x17#6 c t.xf2 a d 0x02#6]
  | .cltConst c t a d => [fC 0x18#6 c t.xf2 a d 0x02#6]
  | .cltuConst c t a d => [fC 0x19#6 c t.xf2 a d 0x02#6]
  | .cleConst c t a d => [fC 0x1A#6 c t.xf2 a d 0x02#6]
  | .cleuConst c t a d => [fC 0x1B#6 c t.xf2 a d 0x02#6]
  | .bfxConst c t a d => [fC 0x20#6 c t.xf2 a d 0x02#6]
  | .addImm x i a d => x.words ++ [fI i 0x0#4 a d 0x03#6]
  | .andImm x i a d => x.words ++ [fI i 0x1#4 a d 0x03#6]
  | .orImm x i a d => x.words ++ [fI i 0x2#4 a d 0x03#6]
  | .xorImm x i a d => x.words ++ [fI i 0x3#4 a d 0x03#6]
  | .shlImm x i a d => x.words ++ [fI i 0x4#4 a d 0x03#6]
  | .shrImm x i a d => x.words ++ [fI i 0x5#4 a d 0x03#6]
  | .sraImm x i a d => x.words ++ [fI i 0x6#4 a d 0x03#6]
  | .rorImm x i a d => x.words ++ [fI i 0x7#4 a d 0x03#6]
  | .mulImm x i a d => x.words ++ [fI i 0x8#4 a d 0x03#6]
  | .minImm x i a d => x.words ++ [fI i 0x9#4 a d 0x03#6]
  | .maxImm x i a d => x.words ++ [fI i 0xA#4 a d 0x03#6]
  | .ceqImm x i a d => x.words ++ [fI i 0xB#4 a d 0x03#6]
  | .cneImm x i a d => x.words ++ [fI i 0xC#4 a d 0x03#6]
  | .cltImm x i a d => x.words ++ [fI i 0xD#4 a d 0x03#6]
  | .cleImm x i a d => x.words ++ [fI i 0xE#4 a d 0x03#6]
  | .cltuImm x i a d => x.words ++ [fI i 0xF#4 a d 0x03#6]
  | .li x i d => x.words ++ [fJ i d 0x04#6]
  | .beq x o b a => x.words ++ [fB o 0x0#3 b a 0x05#6]
  | .bne x o b a => x.words ++ [fB o 0x1#3 b a 0x05#6]
  | .blt x o b a => x.words ++ [fB o 0x2#3 b a 0x05#6]
  | .bge x o b a => x.words ++ [fB o 0x3#3 b a 0x05#6]
  | .bltu x o b a => x.words ++ [fB o 0x4#3 b a 0x05#6]
  | .bgeu x o b a => x.words ++ [fB o 0x5#3 b a 0x05#6]
  | .loop x o a => x.words ++ [fB o 6#3 0#5 a 0x05#6]
  | .j x o => x.words ++ [fJ o 0#5 0x06#6]
  | .call x o d => x.words ++ [fJ o d 0x06#6]
  | .jr a d => [fR 0#6 0#5 0#5 a d 0x07#6]
  | .ld x o r sc t a d => x.words ++ [fM o r.code sc.code 0#1 t.code a d 0x08#6]
  | .st x o r sc m t a d => x.words ++ [fM o r.code sc.code m.code t.code3 a d 0x09#6]
  | .ldw x o a d => x.words ++ [fT o 0#1 0#3 a d 0x0A#6]
  | .take x o m a d => x.words ++ [fT o m.code 1#3 a d 0x0A#6]
  | .stw x o m a d => x.words ++ [fT o m.code 2#3 a d 0x0A#6]
  | .stf x o m a d => x.words ++ [fT o m.code 3#3 a d 0x0A#6]
  | .tset x o m a => x.words ++ [fT o m.code 4#3 a 0#5 0x0A#6]
  | .tclr x o m a => x.words ++ [fT o m.code 5#3 a 0#5 0x0A#6]
  | .trd x o a d => x.words ++ [fT o 0#1 6#3 a d 0x0A#6]
  | .twait x o a => x.words ++ [fT o 0#1 7#3 a 0#5 0x0A#6]
  | .ldx t b a d => [fR 0x00#6 (0#2 ++ t.code) b a d 0x0B#6]
  | .stx t b a d => [fR 0x01#6 (0#2 ++ t.code3) b a d 0x0B#6]
  | .ldp b a d => [fR 0x02#6 0#5 b a d 0x0B#6]
  | .stp b a d => [fR 0x03#6 0#5 b a d 0x0B#6]
  | .zblk a => [fR 0x04#6 0#5 0#5 a 0#5 0x0B#6]
  | .fence o sc => [fR 0x06#6 (o.code ++ sc.code) 0#5 0#5 0#5 0x0B#6]
  | .qpush a n => [fR 0x08#6 0#5 0#5 a (0#3 ++ n) 0x0B#6]
  | .qpop n d => [fR 0x09#6 0#5 0#5 (1#3 ++ n) d 0x0B#6]
  | .send m b a => [fR 0x00#6 (m.code2 ++ 0#3) b a 0#5 0x0C#6]
  | .sendi m b a => [fR 0x01#6 (m.code2 ++ 0#3) b a 0#5 0x0C#6]
  | .enq x d => [fR 0x02#6 (x.code ++ 0#3) x.rb 0#5 d 0x0C#6]
  | .defer a => [fR 4#6 0#5 0#5 a 0#5 0x0C#6]
  | .breg a => [fR 5#6 0#5 0#5 a 0#5 0x0C#6]
  | .barr a => [fR 6#6 0#5 0#5 a 0#5 0x0C#6]
  | .dnew a d => [fR 0#6 0#5 0#5 a d 0x0D#6]
  | .djoin x a d => [fR 1#6 (x.code ++ 0#3) x.rb a d 0x0D#6]
  | .dleave x a d => [fR 2#6 (x.code ++ 0#3) x.rb a d 0x0D#6]
  | .dannul x d => [fR 3#6 (x.code ++ 0#3) x.rb 0#5 d 0x0D#6]
  | .dwhen x a d => [fR 4#6 (x.code ++ 0#3) x.rb a d 0x0D#6]
  | .dmask x a d => [fR 5#6 (x.code ++ 0#3) x.rb a d 0x0D#6]
  | .nopen m b a d => [fR 0#6 (m.code2 ++ 0#3) b a d 0x0E#6]
  | .nopenWait m b a d => [fR 0#6 (m.code2 ++ 1#3) b a d 0x0E#6]
  | .nclose a d => [fR 1#6 0#5 0#5 a d 0x0E#6]
  | .nbind m a d => [fR 2#6 (m.code2 ++ 0#3) 0#5 a d 0x0E#6]
  | .nq b a d => [fR 3#6 0#5 b a d 0x0E#6]
  | .rseal b a d => [fR 4#6 0#5 b a d 0x0E#6]
  | .cpy m a d => [fR 0#6 (m.code2 ++ 0#3) 0#5 a d 0x0F#6]
  | .waitp a => [fR 1#6 0#5 0#5 a 0#5 0x0F#6]
  | .wm a d => [fR 2#6 0#5 0#5 a d 0x0F#6]
  | .aadd m t b a d => [fR 0#6 (m.code2 ++ t.xf3) b a d 0x10#6]
  | .amin m t b a d => [fR 1#6 (m.code2 ++ t.code) b a d 0x10#6]
  | .amax m t b a d => [fR 2#6 (m.code2 ++ t.code) b a d 0x10#6]
  | .aand m t b a d => [fR 3#6 (m.code2 ++ t.xf3) b a d 0x10#6]
  | .aor m t b a d => [fR 4#6 (m.code2 ++ t.xf3) b a d 0x10#6]
  | .axchg m t b a d => [fR 5#6 (m.code2 ++ t.xf3) b a d 0x10#6]
  | .acas m t b a d => [fR 6#6 (m.code2 ++ t.xf3) b a d 0x10#6]
  | .put x a d => [fR 0#6 (x.code ++ 0#3) x.rb a d 0x11#6]
  | .putsg x a d => [fR 1#6 (x.code ++ 0#3) x.rb a d 0x11#6]
  | .get x a d => [fR 2#6 (x.code ++ 0#3) x.rb a d 0x11#6]
  | .padd x a d => [fR 3#6 (x.code ++ 0#3) x.rb a d 0x11#6]
  | .arm x a d => [fR 4#6 (x.code ++ 0#3) x.rb a d 0x11#6]
  | .sigw b a d => [fR 5#6 0#5 b a d 0x11#6]
  | .ringj x a d => [fR 6#6 (x.code ++ 0#3) x.rb a d 0x11#6]
  | .cwr w d => [fI w.code 2#4 0#5 d 0x12#6]
  | .cww w a => [fI w.code 3#4 a 0#5 0x12#6]
  | .ckpt i => [fI i 4#4 0#5 0#5 0x12#6]
  | .time d => [fI 0#12 5#4 0#5 d 0x12#6]
  | .cyc d => [fI 0#12 6#4 0#5 d 0x12#6]
  | .waitc a => [fI 0#12 7#4 a 0#5 0x12#6]
  | .vadd k t b a d => [fV2 k t.code 0x0#5 b a d 0x20#6]
  | .vsub k t b a d => [fV2 k t.code 0x1#5 b a d 0x20#6]
  | .vmul k t b a d => [fV2 k t.code 0x2#5 b a d 0x20#6]
  | .vmin k t b a d => [fV2 k t.code 0x3#5 b a d 0x20#6]
  | .vmax k t b a d => [fV2 k t.code 0x4#5 b a d 0x20#6]
  | .vabs k t a d => [fV2 k t.code 0x5#5 0#5 a d 0x20#6]
  | .vneg k t a d => [fV2 k t.code 0x6#5 0#5 a d 0x20#6]
  | .vceq k t b a d => [fV2 k t.code 0x7#5 b a (0#2 ++ d) 0x20#6]
  | .vclt k t b a d => [fV2 k t.code 0x8#5 b a (0#2 ++ d) 0x20#6]
  | .vcle k t b a d => [fV2 k t.code 0x9#5 b a (0#2 ++ d) 0x20#6]
  | .vsel k t b a d => [fV2 k t.code 0xA#5 b a d 0x20#6]
  | .vand k t b a d => [fV2 k t.code 0xB#5 b a d 0x20#6]
  | .vor k t b a d => [fV2 k t.code 0xC#5 b a d 0x20#6]
  | .vxor k t b a d => [fV2 k t.code 0xD#5 b a d 0x20#6]
  | .vshl k b a d => [fV2 k 2#3 0xE#5 b a d 0x20#6]
  | .vshr k b a d => [fV2 k 2#3 0xF#5 b a d 0x20#6]
  | .vsra k b a d => [fV2 k 2#3 0x10#5 b a d 0x20#6]
  | .vcvt k t s a d => [fV2 k t.code 0x11#5 (0#2 ++ s.code) a d 0x20#6]
  | .vrcp k t a d => [fV2 k t.code 0x12#5 0#5 a d 0x20#6]
  | .vrsq k t a d => [fV2 k t.code 0x13#5 0#5 a d 0x20#6]
  | .vexp k t a d => [fV2 k t.code 0x14#5 0#5 a d 0x20#6]
  | .vlog k t a d => [fV2 k t.code 0x15#5 0#5 a d 0x20#6]
  | .vtanh k t a d => [fV2 k t.code 0x16#5 0#5 a d 0x20#6]
  | .vsig k t a d => [fV2 k t.code 0x17#5 0#5 a d 0x20#6]
  | .vperm k b a d => [fV2 k 2#3 0x18#5 b a d 0x20#6]
  | .vfmaF32 k c b a d => [fV3 k c b a d 0#3 0x21#6]
  | .vfmaBf16 k c b a d => [fV3 k c b a d 1#3 0x21#6]
  | .vfmsF32 k c b a d => [fV3 k c b a d 2#3 0x21#6]
  | .vfmsBf16 k c b a d => [fV3 k c b a d 3#3 0x21#6]
  | .vfmaI32 k c b a d => [fV3 k c b a d 4#3 0x21#6]
  | .vfmsI32 k c b a d => [fV3 k c b a d 5#3 0x21#6]
  | .vaddF32Const k c a d => [fVC k 0x0#5 c a d 0x22#6]
  | .vsubF32Const k c a d => [fVC k 0x1#5 c a d 0x22#6]
  | .vmulF32Const k c a d => [fVC k 0x2#5 c a d 0x22#6]
  | .vminF32Const k c a d => [fVC k 0x3#5 c a d 0x22#6]
  | .vmaxF32Const k c a d => [fVC k 0x4#5 c a d 0x22#6]
  | .vceqF32Const k c a d => [fVC k 0x7#5 c a (0#2 ++ d) 0x22#6]
  | .vcltF32Const k c a d => [fVC k 0x8#5 c a (0#2 ++ d) 0x22#6]
  | .vcleF32Const k c a d => [fVC k 0x9#5 c a (0#2 ++ d) 0x22#6]
  | .vandF32Const k c a d => [fVC k 0xB#5 c a d 0x22#6]
  | .vorF32Const k c a d => [fVC k 0xC#5 c a d 0x22#6]
  | .vxorF32Const k c a d => [fVC k 0xD#5 c a d 0x22#6]
  | .vaddBf16Const k c a d => [fVC k 0x0#5 c a d 0x23#6]
  | .vsubBf16Const k c a d => [fVC k 0x1#5 c a d 0x23#6]
  | .vmulBf16Const k c a d => [fVC k 0x2#5 c a d 0x23#6]
  | .vminBf16Const k c a d => [fVC k 0x3#5 c a d 0x23#6]
  | .vmaxBf16Const k c a d => [fVC k 0x4#5 c a d 0x23#6]
  | .vceqBf16Const k c a d => [fVC k 0x7#5 c a (0#2 ++ d) 0x23#6]
  | .vcltBf16Const k c a d => [fVC k 0x8#5 c a (0#2 ++ d) 0x23#6]
  | .vcleBf16Const k c a d => [fVC k 0x9#5 c a (0#2 ++ d) 0x23#6]
  | .vandBf16Const k c a d => [fVC k 0xB#5 c a d 0x23#6]
  | .vorBf16Const k c a d => [fVC k 0xC#5 c a d 0x23#6]
  | .vxorBf16Const k c a d => [fVC k 0xD#5 c a d 0x23#6]
  | .vaddI32Const k c a d => [fVC k 0x0#5 c a d 0x24#6]
  | .vsubI32Const k c a d => [fVC k 0x1#5 c a d 0x24#6]
  | .vmulI32Const k c a d => [fVC k 0x2#5 c a d 0x24#6]
  | .vminI32Const k c a d => [fVC k 0x3#5 c a d 0x24#6]
  | .vmaxI32Const k c a d => [fVC k 0x4#5 c a d 0x24#6]
  | .vceqI32Const k c a d => [fVC k 0x7#5 c a (0#2 ++ d) 0x24#6]
  | .vcltI32Const k c a d => [fVC k 0x8#5 c a (0#2 ++ d) 0x24#6]
  | .vcleI32Const k c a d => [fVC k 0x9#5 c a (0#2 ++ d) 0x24#6]
  | .vandI32Const k c a d => [fVC k 0xB#5 c a d 0x24#6]
  | .vorI32Const k c a d => [fVC k 0xC#5 c a d 0x24#6]
  | .vxorI32Const k c a d => [fVC k 0xD#5 c a d 0x24#6]
  | .vshlI32Const k c a d => [fVC k 0xE#5 c a d 0x24#6]
  | .vshrI32Const k c a d => [fVC k 0xF#5 c a d 0x24#6]
  | .vsraI32Const k c a d => [fVC k 0x10#5 c a d 0x24#6]
  | .vext t l q v => [fVQ 0#3 t.code l 0#4 (1#1 ++ q) v]
  | .vins t l q v => [fVQ 0#3 t.code l 1#4 (0#1 ++ q) v]
  | .vbc k t q v => [fVQ k t.code 0#6 2#4 (0#1 ++ q) v]
  | .vred k t q v => [fVQ k t.code 0#6 3#4 (1#1 ++ q) v]
  | .vrmax k t q v => [fVQ k t.code 0#6 4#4 (1#1 ++ q) v]
  | .vrmin k t q v => [fVQ k t.code 0#6 5#4 (1#1 ++ q) v]
  | .kget q r => [fVQ 0#3 0#3 0#6 6#4 (1#1 ++ q) (0#2 ++ r)]
  | .kput q r => [fVQ 0#3 0#3 0#6 7#4 (0#1 ++ q) (0#2 ++ r)]
  | .vld k t p q o d => [fVM k t.code (BitVec.ofBool p) q o d 0x26#6]
  | .vst k t p q o d => [fVM k t.code (BitVec.ofBool p) q o d 0x27#6]
  | .vbld k t p q o d => [fVM k t.code (BitVec.ofBool p) q o d 0x28#6]
  | .vbst k t p q o d => [fVM k t.code (BitVec.ofBool p) q o d 0x29#6]
  | .vgath k t p q i d => [fVX k t.code (BitVec.ofBool p) q i d 0x2A#6]
  | .vscat k t p q i d => [fVX k t.code (BitVec.ofBool p) q i d 0x2B#6]
  | .smode c d => [fVC 0#3 0#5 c 0#5 (3#2 ++ d) 0x2C#6]
  | .soff d => [fVC 0#3 1#5 0#8 0#5 (3#2 ++ d) 0x2C#6]
  | .mma c w l g y t => [fMX 0#4 c 0#4 (BitVec.ofBool w) (BitVec.ofBool l ++ BitVec.ofBool g ++ y.code) t]
  | .mmaj c w l g y t => [fMX 1#4 c 0#4 (BitVec.ofBool w) (BitVec.ofBool l ++ BitVec.ofBool g ++ y.code) t]
  | .aclr t => [fMX 2#4 0#8 0#4 0#1 0#3 t]
  | .acpy s t => [fMX 3#4 0#8 s 0#1 0#3 t]
  | .radd s t => [fMX 4#4 0#8 s 0#1 0#3 t]
  | .rscl j t => [fMX 5#4 0#8 0#4 0#1 j t]
  | .rdout c y t => [fMX 6#4 c 0#4 0#1 y.code t]
  | .publOpen t => [fMX 7#4 0#8 0#4 0#1 0#3 t]
  | .publClose t => [fMX 7#4 0#8 0#4 0#1 1#3 t]
  | .still c => [fMX 8#4 c 0#4 0#1 0#3 0#4]
  | .aspl c t => [fMX 9#4 c 0#4 0#1 0#3 t]
  | .afil c t => [fMX 10#4 c 0#4 0#1 0#3 t]
  | .mwait c => [fMX 11#4 c 0#4 0#1 0#3 0#4]
  | .pf => [fR 0x05#6 0#5 0#5 0#5 0#5 0x0B#6]
  | .drain => [fR 0x07#6 0#5 0#5 0#5 0#5 0x0B#6]
  | .done => [fR 0x03#6 0#5 0#5 0#5 0#5 0x0C#6]
  | .xfence => [fR 3#6 0#5 0#5 0#5 0#5 0x0F#6]
  | .trap => [fI 0#12 0#4 0#5 0#5 0x12#6]
  | .eret => [fI 0#12 1#4 0#5 0#5 0x12#6]
  | .brk => [fI 0#12 8#4 0#5 0#5 0x12#6]
  | .nop => [fH 0#6 0#20]
  | .hintPoll => [fH 1#6 0#20]
  | .hintMark => [fH 2#6 0#20]
  | .hintOther => [fH 3#6 0#20]
  | .illegalInstruction => []
  | .wDispatch _ => []
  | .wIssue _ => []
  | .wWriteLanding _ => []
  | .stripFetch _ _ => []
  | .slicePartStart _ => []
  | .slicePartComplete _ => []
  | .gangStart _ => []
  | .gangComplete _ => []
  | .mmajIterationBoundary _ => []
  | .gangto _ => []
  | .rippleArrival _ => []
  | .markArrival _ => []
  | .rippleAck _ _ _ => []
  | .rippleResend _ => []
  | .remoteTileArrival _ => []
  | .wbHeldWrite _ => []
  | .activationStart _ => []
  | .activationEnd _ => []
  | .deferEligible _ _ _ => []
  | .messageArrival _ => []
  | .outboundEntryFree _ => []
  | .packetHop _ => []
  | .packetAgedOut _ => []
  | .domainCacheFill _ _ => []
  | .domainCacheUpdate _ _ => []
  | .domainExpiry _ => []
  | .annulmentNotice _ _ => []
  | .peerNoticeResend _ _ => []
  | .domainIdFree _ => []
  | .peerPacketReceive _ _ => []
  | .shadowNotice _ => []
  | .storePerform _ _ => []
  | .loadReply _ _ => []
  | .taggedWaitWake _ => []
  | .waitLimitExpiry _ => []
  | .cycleWaitEnd _ => []
  | .fenceDrainEnd _ => []
  | .serviceReply _ => []
  | .barrierArrival _ _ => []
  | .trapEntry _ => []
  | .clusterReport _ => []
  | .recordReady _ _ => []
  | .leaseGrant _ _ _ => []
  | .leaseRefusal _ _ => []
  | .taskPlacement _ _ => []
  | .gangReservation _ _ => []
  | .taskComplete _ _ => []
  | .jobRelease _ _ => []
  | .jobStart _ _ => []
  | .jobIteration _ _ _ => []
  | .jobComplete _ _ => []
  | .dropNoticeArrival _ _ => []
  | .putDataArrival _ => []
  | .signalSend _ _ => []
  | .signalArrival _ => []
  | .heldFiringSubmit _ => []
  | .atomicPerform _ _ => []
  | .ringJobStart _ => []
  | .ringChunkStep _ _ => []
  | .ringLossTimeout _ => []
  | .lossMarkArrival _ _ => []
  | .ringJobEnd _ => []
  | .tableWalk _ _ _ => []
  | .lateViolationReport _ _ _ _ => []
  | .shootdown _ => []
  | .clusterShootdownAck _ => []
  | .shootdownComplete => []
  | .leaseRecall _ _ => []
  | .leaseRecallTimeout _ => []
  | .peerAccess _ => []
  | .faultRetry _ _ => []
  | .faultDeny _ _ => []
  | .faultAck _ _ => []
  | .thaw _ _ => []
  | .coreRetire _ => []
  | .preemptRequest _ => []
  | .preemptTimeout _ => []
  | .contextResume _ _ => []
  | .haltRequest _ => []
  | .haltRelease _ => []
  | .singleStep _ => []
  | .debugHalt _ => []
  | .counterProgram _ _ _ => []
  | .counterOverflow _ _ => []
  | .accumulatorReadClear _ => []
  | .flitReceive _ _ _ _ _ => []
  | .flitResend _ => []
  | .linkDown _ => []
  | .frameReceive _ _ _ => []
  | .frameHeldRelease _ => []
  | .egressTailWrite _ _ => []
  | .frameTransmit _ _ => []
  | .ptpLockChange _ _ => []
  | .hostMemoryAccess _ => []
  | .doorbell _ _ => []
  | .ctlEnable _ _ => []
  | .ctlRestart _ => []
  | .registerWrite _ => []
  | .nopPacket _ _ => []
  | .launch _ _ => []
  | .indirect _ _ _ _ => []
  | .annul _ _ => []
  | .queueStop _ _ => []
  | .launchComplete _ => []
  | .irqCoalesceTimeout _ => []
  | .powerOn _ => []
  | .firmwareHandover _ => []
  | .handoverTimeout => []
  | .spdmRequest _ => []
  | .checkpoint => []
  | .restore => []
  | .powerLimitGate => []
  | .contextDestroyed _ => []
  | .powerLimitCleared => []
  | .newImageReady => []
  | .linkLiveAgain _ => []

/-! The words of the spec's worked encodings, read by the decoder. -/

theorem decode_add_const : decode [0x00500142#32] = .ok (.addConst 20#8 .i64 0#5 5#5) 1 := by decide

end Sys2Proof
end

