-- ==== Sys2Proof/Machine/Operands.lean ====
section
/-! DEFINITION. The operand forms: immediates and offsets with their prefixes (03 R45, R46), constant-window operands (02
R29), domain positions (03 R43, 08 R139, R140). -/

namespace Sys2Proof.Machine

/-- The last prefix before the word. -/
def pfxLast : Pfx → BitVec 26
  | .none => 0#26
  | .one p => p
  | .two _ q => q

/-- The words of an instruction with these prefixes. -/
def words (x : Pfx) : Nat := x.count + 1

/-- IMM of MAJ 0x03 (R45). -/
def immI (x : Pfx) (i : BitVec 12) : Word :=
  match x with
  | .none => i.signExtend 64
  | .one p => (p ++ i).signExtend 64
  | .two p q => p ++ q ++ i

/-- IMM of `li` (R45). -/
def immLi (x : Pfx) (i : BitVec 21) : Word :=
  match x with
  | .none => i.signExtend 64
  | _ => (pfxLast x ++ i).signExtend 64

/-- OFF of `j` and `call`, in bytes (R45). -/
def offJ (x : Pfx) (o : BitVec 21) : Word := immLi x o <<< 2

/-- OFF of the branches, in bytes (R45). -/
def offB (x : Pfx) (o : BitVec 13) : Word :=
  (match x with
   | .none => o.signExtend 64
   | _ => (pfxLast x ++ o).signExtend 64 : Word) <<< 2

/-- OFF of `ld` and `st`, in bytes for an access size (R45). -/
def offM (x : Pfx) (o : BitVec 7) (size : Nat) : Word :=
  (match x with
   | .none => o.signExtend 64
   | _ => (pfxLast x ++ o).signExtend 64) * BitVec.ofNat 64 size

/-- OFF of the tagged operations, in bytes (R45). -/
def offT (x : Pfx) (o : BitVec 12) : Word :=
  (match x with
   | .none => o.signExtend 64
   | _ => (pfxLast x ++ o).signExtend 64 : Word) <<< 3

/-- The domain that a position of one bit gives to work of the current core, with the instant that the domain has now (R139; log
entry 94). -/
def State.dm (s : State) : Dm → DTag
  | .inh => s.dtag s.me.c.dom
  | .imm => DTag.imm

/-- A domain that a register may name (R140): domain 0, a free id, or a domain of the activation's context. -/
def State.domOk (s : State) (d : Dom) : Bool :=
  decide (d = 0#16 ∨ (s.dom d).st = .free ∨ (s.dom d).ctx = (s.who s.cur false).ctx)

/-- The domain a position names (R150): none where a register names a domain of another context (R140), with its id. -/
def State.dmr (s : State) : DmR → Dom × Bool
  | .inh => (s.me.c.dom.id, true)
  | .imm => (0#16, true)
  | .reg b =>
    let d : Dom := (s.me.rs b).setWidth 16
    (d, s.domOk d)

/-- Sizes of the access types (R43). -/
def mSize : MTy → Nat
  | .i8 | .u8 => 1
  | .i16 | .u16 => 2
  | .i32 | .u32 => 4
  | .i64 | .u64 => 8
def mSigned : MTy → Bool
  | .i8 | .i16 | .i32 | .i64 => true
  | _ => false
def stSize : StTy → Nat
  | .i8 => 1
  | .i16 => 2
  | .i32 => 4
  | .i64 => 8

/-- A loaded value widened to a register (R88). -/
def widen (sgnd : Bool) (n : Nat) (bs : List Byte) : Word :=
  let v := leNat bs
  if sgnd then (BitVec.ofNat (8 * n) v).signExtend 64 else BitVec.ofNat 64 v

end Sys2Proof.Machine
end

