-- ==== Sys2Proof/Machine/Scalar.lean ====
section
/-! DEFINITION. Scalar integer instructions (05_scalar_instructions.md R78 to R83). -/

namespace Sys2Proof.Machine

def width : STy → Nat
  | .i64 => 64
  | .i32 => 32

/-- A function of the width and both readings of each operand (R80). -/
abbrev ScFn := Nat → Int → Nat → Int → Nat → Int

/-- R80 lines 1 to 4. -/
def scalar (f : ScFn) (t : STy) (a b : Word) : Word :=
  let w := width t
  let x := a.setWidth w
  let y := b.setWidth w
  (BitVec.ofInt w (f w x.toInt x.toNat y.toInt y.toNat)).signExtend 64

/-- Trailing zeros of the low `w` bits; `w` for 0. -/
def trailing : Nat → Nat → Nat
  | 0, _ => 0
  | w + 1, n => if n % 2 = 1 then 0 else trailing w (n / 2) + 1

/-- Ones in the low `w` bits. -/
def ones : Nat → Nat → Nat
  | 0, _ => 0
  | w + 1, n => n % 2 + ones w (n / 2)

/-- `add` (R80). -/
def scAdd : ScFn := fun _w sa _ua sb _ub => sa + sb
/-- `sub` (R80). -/
def scSub : ScFn := fun _w sa _ua sb _ub => sa - sb
/-- `and` (R80). -/
def scAnd : ScFn := fun _w _sa ua _sb ub => (ua &&& ub : Nat)
/-- `or` (R80). -/
def scOr : ScFn := fun _w _sa ua _sb ub => (ua ||| ub : Nat)
/-- `xor` (R80). -/
def scXor : ScFn := fun _w _sa ua _sb ub => (ua ^^^ ub : Nat)
/-- `andn` (R80). -/
def scAndn : ScFn := fun w _sa ua _sb ub => (ua &&& (2 ^ w - 1 - ub) : Nat)
/-- `orn` (R80). -/
def scOrn : ScFn := fun w _sa ua _sb ub => (ua ||| (2 ^ w - 1 - ub) : Nat)
/-- `shl` (R80). -/
def scShl : ScFn := fun w _sa ua _sb ub => (ua * 2 ^ (ub % w) : Nat)
/-- `shr` (R80). -/
def scShr : ScFn := fun w _sa ua _sb ub => (ua / 2 ^ (ub % w) : Nat)
/-- `sra` (R80). -/
def scSra : ScFn := fun w sa _ua _sb ub => sa / 2 ^ (ub % w)
/-- `ror` (R80). -/
def scRor : ScFn := fun w _sa ua _sb ub => (ua / 2 ^ (ub % w) + ua * 2 ^ (w - ub % w) : Nat)
/-- `mul` (R80). -/
def scMul : ScFn := fun _w sa _ua sb _ub => sa * sb
/-- `mulh` (R80). -/
def scMulh : ScFn := fun w sa _ua sb _ub => sa * sb / 2 ^ w
/-- `mulhu` (R80). -/
def scMulhu : ScFn := fun w _sa ua _sb ub => (ua * ub / 2 ^ w : Nat)
/-- `div` (R81). -/
def scDiv : ScFn := fun _w sa _ua sb ub => if ub = 0 then -1 else sa.tdiv sb
/-- `divu` (R81). -/
def scDivu : ScFn := fun w _sa ua _sb ub => if ub = 0 then 2 ^ w - 1 else (ua / ub : Nat)
/-- `rem` (R81). -/
def scRem : ScFn := fun _w sa _ua sb ub => if ub = 0 then sa else sa.tmod sb
/-- `remu` (R81). -/
def scRemu : ScFn := fun _w _sa ua _sb ub => if ub = 0 then (ua : Int) else (ua % ub : Nat)
/-- `min` (R80). -/
def scMin : ScFn := fun _w sa _ua sb _ub => min sa sb
/-- `max` (R80). -/
def scMax : ScFn := fun _w sa _ua sb _ub => max sa sb
/-- `minu` (R80). -/
def scMinu : ScFn := fun _w _sa ua _sb ub => (min ua ub : Nat)
/-- `maxu` (R80). -/
def scMaxu : ScFn := fun _w _sa ua _sb ub => (max ua ub : Nat)
/-- `ceq` (R80). -/
def scCeq : ScFn := fun _w _sa ua _sb ub => if ua = ub then 1 else 0
/-- `cne` (R80). -/
def scCne : ScFn := fun _w _sa ua _sb ub => if ua ≠ ub then 1 else 0
/-- `clt` (R80). -/
def scClt : ScFn := fun _w sa _ua sb _ub => if sa < sb then 1 else 0
/-- `cltu` (R80). -/
def scCltu : ScFn := fun _w _sa ua _sb ub => if ua < ub then 1 else 0
/-- `cle` (R80). -/
def scCle : ScFn := fun _w sa _ua sb _ub => if sa ≤ sb then 1 else 0
/-- `cleu` (R80). -/
def scCleu : ScFn := fun _w _sa ua _sb ub => if ua ≤ ub then 1 else 0
/-- `abs` (R80). -/
def scAbs : ScFn := fun _w sa _ua _sb _ub => (sa.natAbs : Int)
/-- `clz` (R80). -/
def scClz : ScFn := fun w _sa ua _sb _ub => ((w - bitLen ua : Nat) : Int)
/-- `ctz` (R80). -/
def scCtz : ScFn := fun w _sa ua _sb _ub => (trailing w ua : Int)
/-- `popc` (R80). -/
def scPopc : ScFn := fun w _sa ua _sb _ub => (ones w ua : Int)
/-- `bfx` (R82). -/
def scBfx : ScFn := fun _w _sa ua _sb ub => (ua / 2 ^ (ub % 64) % 2 ^ (ub / 64 % 128) : Nat)

/-- A register form (R79): cycles as in R78. -/
def scReg (f : ScFn) (cost : Nat) (t : STy) (b a d : Reg) (s : State) : Out1 :=
  .next (s.sDone 1 cost fun c => c.ws d (scalar f t (s.me.rs a) (s.me.rs b)))

/-- A constant form: the window word is read at issue (R29, R79). -/
def scConst (f : ScFn) (cost : Nat) (k : CIx) (t : STy) (a d : Reg) (s : State) : Out1 :=
  .next (s.sDone 1 cost fun c => c.ws d (scalar f t (s.me.rs a) (s.me.cw k)))

/-- An immediate form, always i64 (R79). -/
def scImm (f : ScFn) (cost : Nat) (x : Pfx) (i : BitVec 12) (a d : Reg) (s : State) : Out1 :=
  .next (s.sDone (words x) cost fun c => c.ws d (scalar f .i64 (s.me.rs a) (immI x i)))

/-- `add rd, ra, rb` (R80). -/
def execAdd (t : STy) (b a d : Reg) (s : State) : Out1 := scReg scAdd 1 t b a d s
/-- `add rd, ra, cN` (R80). -/
def execAddConst (k : CIx) (t : STy) (a d : Reg) (s : State) : Out1 := scConst scAdd 1 k t a d s
/-- `sub rd, ra, rb` (R80). -/
def execSub (t : STy) (b a d : Reg) (s : State) : Out1 := scReg scSub 1 t b a d s
/-- `sub rd, ra, cN` (R80). -/
def execSubConst (k : CIx) (t : STy) (a d : Reg) (s : State) : Out1 := scConst scSub 1 k t a d s
/-- `and rd, ra, rb` (R80). -/
def execAnd (t : STy) (b a d : Reg) (s : State) : Out1 := scReg scAnd 1 t b a d s
/-- `and rd, ra, cN` (R80). -/
def execAndConst (k : CIx) (t : STy) (a d : Reg) (s : State) : Out1 := scConst scAnd 1 k t a d s
/-- `or rd, ra, rb` (R80). -/
def execOr (t : STy) (b a d : Reg) (s : State) : Out1 := scReg scOr 1 t b a d s
/-- `or rd, ra, cN` (R80). -/
def execOrConst (k : CIx) (t : STy) (a d : Reg) (s : State) : Out1 := scConst scOr 1 k t a d s
/-- `xor rd, ra, rb` (R80). -/
def execXor (t : STy) (b a d : Reg) (s : State) : Out1 := scReg scXor 1 t b a d s
/-- `xor rd, ra, cN` (R80). -/
def execXorConst (k : CIx) (t : STy) (a d : Reg) (s : State) : Out1 := scConst scXor 1 k t a d s
/-- `andn rd, ra, rb` (R80). -/
def execAndn (t : STy) (b a d : Reg) (s : State) : Out1 := scReg scAndn 1 t b a d s
/-- `andn rd, ra, cN` (R80). -/
def execAndnConst (k : CIx) (t : STy) (a d : Reg) (s : State) : Out1 := scConst scAndn 1 k t a d s
/-- `orn rd, ra, rb` (R80). -/
def execOrn (t : STy) (b a d : Reg) (s : State) : Out1 := scReg scOrn 1 t b a d s
/-- `orn rd, ra, cN` (R80). -/
def execOrnConst (k : CIx) (t : STy) (a d : Reg) (s : State) : Out1 := scConst scOrn 1 k t a d s
/-- `shl rd, ra, rb` (R80). -/
def execShl (t : STy) (b a d : Reg) (s : State) : Out1 := scReg scShl 1 t b a d s
/-- `shl rd, ra, cN` (R80). -/
def execShlConst (k : CIx) (t : STy) (a d : Reg) (s : State) : Out1 := scConst scShl 1 k t a d s
/-- `shr rd, ra, rb` (R80). -/
def execShr (t : STy) (b a d : Reg) (s : State) : Out1 := scReg scShr 1 t b a d s
/-- `shr rd, ra, cN` (R80). -/
def execShrConst (k : CIx) (t : STy) (a d : Reg) (s : State) : Out1 := scConst scShr 1 k t a d s
/-- `sra rd, ra, rb` (R80). -/
def execSra (t : STy) (b a d : Reg) (s : State) : Out1 := scReg scSra 1 t b a d s
/-- `sra rd, ra, cN` (R80). -/
def execSraConst (k : CIx) (t : STy) (a d : Reg) (s : State) : Out1 := scConst scSra 1 k t a d s
/-- `ror rd, ra, rb` (R80). -/
def execRor (t : STy) (b a d : Reg) (s : State) : Out1 := scReg scRor 1 t b a d s
/-- `ror rd, ra, cN` (R80). -/
def execRorConst (k : CIx) (t : STy) (a d : Reg) (s : State) : Out1 := scConst scRor 1 k t a d s
/-- `mul rd, ra, rb` (R80). -/
def execMul (t : STy) (b a d : Reg) (s : State) : Out1 := scReg scMul 3 t b a d s
/-- `mul rd, ra, cN` (R80). -/
def execMulConst (k : CIx) (t : STy) (a d : Reg) (s : State) : Out1 := scConst scMul 3 k t a d s
/-- `mulh rd, ra, rb` (R80). -/
def execMulh (t : STy) (b a d : Reg) (s : State) : Out1 := scReg scMulh 3 t b a d s
/-- `mulh rd, ra, cN` (R80). -/
def execMulhConst (k : CIx) (t : STy) (a d : Reg) (s : State) : Out1 := scConst scMulh 3 k t a d s
/-- `mulhu rd, ra, rb` (R80). -/
def execMulhu (t : STy) (b a d : Reg) (s : State) : Out1 := scReg scMulhu 3 t b a d s
/-- `mulhu rd, ra, cN` (R80). -/
def execMulhuConst (k : CIx) (t : STy) (a d : Reg) (s : State) : Out1 := scConst scMulhu 3 k t a d s
/-- `div rd, ra, rb` (R81). -/
def execDiv (t : STy) (b a d : Reg) (s : State) : Out1 := scReg scDiv 34 t b a d s
/-- `div rd, ra, cN` (R81). -/
def execDivConst (k : CIx) (t : STy) (a d : Reg) (s : State) : Out1 := scConst scDiv 34 k t a d s
/-- `divu rd, ra, rb` (R81). -/
def execDivu (t : STy) (b a d : Reg) (s : State) : Out1 := scReg scDivu 34 t b a d s
/-- `divu rd, ra, cN` (R81). -/
def execDivuConst (k : CIx) (t : STy) (a d : Reg) (s : State) : Out1 := scConst scDivu 34 k t a d s
/-- `rem rd, ra, rb` (R81). -/
def execRem (t : STy) (b a d : Reg) (s : State) : Out1 := scReg scRem 34 t b a d s
/-- `rem rd, ra, cN` (R81). -/
def execRemConst (k : CIx) (t : STy) (a d : Reg) (s : State) : Out1 := scConst scRem 34 k t a d s
/-- `remu rd, ra, rb` (R81). -/
def execRemu (t : STy) (b a d : Reg) (s : State) : Out1 := scReg scRemu 34 t b a d s
/-- `remu rd, ra, cN` (R81). -/
def execRemuConst (k : CIx) (t : STy) (a d : Reg) (s : State) : Out1 := scConst scRemu 34 k t a d s
/-- `min rd, ra, rb` (R80). -/
def execMin (t : STy) (b a d : Reg) (s : State) : Out1 := scReg scMin 1 t b a d s
/-- `min rd, ra, cN` (R80). -/
def execMinConst (k : CIx) (t : STy) (a d : Reg) (s : State) : Out1 := scConst scMin 1 k t a d s
/-- `max rd, ra, rb` (R80). -/
def execMax (t : STy) (b a d : Reg) (s : State) : Out1 := scReg scMax 1 t b a d s
/-- `max rd, ra, cN` (R80). -/
def execMaxConst (k : CIx) (t : STy) (a d : Reg) (s : State) : Out1 := scConst scMax 1 k t a d s
/-- `minu rd, ra, rb` (R80). -/
def execMinu (t : STy) (b a d : Reg) (s : State) : Out1 := scReg scMinu 1 t b a d s
/-- `minu rd, ra, cN` (R80). -/
def execMinuConst (k : CIx) (t : STy) (a d : Reg) (s : State) : Out1 := scConst scMinu 1 k t a d s
/-- `maxu rd, ra, rb` (R80). -/
def execMaxu (t : STy) (b a d : Reg) (s : State) : Out1 := scReg scMaxu 1 t b a d s
/-- `maxu rd, ra, cN` (R80). -/
def execMaxuConst (k : CIx) (t : STy) (a d : Reg) (s : State) : Out1 := scConst scMaxu 1 k t a d s
/-- `ceq rd, ra, rb` (R80). -/
def execCeq (t : STy) (b a d : Reg) (s : State) : Out1 := scReg scCeq 1 t b a d s
/-- `ceq rd, ra, cN` (R80). -/
def execCeqConst (k : CIx) (t : STy) (a d : Reg) (s : State) : Out1 := scConst scCeq 1 k t a d s
/-- `cne rd, ra, rb` (R80). -/
def execCne (t : STy) (b a d : Reg) (s : State) : Out1 := scReg scCne 1 t b a d s
/-- `cne rd, ra, cN` (R80). -/
def execCneConst (k : CIx) (t : STy) (a d : Reg) (s : State) : Out1 := scConst scCne 1 k t a d s
/-- `clt rd, ra, rb` (R80). -/
def execClt (t : STy) (b a d : Reg) (s : State) : Out1 := scReg scClt 1 t b a d s
/-- `clt rd, ra, cN` (R80). -/
def execCltConst (k : CIx) (t : STy) (a d : Reg) (s : State) : Out1 := scConst scClt 1 k t a d s
/-- `cltu rd, ra, rb` (R80). -/
def execCltu (t : STy) (b a d : Reg) (s : State) : Out1 := scReg scCltu 1 t b a d s
/-- `cltu rd, ra, cN` (R80). -/
def execCltuConst (k : CIx) (t : STy) (a d : Reg) (s : State) : Out1 := scConst scCltu 1 k t a d s
/-- `cle rd, ra, rb` (R80). -/
def execCle (t : STy) (b a d : Reg) (s : State) : Out1 := scReg scCle 1 t b a d s
/-- `cle rd, ra, cN` (R80). -/
def execCleConst (k : CIx) (t : STy) (a d : Reg) (s : State) : Out1 := scConst scCle 1 k t a d s
/-- `cleu rd, ra, rb` (R80). -/
def execCleu (t : STy) (b a d : Reg) (s : State) : Out1 := scReg scCleu 1 t b a d s
/-- `cleu rd, ra, cN` (R80). -/
def execCleuConst (k : CIx) (t : STy) (a d : Reg) (s : State) : Out1 := scConst scCleu 1 k t a d s
/-- `abs rd, ra` (R80). -/
def execAbs (t : STy) (a d : Reg) (s : State) : Out1 := scReg scAbs 1 t 0#5 a d s
/-- `clz rd, ra` (R80). -/
def execClz (t : STy) (a d : Reg) (s : State) : Out1 := scReg scClz 1 t 0#5 a d s
/-- `ctz rd, ra` (R80). -/
def execCtz (t : STy) (a d : Reg) (s : State) : Out1 := scReg scCtz 1 t 0#5 a d s
/-- `popc rd, ra` (R80). -/
def execPopc (t : STy) (a d : Reg) (s : State) : Out1 := scReg scPopc 1 t 0#5 a d s
/-- `bfx rd, ra, rb` (R82). -/
def execBfx (t : STy) (b a d : Reg) (s : State) : Out1 := scReg scBfx 1 t b a d s
/-- `bfx rd, ra, cN` (R82). -/
def execBfxConst (k : CIx) (t : STy) (a d : Reg) (s : State) : Out1 := scConst scBfx 1 k t a d s
/-- `add rd, ra, expr` (R80). -/
def execAddImm (x : Pfx) (i : BitVec 12) (a d : Reg) (s : State) : Out1 := scImm scAdd 1 x i a d s
/-- `and rd, ra, expr` (R80). -/
def execAndImm (x : Pfx) (i : BitVec 12) (a d : Reg) (s : State) : Out1 := scImm scAnd 1 x i a d s
/-- `or rd, ra, expr` (R80). -/
def execOrImm (x : Pfx) (i : BitVec 12) (a d : Reg) (s : State) : Out1 := scImm scOr 1 x i a d s
/-- `xor rd, ra, expr` (R80). -/
def execXorImm (x : Pfx) (i : BitVec 12) (a d : Reg) (s : State) : Out1 := scImm scXor 1 x i a d s
/-- `shl rd, ra, expr` (R80). -/
def execShlImm (x : Pfx) (i : BitVec 12) (a d : Reg) (s : State) : Out1 := scImm scShl 1 x i a d s
/-- `shr rd, ra, expr` (R80). -/
def execShrImm (x : Pfx) (i : BitVec 12) (a d : Reg) (s : State) : Out1 := scImm scShr 1 x i a d s
/-- `sra rd, ra, expr` (R80). -/
def execSraImm (x : Pfx) (i : BitVec 12) (a d : Reg) (s : State) : Out1 := scImm scSra 1 x i a d s
/-- `ror rd, ra, expr` (R80). -/
def execRorImm (x : Pfx) (i : BitVec 12) (a d : Reg) (s : State) : Out1 := scImm scRor 1 x i a d s
/-- `mul rd, ra, expr` (R80). -/
def execMulImm (x : Pfx) (i : BitVec 12) (a d : Reg) (s : State) : Out1 := scImm scMul 3 x i a d s
/-- `min rd, ra, expr` (R80). -/
def execMinImm (x : Pfx) (i : BitVec 12) (a d : Reg) (s : State) : Out1 := scImm scMin 1 x i a d s
/-- `max rd, ra, expr` (R80). -/
def execMaxImm (x : Pfx) (i : BitVec 12) (a d : Reg) (s : State) : Out1 := scImm scMax 1 x i a d s
/-- `ceq rd, ra, expr` (R80). -/
def execCeqImm (x : Pfx) (i : BitVec 12) (a d : Reg) (s : State) : Out1 := scImm scCeq 1 x i a d s
/-- `cne rd, ra, expr` (R80). -/
def execCneImm (x : Pfx) (i : BitVec 12) (a d : Reg) (s : State) : Out1 := scImm scCne 1 x i a d s
/-- `clt rd, ra, expr` (R80). -/
def execCltImm (x : Pfx) (i : BitVec 12) (a d : Reg) (s : State) : Out1 := scImm scClt 1 x i a d s
/-- `cle rd, ra, expr` (R80). -/
def execCleImm (x : Pfx) (i : BitVec 12) (a d : Reg) (s : State) : Out1 := scImm scCle 1 x i a d s
/-- `cltu rd, ra, expr` (R80). -/
def execCltuImm (x : Pfx) (i : BitVec 12) (a d : Reg) (s : State) : Out1 := scImm scCltu 1 x i a d s
/-- `li rd, expr` (R83). -/
def execLi (x : Pfx) (i : BitVec 21) (d : Reg) (s : State) : Out1 :=
  .next (s.sDone (words x) 1 fun c => c.ws d (immLi x i))

end Sys2Proof.Machine
end

