-- ==== Sys2Proof/Machine/Control.lean ====
section
/-! DEFINITION. Control flow (05 R84 to R86), and the queue moves of the S stream (06 R97, 02 R24, R25). -/

namespace Sys2Proof.Machine

/-- A conditional branch: 3 cycles when taken, 1 when not (R78, R84). -/
def branch (t : Bool) (x : Pfx) (o : BitVec 13) (s : State) : Out1 :=
  if t then .next (s.sGo (s.me.pc + offB x o) (3 + x.count) id) else .next (s.sDone (words x) 1 id)

/-- `beq ra, rb, target` (R84). -/
def execBeq (x : Pfx) (o : BitVec 13) (b a : Reg) (s : State) : Out1 := branch (s.me.rs a == s.me.rs b) x o s
/-- `bne ra, rb, target` (R84). -/
def execBne (x : Pfx) (o : BitVec 13) (b a : Reg) (s : State) : Out1 := branch (s.me.rs a != s.me.rs b) x o s
/-- `blt ra, rb, target` (R84). -/
def execBlt (x : Pfx) (o : BitVec 13) (b a : Reg) (s : State) : Out1 := branch ((s.me.rs a).slt (s.me.rs b)) x o s
/-- `bge ra, rb, target` (R84). -/
def execBge (x : Pfx) (o : BitVec 13) (b a : Reg) (s : State) : Out1 := branch (! (s.me.rs a).slt (s.me.rs b)) x o s
/-- `bltu ra, rb, target` (R84). -/
def execBltu (x : Pfx) (o : BitVec 13) (b a : Reg) (s : State) : Out1 := branch ((s.me.rs a).ult (s.me.rs b)) x o s
/-- `bgeu ra, rb, target` (R84). -/
def execBgeu (x : Pfx) (o : BitVec 13) (b a : Reg) (s : State) : Out1 := branch (! (s.me.rs a).ult (s.me.rs b)) x o s

/-- `loop ra, target` (R84): 1 cycle in either outcome (R78). On s0 the write is discarded and the branch is never taken. -/
def execLoop (x : Pfx) (o : BitVec 13) (a : Reg) (s : State) : Out1 :=
  let c := s.me.ws a (s.me.rs a - 1#64)
  if c.rs a ≠ 0#64 then .next (s.sGo (s.me.pc + offB x o) (1 + x.count) fun k => k.ws a (s.me.rs a - 1#64))
  else .next (s.sDone (words x) 1 fun k => k.ws a (s.me.rs a - 1#64))

/-- `j target` (R85). -/
def execJ (x : Pfx) (o : BitVec 21) (s : State) : Out1 := .next (s.sGo (s.me.pc + offJ x o) (3 + x.count) id)

/-- `call rd, target` (R85). -/
def execCall (x : Pfx) (o : BitVec 21) (d : Reg) (s : State) : Out1 :=
  .next (s.sGo (s.me.pc + offJ x o) (3 + x.count) fun c => c.ws d (s.me.pc + BitVec.ofNat 64 (4 * words x)))

/-- `jr ra` and `jr rd, ra` (R85): the target is read before the link is written; a target that is no multiple of 4 raises
the alignment trap at the jump (R40). -/
def execJr (a d : Reg) (s : State) : Out1 :=
  let t := s.me.rs a
  if t.extractLsb' 0 2 ≠ 0#2 then .next (s.sTrap 0x02#8 t)
  else .next (s.sGo t 3 fun c => c.ws d (s.me.pc + 4#64))

/-- A W instruction of the buffer or in flight, by its word, writes q4 + n: VQ functions 0, 3 to 6 (R106). -/
def wWrites (n : BitVec 2) (w : BitVec 32) : Bool :=
  fld w 0 6 == 0x25#6 && fld w 11 3 == 1#1 ++ n && (fld w 16 4 == 0#4 || (decide (3 ≤ (fld w 16 4).toNat) && decide ((fld w 16 4).toNat ≤ 6)))

/-- A W instruction, by its word, pops q0 + n: VQ functions 1, 2 and 7, and VM or VX with PK = 0 (R106, R108). For the certain stall of
R25 on a full queue, only an instruction that pops is one that reads the queue: a peek frees no entry (DESIGN CHOICE, log entry 78). -/
def wPops (n : BitVec 2) (w : BitVec 32) : Bool :=
  (fld w 0 6 == 0x25#6 && fld w 11 3 == 0#1 ++ n && (fld w 16 4 == 1#4 || fld w 16 4 == 2#4 || fld w 16 4 == 7#4)) ||
    (decide (0x26 ≤ (fld w 0 6).toNat) && decide ((fld w 0 6).toNat ≤ 0x2B) && fld w 23 2 == n && fld w 25 1 == 0#1)

/-- A W instruction, by its word, reads or peeks q0 + n (R106, R108). -/
def wReads (n : BitVec 2) (w : BitVec 32) : Bool :=
  wPops n w || (decide (0x26 ≤ (fld w 0 6).toNat) && decide ((fld w 0 6).toNat ≤ 0x2B) && fld w 23 2 == n)

/-- A write to q4 + n is in flight (R24, R25). -/
def pendWrites (n : BitVec 2) (l : List WPend) : Bool :=
  l.any fun p => match p.tgt with | .q m _ _ => m == n | _ => false

/-- `qpush qn, ra` (R97): stalls while the queue is full; the stall that can never clear is the stream deadlock (R25, R359). -/
def execQpush (a : Reg) (n : BitVec 2) (s : State) : Out1 :=
  let c := s.me
  let q : BitVec 3 := 0#1 ++ n
  if (c.rq q).length < 4 then .next (s.sDone 1 1 fun k => k.push q (c.rs a) (s.cyc + 1) s.nextId)
  else if ! c.wbuf.any (fun e => wPops n e.word) then .next (s.sTrap 0x04#8 (q.setWidth 64))
  else .next (s.sStall (q.setWidth 64))

/-- `qpop rd, qn` (R97): what follows it comes after the accesses that precede the write of the entry (R32). -/
def execQpop (n : BitVec 2) (d : Reg) (s : State) : Out1 :=
  let c := s.me
  let q : BitVec 3 := 1#1 ++ n
  match c.rq q with
  | x :: _ =>
    if s.cyc < (c.qhead q).1 then .next (s.sStall (q.setWidth 64))
    else .next (s.sDone 1 1 fun k => { (k.pop q).ws d x with sAfter := max k.sAfter (k.qhead q).2 })
  | [] =>
    if ! c.wbuf.any (fun e => wWrites n e.word) && ! pendWrites n c.wpend then .next (s.sTrap 0x04#8 (q.setWidth 64))
    else .next (s.sStall (q.setWidth 64))

/-- The W head stalls for ever on an empty q0 to q3, which is this queue (R25). -/
def Core.wStuck (c : Core) : Option (BitVec 3) :=
  match c.wbuf with
  | [] => none
  | e :: _ =>
    [0#2, 1#2, 2#2, 3#2].findSome? fun n =>
      if wReads n e.word ∧ (c.rq (0#1 ++ n)).isEmpty ∧ e.base.isNone then some (0#1 ++ n) else none

/-- `done` (R86): nothing further is dispatched; the activation ends when its W work has drained and its stores are performed
(R34). A W head that waits on an empty queue then never issues (R25, R359). -/
def execDone (s : State) : Out1 :=
  match s.me.wStuck with
  | some q => .next (s.wTrap s.cur 0x04#8 ((s.me.wbuf.head?.map (·.pc)).getD s.me.pc) (q.setWidth 64))
  | none => .next (s.sGo s.me.pc 1 id |>.updMe fun c => { c with stat := .ending none })

/-! W dispatch (R21): a W instruction takes one S slot, in which it is placed at the tail of the W buffer. -/

/-- Places the word of a W instruction, with its constant operand read now (R29), at the tail of the buffer; a full buffer
stalls the S stream, and is a deadlock when the head waits on an empty queue (R25). -/
def State.dispatch (s : State) (w : BitVec 32) (cst : Word) : State :=
  let c := s.me
  if c.wbuf.length < 16 then s.sDone 1 1 fun k => { k with wbuf := k.wbuf ++ [⟨w, cst, c.pc, s.cyc, none, s.nextId⟩] }
  else
    match c.wStuck with
    | some q => s.sTrap 0x04#8 (q.setWidth 64)
    | none => s.updMe fun k => { k with ready := s.cyc + 1 }

end Sys2Proof.Machine
end

