-- ==== Sys2Proof/Machine/Scalarmem.lean ====
section
/-! DEFINITION. Scalar loads and stores, tagged memory, fences (05 R87 to R96, 10 R183 to R189), and the steps that perform
what they leave pending. -/

namespace Sys2Proof.Machine

/-- Holds the S stream without counting a wait. -/
def State.sHold (s : State) (w : SWait) (words cost : Nat) : State :=
  s.updMe fun x => { x with stat := .wait w words cost, waitFrom := none }

/-- Sends the requests for the pieces of a load at a peer (20 R321). -/
def State.askPeer (s : State) (c : Nat) (ps : List Piece) (op : Option (AtOp × Word × Word)) : State :=
  let w := s.who c false
  ps.foldl (fun s p =>
    match p.at_ with
    | .peer a =>
      s.send (bits a 63 56 - 1)
        (match op with | none => .load a p.n c | some (o, b, e) => .atomic o a p.n b e c) w.dom w.ctx c 0#16
    | _ => s) s

/-- A load (R88): at once in the core's own scratchpad, with 2 cycles (R78), once the accesses that come before it there are performed
(R182); elsewhere the S stream is held until the data returns (LOAD_REPLY), and a request leaves for a peer once what comes before it
is performed. `hi` is RB of `ldp`. -/
def loadAt (ea : Word) (n : Nat) (sgnd : Bool) (d : Reg) (hi : Option Reg) (ws : Nat) (s : State) : State :=
  if s.me.wmBlocks ea n then s.sStall ea
  else
    s.sAcc .load ea n fun ps s =>
      if ownSp s.cur ps ∧ ! s.me.loadReady false ps then s.sRetry
      else if ownSp s.cur ps then
        s.soft s.cur .load false s.me.pc ea ps fun s =>
        let bs := s.loadPieces s.cur false ps
        s.sDone ws 2 fun c =>
          match hi with
          | none => c.ws d (widen sgnd n bs)
          | some h => (c.ws d (bytesWord (bs.take 8))).ws h (bytesWord (bs.drop 8))
      else if (ps.any fun p => match p.at_ with | .peer _ => true | _ => false) ∧ ! s.me.loadReady false ps then s.sStall ea
      else
        let s := if ps.any fun p => match p.at_ with | .dram _ => true | _ => false then s.count s.cur 7#3 s.me.pc false else s
        ((s.askPeer s.cur ps none).sWait (.load ps sgnd d hi []) ws 1 ea)

/-- A store (R88): 1 cycle (R78). One to the own scratchpad is performed when it issues (R32), and issues once what comes before it is
performed (R182, R183). -/
def storeAt (ea : Word) (bs : List Byte) (dom : DTag) (rel : Bool) (ws : Nat) (s : State) : State :=
  s.sAcc .store ea bs.length fun ps s =>
    if s.storeHolds (s.who s.cur false) ps rel then s.sRetry
    else (s.doStore (s.who s.cur false) ps bs dom rel).sDone ws 1 id

/-- `ld rd, [ra+off]` (R87, R88, R183). An acquire needs nothing more of the S stream, which is held until the load is
performed; ordering and scope matter to other agents only. -/
def execLd (x : Pfx) (o : BitVec 7) (_r : LdOrd) (_sc : Scope) (t : MTy) (a d : Reg) (s : State) : Out1 :=
  .next (loadAt (s.me.rs a + offM x o (mSize t)) (mSize t) (mSigned t) d none (words x) s)

/-- `st rd, [ra+off]` (R87, R88, R91, R183). -/
def execSt (x : Pfx) (o : BitVec 7) (r : StOrd) (_sc : Scope) (m : Dm) (t : StTy) (a d : Reg) (s : State) : Out1 :=
  .next (storeAt (s.me.rs a + offM x o (stSize t)) (leBytes (stSize t) (s.me.rs d).toNat) (s.dm m) (r == .rel) (words x) s)

/-- `ldx rd, [ra+rb]` (R92). -/
def execLdx (t : MTy) (b a d : Reg) (s : State) : Out1 :=
  .next (loadAt (s.me.rs a + s.me.rs b * BitVec.ofNat 64 (mSize t)) (mSize t) (mSigned t) d none 1 s)

/-- `stx rd, [ra+rb]` (R92). -/
def execStx (t : StTy) (b a d : Reg) (s : State) : Out1 :=
  .next (storeAt (s.me.rs a + s.me.rs b * BitVec.ofNat 64 (stSize t)) (leBytes (stSize t) (s.me.rs d).toNat) (s.dm .inh) false 1 s)

/-- `ldp rd, rb, [ra]` (R92). -/
def execLdp (b a d : Reg) (s : State) : Out1 :=
  .next (if (s.me.rs a).toNat % 16 ≠ 0 then s.sTrap 0x02#8 (s.me.rs a) else loadAt (s.me.rs a) 16 false d (some b) 1 s)

/-- `stp rd, rb, [ra]` (R92). -/
def execStp (b a d : Reg) (s : State) : Out1 :=
  .next (if (s.me.rs a).toNat % 16 ≠ 0 then s.sTrap 0x02#8 (s.me.rs a)
    else storeAt (s.me.rs a) (wordBytes (s.me.rs d) ++ wordBytes (s.me.rs b)) (s.dm .inh) false 1 s)

/-- The null I10 block of `zblk` (R92). -/
def nullI10 : List Byte := blkBytes 0x10#8 0xFF#8 0#480

/-- `zblk [ra]` (R92). -/
def execZblk (a : Reg) (s : State) : Out1 :=
  .next (if (s.me.rs a).toNat % 64 ≠ 0 then s.sTrap 0x02#8 (s.me.rs a)
    else storeAt (s.me.rs a) nullI10 (s.dm .inh) false 1 s)

/-- `pf [ra]` (R92): no architectural state changes and nothing traps, whatever the address. -/
def execPf (s : State) : Out1 := .next (s.sDone 1 1 id)

/-- The access counts as a load (15 R263). -/
def PAcc.loads (a : PAcc) : Bool := match a.op with | .atomic _ _ _ _ => true | _ => false

/-- What `fence`, `drain` and `xfence` wait for (R184, R185, 12 R227): every one for pending atomics, which are loads. -/
def Core.fenceDone (c : Core) (stores uo : Bool) : Bool :=
  c.wbuf.isEmpty && ! c.acc.any fun a => (stores || a.loads) && (uo || a.p.kind != .uo)

/-- Holds the S stream until W has issued and the accesses wanted are performed; at least 1 cycle. -/
def fenceOn (stores uo eng : Bool) (s : State) : Out1 :=
  .next (if s.me.fenceDone stores uo then s.sDone 1 1 (Core.seen eng) else s.sHold (.fence stores uo eng) 1 1)

/-- `fence.o.S` (R184): `acq` waits for loads, which the streams have performed once W has issued, atomics apart; `rel` and `acqrel` for
stores too, UO ones apart. The wait for the W buffer, line 1, counts (01 R17); with no TRAPVAL stated, it is a free value. -/
def execFence (o : FenceOrd) (_sc : Scope) (s : State) : Out1 :=
  if s.me.wbuf.isEmpty then fenceOn (o != .acq) false false s
  else .next (s.sWait (.fence (o != .acq) false false) 1 1 (Config.waitVal s.nextId))
/-- `drain` (R185). -/
def execDrain (s : State) : Out1 := fenceOn true true false s
/-- `xfence` (12 R227): every earlier store is performed for the core's streamer. -/
def execXfence (s : State) : Out1 := fenceOn true true true s

/-! Tagged memory (R93 to R96). -/

/-- The tag an operation waits for holds (R93). -/
def tagCond (op : TagOp) (full : Bool) : Bool :=
  match op with
  | .ldw | .take => full
  | .stw | .twait => ! full
  | _ => true

/-- The operation writes a tag (R93, R188). -/
def tagWrites : TagOp → Bool
  | .take | .stw | .stf | .tset | .tclr => true
  | _ => false

/-- The access a footprint must allow (R125). -/
def tagAcc : TagOp → Bool × Bool
  | .ldw | .trd | .twait => (true, false)
  | .take => (true, true)
  | _ => (false, true)

/-- A tagged operation of the S stream at scratchpad `k` may be performed (R182, R188): no earlier access of the stream to that
scratchpad is pending, nor a barrier arrival, nor what a queue handoff puts before it; a tag write is a release. `p` is its word. -/
def Core.tagReady (c : Core) (wr : Bool) (p : Place) : Bool :=
  c.handedOver false && (! wr || c.released false) && ! c.acc.any fun a => ! a.w &&
    (sameSp a.p.at_ p || match a.op with | .arrive _ _ => true | _ => false)

/-- The indivisible step at the owning scratchpad (R93): the value for RD and the core after; armed puts on the word are
evaluated in it (15 R277). -/
def tagDo (op : TagOp) (off : Nat) (v : Word) (tick : Nat) (c : Core) : Word × Core :=
  let w := c.spWord off
  let f := c.full off
  let c' := match op with
    | .ldw | .trd | .twait => c
    | .take | .tclr => c.setTag off false
    | .stw | .stf => (c.spWrite off (wordBytes v)).setTag off true
    | .tset => c.setTag off true
  (match op with | .trd => (if f then 1#64 else 0#64) | _ => w, c'.evalArmed off tick)

def tagRd (op : TagOp) : Bool := op == .ldw || op == .take || op == .trd

/-- The condition of `sigw` holds (15 R274). -/
def sigOk (w b : Word) : Bool := w.getLsbD 63 || decide ((w &&& 0x7FFFFFFFFFFFFFFF#64) ≥ (b &&& 0x7FFFFFFFFFFFFFFF#64))

/-- An operation of a core on a scratchpad of this device can be performed there now, its condition apart: it has no domain that has expired
at another core's scratchpad (08 R143), and its context is resident there (18 R310). -/
def State.reachable (s : State) (c k : Nat) (ctx : Ctx) (d : DTag) : Bool := k == c || ! (s.expired (spEp k) (s.dtag d) || s.away k ctx)

/-- The ticket and word of a core that waits at a scratchpad word, with its context, and whether it could proceed (R94). -/
def State.waiter (s : State) (c : Nat) : Option (Nat × Nat × Nat × Ctx × Bool) :=
  let x := s.core c
  let w := s.who c false
  let can (k off : Nat) (wr : Bool) (d : DTag) : Bool := x.tagReady wr (.sp k off) && ! x.dbg.halted && s.reachable c k w.ctx d
  match x.stat with
  | .wait (.tag op k off _ _ t d _) _ _ => some (t, k, off, w.ctx, can k off (tagWrites op) d && tagCond op ((s.core k).full off))
  | .wait (.sigw k off _ v t _) _ _ => some (t, k, off, w.ctx, can k off false w.dom && sigOk ((s.core k).spWord off) v)
  | _ => none

/-- A peer's request that has reached its word of a scratchpad of this device before a number was given, and could proceed (R189). -/
def State.peerWaits (s : State) (k off : Nat) (ctx : Ctx) (t : Nat) : Bool :=
  s.net.any fun p =>
    let at_ (a : Word) : Bool := bits a 55 0 == 0xFE000000000000 + k * 0x100000 + off
    p.peer && p.dev == s.own && p.held && p.ctx == ctx && decide (p.id < t) && ! s.expired (spEp k) (s.dtag p.dom) &&
      match p.body with
      | .tagop op a _ _ => at_ a && tagCond op ((s.core k).full off)
      | .sigw a v _ => at_ a && sigOk ((s.core k).spWord off) v
      | _ => false

/-- An older wait on the same word of the context could proceed (R94). -/
def State.olderWaits (s : State) (k off : Nat) (ctx : Ctx) (t : Nat) : Bool :=
  (s.cores.any fun p =>
    match s.waiter p.1 with
    | some (u, k', off', ctx', ok) => decide (u < t) && k' == k && off' == off && ctx' == ctx && ok
    | none => false) || s.peerWaits k off ctx t

/-- Where a tagged operation or `sigw` acts: its checks in the order of R93, R29, R30, R178; `n` bytes from `ea` on must be covered
(R125). The word of a peer has the same window rules. An operation through the aperture on a window word that lies outside the footprint or
the launch as well is a violation, before the tagged-access trap (DESIGN CHOICE, log entry 101). -/
def State.tagPlace (s : State) (op : Option TagOp) (ea : Word) (n : Nat) : State ⊕ (Nat × Nat) :=
  let acc := match op with | some o => tagAcc o | none => (true, false)
  let w := s.who s.cur false
  if ea.toNat % 8 ≠ 0 then .inl (s.sTrap 0x02#8 ea)
  else
    let go (core off : Nat) : State ⊕ (Nat × Nat) :=
      if off < 0x800 ∧ (op = some .take ∨ op = some .stw ∨ op = some .tclr ∨ op = some .twait) then .inl (s.sTrap 0x03#8 ea)
      else if off < 0x80 ∧ (op = some .stf ∨ op = some .tset) then .inl (s.sViol .tagged ea)
      else .inr (core, off)
    match classify s.own s.cur ea with
    | .loc off =>
      if off ≥ 0x80000 ∨ (viaAperture ea ∧ ! s.covered (s.taskFps w.task) w.ctx acc.1 acc.2 (bits ea 55 0) n) then
        .inl (s.sViol .tagged ea)
      else go s.cur off
    | .ap c off =>
      if off ≥ 0x80000 ∨ ! s.apReach w c ∨ ! s.covered (s.taskFps w.task) w.ctx acc.1 acc.2 (bits ea 55 0) n then
        .inl (s.sViol .tagged ea)
      else go c off
    | .dva _ => .inl (s.sTrap 0x03#8 ea)
    | .peer a =>
      if bits a 55 0 < 0xFE000000000000 then .inl (s.sTrap 0x03#8 ea)
      else if bits a 55 0 % 0x100000 ≥ 0x80000 then .inl (s.sViol .tagged ea)
      else
        match go 0 (bits a 55 0 % 0x100000) with
        | .inl t => .inl t
        | .inr _ => .inr (nCores + bits a 63 56, bits a 55 0)
    | .resv => .inl (s.sViol .tagged ea)

/-- A tagged operation (R93): at once in the core's own scratchpad where its tag and its release allow; else it waits. -/
def tagged (op : TagOp) (ea : Word) (d : Reg) (v : Word) (dom : DTag) (ws : Nat) (s0 : State) : Out1 :=
  let s := s0.watch s0.cur .tagged ea 8
  .next (match s.tagPlace (some op) ea 8 with
    | .inl t => t
    | .inr (k, off) =>
      if k > nCores then
        let w := s.who s.cur false
        if s.me.tagReady (tagWrites op) (.peer ea) then
          (s.send (k - nCores - 1) (.tagop op ea v s.cur) dom w.ctx s.cur 0#16).sWait (.tag op k off d v s.nextId dom (some (s.nextId, 0))) ws 2 ea
        else (s.fresh).sWait (.tag op k off d v s.nextId dom none) ws 2 ea
      else if k = s.cur ∧ tagCond op (s.me.full off) ∧ s.me.tagReady (tagWrites op) (.sp k off) ∧
          ! s.olderWaits k off (s.who s.cur false).ctx s.nextId then
        s.soft s.cur .tagged false s.me.pc ea [⟨ea, .sp k off, 8, .sp, false⟩] fun s =>
        let r := tagDo op off v s.cyc s.me
        s.sDone ws 2 fun c =>
          let c := (tagDo op off v s.cyc c).2
          if tagRd op then c.ws d r.1 else c
      else (s.fresh).sWait (.tag op k off d v s.nextId dom none) ws 2 ea)

/-- `ldw rd, [ra+off]` (R93). -/
def execLdw (x : Pfx) (o : BitVec 12) (a d : Reg) (s : State) : Out1 :=
  tagged .ldw (s.me.rs a + offT x o) d 0#64 (s.dm .inh) (words x) s
/-- `take rd, [ra+off]` (R93). -/
def execTake (x : Pfx) (o : BitVec 12) (m : Dm) (a d : Reg) (s : State) : Out1 :=
  tagged .take (s.me.rs a + offT x o) d 0#64 (s.dm m) (words x) s
/-- `stw rd, [ra+off]` (R93). -/
def execStw (x : Pfx) (o : BitVec 12) (m : Dm) (a d : Reg) (s : State) : Out1 :=
  tagged .stw (s.me.rs a + offT x o) 0#5 (s.me.rs d) (s.dm m) (words x) s
/-- `stf rd, [ra+off]` (R93). -/
def execStf (x : Pfx) (o : BitVec 12) (m : Dm) (a d : Reg) (s : State) : Out1 :=
  tagged .stf (s.me.rs a + offT x o) 0#5 (s.me.rs d) (s.dm m) (words x) s
/-- `tset [ra+off]` (R93). -/
def execTset (x : Pfx) (o : BitVec 12) (m : Dm) (a : Reg) (s : State) : Out1 :=
  tagged .tset (s.me.rs a + offT x o) 0#5 0#64 (s.dm m) (words x) s
/-- `tclr [ra+off]` (R93). -/
def execTclr (x : Pfx) (o : BitVec 12) (m : Dm) (a : Reg) (s : State) : Out1 :=
  tagged .tclr (s.me.rs a + offT x o) 0#5 0#64 (s.dm m) (words x) s
/-- `trd rd, [ra+off]` (R93). -/
def execTrd (x : Pfx) (o : BitVec 12) (a d : Reg) (s : State) : Out1 :=
  tagged .trd (s.me.rs a + offT x o) d 0#64 (s.dm .inh) (words x) s
/-- `twait [ra+off]` (R93). -/
def execTwait (x : Pfx) (o : BitVec 12) (a : Reg) (s : State) : Out1 :=
  tagged .twait (s.me.rs a + offT x o) 0#5 0#64 (s.dm .inh) (words x) s

/-- `sigw rd, ra, rb` (15 R274). -/
def execSigw (b a d : Reg) (s : State) : Out1 :=
  let ea := s.me.rs a
  .next (match s.tagPlace none ea 8 with
    | .inl t => t
    | .inr (k, off) =>
      if k > nCores then
        let w := s.who s.cur false
        if s.me.tagReady false (.peer ea) then
          (s.send (k - nCores - 1) (.sigw ea (s.me.rs b) s.cur) w.dom w.ctx s.cur 0#16).sWait
            (.sigw k off d (s.me.rs b) s.nextId (some (s.nextId, 0))) 1 2 ea
        else (s.fresh).sWait (.sigw k off d (s.me.rs b) s.nextId none) 1 2 ea
      else if k = s.cur ∧ sigOk (s.me.spWord off) (s.me.rs b) ∧ s.me.tagReady false (.sp k off) ∧
          ! s.olderWaits k off (s.who s.cur false).ctx s.nextId then
        s.soft s.cur .tagged false s.me.pc ea [⟨ea, .sp k off, 8, .sp, false⟩] fun s => s.sDone 1 2 fun c => c.ws d (s.me.spWord off)
      else (s.fresh).sWait (.sigw k off d (s.me.rs b) s.nextId none) 1 2 ea)

/-! The steps that follow. -/

/-- The packet that takes an access to its peer (20 R321). -/
def PAcc.packet (a : PAcc) (va : Word) (c : Nat) : PBody :=
  match a.op with
  | .store bs => .store va bs
  | .atomic op b e _ => .atomic op va a.p.n b e c
  | .arrive dep ann => .arrive va dep ann

/-- The access that a demand fault or a violation of a pending access reports. -/
def PAcc.kindOf (a : PAcc) : Acc :=
  match a.op with
  | .store _ => .store
  | .atomic _ _ _ _ => .atomic
  | .arrive _ _ => .tagged

/-- A violation that is found for an access that a core has posted (18 R300): a core that still runs the activation freezes; else the task
fails and the fault queue receives the entry. -/
def State.violAcc (s : State) (c : Nat) (a : PAcc) (adr : Word) (kind : BitVec 8) : State :=
  let x := s.core c
  let s := s.upd c fun x => { x with acc := x.acc.erase a }
  if x.act.map (·.id) = some a.act ∧ x.stat ≠ .frozen then s.viol c a.kindOf a.w x.pc adr kind
  else
    (s.fault (clusterOf c) { fEnt0 with kind := kind, acc := accCode a.kindOf, core := BitVec.ofNat 12 c, ctx := a.ctx, dom := a.dom.id, addr := adr }).failTask
      a.task

/-- Performs or drops one pending access (R148, R177, R268, R336). One at a peer leaves in a packet, and stays pending until the peer
answers that it has performed it (LOAD_REPLY), or until the packet is dropped on its way (log entry 47). Flags of the W stream land in
the CORESTAT that the core has then (DESIGN CHOICE, log entry 100). -/
def State.perform (s : State) (c : Nat) (a : PAcc) : State :=
  let gone := s.upd c fun x => { x with acc := x.acc.erase a }.raise a.fl
  match a.p.at_ with
  | .peer va =>
    match a.sent with
    | none =>
      if (s.core c).park.isSome then s
      else if s.expired c a.dom then gone.upd c fun x => { x with expd := x.expd + 1 }
      else
        (s.upd c fun x => { x with acc := x.acc.map fun b => if b = a then { b with sent := some s.nextId } else b }).send
          (bits va 63 56 - 1) (a.packet va c) a.dom a.ctx c 0#16
    | some _ => s
  | _ =>
    let bad := s
    let s := gone
    let ep := s.placeEp a.p.at_ a.p.sysa (match a.op with | .atomic _ _ _ _ => true | _ => false)
    if s.expired ep a.dom then s.dropAt ep
    else
      match a.op with
      | .store bs => s.storeTo a.p.at_ a.p.va bs a.dom a.ctx c
      | .arrive dep ann =>
        match a.p.at_ with
        | .sp k off => s.upd k fun x => ((x.arrive off dep ann none).evalArmed off s.cyc).evalArmed (off + 8) s.cyc
        | _ => s
      | .atomic op b e wait =>
        let soft := s.struckPs [a.p]
        if soft = some true then bad.violAcc c a a.p.va 0x24#8 else
        let s := if soft.isSome then (s.softCor c .atomic a.w (s.core c).pc a.p.va).mendPs [a.p] else s
        let (w, s) := s.doAtomic a.p op b e
        if wait then
          s.upd c fun x =>
            match x.stat with
            | .wait (.atomic id rd none t) n k => if id = a.aid then { x with stat := .wait (.atomic id rd (some w) t) n k } else x
            | _ => x
        else s

/-- A load, tagged operation or other reply at a scratchpad whose context is not resident waits (18 R310). -/
def State.placeAway (s : State) (c : Nat) (ctx : Ctx) (p : Place) : Bool :=
  match p with | .sp k _ => k != c && s.away k ctx | _ => false

/-- An access other than a store at such a scratchpad waits, unless its domain has expired (08 R143); a store does while the log is full. -/
def State.heldAway (s : State) (a : PAcc) : Bool :=
  match a.op with
  | .store _ => match a.p.at_ with | .sp k _ => s.logFull k a.ctx && ! s.expired (spEp k) a.dom | _ => false
  | _ => match a.p.at_ with | .sp k _ => s.away k a.ctx && ! s.expired (spEp k) a.dom | _ => false

/-- The access with this number in a core's list may be performed now (R90, R181 to R187). -/
def State.performNth (s : State) (c i : Nat) (f : AccOp → Bool) : State :=
  let l := (s.core c).acc
  match l[i]? with
  | none => s
  | some a => if f a.op && mayPerform (l.take i) a && ! s.heldAway a then s.perform c a else s

/-- STORE_PERFORM: a store not yet performed is performed at its place or dropped (R177, R148). -/
def execStorePerform (c i : Nat) (s : State) : Out1 :=
  .next (s.performNth c i fun o => match o with | .store _ => true | _ => false)
/-- A sync engine takes a line, or uses it again; when its 65,536 lines are full it writes back the one least recently used (R264). -/
def State.holdLine (s : State) (pa : Nat) : State :=
  let tw := pa / channelBytes / 1024
  let l := (s.sys.lines.filter fun x => x.1 != pa / 64) ++ [(pa / 64, tw)]
  let l := if (l.filter fun x => x.2 == tw).length > 65536 then
      match l.find? (fun x => x.2 == tw) with | some v => l.erase v | none => l
    else l
  { s with sys := { s.sys with lines := l } }

/-- The sync engine that has performed an atomic holds its line (R264). -/
def State.holdAt (s : State) (p : Piece) : State :=
  match p.at_ with
  | .dram pa => if p.sysa then s else s.holdLine pa
  | _ => s

/-- ATOMIC_PERFORM: an atomic arrives at its place and is performed whole or dropped whole (15 R267, R268); the sync engine of
the frame's tower takes the line (R264). -/
def execAtomicPerform (c i : Nat) (s : State) : Out1 :=
  let t := s.performNth c i fun o => match o with | .atomic _ _ _ _ => true | _ => false
  match (s.core c).acc[i]? with
  | none => .next t
  | some a =>
    match a.op with
    | .atomic _ _ _ _ => .next (if t = s ∨ s.expired (s.placeEp a.p.at_ a.p.sysa true) a.dom ∨ s.struckPs [a.p] = some true then t else t.holdAt a.p)
    | _ => .next t
/-- BARRIER_ARRIVAL: an arrival is performed at the object's home (07 R133, 10 R191). -/
def execBarrierArrival (c i : Nat) (s : State) : Out1 :=
  .next (s.performNth c i fun o => match o with | .arrive _ _ => true | _ => false)

/-- At most sixteen bytes arrive for what the core reads at a peer (20 R321): for the S stream while it has asked for more. -/
def Core.gotPeer (v : BitVec 128) (c : Core) : Core :=
  match c.pread.find? (fun p => decide (p.2.2.2.length < p.2.2.1)) with
  | some (k, a, n, bs) => { c with pread := tPut c.pread k (a, n, bs ++ (leBytes 16 v.toNat).take (n - bs.length)) }
  | none => c

/-- A peer answers for the access, or the message, that a packet took to it: it is performed or dropped there (R148, R179, 12 R226). A waiting
atomic completes by its value. -/
def State.answered (s : State) (c p : Nat) : State :=
  let x := s.core c
  if s.net.any fun k => k.id == p then s
  else
    let s := s.upd c fun x => { x with gone := x.gone.filter fun g => g.1 != p }
    match x.acc.find? fun a => a.sent == some p with
    | none => s
    | some a =>
      match x.stat with
      | .wait (.atomic id _ none _) _ _ => if id = a.aid then s else s.upd c fun x => { x with acc := x.acc.erase a }.raise a.fl
      | _ => s.upd c fun x => { x with acc := x.acc.erase a }.raise a.fl

/-- A demand fault at a peer parks its source (R207, 20 R321): the core, at the instruction that waits or, for an access that it has posted,
where it stands; the access is made again after RETRY. A strip's fault shows when the strip is needed (12 R229). -/
def State.peerFault (s : State) (c : Nat) (q : Option Nat) (fk : BitVec 4) : State :=
  let x := s.core c
  if x.park.isSome then s else
  match q with
  | some p =>
    match x.acc.find? fun a => a.sent == some p with
    | none => s
    | some a =>
      if s.net.any fun k => k.id == p then s
      else
        match x.stat with
        | .wait (.atomic id _ _ _) _ _ =>
          if id = a.aid then
            (s.upd c fun x => { x with stat := .run, acc := x.acc.filter fun b => b.aid != id }).demand c .atomic false x.pc a.p.va fk false
          else s
        | _ =>
          (s.upd c fun x => { x with acc := x.acc.map fun b => if b = a then { b with sent := none } else b }).demand c a.kindOf a.w x.pc
            a.p.va fk false
  | none =>
    let stop (acc : Acc) : State := (s.upd c fun x => { x with stat := .run }).demand c acc false x.pc x.waitVal fk false
    match x.stat with
    | .wait (.load ps _ _ _ _) _ _ => if ps.any fun p => match p.at_ with | .peer _ => true | _ => false then stop .load else s
    | .wait (.tag _ k _ _ _ _ _ (some _)) _ _ => if k > nCores then stop .tagged else s
    | .wait (.sigw k _ _ _ _ (some _)) _ _ => if k > nCores then stop .tagged else s
    | _ =>
      match x.pread.find? (fun p => decide (p.2.2.2.length < p.2.2.1)) with
      | none => s
      | some (k, a, _, _) =>
        let s := s.upd c fun x => { x with pread := tDel x.pread k }
        if k = 1 then
          match x.wbuf with
          | e :: _ => s.demand c .load true e.pc a fk false
          | [] => s
        else if 2 ≤ k ∧ k < 10 then
          match tGet x.str (24 + (k - 2)) with
          | some st => s.upd c fun x => { x with str := tPut x.str (24 + (k - 2)) { st with bad := some (fk, a, false) } }
          | none => s
        else if x.stat = .run then s.demand c (if k = 0 ∨ k = 20 then .load else .fetch) false x.pc a fk false
        else s

/-- The next piece of a load that waits is read (R89, R179, R187): with the last the instruction completes; `fin` completes it. -/
def State.readPiece (s : State) (c : Nat) (p : Piece) (r : List Piece) (sgn : Bool) (rd : Reg) (hi : Option Reg) (got : List Byte)
    (n k : Nat) (fin : State → List Byte → State) : State :=
  let bs := got ++ s.loadPieces c false [p]
  let s := s.touch [p]
  if r.isEmpty then fin s bs else s.upd c fun x => { x with stat := .wait (.load r sgn rd hi bs) n k }

/-- LOAD_REPLY (R179, 15 R267): the data of a load returns, piece by piece (R89), and the instruction that waits completes; an error that
could not be corrected freezes the core (18 R302). A peer's answers come so as well. -/
def execLoadReply (c : Nat) (rep : PeerReply) (s : State) : Out1 :=
  let x := s.core c
  let out (req : Option (Nat × Nat)) : Bool := match req with | some (p, b) => decide (b < 2) && ! s.net.any fun q => q.id == p | none => false
  match rep with
  | .performed p => .next (s.answered c p)
  | .fault q fk => .next (s.peerFault c q fk)
  | .withdrawn =>
    match x.stat with
    | .wait w n k => .next (if s.asked c then s.upd c fun x => { x with stat := .wait (w.recalled 2) n k } else s)
    | _ => .next s
  | .own | .val _ | .corrected | .dataErr =>
  if x.dbg.halted then .next s
  else match x.stat with
  | .wait (.load ps sgn rd hi got) n k =>
    let n0 := got.length + (ps.map (·.n)).sum
    let fin (s : State) (bs : List Byte) : State := s.wake c n k fun c =>
      match hi with
      | none => c.ws rd (widen sgn n0 bs)
      | some h => (c.ws rd (bytesWord (bs.take 8))).ws h (bytesWord (bs.drop 8))
    match ps with
    | [] => .next (fin s got)
    | p :: r =>
      let remote := ps.any fun p => match p.at_ with | .peer _ => true | _ => false
      let here := x.loadReady false [p] && ! remote && ! s.placeAway c (s.who c false).ctx p.at_
      match rep with
      | .dataErr =>
        let s := match p.at_ with
          | .dram pa => { s with upsets := tPut s.upsets (pa / 8) true }
          | _ => s
        .next (s.viol c .load false x.pc x.waitVal 0x24#8)
      | .val v => if remote then .next (fin s (leBytes n0 v.toNat)) else .next s
      | .own => if here then .next (s.soft c .load false x.pc x.waitVal [p] fun s => s.readPiece c p r sgn rd hi got n k fin) else .next s
      | .corrected =>
        if here then .next (s.soft c .load false x.pc x.waitVal [p] fun s =>
          (s.readPiece c p r sgn rd hi got n k fin).softCor c .load false x.pc x.waitVal)
        else .next s
      | _ => .next s
  | .wait (.atomic _ rd (some v) t) n k =>
    let r : Word := match t with | .i32 => (v.setWidth 32).signExtend 64 | _ => v
    .next (s.wake c n k fun c => c.ws rd r)
  | .wait (.atomic aid rd none t) n k =>
    let sent := x.acc.any fun a => a.aid == aid && match a.sent with | some p => ! s.net.any fun q => q.id == p | none => false
    match rep with
    | .val v =>
      if ! sent then .next s else
      let r : Word := match t with | .i32 => (v.setWidth 32).signExtend 64 | .u32 => (v.setWidth 32).setWidth 64 | _ => v.setWidth 64
      .next (s.wake c n k fun c => { c with acc := c.acc.filter fun a => a.aid != aid }.ws rd r)
    | _ => .next s
  | .wait (.tag op k _ rd _ _ _ req) n cost =>
    match rep with
    | .val v => if k > nCores ∧ out req then .next (s.wake c n cost fun c => if tagRd op then c.ws rd (v.setWidth 64) else c) else .next s
    | _ => .next s
  | .wait (.sigw k _ rd _ _ req) n cost =>
    match rep with
    | .val v => if k > nCores ∧ out req then .next (s.wake c n cost fun c => c.ws rd (v.setWidth 64)) else .next s
    | _ => .next s
  | _ =>
    match rep with
    | .val v => .next (s.upd c (Core.gotPeer v))
    | .dataErr =>
      match x.wbuf with
      | e :: _ => if x.wFrom.isSome then .next (s.viol c .load true e.pc x.wVal 0x24#8) else .next s
      | [] => .next s
    | .corrected =>
      match x.wbuf with
      | e :: _ => if x.wFrom.isSome then .next (s.softCor c .load true e.pc x.wVal) else .next s
      | [] => .next s
    | _ => .next s

/-- A request for a peer may be sent now: for the first time, or again after it has been withdrawn for a W trap or a pre-emption that has
not come (R96). -/
def Core.mayAsk (x : Core) (req : Option (Nat × Nat)) : Bool :=
  match req with
  | none => true
  | some (_, b) => b == 2 && x.wbuf.isEmpty && ! x.c.preq

/-- TAGGED_WAIT_WAKE (R94, R189): the oldest wait on a word whose condition holds is served, in one step; a request whose
domain has expired at the owning scratchpad is dropped there (08 R143). A request for a peer leaves once what comes before it is
performed. -/
def execTaggedWaitWake (c : Nat) (s : State) : Out1 :=
  let w := s.who c false
  if (s.core c).dbg.halted then .next s
  else match (s.core c).stat with
  | .wait (.tag op k off rd v t dom req) n cost =>
    if k > nCores then
      let a : Word := BitVec.ofNat 64 ((k - nCores) * 2 ^ 56 + off)
      if (s.core c).mayAsk req && (s.core c).tagReady (tagWrites op) (.peer a) then
        .next ((s.upd c fun x => { x with stat := .wait (.tag op k off rd v t dom (some (s.nextId, 0))) n cost }).send (k - nCores - 1)
          (.tagop op a v c) dom w.ctx c 0#16)
      else .next s
    else if tagCond op ((s.core k).full off) && (s.core c).tagReady (tagWrites op) (.sp k off) &&
        ! s.olderWaits k off w.ctx t && s.reachable c k w.ctx dom then
      .next (s.soft c .tagged false (s.core c).pc (s.core c).waitVal [⟨(s.core c).waitVal, .sp k off, 8, .sp, false⟩] fun s =>
        let r := tagDo op off v s.cyc (s.core k)
        (s.setCore k r.2).wake c n cost fun c => if tagRd op then c.ws rd r.1 else c)
    else .next s
  | .wait (.sigw k off rd v t req) n cost =>
    if k > nCores then
      let a : Word := BitVec.ofNat 64 ((k - nCores) * 2 ^ 56 + off)
      if (s.core c).mayAsk req && (s.core c).tagReady false (.peer a) then
        .next ((s.upd c fun x => { x with stat := .wait (.sigw k off rd v t (some (s.nextId, 0))) n cost }).send (k - nCores - 1)
          (.sigw a v c) w.dom w.ctx c 0#16)
      else .next s
    else
      let y := (s.core k).spWord off
      if sigOk y v && (s.core c).tagReady false (.sp k off) && ! s.olderWaits k off w.ctx t && s.reachable c k w.ctx w.dom then
        .next (s.soft c .tagged false (s.core c).pc (s.core c).waitVal [⟨(s.core c).waitVal, .sp k off, 8, .sp, false⟩] fun s =>
          s.wake c n cost fun c => c.ws rd y)
      else .next s
  | _ => .next s

/-- FENCE_DRAIN_END (R184, R185, 12 R212, R227): a fence, `drain`, `xfence` or `rseal` completes. -/
def execFenceDrainEnd (c : Nat) (s : State) : Out1 :=
  let x := s.core c
  if x.dbg.halted then .next s
  else match x.stat with
  | .wait (.fence st uo eng) n k => if x.fenceDone st uo then .next (s.wake c n k (Core.seen eng)) else .next s
  | .wait (.seal id rd) n k => if x.acc.any (fun a => a.aid == id) then .next s else .next (s.wake c n k fun c => c.ws rd 0#64)
  | _ => .next s

/-- WAIT_LIMIT_EXPIRY (R95, R97, R127, R156, R258, R358): a wait that has reached the limit stops without effect and raises
the recoverable wait-limit trap; so does a W load at the head. No wait ends so in a halt, nor one for a reply of a memory place while the
core is parked. -/
def execWaitLimitExpiry (c : Nat) (s : State) : Out1 :=
  let x := s.core c
  let lim := s.waitLimit c
  let due (f : Option Nat) : Bool := match f with | some t => decide (t + lim ≤ s.cyc) | none => false
  let through := match x.stat with | .wait (.fence _ _ _) _ _ => x.wbuf.isEmpty | _ => false
  let paused := x.park.isSome
  if x.dbg.halted then .next s
  else if due x.waitFrom && ! through && ! (paused && x.pauses c) then
    .next (({ s.unask c with cur := c }.updMe fun x => { x with waitFrom := none, stat := .run }).sTrap 0x10#8 x.waitVal)
  else if due x.wFrom && ! paused then
    match x.wbuf with
    | e :: _ => .next (s.wTrap c 0x10#8 e.pc x.wVal)
    | [] => .next s
  else .next s

end Sys2Proof.Machine
end

