-- ==== Sys2Proof/Machine/Nest.lean ====
section
/-! DEFINITION. Loop nests, sealed layout records (12_copy_streamer.md R209 to R211, R214), and reads of a record. -/

namespace Sys2Proof.Machine

/-! Iteration vectors (02 R39): five indices of 12 bits. -/

/-- Index of level L. -/
def lvl (w : Word) (l : Nat) : Nat := bits w (12 * l + 11) (12 * l)

/-- The bits above the indices are 0 and every index is at most its count less 1 (R213, 09 R171). -/
def iterOk (cnt it : Word) : Bool := bits it 63 60 == 0 && (List.range 5).all fun l => decide (lvl it l ≤ lvl cnt l)

/-- The next iteration, level 0 fastest (R214). -/
def iterNext (cnt it : Word) : Option Word := go [0, 1, 2, 3, 4] it
where
  go : List Nat → Word → Option Word
    | [], _ => none
    | l :: r, it =>
      if lvl it l < lvl cnt l then some (it + (1#64 <<< (12 * l)))
      else go r (it - BitVec.ofNat 64 (lvl it l * 2 ^ (12 * l)))

/-- The sum of index times stride (R214). -/
def nestSum (ss : List Int) (it : Word) : Int := ((List.range 5).map fun l => (lvl it l : Int) * ss.getD l 0).sum

/-- The number of iterations of the whole nest (R214). -/
def nestCount (cnt : Word) : Nat := ((List.range 5).map fun l => lvl cnt l + 1).foldl (· * ·) 1

/-- The least and greatest offset over the iterations from START on (R214): START itself, and for each level the boxes in
which the levels above stand as in START, this one is above START and those below take every value. -/
def nestSpan (ss : List Int) (cnt start : Word) : Int × Int :=
  let z := nestSum ss start
  (List.range 5).foldl (fun (r : Int × Int) l =>
    if lvl start l < lvl cnt l then
      let up := ((List.range 5).map fun k => if k > l then (lvl start k : Int) * ss.getD k 0 else 0).sum
      let s := ss.getD l 0
      let a := s * (lvl start l + 1 : Nat)
      let b := s * (lvl cnt l : Nat)
      let lo := ((List.range 5).map fun k => if k < l then min 0 (ss.getD k 0 * (lvl cnt k : Nat)) else 0).sum
      let hi := ((List.range 5).map fun k => if k < l then max 0 (ss.getD k 0 * (lvl cnt k : Nat)) else 0).sum
      (min r.1 (up + min a b + lo), max r.2 (up + max a b + hi))
    else r) (z, z)

/-! Layout records. -/

/-- A layout record (R209), its bytes. -/
abbrev LayRec := List Byte

def recWord (r : LayRec) (off : Nat) : Word := bytesWord ((r.drop off).take 8)
def recSz (r : LayRec) : Bool := (recWord r 8).getLsbD 56
/-- The bytes of a record by its SZ bit. -/
def recLen (r : LayRec) : Nat := if recSz r then 256 else 128
def recGran (r : LayRec) : Nat :=
  match bits (recWord r 8) 28 26 with
  | 0 => 1
  | 1 => 2
  | 2 => 4
  | 3 => 8
  | 4 => 64
  | _ => 0
def recRun (r : LayRec) : Nat := bits (recWord r 8) 47 32
def recCnt (r : LayRec) : Word := recWord r 16
def recSs (r : LayRec) : List Word := (List.range 5).map fun l => recWord r (24 + 8 * l)
def recDs (r : LayRec) : List Word := (List.range 5).map fun l => recWord r (64 + 8 * l)
def ints (l : List Word) : List Int := l.map (·.toInt)

/-- CRC-32C of the body and the version (R210). -/
def recSeal (r : LayRec) (ver : List Byte) : BitVec 32 := crc32c ((r.take (recLen r)).drop 8 ++ ver)
/-- The record is sealed (R210). -/
def recSealed (r : LayRec) : Bool := BitVec.ofNat 32 (leNat ((r.drop 4).take 4)) == recSeal r (r.take 4)

/-- The record is well shaped (R211). -/
def recShaped (r : LayRec) : Bool :=
  let w := recWord r 8
  let g := recGran r
  (bits w 63 57 == 0 && bits w 55 48 == 0 && bits w 31 29 == 0 && bits w 25 0 == 0 && bits (recCnt r) 63 60 == 0 &&
    ((r.drop 104).take 24).all (· == 0#8)) &&
  decide (g ≠ 0) && recRun r % g == 0 && (recSs r ++ recDs r).all fun x => x.toNat % g == 0

/-- What a read of bytes by a stream gives: the bytes, a wait for a peer's replies, or the check that fails. -/
inductive RdOut where
  | ok (bs : List Byte) (s : State)
  | wait (s : State)
  | bad (c : Chk)
deriving DecidableEq, Repr

/-- The pieces of a run of bytes that a streamer moves (R219, R220): whole aligned blocks, else naturally aligned pieces of at
most 8 bytes. -/
def runParts : Nat → Word → Nat → List (Word × Nat)
  | 0, _, _ => []
  | f + 1, a, n =>
    if n = 0 then [] else
    let m := ([64, 8, 4, 2, 1].find? fun m => decide (m ≤ n) && a.toNat % m == 0).getD 1
    (a, m) :: runParts f (a + BitVec.ofNat 64 m) (n - m)

/-- All checks of a run (R200, R219). -/
def State.chkRun (s : State) (w : Who) (b : TBuf) (acc : Acc) (fps : Option (List (BitVec 128))) : List (Word × Nat) → Chk
  | [] => .ok [] s
  | (a, n) :: r =>
    match s.chk w b acc fps a n with
    | .ok ps s2 =>
      match s2.chkRun w b acc fps r with
      | .ok qs s3 => .ok (ps ++ qs) s3
      | x => x
    | x => x

def anyPeer (ps : List Piece) : Bool := ps.any fun p => match p.at_ with | .peer _ => true | _ => false

/-- Bytes of checked pieces (R88): at a peer they are asked for, sixteen at a time, under a key of the core, and waited for
(20 R321). Those of a stream (keys 0 and 1) are read once what comes before them is performed (02 R32, 10 R181, R182); keys from 10
on are those of fetches. -/
def State.readPieces (_ : State) (w : Who) (key : Nat) (a : Word) (n : Nat) : Chk → RdOut
  | .ok ps s =>
    if anyPeer ps then
      let (asked, bs) := match tGet (s.core w.core).pread key with
        | some (b, m, bs) => if b = a then (m, bs) else (0, [])
        | none => (0, [])
      if n ≤ bs.length then .ok (bs.take n) s
      else if asked < n then
        if (key ≤ 1 ∨ key = 20) ∧ ! (s.core w.core).loadReady w.w ps then .wait s
        else
          let s := (List.range ((n - asked + 15) / 16)).foldl (fun (s : State) i =>
            let b := a + BitVec.ofNat 64 (asked + 16 * i)
            let m := min 16 (n - asked - 16 * i)
            s.send (bits a 63 56 - 1) (if key < 10 ∨ key = 20 then .load b m w.core else .fetch b m w.core) w.dom w.ctx w.core 0#16) s
          .wait (s.upd w.core fun x => { x with pread := tPut x.pread key (a, n, bs) })
      else .wait s
    else if key > 1 then
      let s := s.seeLate w.core
      .ok (ps.map fun p => s.engRead w.core p.at_ p.n).flatten s
    else if (s.core w.core).loadReady w.w ps then .ok (s.loadPieces w.core w.w ps) s
    else .wait s
  | c => .bad c

/-- Reads a run of bytes as loads of a stream, in the parts given: an armed watermark stalls each of them (R225), and each may meet a
watchpoint (24 R339). -/
def State.readRun (s : State) (w : Who) (a : Word) (n : Nat) (l : List (Word × Nat)) : RdOut :=
  if l.any fun p => (s.core w.core).wmBlocks p.1 p.2 then .wait s
  else
    match s.readPieces w (if w.w then 1 else 0) a n (s.chkRun w .d .load (s.taskFps w.task) l) with
    | .ok bs t => .ok bs (l.foldl (fun (t : State) p => t.watch w.core .load p.1 p.2) t)
    | r => r

/-- Reads `n` bytes as a load of a stream. -/
def State.readBytes (s : State) (w : Who) (a : Word) (n : Nat) : RdOut := s.readRun w a n [(a, n)]

/-- Reads a layout record: 128 bytes, or 256 when its SZ says so (R209). -/
def State.readRec (s : State) (w : Who) (a : Word) : RdOut :=
  match s.readBytes w a 128 with
  | .ok r s1 =>
    if ! recSz r then .ok r s1
    else
      match classify s.own w.core a with
      | .peer _ => s1.readBytes w a 256
      | _ =>
        match s1.readBytes w (a + 128#64) 128 with
        | .ok r2 s2 => .ok (r ++ r2) s2
        | o => o
  | o => o

end Sys2Proof.Machine
end

