-- ==== Sys2Proof/Machine/Vec.lean ====
section
/-! DEFINITION. W issue and landing (02 R22 to R27), and the lane functions of the vector unit (06 R98 to R107). -/

namespace Sys2Proof.Machine

/-- What a W instruction at the head does in a cycle (R22): it issues, with its issue interval, latency, target and flags; it
stalls; or something else happens to the core (a trap, a violation, a fault). -/
inductive WOut where
  | done (s : State) (i l : Nat) (tgt : WTgt) (fl : BitVec 5)
  | stall (s : State)
  | other (s : State)
deriving DecidableEq, Repr

/-- The entry at the head of the current core's W buffer. -/
def State.head (s : State) : WEnt := s.me.wbuf.head?.getD ⟨0#32, 0#64, 0#64, 0, none, 0⟩

/-- Issues the W head of the current core (R22, R26): the entry leaves the buffer, its write and flags land at the end of
cycle t + L - 1. A stall counts (R343). -/
def State.wIssue (s : State) (f : State → WOut) : State :=
  match f s with
  | .done t i l tgt fl =>
    let pc := s.head.pc
    let t := t.updMe fun x =>
      { x with
        wbuf := x.wbuf.tail, wReady := s.cyc + i, wFrom := none, pread := tDel x.pread 1
        wpend := if tgt = .none ∧ fl = 0#5 then x.wpend else x.wpend ++ [⟨s.cyc + (l - 1), tgt, fl⟩] }
    { t.count s.cur 2#3 pc true with phase := .s }
  | .stall t => { (t.updMe fun x => { x with wReady := s.cyc + 1 }).count s.cur 3#3 s.head.pc true with phase := .s }
  | .other t => { t with phase := .s }

/-- A W instruction: in its S slot it is dispatched with its constant operand (R21, R29); at the W head it issues. -/
def wInstr (w : BitVec 32) (cst : State → Word) (f : State → WOut) (s : State) : Out1 :=
  match s.phase with
  | .s => .next (s.dispatch w (cst s))
  | .w => .next (s.wIssue f)

/-- No constant operand. -/
def noC (_ : State) : Word := 0#64
/-- The window word named by CIX (R29, R105). -/
def cC (i : CIx) (s : State) : Word := s.me.cw i

/-- A lane of a write under a mask (R26, R99). -/
def laneMask (m : BitVec 48) (i : Fin 48) : Bool := m.getLsbD i.val

/-- A pending write lands (R26): masked lanes keep what they hold; sticky flags are set (R36). -/
def Core.landOne (c : Core) (p : WPend) : Core :=
  let c := c.raise p.fl
  match p.tgt with
  | .v r m x =>
    let o := c.rv r
    { c with r := { c.r with v := c.r.v.set r.toNat (Vector.ofFn fun i => if laneMask m i then x[i] else o[i]) r.isLt } }
  | .k r m x =>
    if r = 0#3 then c
    else { c with r := { c.r with k := c.r.k.set r.toNat ((c.rk r &&& ~~~ m) ||| (x &&& m)) r.isLt } }
  | .q n x k => c.push (1#1 ++ n) x (p.land + 1) k
  | .none => c

/-- The stream trap (12 R229): TRAPVAL is register * 256 + reason. -/
def State.strTrap (s : State) (r : VReg) (reason : Nat) : State :=
  s.wTrap s.cur 0x09#8 s.head.pc (BitVec.ofNat 64 (r.toNat * 256 + reason))

/-- What stops an instruction whose sources are these registers (R229): a read after the last strip traps with reason 2, an
empty buffer stalls, a strip that faulted parks the core. -/
def State.srcStop (s : State) : List VReg → Option WOut
  | [] => none
  | r :: l =>
    match tGet s.me.str r.toNat with
    | none => s.srcStop l
    | some st =>
      match st.buf with
      | _ :: _ => s.srcStop l
      | [] =>
        match st.bad with
        | some (fk, a, l) =>
          let k := tPut s.me.str r.toNat { st with bad := none }
          some (.other ((s.updMe fun c => { c with str := k }).demand s.cur .strip true s.head.pc a fk l))
        | none => some (if st.next.isNone then .other (s.strTrap r 2) else .stall s)

/-- Pops one strip of each source in stream mode (R229). -/
def Core.popStrips (l : List VReg) (c : Core) : Core :=
  l.eraseDups.foldl (fun (c : Core) (r : VReg) =>
    match tGet c.str r.toNat with
    | some st =>
      match st.buf with
      | x :: b => { c with str := tPut c.str r.toNat { st with buf := b, last := x } }
      | [] => c
    | none => c) c

/-- The sources of a W instruction and its destination tested (R229): a write to a register in stream mode traps with reason
3; when the instruction issues, each source in stream mode has given one strip. -/
def withSrc (l : List VReg) (d : Option VReg) (k : State → WOut) (s : State) : WOut :=
  match d.bind fun d => if (tGet s.me.str d.toNat).isSome then some d else none with
  | some d => .other (s.strTrap d 3)
  | none =>
    match s.srcStop l with
    | some o => o
    | none =>
      match k s with
      | .done t i n tgt fl => .done (t.updMe (Core.popStrips l)) i n tgt fl
      | o => o

/-- The value of a source: the next strip of a register in stream mode, else the register (R229). -/
def Core.src (c : Core) (r : VReg) : Lanes :=
  match tGet c.str r.toNat with
  | some st => st.buf.headD st.last
  | none => c.rv r

/-- Lanes computed one by one, with the flags of the lanes in the mask (R55, R99). -/
def lanesF (m : BitVec 48) (f : Fin 48 → Lane × BitVec 5) : Lanes × BitVec 5 :=
  (Vector.ofFn fun i => (f i).1,
    (List.finRange 48).foldl (fun fl i => if laneMask m i then fl ||| (f i).2 else fl) 0#5)

def lo16 (x : Lane) : BitVec 16 := x.extractLsb' 0 16
def hi16 (x : Lane) : BitVec 16 := x.extractLsb' 16 16
/-- A BF16 lane made from its two elements' results (R54, R99). -/
def bfPair (l h : BitVec 16 × BitVec 5) : Lane × BitVec 5 := (h.1 ++ l.1, l.2 ||| h.2)

/-- A function of two operands under a type (R100). -/
def op2 (ff : FV → FV → FV × Bool) (fi : Lane → Lane → Lane) (t : VTy) (a b : Lane) : Lane × BitVec 5 :=
  match t with
  | .f32 => toF32 (ff (f32Val a) (f32Val b))
  | .bf16 => bfPair (toBF16 (ff (bf16Val (lo16 a)) (bf16Val (lo16 b)))) (toBF16 (ff (bf16Val (hi16 a)) (bf16Val (hi16 b))))
  | .i32 => (fi a b, 0#5)

def opAdd : VTy → Lane → Lane → Lane × BitVec 5 := op2 fAdd (fun a b => a + b)
def opSub : VTy → Lane → Lane → Lane × BitVec 5 := op2 (fun a b => fAdd a b.neg) (fun a b => a - b)
def opMul : VTy → Lane → Lane → Lane × BitVec 5 := op2 fMul (fun a b => a * b)
def opMin : VTy → Lane → Lane → Lane × BitVec 5 := op2 fMin (fun a b => if a.slt b then a else b)
def opMax : VTy → Lane → Lane → Lane × BitVec 5 := op2 fMax (fun a b => if b.slt a then a else b)
def opAnd (_ : VTy) (a b : Lane) : Lane × BitVec 5 := (a &&& b, 0#5)
def opOr (_ : VTy) (a b : Lane) : Lane × BitVec 5 := (a ||| b, 0#5)
def opXor (_ : VTy) (a b : Lane) : Lane × BitVec 5 := (a ^^^ b, 0#5)
/-- Shifts by b mod 32 (R102). -/
def opShl (_ : VTy) (a b : Lane) : Lane × BitVec 5 := (a <<< (b.toNat % 32), 0#5)
def opShr (_ : VTy) (a b : Lane) : Lane × BitVec 5 := (a >>> (b.toNat % 32), 0#5)
def opSra (_ : VTy) (a b : Lane) : Lane × BitVec 5 := (a.sshiftRight (b.toNat % 32), 0#5)
def opAbs (t : VTy) (a _b : Lane) : Lane × BitVec 5 := op2 (fun x _ => (x.abs, false)) (fun x _ => if x.slt 0#32 then -x else x) t a a
def opNeg (t : VTy) (a _b : Lane) : Lane × BitVec 5 := op2 (fun x _ => (x.neg, false)) (fun x _ => -x) t a a

/-- a * b + c or a * b - c, rounded once (R100). -/
def opFma (neg : Bool) (t : VTy) (a b c : Lane) : Lane × BitVec 5 :=
  let f (x y z : FV) : FV × Bool := fFma x y (if neg then z.neg else z)
  match t with
  | .f32 => toF32 (f (f32Val a) (f32Val b) (f32Val c))
  | .bf16 =>
    bfPair (toBF16 (f (bf16Val (lo16 a)) (bf16Val (lo16 b)) (bf16Val (lo16 c))))
      (toBF16 (f (bf16Val (hi16 a)) (bf16Val (hi16 b)) (bf16Val (hi16 c))))
  | .i32 => (if neg then a * b - c else a * b + c, 0#5)

/-- A relation between two values: false with a NaN, VNV for a signalling one (R101). -/
def fRel (r : Int → Bool) (a b : FV) : Bool × BitVec 5 :=
  (! a.isNan && ! b.isNan && r (fCmp a b), if a.sig || b.sig then flNV else 0#5)

/-- The bit of a compare in a lane (R101): for BF16 the relation holds for both elements. -/
def opRel (rf : Int → Bool) (t : VTy) (a b : Lane) : Bool × BitVec 5 :=
  match t with
  | .f32 => fRel rf (f32Val a) (f32Val b)
  | .bf16 =>
    let l := fRel rf (bf16Val (lo16 a)) (bf16Val (lo16 b))
    let h := fRel rf (bf16Val (hi16 a)) (bf16Val (hi16 b))
    (l.1 && h.1, l.2 ||| h.2)
  | .i32 => (rf (a.toInt - b.toInt).sign, 0#5)

def relEq (c : Int) : Bool := c == 0
def relLt (c : Int) : Bool := decide (c < 0)
def relLe (c : Int) : Bool := decide (c ≤ 0)

/-- A mask of bits. -/
def maskOf (f : Fin 48 → Bool) : BitVec 48 :=
  (List.finRange 48).foldr (fun i (b : BitVec 48) => (b <<< 1) ||| (if f i then 1#48 else 0#48)) 0#48

/-- A V2 instruction (R99): operands read at issue, result under the mask. -/
def iV2 (l i : Nat) (f : Lane → Lane → Lane × BitVec 5) (k : KReg) (b a d : VReg) : State → WOut :=
  withSrc [a, b] (some d) fun s =>
    let m := s.me.rk k
    let x := s.me.src a
    let y := s.me.src b
    let r := lanesF m fun n => f x[n] y[n]
    .done s i l (.v d m r.1) r.2

/-- A V3 instruction (R99). -/
def iV3 (l : Nat) (f : Lane → Lane → Lane → Lane × BitVec 5) (k : KReg) (c b a d : VReg) : State → WOut :=
  withSrc [a, b, c] (some d) fun s =>
    let m := s.me.rk k
    let x := s.me.src a
    let y := s.me.src b
    let z := s.me.src c
    let r := lanesF m fun n => f x[n] y[n] z[n]
    .done s 1 l (.v d m r.1) r.2

/-- The lane value of a window word (R105). -/
def constLane (t : VTy) (w : Word) : Lane :=
  match t with
  | .bf16 => w.extractLsb' 0 16 ++ w.extractLsb' 0 16
  | _ => w.extractLsb' 0 32

/-- A VC instruction (R105): the second operand is the window word read at dispatch. -/
def iVC (l : Nat) (t : VTy) (f : VTy → Lane → Lane → Lane × BitVec 5) (k : KReg) (a d : VReg) : State → WOut :=
  withSrc [a] (some d) fun s =>
    let m := s.me.rk k
    let x := s.me.src a
    let y := constLane t s.head.cst
    let r := lanesF m fun n => f t x[n] y
    .done s 1 l (.v d m r.1) r.2

/-- A V2 compare (R101). -/
def iCmp (rf : Int → Bool) (k : KReg) (t : VTy) (b a : VReg) (d : KReg) : State → WOut :=
  withSrc [a, b] none fun s =>
    let m := s.me.rk k
    let x := s.me.src a
    let y := s.me.src b
    let fl := (List.finRange 48).foldl (fun fl i => if laneMask m i then fl ||| (opRel rf t x[i] y[i]).2 else fl) 0#5
    .done s 1 2 (.k d m (maskOf fun i => (opRel rf t x[i] y[i]).1)) fl

/-- A VC compare (R105). -/
def iCmpC (rf : Int → Bool) (t : VTy) (k : KReg) (a : VReg) (d : KReg) : State → WOut :=
  withSrc [a] none fun s =>
    let m := s.me.rk k
    let x := s.me.src a
    let y := constLane t s.head.cst
    let fl := (List.finRange 48).foldl (fun fl i => if laneMask m i then fl ||| (opRel rf t x[i] y).2 else fl) 0#5
    .done s 1 2 (.k d m (maskOf fun i => (opRel rf t x[i] y).1)) fl

/-- `vsel`: MK selects and does not mask (R102). -/
def iSel (k : KReg) (b a d : VReg) : State → WOut :=
  withSrc [a, b] (some d) fun s =>
    let m := s.me.rk k
    let x := s.me.src a
    let y := s.me.src b
    .done s 1 2 (.v d (BitVec.allOnes 48) (Vector.ofFn fun i => if laneMask m i then x[i] else y[i])) 0#5

/-- `vperm` (R102). -/
def iPerm (k : KReg) (b a d : VReg) : State → WOut :=
  withSrc [a, b] (some d) fun s =>
    let x := s.me.src a
    let y := s.me.src b
    .done s 1 3 (.v d (s.me.rk k) (Vector.ofFn fun i => x.toList.getD (y[i].toNat % 64) 0#32)) 0#5

/-- A conversion of a lane (R103). -/
def opCvt (t f : VTy) (a : Lane) : Lane × BitVec 5 :=
  let toI (v : FV) : Lane × BitVec 5 := let r := toIntSat v (-2147483648) 2147483647; (BitVec.ofInt 32 r.1, r.2)
  let ofI : FV := .fin (decide (a.toInt < 0)) a.toInt.natAbs 0
  match t, f with
  | .i32, .f32 => toI (f32Val a)
  | .i32, .bf16 => toI (bf16Val (lo16 a))
  | .f32, .i32 => f32Of ofI
  | .f32, .bf16 => toF32 (bf16Val (lo16 a), false)
  | .bf16, .f32 => let r := bf16Of (f32Val a); (0#16 ++ r.1, r.2)
  | .bf16, .i32 => let r := bf16Of ofI; (0#16 ++ r.1, r.2)
  | _, _ => (a, 0#5)

/-- A transcendental of a lane (R104). -/
def opTrans (f : Bool → BitVec 32 → BitVec 32 × BitVec 5) (t : FTy) (a _b : Lane) : Lane × BitVec 5 :=
  match t with
  | .f32 => f false a
  | .bf16 => bfPair (transBF16 f (lo16 a)) (transBF16 f (hi16 a))

/-! Queue moves and reductions (R106, R107). -/

/-- The W head finds q_n empty: it stalls, for ever once the S stream has reached `done` (R25). -/
def emptyQ (n : BitVec 2) (s : State) : WOut :=
  match s.me.stat with
  | .ending _ => .other (s.wTrap s.cur 0x04#8 s.head.pc (n.setWidth 64))
  | .trapping ⟨_, _, _, false⟩ => .other (s.wTrap s.cur 0x04#8 s.head.pc (n.setWidth 64))
  | _ => .stall s

/-- The oldest entry of q_n is popped by the W stream (R24): what follows comes after the accesses that precede its write (R32). -/
def Core.popW (c : Core) (q : BitVec 3) : Core := { c.pop q with wAfter := max c.wAfter (c.qhead q).2 }

/-- A function that pops q_n into the W stream (R24); an entry can be popped from the cycle after its write on. -/
def popQ (n : BitVec 2) (k : Word → State → WOut) (s : State) : WOut :=
  match s.me.rq (0#1 ++ n) with
  | x :: _ => if s.cyc < (s.me.qhead (0#1 ++ n)).1 then .stall s else k x (s.updMe fun c => c.popW (0#1 ++ n))
  | [] => emptyQ n s

/-- A function that writes q_n+4 takes a slot when it issues: it is full when entries and taken slots make four (R24). -/
def pushQ (n : BitVec 2) (l : Nat) (fl : BitVec 5) (x : Word) (s : State) : WOut :=
  let taken := (s.me.wpend.filter fun p => match p.tgt with | .q m _ _ => m == n | _ => false).length
  if (s.me.rq (1#1 ++ n)).length + taken < 4 then .done s 1 l (.q n x s.nextId) fl else .stall s

/-- A node of a reduction (R76, R107). -/
def redF (ff : FV → FV → FV × Bool) (x y : BitVec 32 × BitVec 5) : BitVec 32 × BitVec 5 :=
  let r := toF32 (ff (f32Val x.1) (f32Val y.1))
  (r.1, x.2 ||| y.2 ||| r.2)
def redI (f : Int → Int → Int) (x y : Int × BitVec 5) : Int × BitVec 5 :=
  let v := f x.1 y.1
  let c := max (-2147483648) (min 2147483647 v)
  (c, x.2 ||| y.2 ||| if c = v then 0#5 else flIS)

/-- A reduction over the lanes (R76, R77, R107): `ff` and `fi` are the operation, `idf` and `idi` its identities. -/
def reduce (ff : FV → FV → FV × Bool) (fi : Int → Int → Int) (idf : BitVec 32) (idi : Int) (t : VTy) (m : BitVec 48)
    (x : Lanes) : Word × BitVec 5 :=
  match t with
  | .f32 =>
    let r := tree48 (redF ff) (idf, 0#5) ((List.finRange 48).map fun i => if laneMask m i then (x[i], 0#5) else (idf, 0#5))
    (r.1.setWidth 64, r.2)
  | .bf16 =>
    let r := tree48 (redF ff) (idf, 0#5) ((List.finRange 48).map fun i =>
      if laneMask m i then redF ff (lo16 x[i] ++ 0#16 |> fun w => toF32 (f32Val w, false)) (hi16 x[i] ++ 0#16 |> fun w => toF32 (f32Val w, false))
      else (idf, 0#5))
    (r.1.setWidth 64, r.2)
  | .i32 =>
    let r := tree48 (redI fi) (idi, 0#5) ((List.finRange 48).map fun i => if laneMask m i then (x[i].toInt, 0#5) else (idi, 0#5))
    (BitVec.ofInt 64 r.1, r.2)

def redAdd : VTy → BitVec 48 → Lanes → Word × BitVec 5 := reduce fAdd (· + ·) 0x80000000#32 0
def redMax : VTy → BitVec 48 → Lanes → Word × BitVec 5 := reduce fMax max 0xFF800000#32 (-2147483648)
def redMin : VTy → BitVec 48 → Lanes → Word × BitVec 5 := reduce fMin min 0x7F800000#32 2147483647

end Sys2Proof.Machine
end

