-- ==== Sys2Proof/Machine/VecInstr.lean ====
section
/-! DEFINITION. Vector instructions of MAJ 0x20 to 0x25 (06 R97 to R107), one issue and one meaning each, with the latencies and
issue intervals of R114. -/

namespace Sys2Proof.Machine

/-- Issue of `vadd` (R100). -/
def issueVadd (k : KReg) (t : VTy) (b : VReg) (a : VReg) (d : VReg) : State → WOut := iV2 4 1 (opAdd t) k b a d
/-- `vadd` (R100). -/
def execVadd (k : KReg) (t : VTy) (b : VReg) (a : VReg) (d : VReg) (s : State) : Out1 :=
  wInstr (fV2 k t.code 0x0#5 b a d 0x20#6) noC (issueVadd k t b a d) s
/-- Issue of `vsub` (R100). -/
def issueVsub (k : KReg) (t : VTy) (b : VReg) (a : VReg) (d : VReg) : State → WOut := iV2 4 1 (opSub t) k b a d
/-- `vsub` (R100). -/
def execVsub (k : KReg) (t : VTy) (b : VReg) (a : VReg) (d : VReg) (s : State) : Out1 :=
  wInstr (fV2 k t.code 0x1#5 b a d 0x20#6) noC (issueVsub k t b a d) s
/-- Issue of `vmul` (R100). -/
def issueVmul (k : KReg) (t : VTy) (b : VReg) (a : VReg) (d : VReg) : State → WOut := iV2 (match t with | .i32 => 5 | _ => 4) 1 (opMul t) k b a d
/-- `vmul` (R100). -/
def execVmul (k : KReg) (t : VTy) (b : VReg) (a : VReg) (d : VReg) (s : State) : Out1 :=
  wInstr (fV2 k t.code 0x2#5 b a d 0x20#6) noC (issueVmul k t b a d) s
/-- Issue of `vmin` (R100). -/
def issueVmin (k : KReg) (t : VTy) (b : VReg) (a : VReg) (d : VReg) : State → WOut := iV2 4 1 (opMin t) k b a d
/-- `vmin` (R100). -/
def execVmin (k : KReg) (t : VTy) (b : VReg) (a : VReg) (d : VReg) (s : State) : Out1 :=
  wInstr (fV2 k t.code 0x3#5 b a d 0x20#6) noC (issueVmin k t b a d) s
/-- Issue of `vmax` (R100). -/
def issueVmax (k : KReg) (t : VTy) (b : VReg) (a : VReg) (d : VReg) : State → WOut := iV2 4 1 (opMax t) k b a d
/-- `vmax` (R100). -/
def execVmax (k : KReg) (t : VTy) (b : VReg) (a : VReg) (d : VReg) (s : State) : Out1 :=
  wInstr (fV2 k t.code 0x4#5 b a d 0x20#6) noC (issueVmax k t b a d) s
/-- Issue of `vabs` (R100). -/
def issueVabs (k : KReg) (t : VTy) (a : VReg) (d : VReg) : State → WOut := iV2 4 1 (opAbs t) k a a d
/-- `vabs` (R100). -/
def execVabs (k : KReg) (t : VTy) (a : VReg) (d : VReg) (s : State) : Out1 :=
  wInstr (fV2 k t.code 0x5#5 0#5 a d 0x20#6) noC (issueVabs k t a d) s
/-- Issue of `vneg` (R100). -/
def issueVneg (k : KReg) (t : VTy) (a : VReg) (d : VReg) : State → WOut := iV2 4 1 (opNeg t) k a a d
/-- `vneg` (R100). -/
def execVneg (k : KReg) (t : VTy) (a : VReg) (d : VReg) (s : State) : Out1 :=
  wInstr (fV2 k t.code 0x6#5 0#5 a d 0x20#6) noC (issueVneg k t a d) s
/-- Issue of `vceq` (R101). -/
def issueVceq (k : KReg) (t : VTy) (b : VReg) (a : VReg) (d : KReg) : State → WOut := iCmp relEq k t b a d
/-- `vceq` (R101). -/
def execVceq (k : KReg) (t : VTy) (b : VReg) (a : VReg) (d : KReg) (s : State) : Out1 :=
  wInstr (fV2 k t.code 0x7#5 b a (0#2 ++ d) 0x20#6) noC (issueVceq k t b a d) s
/-- Issue of `vclt` (R101). -/
def issueVclt (k : KReg) (t : VTy) (b : VReg) (a : VReg) (d : KReg) : State → WOut := iCmp relLt k t b a d
/-- `vclt` (R101). -/
def execVclt (k : KReg) (t : VTy) (b : VReg) (a : VReg) (d : KReg) (s : State) : Out1 :=
  wInstr (fV2 k t.code 0x8#5 b a (0#2 ++ d) 0x20#6) noC (issueVclt k t b a d) s
/-- Issue of `vcle` (R101). -/
def issueVcle (k : KReg) (t : VTy) (b : VReg) (a : VReg) (d : KReg) : State → WOut := iCmp relLe k t b a d
/-- `vcle` (R101). -/
def execVcle (k : KReg) (t : VTy) (b : VReg) (a : VReg) (d : KReg) (s : State) : Out1 :=
  wInstr (fV2 k t.code 0x9#5 b a (0#2 ++ d) 0x20#6) noC (issueVcle k t b a d) s
/-- Issue of `vsel` (R102). -/
def issueVsel (k : KReg) (b : VReg) (a : VReg) (d : VReg) : State → WOut := iSel k b a d
/-- `vsel` (R102). -/
def execVsel (k : KReg) (t : VTy) (b : VReg) (a : VReg) (d : VReg) (s : State) : Out1 :=
  wInstr (fV2 k t.code 0xA#5 b a d 0x20#6) noC (issueVsel k b a d) s
/-- Issue of `vand` (R102). -/
def issueVand (k : KReg) (t : VTy) (b : VReg) (a : VReg) (d : VReg) : State → WOut := iV2 2 1 (opAnd t) k b a d
/-- `vand` (R102). -/
def execVand (k : KReg) (t : VTy) (b : VReg) (a : VReg) (d : VReg) (s : State) : Out1 :=
  wInstr (fV2 k t.code 0xB#5 b a d 0x20#6) noC (issueVand k t b a d) s
/-- Issue of `vor` (R102). -/
def issueVor (k : KReg) (t : VTy) (b : VReg) (a : VReg) (d : VReg) : State → WOut := iV2 2 1 (opOr t) k b a d
/-- `vor` (R102). -/
def execVor (k : KReg) (t : VTy) (b : VReg) (a : VReg) (d : VReg) (s : State) : Out1 :=
  wInstr (fV2 k t.code 0xC#5 b a d 0x20#6) noC (issueVor k t b a d) s
/-- Issue of `vxor` (R102). -/
def issueVxor (k : KReg) (t : VTy) (b : VReg) (a : VReg) (d : VReg) : State → WOut := iV2 2 1 (opXor t) k b a d
/-- `vxor` (R102). -/
def execVxor (k : KReg) (t : VTy) (b : VReg) (a : VReg) (d : VReg) (s : State) : Out1 :=
  wInstr (fV2 k t.code 0xD#5 b a d 0x20#6) noC (issueVxor k t b a d) s
/-- Issue of `vshl` (R102). -/
def issueVshl (k : KReg) (b : VReg) (a : VReg) (d : VReg) : State → WOut := iV2 2 1 (opShl .i32) k b a d
/-- `vshl` (R102). -/
def execVshl (k : KReg) (b : VReg) (a : VReg) (d : VReg) (s : State) : Out1 :=
  wInstr (fV2 k 2#3 0xE#5 b a d 0x20#6) noC (issueVshl k b a d) s
/-- Issue of `vshr` (R102). -/
def issueVshr (k : KReg) (b : VReg) (a : VReg) (d : VReg) : State → WOut := iV2 2 1 (opShr .i32) k b a d
/-- `vshr` (R102). -/
def execVshr (k : KReg) (b : VReg) (a : VReg) (d : VReg) (s : State) : Out1 :=
  wInstr (fV2 k 2#3 0xF#5 b a d 0x20#6) noC (issueVshr k b a d) s
/-- Issue of `vsra` (R102). -/
def issueVsra (k : KReg) (b : VReg) (a : VReg) (d : VReg) : State → WOut := iV2 2 1 (opSra .i32) k b a d
/-- `vsra` (R102). -/
def execVsra (k : KReg) (b : VReg) (a : VReg) (d : VReg) (s : State) : Out1 :=
  wInstr (fV2 k 2#3 0x10#5 b a d 0x20#6) noC (issueVsra k b a d) s
/-- Issue of `vcvt` (R103). -/
def issueVcvt (k : KReg) (t : VTy) (s : VTy) (a : VReg) (d : VReg) : State → WOut := iV2 4 1 (fun x _ => opCvt t s x) k a a d
/-- `vcvt` (R103). -/
def execVcvt (k : KReg) (t : VTy) (s : VTy) (a : VReg) (d : VReg) (st : State) : Out1 :=
  wInstr (fV2 k t.code 0x11#5 (0#2 ++ s.code) a d 0x20#6) noC (issueVcvt k t s a d) st
/-- Issue of `vrcp` (R104). -/
def issueVrcp (k : KReg) (t : FTy) (a : VReg) (d : VReg) : State → WOut := iV2 12 2 (opTrans rcp32 t) k a a d
/-- `vrcp` (R104). -/
def execVrcp (k : KReg) (t : FTy) (a : VReg) (d : VReg) (s : State) : Out1 :=
  wInstr (fV2 k t.code 0x12#5 0#5 a d 0x20#6) noC (issueVrcp k t a d) s
/-- Issue of `vrsq` (R104). -/
def issueVrsq (k : KReg) (t : FTy) (a : VReg) (d : VReg) : State → WOut := iV2 12 2 (opTrans rsq32 t) k a a d
/-- `vrsq` (R104). -/
def execVrsq (k : KReg) (t : FTy) (a : VReg) (d : VReg) (s : State) : Out1 :=
  wInstr (fV2 k t.code 0x13#5 0#5 a d 0x20#6) noC (issueVrsq k t a d) s
/-- Issue of `vexp` (R104). -/
def issueVexp (k : KReg) (t : FTy) (a : VReg) (d : VReg) : State → WOut := iV2 16 4 (opTrans exp32 t) k a a d
/-- `vexp` (R104). -/
def execVexp (k : KReg) (t : FTy) (a : VReg) (d : VReg) (s : State) : Out1 :=
  wInstr (fV2 k t.code 0x14#5 0#5 a d 0x20#6) noC (issueVexp k t a d) s
/-- Issue of `vlog` (R104). -/
def issueVlog (k : KReg) (t : FTy) (a : VReg) (d : VReg) : State → WOut := iV2 16 4 (opTrans log32 t) k a a d
/-- `vlog` (R104). -/
def execVlog (k : KReg) (t : FTy) (a : VReg) (d : VReg) (s : State) : Out1 :=
  wInstr (fV2 k t.code 0x15#5 0#5 a d 0x20#6) noC (issueVlog k t a d) s
/-- Issue of `vtanh` (R104). -/
def issueVtanh (k : KReg) (t : FTy) (a : VReg) (d : VReg) : State → WOut := iV2 20 4 (opTrans tanh32 t) k a a d
/-- `vtanh` (R104). -/
def execVtanh (k : KReg) (t : FTy) (a : VReg) (d : VReg) (s : State) : Out1 :=
  wInstr (fV2 k t.code 0x16#5 0#5 a d 0x20#6) noC (issueVtanh k t a d) s
/-- Issue of `vsig` (R104). -/
def issueVsig (k : KReg) (t : FTy) (a : VReg) (d : VReg) : State → WOut := iV2 20 4 (opTrans sig32 t) k a a d
/-- `vsig` (R104). -/
def execVsig (k : KReg) (t : FTy) (a : VReg) (d : VReg) (s : State) : Out1 :=
  wInstr (fV2 k t.code 0x17#5 0#5 a d 0x20#6) noC (issueVsig k t a d) s
/-- Issue of `vperm` (R102). -/
def issueVperm (k : KReg) (b : VReg) (a : VReg) (d : VReg) : State → WOut := iPerm k b a d
/-- `vperm` (R102). -/
def execVperm (k : KReg) (b : VReg) (a : VReg) (d : VReg) (s : State) : Out1 :=
  wInstr (fV2 k 2#3 0x18#5 b a d 0x20#6) noC (issueVperm k b a d) s
/-- Issue of `vfma_f32` (R100). -/
def issueVfmaF32 (k : KReg) (c : VReg) (b : VReg) (a : VReg) (d : VReg) : State → WOut := iV3 6 (opFma false .f32) k c b a d
/-- `vfma_f32` (R100). -/
def execVfmaF32 (k : KReg) (c : VReg) (b : VReg) (a : VReg) (d : VReg) (s : State) : Out1 :=
  wInstr (fV3 k c b a d 0#3 0x21#6) noC (issueVfmaF32 k c b a d) s
/-- Issue of `vfma_bf16` (R100). -/
def issueVfmaBf16 (k : KReg) (c : VReg) (b : VReg) (a : VReg) (d : VReg) : State → WOut := iV3 6 (opFma false .bf16) k c b a d
/-- `vfma_bf16` (R100). -/
def execVfmaBf16 (k : KReg) (c : VReg) (b : VReg) (a : VReg) (d : VReg) (s : State) : Out1 :=
  wInstr (fV3 k c b a d 1#3 0x21#6) noC (issueVfmaBf16 k c b a d) s
/-- Issue of `vfms_f32` (R100). -/
def issueVfmsF32 (k : KReg) (c : VReg) (b : VReg) (a : VReg) (d : VReg) : State → WOut := iV3 6 (opFma true .f32) k c b a d
/-- `vfms_f32` (R100). -/
def execVfmsF32 (k : KReg) (c : VReg) (b : VReg) (a : VReg) (d : VReg) (s : State) : Out1 :=
  wInstr (fV3 k c b a d 2#3 0x21#6) noC (issueVfmsF32 k c b a d) s
/-- Issue of `vfms_bf16` (R100). -/
def issueVfmsBf16 (k : KReg) (c : VReg) (b : VReg) (a : VReg) (d : VReg) : State → WOut := iV3 6 (opFma true .bf16) k c b a d
/-- `vfms_bf16` (R100). -/
def execVfmsBf16 (k : KReg) (c : VReg) (b : VReg) (a : VReg) (d : VReg) (s : State) : Out1 :=
  wInstr (fV3 k c b a d 3#3 0x21#6) noC (issueVfmsBf16 k c b a d) s
/-- Issue of `vfma_i32` (R100). -/
def issueVfmaI32 (k : KReg) (c : VReg) (b : VReg) (a : VReg) (d : VReg) : State → WOut := iV3 6 (opFma false .i32) k c b a d
/-- `vfma_i32` (R100). -/
def execVfmaI32 (k : KReg) (c : VReg) (b : VReg) (a : VReg) (d : VReg) (s : State) : Out1 :=
  wInstr (fV3 k c b a d 4#3 0x21#6) noC (issueVfmaI32 k c b a d) s
/-- Issue of `vfms_i32` (R100). -/
def issueVfmsI32 (k : KReg) (c : VReg) (b : VReg) (a : VReg) (d : VReg) : State → WOut := iV3 6 (opFma true .i32) k c b a d
/-- `vfms_i32` (R100). -/
def execVfmsI32 (k : KReg) (c : VReg) (b : VReg) (a : VReg) (d : VReg) (s : State) : Out1 :=
  wInstr (fV3 k c b a d 5#3 0x21#6) noC (issueVfmsI32 k c b a d) s
/-- Issue of `vadd_f32_const` (R105). -/
def issueVaddF32Const (k : KReg) (a : VReg) (d : VReg) : State → WOut := iVC 4 .f32 opAdd k a d
/-- `vadd_f32_const` (R105). -/
def execVaddF32Const (k : KReg) (c : CIx) (a : VReg) (d : VReg) (s : State) : Out1 :=
  wInstr (fVC k 0x0#5 c a d 0x22#6) (cC c) (issueVaddF32Const k a d) s
/-- Issue of `vsub_f32_const` (R105). -/
def issueVsubF32Const (k : KReg) (a : VReg) (d : VReg) : State → WOut := iVC 4 .f32 opSub k a d
/-- `vsub_f32_const` (R105). -/
def execVsubF32Const (k : KReg) (c : CIx) (a : VReg) (d : VReg) (s : State) : Out1 :=
  wInstr (fVC k 0x1#5 c a d 0x22#6) (cC c) (issueVsubF32Const k a d) s
/-- Issue of `vmul_f32_const` (R105). -/
def issueVmulF32Const (k : KReg) (a : VReg) (d : VReg) : State → WOut := iVC 4 .f32 opMul k a d
/-- `vmul_f32_const` (R105). -/
def execVmulF32Const (k : KReg) (c : CIx) (a : VReg) (d : VReg) (s : State) : Out1 :=
  wInstr (fVC k 0x2#5 c a d 0x22#6) (cC c) (issueVmulF32Const k a d) s
/-- Issue of `vmin_f32_const` (R105). -/
def issueVminF32Const (k : KReg) (a : VReg) (d : VReg) : State → WOut := iVC 4 .f32 opMin k a d
/-- `vmin_f32_const` (R105). -/
def execVminF32Const (k : KReg) (c : CIx) (a : VReg) (d : VReg) (s : State) : Out1 :=
  wInstr (fVC k 0x3#5 c a d 0x22#6) (cC c) (issueVminF32Const k a d) s
/-- Issue of `vmax_f32_const` (R105). -/
def issueVmaxF32Const (k : KReg) (a : VReg) (d : VReg) : State → WOut := iVC 4 .f32 opMax k a d
/-- `vmax_f32_const` (R105). -/
def execVmaxF32Const (k : KReg) (c : CIx) (a : VReg) (d : VReg) (s : State) : Out1 :=
  wInstr (fVC k 0x4#5 c a d 0x22#6) (cC c) (issueVmaxF32Const k a d) s
/-- Issue of `vceq_f32_const` (R105). -/
def issueVceqF32Const (k : KReg) (a : VReg) (d : KReg) : State → WOut := iCmpC relEq .f32 k a d
/-- `vceq_f32_const` (R105). -/
def execVceqF32Const (k : KReg) (c : CIx) (a : VReg) (d : KReg) (s : State) : Out1 :=
  wInstr (fVC k 0x7#5 c a (0#2 ++ d) 0x22#6) (cC c) (issueVceqF32Const k a d) s
/-- Issue of `vclt_f32_const` (R105). -/
def issueVcltF32Const (k : KReg) (a : VReg) (d : KReg) : State → WOut := iCmpC relLt .f32 k a d
/-- `vclt_f32_const` (R105). -/
def execVcltF32Const (k : KReg) (c : CIx) (a : VReg) (d : KReg) (s : State) : Out1 :=
  wInstr (fVC k 0x8#5 c a (0#2 ++ d) 0x22#6) (cC c) (issueVcltF32Const k a d) s
/-- Issue of `vcle_f32_const` (R105). -/
def issueVcleF32Const (k : KReg) (a : VReg) (d : KReg) : State → WOut := iCmpC relLe .f32 k a d
/-- `vcle_f32_const` (R105). -/
def execVcleF32Const (k : KReg) (c : CIx) (a : VReg) (d : KReg) (s : State) : Out1 :=
  wInstr (fVC k 0x9#5 c a (0#2 ++ d) 0x22#6) (cC c) (issueVcleF32Const k a d) s
/-- Issue of `vand_f32_const` (R105). -/
def issueVandF32Const (k : KReg) (a : VReg) (d : VReg) : State → WOut := iVC 2 .f32 opAnd k a d
/-- `vand_f32_const` (R105). -/
def execVandF32Const (k : KReg) (c : CIx) (a : VReg) (d : VReg) (s : State) : Out1 :=
  wInstr (fVC k 0xB#5 c a d 0x22#6) (cC c) (issueVandF32Const k a d) s
/-- Issue of `vor_f32_const` (R105). -/
def issueVorF32Const (k : KReg) (a : VReg) (d : VReg) : State → WOut := iVC 2 .f32 opOr k a d
/-- `vor_f32_const` (R105). -/
def execVorF32Const (k : KReg) (c : CIx) (a : VReg) (d : VReg) (s : State) : Out1 :=
  wInstr (fVC k 0xC#5 c a d 0x22#6) (cC c) (issueVorF32Const k a d) s
/-- Issue of `vxor_f32_const` (R105). -/
def issueVxorF32Const (k : KReg) (a : VReg) (d : VReg) : State → WOut := iVC 2 .f32 opXor k a d
/-- `vxor_f32_const` (R105). -/
def execVxorF32Const (k : KReg) (c : CIx) (a : VReg) (d : VReg) (s : State) : Out1 :=
  wInstr (fVC k 0xD#5 c a d 0x22#6) (cC c) (issueVxorF32Const k a d) s
/-- Issue of `vadd_bf16_const` (R105). -/
def issueVaddBf16Const (k : KReg) (a : VReg) (d : VReg) : State → WOut := iVC 4 .bf16 opAdd k a d
/-- `vadd_bf16_const` (R105). -/
def execVaddBf16Const (k : KReg) (c : CIx) (a : VReg) (d : VReg) (s : State) : Out1 :=
  wInstr (fVC k 0x0#5 c a d 0x23#6) (cC c) (issueVaddBf16Const k a d) s
/-- Issue of `vsub_bf16_const` (R105). -/
def issueVsubBf16Const (k : KReg) (a : VReg) (d : VReg) : State → WOut := iVC 4 .bf16 opSub k a d
/-- `vsub_bf16_const` (R105). -/
def execVsubBf16Const (k : KReg) (c : CIx) (a : VReg) (d : VReg) (s : State) : Out1 :=
  wInstr (fVC k 0x1#5 c a d 0x23#6) (cC c) (issueVsubBf16Const k a d) s
/-- Issue of `vmul_bf16_const` (R105). -/
def issueVmulBf16Const (k : KReg) (a : VReg) (d : VReg) : State → WOut := iVC 4 .bf16 opMul k a d
/-- `vmul_bf16_const` (R105). -/
def execVmulBf16Const (k : KReg) (c : CIx) (a : VReg) (d : VReg) (s : State) : Out1 :=
  wInstr (fVC k 0x2#5 c a d 0x23#6) (cC c) (issueVmulBf16Const k a d) s
/-- Issue of `vmin_bf16_const` (R105). -/
def issueVminBf16Const (k : KReg) (a : VReg) (d : VReg) : State → WOut := iVC 4 .bf16 opMin k a d
/-- `vmin_bf16_const` (R105). -/
def execVminBf16Const (k : KReg) (c : CIx) (a : VReg) (d : VReg) (s : State) : Out1 :=
  wInstr (fVC k 0x3#5 c a d 0x23#6) (cC c) (issueVminBf16Const k a d) s
/-- Issue of `vmax_bf16_const` (R105). -/
def issueVmaxBf16Const (k : KReg) (a : VReg) (d : VReg) : State → WOut := iVC 4 .bf16 opMax k a d
/-- `vmax_bf16_const` (R105). -/
def execVmaxBf16Const (k : KReg) (c : CIx) (a : VReg) (d : VReg) (s : State) : Out1 :=
  wInstr (fVC k 0x4#5 c a d 0x23#6) (cC c) (issueVmaxBf16Const k a d) s
/-- Issue of `vceq_bf16_const` (R105). -/
def issueVceqBf16Const (k : KReg) (a : VReg) (d : KReg) : State → WOut := iCmpC relEq .bf16 k a d
/-- `vceq_bf16_const` (R105). -/
def execVceqBf16Const (k : KReg) (c : CIx) (a : VReg) (d : KReg) (s : State) : Out1 :=
  wInstr (fVC k 0x7#5 c a (0#2 ++ d) 0x23#6) (cC c) (issueVceqBf16Const k a d) s
/-- Issue of `vclt_bf16_const` (R105). -/
def issueVcltBf16Const (k : KReg) (a : VReg) (d : KReg) : State → WOut := iCmpC relLt .bf16 k a d
/-- `vclt_bf16_const` (R105). -/
def execVcltBf16Const (k : KReg) (c : CIx) (a : VReg) (d : KReg) (s : State) : Out1 :=
  wInstr (fVC k 0x8#5 c a (0#2 ++ d) 0x23#6) (cC c) (issueVcltBf16Const k a d) s
/-- Issue of `vcle_bf16_const` (R105). -/
def issueVcleBf16Const (k : KReg) (a : VReg) (d : KReg) : State → WOut := iCmpC relLe .bf16 k a d
/-- `vcle_bf16_const` (R105). -/
def execVcleBf16Const (k : KReg) (c : CIx) (a : VReg) (d : KReg) (s : State) : Out1 :=
  wInstr (fVC k 0x9#5 c a (0#2 ++ d) 0x23#6) (cC c) (issueVcleBf16Const k a d) s
/-- Issue of `vand_bf16_const` (R105). -/
def issueVandBf16Const (k : KReg) (a : VReg) (d : VReg) : State → WOut := iVC 2 .bf16 opAnd k a d
/-- `vand_bf16_const` (R105). -/
def execVandBf16Const (k : KReg) (c : CIx) (a : VReg) (d : VReg) (s : State) : Out1 :=
  wInstr (fVC k 0xB#5 c a d 0x23#6) (cC c) (issueVandBf16Const k a d) s
/-- Issue of `vor_bf16_const` (R105). -/
def issueVorBf16Const (k : KReg) (a : VReg) (d : VReg) : State → WOut := iVC 2 .bf16 opOr k a d
/-- `vor_bf16_const` (R105). -/
def execVorBf16Const (k : KReg) (c : CIx) (a : VReg) (d : VReg) (s : State) : Out1 :=
  wInstr (fVC k 0xC#5 c a d 0x23#6) (cC c) (issueVorBf16Const k a d) s
/-- Issue of `vxor_bf16_const` (R105). -/
def issueVxorBf16Const (k : KReg) (a : VReg) (d : VReg) : State → WOut := iVC 2 .bf16 opXor k a d
/-- `vxor_bf16_const` (R105). -/
def execVxorBf16Const (k : KReg) (c : CIx) (a : VReg) (d : VReg) (s : State) : Out1 :=
  wInstr (fVC k 0xD#5 c a d 0x23#6) (cC c) (issueVxorBf16Const k a d) s
/-- Issue of `vadd_i32_const` (R105). -/
def issueVaddI32Const (k : KReg) (a : VReg) (d : VReg) : State → WOut := iVC 4 .i32 opAdd k a d
/-- `vadd_i32_const` (R105). -/
def execVaddI32Const (k : KReg) (c : CIx) (a : VReg) (d : VReg) (s : State) : Out1 :=
  wInstr (fVC k 0x0#5 c a d 0x24#6) (cC c) (issueVaddI32Const k a d) s
/-- Issue of `vsub_i32_const` (R105). -/
def issueVsubI32Const (k : KReg) (a : VReg) (d : VReg) : State → WOut := iVC 4 .i32 opSub k a d
/-- `vsub_i32_const` (R105). -/
def execVsubI32Const (k : KReg) (c : CIx) (a : VReg) (d : VReg) (s : State) : Out1 :=
  wInstr (fVC k 0x1#5 c a d 0x24#6) (cC c) (issueVsubI32Const k a d) s
/-- Issue of `vmul_i32_const` (R105). -/
def issueVmulI32Const (k : KReg) (a : VReg) (d : VReg) : State → WOut := iVC 5 .i32 opMul k a d
/-- `vmul_i32_const` (R105). -/
def execVmulI32Const (k : KReg) (c : CIx) (a : VReg) (d : VReg) (s : State) : Out1 :=
  wInstr (fVC k 0x2#5 c a d 0x24#6) (cC c) (issueVmulI32Const k a d) s
/-- Issue of `vmin_i32_const` (R105). -/
def issueVminI32Const (k : KReg) (a : VReg) (d : VReg) : State → WOut := iVC 4 .i32 opMin k a d
/-- `vmin_i32_const` (R105). -/
def execVminI32Const (k : KReg) (c : CIx) (a : VReg) (d : VReg) (s : State) : Out1 :=
  wInstr (fVC k 0x3#5 c a d 0x24#6) (cC c) (issueVminI32Const k a d) s
/-- Issue of `vmax_i32_const` (R105). -/
def issueVmaxI32Const (k : KReg) (a : VReg) (d : VReg) : State → WOut := iVC 4 .i32 opMax k a d
/-- `vmax_i32_const` (R105). -/
def execVmaxI32Const (k : KReg) (c : CIx) (a : VReg) (d : VReg) (s : State) : Out1 :=
  wInstr (fVC k 0x4#5 c a d 0x24#6) (cC c) (issueVmaxI32Const k a d) s
/-- Issue of `vceq_i32_const` (R105). -/
def issueVceqI32Const (k : KReg) (a : VReg) (d : KReg) : State → WOut := iCmpC relEq .i32 k a d
/-- `vceq_i32_const` (R105). -/
def execVceqI32Const (k : KReg) (c : CIx) (a : VReg) (d : KReg) (s : State) : Out1 :=
  wInstr (fVC k 0x7#5 c a (0#2 ++ d) 0x24#6) (cC c) (issueVceqI32Const k a d) s
/-- Issue of `vclt_i32_const` (R105). -/
def issueVcltI32Const (k : KReg) (a : VReg) (d : KReg) : State → WOut := iCmpC relLt .i32 k a d
/-- `vclt_i32_const` (R105). -/
def execVcltI32Const (k : KReg) (c : CIx) (a : VReg) (d : KReg) (s : State) : Out1 :=
  wInstr (fVC k 0x8#5 c a (0#2 ++ d) 0x24#6) (cC c) (issueVcltI32Const k a d) s
/-- Issue of `vcle_i32_const` (R105). -/
def issueVcleI32Const (k : KReg) (a : VReg) (d : KReg) : State → WOut := iCmpC relLe .i32 k a d
/-- `vcle_i32_const` (R105). -/
def execVcleI32Const (k : KReg) (c : CIx) (a : VReg) (d : KReg) (s : State) : Out1 :=
  wInstr (fVC k 0x9#5 c a (0#2 ++ d) 0x24#6) (cC c) (issueVcleI32Const k a d) s
/-- Issue of `vand_i32_const` (R105). -/
def issueVandI32Const (k : KReg) (a : VReg) (d : VReg) : State → WOut := iVC 2 .i32 opAnd k a d
/-- `vand_i32_const` (R105). -/
def execVandI32Const (k : KReg) (c : CIx) (a : VReg) (d : VReg) (s : State) : Out1 :=
  wInstr (fVC k 0xB#5 c a d 0x24#6) (cC c) (issueVandI32Const k a d) s
/-- Issue of `vor_i32_const` (R105). -/
def issueVorI32Const (k : KReg) (a : VReg) (d : VReg) : State → WOut := iVC 2 .i32 opOr k a d
/-- `vor_i32_const` (R105). -/
def execVorI32Const (k : KReg) (c : CIx) (a : VReg) (d : VReg) (s : State) : Out1 :=
  wInstr (fVC k 0xC#5 c a d 0x24#6) (cC c) (issueVorI32Const k a d) s
/-- Issue of `vxor_i32_const` (R105). -/
def issueVxorI32Const (k : KReg) (a : VReg) (d : VReg) : State → WOut := iVC 2 .i32 opXor k a d
/-- `vxor_i32_const` (R105). -/
def execVxorI32Const (k : KReg) (c : CIx) (a : VReg) (d : VReg) (s : State) : Out1 :=
  wInstr (fVC k 0xD#5 c a d 0x24#6) (cC c) (issueVxorI32Const k a d) s
/-- Issue of `vshl_i32_const` (R105). -/
def issueVshlI32Const (k : KReg) (a : VReg) (d : VReg) : State → WOut := iVC 2 .i32 opShl k a d
/-- `vshl_i32_const` (R105). -/
def execVshlI32Const (k : KReg) (c : CIx) (a : VReg) (d : VReg) (s : State) : Out1 :=
  wInstr (fVC k 0xE#5 c a d 0x24#6) (cC c) (issueVshlI32Const k a d) s
/-- Issue of `vshr_i32_const` (R105). -/
def issueVshrI32Const (k : KReg) (a : VReg) (d : VReg) : State → WOut := iVC 2 .i32 opShr k a d
/-- `vshr_i32_const` (R105). -/
def execVshrI32Const (k : KReg) (c : CIx) (a : VReg) (d : VReg) (s : State) : Out1 :=
  wInstr (fVC k 0xF#5 c a d 0x24#6) (cC c) (issueVshrI32Const k a d) s
/-- Issue of `vsra_i32_const` (R105). -/
def issueVsraI32Const (k : KReg) (a : VReg) (d : VReg) : State → WOut := iVC 2 .i32 opSra k a d
/-- `vsra_i32_const` (R105). -/
def execVsraI32Const (k : KReg) (c : CIx) (a : VReg) (d : VReg) (s : State) : Out1 :=
  wInstr (fVC k 0x10#5 c a d 0x24#6) (cC c) (issueVsraI32Const k a d) s
/-- Issue of `vext` (R106). -/
def issueVext (t : VTy) (l : BitVec 6) (q : BitVec 2) (v : VReg) : State → WOut := 
  withSrc [v] none fun s =>
    let x := (s.me.src v).toList.getD l.toNat 0#32
    pushQ q 2 0#5 (match t with | .i32 => x.signExtend 64 | _ => x.setWidth 64) s
/-- `vext` (R106). -/
def execVext (t : VTy) (l : BitVec 6) (q : BitVec 2) (v : VReg) (s : State) : Out1 :=
  wInstr (fVQ 0#3 t.code l 0#4 (1#1 ++ q) v) noC (issueVext t l q v) s
/-- Issue of `vins` (R106). -/
def issueVins (l : BitVec 6) (q : BitVec 2) (v : VReg) : State → WOut := 
  withSrc [] (some v) (popQ q fun x s => .done s 1 2 (.v v (1#48 <<< l.toNat) (Vector.replicate 48 (x.setWidth 32))) 0#5)
/-- `vins` (R106). -/
def execVins (t : VTy) (l : BitVec 6) (q : BitVec 2) (v : VReg) (s : State) : Out1 :=
  wInstr (fVQ 0#3 t.code l 1#4 (0#1 ++ q) v) noC (issueVins l q v) s
/-- Issue of `vbc` (R106). -/
def issueVbc (k : KReg) (q : BitVec 2) (v : VReg) : State → WOut := 
  withSrc [] (some v) (popQ q fun x s => .done s 1 2 (.v v (s.me.rk k) (Vector.replicate 48 (x.setWidth 32))) 0#5)
/-- `vbc` (R106). -/
def execVbc (k : KReg) (t : VTy) (q : BitVec 2) (v : VReg) (s : State) : Out1 :=
  wInstr (fVQ k t.code 0#6 2#4 (0#1 ++ q) v) noC (issueVbc k q v) s
/-- Issue of `vred` (R107). -/
def issueVred (k : KReg) (t : VTy) (q : BitVec 2) (v : VReg) : State → WOut := 
  withSrc [v] none fun s =>
    let r := redAdd t (s.me.rk k) (s.me.src v)
    pushQ q (match t with | .i32 => 8 | _ => 18) r.2 r.1 s
/-- `vred` (R107). -/
def execVred (k : KReg) (t : VTy) (q : BitVec 2) (v : VReg) (s : State) : Out1 :=
  wInstr (fVQ k t.code 0#6 3#4 (1#1 ++ q) v) noC (issueVred k t q v) s
/-- Issue of `vrmax` (R107). -/
def issueVrmax (k : KReg) (t : VTy) (q : BitVec 2) (v : VReg) : State → WOut := 
  withSrc [v] none fun s =>
    let r := redMax t (s.me.rk k) (s.me.src v)
    pushQ q 8 r.2 r.1 s
/-- `vrmax` (R107). -/
def execVrmax (k : KReg) (t : VTy) (q : BitVec 2) (v : VReg) (s : State) : Out1 :=
  wInstr (fVQ k t.code 0#6 4#4 (1#1 ++ q) v) noC (issueVrmax k t q v) s
/-- Issue of `vrmin` (R107). -/
def issueVrmin (k : KReg) (t : VTy) (q : BitVec 2) (v : VReg) : State → WOut := 
  withSrc [v] none fun s =>
    let r := redMin t (s.me.rk k) (s.me.src v)
    pushQ q 8 r.2 r.1 s
/-- `vrmin` (R107). -/
def execVrmin (k : KReg) (t : VTy) (q : BitVec 2) (v : VReg) (s : State) : Out1 :=
  wInstr (fVQ k t.code 0#6 5#4 (1#1 ++ q) v) noC (issueVrmin k t q v) s
/-- Issue of `kget` (R106). -/
def issueKget (q : BitVec 2) (r : KReg) : State → WOut := fun s => pushQ q 2 0#5 ((s.me.rk r).setWidth 64) s
/-- `kget` (R106). -/
def execKget (q : BitVec 2) (r : KReg) (s : State) : Out1 :=
  wInstr (fVQ 0#3 0#3 0#6 6#4 (1#1 ++ q) (0#2 ++ r)) noC (issueKget q r) s
/-- Issue of `kput` (R106). -/
def issueKput (q : BitVec 2) (r : KReg) : State → WOut := popQ q fun x s => .done s 1 2 (.k r (BitVec.allOnes 48) (x.setWidth 48)) 0#5
/-- `kput` (R106). -/
def execKput (q : BitVec 2) (r : KReg) (s : State) : Out1 :=
  wInstr (fVQ 0#3 0#3 0#6 7#4 (0#1 ++ q) (0#2 ++ r)) noC (issueKput q r) s

end Sys2Proof.Machine
end

