-- ==== Sys2Proof/Machine/VMem.lean ====
section
/-! DEFINITION. Vector and block memory (06 R108 to R113), stream mode and its strips (12 R228, R229). -/

namespace Sys2Proof.Machine

/-- The base B (R108): read when the instruction first stands at the head with an entry, popped when it issues unless PK. -/
def withBase (pk : Bool) (q : BitVec 2) (k : Word → State → WOut) (s : State) : WOut :=
  let go (b : Word) (s : State) : WOut :=
    match k b s with
    | .done t i l tgt fl => .done (if pk then t else t.updMe fun c => c.popW (0#1 ++ q)) i l tgt fl
    | o => o
  match s.head.base with
  | some b => go b s
  | none =>
    match s.me.rq (0#1 ++ q) with
    | b :: _ =>
      if s.cyc < (s.me.qhead (0#1 ++ q)).1 then .stall s
      else
        go b (s.updMe fun c =>
          match c.wbuf with
          | e :: r => { c with wbuf := { e with base := some b } :: r, wAfter := max c.wAfter (c.qhead (0#1 ++ q)).2 }
          | [] => c)
    | [] => emptyQ q s

/-- The alignment trap of a W instruction (R108, R112). -/
def State.wAlign (s : State) (v : Word) : WOut := .other (s.wTrap s.cur 0x02#8 s.head.pc v)

/-- What a failed check of the W head leads to (R112, 11 R200). -/
def State.wFail (s : State) (acc : Acc) : Chk → WOut
  | .align v => s.wAlign v
  | .viol v => .other (s.viol s.cur acc true s.head.pc v 0x30#8)
  | .dem v fk l => .other (s.demand s.cur acc true s.head.pc v fk l)
  | .ok _ t => .stall t

/-- B as a base of `vld`, `vst`, `vbld`, `vgath` and `vscat` (R108). -/
def plainBase (b : Word) : Bool := bits b 63 56 == 0 && bits b 5 0 == 0

/-- ea of a VM instruction (R108). -/
def vmAddr (b : Word) (o : BitVec 12) : Word := (b &&& 0x00FFFFFFFFFFFFC0#64) + (o.signExtend 64 <<< 6)

/-- The lanes of a mask, ascending. -/
def lanesOf (m : BitVec 48) : List (Fin 48) := (List.finRange 48).filter (laneMask m)

/-- The lanes' addresses of `vld` and `vst`, and of `vgath` and `vscat` (R109). -/
def runAddrs (m : BitVec 48) (ea : Word) : List (Nat × Word) := (lanesOf m).map fun n => (n.val, ea + BitVec.ofNat 64 (4 * n.val))
def gathAddrs (m : BitVec 48) (b : Word) (x : Lanes) : List (Nat × Word) :=
  (lanesOf m).map fun n => (n.val, (b &&& 0x00FFFFFFFFFFFFFF#64) + (x[n]).signExtend 64)

/-- All checks of a W access, in ascending lane order (R112). A gather's address is a multiple of 4. An address of another
device has no bits of B to name it, and is a violation (DEDUCED, log entry 15). -/
def State.chkLanes (s : State) (w : Who) (acc : Acc) (n : Nat) : List (Nat × Word) → Except Chk (List (Nat × List Piece) × State)
  | [] => .ok ([], s)
  | (i, a) :: r =>
    if a.toNat % n ≠ 0 then .error (.align a)
    else
      match classify s.own w.core a with
      | .peer _ => .error (.viol a)
      | _ =>
        match s.chk w .d acc (s.taskFps w.task) a n with
        | .ok ps s1 =>
          match (s1.watch w.core acc a n).chkLanes w acc n r with
          | .ok (l, s2) => .ok ((i, ps) :: l, s2)
          | .error e => .error e
        | e => .error e

/-- The W head waits for data or for a watermark; the wait counts (R113, 10 R358, 12 R225). -/
def State.wHold (s : State) (val : Word) : WOut :=
  .stall (s.updMe fun c => { c with wFrom := some (c.wFrom.getD s.cyc), wVal := val })

/-- A W load of `n` bytes at each address (R109, R110, R113): within the core-local window at once, once what comes before it there
is performed (R32); else it waits for the data, and for a context that is away (18 R310), and issues when the data returns. At the wait limit TRAPVAL is the address of the
lowest lane of the mask (DESIGN CHOICE, log entry 79). -/
def wLoad (n : Nat) (l : List (Nat × Word)) (fin : List (Nat × List Byte) → State → WOut) (s : State) : WOut :=
  match l.find? fun p => s.me.wmBlocks p.2 n with
  | some p => s.wHold p.2
  | none =>
    match s.chkLanes (s.who s.cur true) .load n l with
    | .error e => s.wFail .load e
    | .ok (ps, s) =>
      let read : List (Nat × List Byte) := ps.map fun p => (p.1, s.loadPieces s.cur true p.2)
      let ready := s.me.loadReady true (ps.map (·.2)).flatten
      let all := (ps.map (·.2)).flatten
      let fin (s : State) : WOut :=
        match s.struckPs all with
        | none => fin read s
        | some true => .other (s.viol s.cur .load true s.head.pc ((l.head?.map (·.2)).getD 0#64) 0x24#8)
        | some false => fin read ((s.softCor s.cur .load true s.head.pc ((l.head?.map (·.2)).getD 0#64)).mendPs all)
      if ps.all fun p => ownSp s.cur p.2 then if ready then fin s else .stall s
      else
        let a := (l.head?.map (·.2)).getD 0#64
        let away := (ps.map (·.2)).flatten.any fun p => s.placeAway s.cur (s.who s.cur true).ctx p.at_
        if s.me.wFrom.isSome && ready && ! away then fin (s.touch all)
        else
          let s := if s.me.wFrom.isNone && all.any (fun p => match p.at_ with | .dram _ => true | _ => false) then s.count s.cur 7#3 s.head.pc true else s
          s.wHold a

/-- A lane's store into the own scratchpad, which is performed at issue (R32), must wait for what comes before it. -/
def State.lanesHold (s : State) (w : Who) (ps : List (Nat × List Piece)) : Bool := ps.any fun p => s.storeHolds w p.2 false

/-- A W store of bytes at each address, in the order given (R109, R111, R113). -/
def wStore (n : Nat) (l : List (Nat × Word)) (f : Nat → List Byte) (i : Nat) (s : State) : WOut :=
  let w := s.who s.cur true
  match s.chkLanes w .store n l with
  | .error e => s.wFail .store e
  | .ok (ps, s) =>
    if s.lanesHold w ps then .stall s
    else .done (ps.foldl (fun (s : State) p => s.doStore w p.2 (f p.1) w.dom false) s) i 1 .none 0#5

/-- Lanes from loaded words. -/
def lanesFrom (l : List (Nat × List Byte)) : Lanes :=
  Vector.ofFn fun i => match l.find? (fun p => p.1 == i.val) with | some p => BitVec.ofNat 32 (leNat p.2) | none => 0#32

/-- Issue of `vld` (R109). -/
def issueVld (k : KReg) (p : Bool) (q : BitVec 2) (o : BitVec 12) (d : VReg) : State → WOut :=
  withSrc [] (some d) (withBase p q fun b s =>
    if ! plainBase b then s.wAlign b
    else
      let m := s.me.rk k
      wLoad 4 (runAddrs m (vmAddr b o)) (fun l s => .done s 1 6 (.v d m (lanesFrom l)) 0#5) s)

/-- `vld` (R108, R109). -/
def execVld (k : KReg) (t : VTy) (p : Bool) (q : BitVec 2) (o : BitVec 12) (d : VReg) (s : State) : Out1 :=
  wInstr (fVM k t.code (BitVec.ofBool p) q o d 0x26#6) noC (issueVld k p q o d) s

/-- Issue of `vst` (R109). -/
def issueVst (k : KReg) (p : Bool) (q : BitVec 2) (o : BitVec 12) (d : VReg) : State → WOut :=
  withSrc [d] none (withBase p q fun b s =>
    if ! plainBase b then s.wAlign b
    else
      let x := s.me.src d
      wStore 4 (runAddrs (s.me.rk k) (vmAddr b o)) (fun n => leBytes 4 (x.toList.getD n 0#32).toNat) 1 s)

/-- `vst` (R108, R109). -/
def execVst (k : KReg) (t : VTy) (p : Bool) (q : BitVec 2) (o : BitVec 12) (d : VReg) (s : State) : Out1 :=
  wInstr (fVM k t.code (BitVec.ofBool p) q o d 0x27#6) noC (issueVst k p q o d) s

/-- Issue of `vgath` (R109). -/
def issueVgath (k : KReg) (p : Bool) (q : BitVec 2) (i d : VReg) : State → WOut :=
  withSrc [i] (some d) (withBase p q fun b s =>
    if ! plainBase b then s.wAlign b
    else
      let m := s.me.rk k
      wLoad 4 (gathAddrs m b (s.me.src i)) (fun l s => .done s 6 10 (.v d m (lanesFrom l)) 0#5) s)

/-- `vgath` (R108, R109). -/
def execVgath (k : KReg) (t : VTy) (p : Bool) (q : BitVec 2) (i d : VReg) (s : State) : Out1 :=
  wInstr (fVX k t.code (BitVec.ofBool p) q i d 0x2A#6) noC (issueVgath k p q i d) s

/-- Issue of `vscat` (R109). -/
def issueVscat (k : KReg) (p : Bool) (q : BitVec 2) (i d : VReg) : State → WOut :=
  withSrc [i, d] none (withBase p q fun b s =>
    if ! plainBase b then s.wAlign b
    else
      let x := s.me.src d
      wStore 4 (gathAddrs (s.me.rk k) b (s.me.src i)) (fun n => leBytes 4 (x.toList.getD n 0#32).toNat) 6 s)

/-- `vscat` (R108, R109). -/
def execVscat (k : KReg) (t : VTy) (p : Bool) (q : BitVec 2) (i d : VReg) (s : State) : Out1 :=
  wInstr (fVX k t.code (BitVec.ofBool p) q i d 0x2B#6) noC (issueVscat k p q i d) s

/-! Described blocks (R110, R111). -/

/-- A block of the class of a type (R110). -/
def accepts : BTy → Blk → Bool
  | .i10, b => b.fmt == 0x10#8
  | .f10e4, b => b.fmt == 0x11#8
  | .f10e5, b => b.fmt == 0x12#8
  | .i5, b => b.cls == 2
  | .f5, b => b.cls == 3

def five : BTy → Bool
  | .i5 | .f5 => true
  | _ => false

/-- The block-format trap (R110, R111). -/
def State.wBlock (s : State) (ea : Word) (code : Nat) : WOut :=
  .other (s.wTrap s.cur 0x05#8 s.head.pc (ea + BitVec.ofNat 64 code))

/-- The lanes that a block delivers (R110). -/
def blkLane (t : BTy) (b : Blk) (txc : Bool) (n : Nat) : Lane × BitVec 5 :=
  if five t then bfPair (toBF16 (b.elem txc (2 * n), false)) (toBF16 (b.elem txc (2 * n + 1), false))
  else toF32 (b.elem txc n, false)

/-- Issue of `vbld` (R110). -/
def issueVbld (k : KReg) (t : BTy) (p : Bool) (q : BitVec 2) (o : BitVec 12) (d : VReg) : State → WOut :=
  withSrc [] (some d) (withBase p q fun b s =>
    if ! plainBase b then s.wAlign b
    else
      let ea := vmAddr b o
      wLoad 64 [(0, ea)] (fun l s =>
        let x := blkOf ((l.head?.map (·.2)).getD [])
        let code := x.eval (accepts t)
        if code ≤ 1 then
          let m := s.me.rk k
          let r := lanesF m fun n => blkLane t x s.me.c.txc n.val
          .done s 1 8 (.v d m r.1) r.2
        else s.wBlock ea code) s)

/-- `vbld` (R108, R110). -/
def execVbld (k : KReg) (t : BTy) (p : Bool) (q : BitVec 2) (o : BitVec 12) (d : VReg) (s : State) : Out1 :=
  wInstr (fVM k t.code (BitVec.ofBool p) q o d 0x28#6) noC (issueVbld k t p q o d) s

/-- The class code of a type, the low four bits 0 (R111). -/
def classFmt : BTy → BitVec 8
  | .i10 => 0x10#8
  | .f10e4 => 0x11#8
  | .f10e5 => 0x12#8
  | .i5 => 0x20#8
  | .f5 => 0x30#8

/-- Times a power of two, exactly. -/
def FV.scale (v : FV) (k : Int) : FV :=
  match v with
  | .fin s m e => .fin s m (e + k)
  | x => x

/-- An element's pattern for a type under scale s (R59, R111). -/
def toElem (t : BTy) (txc : Bool) (s : Int) (v : FV) : Nat × BitVec 5 :=
  let int (w : Nat) : Nat × BitVec 5 :=
    let r := toIntSat (FV.scale v (127 - s)) (-(2 ^ (w - 1))) (2 ^ (w - 1) - 1)
    ((BitVec.ofInt w r.1).toNat, r.2)
  match t with
  | .i10 => int 10
  | .i5 => int 5
  | .f10e4 => storeFlt 6 7 4 txc s v
  | .f10e5 => storeFlt 5 15 5 txc s v
  | .f5 => storeFlt 3 1 2 txc s v

/-- The payload of a block built from lanes, with flags (R111): `e` gives each element's source, if its lane is in the mask. -/
def packBlk (t : BTy) (txc : Bool) (s d : Int) (e : Nat → Option FV) : BitVec 480 × BitVec 5 :=
  let w := if five t then 5 else 10
  (List.range (if five t then 96 else 48)).foldr (fun n (acc : BitVec 480 × BitVec 5) =>
    match e n with
    | none => (acc.1 <<< w, acc.2)
    | some v =>
      let r := toElem t txc (if five t && decide (48 ≤ n) then s + d else s) v
      ((acc.1 <<< w) ||| BitVec.ofNat 480 r.1, acc.2 ||| r.2)) (0#480, 0#5)

/-- Issue of `vbst` (R111): its flags land with its write (R114), with a store to device memory when that is performed. -/
def issueVbst (k : KReg) (t : BTy) (p : Bool) (q : BitVec 2) (o : BitVec 12) (d : VReg) : State → WOut :=
  withSrc [d] none (withBase p q fun b s =>
    if bits b 5 4 ≠ 0 ∨ (! five t ∧ bits b 3 0 ≠ 0) then s.wAlign b
    else
      let ea := vmAddr b o
      let sc := b.extractLsb' 56 8
      let dl := b.extractLsb' 0 4
      let w := s.who s.cur true
      match s.chkLanes w .store 64 [(0, ea)] with
      | .error e => s.wFail .store e
      | .ok (ps, s) =>
        let own := ps.all fun p => ownSp s.cur p.2
        let put (bs : List Byte) (fl : BitVec 5) : WOut :=
          .done (ps.foldl (fun (s : State) p => s.doStore w p.2 bs w.dom false (if own then 0#5 else fl)) s) 2 1 .none
            (if own then fl else 0#5)
        if s.lanesHold w ps then .stall s
        else if sc = 0xFF#8 then put (blkBytes (classFmt t) 0xFF#8 0#480) 0#5
        else if five t ∧ ((sc.toNat : Int) + dl.toInt < 0 ∨ (sc.toNat : Int) + dl.toInt > 254) then s.wBlock ea 4
        else
          let m := s.me.rk k
          let x := (s.me.src d).toList
          let e (n : Nat) : Option FV :=
            if five t then
              if m.getLsbD (n / 2) then
                let y := x.getD (n / 2) 0#32
                some (bf16Val (if n % 2 = 0 then lo16 y else hi16 y))
              else none
            else if m.getLsbD n then some (f32Val (x.getD n 0#32)) else none
          let r := packBlk t s.me.c.txc sc.toNat dl.toInt e
          put (blkBytes (if five t then classFmt t ||| dl.setWidth 8 else classFmt t) sc r.1) r.2)

/-- `vbst` (R108, R111). -/
def execVbst (k : KReg) (t : BTy) (p : Bool) (q : BitVec 2) (o : BitVec 12) (d : VReg) (s : State) : Out1 :=
  wInstr (fVM k t.code (BitVec.ofBool p) q o d 0x29#6) noC (issueVbst k t p q o d) s

/-! Stream mode (12 R228, R229). -/

/-- v24 + n. -/
def strReg (d : BitVec 3) : VReg := 3#2 ++ d

/-- A write to a vector register is pending (R228). -/
def Core.vPending (c : Core) (d : VReg) : Bool :=
  c.wpend.any fun p => match p.tgt with | .v r _ _ => r == d | _ => false

/-- Issue of `smode` (R228): it waits while a write to VD is pending; the descriptor at the scratchpad offset is read now. -/
def issueSmode (d : BitVec 3) (s : State) : WOut :=
  let v := strReg d
  let off := s.head.cst.toNat
  let bad : WOut := .other (s.strTrap v 1)
  if s.me.vPending v then .stall s
  else if off + 32 > 0x80000 then bad
  else
    let ra := s.me.spWord off
    let base := s.me.spWord (off + 8)
    let start := s.me.spWord (off + 16)
    if s.me.spWord (off + 24) ≠ 0#64 ∨ bits start 63 60 ≠ 0 ∨ ra.toNat % 128 ≠ 0 then bad
    else
      match s.readRec (s.who s.cur true) ra with
      | .bad e => s.wFail .load e
      | .wait s => s.wHold ra
      | .ok r s =>
        if ! recSealed r then .other (s.viol s.cur .load true s.head.pc ra 0x30#8)
        else if ! recShaped r ∨ recRun r ≠ 192 ∨ recGran r > 4 ∨ ! iterOk (recCnt r) start then bad
        else
          .done (s.updMe fun c =>
            { c with str := tPut c.str v.toNat ⟨base, recCnt r, recSs r, some start, [], ((tGet c.str v.toNat).map (·.last)).getD (c.rv v), none⟩ }) 1 1 .none 0#5

/-- `smode vd, cN` (R228). -/
def execSmode (c : CIx) (d : BitVec 3) (s : State) : Out1 :=
  wInstr (fVC 0#3 0#5 c 0#5 (3#2 ++ d) 0x2C#6) (cC c) (issueSmode d) s

/-- Issue of `soff` (R229): the register holds the strip popped last. -/
def issueSoff (d : BitVec 3) (s : State) : WOut :=
  let v := strReg d
  match tGet s.me.str v.toNat with
  | none => .done s 1 1 .none 0#5
  | some st =>
    .done (s.updMe fun c =>
      { c with str := tDel c.str v.toNat, r := { c.r with v := c.r.v.set v.toNat st.last v.isLt } }) 1 1 .none 0#5

/-- `soff vd` (R229). -/
def execSoff (d : BitVec 3) (s : State) : Out1 :=
  wInstr (fVC 0#3 1#5 0#8 0#5 (3#2 ++ d) 0x2C#6) noC (issueSoff d) s

/-- STRIP_FETCH (R228, R229): the streamer fetches the next strip into the buffer of four; a fetch that faults shows only when
its strip is needed, a violation at once. -/
def execStripFetch (c : Nat) (d : BitVec 3) (s : State) : Out1 :=
  let v := strReg d
  let x := s.core c
  match tGet x.str v.toNat with
  | none => .next s
  | some st =>
    match st.next with
    | none => .next s
    | some it =>
      if st.buf.length ≥ 4 ∨ st.bad.isSome then .next s
      else
        let a := st.base + BitVec.ofInt 64 (nestSum (ints st.ss) it)
        let w := s.who c true
        match s.readPieces w (2 + d.toNat) a 192 (s.chkRun w .st .strip (s.taskFps w.task) (runParts 192 a 192)) with
        | .wait s => .next s
        | .ok bs s =>
          let strip : Lanes := Vector.ofFn fun i => BitVec.ofNat 32 (leNat ((bs.drop (4 * i.val)).take 4))
          let st := { st with buf := st.buf ++ [strip], next := iterNext st.cnt it }
          .next (s.upd c fun x => { x with str := tPut x.str v.toNat st, pread := tDel x.pread (2 + d.toNat) })
        | .bad (.dem b fk l) => .next (s.upd c fun x => { x with str := tPut x.str v.toNat { st with bad := some (fk, b, l) } })
        | .bad (.viol b) => .next (s.viol c .strip true (x.wbuf.head?.map (·.pc) |>.getD x.pc) b 0x30#8)
        | .bad (.ok _ s) => .next s
        | .bad (.align b) => .next (s.viol c .strip true (x.wbuf.head?.map (·.pc) |>.getD x.pc) b 0x30#8)

end Sys2Proof.Machine
end

