-- ==== Sys2Proof/Machine/Tiles.lean ====
section
/-! DEFINITION. Tiles, lineages, ripples and their acknowledgement (09 R173, 13_provisional_tiles.md). A core of the pod is
numbered device * 4096 + core where a packet names its source. -/

namespace Sys2Proof.Machine

def State.sl (s : State) (c : Nat) : Slice := (s.core c).sl
def State.updSl (s : State) (c : Nat) (f : Slice → Slice) : State := s.upd c fun x => { x with sl := f x.sl }

/-! Cells (04 R67). A cell that is 0 is not listed. -/

def Slice.cell (l : Slice) (t : AReg) (k : Nat) : BitVec 48 := (tGet l.cells (1536 * t.toNat + k)).getD 0#48
def Slice.setCell (l : Slice) (t : AReg) (k : Nat) (v : BitVec 48) : Slice :=
  let a := 1536 * t.toNat + k
  { l with cells := if v = 0#48 then tDel l.cells a else tPut l.cells a v }
/-- Every cell of a tile replaced by a function of its number. -/
def Slice.fillTile (l : Slice) (t : AReg) (f : Nat → BitVec 48) : Slice :=
  (List.range 1536).foldl (fun (m : Slice) k => m.setCell t k (f k)) l
/-- The cells of a tile that are not 0, numbered 48 r + n. -/
def Slice.tileCells (l : Slice) (t : AReg) : Tab (BitVec 48) :=
  (l.cells.filter fun p => p.1 / 1536 == t.toNat).map fun p => (p.1 % 1536, p.2)
def cellAt (x : Tab (BitVec 48)) (k : Nat) : BitVec 48 := (tGet x k).getD 0#48

/-! Headers and slots (R231, R232). -/

def Slice.tile (l : Slice) (t : AReg) : Tile := l.tiles[t.toNat]'t.isLt
def Slice.setTile (l : Slice) (t : AReg) (h : Tile) : Slice := { l with tiles := l.tiles.set t.toNat h t.isLt }
def Tile.valid (h : Tile) : List Slot := h.slots.toList.filter (·.v)

/-- The lineage id of a tile of a core (R231). -/
def linOf (c : Nat) (t : AReg) : BitVec 16 := BitVec.ofNat 16 (16 * (c % 4096) + t.toNat)

/-- The slot awaits a lineage whose published tile this slice holds (R241). -/
def Slice.ownLineage (l : Slice) (dev : BitVec 8) (c : Nat) (x : Slot) : Bool :=
  x.v && ! x.fin && x.ldev == dev && x.lin.toNat / 16 == c && (l.tile (x.lin.setWidth 4)).st == .published

/-- A slot of the tile awaits such a lineage. -/
def Slice.selfAwait (l : Slice) (dev : BitVec 8) (c : Nat) (t : AReg) : Bool := (l.tile t).valid.any (l.ownLineage dev c)

/-- The entry of the ripple table comes free without a later part of this slice: its final mark is on its way, or it feeds from
another core's lineage (R241). -/
def Slice.mayFree (l : Slice) (dev : BitVec 8) (c : Nat) (e : RipEnt) : Bool :=
  e.fin || ! (if e.sslot = 4 then (l.tile e.stile).st == .published
    else ((l.tile e.stile).slots.toList[e.sslot]?).any (l.ownLineage dev c))

/-- The slots that a linear read of tile S gives (R237): one for each slot of S without FIN, or one for S's own lineage. The
number is the SSLOT of the entry that feeds it. -/
def Slice.newSlots (l : Slice) (dev : BitVec 8) (c : Nat) (t : AReg) : List (Nat × NewSlot) :=
  let h := l.tile t
  let mk (ldev : BitVec 8) (lin : BitVec 16) (coef : BitVec 48) (psn : Bool) : NewSlot :=
    ⟨ldev, lin, coef, psn, dev, BitVec.ofNat 12 c, t, 0⟩
  match h.st with
  | .published => [(4, mk dev (linOf c t) (mkCell 1 1 1 1) false)]
  | .derived =>
    ((List.range 4).zip h.slots.toList).filterMap fun p =>
      if p.2.v && ! p.2.fin then some (p.1, mk p.2.ldev p.2.lin p.2.coef p.2.psn) else none
  | _ => []

/-- Free entries of the ripple table of 64 (R243). -/
def Slice.ripFree (l : Slice) : Nat := 64 - l.rip.length

/-- Makes the entries that feed new slots (R238, R243): each takes the lowest free entry; the slots carry their numbers. `wait`: the
target is another slice, which has yet to answer. -/
def Slice.makeEntries (l : Slice) (s : AReg) (ddev : BitVec 8) (dcore : BitVec 12) (dtile : AReg) (wait : Bool) :
    List (Nat × NewSlot) → Slice × List NewSlot
  | [] => (l, [])
  | (ss, n) :: r =>
    match tFree l.rip 64 0 with
    | none => (l, [])
    | some e =>
      let u := 64 * l.ripGen + e
      let l1 := { l with rip := tPut l.rip e ⟨0#16, 0#16, ddev, dcore, dtile, 0, s, ss, false, true, [], u, wait⟩, ripGen := l.ripGen + 1 }
      let (l2, ns) := l1.makeEntries s ddev dcore dtile wait r
      (l2, { n with entry := u } :: ns)

/-- Gives a tile its new slots, in its lowest free places (R237). -/
def Tile.addSlots (h : Tile) (ns : List NewSlot) : Tile :=
  ns.foldl (fun (h : Tile) n =>
    match (List.range 4).find? fun j => ! (h.slots.toList.getD j Slot.zero).v with
    | some j => { h with slots := h.slots.setIfInBounds j ⟨n.coef, n.ldev, n.lin, n.hdev, n.hcore, n.htile, 0#16, n.psn, false, true, n.entry⟩ }
    | none => h) h

/-- The header after an `acpy` or `radd` that gave it new slots (R237): `acpy` clears the poison and the old slots, a `radd`
into a poisoned tile marks it PND. -/
def Tile.afterLinear (h : Tile) (copy : Bool) (ns : List NewSlot) (dom : DTag) : Tile :=
  let h := if copy then { Tile.zero with dom := dom } else { h with dom := dom }
  if ns.isEmpty then h
  else
    let h1 := h.addSlots ns
    { h1 with st := .derived, pnd := h.pnd || h.st == .poisoned }

/-! Ripples and marks (R242 to R245). -/

/-- Queues an arrival at a slice; for a context that is not resident a ripple or mark goes to its arrival log, in order (18 R310), and a
tile to the slice in its save area (R248). -/
def State.toSlice (s : State) (c : Nat) (ctx : Ctx) (a : Arr) : State :=
  match tGet s.hub.saves (ctx.toNat * 4096 + c) with
  | some v =>
    if (s.core c).res = some ctx then s.updSl c fun l => { l with arrs := l.arrs ++ [a] }
    else
      let log (b : PBody) : State := (s.toLog c ⟨s.nextId, s.own, b, DTag.imm, ctx, nCores, false, s.cyc, 0#16, false, none⟩).fresh
      match a with
      | .ripple slot t q x src e => log (.ripple c slot t q x src e)
      | .mark slot t q psn src e => log (.mark c slot t q psn src e)
      | .tile _ _ _ _ _ _ =>
      let k := v.core
      let k2 := { k with sl := { k.sl with arrs := k.sl.arrs ++ [a] } }
      s.updHub fun h => { h with saves := tPut h.saves (ctx.toNat * 4096 + c) { v with core := k2 } }
  | none => s.updSl c fun l => { l with arrs := l.arrs ++ [a] }

/-- Sends what an entry has numbered: to the slice itself at once, else as a packet of domain 0 (R244). -/
def State.ripPkt (s : State) (c : Nat) (ctx : Ctx) (x : RipEnt) (q : BitVec 16) (mark psn : Bool) (cells : Tab (BitVec 48)) : State :=
  let src := s.own * 4096 + c
  let e := x.uid
  if x.ddev.toNat = s.own ∧ x.dcore.toNat = c then
    s.toSlice c ctx (if mark then .mark x.dslot x.dtile q psn src e else .ripple x.dslot x.dtile q cells src e)
  else
    s.send x.ddev.toNat
      (if mark then .mark x.dcore.toNat x.dslot x.dtile q psn src e else .ripple x.dcore.toNat x.dslot x.dtile q cells src e)
      DTag.imm ctx c 0#16

/-- An entry that a source feeds, until its mark has been sent. -/
def RipEnt.feeds (x : RipEnt) (t : AReg) (ss : Nat) : Bool := x.v && x.stile == t && x.sslot == ss && ! x.fin

/-- Numbers a ripple or mark on every valid entry that a source feeds (R236, R242, R244). -/
def Slice.ripNote (l : Slice) (t : AReg) (ss : Nat) (mark psn : Bool) (cells : Tab (BitVec 48)) : Slice :=
  { l with rip := l.rip.map fun p =>
      if p.2.feeds t ss then
        (p.1, { p.2 with seq := p.2.seq + 1#16, fin := mark, sent := p.2.sent ++ [(p.2.seq, mark, psn, cells)] })
      else p }

/-- Sends what has been numbered, on the entries as they were before; an entry whose target has yet to answer waits. -/
def State.ripGo (s : State) (c : Nat) (ctx : Ctx) (old : Slice) (t : AReg) (ss : Nat) (mark psn : Bool) (cells : Tab (BitVec 48)) : State :=
  old.rip.foldl (fun (s : State) p => if p.2.feeds t ss && ! p.2.wait then s.ripPkt c ctx p.2 p.2.seq mark psn cells else s) s

/-- Sends a ripple or mark on every valid entry that a source feeds (R236, R242, R244). -/
def State.ripSend (s : State) (c : Nat) (t : AReg) (ss : Nat) (mark psn : Bool) (cells : Tab (BitVec 48)) : State :=
  (s.updSl c fun l => l.ripNote t ss mark psn cells).ripGo c (((s.core c).res).getD 0#16) (s.sl c) t ss mark psn cells

/-- An acknowledgement of every number below q on an entry; the entry is freed when its mark is acknowledged (R243, R249). -/
def Slice.ack (l : Slice) (e : Nat) (q : BitVec 16) : Slice :=
  match tGet l.rip (e % 64) with
  | none => l
  | some x =>
    let y := { x with ack := q, sent := x.sent.filter fun p => (p.1 - q).toNat < 32768 }
    if x.uid ≠ e then l
    else if x.fin && q == x.seq then { l with rip := tDel l.rip (e % 64) } else { l with rip := tPut l.rip (e % 64) y }

/-- The target of a remote add has answered (15 R276): each entry learns the tile and the slot that it feeds, four times the tile plus
the slot, and from a peer the core; what waited on it is to be sent. -/
def Slice.answered (l : Slice) (from_ : Option Nat) (m : List (Nat × Nat)) : Slice :=
  m.foldl (fun (l : Slice) p =>
    match tGet l.rip (p.1 % 64) with
    | some x =>
      if x.uid ≠ p.1 then l
      else
        let y := { x with wait := false, dtile := BitVec.ofNat 4 (p.2 / 4), dslot := p.2 % 4 }
        let y := match from_ with
          | some d => { y with ddev := BitVec.ofNat 8 (d / 4096), dcore := BitVec.ofNat 12 (d % 4096) }
          | none => y
        { l with rip := tPut l.rip (p.1 % 64) y }
    | none => l) l

/-- Sends everything unacknowledged on the entries with these numbers, in order. -/
def State.flush (s : State) (c : Nat) (ctx : Ctx) (l : Slice) (m : List Nat) : State :=
  l.rip.foldl (fun (s : State) p =>
    if m.contains p.2.uid && ! p.2.wait then
      p.2.sent.foldl (fun (s : State) k => s.ripPkt c ctx p.2 k.1 k.2.1 k.2.2.1 k.2.2.2) s
    else s) s

/-- Answers the sender of an arrival (R249). -/
def State.sendAck (s : State) (c src e : Nat) (q : BitVec 16) : State :=
  if src = s.own * 4096 + c then s.updSl c fun l => l.ack e q
  else s.send (src / 4096) (.rippleAck (src % 4096) e q) DTag.imm (((s.core c).res).getD 0#16) c 0#16

/-- The slot of a tile that an entry of a core feeds: an entry's number is its own, so there is one at most (R244). -/
def Tile.slotOf (h : Tile) (src e : Nat) : Option (Nat × Slot) :=
  ((List.range 4).zip h.slots.toList).find? fun p =>
    p.2.v && p.2.hdev.toNat == src / 4096 && p.2.hcore.toNat == src % 4096 && p.2.ent == e

/-- The tile after its slots have changed (R244): settled or poisoned once every valid slot has FIN. -/
def Tile.settle (h : Tile) : Tile :=
  if h.valid.all (·.fin) then
    { h with st := if h.pnd || h.valid.any (·.psn) then .poisoned else .settled
             pnd := false, slots := Vector.replicate 4 Slot.zero }
  else h

/-- Applies one ripple (R244): each number once (R249); a tile whose domain has expired takes it as lost; forwarded all the
same. An arrival that no slot expects is acknowledged and not applied (15 R276). -/
def State.applyRipple (s : State) (c : Nat) (t : AReg) (q : BitVec 16) (x : Tab (BitVec 48)) (src e : Nat) : State :=
  let l := s.sl c
  let h := l.tile t
  match h.slotOf src e with
  | none => s.sendAck c src e (q + 1#16)
  | some (j, sl) =>
    if q ≠ sl.seq then s.sendAck c src e sl.seq
    else
      let dead := s.expired c (s.dtag h.dom)
      let l := if dead then l else l.fillTile t fun k => cellAdd (l.cell t k) (cellMul sl.coef (cellAt x k))
      let sl2 := { sl with seq := q + 1#16, psn := sl.psn || dead }
      let l := l.setTile t { h with slots := h.slots.setIfInBounds j sl2 }
      ((s.updSl c fun _ => l).ripSend c t j false false x).sendAck c src e (q + 1#16)

/-- Applies one mark (R244). -/
def State.applyMark (s : State) (c : Nat) (t : AReg) (q : BitVec 16) (psn : Bool) (src e : Nat) : State :=
  let h := (s.sl c).tile t
  match h.slotOf src e with
  | none => s.sendAck c src e (q + 1#16)
  | some (j, sl) =>
    if q ≠ sl.seq then s.sendAck c src e sl.seq
    else
      let sl2 := { sl with seq := q + 1#16, fin := true, psn := sl.psn || psn }
      let h1 := { h with slots := h.slots.setIfInBounds j sl2 }
      let s := (s.updSl c fun l => l.setTile t h1).ripSend c t j true psn []
      (s.updSl c fun l => l.setTile t h1.settle).sendAck c src e (q + 1#16)

/-- A tile of a remote residue add (15 R276), with the effect of `radd`: refused where the target is published or has no room
for the slots. -/
def State.applyTile (s : State) (c : Nat) (t : AReg) (x : Tab (BitVec 48)) (ns : List NewSlot) (src job : Nat) : State :=
  let l := s.sl c
  let h := l.tile t
  let ctx := ((s.core c).res).getD 0#16
  let answer (s : State) (ok : Bool) (m : List (Nat × Nat)) : State :=
    s.send (src / 4096) (.tileDone (src % 4096) job ok m) DTag.imm ctx c 0#16
  if h.st = .published ∨ h.valid.length + ns.length > 4 then
    answer s false (ns.map fun n => (n.entry, 4 * t.toNat))
  else
    let l := l.fillTile t fun k => cellAdd (l.cell t k) (cellAt x k)
    let h1 := h.afterLinear false ns h.dom
    let m := ((List.range 4).zip h1.slots.toList).filterMap fun p =>
      if p.2.v && ns.any (fun n => n.entry == p.2.ent) && p.2.hdev.toNat == src / 4096 && p.2.hcore.toNat == src % 4096
      then some (p.2.ent, 4 * t.toNat + p.1) else none
    answer (s.updSl c fun _ => l.setTile t h1) true m

/-- Published tiles of a slice whose domain has expired are closed poisoned (R247). -/
def State.closeExpired (s : State) (c : Nat) : State :=
  (List.range 16).foldl (fun (s : State) i =>
    let t : AReg := BitVec.ofNat 4 i
    let h := (s.sl c).tile t
    if h.st = .published ∧ s.expired c (s.dtag h.dom) then
      (s.updSl c fun l => l.setTile t { h with st := .poisoned }).ripSend c t 4 true true []
    else s) s

/-! The steps of arrivals and acknowledgements. -/

/-- A gang operation of the core's row is still in its steps (R163). -/
def State.gangRuns (s : State) (c : Nat) : Bool := (s.row (rowOf c)).gangs.any fun g => g.iter.isSome

/-- The slice is at a part boundary (R244). -/
def State.slIdle (s : State) (c : Nat) : Bool := (s.sl c).cur.isNone && decide ((s.sl c).busy ≤ s.cyc) && ! s.gangRuns c

/-- Takes the oldest arrival, which is busy for so many cycles (R244). -/
def State.takeArr (s : State) (c n : Nat) : State := s.updSl c fun l => { l with arrs := l.arrs.tail, busy := s.cyc + n }

/-- RIPPLE_ARRIVAL (R244): 32 busy cycles. -/
def execRippleArrival (c : Nat) (s : State) : Out1 :=
  match (s.sl c).arrs with
  | .ripple _ t q x src e :: _ => .next (if s.slIdle c then (s.takeArr c 32).applyRipple c t q x src e else s)
  | _ => .next s

/-- MARK_ARRIVAL (R244): 1 busy cycle. -/
def execMarkArrival (c : Nat) (s : State) : Out1 :=
  match (s.sl c).arrs with
  | .mark _ t q p src e :: _ => .next (if s.slIdle c then (s.takeArr c 1).applyMark c t q p src e else s)
  | _ => .next s

/-- REMOTE_TILE_ARRIVAL (15 R276): 32 busy cycles. -/
def execRemoteTileArrival (c : Nat) (s : State) : Out1 :=
  match (s.sl c).arrs with
  | .tile t x ns src job _ :: _ => .next (if s.slIdle c then (s.takeArr c 32).applyTile c t x ns src job else s)
  | _ => .next s

/-- RIPPLE_ACK (R243, R249): an acknowledgement that is on its way reaches the sender. -/
def execRippleAck (c e : Nat) (q : BitVec 16) (s : State) : Out1 :=
  match s.net.find? (fun p => p.dev == s.own && p.body == .rippleAck c e q) with
  | some p => .next ({ s with net := s.net.erase p }.updIn c p.ctx fun x => { x with sl := x.sl.ack e q })
  | none => .next s

/-- RIPPLE_RESEND (R249): the sender resends everything unacknowledged, in order. -/
def execRippleResend (c : Nat) (s : State) : Out1 :=
  .next (s.flush c (((s.core c).res).getD 0#16) (s.sl c) ((s.sl c).rip.map fun p => p.2.uid))

end Sys2Proof.Machine
end

