-- ==== Sys2Proof/Machine/Slice.lean ====
section
/-! DEFINITION. Matrix instructions of MAJ 0x2D: their issue as parts (09 R159, R168), and the slice parts (R173 to R176, 13
R234 to R247). -/

namespace Sys2Proof.Machine

/-! Issue. -/

/-- An access to a scratchpad that precedes the W head is pending: what the array reads for its part comes after it (R166). -/
def Core.spPending (c : Core) (e : WEnt) : Bool := c.acc.any fun a => a.p.kind == .sp && (a.w || decide (a.aid < e.aid))

/-- A matrix instruction does not issue yet: its slice's inbox of 8 is full (R159), or such an access is pending. -/
def State.partHolds (s : State) : Bool := decide (8 ≤ s.me.sl.inbox.length) || s.me.spPending s.head

/-- Sends a part to the slice's inbox of 8 (R159): it stands there from the next cycle. It issues once the core's earlier accesses to
scratchpads are performed (R166). -/
def issuePart (s : State) : WOut :=
  if s.partHolds then .stall s
  else
    let w := s.who s.cur true
    let p : Part := ⟨s.head.word, s.head.cst, w.dom, w.task, s.cyc + 1, s.cur, 0, w.ctx, none⟩
    .done ((s.updSl s.cur fun l => { l with inbox := l.inbox ++ [p] }).count s.cur 6#3 s.head.pc true) 1 1 .none 0#5

/-- An offset that BAR or the status address of `mwait` names is allowed (R168). -/
def partOff (off n : Nat) : Bool := decide (0x800 ≤ off) && decide (off < 0x80000) && off % n == 0

/-- BAR of a descriptor, in bytes (R164). -/
def barOff (d : Word) : Nat := bits d 14 0 * 16

/-- A card offset of `mmaj` is allowed (R171). -/
def cardOk (off : Nat) : Bool := off % 128 == 0 && decide (0x800 ≤ off) && decide (off + 128 ≤ 0x80000)

/-- BAR is checked at issue (R168). -/
def issueMma (s : State) : WOut :=
  let off := barOff s.head.cst
  if s.partHolds ∨ partOff off 16 then issuePart s else s.wAlign (BitVec.ofNat 64 off)

/-- BAR of `mmaj` stands in its card (R171, R172), and is read after the accesses that precede it (R166). Where the card's offset leaves no BAR to be read in the scratchpad, BAR counts as 0,
which is not allowed (DESIGN CHOICE, log entry 83). -/
def issueMmaj (s : State) : WOut :=
  let card := s.head.cst.toNat
  let off := if card + 8 ≤ 0x80000 then barOff (s.me.spWord card) else 0
  if s.partHolds ∨ partOff off 16 then issuePart s else s.wAlign (BitVec.ofNat 64 off)

def issueMwait (s : State) : WOut :=
  if s.partHolds ∨ partOff s.head.cst.toNat 8 then issuePart s else s.wAlign s.head.cst

/-- The MD field of `mma` and `mmaj` (R168). -/
def gangMd (l g : Bool) (y : MTyp) : BitVec 3 := BitVec.ofBool l ++ BitVec.ofBool g ++ y.code

/-- `mma` (R168 to R170): it sends a gang part. -/
def execMma (c : CIx) (w l g : Bool) (y : MTyp) (t : AReg) (s : State) : Out1 :=
  wInstr (fMX 0#4 c 0#4 (BitVec.ofBool w) (gangMd l g y) t) (cC c) issueMma s
/-- `mmaj` (R168, R171, R172): it sends a gang part. -/
def execMmaj (c : CIx) (w l g : Bool) (y : MTyp) (t : AReg) (s : State) : Out1 :=
  wInstr (fMX 1#4 c 0#4 (BitVec.ofBool w) (gangMd l g y) t) (cC c) issueMmaj s
/-- `aclr` (R173). -/
def execAclr (t : AReg) (s : State) : Out1 := wInstr (fMX 2#4 0#8 0#4 0#1 0#3 t) noC issuePart s
/-- `acpy` (R173). -/
def execAcpy (a t : AReg) (s : State) : Out1 := wInstr (fMX 3#4 0#8 a 0#1 0#3 t) noC issuePart s
/-- `radd` (R173). -/
def execRadd (a t : AReg) (s : State) : Out1 := wInstr (fMX 4#4 0#8 a 0#1 0#3 t) noC issuePart s
/-- `rscl` (R173). -/
def execRscl (j : BitVec 3) (t : AReg) (s : State) : Out1 := wInstr (fMX 5#4 0#8 0#4 0#1 j t) noC issuePart s
/-- `rdout` (R174). -/
def execRdout (c : CIx) (y : RTyp) (t : AReg) (s : State) : Out1 := wInstr (fMX 6#4 c 0#4 0#1 y.code t) (cC c) issuePart s
/-- `publ at, 0` (13 R234, R235). -/
def execPublOpen (t : AReg) (s : State) : Out1 := wInstr (fMX 7#4 0#8 0#4 0#1 0#3 t) noC issuePart s
/-- `publ at, 1` (13 R234, R236). -/
def execPublClose (t : AReg) (s : State) : Out1 := wInstr (fMX 7#4 0#8 0#4 0#1 1#3 t) noC issuePart s
/-- `still` (13 R246). -/
def execStill (c : CIx) (s : State) : Out1 := wInstr (fMX 8#4 c 0#4 0#1 0#3 0#4) (cC c) issuePart s
/-- `aspl` (R175). -/
def execAspl (c : CIx) (t : AReg) (s : State) : Out1 := wInstr (fMX 9#4 c 0#4 0#1 0#3 t) (cC c) issuePart s
/-- `afil` (R175). -/
def execAfil (c : CIx) (t : AReg) (s : State) : Out1 := wInstr (fMX 10#4 c 0#4 0#1 0#3 t) (cC c) issuePart s
/-- `mwait` (R176). -/
def execMwait (c : CIx) (s : State) : Out1 := wInstr (fMX 11#4 c 0#4 0#1 0#3 0#4) (cC c) issueMwait s

/-! The fields of a part's word (R168). The word 0 marks the source part of a remote residue add (15 R276). -/

def Part.fn (p : Part) : Nat := (p.word.extractLsb' 28 4).toNat
def Part.as_ (p : Part) : AReg := p.word.extractLsb' 16 4
def Part.wb (p : Part) : Bool := p.word.getLsbD 15
def Part.md (p : Part) : BitVec 3 := p.word.extractLsb' 12 3
def Part.at_ (p : Part) : AReg := p.word.extractLsb' 6 4
def Part.isAdd (p : Part) : Bool := p.word == 0#32
/-- A gang part: `mma` or `mmaj` (R159). -/
def Part.isGang (p : Part) : Bool := ! p.isAdd && decide (p.fn ≤ 1)

/-- Sets BAD, with the FN of the first part that set it (R176). -/
def Slice.bad (l : Slice) (fn : Nat) : Slice :=
  if l.stBad then l else { l with stBad := true, stFop := BitVec.ofNat 4 fn }

/-- A block in a scratchpad: one with an error that cannot be corrected evaluates as one whose check fails (18 R302). -/
def Core.spBlk (x : Core) (off : Nat) : Blk :=
  let b := blkOf (x.spRead off 64)
  if struck x.ups off 64 = some true then { b with chkOk := false } else b

/-! `aspl` and `afil` (R175). -/

def rowOk (d : Word) : Bool :=
  bits d 63 48 == 0 && bits d 32 19 == 0 && bits d 5 0 == 0 && bits d 37 33 != 0 &&
    decide (bits d 47 43 + bits d 42 38 ≤ 31) && decide (0x800 ≤ bits d 18 0)

/-- The rows and parts that a descriptor selects, in the order of the blocks. -/
def rowParts (d : Word) : List (Nat × Nat) :=
  (List.range (bits d 42 38 + 1)).flatMap fun i =>
    ([0, 1, 2, 3, 4].filter fun p => d.getLsbD (33 + p)).map fun p => (bits d 47 43 + i, p)

/-- Cells of a part of a row: ten, or eight in part 4. -/
def partLen (p : Nat) : Nat := if p = 4 then 8 else 10

def rowEnd (d : Word) : Nat := bits d 18 0 + 64 * (rowParts d).length

/-- The spill block of a part of a row (R175). -/
def spillBlk (l : Slice) (t : AReg) (r p : Nat) : List Byte :=
  let pay := (List.range (partLen p)).foldr (fun n (b : BitVec 480) =>
    (b <<< 48) ||| (l.cell t (48 * r + 10 * p + n) &&& 0x3FFFFFFFFFFF#48).setWidth 480) 0#480
  blkBytes (BitVec.ofNat 8 (0x40 + p)) 0#8 pay

/-! `rdout` (R174, 04 R74, R75). -/

/-- An integer output of `w` bits under a scale (R75), with flags. -/
def outInt (w : Nat) (wrap : Bool) (v : FV) : Nat × BitVec 5 :=
  if wrap then
    match v with
    | .fin s m e => let r := rneInt m e; ((BitVec.ofInt w (sgn s r.1)).toNat, if r.2 then flNX else 0#5)
    | _ => (0, 0#5)
  else
    let r := toIntSat v (-(2 ^ (w - 1))) (2 ^ (w - 1) - 1)
    ((BitVec.ofInt w r.1).toNat, r.2)

/-- A floating output (R75): saturating mode delivers the largest finite value on overflow. -/
def outF (bf wrap : Bool) (v : FV) : Nat × BitVec 5 :=
  if bf then
    let r := bf16Of v
    if ! wrap && r.2 &&& flOF != 0#5 then ((r.1 - 1#16).toNat, r.2) else (r.1.toNat, r.2)
  else
    let r := f32Of v
    if ! wrap && r.2 &&& flOF != 0#5 then ((r.1 - 1#32).toNat, r.2) else (r.1.toNat, r.2)

/-- The exact value of a cell in a tile of exponent E (R74). -/
def cellReal (c : BitVec 48) (e : Nat) : FV :=
  let x := (cellVal c).1
  .fin (decide (x < 0)) x.natAbs ((e : Int) - 254)

/-- Bytes of the output (R174) and block size by type code. -/
def outLen : Nat → Nat
  | 0 | 1 => 6144
  | 2 => 3072
  | 3 => 2048
  | _ => 1024

def rdoutOk (y : Nat) (d : Word) : Bool :=
  bits d 62 58 == 0 && decide (bits d 57 49 ≤ 508) && bits d 36 19 == 0 && bits d 5 0 == 0 && decide (0x800 ≤ bits d 18 0) &&
    decide (bits d 18 0 + outLen y ≤ 0x80000) &&
    (if y ≥ 3 then decide (bits d 48 41 ≤ 254) else bits d 48 41 == 0) &&
    (if y = 4 then
      let s := (bits d 48 41 : Int) + (BitVec.ofNat 4 (bits d 40 37)).toInt
      decide (0 ≤ s) && decide (s ≤ 254)
    else bits d 40 37 == 0)

/-- One output element: cell (r, n), its bits and flags. -/
def outElem (y : Nat) (d : Word) (l : Slice) (t : AReg) (r n : Nat) : Nat × BitVec 5 :=
  let v := cellReal (l.cell t (48 * r + n)) (bits d 57 49)
  let wrap := d.getLsbD 63
  let sc : Int := bits d 48 41
  match y with
  | 0 => outInt 32 wrap v
  | 1 => outF false wrap v
  | 2 => outF true wrap v
  | 3 => outInt 10 wrap (FV.scale v (127 - sc))
  | _ => outInt 5 wrap (FV.scale v (127 - (sc + if r % 2 = 1 then (BitVec.ofNat 4 (bits d 40 37)).toInt else 0)))

/-- A row of elements as bytes of `w` bits each, or as part of a block's payload. -/
def packRow (w : Nat) (es : List (Nat × BitVec 5)) : Nat := es.foldr (fun e acc => acc * 2 ^ w + e.1) 0

/-- The bytes of the output and the flags (R174). -/
def outBytes (y : Nat) (d : Word) (l : Slice) (t : AReg) : List Byte × BitVec 5 :=
  let row (r : Nat) : List (Nat × BitVec 5) := (List.range 48).map fun n => outElem y d l t r n
  let rows := (List.range 32).map row
  let fl := rows.foldl (fun f r => r.foldl (fun f e => f ||| e.2) f) 0#5
  let sc : BitVec 8 := BitVec.ofNat 8 (bits d 48 41)
  let bs :=
    match y with
    | 0 | 1 => rows.flatMap fun r => r.flatMap fun e => leBytes 4 e.1
    | 2 => rows.flatMap fun r => r.flatMap fun e => leBytes 2 e.1
    | 3 => rows.flatMap fun r => blkBytes 0x10#8 sc (BitVec.ofNat 480 (packRow 10 r))
    | _ => (List.range 16).flatMap fun b =>
      blkBytes (0x20#8 ||| BitVec.ofNat 8 (bits d 40 37)) sc
        (BitVec.ofNat 480 (packRow 5 (rows.getD (2 * b) []) + 2 ^ 240 * packRow 5 (rows.getD (2 * b + 1) [])))
  (bs, fl)

/-! Starting a slice part (R163, R167, 13 R235 to R241, R246). -/

/-- What a slice part at the head may do: start, wait, set BAD, or be consumed because its domain has expired. -/
inductive Gate where | go | wait | bad | gone
deriving DecidableEq, Repr

/-- The busy count (R163, 13 R234, R246, 15 R276). -/
def Part.busy (p : Part) : Nat :=
  if p.isAdd then 32
  else
    match p.fn with
    | 2 | 3 | 4 | 5 => 32
    | 6 => 64
    | 9 | 10 => 8 + (rowParts p.cst).length
    | _ => 1

/-- A wait, or BAD at once where only a later part of this slice could end it (R241). -/
def gateWait (self : Bool) : Gate := if self then .bad else .wait

/-- The new slots of a read of tile S that only a later part of this slice could take away (R241). -/
def Slice.ownSlots (l : Slice) (dev : BitVec 8) (c : Nat) (t : AReg) : Nat :=
  ((l.newSlots dev c t).filter fun p => p.1 == 4 || ((l.tile t).slots.toList[p.1]?).any (l.ownLineage dev c)).length

/-- The gate of a part that reads tile S into so many targets, by the entries of the ripple table that it needs (R239, R241): slots of S that
settle need none. -/
def Slice.ripGate (l : Slice) (dev : BitVec 8) (c : Nat) (t : AReg) (n : Nat := 1) : Gate :=
  if (l.newSlots dev c t).length * n ≤ l.ripFree then .go
  else if l.ownSlots dev c t * n ≤ l.ripFree + (l.rip.filter fun e => l.mayFree dev c e.2).length then .wait
  else .bad

/-- The ring job whose tile a part reads (15 R280): its port stands in bits [12:8] of the part's constant. -/
def State.ringOf (s : State) (p : Part) : Option RingJob :=
  match tGet s.hub.ports (bits p.cst 12 8) with
  | some k => k.ring.head?
  | none => none

/-- The tiles that a ring job's source feeds: one for each rank. -/
def State.ringRanks (s : State) (p : Part) : Nat := ((s.ringOf p).map (·.nr)).getD 0

/-- The gate of a slice part at the head of core c's inbox: the part of a remote add waits for its job's turn on channel 3 as well
(15 R271). -/
def State.gate (s : State) (c : Nat) (p : Part) : Gate :=
  let l := s.sl c
  let dev := s.hub.dev
  let t := if p.isAdd then (p.cst.setWidth 4) else p.at_
  let h := l.tile t
  let gangs := ! (s.row (rowOf c)).gangs.isEmpty
  let isClose := ! p.isAdd && p.fn == 7 && p.md == 1#3
  if s.expired c (s.dtag p.dom) ∧ ! isClose then .gone
  else if p.isAdd then
    if p.job ≠ 0 then (if ((s.core c).jobs.any fun j => j.id == p.job && j.st == 2) then l.ripGate dev c t else .wait)
    else l.ripGate dev c t (s.ringRanks p)
  else
    match p.fn with
    | 2 | 10 =>
      if h.st = .published then .bad
      else if h.st = .derived then gateWait (l.selfAwait dev c t) else .go
    | 3 =>
      if p.as_ = t then .go
      else if h.st = .published then .bad
      else if h.st = .derived then gateWait (l.selfAwait dev c t)
      else l.ripGate dev c p.as_
    | 4 =>
      if h.st = .published then .bad
      else if p.as_ = t then .go
      else
        let n := (l.newSlots dev c p.as_).length
        if h.valid.length + n > 4 then gateWait (l.selfAwait dev c t) else l.ripGate dev c p.as_
    | 5 => if h.st = .published then .bad else .go
    | 6 | 9 =>
      if h.st = .published ∨ h.st = .poisoned then .bad
      else if h.st = .derived then gateWait (l.selfAwait dev c t) else .go
    | 7 =>
      if isClose then (if gangs then .wait else .go)
      else if h.st ≠ .settled then .bad
      else if l.rip.any fun e => e.2.v && e.2.stile == t && e.2.sslot == 4 then .wait
      else .go
    | 8 =>
      let m := bits p.cst 15 0
      let ts : List AReg := ((List.range 16).filter fun i => m.testBit i).map fun i => BitVec.ofNat 4 i
      if bits p.cst 63 16 ≠ 0 ∨ m = 0 ∨ ts.any (fun t => (l.tile t).st == .published) then .bad
      else if ts.any fun t => (l.tile t).st == .derived then gateWait (ts.any fun t => l.selfAwait dev c t)
      else .go
    | _ => if gangs then .wait else .go

/-- A wait of the slice that counts under R95: all but those for a gang's report (R176, 13 R236). -/
def Part.counts (p : Part) : Bool := p.isAdd || ! (p.fn == 11 || (p.fn == 7 && p.md == 1#3))

/-- A remote add, or the tile of a ring job, that is not sent ends with CODE 5 (12 R218). -/
def State.addFails (s : State) (c : Nat) (p : Part) : State :=
  if p.isAdd ∧ p.job = 0 then
    let port := bits p.cst 12 8
    let stop (l : List RingJob) : List RingJob :=
      match l with
      | j :: r => { j with code := some (j.code.getD 5) } :: r
      | [] => []
    s.updHub fun h => { h with ports := h.ports.map fun q => if q.1 = port then (q.1, { q.2 with ring := stop q.2.ring }) else q }
  else if p.isAdd then
    s.upd c fun x => { x with jobs := x.jobs.map fun j => if j.id = p.job then { j with st := 4, code := 5 } else j }
  else s

/-- The cores of a row. -/
def rowCores (row : Nat) : List Nat := (List.range 8).map fun i => 8 * row + i

/-- The gang part at the head of a core's inbox, from the cycle in which it stands there. -/
def State.gangHead (s : State) (c : Nat) : Option Part :=
  match (s.sl c).inbox with
  | p :: _ => if p.isGang && decide (p.t ≤ s.cyc) then some p else none
  | [] => none

/-- The arrivals of a gang operation are due: its last cycle has passed (R163). -/
def Gang.due (g : Gang) (now : Nat) : Bool := g.iter.isNone && decide (g.g + (max g.k 1) * g.per + 7 < now)

/-- The gang wait of a row has reached its limit in an earlier cycle (R162, 13 R240), and its arrivals are still to come (R163). The limit is
that of the context of the core in the lowest slot with a gang part at its head (DESIGN CHOICE, log entry 87). -/
def State.gangtoDue (s : State) (row : Nat) : Bool :=
  let r := s.row row
  match r.waitFrom.or r.derFrom with
  | none => false
  | some t => decide (t + s.waitLimit ((((rowCores row).filterMap s.gangHead).head?.map (·.src)).getD (8 * row)) < s.cyc)

/-- Something of the end of an earlier cycle is still to come at a core's slice or row: its streams do not go on before it (R163). -/
def State.endDue (s : State) (c : Nat) : Bool :=
  (match (s.sl c).cur with
   | some (_, e) => decide (e < s.cyc)
   | none => false) || (((s.row (rowOf c)).gangs.head?.map fun g => g.due s.cyc).getD false) || s.gangtoDue (rowOf c)

/-- SLICE_PART_START (R163, R167, 13 R238 to R247): the part at the head of an idle slice, once every queued arrival has been
taken; published tiles whose domain has expired are closed first. -/
def execSlicePartStart (c : Nat) (s : State) : Out1 :=
  let l := s.sl c
  match l.inbox with
  | [] => .next s
  | p :: r =>
    if ! s.slIdle c || ! l.arrs.isEmpty || p.isGang || decide (s.cyc < p.t) || s.gangtoDue (rowOf c) then .next s
    else
      let s := s.closeExpired c
      let pop (l : Slice) (n : Nat) : Slice := { l with inbox := r, waitFrom := none, busy := s.cyc + n }
      match s.gate c p with
      | .go => .next (s.updSl c fun l => { pop l p.busy with cur := some (p, s.cyc + p.busy - 1), blk := 0 })
      | .gone => .next ((s.updSl c fun l => pop l 0).addFails c p)
      | .bad => .next ((s.updSl c fun l => (pop l p.busy).bad p.fn).addFails c p)
      | .wait =>
        let t := l.waitFrom.getD s.cyc
        if p.counts && decide (t + s.waitLimit c ≤ s.cyc) then .next ((s.updSl c fun l => (pop l p.busy).bad p.fn).addFails c p)
        else if p.counts then .next (s.updSl c fun l => { l with waitFrom := some t })
        else .next s

/-! The effects of slice parts. -/

/-- Header of a tile that a non-linear part has written (R231, R240). -/
def Tile.written (_ : Tile) (dom : DTag) : Tile := { Tile.zero with dom := dom }

def State.doAclr (s : State) (c : Nat) (p : Part) : State :=
  s.updSl c fun l => (l.fillTile p.at_ fun _ => 0#48).setTile p.at_ ((l.tile p.at_).written p.dom)

/-- `acpy` and `radd` of two tiles (R173, R237, R238). -/
def State.doLinear (s : State) (c : Nat) (p : Part) (copy : Bool) : State :=
  let l := s.sl c
  let t := p.at_
  let (l1, ns) := l.makeEntries p.as_ s.hub.dev (BitVec.ofNat 12 c) t false (l.newSlots s.hub.dev c p.as_)
  let l2 := l1.fillTile t fun k =>
    if copy then l.cell p.as_ k &&& 0x3FFFFFFFFFFF#48 else cellAdd (l.cell t k) (l.cell p.as_ k)
  let h := (l.tile t).afterLinear copy ns p.dom
  let place (e : Nat × RipEnt) : Nat × RipEnt :=
    if ns.any (fun n => n.entry == e.2.uid) then
      match h.slotOf (s.own * 4096 + c) e.2.uid with
      | some (j, _) => (e.1, { e.2 with dslot := j })
      | none => e
    else e
  s.updSl c fun _ => ({ l2 with rip := l2.rip.map place }).setTile t h

/-- `radd at, at` and `rscl` (R173, R237): the digits and each slot's coefficient. -/
def State.doScale (s : State) (c : Nat) (p : Part) (f : BitVec 48 → BitVec 48) : State :=
  s.updSl c fun l =>
    let h := l.tile p.at_
    let sl := (List.range 4).foldl (fun (v : Vector Slot 4) j =>
      let x := v.toList.getD j Slot.zero
      v.setIfInBounds j (if x.v then { x with coef := f x.coef } else x)) h.slots
    (l.fillTile p.at_ fun k => f (l.cell p.at_ k)).setTile p.at_ { h with dom := p.dom, slots := sl }

/-- `rdout` (R174): CORESTAT's flags, CHK and CLMP of the `mwait` status. The blocks that do not stand there yet are written (04 R66). -/
def State.doRdout (s : State) (c : Nat) (p : Part) : State :=
  let l := s.sl c
  let y := p.md.toNat
  if ! rdoutOk y p.cst then s.updSl c fun l => l.bad 6
  else
    let (bs, fl) := outBytes y p.cst l p.at_
    let chk := (List.range 1536).any fun k => ! (cellVal (l.cell p.at_ k)).2
    let n := 64 * l.blk
    let s := s.upd c fun x => (x.spWrite (bits p.cst 18 0 + n) (bs.drop n)).raise fl
    s.updSl c fun l => { l with stChk := l.stChk || chk, stClmp := l.stClmp || fl &&& (flIS ||| flOF) != 0#5 }

/-- The bytes that `aspl` writes (R175). -/
def splBytes (l : Slice) (p : Part) : List Byte := (rowParts p.cst).flatMap fun q => spillBlk l p.at_ q.1 q.2

/-- `aspl` (R175). The blocks that do not stand there yet are written (04 R66). -/
def State.doAspl (s : State) (c : Nat) (p : Part) : State :=
  if ! rowOk p.cst || decide (rowEnd p.cst > 0x80000) then s.updSl c fun l => l.bad 9
  else
    let l := s.sl c
    s.upd c fun x => x.spWrite (bits p.cst 18 0 + 64 * l.blk) ((splBytes l p).drop (64 * l.blk))

/-- The blocks of a tile become visible one by one while the part runs (04 R66, 10 R192): the next one is written. -/
def State.nextBlk (s : State) (c : Nat) (p : Part) : State :=
  let l := s.sl c
  let bs :=
    if p.isAdd then []
    else if p.fn = 6 ∧ rdoutOk p.md.toNat p.cst then (outBytes p.md.toNat p.cst l p.at_).1
    else if p.fn = 9 ∧ rowOk p.cst ∧ rowEnd p.cst ≤ 0x80000 then splBytes l p
    else []
  let b := (bs.drop (64 * l.blk)).take 64
  if b.isEmpty then s
  else (s.upd c fun x => x.spWrite (bits p.cst 18 0 + 64 * l.blk) b).updSl c fun l => { l with blk := l.blk + 1 }

/-- `afil` (R175): every block is evaluated before any cell changes; a null block delivers zeros (04 R65). -/
def State.doAfil (s : State) (c : Nat) (p : Part) : State :=
  if ! rowOk p.cst || decide (rowEnd p.cst > 0x80000) then s.updSl c fun l => l.bad 10
  else
    let x := s.core c
    let bl : List ((Nat × Nat) × Blk) := ((List.range (rowParts p.cst).length).zip (rowParts p.cst)).map fun q =>
      (q.2, x.spBlk (bits p.cst 18 0 + 64 * q.1))
    let code (q : (Nat × Nat) × Blk) : Nat := q.2.eval fun b => b.fmt == BitVec.ofNat 8 (0x40 + q.1.2)
    match (bl.map code).find? (fun k => decide (1 < k)) with
    | some k => s.updSl c fun l =>
      let l := l.bad 10
      { l with stOpc := if l.stOpc = 0#4 then BitVec.ofNat 4 k else l.stOpc }
    | none =>
      s.updSl c fun l =>
        (bl.foldl (fun (l : Slice) q =>
          (List.range (partLen q.1.2)).foldl (fun (l : Slice) n =>
            l.setCell p.at_ (48 * q.1.1 + 10 * q.1.2 + n) (if q.2.isNull then 0#48 else q.2.cell n &&& 0x3FFFFFFFFFFF#48)) l) l).setTile p.at_ ((l.tile p.at_).written p.dom)

/-- `publ` (13 R235, R236). -/
def State.doPubl (s : State) (c : Nat) (p : Part) : State :=
  let t := p.at_
  let h := (s.sl c).tile t
  if p.md = 1#3 then
    if h.st ≠ .published then s.updSl c fun l => l.bad 7
    else (s.updSl c fun l => l.setTile t { h with st := .settled }).ripSend c t 4 true false []
  else s.updSl c fun l => l.setTile t { h with st := .published, dom := p.dom }

/-- `mwait` (R176): the status word is written and its tag filled, and the flags are cleared. -/
def State.doMwait (s : State) (c : Nat) (p : Part) : State :=
  let l := s.sl c
  let off := p.cst.toNat
  let w : Word := 0#48 ++ l.stOpc ++ l.stFop ++ 0#4 ++ BitVec.ofBool l.stChk ++ BitVec.ofBool l.stClmp ++ BitVec.ofBool l.stBad ++ 1#1
  let s := s.upd c fun x => ((x.spWrite off (wordBytes w)).setTag off true).evalArmed off s.cyc
  s.updSl c fun l => { l with stBad := false, stChk := false, stClmp := false, stOpc := 0#4, stFop := 0#4 }

/-- The source part of a ring job (15 R280), a remote residue add of the rank's own tile into the tile of every rank: its own tile
gets it as an arrival, and it leaves for the next rank with the slots of the ranks ahead. -/
def State.doRing (s : State) (c : Nat) (p : Part) : State :=
  match s.ringOf p with
  | none => s
  | some j =>
    let l := s.sl c
    let t : AReg := p.cst.setWidth 4
    let d : AReg := j.dst.setWidth 4
    let n := l.newSlots s.hub.dev c t
    let (l1, n1) := l.makeEntries t s.hub.dev (BitVec.ofNat 12 c) d true n
    let (l2, n2) := (List.range (j.nr - 1)).foldl (fun (a : Slice × List NewSlot) _ =>
      let r := a.1.makeEntries t (BitVec.ofNat 8 j.nextd) (BitVec.ofNat 12 c) d true n
      (r.1, a.2 ++ r.2)) (l1, [])
    let x := l.tileCells t
    let port := bits p.cst 12 8
    let src := s.own * 4096 + c
    let s := (s.updSl c fun _ => l2).toSlice c j.ctx (.tile d x n1 src (ringNo port) (some j.id))
    s.ringSend port { j with due := j.nr } 9216 (.ringTile port 0 src x n2)

/-- The source part of a remote residue add (15 R276): reads the tile and makes the entries, and the tile leaves for its
target. -/
def State.doAdd (s : State) (c : Nat) (p : Part) : State :=
  if p.job = 0 then s.doRing c p else
  match (s.core c).jobs.find? (fun j => j.id == p.job) with
  | none => s
  | some j =>
    let l := s.sl c
    let t : AReg := p.cst.setWidth 4
    let g := bits j.dst 63 56
    let dev : Nat := if g = 0 then s.own else g - 1
    let core := bits j.dst 27 16
    let tt : AReg := j.dst.setWidth 4
    let (l1, ns) := l.makeEntries t (BitVec.ofNat 8 dev) (BitVec.ofNat 12 core) tt true (l.newSlots s.hub.dev c t)
    let s := s.updSl c fun _ => l1
    let src := s.own * 4096 + c
    let x := l.tileCells t
    if dev = s.own ∧ core = c then s.toSlice c j.ctx (.tile tt x ns src p.job none)
    else s.send dev (.tile core tt x ns src p.job) DTag.imm j.ctx c 0#16

/-- SLICE_PART_COMPLETE (R163): the effect of a slice part whose busy count has run, at the end of its last cycle: no step of the next
cycle comes before it. While the part still runs, the next block of its output becomes visible (04 R66). -/
def execSlicePartComplete (c : Nat) (s : State) : Out1 :=
  match (s.sl c).cur with
  | none => .next s
  | some (p, e) =>
    if s.cyc ≤ e then .next (s.nextBlk c p)
    else
      let s := s.updSl c fun l => { l with cur := none }
      if p.isAdd then .next (s.doAdd c p)
      else
        match p.fn with
        | 2 => .next (s.doAclr c p)
        | 3 => .next (if p.as_ = p.at_ then s else s.doLinear c p true)
        | 4 => .next (if p.as_ = p.at_ then s.doScale c p (fun x => cellAdd x x) else s.doLinear c p false)
        | 5 => .next (s.doScale c p (cellScl p.md))
        | 6 => .next (s.doRdout c p)
        | 7 => .next (s.doPubl c p)
        | 9 => .next (s.doAspl c p)
        | 10 => .next (s.doAfil c p)
        | 11 => .next (s.doMwait c p)
        | _ => .next s

end Sys2Proof.Machine
end

