-- ==== Sys2Proof/Machine/Gang.lean ====
section
/-! DEFINITION. Gang operations: starts, steps, iteration boundaries, completion and the gang wait (09 R160 to R172), and writes
of the streamer held before a weight buffer (R161). -/

namespace Sys2Proof.Machine

/-- A part with every field 0. -/
def Part.zero : Part := ⟨0#32, 0#64, DTag.imm, none, 0, 0, 0, 0#16, none⟩

/-- The mode of a gang part (R168): K bits of 5-bit operands, group, CLR. -/
def Part.five (p : Part) : Bool := p.md.getLsbD 0
def Part.grp (p : Part) : Bool := p.md.getLsbD 1
def Part.clr (p : Part) : Bool := p.md.getLsbD 2
/-- P of R163. -/
def Part.per (p : Part) : Nat := if p.five then 24 else 48

/-- The card of an `mmaj` part: 128 bytes at its offset (R171), which is read for BAR even where the offset is refused; START stands
advanced in the part of an `mmaj` that a pre-emption stopped (18 R308). -/
def State.card (s : State) (p : Part) : List Byte :=
  let k := (s.core p.src).spRead p.cst.toNat 128
  match p.adv with
  | some it => k.take 56 ++ wordBytes it ++ k.drop 64
  | none => k

/-- The descriptor: the constant of `mma`, BASE of the card (R169, R171). -/
def State.desc (s : State) (p : Part) : Word := if p.fn = 0 then p.cst else bytesWord ((s.card p).take 8)

/-- What the eight parts must agree in (R162): FN, MD and descriptor or card, BAR apart. -/
def State.gangKey (s : State) (p : Part) : Nat × BitVec 3 × Word × List Byte :=
  (p.fn, p.md, s.desc p &&& 0xFFFFFFFFFFFF8000#64, if p.fn = 0 then [] else (s.card p).drop 8)

/-- The offset of a part's barrier object (R164). -/
def State.gangBar (s : State) (p : Part) : Nat := barOff (s.desc p)

/-! Fields of a descriptor (R169). -/

def dE (d : Word) : Nat := bits d 56 48
def dAsl (d : Word) : Nat := bits d 47 45
def dAoff (d : Word) : Nat := bits d 44 32
def dBoff (d : Word) : Nat := bits d 25 16
/-- The reserved fields are 0 and E is in range. -/
def descOk (d : Word) : Bool := bits d 63 57 == 0 && bits d 31 26 == 0 && bits d 15 15 == 0 && decide (dE d ≤ 508)
/-- AOFF and BOFF are in range. -/
def offsOk (a b : Int) : Bool := decide (32 ≤ a) && decide (a ≤ 8160) && decide (0 ≤ b) && decide (b ≤ 976)

/-! Level words (R171). -/

def lvSa (w : Word) : Int := (w.extractLsb' 0 16).toInt
def lvSb (w : Word) : Int := (w.extractLsb' 16 12).toInt
def lvSt (w : Word) : Int := (w.extractLsb' 28 4).toInt
def lvK (w : Word) : Bool := w.getLsbD 32

/-- The tiles among 16 that iterations from START on clear, relative to AT (R172): the boxes of the nest, K levels at 0. -/
def clrTiles (lv : List Word) (cnt start : Word) : List Nat :=
  let k (l : Nat) : Word := lv.getD l 0#64
  let span (l lo hi : Nat) : List Nat :=
    if lvK (k l) then (if lo = 0 then [0] else [])
    else (((List.range (min 16 (hi + 1 - lo))).map fun i => (((lo + i : Nat) * lvSt (k l)) % 16).toNat)).eraseDups
  let box (f : Nat → List Nat) : List Nat :=
    ([0, 1, 2, 3, 4].foldl (fun (acc : List Nat) l => (acc.flatMap fun a => (f l).map fun b => (a + b) % 16).eraseDups) [0])
  let here := box fun l => span l (lvl start l) (lvl start l)
  (here ++ ([0, 1, 2, 3, 4].flatMap fun m =>
    if lvl start m < lvl cnt m then
      box fun l => if l < m then span l 0 (lvl cnt l) else if l = m then span l (lvl start l + 1) (lvl cnt l) else span l (lvl start l) (lvl start l)
    else [])).eraseDups

/-- CLR of an iteration (R172). -/
def iterClr (clr : Bool) (lv : List Word) (it : Word) : Bool :=
  clr && (List.range 5).all fun l => ! lvK (lv.getD l 0#64) || lvl it l == 0

/-- The tile of an iteration (R172). -/
def iterTile (t : AReg) (lv : List Word) (it : Word) : AReg := t + BitVec.ofInt 4 (nestSum (lv.map lvSt) it)

/-- AOFF and BOFF of an iteration (R172). -/
def iterOffs (d : Word) (lv : List Word) (it : Word) : Int × Int :=
  ((dAoff d : Int) + nestSum (lv.map lvSa) it, (dBoff d : Int) + nestSum (lv.map lvSb) it)

/-! One step (R170). -/

/-- Scale and elements of the group of a block (R62, R160). -/
def grpScale (b : Blk) (five grp : Bool) : Int := b.gscale (five && grp)
def grpElems (b : Blk) (five grp : Bool) : List Int :=
  (List.range 48).map fun k => if five then (b.el5 (if grp then 48 + k else k)).toInt else (b.el10 k).toInt

/-- A and B blocks; one with an error that cannot be corrected has the code of a failed check (18 R302). -/
def State.aBlks (s : State) (row : Nat) (d : Word) (aoff : Nat) : List Blk :=
  (List.range 32).map fun r => (s.core (8 * row + dAsl d)).spBlk (64 * (aoff + r))
def Core.wbBlk (x : Core) (i : Nat) : Blk :=
  let b := blkOf ((tGet x.sl.wb i).getD (List.replicate 64 0#8))
  if tGet x.wbUps i = some true then { b with chkOk := false } else b
def Core.bBlks (x : Core) (wb : Bool) (boff : Nat) : List Blk :=
  (List.range 48).map fun n => x.wbBlk ((if wb then 1024 else 0) + boff + n)

/-- The corrected errors that a step's fetches meet are reported, and their words are whole again (18 R302); ADDR is the scratchpad offset of
the A blocks, or the weight buffer's block (DESIGN CHOICE, log entry 14). -/
def State.stepSoft (s : State) (row : Nat) (ps : List Part) (d : Word) (aoff boff : Nat) : State :=
  let a := 8 * row + dAsl d
  let s := if struck (s.core a).ups (64 * aoff) 2048 = some false then
      (s.softCor a .load true 0#64 (BitVec.ofNat 64 (64 * aoff))).upd a fun x => { x with ups := mended x.ups (64 * aoff) 2048 }
    else s
  ps.foldl (fun (s : State) p =>
    let b := (if p.wb then 1024 else 0) + boff
    let hit (e : Nat × Bool) : Bool := ! e.2 && decide (b ≤ e.1) && decide (e.1 < b + 48)
    match (s.core p.src).wbUps.find? hit with
    | some e => (s.softCor p.src .load true 0#64 (BitVec.ofNat 64 e.1)).upd p.src fun x => { x with wbUps := x.wbUps.filter fun e => ! hit e }
    | none => s) s

/-- The class that a step accepts (R170). -/
def stepCls (five : Bool) (b : Blk) : Bool := if five then b.cls == 2 else b.fmt == 0x10#8

/-- The first block that fails, with the slot to report (R170). -/
def stepFail (five : Bool) (asl : Nat) (as : List Blk) (bs : List (List Blk)) : Option (Nat × Nat) :=
  let bad (b : Blk) : Option Nat := let k := b.eval (stepCls five); if k ≤ 1 then none else some k
  match as.findSome? bad with
  | some k => some (k, asl)
  | none => ((List.range 8).zip bs).findSome? fun p => (p.2.findSome? bad).map fun k => (k, p.1)

/-- The contribution of a step to a slice: the cells to which terms are added, and the flags RND, UAL, OAL (R170, 04 R73). -/
def stepAdds (five grp : Bool) (e : Nat) (as bs : List Blk) : Tab (BitVec 48) × BitVec 3 :=
  let bx := (List.range 48).zip bs
  ((List.range 32).zip as).foldl (fun (acc : Tab (BitVec 48) × BitVec 3) ra =>
    bx.foldl (fun (acc : Tab (BitVec 48) × BitVec 3) nb =>
      if ra.2.isNull || nb.2.isNull then acc
      else
        let r := alignPair (grpElems ra.2 five grp) (grpElems nb.2 five grp) (grpScale ra.2 five grp + grpScale nb.2 five grp - e)
        (if r.2 = 2#3 then acc.1 else acc.1 ++ [(48 * ra.1 + nb.1, cellOf r.1)], acc.2 ||| r.2)) acc) ([], 0#3)

/-- Adds a contribution to a tile, cleared first when CLR (R170), with its header (R231, R237) and its ripples (R242). A cell to which
no term is added keeps its digits, non-canonical ones too (R170, 04 R73). -/
def State.stepTile (s : State) (c : Nat) (t : AReg) (clr : Bool) (dom : DTag) (x : Tab (BitVec 48)) : State :=
  let l := s.sl c
  let h := l.tile t
  let l1 := l.fillTile t fun k =>
    let o := if clr then 0#48 else l.cell t k
    match tGet x k with
    | some v => cellAdd o v
    | none => o
  let h1 := match h.st with
    | .published => h
    | .poisoned => if clr then h.written dom else { h with dom := dom }
    | _ => { h with dom := dom }
  let s := s.updSl c fun _ => l1.setTile t h1
  if h.st = .published then s.ripSend c t 4 false false x else s

/-- One step of the whole array: the state after with its flags, or the failing code and slot. -/
def State.gangStep (s : State) (row : Nat) (ps : List Part) (d : Word) (aoff boff : Nat) (clr : Bool)
    (tile : Part → AReg) : Except (Nat × Nat) (State × BitVec 3) :=
  let p0 := ps.headD Part.zero
  let as := s.aBlks row d aoff
  let bs := ps.map fun p => (s.core p.src).bBlks p.wb boff
  let s := s.stepSoft row ps d aoff boff
  match stepFail p0.five (dAsl d) as bs with
  | some f => .error f
  | none =>
    .ok ((ps.zip bs).foldl (fun (acc : State × BitVec 3) q =>
      let (x, fl) := stepAdds p0.five p0.grp (dE d) as q.2
      (acc.1.stepTile q.1.src (tile q.1) clr q.1.dom x, acc.2 ||| fl)) (s, 0#3))

/-! Starting, going on, completing. -/

/-- Consumes the eight heads; their slices are busy until a cycle. -/
def State.gangTake (s : State) (ps : List Part) (till : Nat) : State :=
  ps.foldl (fun (s : State) p => s.updSl p.src fun l => { l with inbox := l.inbox.tail, busy := till, waitFrom := none }) s

def State.addGang (s : State) (row : Nat) (g : Gang) : State :=
  let r := s.row row
  s.setRow row { r with waitFrom := none, derFrom := none, gangs := r.gangs ++ [g] }

/-- All eight domains have expired (R167). -/
def State.allExpired (s : State) (ps : List Part) : Bool := ps.all fun p => s.expired p.src (s.dtag p.dom)

/-- The step of one iteration, or the reason to stop before it (R167, R172). -/
def State.gangIter (s : State) (row : Nat) (g : Gang) (it : Word) : State × Gang :=
  let p0 := g.parts.headD Part.zero
  let halt (code opc fsl : Nat) : Gang :=
    { g with iter := none, code := BitVec.ofNat 4 code, opc := BitVec.ofNat 4 opc, fsl := BitVec.ofNat 3 fsl, stop := if p0.fn = 1 then some it else none }
  let (a, b) := iterOffs g.base g.lv it
  if ! offsOk a b then (s, halt 4 0 0)
  else
    match s.gangStep row g.parts g.base a.toNat b.toNat (iterClr p0.clr g.lv it) (fun p => iterTile p.at_ g.lv it) with
    | .error (k, f) => (s, halt 3 k f)
    | .ok (s, fl) => (s, { g with iter := iterNext g.cnt it, k := g.k + 1, fl := g.fl ||| fl })

/-- GANG_START (R162, R163, R169 to R171, 13 R240, R241): two cycles after all eight heads are gang parts and every slice has
finished its busy period. P of a mismatch of types is that of slot 0's part (DESIGN CHOICE, log entry 85). Of parts that disagree and could
not start either, MISMATCH is reported, then ANNULLED, then RANGE (DESIGN CHOICE, log entry 106). -/
def execGangStart (row : Nat) (s : State) : Out1 :=
  let cs := rowCores row
  let ps := cs.filterMap s.gangHead
  let from_ := ps.foldl (fun m p => max m (max p.t (s.sl p.src).busy)) 0
  if ps.length ≠ 8 ∨ s.cyc < from_ + 2 ∨ (s.row row).gangs.any (fun g => g.iter.isSome) ∨
      cs.any (fun c => ! (s.sl c).arrs.isEmpty || (s.sl c).cur.isSome) ∨ s.gangtoDue row then .next s
  else
    let p0 := ps.headD Part.zero
    let s := cs.foldl (fun (s : State) c => s.closeExpired c) s
    let card := s.card p0
    let base := s.desc p0
    let mmaj := p0.fn == 1
    let cnt : Word := if mmaj then bytesWord ((card.drop 8).take 8) else 0#64
    let lv : List Word := if mmaj then (List.range 5).map fun l => bytesWord ((card.drop (16 + 8 * l)).take 8) else []
    let start : Word := if mmaj then bytesWord ((card.drop 56).take 8) else 0#64
    let g : Gang := ⟨ps, ps.map s.gangBar, s.cyc, p0.per, base, cnt, lv, some start, 0, 0#4, 0#4, 0#3, 0#3, none⟩
    let s1 := s.gangTake ps (s.cyc + p0.per)
    let none_ (code fsl : Nat) : Out1 :=
      .next (s1.addGang row { g with iter := none, code := BitVec.ofNat 4 code, fsl := BitVec.ofNat 3 fsl })
    match ((List.range 8).zip ps).find? fun q => decide (s.gangKey q.2 ≠ s.gangKey p0) with
    | some q => none_ 1 q.1
    | none =>
      if s.allExpired ps then none_ 5 0
      else
        let offBad := if mmaj then ((List.range 8).zip ps).find? (fun q => ! cardOk q.2.cst.toNat) else none
        let cardBad := mmaj && (offBad.isSome || (card.drop 64).any (· != 0#8) || bits cnt 63 60 != 0 ||
          lv.any (fun w => bits w 63 33 != 0) || ! iterOk cnt start)
        if cardBad || ! descOk base || (! mmaj && ! offsOk (dAoff base) (dBoff base)) then none_ 4 ((offBad.map (·.1)).getD 0)
        else
          let rel := if mmaj then clrTiles lv cnt start else [0]
          let cleared (p : Part) : List AReg := if p.clr then rel.map fun i => p.at_ + BitVec.ofNat 4 i else []
          let st (p : Part) (x : TSt) : Bool := (cleared p).any fun t => ((s.sl p.src).tile t).st == x
          match ((List.range 8).zip ps).find? fun q => st q.2 .published with
          | some q => none_ 4 q.1
          | none =>
            if ps.any fun p => st p .derived then
              match ((List.range 8).zip ps).find? fun q => (cleared q.2).any fun t =>
                  ((s.sl q.2.src).tile t).st == .derived && (s.sl q.2.src).selfAwait s.hub.dev q.2.src t with
              | some q => none_ 4 q.1
              | none => .next (s.setRow row { s.row row with derFrom := some ((s.row row).derFrom.getD s.cyc) })
            else
              let (s2, g2) := s1.gangIter row g start
              .next (s2.addGang row g2)

/-- MMAJ_ITERATION_BOUNDARY (R163, R167, R172): the next iteration of the `mmaj` that runs, or its stop. -/
def execMmajIterationBoundary (row : Nat) (s : State) : Out1 :=
  let r := s.row row
  match r.gangs.find? (fun g => g.iter.isSome) with
  | none => .next s
  | some g =>
    match g.iter with
    | none => .next s
    | some it =>
      if s.cyc < g.g + g.k * g.per then .next s
      else
        let (s1, g1) :=
          if s.allExpired g.parts then (s, { g with iter := none, code := 5#4, stop := some it }) else s.gangIter row g it
        let s1 := if g1.k = g.k then s1
          else g.parts.foldl (fun (s : State) p => s.updSl p.src fun l => { l with busy := g.g + (g.k + 1) * g.per }) s1
        let r := s1.row row
        .next (s1.setRow row { r with gangs := r.gangs.map fun x => if x = g then g1 else x })

/-- The status that a gang operation reports (R164). -/
def gangSt (code opc : BitVec 4) (fsl fl : BitVec 3) : BitVec 48 := 0#8 ++ code ++ opc ++ fsl ++ 0#26 ++ fl

/-- The arrival of a part on its barrier object (R164). A card whose BAR a store has made invalid since the part's issue has no object,
and the core gets no arrival (DESIGN CHOICE, log entry 86). -/
def State.gangReport (s : State) (p : Part) (off : Nat) (st : BitVec 48) : State :=
  if partOff off 16 then
    s.updIn p.src p.ctx fun x => ((x.arrive off false false (some st)).evalArmed off s.cyc).evalArmed (off + 8) s.cyc
  else s

/-- GANG_COMPLETE (R163, R164, R172): at the end of g + P + 7, or of g + k P + 7, the arrivals, before any step of the next cycle; a
stopped `mmaj` writes ITERVEC of all eight cores. -/
def execGangComplete (row : Nat) (s : State) : Out1 :=
  let r := s.row row
  match r.gangs with
  | [] => .next s
  | g :: rest =>
    if ! g.due s.cyc then .next s
    else
      let s := s.setRow row { r with gangs := rest }
      let s := match g.stop with
        | some it => g.parts.foldl (fun (s : State) p => s.updIn p.src p.ctx fun x =>
            let k := { x.c with iter := 1#4 ++ it.setWidth 60 }
            { x with c := k }) s
        | none => s
      .next ((g.parts.zip g.bars).foldl (fun (s : State) p => s.gangReport p.1 p.2 (gangSt g.code g.opc g.fsl g.fl)) s)

/-- GANGTO (R162, R163, 13 R240): at the end of the cycle in which the gang wait reaches its limit, each gang part at a head is consumed
and reports CODE 2, before any step of the next cycle; what stands behind it is at the head from then on. A gang that is complete waits no
longer, but for derived tiles. -/
def execGangto (row : Nat) (s : State) : Out1 :=
  if ! s.gangtoDue row then .next s
  else
      let ps := ((rowCores row).filterMap s.gangHead).filter fun p => decide (p.t < s.cyc)
      let s := ps.foldl (fun (s : State) p => s.updSl p.src fun l => { l with inbox := l.inbox.tail, busy := max l.busy s.cyc }) s
      let s := s.setRow row { s.row row with waitFrom := none, derFrom := none }
      .next (ps.foldl (fun (s : State) p => s.gangReport p (s.gangBar p) (gangSt 2#4 0#4 0#3 0#3)) s)

/-- Notes in which cycle some head but not all became gang parts (R162); with none, or with all eight, nothing waits for the gang, and a wait
for derived tiles needs all eight (13 R240). -/
def State.gangScan (s : State) (row : Nat) : State :=
  let n := ((rowCores row).filterMap s.gangHead).length
  let r := s.row row
  let w := if n = 0 ∨ n = 8 then none else some (r.waitFrom.getD s.cyc)
  let d := if n = 8 then r.derFrom else none
  if w = r.waitFrom ∧ d = r.derFrom then s else s.setRow row { r with waitFrom := w, derFrom := d }

/-- A half of a core's weight buffer is in use (R161): a gang part that names it stands in the inbox or is performed. -/
def State.wbInUse (s : State) (c : Nat) (half : Bool) : Bool :=
  let names (p : Part) : Bool := p.isGang && p.wb == half && p.src == c
  (s.sl c).inbox.any names ||
    (s.row (rowOf c)).gangs.any fun g => (g.iter.isSome || decide (s.cyc < g.g + (max g.k 1) * g.per)) && g.parts.any names

/-- WB_HELD_WRITE (R161): the oldest held write into a half that is not in use is performed. -/
def execWbHeldWrite (c : Nat) (s : State) : Out1 :=
  match (s.sl c).wbHeld.find? fun e => ! s.wbInUse c (decide (1024 ≤ e.1)) with
  | none => .next s
  | some e =>
    .next ((s.updSl c fun l => { l with wb := tPut l.wb e.1 e.2.1, wbHeld := l.wbHeld.erase e }).upd c fun x =>
      { x with wbUps := tDel x.wbUps e.1, jobs := x.jobs.map fun j => if j.id = e.2.2 then { j with flight := j.flight - 1 } else j })

end Sys2Proof.Machine
end

