-- ==== Sys2Proof/Machine/Msg.lean ====
section
/-! DEFINITION. Messages, activations, barriers and `enq` (07_tasks_and_messages.md), and the hops of packets (08 R142, 20
R316 to R319). -/

namespace Sys2Proof.Machine

/-! Sending (R127, R131). -/

/-- The next sequence number of a stream of a core, and the core after it is taken (R131). A message that belongs to no stream
has a number that the spec does not state. -/
def Core.takeSeq (c : Core) (stag : BitVec 16) (n : Nat) : BitVec 16 × Core :=
  if stag = 0#16 then (Config.freeSeq n, c)
  else
    let q := (tGet c.seqs stag.toNat).getD 0#16
    (q, { c with seqs := tPut c.seqs stag.toNat (q + 1#16) })

/-- `send` and `sendi` (R127): the checks on the destination word, the wait for an entry of the outbound buffer, the header. -/
def sendMsg (inl : Bool) (m : Dm) (b a : Reg) (s : State) : Out1 :=
  let x := s.me
  let d := x.rs a
  .next (
    if bits d 63 48 ≠ 0 ∨ bits d 25 12 ≠ 0 ∨ bits d 47 40 > 191 ∨ (! inl ∧ bits d 11 0 > 255) then s.sTrap 0x06#8 d
    else if x.outb.length ≥ 8 then s.sStall d
    else
      let stag : BitVec 16 := (x.rs b).setWidth 16
      let dom := s.dm m
      let (q, _) := x.takeSeq stag s.nextId
      let msg : Msg :=
        ⟨d.extractLsb' 0 12, inl, dom.ext, x.c.txc, dom.id, dom.inst, BitVec.ofNat 32 s.cyc, BitVec.ofNat 12 s.cur, s.hub.dev, stag,
          q, x.rs 12#5, x.rs 8#5, x.rs 9#5, x.rs 10#5, x.rs 11#5⟩
      let e : OutEnt := ⟨bits d 47 40, bits d 39 28, d.extractLsb' 26 2, msg, (s.who s.cur false).ctx, s.nextId, x.sAfter⟩
      (s.fresh).sDone 1 1 fun c =>
        let c := (c.takeSeq stag s.nextId).2
        { c with outb := c.outb ++ [e] })

/-- `send ra, rb` (R127). -/
def execSend (m : Dm) (b a : Reg) (s : State) : Out1 := sendMsg false m b a s
/-- `sendi ra, rb` (R127). -/
def execSendi (m : Dm) (b a : Reg) (s : State) : Out1 := sendMsg true m b a s

/-- The indices of the free slots of a queue (R118). -/
def freeSlots (l : List InSlot) : List Nat := (List.range 16).filter fun i => ! l.any fun e => e.ix == i

def Core.iq (c : Core) (q : BitVec 2) : List InSlot := c.inbox[q.toNat]'q.isLt
def Core.setIq (c : Core) (q : BitVec 2) (l : List InSlot) : Core := { c with inbox := c.inbox.set q.toNat l q.isLt }

/-- A message of a source to a core has found its queue full and waits among these packets: what follows it on its path waits too (R118).
The path of a message is its source and its target core (DESIGN CHOICE, log entry 36). -/
def pathHeld (l : List Pkt) (srcd : BitVec 8) (srcc : BitVec 12) (core : Nat) : Bool :=
  l.any fun x =>
    match x.body with
    | .msg c _ m _ _ _ _ => c == core && m.srcd == srcd && m.srcc == srcc && x.held
    | _ => false

/-- OUTBOUND_ENTRY_FREE (R127): the oldest message leaves the core for the network, unless its path is held. -/
def execOutboundEntryFree (c : Nat) (s : State) : Out1 :=
  match (s.core c).outb with
  | [] => .next s
  | e :: r =>
    if e.dev = s.own ∧ pathHeld s.net e.m.srcd e.m.srcc e.core then .next s
    else .next ((s.upd c fun x => { x with outb := r }).send e.dev (.msg e.core e.q e.m none c e.after e.afterW) (msgTag e.m) e.ctx c e.m.stag)

/-! Hops (R142, R316 to R319). -/

def State.pkt (s : State) (p : Nat) : Option Pkt := s.net.find? fun k => k.id == p
def State.dropPkt (s : State) (p : Nat) : State := { s with net := s.net.filter fun k => k.id != p }
/-- A packet has reached its place and waits there: for a slot of its queue (R118), for its turn on a word (05 R94), for a context (18
R310). -/
def State.holdPkt (s : State) (p : Nat) : State := { s with net := s.net.map fun k => if k.id = p then { k with held := true } else k }
/-- A packet of a peer that waits at its place is in no queue of a network any more. -/
def Pkt.arrived (k : Pkt) : Bool := k.peer && k.held && match k.body with | .msg _ _ _ _ _ _ _ => false | _ => true

/-- A packet of a job is dropped on this device: the write is not performed, and the job has not done every iteration (12 R218;
DEDUCED, log entry 81). -/
def Core.lostPkt (c : Core) (p : Nat) : Core :=
  { c with jobs := c.jobs.map fun j =>
      if j.pkts.contains p then { j with flight := j.flight - 1, pkts := j.pkts.erase p, code := if j.code = 0 then 5 else j.code } else j }

/-- The token of a job's request at a peer (15 R272, R275). -/
def jobTok (c job : Nat) : Nat := 4096 * (job + 1) + c

/-- The core and the job of a packet of a one-sided operation that a drop notice reports (15 R272, R275, R276). -/
def jobOf (b : PBody) : Option (Nat × Nat) :=
  match b with
  | .data _ _ src job => some (src % 4096, job)
  | .load _ _ tok | .atomic _ _ _ _ _ tok => if tok ≥ 4096 then some (tok % 4096, tok / 4096 - 1) else none
  | .tile _ _ _ _ src job => if job = 0 then none else some (src % 4096, job)
  | _ => none

/-- The drop notice of domain 0 for a packet of a one-sided operation (15 R272, R275); a packet of a copy job is counted at once, and a core's
own access is dropped (08 R148). -/
def State.dropNote (s : State) (k : Pkt) : State :=
  match jobOf k.body with
  | some (c, job) => s.send (if k.peer then k.srcCore / 4096 else s.own) (.dropNotice c job) DTag.imm k.ctx nCores 0#16
  | none =>
    if k.peer then s
    else (s.updIn k.srcCore k.ctx fun x => x.lostPkt k.id).upd k.srcCore fun x => { x with acc := x.acc.filter fun a => a.sent != some k.id }

/-- The port at which a packet that leaves stands (R316, R319). -/
def State.portOf (s : State) (k : Pkt) : Nat :=
  let l := s.livePorts k.dev
  let h := Config.plane k.srcCore k.dev k.stag.toNat
  if l.isEmpty then h % nPorts else l.getD (h % l.length) 0

/-- A hop drops a packet whose domain has expired, and counts it (R142, 21 R336): the port at which it is to leave, or the networks and die
links of this device, which have one counter (DESIGN CHOICE, log entry 108). -/
def State.hopExpd (s : State) (k : Pkt) : State :=
  if k.dev ≠ s.own then s.updPort (s.portOf k) fun p => { p with expd := p.expd + 1 }
  else s.updHub fun h => { h with epExpd := tPut h.epExpd nEndpoints ((tGet h.epExpd nEndpoints).getD 0 + 1) }

/-- The holding hop drops a packet that has aged out, and counts it (R318). -/
def State.hopAged (s : State) (k : Pkt) : State :=
  if k.dev ≠ s.own then s.updPort (s.portOf k) fun p => { p with aged := p.aged + 1 } else s.updHub fun h => { h with aged := h.aged + 1 }

/-- The source port drops a packet for a missing device, and counts it (R319). -/
def State.portNodev (s : State) (k : Pkt) : State :=
  (s.updHub fun h => { h with nodev := h.nodev + 1 }).updPort (s.portOf k) fun p => { p with nodev := p.nodev + 1 }

/-- A packet for a peer leaves on the plane that its hash chooses: its flits stand in the port's retry buffer until they are
acknowledged, and it waits while the buffer is full (R316, R317). -/
def State.leave (s : State) (k : Pkt) : State :=
  let pl := s.portOf k
  let po := (tGet s.hub.ports pl).getD Port.zero
  if po.retry.length + flitsOf k.id > 1024 then s
  else
  let s := (s.dropPkt k.id).markPeer k.dom.id k.dev
  let s := match k.body with
    | .msg _ _ m _ src _ _ =>
      if src < nCores ∧ m.srcd = s.hub.dev ∧ m.stag ≠ 0#16 then s.upd src fun x => { x with gone := x.gone ++ [(k.id, m.stag, m.seq)] } else s
    | _ => s
  (s.putFlits pl k.id (flitsOf k.id)).emit (.peer k.dev { k with port := some pl })

/-- An answer to a remote tile add reaches the job (15 R276). -/
def Core.tileAnswer (c : Core) (from_ : Option Nat) (job : Nat) (ok : Bool) (slots : List (Nat × Nat)) : Core :=
  { c with
    sl := c.sl.answered from_ slots
    jobs := c.jobs.map fun j => if j.id = job ∧ j.kind = 5 then { j with st := 4, flight := 0, code := if j.code ≠ 0 then j.code else if ok then 0 else 4 } else j }

/-- A target of a ring job's tile has answered (15 R276, R280). -/
def State.ringAnswer (s : State) (c job : Nat) (ok : Bool) : State :=
  if job < ringNo 0 then s
  else
    let port := job - ringNo 0
    match (s.port port).ring with
    | j :: _ => if j.core = c ∧ j.dt = 4 then s.setRing port { j with due := j.due - 1, refused := j.refused || ! ok } else s
    | [] => s

/-- No packet of the same stream is ahead of a packet to a peer (R316). -/
def State.streamHead (s : State) (k : Pkt) : Bool :=
  k.stag == 0#16 || ! (s.net.takeWhile fun x => x.id != k.id).any fun x => x.dev == k.dev && x.srcCore == k.srcCore && x.stag == k.stag

/-- The accesses of a core that a message releases are performed (R190): those of the S stream before it, and those of the W stream that a
queue handoff puts before it. -/
def Core.sentReady (c : Core) (after afterW : Nat) : Bool :=
  ! c.acc.any fun a => decide (a.aid < if a.w then afterW else after) && a.p.kind != .uo

/-- Jobs of a stream of a core that come before a message's number are not through (12 R226); those of a context that is away are in its save
(18 R308). -/
def State.streamJobs (s : State) (src : Nat) (ctx : Ctx) (m : Msg) : Bool :=
  m.stag != 0#16 && ((s.core src).jobs ++ ((tGet s.hub.saves (saveKey ctx src)).map (·.core.jobs)).getD []).any fun j =>
    j.stag == m.stag && j.st != 5 && decide ((m.seq - j.seq).toNat < 32768)

/-- What R183, R190 and 12 R226 put before a packet's leaving for a peer has happened: for a message of a core, the core's earlier
accesses are performed and the earlier jobs of its stream are through. -/
def State.mayLeave (s : State) (k : Pkt) : Bool :=
  match k.body with
  | .msg _ _ m _ src after afterW =>
    ! (decide (src < nCores) && m.srcd == s.hub.dev) ||
      ((s.core src).sentReady after afterW && ! s.streamJobs src k.ctx m)
  | _ => true

/-- PACKET_HOP (R142, R145, R316, R319, R336): a packet whose instant has passed is dropped; one for a missing device is dropped
and counted; one for a peer leaves; a ripple, mark or tile reaches its slice, and a tile's answer its job. Any other packet goes
on. -/
def execPacketHop (p : Nat) (s : State) : Out1 :=
  match s.pkt p with
  | none => .next s
  | some k =>
    if k.arrived then .next s
    else if k.dom.id ≠ 0#16 ∧ ! k.dom.ext ∧ instPassed s.now k.dom.inst then
      .next (((s.dropPkt p).dropNote k).hopExpd k)
    else if k.dev ≠ s.own then
      let live := s.livePorts k.dev
      if k.dev ≥ s.hub.podN ∨ live.isEmpty then
        let s := match k.body with
          | .annulNotice d =>
            let e := s.dom d
            s.setDom d { e with peerAcks := e.peerAcks.erase k.dev }
          | _ => s
        .next (((s.dropPkt p).dropNote k).portNodev k)
      else if s.streamHead k && s.mayLeave k then .next (s.leave k)
      else .next s
    else
      match k.body with
      | .ripple core slot t q x src e => .next (if s.logFull core k.ctx then s.holdPkt p else (s.dropPkt p).toSlice core k.ctx (.ripple slot t q x src e))
      | .mark core slot t q psn src e => .next (if s.logFull core k.ctx then s.holdPkt p else (s.dropPkt p).toSlice core k.ctx (.mark slot t q psn src e))
      | .tile core t x ns src job => .next ((s.dropPkt p).toSlice core k.ctx (.tile t x ns src job none))
      | .tileDone c job ok m =>
        let t := ((s.dropPkt p).updIn c k.ctx fun x => x.tileAnswer (if k.peer then some k.srcCore else none) job ok m).ringAnswer c job ok
        let l := match tGet t.hub.saves (saveKey k.ctx c) with
          | some v => v.core.sl
          | none => t.sl c
        .next (t.flush c k.ctx l (m.map (·.1)))
      | _ => .next s

/-- PACKET_AGED_OUT (R318): a packet with a domain has stood in queues for 600,000 cycles. -/
def execPacketAgedOut (p : Nat) (s : State) : Out1 :=
  match s.pkt p with
  | some k =>
    if k.dom.id ≠ 0#16 ∧ ! k.arrived ∧ k.t + 600000 ≤ s.cyc then
      .next (((s.dropPkt p).dropNote k).hopAged k)
    else .next s
  | none => .next s

/-! Delivery (R118, R128, R131). -/

/-- What R118, R131, R190 and 12 R226 put before the delivery of a message has happened: its sender's earlier accesses are performed,
nothing on its path waits for a slot, the earlier messages and jobs of its stream are through; and the frames of a port go in order
(20 R326). -/
def State.msgReady (s : State) (k : Pkt) (core : Nat) (q : BitVec 2) (m : Msg) (src after afterW : Nat) : Bool :=
  let own := m.srcd == s.hub.dev && decide (src < nCores)
  (! own || (s.core src).sentReady after afterW) &&
  ! pathHeld (s.net.takeWhile fun x => x.id != k.id) m.srcd m.srcc core &&
  ! ((s.net.takeWhile fun x => x.id != k.id).any fun x =>
    match x.body with
    | .msg core' q' m' _ _ _ _ =>
      core' == core && q' == q && m'.srcd == m.srcd && m'.srcc == m.srcc &&
        ((m.stag != 0#16 && m'.stag == m.stag) || m.srcc == 0xF02#12 || m.srcc == 0xF03#12)
    | _ => false) &&
  (! own || ! s.streamJobs src k.ctx m)

/-- ADDR of NOHANDLER and MISDIRECT (18 R297). -/
def msgAddr (m : Msg) : Word := 0#20 ++ m.hnd ++ 0#12 ++ m.srcd ++ m.srcc

/-- A message is taken out of the network; its source at a peer is told of one of a stream (12 R226; log entry 47). -/
def State.tookMsg (s : State) (k : Pkt) (m : Msg) : State :=
  let s := s.dropPkt k.id
  if k.peer ∧ m.stag ≠ 0#16 then s.emit (.token (k.srcCore % 4096) 0#128 0#4) else s

/-- A message at its inbox (R118, R128, 08 R148): expired, it is discarded; in the resident context it takes a free slot, whole,
or waits for one; in another context that the core runs it goes to the arrival log; else it is discarded with a report. -/
def State.deliver (s : State) (k : Pkt) (c : Nat) (q : BitVec 2) (m : Msg) (task : TaskRef) : State :=
  let x := s.core c
  if s.expired (inboxEp c) k.dom then ((s.dropPkt k.id).dropAt (inboxEp c)).disown task
  else if x.res = some k.ctx ∧ x.runs.any (fun r => r.1 == k.ctx) then
    let l := x.iq q
    let fr := freeSlots l
    if fr.isEmpty then s.holdPkt k.id
    else
      let ix := fr.getD (Config.slotChoice k.id % fr.length) 0
      (s.tookMsg k m).upd c fun x => x.setIq q (l ++ [⟨ix, m, k.ctx, task, s.cyc, s.cyc, false, false⟩])
  else if x.runs.any (fun r => r.1 == k.ctx) then if s.logFull c k.ctx then s.holdPkt k.id else (s.tookMsg k m).toLog c k
  else
    (s.dropPkt k.id).fault (clusterOf c)
      { fEnt0 with kind := 0x25#8, core := BitVec.ofNat 12 c, ctx := k.ctx, dom := k.dom.id, addr := msgAddr m }

/-- MESSAGE_ARRIVAL (R128): a message on its way on this device reaches its inbox. -/
def execMessageArrival (p : Nat) (s : State) : Out1 :=
  match s.pkt p with
  | none => .next s
  | some k =>
    match k.body with
    | .msg c q m task src after afterW =>
      .next (if k.dev = s.own ∧ s.msgReady k c q m src after afterW then s.deliver k c q m task else s)
    | _ => .next s

/-! Activations (R33, R34, R117 to R122). -/

/-- The binding of a name that is bound (14 R251). -/
def State.nameBind (s : State) (ctx : Ctx) (key : Word) : Option Nat :=
  (s.hub.names.find? fun n => n.ctx == ctx && n.key == key).bind (·.bind)

/-- R120 lines 1 to 3: expired head messages are discarded. -/
def State.discardHeads (s : State) (c : Nat) : State :=
  [0#2, 1#2, 2#2, 3#2].foldl (fun (s : State) q =>
    let l := (s.core c).iq q
    let l1 := l.dropWhile fun e => s.expired (inboxEp c) (s.dtag (msgTag e.m))
    let n := l.length - l1.length
    let s := if n = 0 then s else s.updHub fun h => { h with epExpd := tPut h.epExpd (inboxEp c) ((tGet h.epExpd (inboxEp c)).getD 0 + n) }
    s.upd c fun x => x.setIq q l1) s

def Core.eligible (c : Core) (q : BitVec 2) : Option InSlot := (c.iq q).find? fun e => ! e.running && ! e.deferred

/-- R120 lines 4 to 9: the queue and the message chosen. -/
def Core.choose (c : Core) : Option (BitVec 2 × InSlot) :=
  match (if c.age ≥ 63 then c.eligible 3#2 else none) with
  | some e => some (3#2, e)
  | none => [0#2, 1#2, 2#2, 3#2].findSome? fun q => (c.eligible q).map fun e => (q, e)

/-- The address of a slot in the inbox view (02 R30). -/
def slotAddr (q : BitVec 2) (ix : Nat) : Word := BitVec.ofNat 64 (0x80000 + 0x400 * q.toNat + 0x40 * ix)

/-- The core may choose an activation (R120, 18 R296, 24 R340): not while an event of its own that parks nothing finds no room in the fault
queue. -/
def State.mayStart (s : State) (c : Nat) : Bool :=
  let x := s.core c
  x.stat == .idle && x.act.isNone && ! x.dbg.halted && x.park.isNone && x.res.isSome && ! s.sys.ckpting &&
    ! (s.cl (clusterOf c)).fq.held.any fun e => (decide (e.kind < 0x20#8) || e.kind == 0x22#8 || e.kind == 0x23#8) && e.core.toNat == c

/-- Starts the chosen message at an entry (R33, R117, R122); no two S instructions of a core issue in one cycle (02 R21). PREQ stays 1 while a pre-emption request is pending (02 R36; DESIGN CHOICE,
log entry 88). -/
def State.startAct (s : State) (c : Nat) (q : BitVec 2) (e : InSlot) (entry : Word) (bind : Option Nat) : State :=
  let ctx := ((tGet s.hub.ctxs e.ctx.toNat).map (·.record)).getD ⟨0#64, 0#64, 0#64, 0#64, 24#6, false⟩
  let s1 := slotAddr q e.ix
  let a : Act := ⟨e.m, q, e.ix, e.ctx, e.task, e.arr, s.cyc, bind, s.nextId⟩
  let regs := { Regs.zero with s := (((Regs.zero.s.set 1 s1).set 2 (q.setWidth 64)).set 3 (e.m.hnd.setWidth 64)).set 4 e.m.p0 }
  let s := (s.fresh).upd c fun x =>
    { x with
      r := regs, pc := entry, stat := .run, ready := max x.ready s.cyc, waitFrom := none, wFrom := none, wbuf := [], wpend := [], str := []
      pread := [], regsB := [], dbg := { x.dbg with head := entry }, act := some a, age := if q = 3#2 then 0 else x.age + 1
      inbox := (x.setIq q ((x.iq q).map fun y => if y.ix = e.ix then { y with running := true } else y)).inbox
      c := { x.c with fl := 0#5, intrap := false, txc := ctx.txc, dom := msgTag e.m
                      ckpttab := if e.m.inl then 0#64 else entry, hbase := ctx.hbase } }
  let trn : BitVec 32 := if e.m.srcd = s.hub.dev then BitVec.ofNat 32 e.arr - e.m.stmp else 0xFFFFFFFF#32
  let s := s.trace c 1#8 ((msgHeader e.m).setWidth 64) (trn ++ BitVec.ofNat 32 (s.cyc - e.arr)) (0#44 ++ e.m.srcd ++ e.m.srcc)
  let s := s.count c 4#3 entry false
  if e.m.txc ≠ ctx.txc then s.enterTrap c ⟨0x12#8, entry, s1, false⟩ else s

/-- ACTIVATION_START (R33, R117, R119, R120, R122): the chosen message starts at its handler's entry, or at its own code; a
message whose entry is not valid goes to the fault queue. -/
def execActivationStart (c : Nat) (s : State) : Out1 :=
  if ! s.mayStart c then .next s
  else
    let s := s.discardHeads c
    match (s.core c).choose with
    | none => .next s
    | some (q, e) =>
      if e.m.inl then .next (s.startAct c q e (slotAddr q e.ix + 32#64) none)
      else
        match s.handler e.ctx e.m.hnd.toNat with
        | some h => .next (s.startAct c q e h.entry (s.nameBind e.ctx h.key))
        | none =>
          let s := s.upd c fun x => x.setIq q ((x.iq q).filter fun y => y.ix != e.ix)
          .next (s.fault (clusterOf c)
            { fEnt0 with kind := 0x22#8, core := BitVec.ofNat 12 c, ctx := e.ctx, dom := e.m.dom, addr := msgAddr e.m })

/-- `defer`'s message goes to the tail of its queue, to become eligible after its cycles (R130), counted from the end of the activation
(DESIGN CHOICE, log entry 89). -/
def State.deferSlot (s : State) (c : Nat) (a : Act) (n : Word) : State :=
  let w := min n.toNat (2 ^ 24)
  s.upd c fun x =>
    match (x.iq a.q).find? fun e => e.ix == a.ix with
    | some e => x.setIq a.q (((x.iq a.q).filter fun y => y.ix != a.ix) ++ [{ e with elig := s.cyc + w, running := false, deferred := true }])
    | none => x

/-- What R34 waits for after `done`. -/
def Core.ended (c : Core) (a : Act) : Bool := c.wDrained && ! c.acc.any fun p => ! p.w && p.act == a.id

/-- ACTIVATION_END (R34, R130): no earlier than the cycle after the last write has landed. -/
def execActivationEnd (c : Nat) (s : State) : Out1 :=
  let x := s.core c
  match x.stat, x.act with
  | .ending d, some a =>
    if x.ended a ∧ x.ready ≤ s.cyc then
      match d with
      | none => .next (s.endAct c false false 0#64 .idle)
      | some n => .next ((s.endAct c false true 3#64 .idle).deferSlot c a n)
    else .next s
  | _, _ => .next s

/-- DEFER_ELIGIBLE (R130): the deferred message becomes eligible, behind those that became so before it. -/
def execDeferEligible (c : Nat) (q : BitVec 2) (ix : Nat) (s : State) : Out1 :=
  let x := s.core c
  match (x.iq q).find? fun e => e.ix == ix && e.deferred && decide (e.elig ≤ s.cyc) with
  | some e => .next (s.upd c fun x => x.setIq q (((x.iq q).filter fun y => y.ix != ix) ++ [{ e with deferred := false }]))
  | none => .next s

/-- `defer ra` (R130). -/
def execDefer (a : Reg) (s : State) : Out1 :=
  if ! s.me.regsB.isEmpty then .next (s.sTrap 0x07#8 (Config.deferVal s.nextId))
  else
    match s.me.wStuck with
    | some q => .next (s.wTrap s.cur 0x04#8 ((s.me.wbuf.head?.map (·.pc)).getD s.me.pc) (q.setWidth 64))
    | none => .next (s.sGo s.me.pc 1 id |>.updMe fun c => { c with stat := .ending (some (s.me.rs a)) })

/-! Barriers (R133, R134). -/

/-- Where the barrier object at an address stands (R134, 10 R191), for a registration, which is no access: a place that has no tags
raises the tagged-access trap, the reserved ranges are a violation (log entry 40). -/
def State.regPlace (s : State) (ea : Word) : State ⊕ (Nat × Nat) :=
  if ea.toNat % 16 ≠ 0 then .inl (s.sTrap 0x02#8 ea)
  else
    match classify s.own s.cur ea with
    | .loc off => if off < 0x80000 then .inr (s.cur, off) else .inl (s.sViol .tagged ea)
    | .ap c off => if off < 0x80000 then .inr (c, off) else .inl (s.sViol .tagged ea)
    | .dva _ => .inl (s.sTrap 0x03#8 ea)
    | .peer a =>
      if bits a 55 0 < 0xFE000000000000 then .inl (s.sTrap 0x03#8 ea)
      else if bits a 55 0 % 0x100000 ≥ 0x80000 then .inl (s.sViol .tagged ea)
      else .inr (nCores + bits a 63 56, bits a 55 0)
    | .resv => .inl (s.sViol .tagged ea)

/-- Where a barrier arrival acts: the checks of a tag write on its sixteen bytes (R125, R134, 10 R191). -/
def State.barPlace (s : State) (ea : Word) : State ⊕ (Nat × Nat) :=
  if ea.toNat % 16 ≠ 0 then .inl (s.sTrap 0x02#8 ea) else s.tagPlace (some .stf) ea 16

/-- `breg ra` (R134). -/
def execBreg (a : Reg) (s : State) : Out1 :=
  .next (match s.regPlace (s.me.rs a) with
    | .inl t => t
    | .inr p =>
      if s.me.regsB.contains p then s.sDone 1 1 id
      else if s.me.regsB.length ≥ 4 then s.sTrap 0x07#8 (s.me.rs a)
      else s.sDone 1 1 fun c => { c with regsB := c.regsB ++ [p] })

/-- `barr ra` (R134): the arrival is performed later, as a store to the object's page is, and releases what precedes it. -/
def execBarr (a : Reg) (s : State) : Out1 :=
  .next (match s.barPlace (s.me.rs a) with
    | .inl t => t
    | .inr (k, off) =>
      let w := s.who s.cur false
      let p : Piece := ⟨s.me.rs a, if k > nCores then .peer (s.me.rs a) else .sp k off, 16, .sp, false⟩
      let e : PAcc :=
        ⟨s.nextId, false, p, .arrive false false, DTag.imm, true, w.task, w.ctx, w.act, s.me.afterOf false, none, 0#5⟩
      (s.fresh).sDone 1 1 fun c => { c with regsB := c.regsB.filter fun r => r != (k, off), acc := c.acc ++ [e] })

/-! `enq` (R129). -/

/-- A footprint range is well formed and lies in one class (R123, 11 R206). -/
def fpOk (f : BitVec 128) : Bool :=
  let b := (f.extractLsb' 0 56).toNat
  let n := (f.extractLsb' 64 64).toNat
  f.extractLsb' 59 5 == 0#5 && f.extractLsb' 57 2 != 0#2 && decide (1 ≤ n) && decide (n ≤ 2 ^ 40) &&
    (decide (b + n ≤ 0x100000) || (decide (0x100000 ≤ b) && decide (b + n ≤ 0xFE000000000000)) ||
      (decide (0xFE000000000000 ≤ b) && decide (b + n ≤ 0xFE000100000000)))

/-- Ranges of 16 bytes each. -/
def fpList : List Byte → Nat → List (BitVec 128)
  | _, 0 => []
  | bs, n + 1 => BitVec.ofNat 128 (leNat (bs.take 16)) :: fpList (bs.drop 16) n

/-- The launch to which the work of the current activation belongs: its task's, or the core's launch of its context (20
R337). -/
def State.myLaunch (s : State) : Option Nat :=
  let w := s.who s.cur false
  match w.task with
  | some (l, _) => some l
  | none => (s.me.runs.find? fun r => r.1 == w.ctx).map (·.2)

/-- The packets that stand in the intake of a cluster (R129). -/
def State.intake (s : State) (cl : Nat) : Nat :=
  (s.hub.launches.map fun l => (l.2.recs.filter fun r => r.intake == some cl).length).sum

/-- HIGH (R129): the intake holds more than 48 packets. -/
def highBit (n : Nat) : Word := if n > 48 then 2#64 else 0#64

/-- The Wellhead's answer to a packet (R129): the record appended, if it is taken, in the intake of the cluster until the Wellhead takes
it up; HIGH counts the packet itself (DESIGN CHOICE, log entry 93). A record of a domain that is not live is complete at once (08
R140). -/
def State.enqueue (s : State) (d : Dom) (fps : List (BitVec 128)) : Word × State :=
  let x := s.me
  let s8 := x.rs 8#5
  let k := s.intake (clusterOf s.cur)
  match s.myLaunch.bind fun l => (tGet s.hub.launches l).map fun y => (l, y) with
  | none => (highBit k, s)
  | some (l, y) =>
    let n := y.recs.length
    let bad := bits s8 63 48 ≠ 0 ∨ bits s8 31 21 ≠ 0 ∨ bits s8 15 11 ≠ 0 ∨ x.rs 15#5 ≠ 0#64 ∨ bits s8 19 16 > 8 ∨
      (bits s8 19 16 ≠ 0 ∧ (x.rs 9#5).toNat % 16 ≠ 0) ∨ (s8.getLsbD 20 ∧ bits s8 47 32 ≥ n) ∨ ! fps.all fpOk
    if bad then (4#64 ||| highBit k, s)
    else if n ≥ 65536 ∨ k ≥ 64 then (highBit k, s)
    else
      let live := d = 0#16 ∨ (s.dom d).st = .live
      let r : Rec :=
        ⟨0#64, s8.extractLsb' 0 8, s8.extractLsb' 8 2, s8.getLsbD 10, [x.rs 10#5, x.rs 11#5, x.rs 12#5, x.rs 13#5], fps,
          if s8.getLsbD 20 then [bits s8 47 32] else [], x.rs 14#5, s.tagOf d, if live then .waiting else .discarded, s.cyc, [], false,
          if live then some (clusterOf s.cur) else none⟩
      (BitVec.ofNat 64 (n * 2 ^ 32 + 1) ||| highBit (if live then k + 1 else k), s.updHub fun h => { h with launches := tPut h.launches l { y with recs := y.recs ++ [r] } })

/-- `enq rd` (R129): the core reads the ranges as loads of the activation, hands the packet over, and waits for the reply. -/
def execEnq (x : DmR) (d : Reg) (s : State) : Out1 :=
  let (dom, ok) := s.dmr x
  let s8 := s.me.rs 8#5
  let a := s.me.rs 9#5
  let n := bits s8 19 16
  .next (
    if ! ok then s.sTrap 0x08#8 (dom.setWidth 64)
    else
      let go (s : State) (fps : List (BitVec 128)) : State :=
        let r := s.enqueue dom fps
        r.2.sHold (.service d r.1) 1 1
      if n = 0 ∨ n > 8 ∨ a.toNat % 16 ≠ 0 then go s []
      else
        match s.readRun (s.who s.cur false) a (16 * n) ((List.range n).map fun i => (a + BitVec.ofNat 64 (16 * i), 16)) with
        | .ok bs s => go s (fpList bs n)
        | .wait s => s.sStall a
        | .bad (.align v) => s.sTrap 0x02#8 v
        | .bad (.viol v) => s.sViol .load v
        | .bad (.dem v fk l) => s.demand s.cur .load false s.me.pc v fk l
        | .bad (.ok _ s) => s)

end Sys2Proof.Machine
end

