-- ==== Sys2Proof/Machine/Exu.lean ====
section
/-! DEFINITION. The expiry unit: domains, joins, annulment, shadows and the expiry instructions (08_expiry_domains.md). -/

namespace Sys2Proof.Machine

/-! The domain table (R136 to R141). -/

/-- NOW as a 64-bit value. -/
def State.nowW (s : State) : Word := BitVec.ofNat 64 s.now

/-- An instant lies after NOW and less than 2^47 ns after it (R137, R151). -/
def State.inRange (s : State) (t : Word) : Bool := decide (s.nowW < t) && decide (t - s.nowW < 0x800000000000#64)

/-- The lowest free id of a block of `n` ids (R136). -/
def State.freeDom (s : State) : Nat → Nat → Option Dom
  | 0, _ => none
  | n + 1, i => if (s.dom (BitVec.ofNat 16 i)).st = .free then some (BitVec.ofNat 16 i) else s.freeDom n (i + 1)

def State.freeOrd (s : State) : Option Dom := s.freeDom 0xEFFF 1
def State.freeJoin (s : State) : Option Dom := s.freeDom 0x1000 0xF000

/-- A new live domain (R151, R152). -/
def newDom (t : Word) (k : DKd) (ctx : Ctx) : DEnt := { DEnt.zero with inst := t, st := .live, kind := k, ctx := ctx }

/-- Every peer of a domain is told (R144, R145). -/
def State.tellPeers (s : State) (d : Dom) (b : PBody) : State :=
  (s.dom d).peers.foldl (fun (s : State) dev => s.send dev b DTag.imm (s.dom d).ctx nCores 0#16) s

/-- Every endpoint of the device (R143, R144). -/
def endpoints : List Nat := List.range nEndpoints

/-- Sets a domain annulled and sends the notices (R144 steps 1 to 3); a join's members lose it (R141). -/
def State.annulOne (s : State) (d : Dom) : State :=
  let e := s.dom d
  let s := s.setDom d { e with st := .annulled, mem := if e.kind = .join then 0#256 else e.mem, jl := [], annAt := s.cyc
                               acks := endpoints, peerAcks := e.peers }
  let s := s.updHub fun h =>
    { h with
      doms := h.doms.map fun p => (p.1, { p.2 with jl := p.2.jl.filter fun q => q.1 != d })
      launches := h.launches.map fun p => if p.2.dom.id = d then (p.1, { p.2 with ann := true }) else p }
  s.tellPeers d (.annulNotice d)

/-- The latest INST of the members of a join (R141). -/
def State.joinInst (s : State) (j : Dom) (dflt : Word) : Word :=
  ((s.hub.doms.filter fun p => p.2.st == .live && p.2.jl.any fun q => q.1 == j).map fun p => p.2.inst).foldl
    (fun a b => if a < b then b else a) dflt

/-- DOMAIN.INST of an activation of a domain (R139). -/
def Core.follow (x : Core) (d : Dom) (t : BitVec 48) : Core :=
  if x.act.isSome ∧ x.c.dom.id = d then { x with c := { x.c with dom := { x.c.dom with inst := t } } } else x

/-- Sets the instant of a domain and sends the change (R141, R155). DOMAIN.INST of its activations follows at once (R139; DESIGN CHOICE,
log entry 97). -/
def State.setInst (s : State) (d : Dom) (t : Word) : State :=
  let e := s.dom d
  if e.inst = t then s
  else
    let s := (s.setDom d { e with inst := t }).tellPeers d (.instNotice d t)
    ({ s with cores := s.cores.map fun (p : Nat × Core) => (p.1, p.2.follow d (t.setWidth 48)) }).updHub fun h =>
      { h with saves := h.saves.map fun (p : Nat × Save) => (p.1, { p.2 with core := p.2.core.follow d (t.setWidth 48) }) }

/-- A member leaves a join or expires: its bit and its JL entry are cleared, the instant is recomputed, and the join is annulled
with its last member (R141, R153). -/
def State.unjoin (s : State) (m j : Dom) (ix : Nat) : State :=
  let em := s.dom m
  let s := s.setDom m { em with jl := em.jl.filter fun q => q.1 != j }
  let e := s.dom j
  let mem := e.mem &&& ~~~ (1#256 <<< ix)
  let s := s.setDom j { e with mem := mem }
  if mem = 0#256 then s.annulOne j
  else (s.setInst j (s.joinInst j 0#64)).tellPeers j (.maskNotice j mem)

/-- Annuls a domain (R144). -/
def State.annul (s : State) (d : Dom) : State :=
  let l := (s.dom d).jl
  (l.foldl (fun (s : State) q => s.unjoin d q.1 q.2) s).annulOne d

/-- Extends an ordinary domain, with the joins it is a member of (R141, R155). -/
def State.extend (s : State) (d : Dom) (t : Word) : State :=
  let s := s.setInst d t
  (s.dom d).jl.foldl (fun (s : State) q => s.setInst q.1 (s.joinInst q.1 0#64)) s

/-- An extension that R155 accepts. -/
def State.extends (s : State) (d : Dom) (t : Word) : Bool :=
  decide ((s.dom d).inst < t) && decide (t.toNat < s.now % 2 ^ 64 + 2 ^ 47)

/-! The endpoints (R143, R144, R148). -/

def dcKey (ep : Nat) (d : Dom) : Nat := ep * 65536 + d.toNat

/-- The entry of the EXU comes into an endpoint's cache; a full cache of 64 drops a copy (R143): which, the spec leaves open; here that of
the lowest id (DESIGN CHOICE, log entry 105). -/
def State.fillDom (s : State) (ep : Nat) (d : Dom) : State :=
  let e := s.dom d
  s.updHub fun h =>
    let l := h.dcache.filter fun p => p.1 / 65536 == ep
    let dc := if (tGet h.dcache (dcKey ep d)).isSome ∨ l.length < 64 then h.dcache
      else match l.head? with | some v => tDel h.dcache v.1 | none => h.dcache
    { h with dcache := tPut dc (dcKey ep d) ⟨e.st, e.kind, e.inst⟩ }

/-- A running activation's DOMAIN.INST follows its domain (R139). -/
def State.followInst (s : State) (ep : Nat) (d : Dom) : State :=
  if ep < nCores ∧ d ≠ 0#16 then s.upd ep fun x => x.follow d ((s.dom d).inst.setWidth 48) else s

/-- DOMAIN_CACHE_FILL (R143). -/
def execDomainCacheFill (ep : Nat) (d : Dom) (s : State) : Out1 :=
  .next (if ep ≥ nEndpoints ∨ d = 0#16 ∨ (tGet s.hub.dcache (dcKey ep d)).isSome then s else (s.fillDom ep d).followInst ep d)

/-- DOMAIN_CACHE_UPDATE (R139, R143): a change of ST or INST reaches an endpoint that caches the domain. -/
def execDomainCacheUpdate (ep : Nat) (d : Dom) (s : State) : Out1 :=
  .next (if (tGet s.hub.dcache (dcKey ep d)).isSome then (s.fillDom ep d).followInst ep d else s.followInst ep d)

/-- DOMAIN_EXPIRY (R137, R141, R144): the EXU finds an instant passed. A join ends by its members only, and a shadow of one by
its home. -/
def execDomainExpiry (d : Dom) (s : State) : Out1 :=
  let e := s.dom d
  .next (if d ≠ 0#16 ∧ e.st = .live ∧ (e.kind = .ord ∨ e.kind = .shOrd) ∧ e.inst ≤ s.nowW then s.annul d else s)

/-- Held events enter in the order in which they arose while there is room (18 R296). -/
def FQueue.refill (n : Nat) : Nat → FQueue → FQueue
  | 0, q => q
  | k + 1, q =>
    match q.held, tFree q.ents n 0 with
    | e :: r, some i => FQueue.refill n k { q with ents := tPut q.ents i e, held := r }
    | _, _ => q

/-- An entry is freed at its resolution (18 R298). -/
def FQueue.free (q : FQueue) (n ix : Nat) : FQueue :=
  FQueue.refill n (q.held.length + 1) { q with ents := tDel q.ents ix }

/-- The entries of a core that parks, or of its jobs, are withdrawn (18 R298): held events take their room. -/
def State.withdraw (s : State) (c : Nat) (p : Party → Bool) : State :=
  s.updCl (clusterOf c) fun k =>
    let q : FQueue := { k.fq with ents := k.fq.ents.filter fun e => ! p e.2.party, held := k.fq.held.filter fun e => ! p e.party }
    { k with fq := FQueue.refill 64 (q.held.length + 1) q }

/-- A running activation is stopped by annulment (R148, 18 R312, 24 R340). -/
def State.stopAct (s : State) (c : Nat) : State :=
  let s := s.withdraw c fun p => p == .core c
  (s.upd c fun x => x.unpark c s.cyc).endAct c true false 1#64 .idle

/-- What holds the S stream for a reply completes before annulment stops the activation (R148, R154). -/
def Core.replying (c : Core) : Bool :=
  match c.stat with
  | .wait (.service _ _) _ _ => true
  | .wait (.inst _ _) _ _ => true
  | .wait (.acks _ _ _) _ _ => true
  | _ => false

/-- Where the signal word at an address stands: device, core and offset (15 R271, R273). -/
def sigTarget (own c : Nat) (a : Word) : Option (Nat × Nat × Nat) :=
  match classify own c a with
  | .loc off => if off < 0x80000 then some (own, c, off) else none
  | .ap k off => if off < 0x80000 then some (own, k, off) else none
  | .peer v =>
    let o := bits v 55 0
    if 0xFE000000000000 ≤ o ∧ o % 0x100000 < 0x80000 then some (bits v 63 56 - 1, (o - 0xFE000000000000) / 0x100000, o % 0x100000)
    else none
  | _ => none

/-- Sends a signal of domain 0 (15 R273). -/
def State.sendSig (s : State) (c : Nat) (ctx : Ctx) (sig : Word) (ann : Bool) (job : Nat) : State :=
  match sigTarget s.own c sig with
  | some (dev, k, off) => s.send dev (.signal k off ann (s.own * 4096 + c) job) DTag.imm ctx c 0#16
  | none => s

/-- The queued messages of a domain are discarded (R148). -/
def Core.purgeInbox (c : Core) (d : Dom) : Core :=
  let q (l : List InSlot) : List InSlot := l.filter fun e => e.running || e.m.dom != d
  { c with inbox := [0, 1, 2, 3].foldl (fun (b : Vector (List InSlot) 4) i => b.setIfInBounds i (q (b.toList.getD i []))) c.inbox }

/-- The work of a domain that a core holds, running activation apart, meets its outcome: jobs stop with CODE 5, armed puts go (R148, 15
R277, R283, 18 R312). A job whose iteration is being performed, and a tile add, stop later. -/
def Core.purge (c : Core) (d : Dom) : Core :=
  { c with
    jobs := c.jobs.map fun j => if j.dom.id = d ∧ j.st ≤ 3 ∧ ! j.wr ∧ j.kind ≠ 5 then { j with st := 4, code := 5 } else j
    armed := c.armed.filter fun a => a.dom.id != d }

/-- The signals of the armed puts of a domain are sent with a = 1 (15 R277), and their completion objects get CODE 5 (15 R283). -/
def State.armedOff (s : State) (c : Nat) (d : Dom) (l : List Armed) : State :=
  l.foldl (fun (s : State) a =>
    if a.dom.id ≠ d then s
    else
      let s := if a.sig ≠ 0#64 then s.sendSig c a.ctx a.sig true 0 else s
      if a.cmpl = 0 then s
      else s.updIn c a.ctx fun x => ((x.arrive a.cmpl false false (some (engSt 5))).evalArmed a.cmpl s.cyc).evalArmed (a.cmpl + 8) s.cyc) s

/-- Published tiles in a save area whose domain has expired are closed poisoned (13 R247). -/
def State.closeSaved (s : State) (c : Nat) (ctx : Ctx) : State :=
  (List.range 16).foldl (fun (s : State) i =>
    match tGet s.hub.saves (saveKey ctx c) with
    | none => s
    | some v =>
      let l := v.core.sl
      let t : AReg := BitVec.ofNat 4 i
      let h := l.tile t
      if h.st = .published ∧ s.expired c (s.dtag h.dom) then
        (s.updIn c ctx fun x => { x with sl := (l.setTile t { h with st := .poisoned }).ripNote t 4 true true [] }).ripGo c ctx l t 4 true true []
      else s) s

/-- The purge at a core: its jobs, armed puts, tiles and activation (R144, R148, 13 R247, 18 R312, 24 R340); the tiles of its save areas too.
An instruction that holds its stream for a reply completes first, unless the core is parked. -/
def State.purgeCore (s : State) (c : Nat) (d : Dom) : State :=
  let x := s.core c
  let parked := x.jobs.filterMap fun j => if j.dom.id = d ∧ j.st = 3 then some j.id else none
  let s := s.withdraw c fun p => match p with | .job k j => k == c && parked.contains j | _ => false
  let s := (s.armedOff c d x.armed).upd c fun x => x.purge d
  let s := s.closeExpired c
  let s := s.hub.saves.foldl (fun (s : State) p => if p.1 % 4096 = c then s.closeSaved c p.2.ctx else s) s
  if x.act.isSome ∧ x.c.dom.id = d ∧ (! x.replying ∨ x.park.isSome) then
    match x.stat with
    | .frozen => s
    | _ => s.stopAct c
  else s

/-- A handle closes: its slot's generation grows, and its binding loses a hold (14 R253, R255). -/
def State.closeHdl (s : State) (i : Nat) : State :=
  match tGet s.hub.hdls i with
  | some h =>
    match h.own with
    | some (_, _, b) => (s.updHub fun k => { k with hdls := tPut k.hdls i ⟨h.gen + 1#24, none⟩ }).reclaim b
    | none => s
  | none => s

/-- The key of a pinned page: its context, its virtual base, its size as a power of two in the low bits (11 R205). -/
def pinKey (ctx : Ctx) (a : Word) : Nat := ctx.toNat * 2 ^ 64 + a.toNat

/-- The pins of a record are released (11 R205). -/
def State.unpin (s : State) (ctx : Ctx) (l : List Word) : State :=
  let pins := l.foldl (fun (p : Tab Nat) a =>
    match tGet p (pinKey ctx a) with
    | some n => if n ≤ 1 then tDel p (pinKey ctx a) else tPut p (pinKey ctx a) (n - 1)
    | none => p) s.hub.pins
  s.updHub fun h => { h with pins := pins }

/-- A record is not placed yet. -/
def RSt.early : RSt → Bool
  | .waiting | .ready | .leased => true
  | _ => false

/-- The row reservation of a record that waits for no placement any more is given up (R132). -/
def State.dropResv (s : State) : State :=
  let waits (p : Nat × Nat) : Bool := (((tGet s.hub.launches p.1).bind fun x => x.recs[p.2]?).map (·.st.early)).getD false
  { s with rows := s.rows.map fun q => (q.1, { q.2 with resv := q.2.resv.filter waits }) }

/-- Records of a domain that the Wellhead has not placed are discarded, with their pins released (R148, 11 R205). -/
def State.purgeRecs (s : State) (d : Dom) : State :=
  s.hub.launches.foldl (fun (s : State) p =>
    let pins := (p.2.recs.filter fun r => r.dom.id == d && r.st.early).map fun r => r.pins
    let recs := p.2.recs.map fun r => if r.dom.id = d ∧ r.st.early then { r with st := .discarded, pins := [], intake := none } else r
    ((s.updHub fun h => { h with launches := tPut h.launches p.1 { p.2 with recs := recs } }).unpin p.2.ctx pins.flatten).dropResv) s

/-- A save area with its arrival log is purged (R147, 18 R312): an activation of the domain is discarded, its registrations depart, and
the binding whose code it ran loses a hold (14 R255). -/
def State.purgeSave (s : State) (d : Dom) (ctx : Ctx) (c : Nat) : State :=
  match tGet s.hub.saves (saveKey ctx c) with
  | none => s
  | some v =>
    let s := s.armedOff c d v.core.armed
    let x := ((tGet s.hub.saves (saveKey ctx c)).map (·.core)).getD v.core
    let dead := x.act.filter fun _ => x.c.dom.id == d && x.stat != .frozen
    let y := (x.purge d).purgeInbox d
    let y := match dead with
      | some a => { y.endWork .idle with regsB := [] }.setIq a.q ((y.iq a.q).filter fun e => e.ix != a.ix)
      | none => y
    let s := (v.log.filter fun k => k.dom.id == d).foldl (fun (s : State) k => s.dropNote k) s
    let s := s.updHub fun h =>
      { h with saves := tPut h.saves (saveKey ctx c) { v with core := y, log := v.log.filter fun k => k.dom.id != d } }
    let s := s.closeSaved c ctx
    match dead with
    | some a =>
      let s := s.departs ⟨c, ctx, a.task, a.id, DTag.imm, false⟩ true x.regsB
      let s := ((s.accumulate c a).trace c 2#8 (BitVec.ofNat 64 (s.cyc - a.start)) 0#64 1#64).disown a.task
      match a.bind with
      | some b => s.reclaim b
      | none => s
    | none => s

/-- A ring job of a domain that is parked on a demand fault stops, and its entry is withdrawn (18 R298, 15 R283). -/
def State.purgeRings (s : State) (d : Dom) : State :=
  s.hub.ports.foldl (fun (s : State) p =>
    match p.2.ring with
    | j :: r =>
      if j.dom.id = d ∧ j.park.isSome then
        (s.withdraw j.core fun q => q == .ring p.1).updHub fun h =>
          { h with ports := tPut h.ports p.1 { p.2 with ring := { j with park := none, code := some 5 } :: r } }
      else s
    | [] => s) s

/-- The purge at the hub's services: records, handles, save areas, held frames (R148, 14 R253, 18 R312, 20 R326). -/
def State.purgeHub (s : State) (d : Dom) : State :=
  let s := (s.purgeRecs d).purgeRings d
  let s := s.updHub fun h => { h with eths := h.eths.map fun p => (p.1, { p.2 with held := p.2.held.filter fun k => k.dom.id != d }) }
  let s := s.hub.hdls.foldl (fun (s : State) p =>
    match p.2.own with
    | some (_, k, _) => if k = d then s.closeHdl p.1 else s
    | none => s) s
  s.hub.saves.foldl (fun (s : State) p => s.purgeSave d p.2.ctx (p.1 % 4096)) s

/-- The purge at an endpoint (R144, R148). What waits at a scratchpad, a channel or a sync engine is found expired when it would be
performed (R143). -/
def State.purgeEp (s : State) (ep : Nat) (d : Dom) : State :=
  if ep = hubEp then s.purgeHub d
  else if ep < nCores then s.purgeCore ep d
  else if ep ≤ 2 * nCores then s.upd (ep - nCores - 1) fun x => x.purgeInbox d
  else s

/-- ANNULMENT_NOTICE (R144, R148): an endpoint receives the notice, purges its work of the domain and acknowledges. -/
def execAnnulmentNotice (ep : Nat) (d : Dom) (s : State) : Out1 :=
  let e := s.dom d
  if e.st = .annulled ∧ e.acks.contains ep then
    let s := s.fillDom ep d
    let s := s.purgeEp ep d
    let e := s.dom d
    .next (s.setDom d { e with acks := e.acks.erase ep })
  else .next s

/-- PEER_NOTICE_RESEND (R147). -/
def execPeerNoticeResend (d : Dom) (dev : Nat) (s : State) : Out1 :=
  let e := s.dom d
  .next (if e.st = .annulled ∧ e.peerAcks.contains dev then s.send dev (.annulNotice d) DTag.imm e.ctx nCores 0#16 else s)

/-- Something that carries the id is on its way: a packet, an access not yet performed, an outbound message, a job, a ring job, a part. -/
def State.carried (s : State) (d : Dom) : Bool :=
  let part (p : Part) : Bool := p.dom.id == d
  let co (x : Core) : Bool :=
    x.acc.any (fun a => a.dom.id == d) || x.outb.any (fun e => e.m.dom == d) || x.jobs.any (fun j => j.dom.id == d) ||
      x.sl.inbox.any part || (match x.sl.cur with | some (p, _) => part p | none => false)
  s.hub.ports.any (fun p => p.2.ring.any fun j => j.dom.id == d) || s.rows.any (fun r => r.2.gangs.any fun g => g.parts.any part) ||
    s.net.any (fun k => k.dom.id == d) || s.cores.any (fun p => co p.2) ||
    s.hub.saves.any fun p => co p.2.core || p.2.log.any fun k => k.dom.id == d

/-- DOMAIN_ID_FREE (R147): 1 ms after its annulment, acknowledged by every endpoint and peer; and, so that nothing of the freed id
reaches an endpoint later, once nothing that carries it is on its way (DEDUCED, log entry 95). -/
def execDomainIdFree (d : Dom) (s : State) : Out1 :=
  let e := s.dom d
  .next (
    if e.st = .annulled ∧ e.annAt + 1200000 ≤ s.cyc ∧ e.acks = [] ∧ e.peerAcks = [] ∧ ! s.carried d then
      s.updHub fun h => { h with doms := tDel h.doms d.toNat, dcache := h.dcache.filter fun p => p.1 % 65536 != d.toNat }
    else s)

/-! Shadows (R145, 20 R320). -/

/-- The instant within 2^47 ns of NOW with these low 48 bits (R145). -/
def State.fullInst (s : State) (i : BitVec 48) : Word :=
  let n := s.nowW
  n + ((i - n.setWidth 48).signExtend 64)

/-- The shadow of a peer's domain, if there is one. -/
def State.shadowOf (s : State) (dev : BitVec 8) (d : Dom) : Option Dom :=
  (s.hub.doms.find? fun p => (p.2.kind == .shOrd || p.2.kind == .shJoin) && p.2.st != .free && p.2.hdev == dev && p.2.hid == d).map
    fun p => BitVec.ofNat 16 p.1

/-- Finds or allocates the shadow of a peer's domain; without a free id a SHADOWFULL event is raised (R145), and reported on the sideband (24 R349). -/
def State.shadow (s : State) (dev : BitVec 8) (d : Dom) (inst : BitVec 48) (join : Bool) (ctx : Ctx) : Option Dom × State :=
  match s.shadowOf dev d with
  | some i => (some i, s)
  | none =>
    match (if join then s.freeJoin else s.freeOrd) with
    | none => (none, (s.hubEvent { fEnt0 with kind := 0x41#8, ctx := ctx, dom := d, addr := dev.setWidth 64 }).emit (.sideband 5 (dev.setWidth 64)))
    | some i =>
      let e := newDom (s.fullInst inst) (if join then .shJoin else .shOrd) ctx
      (some i, s.setDom i { e with hdev := dev, hid := d })

/-- SHADOW_NOTICE (R145): a notice of annulment, of an instant or of a mask reaches a shadow, which follows it and forwards it. A
notice of annulment is acknowledged. A notice of an instant or a mask for a pair that has no shadow yet allocates one, with the notice's
instant, or for a mask with the packet's (DESIGN CHOICE, log entry 105). -/
def execShadowNotice (p : Nat) (s : State) : Out1 :=
  match s.pkt p with
  | none => .next s
  | some k =>
    let dev : BitVec 8 := BitVec.ofNat 8 (k.srcCore / 4096)
    if ! k.peer ∨ k.dev ≠ s.own then .next s
    else
      match k.body with
      | .annulNotice d =>
        let s := (s.dropPkt p).send dev.toNat (.noticeAck d) DTag.imm k.ctx nCores 0#16
        match s.shadowOf dev d with
        | some i => .next (if (s.dom i).st = .live then s.annul i else s)
        | none => .next s
      | .instNotice d t =>
        let s := s.dropPkt p
        let r := s.shadow dev d (t.setWidth 48) (decide (0xF000 ≤ d.toNat)) k.ctx
        match r.1 with
        | some i => .next (if (r.2.dom i).st = .live then r.2.setInst i t else r.2)
        | none => .next r.2
      | .maskNotice d m =>
        let s := s.dropPkt p
        let r := s.shadow dev d k.dom.inst true k.ctx
        match r.1 with
        | some i =>
          let e := r.2.dom i
          .next (if e.st = .live then (r.2.setDom i { e with mem := m, hasMask := true }).tellPeers i (.maskNotice i m) else r.2)
        | none => .next r.2
      | _ => .next s

/-- The access packets of 20 R320: the party of the source that a refusal names, and the address. -/
def accessOf (own : Nat) (b : PBody) (src : Nat) : Option (Nat × Word) :=
  match b with
  | .load a _ tok | .fetch a _ tok | .atomic _ a _ _ _ tok | .tagop _ a _ tok | .sigw a _ tok => some (tok, a)
  | .store a _ | .arrive a _ _ => some (src, a)
  | .data a _ src _ => some (src % 4096, a)
  | .signal c off _ src _ => some (src % 4096, BitVec.ofNat 64 ((own + 1) * 2 ^ 56 + 0xFE000000000000 + c * 0x100000 + off))
  | .tile c t _ _ src _ => some (src % 4096, BitVec.ofNat 64 ((own + 1) * 2 ^ 56 + c * 65536 + t.toNat))
  | _ => none

/-- PEER_PACKET_RECEIVE (R142, R145, R154, R155, 20 R320): the port drops a packet whose instant has passed; it maps the context and the
domain, and passes the packet on; without a map entry a message is counted, an access is refused, anything else is dropped with a report.
Acknowledgements and requests to the EXU act at once. -/
def execPeerPacketReceive (port : Nat) (pk : PeerPkt) (s : State) : Out1 :=
  let po := (tGet s.hub.ports port).getD Port.zero
  let e := po.map.find? fun m => m.1 == pk.srcDev && m.2.1 == pk.srcCtx
  let put (s : State) (b : PBody) (dom : DTag) (ctx : Ctx) (stag : BitVec 16) : State :=
    ({ s with net := s.net ++ [(⟨s.nextId, s.own, b, dom, ctx, pk.srcDev.toNat * 4096 + pk.srcCore.toNat, true, s.cyc, stag, false, some port⟩ : Pkt)] }).fresh
  if pk.dom ≠ 0#16 ∧ ! pk.ext ∧ instPassed s.now pk.inst then
    let s := s.updHub fun h => { h with ports := tPut h.ports port { po with expd := po.expd + 1 } }
    .next (match jobOf pk.body with
      | some (c, job) => s.send pk.srcDev.toNat (.dropNotice c job) DTag.imm pk.srcCtx nCores 0#16
      | none => s)
  else
  match e with
  | none =>
    .next (match pk.body with
      | .msg _ _ _ _ _ _ _ => s.updHub fun h => { h with ports := tPut h.ports port { po with nomap := po.nomap + 1 } }
      | .refusal _ _ _ _ => put s pk.body DTag.imm pk.srcCtx 0#16
      | b =>
        let t := s.emit (.sideband 20 (pk.srcDev.setWidth 64))
        match accessOf s.own b pk.srcCore.toNat with
        | some (src, a) => t.send pk.srcDev.toNat (.refusal src a pk.dom none) DTag.imm pk.srcCtx nCores 0#16
        | none => t)
  | some (_, _, ctx) =>
    match pk.body with
    | .noticeAck d =>
      let e := s.dom d
      .next (s.setDom d { e with peerAcks := e.peerAcks.erase pk.srcDev.toNat })
    | .annulReq d => .next (if d ≠ 0#16 ∧ (s.dom d).st = .live then s.annul d else s)
    | .extendReq d t =>
      .next (if (s.dom d).st = .live ∧ (s.dom d).kind = .ord ∧ s.extends d t then s.extend d t else s)
    | b =>
      if pk.dom = 0#16 then .next (put s b { DTag.imm with inst := pk.inst } ctx 0#16)
      else
        let r := s.shadow pk.srcDev pk.dom pk.inst pk.ext ctx
        match r.1 with
        | none => .next r.2
        | some i =>
          let b := match b with
            | .msg c q m t f a b => PBody.msg c q { m with dom := i } t f a b
            | x => x
          .next (put r.2 b ⟨i, pk.inst, pk.ext⟩ ctx (match b with | .msg _ _ m _ _ _ _ => m.stag | _ => 0#16))

/-! The expiry instructions (R150 to R157). -/

/-- The result word (R150). -/
def dResult (st : Nat) (last : Bool) (ix : Nat) (d : Dom) : Word :=
  BitVec.ofNat 4 st ++ 0#35 ++ BitVec.ofBool last ++ BitVec.ofNat 8 ix ++ d

/-- An instruction whose position names a domain: the test of R140, then `f`. -/
def withDom (x : DmR) (s : State) (f : Dom → State → State) : Out1 :=
  let r := s.dmr x
  .next (if r.2 then f r.1 s else s.sTrap 0x08#8 (r.1.setWidth 64))

/-- The EXU has performed the instruction, and its reply is on the way. -/
def State.reply (s : State) (d : Reg) (v : Word) : State := s.sHold (.service d v) 1 1

def State.myCtx (s : State) : Ctx := (s.who s.cur false).ctx

/-- `dnew rd, ra` (R151). -/
def execDnew (a d : Reg) (s : State) : Out1 :=
  let t := s.me.rs a
  .next (
    if ! s.inRange t then s.reply d (dResult 2 false 0 0#16)
    else
      match s.freeOrd with
      | none => s.reply d (dResult 1 false 0 0#16)
      | some i => (s.setDom i (newDom t .ord s.myCtx)).reply d (dResult 0 false 0 i))

/-- The member index of a domain in a join. -/
def DEnt.ixIn (e : DEnt) (j : Dom) : Option Nat := (e.jl.find? fun q => q.1 == j).map (·.2)

/-- The lowest clear bit of a mask (R152). -/
def lowClear (m : BitVec 256) : Option Nat := (List.range 256).find? fun i => ! m.getLsbD i

/-- `djoin` at the EXU (R152): the result and the state after. -/
def State.djoin (s : State) (m j : Dom) : Word × State :=
  let e := s.dom m
  if m = 0#16 ∨ e.kind ≠ .ord then (dResult 4 false 0 0#16, s)
  else if e.st ≠ .live then (dResult 3 false 0 0#16, s)
  else if j ≠ 0#16 ∧ (j < 0xF000#16 ∨ (s.dom j).kind ≠ .join) then (dResult 4 false 0 0#16, s)
  else if j ≠ 0#16 ∧ (s.dom j).st ≠ .live then (dResult 3 false 0 0#16, s)
  else
    match (if j = 0#16 then none else e.ixIn j) with
    | some ix => (dResult 0 false ix j, s)
    | none =>
      if e.jl.length ≥ 4 ∨ (j ≠ 0#16 ∧ (lowClear (s.dom j).mem).isNone) then (dResult 5 false 0 0#16, s)
      else
        match (if j = 0#16 then s.freeJoin else some j) with
        | none => (dResult 1 false 0 0#16, s)
        | some k =>
          let s := if j = 0#16 then s.setDom k (newDom e.inst .join s.myCtx) else s
          let ej := s.dom k
          let ix := (lowClear ej.mem).getD 0
          let mem := ej.mem ||| (1#256 <<< ix)
          let s := (s.setDom k { ej with mem := mem }).setDom m { e with jl := e.jl ++ [(k, ix)] }
          let s := if ej.inst < e.inst then s.setInst k e.inst else s
          (dResult 0 false ix k, s.tellPeers k (.maskNotice k mem))

/-- `djoin rd, ra` (R152). The join that RA names is a domain named by a register (R140). -/
def execDjoin (x : DmR) (a d : Reg) (s : State) : Out1 :=
  withDom x s fun m s =>
    let j : Dom := (s.me.rs a).setWidth 16
    if ! s.domOk j then s.sTrap 0x08#8 (j.setWidth 64)
    else
      let r := s.djoin m j
      r.2.reply d r.1

/-- `dleave rd, ra` (R153). The join that RA names is a domain named by a register (R140); ID of the result is the join (DESIGN CHOICE,
log entry 90). -/
def execDleave (x : DmR) (a d : Reg) (s : State) : Out1 :=
  withDom x s fun m s =>
    let j : Dom := (s.me.rs a).setWidth 16
    let e := s.dom j
    if ! s.domOk j then s.sTrap 0x08#8 (j.setWidth 64)
    else if e.kind ≠ .join then s.reply d (dResult 4 false 0 0#16)
    else if e.st ≠ .live then s.reply d (dResult 3 false 0 0#16)
    else
      match (s.dom m).ixIn j with
      | none => s.reply d (dResult 6 false 0 0#16)
      | some ix =>
        let s := s.unjoin m j ix
        if (s.dom j).st = .annulled then s.sHold (.acks d (dResult 0 true 0 j) j) 1 1
        else s.reply d (dResult 0 false 0 j)

/-- Annuls a live domain (R154, 20 R332); for a shadow a request goes to its home. -/
def State.annulAny (s : State) (m : Dom) : State :=
  let e := s.dom m
  let s := if e.kind = .shOrd ∨ e.kind = .shJoin then s.send e.hdev.toNat (.annulReq e.hid) DTag.imm e.ctx nCores 0#16 else s
  s.annul m

/-- `dannul rd` (R154): a live domain is annulled, and the reply follows the acknowledgements of the device; for a shadow a
request goes to its home. -/
def execDannul (x : DmR) (d : Reg) (s : State) : Out1 :=
  withDom x s fun m s =>
    let e := s.dom m
    if m = 0#16 then s.reply d (dResult 4 false 0 0#16)
    else if e.st ≠ .live then s.reply d (dResult 3 false 0 0#16)
    else (s.annulAny m).sHold (.acks d (dResult 0 false 0 m) m) 1 1

/-- `dwhen rd[, ra]` (R155): RD gets the instant that the domain has when the reply comes. -/
def execDwhen (x : DmR) (a d : Reg) (s : State) : Out1 :=
  withDom x s fun m s =>
    let t := s.me.rs a
    let e := s.dom m
    if m = 0#16 then s.reply d 0xFFFFFFFFFFFFFFFF#64
    else
      let s :=
        if a ≠ 0#5 ∧ e.st = .live ∧ s.extends m t then
          match e.kind with
          | .ord => s.extend m t
          | .shOrd => s.send e.hdev.toNat (.extendReq e.hid t) DTag.imm e.ctx nCores 0#16
          | _ => s
        else s
      s.sHold (.inst d m) 1 1

/-- What `dmask` reads (R156). -/
def State.maskOf (s : State) (m : Dom) (q : BitVec 2) : Word :=
  let e := s.dom m
  if m ≠ 0#16 ∧ e.st ≠ .live then 0#64
  else if e.kind = .join ∨ e.kind = .shJoin then e.mem.extractLsb' (64 * q.toNat) 64
  else if q = 0#2 then 1#64 else 0#64

/-- `dmask rd, ra` (R156): on a shadow of a join without a mask it waits for the first notice. -/
def execDmask (x : DmR) (a d : Reg) (s : State) : Out1 :=
  withDom x s fun m s =>
    let q : BitVec 2 := (s.me.rs a).setWidth 2
    let e := s.dom m
    if e.st = .live ∧ e.kind = .shJoin ∧ ! e.hasMask then (s.fresh).sWait (.mask m q d) 1 1 (Config.maskVal s.nextId)
    else s.reply d (s.maskOf m q)

/-- SERVICE_REPLY (R129, R144, R150, R154 to R157): the reply of a service reaches the core that waits for it; that of
`dannul`, and of a `dleave` that ended its join, once every endpoint has acknowledged; that of `dmask` once there is a mask. -/
def execServiceReply (c : Nat) (s : State) : Out1 :=
  if (s.core c).dbg.halted then .next s
  else match (s.core c).stat with
  | .wait (.service rd v) n k => .next (s.wake c n k fun x => x.ws rd v)
  | .wait (.inst rd d) n k => .next (s.wake c n k fun x => x.ws rd (s.dom d).inst)
  | .wait (.acks rd v d) n k => .next (if (s.dom d).acks.isEmpty then s.wake c n k fun x => x.ws rd v else s)
  | .wait (.mask d q rd) n k =>
    let e := s.dom d
    .next (if e.st = .live ∧ e.kind = .shJoin ∧ ! e.hasMask then s else s.wake c n k fun x => x.ws rd (s.maskOf d q))
  | _ => .next s

end Sys2Proof.Machine
end

