-- ==== Sys2Proof/Machine/Tarn.lean ====
section
/-! DEFINITION. The Tarn: names, bindings, handles, and the directory instructions (14_directory.md); sealing (12 R212). -/

namespace Sys2Proof.Machine

/-! What the front end, the Ethernet ports and the Tarn read and write at virtual addresses of a context. -/

/-- Where a byte stands: in the aperture, in its mapped frame, or in the frame that the fault service has assigned (R333). -/
def State.fePlace (s : State) (ctx : Ctx) (a : Nat) : Option Place :=
  if 0xFE000000000000 ≤ a ∧ a < 0xFE000100000000 then some (.sp ((a - 0xFE000000000000) / 0x100000) (a % 0x100000))
  else if a < 0x100000 ∨ 0xFE000000000000 ≤ a then none
  else
    match (tGet s.hub.ctxs ctx.toNat).map fun k => walk s.mem k.record.root (BitVec.ofNat 64 a) with
    | some (.leaf e lg) => some (.dram (bits e 52 16 * 2 ^ 16 + a % 2 ^ lg))
    | _ => (tGet s.hub.frames (ctx.toNat * 2 ^ 64 + a / 65536 * 65536)).map fun f => .dram (f + a % 65536)

/-- Bytes at virtual addresses; none while a page has no frame. -/
def State.feRead (s : State) (ctx : Ctx) : Nat → Nat → Option (List Byte)
  | _, 0 => some []
  | a, n + 1 =>
    match s.fePlace ctx a, s.feRead ctx (a + 1) n with
    | some p, some r => some (s.readAt p 1 ++ r)
    | _, _ => none

def feWrite (ctx : Ctx) : List Byte → Nat → State → Option State
  | [], _, s => some s
  | b :: r, a, s =>
    match s.fePlace ctx a with
    | some p => feWrite ctx r (a + 1) (s.writeAt p [b])
    | none => none

/-! Names and bindings (R251, R252, R255). -/

def State.name (s : State) (ctx : Ctx) (key : Word) : Option Name := s.hub.names.find? fun n => n.ctx == ctx && n.key == key
def State.bgen (s : State) (ctx : Ctx) (key : Word) : BitVec 32 := ((s.name ctx key).map (·.bgen)).getD 0#32
def State.bound (s : State) (ctx : Ctx) (key : Word) : Option TBind :=
  ((s.name ctx key).bind (·.bind)).bind fun b => s.hub.binds.find? fun x => x.id == b

/-- The next generation, which is never 0xFFFF_FFFF (R251). -/
def genNext (g : BitVec 32) : BitVec 32 := if g + 1#32 = 0xFFFFFFFF#32 then 0#32 else g + 1#32

/-- The binding descriptor (R252). -/
def TBind.desc (b : TBind) : List Byte :=
  wordBytes b.base ++ wordBytes b.bytes ++ wordBytes b.lrec ++ leBytes 4 b.ver.toNat ++ leBytes 4 b.bgen.toNat

/-- A refusal (R257). -/
def tarnNo (e code : Nat) : Word := BitVec.ofNat 64 (2 ^ 63 + 16 * e + code)

/-! Handles (R253, R258, R259). -/

/-- A free slot: the first from some slot on. -/
def State.freeSlot (s : State) (from_ : Nat) : Option Nat :=
  ((List.range (s.hub.hdls.length + 1)).map fun i => (from_ + i) % nHandles).find? fun i =>
    match tGet s.hub.hdls i with
    | some h => h.own.isNone
    | none => true

/-- The descriptor of a binding is written at an offset that is not 0: a store that carries a domain (R258; 08 R143, R148). -/
def State.putDesc (s : State) (c : Nat) (dom : DTag) (o : Word) (b : TBind) : State :=
  if o = 0#64 then s else if s.expired (spEp c) dom then s.dropAt (spEp c) else s.upd c fun x => x.spWrite o.toNat b.desc

/-- Opens a slot on a binding for a core (R258 lines 7 to 10): the reply, with the descriptor written at `o`. -/
def State.openOn (s : State) (c : Nat) (ctx : Ctx) (dom : DTag) (o : Word) (b : TBind) : Word × State :=
  match s.freeSlot (Config.handleSlot s.nextId) with
  | none => (tarnNo 0 3, s)
  | some i =>
    let g := ((tGet s.hub.hdls i).map (·.gen)).getD 0#24
    let s := (s.fresh).updHub fun h => { h with hdls := tPut h.hdls i ⟨g, some (ctx, dom.id, b.id)⟩ }
    (BitVec.ofNat 64 (g.toNat * 2 ^ 20 + i), s.putDesc c dom o b)

/-- A descriptor or list offset (R257). -/
def tarnOff (o : Word) : Bool := o.toNat % 32 == 0 && decide (0x800 ≤ o.toNat) && decide (o.toNat ≤ 0x7FFE0)

/-- `nopen` and `nopen.wait` (R257, R258). An open whose domain has expired at the Tarn is not performed: it waits for its activation to
stop. Where a descriptor is to be written, the core's earlier accesses to its scratchpad come before it (02 R32, 10 R182). -/
def nopenOp (wait : Bool) (m : Dm) (b a d : Reg) (s : State) : Out1 :=
  let k := s.me.rs a
  let o := s.me.rs b
  .next (
    if b ≠ 0#5 ∧ ! tarnOff o then s.sTrap 0x02#8 o
    else if o ≠ 0#64 ∧ s.me.spBusy s.cur then s.sRetry
    else if s.expired hubEp (s.dm m) then (s.fresh).sWait (.tarn k o d (s.dm m) s.nextId) 1 1 k
    else if k = 0#64 then s.reply d (tarnNo 0 1)
    else
      match s.bound s.myCtx k with
      | some t =>
        let r := s.openOn s.cur s.myCtx (s.dm m) o t
        r.2.reply d r.1
      | none =>
        if wait then (s.fresh).sWait (.tarn k o d (s.dm m) s.nextId) 1 1 k else s.reply d (tarnNo 0 2))

/-- `nopen rd, ra, rb` (R258). -/
def execNopen (m : Dm) (b a d : Reg) (s : State) : Out1 := nopenOp false m b a d s
/-- `nopen.wait rd, ra, rb` (R258). -/
def execNopenWait (m : Dm) (b a d : Reg) (s : State) : Out1 := nopenOp true m b a d s

/-- The slot of a word that is a valid handle of a context (R253). -/
def State.handleOf (s : State) (ctx : Ctx) (w : Word) : Option (Nat × Nat) :=
  let i := bits w 19 0
  if bits w 63 44 ≠ 0 then none
  else
    match tGet s.hub.hdls i with
    | some h =>
      match h.own with
      | some (k, _, b) => if k = ctx ∧ h.gen.toNat = bits w 43 20 then some (i, b) else none
      | none => none
    | none => none

/-- `nclose rd, ra` (R259). -/
def execNclose (a d : Reg) (s : State) : Out1 :=
  .next (match s.handleOf s.myCtx (s.me.rs a) with
    | none => s.reply d (tarnNo 0 4)
    | some (i, b) =>
      let t := s.closeHdl i
      t.reply d (if t.hub.binds.any fun x => x.id == b then 0#64 else 0x4000000000000000#64))

/-- Open handles on a binding. -/
def State.hcnt (s : State) (b : Nat) : Nat :=
  (s.hub.hdls.filter fun h => match h.2.own with | some (_, _, k) => k == b | none => false).length

/-- `nq rd, ra, rb` (R261). The descriptor is written as that of an open is (R258). -/
def execNq (b a d : Reg) (s : State) : Out1 :=
  let k := s.me.rs a
  let o := s.me.rs b
  .next (
    if b ≠ 0#5 ∧ ! tarnOff o then s.sTrap 0x02#8 o
    else if o ≠ 0#64 ∧ s.me.spBusy s.cur then s.sRetry
    else if k = 0#64 then s.reply d 0x8000000000000000#64
    else
      let g := s.bgen s.myCtx k
      match s.bound s.myCtx k with
      | none => s.reply d (1#2 ++ 0#30 ++ g)
      | some t =>
        let s := s.putDesc s.cur (s.dm .inh) o t
        s.reply d (0#11 ++ BitVec.ofNat 21 (s.hcnt t.id) ++ g))

/-! Binds (R260, R262). -/

/-- An entry of a list, with the VER of its record once it has been read. -/
structure NBind where
  key : Word
  base : Word
  len : BitVec 32
  expect : BitVec 32
  lrec : Word
  ver : BitVec 32
deriving DecidableEq, Repr

/-- The entry binds its name; else it unbinds it. -/
def NBind.binds (e : NBind) : Bool := ! (e.base == 0#64 && e.len == 0#32 && e.lrec == 0#64)

/-- The extent and the record address keep the rules (R260 lines 6 and 7). -/
def NBind.objOk (e : NBind) : Bool :=
  e.len != 0#32 && e.base.toNat % 64 == 0 && bits e.base 63 56 == 0 && e.lrec.toNat % 128 == 0 && bits e.lrec 63 56 == 0 &&
    decide (0x100000 ≤ e.base.toNat) && decide (e.base.toNat + 64 * e.len.toNat ≤ 0xFE000000000000)

/-- Satisfies the opens parked on names that are bound now, oldest first (R256), but for those whose domain has expired (R258). -/
def State.satisfy (s : State) (ctx : Ctx) (keys : List Word) : State :=
  let l := s.cores.filterMap fun p =>
    match p.2.stat with
    | .wait (.tarn k o rd dom t) n cost =>
      if keys.contains k ∧ (s.who p.1 false).ctx = ctx ∧ ! s.expired hubEp (s.dtag dom) then some (t, p.1, k, o, rd, dom, n, cost) else none
    | _ => none
  let l := l.mergeSort fun x y => decide (x.1 ≤ y.1)
  l.foldl (fun (s : State) e =>
    match e with
    | (_, c, k, o, rd, dom, n, cost) =>
      match s.bound ctx k with
      | none => s
      | some b =>
        let r := s.openOn c ctx (s.dtag dom) o b
        r.2.upd c fun x => { x with stat := .wait (.service rd r.1) n cost, waitFrom := none }) s

/-- The bytes of a handler-table entry (07 R121): V and ENTRY in the low word, KEY in the high one. -/
def HEnt.bytes (h : HEnt) : List Byte := wordBytes (BitVec.ofBool h.v ++ 0#7 ++ h.entry.extractLsb' 0 56) ++ wordBytes h.key

/-- Entry `n` of a context's handler table: what starts activations, and its bytes at HANDLERBASE where they have a frame (07 R121; log
entry 25). -/
def State.setHEnt (s : State) (ctx : Ctx) (n : Nat) (h : HEnt) : State :=
  match tGet s.hub.ctxs ctx.toNat with
  | none => s
  | some k =>
    let s := s.updHub fun y => { y with ctxs := tPut y.ctxs ctx.toNat { k with htab := tPut k.htab n h } }
    (feWrite ctx h.bytes (k.record.hbase.toNat + 16 * n) s).getD s

/-- Installs one entry: the old binding is retired, the name gets the new one or none, and the handler-table entries of the name
follow (R255, R260 lines 14 to 16, R262). -/
def State.install (s : State) (ctx : Ctx) (e : NBind) : State :=
  let old := (s.name ctx e.key).bind (·.bind)
  let g := genNext (s.bgen ctx e.key)
  let id := s.nextId
  let b : TBind := ⟨id, ctx, e.key, g, e.base, BitVec.ofNat 64 (64 * e.len.toNat), e.lrec, e.ver, false⟩
  let names := (s.hub.names.filter fun n => ! (n.ctx == ctx && n.key == e.key)) ++
    [(⟨ctx, e.key, g, if e.binds then some id else none⟩ : Name)]
  let bs := s.hub.binds.map fun x => if old = some x.id then { x with retired := true } else x
  let tab := (((tGet s.hub.ctxs ctx.toNat).map (·.htab)).getD []).filter fun h => h.2.key == e.key
  let s := (s.fresh).updHub fun h => { h with names := names, binds := if e.binds then bs ++ [b] else bs }
  let s := tab.foldl (fun (s : State) h => s.setHEnt ctx h.1 { h.2 with v := e.binds, entry := if e.binds then e.base else h.2.entry }) s
  match old with
  | some o => s.reclaim o
  | none => s

/-- Installs a list at one point, and satisfies the opens parked on its names (R256, R260 lines 14 to 16). -/
def State.installAll (s : State) (ctx : Ctx) (l : List NBind) : State :=
  (l.foldl (fun (s : State) e => s.install ctx e) s).satisfy ctx (l.map (·.key))

/-- Names that may be forgotten when the table needs their entries: unbound, and on no binding that an open handle holds (R251). -/
def State.forgettable (s : State) (n : Name) (l : List NBind) : Bool :=
  n.bind.isNone && ! (l.any fun e => e.key == n.key) &&
    ! (s.hub.hdls.any fun h =>
      match h.2.own with
      | some (_, _, k) => s.hub.binds.any fun b => b.id == k && b.ctx == n.ctx && b.key == n.key
      | none => false)

/-- The Tarn's checks and the bind (R260 lines 10 to 16): a refusal, or the state after. -/
def State.bindAll (s : State) (ctx : Ctx) (dom : DTag) (l : List NBind) : Option Word × State :=
  if s.expired hubEp dom then (some (tarnNo 0 10), s)
  else
    let il := (List.range l.length).zip l
    match il.find? fun p => p.2.expect != 0xFFFFFFFF#32 && p.2.expect != s.bgen ctx p.2.key with
    | some p => (some (tarnNo p.1 9), s)
    | none =>
      let new := il.filter fun p => (s.name ctx p.2.key).isNone
      let fg := s.hub.names.filter fun n => s.forgettable n l
      let room := nNames - s.hub.names.length
      match (if room + fg.length < new.length then new[room + fg.length]? else none) with
      | some p => (some (tarnNo p.1 8), s)
      | none =>
        let dead := fg.take (new.length - room)
        let s := s.updHub fun h => { h with names := h.names.filter fun n => ! dead.contains n }
        (none, s.installAll ctx l)

/-- The entry at an offset of the list. -/
def nbindEnt (bs : List Byte) (i : Nat) : NBind :=
  let w (o : Nat) : Word := recWord bs (32 + 32 * i + o)
  ⟨w 0, w 8, (w 16).extractLsb' 0 32, (w 16).extractLsb' 32 32, w 24, 0#32⟩

/-- Outcome of the checks that the core makes on a list (R260 lines 3 to 9). -/
inductive NbOut where
  | ok (l : List NBind) (s : State)
  | no (v : Word) (s : State)
  | wait (s : State)
  | bad (c : Chk)
deriving DecidableEq, Repr

/-- Checks the entries in order, reading the record of each that binds. -/
def nbindChk (w : Who) (bs : List Byte) : List Nat → List NBind → State → NbOut
  | [], l, s => .ok l s
  | i :: r, l, s =>
    let e := nbindEnt bs i
    if e.key = 0#64 then .no (tarnNo i 1) s
    else if l.any fun x => x.key == e.key then .no (tarnNo i 5) s
    else if ! e.binds then nbindChk w bs r (l ++ [e]) s
    else if ! e.objOk then .no (tarnNo i 6) s
    else
      match s.readRec w e.lrec with
      | .ok rb s1 =>
        if recSealed rb && recShaped rb then
          nbindChk w bs r (l ++ [{ e with ver := BitVec.ofNat 32 (leNat (rb.take 4)) }]) s1
        else .no (tarnNo i 7) s1
      | .wait s1 => .wait s1
      | .bad c => .bad c

/-- Failed checks of a load of the S stream. -/
def State.sBad (s : State) (c : Chk) : State :=
  match c with
  | .ok _ s => s
  | .align v => s.sTrap 0x02#8 v
  | .viol v => s.sViol .load v
  | .dem v fk l => s.demand s.cur .load false s.me.pc v fk l

/-- `nbind rd, ra` (R260): the list is read, its entries checked, and the bind is one point at the Tarn, which releases every
earlier access of the core. -/
def execNbind (m : Dm) (a d : Reg) (s : State) : Out1 :=
  let o := s.me.rs a
  let h := s.me.spRead o.toNat 32
  let n := bits (recWord h 0) 3 0
  .next (
    if ! tarnOff o then s.sTrap 0x02#8 o
    else if s.me.spBusy s.cur then s.sRetry
    else if (List.range 4).any fun i => s.me.wmBlocks (o + BitVec.ofNat 64 (8 * i)) 8 then s.sStall o
    else if n < 1 ∨ n > 8 ∨ bits (recWord h 0) 63 4 ≠ 0 ∨ ! ((h.drop 8).all (· == 0#8)) ∨ o.toNat + 32 + 32 * n > 0x80000 then
      s.reply d (tarnNo 0 5)
    else if (List.range (4 + 4 * n)).any fun i => s.me.wmBlocks (o + BitVec.ofNat 64 (8 * i)) 8 then s.sStall o
    else
      s.soft s.cur .load false s.me.pc o [⟨o, .sp s.cur o.toNat, 32 + 32 * n, .sp, false⟩] fun s =>
      let s := (List.range (4 + 4 * n)).foldl (fun (s : State) i => s.watch s.cur .load (o + BitVec.ofNat 64 (8 * i)) 8) s
      match nbindChk (s.who s.cur false) (s.me.spRead o.toNat (32 + 32 * n)) (List.range n) [] s with
      | .no v s => s.reply d v
      | .wait s => s.sStall o
      | .bad c => s.sBad c
      | .ok l s =>
        if ! s.me.drained false ∨ ! s.me.wbuf.isEmpty then s.sRetry
        else
          let r := s.bindAll s.myCtx (s.dm m) l
          r.2.reply d (r.1.getD 0#64))

/-- CONTEXT_DESTROYED (R253): the handles of a context close, and its record is gone. -/
def execContextDestroyed (ctx : Ctx) (s : State) : Out1 :=
  let s := s.hub.hdls.foldl (fun (s : State) p =>
    match p.2.own with
    | some (k, _, _) => if k = ctx then s.closeHdl p.1 else s
    | none => s) s
  .next (s.updHub fun h => { h with ctxs := tDel h.ctxs ctx.toNat })

/-- The record at an address as `rseal` reads it (12 R212): the body, and the first eight bytes only where the body is well shaped. -/
def State.readSeal (s : State) (w : Who) (a : Word) : RdOut :=
  let words (b : Word) (n : Nat) : List (Word × Nat) := (List.range n).map fun i => (b + BitVec.ofNat 64 (8 * i), 8)
  match classify s.own w.core a with
  | .peer _ =>
    let f (b : Word) (n : Nat) : Chk := s.chkRun w .d .load (s.taskFps w.task) [(b, n)]
    match s.readPieces w 0 (a + 8#64) 120 (f (a + 8#64) 120) with
    | .ok b t =>
      let r := List.replicate 8 (0#8 : Byte) ++ b
      match (if recSz r then t.readPieces w 0 (a + 8#64) 248 (f (a + 8#64) 248) else .ok b t) with
      | .ok b t =>
        if ! recShaped (List.replicate 8 (0#8 : Byte) ++ b) then .ok (List.replicate 8 (0#8 : Byte) ++ b) t
        else
          match t.readPieces w 20 a 8 (f a 8) with
          | .ok h t => .ok (h ++ b) (t.upd w.core fun x => { x with pread := tDel x.pread 20 })
          | o => o
      | o => o
    | o => o
  | _ =>
    match s.readRun w (a + 8#64) 120 (words (a + 8#64) 15) with
    | .ok b s =>
      let r := List.replicate 8 (0#8 : Byte) ++ b
      match (if recSz r then s.readRun w (a + 128#64) 128 (words (a + 128#64) 16) else .ok [] s) with
      | .ok b2 s =>
        if ! recShaped (r ++ b2) then .ok (r ++ b2) s
        else
          match s.readRun w a 8 [(a, 4), (a + 4#64, 4)] with
          | .ok h s => .ok (h ++ b ++ b2) s
          | o => o
      | o => o
    | o => o

/-- `rseal rd, ra, rb` (12 R210 to R212): the reads and the releasing store of the seal are accesses of the core. -/
def execRseal (b a d : Reg) (s : State) : Out1 :=
  let ad := s.me.rs a
  let v : List Byte := leBytes 4 ((s.me.rs b).setWidth 32).toNat
  .next (
    if ad.toNat % 128 ≠ 0 then s.sTrap 0x02#8 ad
    else
      match s.readSeal (s.who s.cur false) ad with
      | .wait s => s.sStall ad
      | .bad c => s.sBad c
      | .ok r s =>
        if ! recShaped r then s.sDone 1 1 fun c => c.ws d 1#64
        else if recSealed r then s.sDone 1 1 fun c => c.ws d 2#64
        else
          s.sAcc .store ad 8 fun ps s =>
            let id := s.nextId
            let s := s.doStore (s.who s.cur false) ps (v ++ leBytes 4 (recSeal r v).toNat) (s.dm .inh) true
            if s.me.acc.any (fun x => x.aid == id) then s.sHold (.seal id d) 1 1 else s.sDone 1 1 fun c => c.ws d 0#64)

end Sys2Proof.Machine
end

