-- ==== Sys2Proof/Machine/Streamer.lean ====
section
/-! DEFINITION. The copy streamer: job cards, release, iterations, completion, promises and watermarks
(12_copy_streamer.md). -/

namespace Sys2Proof.Machine

/-! Intervals of addresses and the ranges that must hold them (R125, R214, R215). -/

/-- The intervals of ranges with these kinds of access. -/
def fpIvs (l : List (BitVec 128)) (rd wr : Bool) : List (Nat × Nat) :=
  (l.filter fun f => (! rd || f.getLsbD 57) && (! wr || f.getLsbD 58)).map fun f =>
    ((f.extractLsb' 0 56).toNat, (f.extractLsb' 0 56).toNat + (f.extractLsb' 64 64).toNat)

/-- Every byte of [lo, hi) lies in some interval. -/
def ivCover (l : List (Nat × Nat)) : Nat → Nat → Nat → Bool
  | 0, lo, hi => decide (hi ≤ lo)
  | n + 1, lo, hi =>
    decide (hi ≤ lo) ||
      match l.find? fun i => decide (i.1 ≤ lo) && decide (lo < i.2) with
      | some i => ivCover l n i.2 hi
      | none => false

/-- The extents of the handles that a context holds open (14 R254). -/
def State.handleIvs (s : State) (ctx : Ctx) : List (Nat × Nat) :=
  s.hub.hdls.filterMap fun h =>
    match h.2.own with
    | some (k, _, b) =>
      if k = ctx then (s.hub.binds.find? fun x => x.id == b).map fun x => (x.base.toNat, x.base.toNat + x.bytes.toNat) else none
    | none => none

/-- [lo, hi) is covered by a task's ranges, or is not checked against them (R125, 11 R206). -/
def State.taskCovers (s : State) (w : Who) (rd wr : Bool) (lo hi : Nat) : Bool :=
  match s.taskFps w.task with
  | none => true
  | some l =>
    let ivs := fpIvs l rd wr ++ (if rd && ! wr then s.handleIvs w.ctx else [])
    decide (hi ≤ 0x100000) || ivCover ivs (ivs.length + 1) lo hi

/-- Where an extent lies: this device with its interval, a peer, or nowhere. -/
inductive Ext where
  | own (lo hi : Nat)
  | peer
  | none
deriving DecidableEq, Repr

/-- The extent of runs of `n` bytes at offsets from `lo` to `hi` of an address (R194, R214). -/
def extent (own : Nat) (a : Word) (lo hi : Int) (n : Nat) : Ext :=
  let g := bits a 63 56
  let v : Int := (bits a 55 0 : Nat)
  if g = 0 ∨ g = own + 1 then
    if v + lo < 0 ∨ v + hi + n > 0x100000000000000 then .none else .own (v + lo).toNat (v + hi + n).toNat
  else if g ≤ 192 then .peer
  else .none

/-- The job's ranges hold an extent with the access wanted (R215, code 4). -/
def State.extOk (s : State) (ctx : Ctx) (l : List (BitVec 128)) (rd : Bool) : Ext → Bool
  | .peer => true
  | .none => false
  | .own lo hi => decide (hi ≤ lo) || (fpIvs l rd (! rd) ++ (if rd then s.handleIvs ctx else [])).any fun i => decide (i.1 ≤ lo) && decide (hi ≤ i.2)

/-! Cards (R213). -/

/-- The fields of a job card. -/
structure Card where
  w0 : Word
  lrec : Word
  src : Word
  dst : Word
  cmpl : Word
  start : Word
  fps : List (BitVec 128)
deriving DecidableEq, Repr

def readCard (bs : List Byte) : Card :=
  ⟨recWord bs 0, recWord bs 8, recWord bs 16, recWord bs 24, recWord bs 32, recWord bs 40, fpList (bs.drop 48) 5⟩

def Card.kind (k : Card) : Nat := bits k.w0 35 32
def Card.ch (k : Card) : Nat := bits k.w0 43 42
def Card.wmk (k : Card) : Bool := k.w0.getLsbD 44
def Card.stag (k : Card) : BitVec 16 := k.w0.extractLsb' 48 16

/-- A completion object's offset (R213). -/
def cmplOk (w : Word) : Bool := w == 0#64 || (w.toNat % 16 == 0 && decide (0x800 ≤ w.toNat) && decide (w.toNat ≤ 0x7FFF0))

/-- The CARD tests that need no record (R215). -/
def Card.first (k : Card) : Bool :=
  bits k.w0 47 45 == 0 && bits k.w0 41 36 == 0 && bits k.w0 31 0 == 0 && decide (k.kind ≤ 1) && cmplOk k.cmpl &&
    (k.kind != 1 || bits k.dst 63 11 == 0) && bits k.start 63 60 == 0 && k.fps.all fun f => f.extractLsb' 59 5 == 0#5

/-- The destination is contiguous and ascending from START on (R225): every step to a next iteration moves it by RUN. -/
def contiguous (ds : List Int) (cnt start : Word) (run : Nat) : Bool :=
  (List.range 5).all fun l =>
    let last := cnt.toNat - 2 ^ (12 * l)
    lvl cnt l == 0 || decide (last < start.toNat) ||
      ds.getD l 0 - ((List.range l).map fun k => (lvl cnt k : Int) * ds.getD k 0).sum == (run : Int)

/-- R221: each run lands in blocks 0 to 1,023 of the half. -/
def wbOk (dst : Word) (lo hi : Int) (run : Nat) : Bool :=
  let b : Int := (bits dst 9 0 : Nat) * 64
  run == 0 || (decide (0 ≤ b + lo) && decide (b + hi + run ≤ 65536))

/-- The first check of R215 line 6 that fails, of those that need the record. -/
def State.cardCode (s : State) (ctx : Ctx) (k : Card) (r : LayRec) : Nat :=
  let cnt := recCnt r
  let g := recGran r
  let ss := nestSpan (ints (recSs r)) cnt k.start
  let ds := nestSpan (ints (recDs r)) cnt k.start
  if ! iterOk cnt k.start then 1
  else if ! recShaped r then 2
  else if k.src.toNat % g ≠ 0 ∨ (k.kind = 0 ∧ k.dst.toNat % g ≠ 0) ∨ (k.kind = 1 ∧ (g ≠ 64 ∨ ! wbOk k.dst ds.1 ds.2 (recRun r))) then 3
  else if recRun r ≠ 0 ∧ (! s.extOk ctx k.fps true (extent s.own k.src ss.1 ss.2 (recRun r)) ∨
      (k.kind = 0 ∧ ! s.extOk ctx k.fps false (extent s.own k.dst ds.1 ds.2 (recRun r)))) then 4
  else if k.wmk ∧ ! contiguous (ints (recDs r)) cnt k.start (recRun r) then 5
  else 0

/-- The first of the card's ranges, and then of the extents, that the task's ranges do not cover (R215 line 8). -/
def State.cardBad (s : State) (w : Who) (k : Card) (r : LayRec) : Option (Acc × Word) :=
  let ss := nestSpan (ints (recSs r)) (recCnt r) k.start
  let ds := nestSpan (ints (recDs r)) (recCnt r) k.start
  let one (e : Ext) (rd wr : Bool) : Option (Acc × Word) := match e with
    | .own lo hi => if s.taskCovers w rd wr lo hi then none else some (if wr then .jobWrite else .jobRead, BitVec.ofNat 64 lo)
    | _ => none
  let fp := k.fps.findSome? fun f =>
    let b := (f.extractLsb' 0 56).toNat
    let n := (f.extractLsb' 64 64).toNat
    if n = 0 then none else one (.own b (b + n)) (f.getLsbD 57) (f.getLsbD 58)
  fp.or <|
    if recRun r = 0 then none
    else
      (one (extent s.own k.src ss.1 ss.2 (recRun r)) true false).or <|
        if k.kind = 0 then one (extent s.own k.dst ds.1 ds.2 (recRun r)) false true else none

/-! The scheduler (R208, R216, R217). -/

/-- The outstanding jobs: a job that failed by a violation holds its channel, but no slot and no edge (R208, R217, 18 R300). -/
def Core.openJobs (c : Core) : List Job := c.jobs.filter fun j => j.st != 6

/-- A scheduler slot is free, and no held firing is ahead (R208, 15 R277). -/
def Core.slotFree (c : Core) : Bool := decide (c.openJobs.length < 16) && ! c.armed.any fun a => a.fired.isSome

/-- Two lists of ranges conflict: they share a byte, and one of the two ranges writes (R217). -/
def fpConflict (a b : List (BitVec 128)) : Bool :=
  a.any fun f => b.any fun g =>
    (f.getLsbD 58 || g.getLsbD 58) &&
      (fpIvs [f] false false).any fun i => (fpIvs [g] false false).any fun j => decide (i.1 < j.2) && decide (j.1 < i.2) && decide (i.1 < i.2) && decide (j.1 < j.2)

/-- The outstanding jobs from which a new one gets an edge (R217). -/
def Core.edgesOf (c : Core) (fps : List (BitVec 128)) (stag : BitVec 16) : List Nat :=
  (c.openJobs.filter fun j => fpConflict j.fps fps || (stag != 0#16 && j.stag == stag)).map (·.id)

/-- The promise of a new job (R216). One-sided jobs make none. -/
def Core.promiseOf (c : Core) (now ch n : Nat) (edges : List Nat) (peer : Bool) : Nat :=
  let t0 := (c.openJobs.filter fun j => j.kind ≤ 1 && (j.ch == ch || edges.contains j.id)).foldl (fun m j => max m j.promise) now
  min (t0 + 2400 + (n + 15) / 16 + (if peer then 6000 else 0)) (2 ^ 63 - 1)

/-- How many iterations come before this one. -/
def nestIndex (cnt it : Word) : Nat :=
  [4, 3, 2, 1, 0].foldl (fun a l => a * (lvl cnt l + 1) + lvl it l) 0

/-! One-sided operations as jobs (15 R270, R271, R277). -/

structure Desc where
  dst : Word
  src : Word
  w2 : Word
  sig : Word
  trig : Word
  thr : Word
  rest : Bool
deriving DecidableEq, Repr

def readDesc (bs : List Byte) : Desc :=
  ⟨recWord bs 0, recWord bs 8, recWord bs 16, recWord bs 24, recWord bs 32, recWord bs 40, (bs.drop 48).all (· == 0#8)⟩

def Desc.len (k : Desc) : Nat := bits k.w2 39 0
def Desc.ety (k : Desc) : Nat := bits k.w2 42 40
def Desc.cmpl (k : Desc) : Nat := bits k.w2 63 48 * 16

/-- The ranges of a one-sided job, for its edges (R271): its local source is read, its local destination written. -/
def Desc.fps (k : Desc) (own : Nat) : List (BitVec 128) :=
  let one (a : Word) (acc : BitVec 2) : List (BitVec 128) :=
    match extent own a 0 0 k.len with
    | .own lo hi => [BitVec.ofNat 64 (hi - lo) ++ 0#5 ++ acc ++ 1#1 ++ BitVec.ofNat 56 lo]
    | _ => []
  one k.src 1#2 ++ one k.dst 2#2

/-- The job of a descriptor (R271), on channel 3; the part of a tile add in the slice waits for the job's turn there. -/
def sideJob (id own : Nat) (k : Desc) (kind : Nat) (dom : DTag) (w : Who) (act : Option Nat) (edges : List Nat) : Job :=
  { id := id, kind := kind, ch := 3, wmk := false, stag := 0#16, seq := 0#16, src := k.src, dst := k.dst
    cnt := 0#64, ss := [], ds := [], run := 0, len := k.len, ety := k.ety, cmpl := k.cmpl, sig := k.sig, sigA := false
    fps := if kind = 5 then [] else k.fps own, dom := dom, task := w.task, ctx := w.ctx, act := act, promise := 0, edges := edges
    st := 0, iter := 0#64, done := 0, code := 0, flight := 0, after := 0, sigSent := false, wr := false, pkts := [] }

/-- The put that fired first is submitted while a slot is free, and its entry frees (15 R277). -/
def State.fireOne (s : State) (c : Nat) : State :=
  let x := s.core c
  let first := x.armed.foldl (fun (m : Option Nat) a =>
    match a.fired, m with
    | some (t, _), none => some t
    | some (t, _), some u => some (min t u)
    | none, m => m) none
  match first.bind fun t => x.armed.find? fun a => (a.fired.map (·.1)) == some t with
  | none => s
  | some a =>
    if x.openJobs.length ≥ 16 then s
    else
      let k : Desc := ⟨a.dst, a.src, BitVec.ofNat 64 a.len, a.sig, 0#64, 0#64, true⟩
      let w : Who := ⟨c, a.ctx, a.task, a.act, a.dom, false⟩
      let ann := match a.fired with | some (_, b) => b | none => false
      let j := sideJob s.nextId s.own k 2 a.dom w (if a.act = 0 then none else some a.act) (x.edgesOf (k.fps s.own) 0#16)
      (s.fresh).upd c fun y => { y with jobs := y.jobs ++ [{ j with cmpl := a.cmpl, sigA := ann }], armed := y.armed.erase a }

/-- Held firings are submitted before any later submission of the core (15 R277): as many as the slots take. -/
def State.fireHeld (s : State) (c : Nat) : State :=
  ((s.core c).armed.filter fun a => a.fired.isSome).foldl (fun (s : State) _ => s.fireOne c) s

/-- `cpy rd, ra` (R215). The card is read, and the object may be arrived on, once the core's earlier accesses to its scratchpad are
performed (02 R32, 10 R193). -/
def execCpy (m : Dm) (a d : Reg) (s : State) : Out1 :=
  let s := s.fireHeld s.cur
  let c := s.me.rs a
  let no (s : State) (code : Nat) : State := s.sDone 1 4 fun x => x.ws d (BitVec.ofNat 64 (2 ^ 63 + code))
  .next (
    if c.toNat % 128 ≠ 0 ∨ c.toNat < 0x800 ∨ c.toNat > 0x7FF80 then s.sTrap 0x02#8 c
    else if ! s.me.slotFree then s.sStall c
    else if s.me.spBusy s.cur then s.sRetry
    else
      let k := readCard (s.me.spRead c.toNat 128)
      if ! k.first then no s 1
      else if k.lrec.toNat % 128 ≠ 0 then no s 2
      else
        let w := s.who s.cur false
        match s.readRec w k.lrec with
        | .wait s => s.sStall c
        | .bad x => s.sBad x
        | .ok r s =>
          if ! recSealed r then s.sViol .load k.lrec
          else
            let code := s.cardCode w.ctx k r
            if code ≠ 0 then no s code
            else
            match s.cardBad w k r with
            | some (acc, v) => s.sViol acc v
            | none =>
              let n := recRun r * nestCount (recCnt r)
              let edges := s.me.edgesOf k.fps k.stag
              let peer := recRun r != 0 && (extent s.own k.src 0 0 0 == .peer || (k.kind == 0 && extent s.own k.dst 0 0 0 == .peer))
              let p := s.me.promiseOf s.cyc k.ch n edges peer
              let sq := s.me.takeSeq k.stag s.nextId
              let j : Job :=
                { id := s.nextId, kind := k.kind, ch := k.ch, wmk := k.wmk, stag := k.stag, seq := sq.1, src := k.src, dst := k.dst
                  cnt := recCnt r, ss := recSs r, ds := recDs r, run := recRun r, len := n, ety := 0, cmpl := k.cmpl.toNat
                  sig := 0#64, sigA := false, fps := k.fps, dom := s.dm m, task := w.task, ctx := w.ctx
                  act := s.me.act.map (·.id), promise := p, edges := edges, st := 0, iter := k.start
                  done := nestIndex (recCnt r) k.start * recRun r, code := 0, flight := 0, after := 0, sigSent := false
                  wr := false, pkts := [] }
              (s.fresh).sDone 1 4 fun x =>
                let x := (x.takeSeq k.stag s.nextId).2
                { x with jobs := x.jobs ++ [j] }.ws d (BitVec.ofNat 64 p))

/-! The life of a job. -/

def Core.job (c : Core) (j : Nat) : Option Job := c.jobs.find? fun x => x.id == j
def Core.updJob (c : Core) (j : Nat) (f : Job → Job) : Core := { c with jobs := c.jobs.map fun x => if x.id = j then f x else x }
def State.updJob (s : State) (c j : Nat) (f : Job → Job) : State := s.upd c fun x => x.updJob j f

/-- JOB_RELEASE (R217): every job it has an edge from is through. -/
def execJobRelease (c j : Nat) (s : State) : Out1 :=
  let x := s.core c
  match x.job j with
  | some k =>
    .next (if k.st = 0 ∧ ! k.edges.any (fun e => x.openJobs.any fun y => y.id == e) then s.updJob c j fun y => { y with st := 1, after := s.cyc } else s)
  | none => .next s

/-- The earlier messages of a job's stream have been delivered (R226): none waits to leave, is under way, or has left for a peer that has not
said that it took it. -/
def State.streamClear (s : State) (c : Nat) (k : Job) : Bool :=
  let early (m : Msg) : Bool := m.stag == k.stag && decide ((k.seq - m.seq).toNat < 32768)
  k.stag == 0#16 ||
    (! (s.core c).outb.any (fun e => early e.m) &&
      ! (s.core c).gone.any (fun g => g.2.1 == k.stag && decide ((k.seq - g.2.2).toNat < 32768)) &&
      ! s.net.any fun p => match p.body with
        | .msg _ _ m _ src _ _ => ! p.peer && src == c && early m
        | _ => false)

/-- JOB_START (R208, R226): a released job takes its channel, in order of release, once its stream allows. -/
def execJobStart (c j : Nat) (s : State) : Out1 :=
  let x := s.core c
  match x.job j with
  | some k =>
    let busy := x.jobs.any fun y => y.ch == k.ch && (y.st == 2 || y.st == 3 || y.st == 4 || y.st == 6)
    let first := ! x.jobs.any fun y => y.ch == k.ch && y.st == 1 && (decide (y.after < k.after) || (y.after == k.after && decide (y.id < j)))
    .next (if k.st = 1 ∧ ! busy ∧ first ∧ s.streamClear c k then s.updJob c j fun y => { y with st := 2 } else s)
  | none => .next s

/-- ITERVEC of an engine's iteration (02 R39). -/
def engIter (eng : Nat) (it : Word) : Word := BitVec.ofNat 4 eng ++ it.extractLsb' 0 60

/-- A fault entry of a job (18 R297). -/
def State.jobEnt (s : State) (c : Nat) (k : Job) (kind : BitVec 8) (acc : Acc) (addr : Word) : FEnt :=
  { s.coreEnt c kind 0#64 addr false .none with
    acc := accCode acc, ch := BitVec.ofNat 2 k.ch, ctx := k.ctx, dom := k.dom.id, iter := engIter 2 k.iter }

/-- A violation by a job (18 R300): its channel freezes without an arrival, the activation that submitted it ends if it still
runs, its task is failed, and the queue receives the report. -/
def State.violJob (s : State) (c : Nat) (k : Job) (acc : Acc) (addr : Word) : State :=
  let s := ((s.fault (clusterOf c) (s.jobEnt c k 0x30#8 acc addr)).failTask k.task).updJob c k.id fun y => { y with st := 6 }
  match k.act, (s.core c).act with
  | some i, some a =>
    if i = a.id ∧ (s.core c).stat ≠ .frozen then
      ((s.withdraw c fun p => p == .core c).upd c fun x => x.unpark c s.cyc).endAct c false false 2#64 .idle
    else s
  | _, _ => s

/-- A demand fault of a job (R219, 11 R207): the job parks, and ITERVEC shows its iteration. -/
def State.demandJob (s : State) (c : Nat) (k : Job) (acc : Acc) (addr : Word) (fk : BitVec 4) (lease : Bool) : State :=
  let e := { s.jobEnt c k 0x20#8 acc addr with fk := fk, lease := lease, party := .job c k.id }
  let s := (s.fault (clusterOf c) e).updJob c k.id fun y => { y with st := 3 }
  (s.count c 5#3 0#64 false).upd c fun x => { x with c := { x.c with iter := engIter 2 k.iter } }

/-- The kind and LEASE of an engine's demand fault: NOTPRESENT with LEASE on an address of a leased range of its task (11 R207). -/
def State.leaseFault (s : State) (t : TaskRef) (v : Word) (fk : BitVec 4) (l : Bool) : BitVec 4 × Bool :=
  if leaseHit (s.taskFps t) v.toNat then (1#4, true) else (fk, l)

/-- What follows the checks of a job's access: parking, violation, or `f` on the pieces. -/
def State.jobAcc (s : State) (c : Nat) (k : Job) (acc : Acc) (a : Word) (n : Nat) (f : List Piece → State → State) : State :=
  let w : Who := ⟨c, k.ctx, k.task, 0, s.dtag k.dom, false⟩
  match s.chkRun w .st acc (if k.kind ≤ 1 then some k.fps else none) (runParts n a n) with
  | .ok ps s => f ps s
  | .align v => s.violJob c k acc v
  | .viol v => s.violJob c k acc v
  | .dem v fk l => let f := s.leaseFault k.task v fk l; s.demandJob c k acc v f.1 f.2

/-- A corrected error in moving data is reported, and parks nobody (R223, 18 R302). -/
def State.softcor (s : State) (c : Nat) (k : Job) (a : Word) (e : JobErr) : State :=
  match e with
  | .corrected => s.fault (clusterOf c) (s.jobEnt c k 0x21#8 .jobRead a)
  | _ => s

/-- The error that a job's read meets: what comes with the step, or that of a word that a soft error has struck (18 R302). -/
def State.jobErr (s : State) (ps : List Piece) (e : JobErr) : JobErr :=
  match s.struckPs ps, e with
  | some true, _ => .uncorrectable
  | some false, .none => .corrected
  | _, e => e

/-- A word that a read has found damaged stays so until it is stored (18 R302). -/
def State.damage (s : State) (ps : List Piece) : State :=
  match ps with
  | [] => s
  | p :: _ =>
    match p.at_ with
    | .sp k off => s.upd k fun x => { x with ups := tPut x.ups (off / 8) true }
    | .dram pa => { s with upsets := tPut s.upsets (pa / 8) true }
    | .peer _ => s

/-- The bytes that a run reads: on this device, or as a peer returns them. -/
def State.runBytes (s : State) (c : Nat) (ps : List Piece) (n : Nat) (e : JobErr) : Option (List Byte) :=
  if anyPeer ps then
    match e with
    | .peer bs => if bs.length = n then some bs else none
    | _ => none
  else some (ps.map fun p => s.engRead c p.at_ p.n).flatten

/-- A job sends a packet whose write is not performed yet. -/
def State.sendJob (s : State) (c : Nat) (k : Job) (dev : Nat) (b : PBody) : State :=
  (s.send dev b (s.dtag k.dom) k.ctx c k.stag).updJob c k.id fun y => { y with flight := y.flight + 1, pkts := y.pkts ++ [s.nextId] }

/-- Writes a run, piece by piece, at its places; pieces at a peer leave as packets, to be answered (R220, 20 R321). R220 leaves open when the
pieces of a run become visible: here a run's pieces on this device do in one step (DESIGN CHOICE, log entry 103). -/
def State.writeRun (s : State) (c : Nat) (k : Job) (bs : List Byte) (ps : List Piece) : State :=
  (ps.foldl (fun (r : State × List Byte) p =>
    let b := r.2.take p.n
    let s := match p.at_ with
      | .peer a => r.1.sendJob c k (bits a 63 56 - 1) (.store a b)
      | x => r.1.storeTo x p.va b (s.dtag k.dom) k.ctx c
    (s, r.2.drop p.n)) (s, bs)).1

/-- The job goes on to its next iteration, or its iterations are done. -/
def Job.step (k : Job) (n : Nat) : Job :=
  match iterNext k.cnt k.iter with
  | some it => { k with iter := it, done := k.done + n }
  | none => { k with st := 4, done := k.done + n }

/-- One iteration of COPY or WBFILL (R214, R219 to R223). The next one begins, and the watermark moves on, once the writes of this one
are performed (R214, R225). A source byte that an earlier iteration has written is read as written: of the two values that R214 allows
the model has that one (DESIGN CHOICE, log entry 103). -/
def State.copyIter (s : State) (c : Nat) (k : Job) (err : JobErr) : State :=
  let a := k.src + BitVec.ofInt 64 (nestSum (ints k.ss) k.iter)
  let off := nestSum (ints k.ds) k.iter
  if k.run = 0 then s.updJob c k.id fun y => { y with st := 4 }
  else
    s.jobAcc c k .jobRead a k.run fun ps s =>
      let go (s : State) (wr : List Byte → State → State) : State :=
        let err := s.jobErr ps err
        if err = .uncorrectable then (s.damage ps).updJob c k.id fun y => { y with st := 4, code := 6 }
        else
          let u := ((s.seeLate c).touch ps).mendPs ps
          match u.runBytes c ps k.run err with
          | none => s
          | some bs => (wr bs (u.softcor c k a err)).updJob c k.id fun y => if y.flight = 0 then y.step k.run else { y with wr := true }
      if k.kind = 1 then
        let b0 := (((bits k.dst 9 0 : Nat) : Int) + off / 64).toNat + bits k.dst 10 10 * 1024
        go s fun bs s => (s.updSl c fun l =>
          { l with wbHeld := l.wbHeld ++ (List.range (k.run / 64)).map fun i => (b0 + i, (bs.drop (64 * i)).take 64, k.id) }).updJob c k.id
            fun y => { y with flight := y.flight + k.run / 64 }
      else
        s.jobAcc c k .jobWrite (k.dst + BitVec.ofInt 64 off) k.run fun qs s =>
          if qs.any fun q => s.logStop k.ctx q.at_ then s else go s fun bs s => s.writeRun c k bs qs

/-- The bytes of the next packet or element of a one-sided job (15 R272, R275). -/
def Job.chunk (k : Job) : Nat :=
  let n := if k.kind = 4 then (if k.ety = 1 then 4 else 8) else 64 - (k.dst.toNat + k.done) % 64
  min n (k.len - k.done)

/-- One packet of a put or get, or one element of a remote add (15 R272, R275). -/
def State.sideIter (s : State) (c : Nat) (k : Job) (err : JobErr) : State :=
  let n := k.chunk
  let a := k.src + BitVec.ofNat 64 k.done
  let d := k.dst + BitVec.ofNat 64 k.done
  let next (y : Job) : Job := { y with done := y.done + n, st := if y.done + n ≥ y.len then 4 else y.st }
  if n = 0 then s.updJob c k.id fun y => { y with st := 4 }
  else
    s.jobAcc c k .jobRead a n fun ps s =>
      s.jobAcc c k .jobWrite d n fun qs s =>
        let err := s.jobErr ps err
        if k.kind = 3 ∧ (qs.any fun q => s.logStop k.ctx q.at_) then s
        else if err = .uncorrectable then (s.damage ps).updJob c k.id fun y => { y with st := 4, code := 6 }
        else
          let u := ((s.seeLate c).touch ps).mendPs ps
          match u.runBytes c ps n err with
          | none => s
          | some bs =>
            let s := u.softcor c k a err
            let dev : Nat := if anyPeer qs then bits d 63 56 - 1 else s.own
            let sent (s : State) (b : PBody) : State :=
              (s.sendJob c k dev b).updJob c k.id next
            if k.kind = 2 then sent s (.data d bs (s.own * 4096 + c) k.id)
            else if k.kind = 3 then (s.writeRun c k bs qs).updJob c k.id next
            else if anyPeer qs then sent s (.atomic .add d n (bytesWord bs) 0#64 (jobTok c k.id))
            else
              match qs with
              | p :: _ =>
                if s.placeAway c k.ctx p.at_ then s
                else if s.expired (s.placeEp p.at_ p.sysa true) (s.dtag k.dom) then
                  (s.dropAt (s.placeEp p.at_ p.sysa true)).updJob c k.id fun y => { next y with code := if y.code = 0 then 5 else y.code }
                else ((s.doAtomic p .add (bytesWord bs) 0#64).2.holdAt p).updJob c k.id next
              | [] => s

/-- The requests for what a job reads at a peer go out once it waits (20 R321). -/
def State.askJob (s : State) (c : Nat) (k : Job) (err : JobErr) : State :=
  match err with
  | .none =>
    let n := if k.kind ≤ 1 then k.run else k.chunk
    let a := if k.kind ≤ 1 then k.src + BitVec.ofInt 64 (nestSum (ints k.ss) k.iter) else k.src + BitVec.ofNat 64 k.done
    match classify s.own c a with
    | .peer v => if n = 0 then s else s.send (bits v 63 56 - 1) (.load v n (jobTok c k.id)) (s.dtag k.dom) k.ctx c k.stag
    | _ => s
  | _ => s

/-- JOB_ITERATION (R214, R218, R219, R222, R223): a running job does its next run, packet or element, or stops at this boundary
because its domain has expired; for a job whose packets at a peer are under way, `.peer` says that one has been performed or dropped
there. -/
def execJobIteration (c j : Nat) (err : JobErr) (s : State) : Out1 :=
  match (s.core c).job j with
  | none => .next s
  | some k =>
    if k.flight > 0 ∧ (k.wr ∨ k.st = 4) then
      match err with
      | .peer _ =>
        let open_ := (s.net.filter fun p => k.pkts.contains p.id || p.body == .dropNotice c j).length
        if open_ < k.flight ∧ ¬ k.pkts = [] then
          .next (s.updJob c j fun y => { y with flight := y.flight - 1 })
        else .next s
      | _ => .next s
    else if k.wr then .next (s.updJob c j fun y => { y.step y.run with wr := false, pkts := [] })
    else if k.st = 2 ∧ k.kind ≠ 5 then
      if s.expired c (s.dtag k.dom) then .next (s.updJob c j fun y => { y with st := 4, code := 5 })
      else
        let t := if k.kind ≤ 1 then s.copyIter c k err else s.sideIter c k err
        .next (t.askJob c k err)
    else .next s

/-- A drop notice of a job (15 R272, R275): a write or an add was not performed; a request for what it reads at a peer brings nothing, and
the packet of a `get` is not written, while a copy stops there (12 R218). -/
def Job.lost (y : Job) : Job :=
  let code := if y.code = 0 then 5 else y.code
  if y.flight > 0 then { y with flight := y.flight - 1, code := code }
  else if y.st ≠ 2 then { y with code := code }
  else if y.kind = 3 then { y with code := code, done := y.done + y.chunk, st := if y.done + y.chunk ≥ y.len then 4 else 2 }
  else { y with code := code, st := 4 }

/-- DROP_NOTICE_ARRIVAL (15 R272): a packet of a job was dropped. -/
def execDropNoticeArrival (c j : Nat) (s : State) : Out1 :=
  match s.net.find? (fun p => p.dev == s.own && p.body == .dropNotice c j) with
  | some p =>
    .next ((s.dropPkt p.id).updIn c p.ctx fun x => x.updJob j Job.lost)
  | none => .next s

/-- SIGNAL_SEND (15 R273): once every data packet has been performed or dropped. -/
def execSignalSend (c j : Nat) (s : State) : Out1 :=
  match (s.core c).job j with
  | some k =>
    .next (if k.st = 4 ∧ k.flight = 0 ∧ k.sig ≠ 0#64 ∧ ! k.sigSent then
        (s.sendSig c k.ctx k.sig (k.sigA || k.code != 0) j).updJob c j fun y => { y with sigSent := true }
      else s)
  | none => .next s

/-- JOB_COMPLETE (R217, R218, R225, 15 R272): every write is performed; the arrival is made, and the slot frees. -/
def execJobComplete (c j : Nat) (s : State) : Out1 :=
  match (s.core c).job j with
  | some k =>
    if k.st = 4 ∧ k.flight = 0 ∧ (k.sig = 0#64 ∨ k.sigSent) then
      .next (s.upd c fun x =>
        let x := { x with jobs := x.jobs.filter fun y => y.id != j }
        if k.cmpl = 0 then x
        else ((x.arrive k.cmpl false false (some (engSt k.code))).evalArmed k.cmpl s.cyc).evalArmed (k.cmpl + 8) s.cyc)
    else .next s
  | none => .next s

/-! `waitp`, `wm` and waits for a cycle (R224, R225, 18 R294). -/

/-- The promise that is missed: that of the oldest unfinished job promised by the time (R224). -/
def Core.missed (c : Core) (t : Word) : Option Nat :=
  (c.openJobs.find? fun j => decide (j.kind ≤ 1) && decide (j.promise ≤ t.toNat)).map (·.promise)

/-- `waitp ra` (R224). -/
def execWaitp (a : Reg) (s : State) : Out1 :=
  let t := s.me.rs a
  .next (
    if t.toNat ≤ s.cyc % 2 ^ 64 then
      match s.me.missed t with
      | some p => s.sTrap 0x11#8 (BitVec.ofNat 64 p)
      | none => s.sDone 1 1 id
    else s.sHold (.cycle t true) 1 1)

/-- CYCLE_WAIT_END (R224, 18 R294). -/
def execCycleWaitEnd (c : Nat) (s : State) : Out1 :=
  let x := s.core c
  if x.dbg.halted then .next s
  else match x.stat with
  | .wait (.cycle t p) n k =>
    if t.toNat ≤ s.cyc % 2 ^ 64 then
      match (if p then x.missed t else none) with
      | some q => .next (({ s with cur := c }.updMe fun y => { y with stat := .run }).sTrap 0x11#8 (BitVec.ofNat 64 q))
      | none => .next (s.wake c n k id)
    else .next s
  | _ => .next s

/-- `wm rd, ra` (R225). -/
def execWm (a d : Reg) (s : State) : Out1 :=
  let ch := bits (s.me.rs a) 1 0
  let w : Word := match s.me.jobs.find? fun j => j.wmk && j.ch == ch && (j.st == 2 || j.st == 3 || j.st == 4) with
    | some j => j.dst + BitVec.ofNat 64 j.done
    | none => 0xFFFFFFFFFFFFFFFF#64
  .next (s.sDone 1 2 fun c => c.ws d w)

end Sys2Proof.Machine
end

