-- ==== Sys2Proof/Machine/Onesided.lean ====
section
/-! DEFINITION. Atomics, one-sided operations, signals and armed puts (15_sync_and_collectives.md R263 to R277). -/

namespace Sys2Proof.Machine

/-! Atomics (R266, R267). -/

/-- The operation under its type: the unsigned forms of `amin` and `amax`. -/
def atTyped (op : AtOp) (t : ATy) : AtOp :=
  match op, t with
  | .min, .u64 => .minu
  | .min, .u32 => .minu
  | .max, .u64 => .maxu
  | .max, .u32 => .maxu
  | o, _ => o

def atSize : ATy → Nat
  | .i64 | .u64 => 8
  | .i32 | .u32 => 4

def atTy : STy → ATy
  | .i64 => .i64
  | .i32 => .i32

/-- An atomic (R267): checked as a read and a write; posted when RD is s0, else the S stream waits for the old value. -/
def atomicOp (op : AtOp) (t : ATy) (m : Dm) (b a d : Reg) (s : State) : Out1 :=
  let ea := s.me.rs a
  let n := atSize t
  .next (
    if ea.toNat % n ≠ 0 then s.sTrap 0x02#8 ea
    else
      s.sAcc .atomic ea n fun ps s =>
        let w := s.who s.cur false
        let wait := d != 0#5
        let l := ps.map fun p =>
          (⟨s.nextId, false, p, .atomic (atTyped op t) (s.me.rs b) (s.me.rs d) wait, s.dm m, false, w.task, w.ctx, w.act, s.me.afterOf false, none, 0#5⟩ : PAcc)
        let aid := s.nextId
        let s := (s.updMe fun x => { x with acc := x.acc ++ l }).fresh
        if wait then s.sWait (.atomic aid d none t) 1 1 ea else s.sDone 1 1 id)

/-- `aadd rd, ra, rb` (R266). -/
def execAadd (m : Dm) (t : STy) (b a d : Reg) (s : State) : Out1 := atomicOp .add (atTy t) m b a d s
/-- `amin rd, ra, rb` (R266). -/
def execAmin (m : Dm) (t : ATy) (b a d : Reg) (s : State) : Out1 := atomicOp .min t m b a d s
/-- `amax rd, ra, rb` (R266). -/
def execAmax (m : Dm) (t : ATy) (b a d : Reg) (s : State) : Out1 := atomicOp .max t m b a d s
/-- `aand rd, ra, rb` (R266). -/
def execAand (m : Dm) (t : STy) (b a d : Reg) (s : State) : Out1 := atomicOp .and (atTy t) m b a d s
/-- `aor rd, ra, rb` (R266). -/
def execAor (m : Dm) (t : STy) (b a d : Reg) (s : State) : Out1 := atomicOp .or (atTy t) m b a d s
/-- `axchg rd, ra, rb` (R266). -/
def execAxchg (m : Dm) (t : STy) (b a d : Reg) (s : State) : Out1 := atomicOp .xchg (atTy t) m b a d s
/-- `acas rd, ra, rb` (R266, R267): RD at issue is the comparand. -/
def execAcas (m : Dm) (t : STy) (b a d : Reg) (s : State) : Out1 := atomicOp .cas (atTy t) m b a d s

/-! Descriptors (R270, R271). -/

/-- What an operation of MAJ 0x11 submits. -/
inductive Side where | put | putsg | get | padd | arm
deriving DecidableEq, Repr

/-- CARD (R270, R271). -/
def Desc.cardOk (k : Desc) (o : Side) : Bool :=
  bits k.w2 47 43 == 0 && k.rest && cmplOk (BitVec.ofNat 64 k.cmpl) &&
  (match o with
   | .padd => decide (k.ety ≤ 2) && (k.ety != 2 || k.len == 0)
   | _ => k.ety == 0) &&
  (o == .putsg || o == .arm || k.sig == 0#64) &&
  (if o = .arm then ! k.thr.getLsbD 63 else k.trig == 0#64 && k.thr == 0#64)

/-- BASE (R271): the element size of `padd` divides SRC and DST; LEN is a multiple of 8 in every form (R270). -/
def Desc.baseOk (k : Desc) (o : Side) : Bool :=
  if o = .padd ∧ k.ety = 2 then true
  else
    let g := if o = .padd ∧ k.ety = 1 then 4 else 8
    k.src.toNat % g == 0 && k.dst.toNat % g == 0 && k.len % 8 == 0

/-- An extent of this device lies in one of its address classes (R194, R271). -/
def ownClass (lo hi : Nat) : Bool :=
  decide (hi ≤ 0x100000) || (decide (0x100000 ≤ lo) && decide (hi ≤ 0xFE000000000000)) ||
    (decide (0xFE000000000000 ≤ lo) && decide (hi ≤ 0xFE000100000000))

/-- The extent of a one-sided operation lies where the instruction allows: `peer` says whether at a peer too (R272). -/
def sideExt (own : Nat) (a : Word) (n : Nat) (peer : Bool) : Bool :=
  match extent own a 0 0 n with
  | .own lo hi => ownClass lo hi
  | .peer => peer && decide (0x100000 ≤ bits a 55 0) && decide (bits a 55 0 + n ≤ 0xFE000100000000)
  | .none => false

/-- The target of a tile add is well formed (R276). -/
def tileDst (d : Word) : Bool := decide (bits d 63 56 ≤ 192) && bits d 55 28 == 0 && bits d 15 4 == 0

/-- EXTENT (R272, R276). -/
def Desc.extOk (k : Desc) (own : Nat) (o : Side) : Bool :=
  match o with
  | .get => sideExt own k.src k.len true && sideExt own k.dst k.len false
  | .padd => if k.ety = 2 then tileDst k.dst else sideExt own k.src k.len false && sideExt own k.dst k.len true
  | _ => sideExt own k.src k.len false && sideExt own k.dst k.len true

/-- SIGNAL (R271). -/
def Desc.sigOk (k : Desc) (own c : Nat) (o : Side) : Bool :=
  (match o with
   | .putsg => k.sig.toNat % 8 == 0 && (sigTarget own c k.sig).isSome && k.sig != 0#64
   | .arm => k.sig == 0#64 || (k.sig.toNat % 8 == 0 && (sigTarget own c k.sig).isSome)
   | _ => true) &&
  (o != .arm ||
    match classify own c k.trig with
    | .loc off => off % 8 == 0 && decide (0x800 ≤ off) && decide (off ≤ 0x7FFF8) && decide (bits k.trig 55 0 < 0x100000)
    | _ => false)

/-- The first check of R271 that fails, ARMFULL apart. -/
def Desc.code (k : Desc) (own c : Nat) (o : Side) : Nat :=
  if ! k.cardOk o then 1
  else if ! k.baseOk o then 3
  else if ! k.extOk own o then 4
  else if ! k.sigOk own c o then 6
  else 0

/-- The local extents, and a local aperture signal word, that the task's ranges do not cover (R271), or a signal word that no
store of the activation may reach (R178). -/
def State.sideBad (s : State) (w : Who) (k : Desc) (o : Side) : Option (Acc × Word) :=
  let one (a : Word) (rd : Bool) : Option (Acc × Word) :=
    match extent s.own a 0 0 k.len with
    | .own lo hi => if s.taskCovers w rd (! rd) lo hi then none else some (if rd then .jobRead else .jobWrite, a)
    | _ => none
  let sig : Option (Acc × Word) :=
    if k.sig = 0#64 then none
    else
      match classify s.own s.cur k.sig with
      | .loc off =>
        if off < 0x80 ∨ (viaAperture k.sig ∧ ! s.taskCovers w false true (bits k.sig 55 0) (bits k.sig 55 0 + 8)) then some (.store, k.sig)
        else none
      | .ap t off =>
        if off < 0x80 ∨ ! s.apReach w t ∨ ! s.taskCovers w false true (bits k.sig 55 0) (bits k.sig 55 0 + 8) then some (.store, k.sig)
        else none
      | _ => none
  if o = .padd ∧ k.ety = 2 then none else ((one k.src true).or (one k.dst false)).or sig

/-- Work whose domain is not live at issue is annulled at once (R269): its object reports CODE 5, and its signal is sent with
a = 1. -/
def State.deadSide (s : State) (k : Desc) (o : Side) (ctx : Ctx) : State :=
  let s := if (o = .putsg ∨ o = .arm) ∧ k.sig ≠ 0#64 then s.sendSig s.cur ctx k.sig true 0 else s
  if k.cmpl = 0 ∨ (o = .arm) then s
  else s.updMe fun x => ((x.arrive k.cmpl false false (some (engSt 5))).evalArmed k.cmpl s.cyc).evalArmed (k.cmpl + 8) s.cyc

/-- A descriptor's or card's offset (R270, R278). -/
def offOk (a : Word) (n : Nat) : Bool := a.toNat % n == 0 && decide (0x800 ≤ a.toNat) && decide (a.toNat + n ≤ 0x80000)

/-- The domain a one-sided operation names: its tag, and whether it is live (R269). -/
def State.sideDom (s : State) (x : DmR) (d : Dom) : DTag × Bool :=
  match x with
  | .inh => (s.me.c.dom, true)
  | .imm => (DTag.imm, true)
  | .reg _ => (s.tagOf d, d == 0#16 || (s.dom d).st == .live)

/-- Submits an operation that has passed its checks (R271, R276). -/
def State.submitSide (s : State) (k : Desc) (o : Side) (dom : DTag) (w : Who) : State :=
  let kind := match o with | .get => 3 | .padd => if k.ety = 2 then 5 else 4 | _ => 2
  let id := s.nextId
  let j := sideJob id s.own k kind dom w (s.me.act.map (·.id)) (s.me.edgesOf (if kind = 5 then [] else k.fps s.own) 0#16)
  let s := s.fresh
  let p : Part := ⟨0#32, k.src, dom, w.task, s.cyc + 1, s.cur, id, w.ctx, none⟩
  s.updMe fun x =>
    { x with jobs := x.jobs ++ [j], sl := if kind = 5 then { x.sl with inbox := x.sl.inbox ++ [p] } else x.sl }

/-- `put`, `putsg`, `get` and `padd` (R269 to R276), after the held firings (R277). -/
def sideOp (o : Side) (x : DmR) (a d : Reg) (s : State) : Out1 :=
  let s := s.fireHeld s.cur
  let r := s.dmr x
  let off := s.me.rs a
  .next (
    if ! r.2 then s.sTrap 0x08#8 (r.1.setWidth 64)
    else if ! offOk off 64 then s.sTrap 0x02#8 off
    else if ! s.me.slotFree then s.sStall off
    else if s.me.spBusy s.cur then s.sRetry
    else
      let k := readDesc (s.me.spRead off.toNat 64)
      let code := k.code s.own s.cur o
      if code ≠ 0 then s.sDone 1 4 fun c => c.ws d (BitVec.ofNat 64 (2 ^ 63 + code))
      else
        let w := s.who s.cur false
        match s.sideBad w k o with
        | some (acc, v) => s.sViol acc v
        | none =>
          let t := s.sideDom x r.1
          if ! t.2 then (s.deadSide k o w.ctx).sDone 1 4 fun c => c.ws d 0#64
          else if o = .padd ∧ k.ety = 2 ∧ (! s.me.wbuf.isEmpty ∨ s.me.sl.inbox.length ≥ 8) then s.sStall off
          else (s.submitSide k o t.1 w).sDone 1 4 fun c => c.ws d 0#64)

/-- `put rd, ra` (R272). -/
def execPut (x : DmR) (a d : Reg) (s : State) : Out1 := sideOp .put x a d s
/-- `putsg rd, ra` (R273). -/
def execPutsg (x : DmR) (a d : Reg) (s : State) : Out1 := sideOp .putsg x a d s
/-- `get rd, ra` (R272). -/
def execGet (x : DmR) (a d : Reg) (s : State) : Out1 := sideOp .get x a d s
/-- `padd rd, ra` (R275, R276). -/
def execPadd (x : DmR) (a d : Reg) (s : State) : Out1 := sideOp .padd x a d s

/-- `arm rd, ra` (R277): the entry is placed and evaluated. -/
def execArm (x : DmR) (a d : Reg) (s : State) : Out1 :=
  let s := s.fireHeld s.cur
  let r := s.dmr x
  let off := s.me.rs a
  .next (
    if ! r.2 then s.sTrap 0x08#8 (r.1.setWidth 64)
    else if ! offOk off 64 then s.sTrap 0x02#8 off
    else if s.me.spBusy s.cur then s.sRetry
    else
      let k := readDesc (s.me.spRead off.toNat 64)
      let code := k.code s.own s.cur .arm
      let t := s.sideDom x r.1
      let code := if code = 0 ∧ t.2 ∧ s.me.armed.length ≥ 32 then 7 else code
      if code ≠ 0 then s.sDone 1 4 fun c => c.ws d (BitVec.ofNat 64 (2 ^ 63 + code))
      else
        let w := s.who s.cur false
        match s.sideBad w k .arm with
        | some (acc, v) => s.sViol acc v
        | none =>
          if ! t.2 then (s.deadSide k .arm w.ctx).sDone 1 4 fun c =>
            (if k.cmpl = 0 then c
             else ((c.arrive k.cmpl false false (some (engSt 5))).evalArmed k.cmpl s.cyc).evalArmed (k.cmpl + 8) s.cyc).ws d 0#64
          else
            let trig := bits k.trig 55 0
            let e : Armed := ⟨trig, k.thr, k.src, k.dst, k.len, k.sig, k.cmpl, t.1, w.ctx, w.task, none, w.act⟩
            s.sDone 1 4 fun c => ({ c with armed := c.armed ++ [e] }.evalArmed trig s.cyc).ws d 0#64)

/-- HELD_FIRING_SUBMIT (R277): the put that fired first is submitted as soon as a slot is free, and its entry frees. -/
def execHeldFiringSubmit (c : Nat) (s : State) : Out1 := .next (s.fireOne c)

/-! Arrivals (R272, R273). -/

/-- The address names this device's places. -/
def State.homeAddr (s : State) (a : Word) : Bool := bits a 63 56 == 0 || bits a 63 56 == s.own + 1

/-- Who makes an access that a packet brings: its core on this device, or a peer (20 R321). -/
def pktWho (own : Nat) (k : Pkt) (src : Nat) : Who := ⟨if k.peer ∨ src / 4096 ≠ own then nCores else src % 4096, k.ctx, none, 0, k.dom, false⟩

/-- An answer for a data packet: to the job of a core of this device, or to the peer. -/
def State.dataDone (s : State) (k : Pkt) (src job : Nat) : State :=
  if k.peer then s.emit (.token src (BitVec.ofNat 128 job) 0#4)
  else s.updIn (src % 4096) k.ctx fun x => x.updJob job fun y => { y with flight := y.flight - 1 }

/-- Grants the peer a lease for the page of an access, unless it has one (20 R322). -/
def State.grant (s : State) (k : Pkt) (ps : List Piece) : State :=
  let dev := k.srcCore / 4096
  ps.foldl (fun (s : State) p =>
    match p.at_ with
    | .dram _ =>
      match tGet s.hub.ctxs k.ctx.toNat with
      | none => s
      | some x =>
        match walk s.mem x.record.root p.va with
        | .bad _ => s
        | .leaf _ lg =>
          let w : Word := BitVec.ofNat 64 (p.va.toNat / 2 ^ lg * 2 ^ lg + lg)
          if s.hub.leases.any fun e => e.1 == dev && e.2.2 == (k.ctx, w) then s
          else
            let n := s.nextId
            ((s.updHub fun h => { h with leases := h.leases ++ [(dev, n, k.ctx, w)] }).emit (.lease dev n w)).fresh
    | _ => s) s

/-- A demand fault of a data packet of this device parks its job (11 R207), once, and the packet waits for RETRY; a job that has been denied
has no packet. -/
def State.dataFault (s : State) (k : Pkt) (c job : Nat) (v : Word) (fk : BitVec 4) (lease : Bool) : State :=
  if s.away c k.ctx then s.holdPkt k.id
  else
    match (s.core c).job job with
    | none => s.dropPkt k.id
    | some j =>
      if j.st = 3 then s.holdPkt k.id
      else if j.st = 6 then s.dropPkt k.id
      else let f := s.leaseFault j.task v fk lease; (s.holdPkt k.id).demandJob c j .jobWrite v f.1 f.2

/-- PUT_DATA_ARRIVAL (R272, R336): a data packet is performed at its place, or dropped with a notice; a peer holds a lease for the page from
then on (20 R322). A demand fault that it meets parks its source (11 R207, 20 R321). -/
def execPutDataArrival (p : Nat) (s : State) : Out1 :=
  match s.pkt p with
  | none => .next s
  | some k =>
    match k.body with
    | .data a bs src job =>
      if k.dev ≠ s.own then .next s
      else
        let w := pktWho s.own k src
        match s.chkRun w .st .jobWrite none (runParts bs.length (a &&& 0xFFFFFFFFFFFFFF#64) bs.length) with
        | .ok ps s =>
          match (ps.map fun q => s.placeEp q.at_ q.sysa false).find? fun ep => s.expired ep k.dom with
          | some ep => .next (((s.dropPkt p).dropNote k).dropAt ep)
          | none =>
            if ps.any fun q => s.logStop k.ctx q.at_ then .next (s.holdPkt p) else
            let s := s.dropPkt p
            let s := if k.peer then s.grant k ps else s
            let r := ps.foldl (fun (r : State × List Byte) q =>
              (r.1.storeTo q.at_ q.va (r.2.take q.n) k.dom k.ctx src, r.2.drop q.n)) (s, bs)
            .next (r.1.dataDone k src job)
        | .dem v fk l => .next (if k.peer then (s.dropPkt p).emit (.token src 0#128 fk) else s.dataFault k (src % 4096) job v fk l)
        | .viol v => .next ((s.dropPkt p).send (src / 4096) (.refusal (src % 4096) v k.dom.id none) DTag.imm k.ctx nCores 0#16)
        | .align _ => .next s
    | _ => .next s

/-- The signal's step at the owning scratchpad (R273). -/
def Core.signal (c : Core) (off : Nat) (ann : Bool) (tick : Nat) : Core :=
  let w := c.spWord off
  let v : Word := BitVec.ofBool (w.getLsbD 63 || ann) ++ ((w.setWidth 63) + 1#63)
  ((c.spWrite off (wordBytes v)).setTag off true).evalArmed off tick

/-- SIGNAL_ARRIVAL (R273): at the owning scratchpad; for a context that is not resident it goes to the arrival log, unless that is full. A
signal for a context that the core does not run is a violation at its source and writes nothing (20 R321, 22 R337). -/
def execSignalArrival (p : Nat) (s : State) : Out1 :=
  match s.pkt p with
  | none => .next s
  | some k =>
    match k.body with
    | .signal c off ann src _ =>
      if k.dev ≠ s.own then .next s
      else if (k.peer ∨ src % 4096 ≠ c) ∧ ! s.runsCtx c k.ctx then
        let a : Word := BitVec.ofNat 64 ((s.own + 1) * 2 ^ 56 + 0xFE000000000000 + c * 0x100000 + off)
        .next ((s.dropPkt p).send (if k.peer then src / 4096 else s.own) (.refusal (src % 4096) a k.dom.id none) DTag.imm k.ctx nCores 0#16)
      else if s.away c k.ctx then .next (if s.logFull c k.ctx then s.holdPkt p else (s.dropPkt p).toLog c k)
      else .next ((s.dropPkt p).upd c fun x => x.signal off ann s.cyc)
    | _ => .next s

end Sys2Proof.Machine
end

