-- ==== Sys2Proof/Machine/Ring.lean ====
section
/-! DEFINITION. Ring sequencers (15_sync_and_collectives.md R278 to R282). -/

namespace Sys2Proof.Machine

/-! Cards (R279). -/

structure RCard where
  w0 : Word
  src : Word
  dst : Word
  len : Word
  cmpl : Word
  lrec : Word
  rest : Bool
deriving DecidableEq, Repr

def readRCard (bs : List Byte) : RCard :=
  ⟨recWord bs 0, recWord bs 8, recWord bs 16, recWord bs 24, recWord bs 32, recWord bs 40, (bs.drop 48).all (· == 0#8)⟩

def RCard.nr (k : RCard) : Nat := bits k.w0 63 56
def RCard.rank (k : RCard) : Nat := bits k.w0 55 48
def RCard.port (k : RCard) : Nat := bits k.w0 31 27
def RCard.dt (k : RCard) : Nat := bits k.w0 26 24
def RCard.kind (k : RCard) : Nat := bits k.w0 23 20

/-- CARD (R279). -/
def RCard.cardOk (k : RCard) : Bool :=
  k.rest && bits k.w0 19 16 == 0 && decide (2 ≤ k.nr) && decide (k.nr ≤ 192) && decide (k.rank < k.nr) &&
    decide (bits k.w0 47 40 ≤ 191) && decide (bits k.w0 39 32 ≤ 191) && decide (k.port < nPorts) && decide (k.dt ≤ 4) &&
    decide (k.kind ≤ 2) && (k.dt != 4 || k.kind == 0) && decide (1 ≤ bits k.w0 15 0) && k.cmpl != 0#64 && cmplOk k.cmpl &&
    k.lrec.toNat % 32 == 0 && decide (0x800 ≤ k.lrec.toNat) && decide (k.lrec.toNat ≤ 0x7FFE0) &&
    (if k.dt = 4 then k.len == 0#64 else bits k.len 63 40 == 0 && k.len.toNat % (64 * k.nr) == 0)

/-- The bytes of SRC and of DST (R280). -/
def RCard.bytes (k : RCard) : Nat × Nat :=
  let l := k.len.toNat
  match k.kind with
  | 0 => (l, l)
  | 1 => (l, l / k.nr)
  | _ => (l / k.nr, l)

/-- The first check that fails, as R271 checks a descriptor. -/
def RCard.code (k : RCard) (own : Nat) : Nat :=
  if ! k.cardOk then 1
  else if k.dt = 4 then 0
  else if k.src.toNat % 8 ≠ 0 ∨ k.dst.toNat % 8 ≠ 0 then 3
  else if ! (sideExt own k.src k.bytes.1 false && sideExt own k.dst k.bytes.2 false) then 4
  else 0

/-- The extent that the task's ranges do not cover (R278). -/
def State.ringBad (s : State) (w : Who) (k : RCard) : Option (Acc × Word) :=
  let one (a : Word) (n : Nat) (rd : Bool) : Option (Acc × Word) :=
    match extent s.own a 0 0 n with
    | .own lo hi => if s.taskCovers w rd (! rd) lo hi then none else some (if rd then .jobRead else .jobWrite, a)
    | _ => none
  if k.dt = 4 then none else (one k.src k.bytes.1 true).or (one k.dst k.bytes.2 false)

/-- `ringj rd, ra` (R278, R279). -/
def execRingj (x : DmR) (a d : Reg) (s : State) : Out1 :=
  let r := s.dmr x
  let off := s.me.rs a
  .next (
    if ! r.2 then s.sTrap 0x08#8 (r.1.setWidth 64)
    else if ! offOk off 128 then s.sTrap 0x02#8 off
    else if s.me.spBusy s.cur then s.sRetry
    else
      let k := readRCard (s.me.spRead off.toNat 128)
      if k.port < nPorts ∧ (s.port k.port).ring.length ≥ 4 then s.sStall off
      else
        let code := k.code s.own
        if code ≠ 0 then s.sDone 1 4 fun c => c.ws d (BitVec.ofNat 64 (2 ^ 63 + code))
        else
          let w := s.who s.cur false
          match s.ringBad w k with
          | some (acc, v) => s.sViol acc v
          | none =>
            let t := s.sideDom x r.1
            let j : RingJob :=
              { core := s.cur, nr := k.nr, rank := k.rank, nextd := bits k.w0 47 40, prevd := bits k.w0 39 32, dt := k.dt, kind := k.kind
                tmo := bits k.w0 15 0, src := k.src, dst := k.dst, len := k.len.toNat, cmpl := k.cmpl.toNat, lrec := k.lrec.toNat
                dom := t.1, ctx := w.ctx, task := w.task, started := false, step := 0, lastAt := s.cyc, lost := 0#192, first := 0
                code := none, lossSent := false, id := s.nextId, park := none, act := s.me.act.map (·.id), flits := 0, due := 0
                refused := false }
            if ! t.2 then
              s.sDone 1 4 fun c =>
                (((c.arrive j.cmpl false false (some (engSt 5))).evalArmed j.cmpl s.cyc).evalArmed (j.cmpl + 8) s.cyc).ws d 0#64
            else (s.fresh.updPort k.port fun p => { p with ring := p.ring ++ [j] }).sDone 1 4 fun c => c.ws d 0#64)

/-! The steps of a job (R280, R281). -/

def RingJob.chunk (j : RingJob) : Nat := j.len / j.nr

/-- The chunk that a rank receives in a step: in the adding steps, and in the gathering steps after them. -/
def RingJob.cid (j : RingJob) : Nat :=
  let adds := if j.kind = 2 then 0 else j.nr - 1
  if j.step < adds then (j.rank + 2 * j.nr - 2 - j.step) % j.nr
  else (j.rank + 2 * j.nr - 1 - (j.step - adds)) % j.nr

/-- The last step of a job. -/
def RingJob.last (j : RingJob) : Nat := if j.kind = 0 ∧ j.dt ≠ 4 then 2 * j.nr - 3 else j.nr - 2

/-- The step adds. -/
def RingJob.adding (j : RingJob) : Bool := j.kind != 2 && decide (j.step < j.nr - 1)

/-- Two elements of `n` bytes, or two blocks, added (R280): received first, own second; a block that is not GOOD gives none. -/
def ringAdd (dt : Nat) (x y : List Byte) : Option (List Byte) :=
  match dt with
  | 0 => some (leBytes 4 (leNat x + leNat y))
  | 1 => some (leBytes 8 (leNat x + leNat y))
  | 2 => some (leBytes 4 (toF32 (fAdd (f32Val (BitVec.ofNat 32 (leNat x))) (f32Val (BitVec.ofNat 32 (leNat y))))).1.toNat)
  | _ =>
    let a := blkOf x
    let b := blkOf y
    let p := b.fmt.toNat - 0x40
    if b.eval (fun k => k.cls == 4) ≠ 0 ∨ a.eval (fun k => k.fmt == b.fmt) ≠ 0 then none
    else
      let pay := (List.range (partLen p)).foldr (fun n (v : BitVec 480) =>
        (v <<< 48) ||| ((cellAdd (a.cell n) (b.cell n)) &&& 0x3FFFFFFFFFFF#48).setWidth 480) 0#480
      some (blkBytes b.fmt 0#8 pay)

/-- The bytes of one element (R279). -/
def ringElem : Nat → Nat
  | 0 => 4
  | 1 => 8
  | 2 => 4
  | _ => 64

/-- Chunks added element by element. -/
def ringSum (dt : Nat) : Nat → List Byte → List Byte → Option (List Byte)
  | 0, _, _ => some []
  | f + 1, x, y =>
    let n := ringElem dt
    if x.isEmpty then some []
    else
      match ringAdd dt (x.take n) (y.take n), ringSum dt f (x.drop n) (y.drop n) with
      | some a, some b => some (a ++ b)
      | _, _ => none

/-- Every source block of a chunk is GOOD (R280). -/
def ringGood (dt : Nat) (x : List Byte) : Bool := dt != 3 || (ringSum 3 (x.length / 64) x x).isSome

/-- A violation by a ring job (18 R300): the job is discarded without an arrival (DESIGN CHOICE, log entry 99), the activation that
submitted it ends if it still runs, its task is failed, and the queue receives the report. -/
def State.violRing (s : State) (port : Nat) (j : RingJob) (acc : Acc) (v : Word) : State :=
  let e := { fEnt0 with kind := 0x30#8, acc := accCode acc, core := BitVec.ofNat 12 j.core, ctx := j.ctx, dom := j.dom.id
                        iter := engIter 3 (BitVec.ofNat 64 j.step), addr := v }
  let s := ((s.fault (clusterOf j.core) e).failTask j.task).updPort port fun p => { p with ring := p.ring.drop 1 }
  match j.act, (s.core j.core).act with
  | some i, some a =>
    if i = a.id ∧ (s.core j.core).stat ≠ .frozen then
      ((s.withdraw j.core fun p => p == .core j.core).upd j.core fun x => x.unpark j.core s.cyc).endAct j.core false false 2#64 .idle
    else s
  | _, _ => s

/-- The checks of a sequencer's access (11 R207): a demand fault has an entry, with ITERVEC, and parks the job. The spec names no loop levels
for a sequencer: ITERVEC shows the job's step as the lowest one (DESIGN CHOICE, log entry 107). -/
def State.ringAcc (s : State) (port : Nat) (j : RingJob) (acc : Acc) (a : Word) (n : Nat) (f : List Piece → State → State) : State :=
  let w : Who := ⟨j.core, j.ctx, j.task, 0, s.dtag j.dom, false⟩
  match s.chkRun w .st acc none (runParts n a n) with
  | .ok ps s => f ps s
  | .dem v fk l =>
    let it := engIter 3 (BitVec.ofNat 64 j.step)
    let q := s.leaseFault j.task v fk l
    let e := { fEnt0 with kind := 0x20#8, acc := accCode acc, fk := q.1, lease := q.2, core := BitVec.ofNat 12 j.core, ctx := j.ctx
                          dom := j.dom.id, iter := it, addr := v, party := .ring port }
    let t := (s.fault (clusterOf j.core) e).upd j.core fun x => { x with c := { x.c with iter := it } }
    t.setRing port { j with park := some s.nextId }
  | .align v => s.violRing port j acc v
  | .viol v => s.violRing port j acc v

/-- The bytes of own chunk c. -/
def RingJob.srcOf (j : RingJob) (c : Nat) : Word := j.src + BitVec.ofNat 64 (if j.kind = 2 then 0 else c * j.chunk)
def RingJob.dstOf (j : RingJob) (c : Nat) : Word := j.dst + BitVec.ofNat 64 (if j.kind = 1 then 0 else c * j.chunk)

/-- What the job reads: a scratchpad as its own context has it (18 R308). -/
def State.readPs (s : State) (j : RingJob) (ps : List Piece) : List Byte :=
  (ps.map fun p => match p.at_ with | .sp k off => (s.coreIn k j.ctx).spRead off p.n | x => s.readAt x p.n).flatten
def State.writePs (s : State) (j : RingJob) (ps : List Piece) (bs : List Byte) : State :=
  (ps.foldl (fun (r : State × List Byte) p =>
    (r.1.storeTo p.at_ p.va (r.2.take p.n) (s.dtag j.dom) j.ctx j.core, r.2.drop p.n)) (s, bs)).1

/-- The soft error that such a read meets, and the corrected words whole again (18 R302). -/
def State.ringErr (s : State) (j : RingJob) (ps : List Piece) : Option Bool :=
  let one (p : Piece) : Option Bool := match p.at_ with | .sp k off => struck (s.coreIn k j.ctx).ups off p.n | x => s.struckAt x p.n
  ps.foldl (fun (r : Option Bool) p => match one p, r with | some b, some d => some (b || d) | some b, none => some b | none, _ => r) none
def State.ringMend (s : State) (j : RingJob) (ps : List Piece) : State :=
  ps.foldl (fun (s : State) p =>
    match p.at_ with | .sp k off => s.updIn k j.ctx fun x => { x with ups := mended x.ups off p.n } | x => s.mendAt x p.n) s

/-- A chunk is read (R281): another core's scratchpad whose context is away is waited for (18 R310); an error that cannot be corrected stops
the job with CODE 6, and a corrected one is reported (12 R223, 18 R302). -/
def State.ringRead (s : State) (port : Nat) (j : RingJob) (a : Word) (f : List Byte → State → State) : State :=
  s.ringAcc port j .jobRead a j.chunk fun ps s =>
    if ps.any fun p => s.placeAway j.core j.ctx p.at_ then s
    else
      let go (s : State) : State := f (s.readPs j ps) (s.touch ps)
      match s.ringErr j ps with
      | none => go s
      | some true => s.setRing port { j with code := some 6 }
      | some false =>
        go ((s.fault (clusterOf j.core) { fEnt0 with kind := 0x21#8, acc := accCode .jobRead, core := BitVec.ofNat 12 j.core, ctx := j.ctx
                                                     dom := j.dom.id, iter := engIter 3 (BitVec.ofNat 64 j.step), addr := a }).ringMend j ps)

/-- A chunk is written; it waits for room in an arrival log (18 R310). -/
def State.ringWrite (s : State) (port : Nat) (j : RingJob) (a : Word) (bs : List Byte) (f : State → State) : State :=
  s.ringAcc port j .jobWrite a j.chunk fun qs s => if qs.any fun q => s.logStop j.ctx q.at_ then s else f (s.writePs j qs bs)

/-- A rank's own tile is read by a part of its slice, in the order of the slice's parts and under their waits (R276, R280, 13 R238,
R239). -/
def State.ringTile (s : State) (port : Nat) (j : RingJob) : State :=
  let p : Part := ⟨0#32, BitVec.ofNat 64 (j.src.toNat % 16 + 256 * port), j.dom, j.task, s.cyc + 1, j.core, 0, j.ctx, none⟩
  s.updSl j.core fun l => { l with inbox := l.inbox ++ [p] }

/-- RING_JOB_START (R278, R280): the job at the head of the queue sends its first chunk. -/
def execRingJobStart (port : Nat) (s : State) : Out1 :=
  match (s.port port).ring with
  | [] => .next s
  | j :: _ =>
    if j.started ∨ j.park.isSome ∨ j.code.isSome then .next s
    else
      let go := { j with started := true, lastAt := s.cyc }
      if s.expired hubEp (s.dtag j.dom) then .next (s.setRing port { go with code := some 5 })
      else if j.dt = 4 then
        .next (if (s.core j.core).res ≠ some j.ctx ∨ (s.sl j.core).inbox.length ≥ 8 then s else (s.ringTile port j).setRing port go)
      else
        let c := if j.kind = 2 then j.rank else (j.rank + j.nr - 1) % j.nr
        .next (s.ringRead port j (j.srcOf c) fun bs s =>
          let send (s : State) : State := s.ringSend port go bs.length (.ring port 0 bs (s.dtag j.dom))
          if ! ringGood j.dt bs then s.setRing port { go with code := some 6 }
          else if j.kind = 2 then s.ringWrite port j (j.dstOf c) bs send
          else send s)

/-- The job goes on to its next step, or is done; what it passes on leaves. -/
def State.ringNext (s : State) (port : Nat) (j : RingJob) (bs : List Byte) : State :=
  if j.step ≥ j.last then s.setRing port { j with code := some 0 }
  else s.ringSend port { j with step := j.step + 1, lastAt := s.cyc } bs.length (.ring port (j.step + 1) bs (s.dtag j.dom))

/-- A tile from PREVD (R276, R280): it reaches the rank's destination with its own slots, and goes on with those of the ranks ahead. -/
def State.ringPass (s : State) (port : Nat) (j : RingJob) (src : Nat) (x : Tab (BitVec 48)) (ns : List NewSlot) : State :=
  let d : AReg := j.dst.setWidth 4
  let n := ns.length / (j.nr - 1 - j.step)
  let s := s.toSlice j.core j.ctx (.tile d x (ns.take n) src (ringNo port) (some j.id))
  if j.step ≥ j.last then s.setRing port { j with code := some 0 }
  else s.ringSend port { j with step := j.step + 1, lastAt := s.cyc } 9216 (.ringTile port (j.step + 1) src x (ns.drop n))

/-- What the ring jobs of neighbouring ranks must agree in (R282). -/
def RingJob.key (j : RingJob) : RingKey := ⟨j.nr, j.kind, j.dt, j.len, j.tmo⟩

/-- What comes from PREVD acts in the context that the port's map gives (20 R320): without an entry it is refused and reported. With another
context than the job's it is not the job's, and is dropped (DESIGN CHOICE, log entry 107). A card that disagrees stops the job (R282). -/
def State.ringTake (s : State) (port : Nat) (j : RingJob) (ctx : Ctx) (card : RingKey) (f : State) : State :=
  match (s.port port).map.find? fun m => m.1 == BitVec.ofNat 8 j.prevd && m.2.1 == ctx with
  | none =>
    (s.emit (.sideband 20 (BitVec.ofNat 64 j.prevd))).send j.prevd (.refusal (ringNo port) 0#64 0#16 none) DTag.imm ctx nCores 0#16
  | some (_, _, k) => if k ≠ j.ctx then s else if card ≠ j.key then s.setRing port { j with code := some 1 } else f

/-- RING_CHUNK_STEP (R280, R281, R282): at a chunk boundary the job checks its domain, takes what PREVD sent, adds or passes it, and
writes what is final. What it has sent itself must have left first (20 R317). -/
def execRingChunkStep (port : Nat) (inp : RingIn) (s : State) : Out1 :=
  match (s.port port).ring with
  | [] => .next s
  | j :: _ =>
    if ! j.started ∨ j.code.isSome ∨ j.park.isSome ∨ j.flits ≠ 0 then .next s
    else if s.expired hubEp (s.dtag j.dom) then .next (s.setRing port { j with code := some 5 })
    else
      match inp with
      | .tiles ctx card src x ns => .next (s.ringTake port j ctx card (if j.dt ≠ 4 then s else s.ringPass port j src x ns))
      | .chunk ctx card bs =>
        .next (s.ringTake port j ctx card (
          if j.dt = 4 ∨ bs.length ≠ j.chunk then s
          else
            let c := j.cid
            if j.adding then
              s.ringRead port j (j.srcOf c) fun own s =>
                match ringSum j.dt (bs.length / ringElem j.dt) bs own with
                | none => s.setRing port { j with code := some 6 }
                | some v =>
                  if j.step + 2 = j.nr then s.ringWrite port j (j.dstOf c) v fun s => s.ringNext port j v else s.ringNext port j v
            else s.ringWrite port j (j.dstOf c) bs fun s => s.ringNext port j bs))

/-- The rank before this one. -/
def RingJob.prev (j : RingJob) : Nat := (j.rank + j.nr - 1) % j.nr

/-- A job stops with LOST (R282): its own mark leaves when it times out, and one that it receives is forwarded once, with its own. -/
def State.ringLost (s : State) (port : Nat) (j : RingJob) (mask : BitVec 192) (first : Nat) (fwd : Bool) : State :=
  let k := { j with
    lost := j.lost ||| mask, first := if j.lost = 0#192 then first else j.first
    code := if j.code = some 0 then some 8 else some (j.code.getD 8), lossSent := j.lossSent || fwd, park := none }
  let s := s.withdraw j.core fun p => p == .ring port
  if j.lossSent then s.setRing port k else s.ringSend port k 24 (.lossMark port k.lost)

/-- RING_LOSS_TIMEOUT (R282): nothing from PREVD for TMO microseconds. -/
def execRingLossTimeout (port : Nat) (s : State) : Out1 :=
  match (s.port port).ring with
  | j :: _ =>
    .next (if j.started ∧ j.code.isNone ∧ j.park.isNone ∧ j.lastAt + 1200 * j.tmo ≤ s.cyc then s.ringLost port j (1#192 <<< j.prev) j.prev false
      else s)
  | [] => .next s

/-- LOSS_MARK_ARRIVAL (R282): the sequencer stops, adds its own marks, and forwards the mark once. -/
def execLossMarkArrival (port : Nat) (mask : BitVec 192) (s : State) : Out1 :=
  match (s.port port).ring with
  | j :: _ =>
    let first := ((List.range 192).find? fun i => mask.getLsbD i).getD 0
    .next (if mask ≠ 0#192 ∧ (j.code.isNone ∨ j.code = some 8 ∨ (j.code = some 0 ∧ j.dt = 4 ∧ j.due ≠ 0)) then
        s.ringLost port { j with started := true } mask first true
      else s)
  | [] => .next s

/-- A tile of the job is still to be read or applied by its slice (R276, 10 R192). -/
def State.ringBusy (s : State) (port : Nat) (j : RingJob) : Bool :=
  let l := (s.coreIn j.core j.ctx).sl
  let part (p : Part) : Bool := p.isAdd && p.job == 0 && bits p.cst 12 8 == port
  l.inbox.any part || (match l.cur with | some (p, _) => part p | none => false) ||
    l.arrs.any fun a => match a with | .tile _ _ _ _ _ r => r == some j.id | _ => false

/-- The CODE of a job that ends (R280, R282): that of a tile which a target has refused is 4 (R276; DEDUCED, log entry 82). -/
def RingJob.endCode (j : RingJob) (k : Nat) : Nat := if k = 0 ∧ j.refused then 4 else k

/-- RING_JOB_END (R282): a stopped job writes its loss record and arrives on its completion object, and the next job comes to the head;
with tiles, once its slice has applied or refused those that have come, and every target its own (R276). -/
def execRingJobEnd (port : Nat) (s : State) : Out1 :=
  match (s.port port).ring with
  | j :: r =>
    match j.code with
    | none => .next s
    | some k =>
      if s.ringBusy port j ∨ (k = 0 ∧ (j.flits ≠ 0 ∨ j.due ≠ 0)) then .next s else
      let st : BitVec 48 := if k = 8 then
          BitVec.ofNat 48 (8 * 2 ^ 36 + j.step * 2 ^ 27 + j.first * 2 ^ 19)
        else engSt (j.endCode k)
      let s := s.updPort port fun p => { p with ring := r }
      .next (s.updIn j.core j.ctx fun x =>
        let x := if k = 8 then x.spWrite j.lrec (leBytes 24 j.lost.toNat ++ leBytes 4 j.step ++ leBytes 4 0) else x
        ((x.arrive j.cmpl false false (some st)).evalArmed j.cmpl s.cyc).evalArmed (j.cmpl + 8) s.cyc)
  | [] => .next s

end Sys2Proof.Machine
end

