-- ==== Sys2Proof/Machine/Preempt.lean ====
section
/-! DEFINITION. Pre-emption, checkpoint saves, full saves and resumption (18_faults_and_preemption.md R303 to R310), and the
checkpoint of the device (24 R347). -/

namespace Sys2Proof.Machine

/-! The image of a save area (R309). -/

/-- The cells outside a range of memory. -/
def Memory.cut (m : List Host.Cell) (base len : Nat) : List Host.Cell :=
  m.filter fun c => decide (c.1 < base) || decide (base + len ≤ c.1)

/-- The cells of a range of memory replaced by these, which are relative to its start. -/
def Memory.splice (m : List Host.Cell) (base len : Nat) (l : List Host.Cell) : List Host.Cell :=
  l.foldl (fun m c => Memory.set m (base + c.1) c.2) (Memory.cut m base len)

/-- The cells of bytes from an offset on that are not 0. -/
def cellsOf : Nat → List Byte → List Host.Cell
  | _, [] => []
  | a, b :: r => if b = 0#8 then cellsOf (a + 1) r else (a, b) :: cellsOf (a + 1) r

/-- CYCS: the last cycle that the core has executed (R309). A save is taken before the core executes the cycle it falls in. -/
def State.cycs (s : State) : Nat := s.cyc - 1

/-- WIV (R310). -/
def Core.wiv (x : Core) (cycs : Nat) : Nat := x.wReady - 1 - cycs

/-- The header (R309), with an empty arrival log. -/
def saveHeader (x : Core) (kind ckix cycs : Nat) : List Byte :=
  let qcnt := ([7, 6, 5, 4, 3, 2, 1, 0].foldl (fun n i => n * 8 + (x.r.q.toList.getD i []).length) 0)
  wordBytes x.pc ++ leBytes 4 kind ++ leBytes 4 ckix ++ wordBytes x.corestat ++ leBytes 8 cycs ++ leBytes 4 x.wpend.length ++
    leBytes 1 x.wbuf.length ++ leBytes 1 (x.wiv cycs) ++ leBytes 2 0 ++ leBytes 4 qcnt ++ leBytes 2 x.age ++
    leBytes 1 x.regsB.length ++ leBytes 1 x.sl.inbox.length ++ leBytes 8 (0xC2000 + Config.logBytes 0) ++ leBytes 8 0

/-- The bytes of a vector register. -/
def lanesBytes (v : Lanes) : List Byte := v.toList.flatMap fun l => leBytes 4 l.toNat

/-- A pending write (R309): 256 bytes. -/
def wpendBytes (cycs : Nat) (p : WPend) : List Byte :=
  let (k, n, m, v) : Nat × Nat × Nat × List Byte :=
    match p.tgt with
    | .v r m x => (1, r.toNat, m.toNat, lanesBytes x)
    | .k r m x => (2, r.toNat, m.toNat, leBytes 192 x.toNat)
    | .q n x _ => (3, 4 + n.toNat, 0, leBytes 192 x.toNat)
    | .none => (0, 0, 0, leBytes 192 0)
  [BitVec.ofNat 8 k, BitVec.ofNat 8 n, BitVec.ofNat 8 (p.land - cycs), p.fl.setWidth 8] ++ leBytes 6 m ++ leBytes 6 0 ++ v ++ leBytes 48 0

/-- A list of bytes made up to a length with zeros. -/
def padTo (n : Nat) (l : List Byte) : List Byte := l ++ List.replicate (n - l.length) 0#8

/-- Offsets 0 to 0x3B7F of the image. -/
def saveHead (x : Core) (kind ckix cycs : Nat) : List Byte :=
  saveHeader x kind ckix cycs ++ x.r.s.toList.flatMap wordBytes ++ x.r.v.toList.flatMap lanesBytes ++
    x.r.k.toList.flatMap (fun k => leBytes 8 k.toNat) ++ x.r.q.toList.flatMap (fun q => padTo 32 (q.flatMap wordBytes)) ++
    padTo 256 (x.wbuf.flatMap fun e => leBytes 8 e.word.toNat ++ wordBytes e.cst) ++
    padTo 8192 (x.wpend.flatMap (wpendBytes cycs))

/-- The tags, a byte for eight words. -/
def tagBytes (x : Core) : List Byte :=
  (List.range 8192).map fun i =>
    [7, 6, 5, 4, 3, 2, 1, 0].foldl (fun (b : Byte) j => (b <<< 1) ||| (if x.empties.contains (8 * i + j) then 0#8 else 1#8)) 0#8

/-! The rest of the image. Of the stream state, registrations, slice parts and job cards, and of where a tile's slots stand, the spec gives
no layout: those here are the model's (DESIGN CHOICE, log entry 27). -/

/-- The stream state of v24 to v31, 64 bytes each: BASE, counts, the next iteration with bit 63 for a nest that is done, the strips left. -/
def streamBytes (x : Core) : List Byte :=
  (List.range 8).flatMap fun i =>
    padTo 64 (match tGet x.str (24 + i) with
      | some t => wordBytes t.base ++ wordBytes t.cnt ++ wordBytes (t.next.getD (1#64 <<< 63)) ++ leBytes 8 t.buf.length ++
          (t.ss.take 4).flatMap wordBytes
      | none => [])

/-- The barrier registrations: device or core, and offset. -/
def regsBytes (x : Core) : List Byte := padTo 64 (x.regsB.flatMap fun r => leBytes 8 r.1 ++ leBytes 8 r.2)

/-- A tile's header (13 R231) and its four slots (13 R232), in 128 bytes. -/
def tileBytes (h : Tile) : List Byte :=
  let st : BitVec 2 := match h.st with | .settled => 0#2 | .published => 1#2 | .derived => 2#2 | .poisoned => 3#2
  let slot (x : Slot) : BitVec 128 :=
    x.coef ++ x.ldev ++ x.lin ++ x.hdev ++ x.hcore ++ x.htile ++ x.seq ++ 0#13 ++ BitVec.ofBool x.psn ++ BitVec.ofBool x.fin ++ BitVec.ofBool x.v
  padTo 64 (wordBytes (h.dom.id ++ 0#45 ++ BitVec.ofBool h.pnd ++ st)) ++ h.slots.toList.flatMap fun x => leBytes 16 (slot x).toNat

/-- A part of the slice inbox: word, constant, domain, and START advanced. -/
def partBytes (p : Part) : List Byte :=
  leBytes 8 p.word.toNat ++ wordBytes p.cst ++ leBytes 8 p.dom.id.toNat ++ wordBytes (p.adv.getD 0#64)

/-- A ripple-table entry (13 R243). -/
def ripBytes (e : RipEnt) : List Byte :=
  let w : BitVec 128 := e.seq ++ e.ack ++ e.ddev ++ e.dcore ++ e.dtile ++ BitVec.ofNat 2 e.dslot ++ e.stile ++ BitVec.ofNat 3 e.sslot ++ 0#61 ++
    BitVec.ofBool e.fin ++ BitVec.ofBool e.v
  leBytes 16 w.toNat

/-- An armed put, as its descriptor (15 R270); byte 48 says whether it has fired. -/
def armedBytes (a : Armed) : List Byte :=
  padTo 64 (wordBytes a.dst ++ wordBytes a.src ++ leBytes 8 (a.cmpl / 16 * 2 ^ 48 + a.len) ++ wordBytes a.sig ++ leBytes 8 a.trig ++ wordBytes a.thr ++
    leBytes 1 (if a.fired.isSome then 1 else 0))

/-- A job's card (12 R213, 15 R270) without its record, and its ITERVEC (02 R39), in 256 bytes. -/
def jobBytes (j : Job) : List Byte :=
  let w0 : Word := BitVec.ofNat 64 (j.stag.toNat * 2 ^ 48 + (if j.wmk then 2 ^ 44 else 0) + j.ch * 2 ^ 42 + j.kind * 2 ^ 32)
  let card := if j.kind ≤ 1 then
      wordBytes w0 ++ wordBytes 0#64 ++ wordBytes j.src ++ wordBytes j.dst ++ leBytes 8 j.cmpl ++ wordBytes j.iter
    else
      wordBytes j.dst ++ wordBytes j.src ++ leBytes 8 (j.cmpl / 16 * 2 ^ 48 + j.ety * 2 ^ 40 + j.len) ++ wordBytes j.sig ++ wordBytes 0#64 ++
        wordBytes 0#64
  padTo 256 (padTo 128 (card ++ (if j.kind ≤ 1 then j.fps else []).flatMap fun f => leBytes 16 f.toNat) ++ wordBytes (engIter 2 j.iter))

/-- Offsets 0x3B80 to 0x3FFF of the image. -/
def saveStreams (x : Core) : List Byte := padTo 512 (streamBytes x) ++ regsBytes x

/-- Offsets 0x2_8000 to 0x2_B4FF of the image: tile headers, slice inbox, ripple table, armed puts, job cards, inbox messages by queue (07
R116), each at its slot. -/
def saveTables (x : Core) : List Byte :=
  x.sl.tiles.toList.flatMap tileBytes ++ padTo 256 (x.sl.inbox.flatMap partBytes) ++
    ((List.range 64).flatMap fun e => padTo 16 (((tGet x.sl.rip e).map ripBytes).getD [])) ++ padTo 2048 (x.armed.flatMap armedBytes) ++
    padTo 4096 (x.jobs.flatMap jobBytes) ++
    x.inbox.toList.flatMap fun q => (List.range 16).flatMap fun i => padTo 64 (((q.find? fun e => e.ix == i).map fun e => msgBytes e.m).getD [])

/-- Writes the image of a core's save area (R309). -/
def State.saveImage (s : State) (c : Nat) (ctx : Ctx) (x : Core) (kind ckix cycs : Nat) : State :=
  match tGet s.hub.ctxs ctx.toNat with
  | none => s
  | some k =>
    let b := k.record.save.toNat + c * k.record.ssz.toNat
    let m := Memory.splice s.mem b 0x3B80 (cellsOf 0 (saveHead x kind ckix cycs))
    let m := Memory.splice m (b + 0x3B80) 0x480 (cellsOf 0 (saveStreams x))
    let m := Memory.splice m (b + 0x28000) 0x3500 (cellsOf 0 (saveTables x))
    let m := Memory.splice m (b + 0x4000) 0x24000 (x.sl.cells.flatMap fun p => cellsOf (6 * p.1) (leBytes 6 p.2.toNat))
    let m := Memory.splice m (b + 0x40000) 0x80000 (x.sp.filter fun p => decide (p.1 < 0x80000))
    { s with mem := Memory.splice m (b + 0xC0000) 0x2000 (cellsOf 0 (tagBytes x)) }

/-! Taking a save. -/

/-- What stays with the core, whatever context it runs: translations, pending accesses, its outbound messages and sequence numbers,
its debug module, counters, and its weight buffers. -/
def Core.physOf (x y : Core) : Core :=
  { x with
    outb := y.outb, gone := y.gone, acc := y.acc, seqs := y.seqs, expd := y.expd, itlb := y.itlb, dtlb := y.dtlb, stlb := y.stlb, runs := y.runs
    dbg := y.dbg, phys := y.phys, sl := { x.sl with wb := y.sl.wb }, wbUps := y.wbUps }

/-- A core with no context on it (R305); its scratchpad stays as it is. -/
def Core.vacant (x : Core) : Core := { Core.zero with stat := .out, sp := x.sp, empties := x.empties, ups := x.ups }.physOf x

/-- An offset of the scratchpad lies in one of the ranges. -/
def inRanges (l : List (Nat × Nat)) (o : Nat) : Bool := l.any fun r => decide (r.1 ≤ o) && decide (o < r.1 + r.2)

/-- What a full save keeps of the scratchpad (R308): the constant window, and the `sp` regions of the launches of the context that the core
runs. -/
def State.fullKeep (s : State) (c : Nat) (ctx : Ctx) : List (Nat × Nat) :=
  (0, 0x800) :: (s.core c).runs.flatMap fun r => if r.1 = ctx then ((tGet s.hub.launches r.2).map (·.regs)).getD [] else []

/-- The words of a scratchpad in these ranges, with their tags. -/
def Core.only (x : Core) (l : List (Nat × Nat)) : Core :=
  { x with sp := x.sp.filter fun p => inRanges l p.1, empties := x.empties.filter fun w => inRanges l (8 * w), ups := x.ups.filter fun u => inRanges l (8 * u.1) }

/-- Puts a context's part of a core away, with these ranges of its scratchpad: it is not resident from here on (R308 to R310). -/
def State.putAway (s : State) (c : Nat) (ctx : Ctx) (x : Core) (full : Bool) (ckix : Nat) (keep : List (Nat × Nat)) : State :=
  let x := x.only keep
  let y := x.physOf Core.zero
  let v : Save := ⟨ctx, full, ckix, s.cycs, { y with res := none, preqAt := 0, late := [], c := { y.c with preq := false } }, [], keep⟩
  let s := s.saveImage c ctx x (if full then 1 else 0) ckix s.cycs
  (s.updHub fun h => { h with saves := tPut h.saves (saveKey ctx c) v }).upd c Core.vacant

/-- The core stands at an S instruction boundary, and the running `mmaj` of its row at an iteration boundary (R305, R308). -/
def State.atBoundary (s : State) (c : Nat) : Bool :=
  let x := s.core c
  (match x.stat with
   | .idle | .frozen | .out => true
   | .run => x.park.isSome || decide (x.ready ≤ s.cyc)
   | .wait w _ _ => w.abandoned && ! s.asked c
   | _ => false) &&
  ((s.row (rowOf c)).gangs.all fun g => g.iter.isNone || decide (g.g + g.k * g.per ≤ s.cyc))

/-- A running `mmaj` stops: its parts stand at the heads of the eight inboxes again, with START advanced (R308). -/
def State.stopMmaj (s : State) (row : Nat) : State :=
  let r := s.row row
  match r.gangs.find? (fun g => g.iter.isSome) with
  | none => s
  | some g =>
    let s := s.setRow row { r with gangs := r.gangs.filter fun x => x.iter.isNone }
    g.parts.foldl (fun (s : State) p => s.updIn p.src p.ctx fun x =>
      { x with sl := { x.sl with inbox := { p with adv := g.iter, t := s.cyc } :: x.sl.inbox } }) s

/-- Entries of the core and of its jobs that park are withdrawn, and what waits is issued again after the resumption (R298). -/
def State.quiet (s : State) (c : Nat) : State :=
  ((s.unask c).withdraw c fun p => match p with | .core k => k == c | .job k _ => k == c | .ring _ | .none => false).upd c fun x =>
    { x with
      stat := match x.stat with | .wait _ _ _ => .run | t => t
      park := none, waitFrom := none, wFrom := none, pread := []
      jobs := x.jobs.map fun j => if j.st = 3 then { j with st := 2 } else j }

/-- With the last context saved for a checkpoint, device memory goes to the host (24 R347). -/
def State.memOut (s : State) : State :=
  if s.sys.ckpting ∧ s.sys.buf.isNone ∧ ! s.cores.any (fun p => p.2.res.isSome) then
    { s with sys := { s.sys with buf := some s.mem } }.emit (.memory s.mem)
  else s

/-- FULL_SAVE (R308): the whole state of the core's context. -/
def State.fullSave (s : State) (c : Nat) : State :=
  match (s.core c).res with
  | none => s
  | some ctx =>
    let s := (s.stopMmaj (rowOf c)).quiet c
    (s.putAway c ctx (s.core c) true 0 (s.fullKeep c ctx)).memOut

/-- PREEMPT_REQUEST (R305): sets PREQ. -/
def execPreemptRequest (c : Nat) (s : State) : Out1 :=
  let x := s.core c
  .next (if x.res.isSome ∧ ! x.c.preq then s.upd c fun x => { x with c := { x.c with preq := true }, preqAt := s.cyc } else s)

/-- PREEMPT_TIMEOUT (R305, R307): 24,000 cycles after PREQ was set, a full save at the next boundary; for a checkpoint, at the next boundary
(24 R347). -/
def execPreemptTimeout (c : Nat) (s : State) : Out1 :=
  let x := s.core c
  .next (if x.c.preq ∧ x.res.isSome ∧ (s.sys.ckpting ∨ x.preqAt + 24000 ≤ s.cyc) then (if s.atBoundary c then s.fullSave c else if s.asked c then s.recall c else s)
    else s)

/-! Checkpoint saves (R306, R307). -/

/-- An entry of a checkpoint table is well formed. -/
def ckptOk (e : List Byte) : Bool :=
  let n := leNat ((e.drop 12).take 4)
  e.getD 9 0#8 == 0#8 && decide (n ≤ 6) && (List.range n).all fun i =>
    let w := bytesWord ((e.drop (16 + 8 * i)).take 8)
    let o := bits w 31 0
    let b := bits w 63 32
    o % 8 == 0 && b % 8 == 0 && decide (0x800 ≤ o) && decide (o + b ≤ 0x80000)

/-- The ranges of an entry: offset and bytes. -/
def ckptRanges (e : List Byte) : List (Nat × Nat) :=
  (List.range (leNat ((e.drop 12).take 4))).map fun i =>
    let w := bytesWord ((e.drop (16 + 8 * i)).take 8)
    (bits w 31 0, bits w 63 32)

/-- What a checkpoint save keeps of a core (R307), the scratchpad apart: the live registers and tiles, every tile header and slot (13 R248),
and the rest of R308 but for W state. -/
def Core.ckptPart (x : Core) (e : List Byte) : Core :=
  let sm := leNat (e.take 4)
  let vm := leNat ((e.drop 4).take 4)
  let km := leNat ((e.drop 8).take 1)
  let am := leNat ((e.drop 10).take 2)
  let r : Regs :=
    { s := Vector.ofFn fun i => if sm.testBit i.val then x.r.s[i] else 0#64
      v := Vector.ofFn fun i => if vm.testBit i.val then x.r.v[i] else Vector.replicate 48 0#32
      k := Vector.ofFn fun i => if km.testBit i.val then x.r.k[i] else 0#48
      q := Vector.replicate 8 [] }
  let sl := { x.sl with cells := x.sl.cells.filter fun p => am.testBit (p.1 / 1536) }
  { x with
    r := r, sl := sl, qinfo := Vector.replicate 8 [], sAfter := 0, wAfter := 0, wbuf := [], wpend := [], wReady := 0 }

/-- The entry of the table (R306), read with the context's translation. -/
def State.ckptEntry (s : State) (n : Nat) : Option (List Byte) :=
  let x := s.me
  let a := x.c.ckpttab - BitVec.ofNat 64 (64 * (n + 1))
  let w := { s.who s.cur false with task := none }
  match s.chk w .d .load none a 64 with
  | .ok ps s => if anyPeer ps then none else some (s.loadPieces s.cur false ps)
  | _ => none

/-- `ckpt n` (R307): with PREQ set, outside a trap handler and with a table, it stops dispatch, and saves once W work has drained
and the slice is idle; an entry that is malformed or unreadable makes it a full save, and so does a checkpoint of the device (24 R347). -/
def execCkpt (i : BitVec 12) (s : State) : Out1 :=
  let x := s.me
  if ! x.c.preq ∨ x.c.intrap ∨ x.c.ckpttab = 0#64 then .next (s.sDone 1 1 id)
  else if ! x.wDrained ∨ ! x.sl.inbox.isEmpty ∨ ! s.slIdle s.cur then .next s.sRetry
  else
    match x.res with
    | none => .next (s.sDone 1 1 id)
    | some ctx =>
      let c := s.cur
      let t := s.sDone 1 1 id
      match s.ckptEntry i.toNat with
      | some e =>
        if ckptOk e ∧ ! s.sys.ckpting then
          let t := t.quiet c
          .next (t.putAway c ctx ((t.core c).ckptPart e) false i.toNat ((0, 0x800) :: ckptRanges e))
        else .next (t.fullSave c)
      | none => .next (t.fullSave c)

/-! Resumption (R310). -/

/-- An absolute cycle of the save counted from the resumption: the last executed cycle stands for the one before it. -/
def Save.shift (v : Save) (now t : Nat) : Nat := now + (t - 1 - v.cycs)

/-- The scratchpad after a resumption: the ranges that the save has kept; the other words read as zero after a checkpoint save (R307), and
stay as they are on the core after a full save, of which no rule speaks (DESIGN CHOICE, log entry 27). -/
def Save.scratch (v : Save) (y : Core) : Core :=
  if v.full then
    let o := y.only []
    let rest (a : Nat) : Bool := ! inRanges v.keep a
    { o with
      sp := v.core.sp.foldl (fun m p => tPut m p.1 p.2) (y.sp.filter fun p => rest p.1)
      empties := v.core.empties.foldl (fun l w => setIns w l) (y.empties.filter fun w => rest (8 * w))
      ups := y.ups.filter fun u => rest (8 * u.1) }
  else { y with sp := v.core.sp, empties := v.core.empties, ups := [] }

/-- The core as a save restores it: times run on from the cycle of the resumption. -/
def Save.restore (v : Save) (now : Nat) (y : Core) : Core :=
  let x := v.core.physOf y
  let sl := { x.sl with busy := v.shift now x.sl.busy, cur := x.sl.cur.map fun p => (p.1, v.shift now p.2)
                        waitFrom := x.sl.waitFrom.map fun _ => now }
  let z := v.scratch y
  { x with
    sp := z.sp, empties := z.empties, ups := z.ups, res := some v.ctx, ready := now, wReady := now + x.wiv v.cycs, sl := sl
    wpend := x.wpend.map fun p => { p with land := now + (p.land - v.cycs) - 1 } }

/-- An arrival of the log is performed (R310, R143): a message is queued or waits for a slot, a store and a signal are performed,
each unless its domain has expired. -/
def State.fromLog (s : State) (c : Nat) (k : Pkt) : State :=
  let k := { k with dom := s.dtag k.dom }
  let ep := match k.body with | .msg _ _ _ _ _ _ _ => inboxEp c | _ => spEp c
  if s.expired ep k.dom then (s.dropPkt k.id).dropAt ep
  else
    match k.body with
    | .msg _ q m task _ _ _ => s.deliver k c q m task
    | .signal _ off ann _ _ => (s.dropPkt k.id).upd c fun x => x.signal off ann s.cyc
    | .store a bs => (s.dropPkt k.id).upd c fun x => x.spWrite (a.toNat % 0x100000) bs
    | .ripple _ slot t q x src e => (s.dropPkt k.id).toSlice c k.ctx (.ripple slot t q x src e)
    | .mark _ slot t q psn src e => (s.dropPkt k.id).toSlice c k.ctx (.mark slot t q psn src e)
    | _ => s

/-- Restores a context on its core (R310); published tiles whose domain has expired are closed (13 R247). -/
def State.resume (s : State) (c : Nat) (v : Save) : State :=
  let s := s.updHub fun h => { h with saves := tDel h.saves (saveKey v.ctx c) }
  let s := (s.upd c fun y => v.restore s.cyc y).closeExpired c
  let s := { s with net := v.log ++ s.net }
  v.log.foldl (fun (s : State) k => s.fromLog c k) s

/-- CONTEXT_RESUME (R310). A slot that has failed is unavailable (R303). -/
def execContextResume (c : Nat) (ctx : Ctx) (s : State) : Out1 :=
  match tGet s.hub.saves (saveKey ctx c) with
  | some v => .next (if (s.core c).res.isNone ∧ (s.core c).phys ≠ 9 ∧ ! s.sys.ckpting then s.resume c v else s)
  | none => .next s

/-- CORE_RETIRE (R303): the context is saved and restored on the row's spare, whose weight buffers are empty; c13 reads 8. A row
whose spare is in use loses the slot. -/
def execCoreRetire (c : Nat) (s : State) : Out1 :=
  let used := (rowCores (rowOf c)).any fun k => (s.core k).phys == 8
  if ! s.atBoundary c ∨ (s.core c).phys = 9 then .next s
  else
    let ctx := (s.core c).res
    let s := s.fullSave c
    if used then .next (s.upd c fun x => { x with phys := 9 })
    else
      let move (x : Core) : Core := { x with sp := (x.spWrite 0x68 (wordBytes 8#64)).sp }
      let s := s.upd c fun x =>
        { x with phys := 8, sl := { x.sl with wb := [] }, sp := [], empties := [], ups := [], wbUps := [], itlb := [], dtlb := [], stlb := [] }
      let s := s.updHub fun h => { h with saves := h.saves.map fun p => if p.1 % 4096 = c then (p.1, { p.2 with core := move p.2.core }) else p }
      match ctx.bind fun k => tGet s.hub.saves (saveKey k c) with
      | some v => .next (s.resume c v)
      | none => .next s

/-! The checkpoint of the device (24 R347). -/

/-- CHECKPOINT: command queues take no packet, every resident context is saved at its boundary, and with the last of them device
memory goes to the host. -/
def execCheckpoint (s : State) : Out1 :=
  let y := s.sys
  let s := { s with sys := { y with ckpting := true } }
  let s := s.cores.foldl (fun (s : State) p =>
    if p.2.res.isNone then s
    else if s.atBoundary p.1 then s.fullSave p.1
    else s.upd p.1 fun x => { x with c := { x.c with preq := true }, preqAt := 0 }) s
  .next s.memOut

/-- RESTORE: the steps are reversed: device memory is read back from the host's buffer, and on every core the context saved last is resumed
(DESIGN CHOICE, log entry 29). -/
def execRestore (s : State) : Out1 :=
  if ! s.sys.ckpting then .next s
  else
    let y := s.sys
    let s := { s with sys := { y with ckpting := false, buf := none }, mem := y.buf.getD s.mem, upsets := if y.buf.isSome then [] else s.upsets }
    .next (s.cores.foldl (fun (s : State) p =>
      if p.2.res.isSome ∨ p.2.phys = 9 then s
      else
        let l := s.hub.saves.filter fun v => v.1 % 4096 == p.1
        match l.foldl (fun (b : Option Save) v =>
            match b with
            | some w => if w.cycs < v.2.cycs then some v.2 else b
            | none => some v.2) none with
        | some v => s.resume p.1 v
        | none => s) s)

end Sys2Proof.Machine
end

