-- ==== Sys2Proof/Machine/System.lean ====
section
/-! DEFINITION. System instructions: traps and the return from one, control words, time (18_faults_and_preemption.md R289 to R295),
hints (03 R49), and words that do not decode (03 R41). -/

namespace Sys2Proof.Machine

/-- A word at which decoding failed, or no word at the end of inline code (R41, 07 R119): ILLEGAL with the word as TRAPVAL. -/
def execIllegalInstruction (s : State) : Out1 := .next (s.sTrap 0x01#8 (s.ir.setWidth 64))

/-- The IMM field of the word being executed. -/
def irImm (s : State) : BitVec 12 := s.ir.extractLsb' 20 12

/-- `trap n` (R292): n is IMM of the word being executed. -/
def execTrap (s : State) : Out1 := .next (s.sTrap 0x0A#8 ((irImm s).setWidth 64))

/-- `brk n` (R292, 24 R339): it halts before it takes effect while breakpoints are armed, once; else it raises BREAK. -/
def execBrk (s : State) : Out1 :=
  .next (if s.me.dbg.bpen ≠ 0#4 ∧ ! s.me.dbg.skip then s.halt s.cur 4#8 else s.sTrap 0x0B#8 ((irImm s).setWidth 64))

/-- RETURN FROM A TRAP, `eret` (R291): INTRAP is cleared and the S stream goes on at TRAPPC, once the W stream has drained. A
TRAPPC that is no multiple of 4 raises the alignment trap as a jump to it does (DEDUCED from R40, log entry 23). -/
def execEret (s : State) : Out1 :=
  let x := s.me
  .next (
    if ! x.c.intrap then s.sTrap 0x01#8 0x00010012#64
    else if ! x.wDrained then s.sStall (Config.waitVal s.nextId)
    else if x.c.tpc.extractLsb' 0 2 ≠ 0#2 then s.sTrap 0x02#8 x.c.tpc
    else s.sGo x.c.tpc 3 fun c => { c with c := { c.c with intrap := false } })

/-- A control word as a handler reads it (02 R35 to R39, R293). -/
def State.cwRead (s : State) (w : Cw) : Word :=
  let x := s.me
  match w with
  | .corestat => x.corestat
  | .domain => x.c.dom.inst ++ x.c.dom.id
  | .cyc => BitVec.ofNat 64 s.cyc
  | .now => s.nowW
  | .trapcause => x.c.cause.setWidth 64
  | .trappc => x.c.tpc
  | .trapval => x.c.tval
  | .itervec => x.c.iter
  | .ckpttab => x.c.ckpttab &&& 0x00FFFFFFFFFFFFFF#64
  | .handlerbase => x.c.hbase &&& 0x00FFFFFFFFFFFFC0#64

/-- `cwr rd, n` (R293). -/
def execCwr (w : Cw) (d : Reg) (s : State) : Out1 := .next (s.sDone 1 2 fun c => c.ws d (s.cwRead w))

/-- `cww n, ra` (R293): a word that a handler may not write is a violation; CORESTAT waits for the W stream (02 R36). -/
def execCww (w : Cw) (a : Reg) (s : State) : Out1 :=
  let v := s.me.rs a
  .next (match w with
    | .corestat => if s.me.wDrained then s.sDone 1 1 fun c => c.writeCorestat v else s.sRetry
    | .trapcause => s.sDone 1 1 fun c => { c with c := { c.c with cause := v.setWidth 9 } }
    | .trappc => s.sDone 1 1 fun c => { c with c := { c.c with tpc := v } }
    | .trapval => s.sDone 1 1 fun c => { c with c := { c.c with tval := v } }
    | .domain | .cyc | .now | .itervec | .ckpttab | .handlerbase => s.sViol .fetch 0#64)

/-- `time rd` (R294). -/
def execTime (d : Reg) (s : State) : Out1 := .next (s.sDone 1 1 fun c => c.ws d s.nowW)
/-- `cyc rd` (R294). -/
def execCyc (d : Reg) (s : State) : Out1 := .next (s.sDone 1 1 fun c => c.ws d (BitVec.ofNat 64 s.cyc))

/-- `waitc ra` (R294): holds the S stream until CYC ≥ RA. -/
def execWaitc (a : Reg) (s : State) : Out1 :=
  .next (if (s.me.rs a).toNat ≤ s.cyc % 2 ^ 64 then s.sDone 1 1 id else s.sHold (.cycle (s.me.rs a) false) 1 1)

/-- `nop` (03 R49). -/
def execNop (s : State) : Out1 := .next (s.sDone 1 1 id)
/-- `hint 1, n` (03 R49): the core may lower its power, with no visible effect. -/
def execHintPoll (s : State) : Out1 := .next (s.sDone 1 1 id)
/-- `hint 2, n` (03 R49, 24 R341): a mark in the trace; n is ARG of the word being executed. -/
def execHintMark (s : State) : Out1 :=
  .next ((s.trace s.cur 4#8 ((s.ir.extractLsb' 6 20).setWidth 64) s.me.pc 0#64).sDone 1 1 id)
/-- The other hints (03 R49): as `nop`. -/
def execHintOther (s : State) : Out1 := .next (s.sDone 1 1 id)

/-- TRAP_ENTRY (R289, R290): the W stream has drained. A W head that stands on an empty queue when an S trap stops dispatch raises
DEADLOCK, which is taken instead. -/
def execTrapEntry (c : Nat) (s : State) : Out1 :=
  let x := s.core c
  match x.stat with
  | .trapping t =>
    if x.wDrained then .next (s.enterTrap c t)
    else if t.wstr then .next s
    else
      match x.wStuck with
      | some q => .next (s.wTrap c 0x04#8 ((x.wbuf.head?.map (·.pc)).getD x.pc) (q.setWidth 64))
      | none => .next s
  | _ => .next s

end Sys2Proof.Machine
end

