-- ==== Sys2Proof/Machine/Wellhead.lean ====
section
/-! DEFINITION. The Wellhead: reports, edges, leases, placement, reservations and completion (07_tasks_and_messages.md R125,
R126, R132, 11 R205, R206). -/

namespace Sys2Proof.Machine

def State.launchOf (s : State) (l : Nat) : Option Launch := tGet s.hub.launches l
def State.recOf (s : State) (l r : Nat) : Option Rec := (s.launchOf l).bind fun x => x.recs[r]?
def State.setRec (s : State) (l r : Nat) (f : Rec → Rec) : State :=
  match s.launchOf l with
  | some x => s.updHub fun h => { h with launches := tPut h.launches l { x with recs := x.recs.modify r f } }
  | none => s

/-! Reports (R132). -/

/-- The free slots of each queue of a core, and whether it is idle. -/
def Core.reportOf (x : Core) : Nat × Nat × Nat × Nat × Bool :=
  let f (q : BitVec 2) : Nat := (freeSlots (x.iq q)).length
  (f 0#2, f 1#2, f 2#2, f 3#2, x.stat == .idle && x.act.isNone)

/-- CLUSTER_REPORT (R132): every 256 cycles. -/
def execClusterReport (cl : Nat) (s : State) : Out1 :=
  let k := s.cl cl
  if ! k.report.isEmpty && decide (s.cyc < k.repAt + 256) then .next s
  else
    let rep : Tab (Nat × Nat × Nat × Nat × Bool) := (List.range 64).map fun i => (64 * cl + i, (s.core (64 * cl + i)).reportOf)
    .next (s.updCl cl fun k => { k with report := rep, repAt := s.cyc, placed := [] })

/-- Free slots of a queue of a core by the latest report, less the tasks placed there since (R132). -/
def State.room (s : State) (c : Nat) (q : BitVec 2) : Nat :=
  let k := s.cl (clusterOf c)
  match tGet k.report c with
  | none => 0
  | some (a, b, d, e, _) =>
    (if q = 0#2 then a else if q = 1#2 then b else if q = 2#2 then d else e) - (tGet k.placed (4 * c + q.toNat)).getD 0

/-- The latest report shows the core idle (R132). -/
def State.idleCore (s : State) (c : Nat) : Bool :=
  match tGet (s.cl (clusterOf c)).report c with
  | none => false
  | some (_, _, _, _, i) => i

/-! Edges (R125). -/

def fpOverlap (a b : BitVec 128) : Bool :=
  let x := (a.extractLsb' 0 56).toNat
  let y := (b.extractLsb' 0 56).toNat
  decide (x < y + (b.extractLsb' 64 64).toNat) && decide (y < x + (a.extractLsb' 64 64).toNat) && (a.getLsbD 58 || b.getLsbD 58)

/-- The range lies in the core-local window, and makes no edges (R206). -/
def fpLocal (a : BitVec 128) : Bool := decide ((a.extractLsb' 0 56).toNat < 0x100000)

/-- Record j has an edge from record i. -/
def edge (i : Nat) (x y : Rec) : Bool :=
  y.aft.contains i || x.fps.any fun a => ! fpLocal a && y.fps.any fun b => ! fpLocal b && fpOverlap a b

/-- The records that record r has an edge from. -/
def Launch.preds (x : Launch) (r : Nat) : List Rec :=
  match x.recs[r]? with
  | none => []
  | some y => (((List.range r).zip x.recs).filter fun p => edge p.1 p.2 y).map (·.2)

/-- The record is marked failed. -/
def Rec.lost (y : Rec) : Bool := y.st == .failed || y.tainted

/-- A record is marked failed; it is never placed (R205, R300), and gives up the row that it has reserved. -/
def State.failRec (s : State) (l r : Nat) : State :=
  match s.launchOf l with
  | none => s
  | some x =>
    let pins := ((x.recs[r]?).map (·.pins)).getD []
    let s := s.unpin x.ctx pins
    let x := { x with recs := x.recs.modify r fun y => { y with st := .failed, pins := [], intake := none }, firstFail := some (x.firstFail.getD r) }
    (s.updHub fun h => { h with launches := tPut h.launches l x }).dropResv

/-- RECORD_READY (R125, R129, R205): the Wellhead takes a record up out of a cluster's intake; then every record it has an edge from has
completed, and its leases are asked for; after one that failed it fails. -/
def execRecordReady (l r : Nat) (s : State) : Out1 :=
  match s.launchOf l, s.recOf l r with
  | some x, some y =>
    let ps := x.preds r
    .next (
      if ! y.st.early then s
      else if y.intake.isSome then s.setRec l r fun y => { y with intake := none }
      else if ps.any Rec.lost then s.failRec l r
      else if y.st ≠ .waiting then s
      else if ps.all fun p => p.st == .done || p.st == .discarded then s.setRec l r fun y => { y with st := .ready, readyAt := s.cyc }
      else s)
  | _, _ => .next s

/-! Leases (R205, R206). -/

/-- The leased ranges that need pins. -/
def Rec.leased (y : Rec) : List (BitVec 128) :=
  y.fps.filter fun f => ! f.getLsbD 56 && decide (0x100000 ≤ (f.extractLsb' 0 56).toNat) && decide ((f.extractLsb' 0 56).toNat < 0xFE000000000000)

def pinIv (a : Word) : Nat × Nat := (a.toNat / 65536 * 65536, a.toNat / 65536 * 65536 + 2 ^ (a.toNat % 65536))

/-- Every page of every leased range is pinned. -/
def Rec.granted (y : Rec) : Bool :=
  y.leased.all fun f =>
    let b := (f.extractLsb' 0 56).toNat
    ivCover (y.pins.map pinIv) (y.pins.length + 1) b (b + (f.extractLsb' 64 64).toNat)

/-- LEASE_GRANT (R205): the page of an address, which overlaps a leased range, has a valid leaf with the permissions of the range,
and gets a pin. -/
def execLeaseGrant (l r : Nat) (va : Word) (s : State) : Out1 :=
  match s.launchOf l, s.recOf l r with
  | some x, some y =>
    match tGet s.hub.ctxs x.ctx.toNat with
    | none => .next s
    | some k =>
      match walk s.mem k.record.root va with
      | .bad _ => .next s
      | .leaf e lg =>
        let base := va.toNat / 2 ^ lg * 2 ^ lg
        let w : Word := BitVec.ofNat 64 (base + lg)
        let fs := y.leased.filter fun f =>
          let b := (f.extractLsb' 0 56).toNat
          decide (b < base + 2 ^ lg) && decide (base < b + (f.extractLsb' 64 64).toNat)
        let ok := ! fs.isEmpty && fs.all fun f => (! f.getLsbD 57 || e.getLsbD 2) && (! f.getLsbD 58 || e.getLsbD 3)
        if y.st ≠ .ready ∨ ! ok ∨ y.pins.contains w then .next s
        else
          let n := (tGet s.hub.pins (pinKey x.ctx w)).getD 0
          let s := s.updHub fun h => { h with pins := tPut h.pins (pinKey x.ctx w) (n + 1) }
          .next (s.setRec l r fun y =>
            let y := { y with pins := y.pins ++ [w] }
            if y.granted then { y with st := .leased } else y)
  | _, _ => .next s

/-- LEASE_REFUSAL (R205): a page cannot be granted. -/
def execLeaseRefusal (l r : Nat) (s : State) : Out1 :=
  match s.recOf l r with
  | some y => .next (if y.st = .ready ∧ ! y.granted then s.failRec l r else s)
  | none => .next s

/-! Placement (R132). -/

/-- The record waits for placement only. -/
def Rec.placeable (y : Rec) : Bool := y.st == .leased || (y.st == .ready && y.granted)

/-- The row is reserved for another task. -/
def State.rowTaken (s : State) (row l r : Nat) : Bool :=
  match (s.row row).resv with
  | some p => p != (l, r)
  | none => false

/-- The cores of a launch, lowest first, with room for a task that is not a gang task; a slot that has failed is unavailable (18 R303). -/
def State.coreFor (s : State) (x : Launch) (q : BitVec 2) : Option Nat :=
  ((List.range x.ncore).map fun i => x.first + i).find? fun c => decide (0 < s.room c q) && (s.row (rowOf c)).resv.isNone && (s.core c).phys != 9

/-- The whole rows of a launch. -/
def Launch.rows (x : Launch) : List Nat :=
  (List.range nRows).filter fun r => decide (x.first ≤ 8 * r) && decide (8 * r + 8 ≤ x.first + x.ncore)

/-- The row that holds the reservation of a gang task. -/
def State.resvRow (s : State) (l r : Nat) : Option Nat := (s.rows.find? fun p => p.2.resv == some (l, r)).map (·.1)

/-- The row for a gang task: its reserved row, else the lowest of the launch that no other task has reserved; all eight cores
report idle. -/
def State.rowFor (s : State) (x : Launch) (l r : Nat) (q : BitVec 2) : Option Nat :=
  let fit (row : Nat) : Bool := (rowCores row).all fun c => s.idleCore c && decide (0 < s.room c q) && (s.core c).phys != 9
  match s.resvRow l r with
  | some row => if fit row then some row else none
  | none => x.rows.find? fun row => ! s.rowTaken row l r && fit row

/-- Where a task can be placed now. -/
def State.coresFor (s : State) (x : Launch) (l r : Nat) (y : Rec) : Option (List Nat) :=
  if y.gang then (s.rowFor x l r y.q).map rowCores else (s.coreFor x y.q).map fun c => [c]

/-- The task that the Wellhead places next in a launch: of lowest index, with room, and behind no earlier ready task of its queue that
is not a gang task, whether that finds no room or waits for its leases (R132). -/
def State.pick (s : State) (x : Launch) (l : Nat) : List (Nat × Rec) → List (BitVec 2) → Option (Nat × List Nat)
  | [], _ => none
  | (r, y) :: t, held =>
    let held' := if y.gang then held else y.q :: held
    if ! y.placeable then s.pick x l t (if y.st = .ready then held' else held)
    else if held.contains y.q then s.pick x l t held
    else
      match s.coresFor x l r y with
      | some cs => some (r, cs)
      | none => s.pick x l t held'

def State.pickOf (s : State) (l : Nat) : Option (Nat × List Nat) :=
  match s.launchOf l with
  | some x => if x.done then none else s.pick x l ((List.range x.recs.length).zip x.recs) []
  | none => none

/-- The launch whose turn it is: the next after the one served last that has a task to place. -/
def State.turnOf (s : State) : Option Nat :=
  let ls := s.hub.launches.map (·.1)
  ((ls.filter fun l => decide (s.hub.rr < l)) ++ ls.filter fun l => decide (l ≤ s.hub.rr)).find? fun l => (s.pickOf l).isSome

/-- The message of a task (R116, R117, R132). -/
def State.taskMsg (s : State) (x : Launch) (y : Rec) : Msg :=
  let d := s.tagOf y.dom.id
  let txc := ((tGet s.hub.ctxs x.ctx.toNat).map (·.record.txc)).getD false
  ⟨y.hix.setWidth 12, false, d.ext, txc, d.id, d.inst, BitVec.ofNat 32 s.cyc, 0xF00#12, s.hub.dev, 0#16, Config.freeSeq s.nextId, y.rply,
    y.args.getD 0 0#64, y.args.getD 1 0#64, y.args.getD 2 0#64, y.args.getD 3 0#64⟩

/-- TASK_PLACEMENT (R132): the task that comes next is sent, a gang as eight copies. -/
def execTaskPlacement (l r : Nat) (s : State) : Out1 :=
  match s.launchOf l, s.recOf l r, s.pickOf l with
  | some x, some y, some (r', cs) =>
    if s.turnOf = some l ∧ r' = r then
      let m := s.taskMsg x y
      let s := cs.foldl (fun (s : State) c =>
        let s := s.send s.own (.msg c y.q m (some (l, r)) nCores 0 0) (msgTag m) x.ctx nCores 0#16
        s.updCl (clusterOf c) fun k =>
          { k with placed := tPut k.placed (4 * c + y.q.toNat) ((tGet k.placed (4 * c + y.q.toNat)).getD 0 + 1) }) s
      let s := match s.resvRow l r with
        | some row => s.setRow row { s.row row with resv := none }
        | none => s
      .next ((s.setRec l r fun y => { y with st := .placed }).updHub fun h => { h with rr := l })
    else .next s
  | _, _, _ => .next s

/-- GANG_RESERVATION (R132): a gang task ready for 4,096 cycles reserves the row of the launch with the most idle cores. -/
def execGangReservation (l r : Nat) (s : State) : Out1 :=
  match s.launchOf l, s.recOf l r with
  | some x, some y =>
    if y.gang ∧ (y.st = .ready ∨ y.st = .leased) ∧ y.readyAt + 4096 ≤ s.cyc ∧ (s.resvRow l r).isNone then
      let idle (row : Nat) : Nat := ((rowCores row).filter fun c => s.idleCore c).length
      let best := (x.rows.filter fun row => (s.row row).resv.isNone).foldl (fun (b : Option Nat) row =>
        match b with
        | some k => if idle k < idle row then some row else b
        | none => some row) none
      match best with
      | some row => .next (s.setRow row { s.row row with resv := some (l, r) })
      | none => .next s
    else .next s
  | _, _ => .next s

/-! Completion (R126, R149). -/

/-- The jobs that no thaw has let run: those behind a stopped channel, and those with an edge from one (12 R217, 18 R300). -/
def Core.stuckJobs (x : Core) : List Nat :=
  x.jobs.foldl (fun l j =>
    if (j.st ≤ 1 ∧ x.jobs.any fun y => y.st == 6 && y.ch == j.ch) ∨ (j.st = 0 ∧ j.edges.any l.contains) then l ++ [j.id] else l) []

/-- Work of a task that a core holds; the activation of a frozen core has ended (18 R300). -/
def Core.holdsTask (x : Core) (t : TaskRef) : Bool :=
  let fr := x.stat == .frozen
  x.inbox.toList.any (fun l => l.any fun e => e.task == t && ! (fr && e.running)) || (! fr && (x.act.map (·.task)) == some t) || x.acc.any (fun a => a.task == t) ||
    x.armed.any (fun a => a.task == t && a.fired.isSome) || x.sl.inbox.any (fun p => p.task == t) || (x.sl.cur.map (·.1.task)) == some t || x.openJobs.any fun j => j.task == t && ! x.stuckJobs.contains j.id

/-- Some work of a task remains (R126). -/
def State.taskWork (s : State) (t : TaskRef) : Bool :=
  let pk (k : Pkt) : Bool := match k.body with | .msg _ _ _ u _ _ _ => u == t | _ => false
  s.net.any pk || s.cores.any (fun p => p.2.holdsTask t) ||
    s.hub.saves.any (fun v => v.2.core.holdsTask t || v.2.log.any pk) ||
    s.rows.any (fun r => r.2.gangs.any fun g => g.parts.any fun p => p.task == t) ||
    s.hub.ports.any fun p => p.2.ring.any fun j => j.task == t

/-- TASK_COMPLETE (R126, R149): nothing of the task remains; its pins are released. A task with a violation, or after one that
failed, has failed (18 R300). -/
def execTaskComplete (l r : Nat) (s : State) : Out1 :=
  match s.launchOf l, s.recOf l r with
  | some x, some y =>
    if y.st = .placed ∧ ! s.taskWork (some (l, r)) then
      .next ((s.unpin x.ctx y.pins).setRec l r fun y => { y with st := if y.tainted || (x.preds r).any Rec.lost then .failed else .done, pins := [] })
    else .next s
  | _, _ => .next s

end Sys2Proof.Machine
end

