-- ==== Sys2Proof/Machine/Faults.lean ====
section
/-! DEFINITION. Table walks, shoot-downs, accesses of peers and their leases (11_translation.md R199 to R204, 20 R320 to R322), the
fault queues and what resolves their entries, late violations and thawing (18 R296 to R301). -/

namespace Sys2Proof.Machine

/-! The fault queues (18 R296, R298). -/

/-- Queue `q`: a cluster's, or that of the hub. -/
def State.fqOf (s : State) (q : Nat) : FQueue := if q < nClusters then (s.cl q).fq else s.hub.evq
def State.fqFree (s : State) (q ix : Nat) : State :=
  if q < nClusters then s.updCl q fun k => { k with fq := k.fq.free 64 ix }
  else s.updHub fun h => { h with evq := h.evq.free 256 ix }

/-- The access that an ACC code stands for (R297). -/
def accOf (c : BitVec 4) : Acc :=
  if c = 0#4 then .fetch else if c = 1#4 then .load else if c = 2#4 then .store else if c = 3#4 then .atomic
  else if c = 4#4 then .tagged else if c = 5#4 then .jobRead else if c = 6#4 then .jobWrite else .strip

/-- The entry parks the core now. -/
def State.parkedBy (s : State) (c n : Nat) : Bool := ((s.core c).park.map (·.1)) == some n

/-- FAULT_RETRY (R298): the party resumes, and issues again; a ring job's wait for PREVD starts afresh. During a handover entries stay
pending (24 R346). -/
def execFaultRetry (q ix : Nat) (s : State) : Out1 :=
  if s.sys.handover.isSome then .next s else
  match tGet (s.fqOf q).ents ix with
  | none => .next s
  | some e =>
    let s := s.fqFree q ix
    match e.party with
    | .none => .next s
    | .core c => .next (if s.parkedBy c e.n then s.upd c fun x => x.unpark c s.cyc else s)
    | .job c j => .next (s.updJob c j fun y => if y.st = 3 then { y with st := 2 } else y)
    | .ring p =>
      match (s.port p).ring with
      | j :: _ => .next (if j.park = some e.n then s.setRing p { j with park := none, lastAt := s.cyc } else s)
      | [] => .next s

/-- FAULT_DENY (R298, 11 R207): a denied access is a violation, and one that the core had posted to a peer is dropped; a denied trap ends
its activation. -/
def execFaultDeny (q ix : Nat) (s : State) : Out1 :=
  if s.sys.handover.isSome then .next s else
  match tGet (s.fqOf q).ents ix with
  | none => .next s
  | some e =>
    let s := s.fqFree q ix
    match e.party with
    | .none => .next s
    | .core c =>
      if s.parkedBy c e.n then
        let s := s.upd c fun x =>
          { x.unpark c s.cyc with acc := x.acc.filter fun a => ! (a.p.at_ == .peer e.addr && a.sent.isNone) }
        .next (if e.kind = 0x20#8 then s.viol c (accOf e.acc) e.wstr e.pc e.addr 0x30#8 else s.endAct c false false 2#64 .idle)
      else .next s
    | .job c j =>
      match (s.core c).job j with
      | some y => .next (if y.st = 3 then s.violJob c y (accOf e.acc) e.addr else s)
      | none => .next s
    | .ring p =>
      match (s.port p).ring with
      | j :: _ => .next (if j.park = some e.n then s.violRing p j (accOf e.acc) e.addr else s)
      | [] => .next s

/-- FAULT_ACK (R298): it resolves an entry that parks nothing, and has no effect on another. -/
def execFaultAck (q ix : Nat) (s : State) : Out1 :=
  match tGet (s.fqOf q).ents ix with
  | none => .next s
  | some e => .next (if e.party = .none ∧ s.sys.handover.isNone then s.fqFree q ix else s)

/-- The core after a thaw: the frozen activation's W buffer, pending writes and queue entries are gone, and its slot is free. -/
def Core.thaw (x : Core) : Core :=
  let x := match x.act with
    | some a => x.setIq a.q ((x.iq a.q).filter fun e => e.ix != a.ix)
    | none => x
  let y := x.endWork .idle
  { y with regsB := [], dbg := { y.dbg with hcause := 0#8, halted := false } }

/-- THAW (R301): a frozen core chooses its next activation, a thawed channel discards its job. -/
def execThaw (c : Nat) (ch : Option (BitVec 2)) (s : State) : Out1 :=
  let x := s.core c
  match ch with
  | some n => .next (s.upd c fun x => { x with jobs := x.jobs.filter fun j => ! (j.st == 6 && j.ch == n.toNat) })
  | none =>
    .next (if x.stat ≠ .frozen then s else s.upd c Core.thaw)

/-! Late reports (18 R300, 20 R320, R321). -/

/-- The job's addresses at a peer, its signal word and its tile name this one. -/
def Job.names (j : Job) (a : Word) : Bool :=
  if j.sig ≠ 0#64 ∧ bits a 55 0 = bits j.sig 55 0 ∧ (bits j.sig 63 56 = 0 ∨ a = j.sig) then true
  else if j.kind = 5 then a == j.dst
  else if j.kind ≤ 1 then bits a 63 56 != 0 && (bits a 63 56 == bits j.src 63 56 || bits a 63 56 == bits j.dst 63 56)
  else
    (decide (j.dst.toNat ≤ a.toNat) && decide (a.toNat < j.dst.toNat + j.len)) ||
      (decide (j.src.toNat ≤ a.toNat) && decide (a.toNat < j.src.toNat + j.len))

/-- What a core waits for at a peer's address is this access. -/
def Core.waitsAt (x : Core) (a : Word) : Option Acc :=
  match x.stat with
  | .wait (.load ps _ _ _ _) _ _ => if x.waitVal = a ∧ ps.any fun p => match p.at_ with | .peer _ => true | _ => false then some .load else none
  | .wait (.tag _ k _ _ _ _ _ _) _ _ | .wait (.sigw k _ _ _ _ _) _ _ => if x.waitVal = a ∧ k > nCores then some .tagged else none
  | _ => none

/-- The refusal of a ring job's chunk freezes its sequencer (20 R320). -/
def State.ringRefused (s : State) (port : Nat) (a : Word) : State :=
  match (s.port port).ring with
  | j :: _ => if j.started ∧ j.code.isNone then s.violRing port j .jobWrite a else s
  | [] => s

/-- LATE_VIOLATION_REPORT (R300, 20 R320): a refusal from a peer reaches its source. It is that of an access that the core has posted, of
the instruction that waits, or of a job, whose channel freezes; a signal has no domain, whatever that of its job. A core that still runs the
activation of the access freezes; else only the task fails and the report is made (log entry 33). -/
def execLateViolationReport (c : Nat) (adr : Word) (d : Dom) (task : TaskRef) (s : State) : Out1 :=
  match s.net.find? (fun p => p.dev == s.own && p.body == .refusal c adr d task) with
  | none => .next s
  | some p =>
    let s := s.dropPkt p.id
    if ringNo 0 ≤ c then .next (s.ringRefused (c - ringNo 0) adr) else
    let x := s.core c
    let late (acc : Acc) (ctx : Ctx) (dom : Dom) : State :=
      s.fault (clusterOf c) { fEnt0 with kind := 0x30#8, acc := accCode acc, core := BitVec.ofNat 12 c, ctx := ctx, dom := dom, addr := adr }
    match x.acc.find? fun a => a.sent.isSome && a.p.at_ == .peer adr with
    | some a => .next (s.violAcc c a adr 0x30#8)
    | none =>
      match x.waitsAt adr with
      | some acc => .next (s.viol c acc false x.pc adr 0x30#8)
      | none =>
        match x.jobs.find? (fun j => (j.st == 2 || j.st == 4) && (j.dom.id == d || d == 0#16) && j.names adr) with
        | some j => .next (s.violJob c j .jobWrite adr)
        | none => .next ((late .store p.ctx d).failTask task)

/-! Walks (R199, R200, R207). -/

/-- The buffer that serves a kind of access. -/
def bufOf : Acc → TBuf
  | .fetch => .i
  | .jobRead | .jobWrite | .strip => .st
  | _ => .d

/-- The demand fault of a walk for a kind of access: the core parks, or the job that runs. A strip's fault shows only when the strip
is needed (12 R229). -/
def State.walkFault (s : State) (c : Nat) (acc : Acc) (va : Word) (fk : BitVec 4) (lease : Bool) : State :=
  let x := s.core c
  match acc with
  | .strip => s
  | .jobRead | .jobWrite =>
    match x.jobs.find? (fun j => j.st == 2) with
    | some j => s.demandJob c j acc va fk lease
    | none => s
  | _ =>
    match x.stat with
    | .run => if x.act.isSome && x.park.isNone then s.demand c acc false x.pc va fk lease else s
    | .wait w _ _ =>
      if x.park.isNone && ! w.abandoned then (s.upd c fun x => { x with stat := .run, waitFrom := none }).demand c acc false x.pc va fk lease
      else s
    | _ => s

/-- TABLE_WALK (R199, R200, R207): a translation that misses walks the tables, and fills the buffers, or raises a demand fault. A
walk for an address of a peer is made there, and it is its demand fault that comes back (LOAD_REPLY, 20 R321). -/
def execTableWalk (c : Nat) (va : Word) (acc : Acc) (s : State) : Out1 :=
  let w := s.who c false
  match classify s.own c va with
  | .peer _ => .next s
  | .dva v =>
    match s.chkPiece c (bufOf acc) w.ctx acc (s.taskFps w.task) v 1 with
    | .ok _ t => .next t
    | .dem a fk l => .next (s.walkFault c acc a fk l)
    | .viol a => .next (if w.act ≠ 0 ∧ (s.core c).stat = .run then s.viol c acc false (s.core c).pc a 0x30#8 else s)
    | .align _ => .next s
  | _ => .next s

/-! Shoot-downs (R203, R204). -/

/-- The command matches a page of a context. -/
def shootHits (k : BitVec 128) (ctx : Ctx) (lo hi : Nat) : Bool :=
  (k.getLsbD 127 || k.extractLsb' 0 16 == ctx) &&
    (k.getLsbD 126 ||
      let b := (k.extractLsb' 16 40).toNat * 65536
      let n := max 1 (k.extractLsb' 64 40).toNat
      decide (lo < b + n * 65536) && decide (b < hi))

def shootTlb (k : BitVec 128) (e : Tlb) : Bool := shootHits k e.ctx (e.vp.toNat * 2 ^ e.lg) ((e.vp.toNat + 1) * 2 ^ e.lg)

/-- The command covers a pinned page (R204). -/
def State.shootPinned (s : State) (k : BitVec 128) : Bool :=
  s.hub.pins.any fun p =>
    let a : Word := BitVec.ofNat 64 p.1
    shootHits k (BitVec.ofNat 16 (p.1 / 2 ^ 64)) (pinIv a).1 (pinIv a).2

/-- Starts a shoot-down: it goes to every cluster, and the leases of peers that it covers are recalled (R203, 20 R322). -/
def State.shootGo (s : State) (cmd : BitVec 128) : State :=
  let l := s.hub.leases.filter fun e => shootHits cmd e.2.2.1 (pinIv e.2.2.2).1 (pinIv e.2.2.2).2
  let s := s.updHub fun h =>
    { h with
      shoot := h.shoot ++ [(⟨cmd, false, List.range nClusters, l.map fun e => (e.1, e.2.1), s.cyc⟩ : Shoot)]
      leases := h.leases.filter fun e => ! l.contains e }
  l.foldl (fun (s : State) e => s.emit (.recall e.1 e.2.1)) s

/-- SHOOTDOWN (R203, R204): a command that covers a pinned page is held without effect. -/
def execShootdown (cmd : BitVec 128) (s : State) : Out1 :=
  if s.shootPinned cmd then .next (s.updHub fun h => { h with shoot := h.shoot ++ [(⟨cmd, true, [], [], s.cyc⟩ : Shoot)] })
  else .next (s.shootGo cmd)

/-- The cores of a cluster. -/
def clCores (cl : Nat) : List Nat := (List.range 64).map fun i => 64 * cl + i

/-- Removes every matching entry of a core; a load not yet performed is translated again (R203). -/
def Core.shoot (x : Core) (ctx : Ctx) (cmd : BitVec 128) (now : Nat) : Core :=
  let f (l : List Tlb) : List Tlb := l.filter fun e => ! shootTlb cmd e
  let hit (p : Piece) : Bool := match p.at_ with
    | .dram _ => shootHits cmd ctx p.va.toNat (p.va.toNat + p.n)
    | _ => false
  let again := match x.stat with
    | .wait (.load ps _ _ _ _) _ _ => ps.any hit
    | _ => false
  let x := { x with itlb := f x.itlb, dtlb := f x.dtlb, stlb := f x.stlb }
  if again then { x with stat := .run, ready := now } else x

/-- Removes every matching entry of a cluster (R203). -/
def State.shootCl (s : State) (cl : Nat) (cmd : BitVec 128) : State :=
  let s := s.updCl cl fun k => { k with l2 := k.l2.filter fun e => ! shootTlb cmd e }
  (clCores cl).foldl (fun (s : State) c =>
    match tGet s.cores c with
    | none => s
    | some x => s.setCore c (x.shoot (s.who c false).ctx cmd s.cyc)) s

/-- An access of the cluster that used a removed entry is not performed yet. -/
def State.shootWaits (s : State) (cl : Nat) (cmd : BitVec 128) : Bool :=
  (clCores cl).any fun c => (s.core c).acc.any fun a => match a.p.at_ with
    | .dram _ => shootHits cmd a.ctx a.p.va.toNat (a.p.va.toNat + a.p.n)
    | _ => false

/-- CLUSTER_SHOOTDOWN_ACK (R203): the cluster's controller removes the entries, and acknowledges once the accesses that used them
are performed. -/
def execClusterShootdownAck (cl : Nat) (s : State) : Out1 :=
  .next (s.hub.shoot.foldl (fun (s : State) k =>
    if k.held ∨ ! k.acks.contains cl then s
    else
      let s := s.shootCl cl k.cmd
      if s.shootWaits cl k.cmd then s
      else s.updHub fun h => { h with shoot := h.shoot.map fun x => if x = k then { x with acks := x.acks.erase cl } else x }) s)

/-- SHOOTDOWN_COMPLETE (R203, R204): a held command starts once its last pin is released; a command with every acknowledgement and
recall is complete, and its controller is told. -/
def execShootdownComplete (s : State) : Out1 :=
  match s.hub.shoot.find? (fun k => k.held && ! s.shootPinned k.cmd) with
  | some k => .next ((s.updHub fun h => { h with shoot := h.shoot.erase k }).shootGo k.cmd)
  | none =>
    match s.hub.shoot.find? (fun k => ! k.held && k.acks.isEmpty && k.peers.isEmpty) with
    | some k => .next ((s.updHub fun h => { h with shoot := h.shoot.erase k }).emit (.shootDone k.cmd))
    | none => .next s

/-- LEASE_RECALL (20 R322): the acknowledgement of a device that holds a lease; or, for a lease of that device, this device removes
its entries, of which it keeps none, and acknowledges. -/
def execLeaseRecall (dev lease : Nat) (s : State) : Out1 :=
  if s.hub.shoot.any fun k => k.peers.contains (dev, lease) then
    .next (s.updHub fun h => { h with shoot := h.shoot.map fun k => { k with peers := k.peers.filter fun p => p != (dev, lease) } })
  else .next (s.emit (.recallAck dev lease))

/-- LEASE_RECALL_TIMEOUT (20 R322): 1 ms after the recall, a holder that has not acknowledged is counted done. -/
def execLeaseRecallTimeout (dev : Nat) (s : State) : Out1 :=
  .next (s.updHub fun h =>
    { h with shoot := h.shoot.map fun k => if k.t + 1200000 ≤ s.cyc then { k with peers := k.peers.filter fun p => p.1 != dev } else k })

/-! Accesses of peers (20 R321, R322). -/

/-- The checks of a peer's access, with the tables of the mapped context (R321). -/
def State.peerChk (s : State) (k : Pkt) (acc : Acc) (a : Word) (n : Nat) : Chk :=
  s.chk (pktWho s.own k k.srcCore) .d acc none (a &&& 0xFFFFFFFFFFFFFF#64) n

/-- The refusal of a packet that is a violation at its source (R321). -/
def State.refuse (s : State) (k : Pkt) (tok : Nat) (a : Word) : State :=
  (s.dropPkt k.id).send (k.srcCore / 4096) (.refusal tok a k.dom.id none) DTag.imm k.ctx nCores 0#16

/-- Follows the checks of a peer's access: dropped when its domain has expired, refused, or with a demand fault for its source. -/
def State.peerAcc (s : State) (k : Pkt) (tok : Nat) (acc : Acc) (a : Word) (n : Nat) (f : List Piece → State → State) : State :=
  match s.peerChk k acc a n with
  | .ok ps t =>
    match (ps.map fun q => s.placeEp q.at_ q.sysa (acc == .atomic)).find? fun ep => s.expired ep k.dom with
    | some ep => (s.dropPkt k.id).dropAt ep
    | none => (f ps t).grant k ps
  | .dem _ fk _ => (s.dropPkt k.id).emit (.token tok 0#128 fk)
  | .viol _ | .align _ => s.refuse k tok a

/-- The scratchpad word of a peer's tagged operation; none where it is a violation. -/
def State.peerWord (s : State) (k : Pkt) (a : Word) : Option (Nat × Nat) :=
  let v := bits a 55 0
  if 0xFE000000000000 ≤ v ∧ v < 0xFE000100000000 ∧ v % 8 = 0 ∧ v % 0x100000 < 0x80000 then
    let c := (v - 0xFE000000000000) / 0x100000
    if (s.core c).runs.any fun r => r.1 == k.ctx then some (c, v % 0x100000) else none
  else none

/-- A tagged operation of a peer (R321, 05 R93): it waits in its turn with the others on its word (05 R94, 10 R189). A word on which the
operation would trap or be a violation is refused; the source has made the same test. -/
def State.peerTag (s : State) (k : Pkt) (op : TagOp) (a v : Word) (tok : Nat) : State :=
  match s.peerWord k a with
  | none => s.refuse k tok a
  | some (c, off) =>
    if s.expired (spEp c) (s.dtag k.dom) then (s.dropPkt k.id).dropAt (spEp c)
    else if (off < 0x80 ∧ (op = .stf ∨ op = .tset)) ∨ (off < 0x800 ∧ (op = .take ∨ op = .stw ∨ op = .tclr ∨ op = .twait)) then s.refuse k tok a
    else if s.away c k.ctx ∨ ! tagCond op ((s.core c).full off) ∨ s.olderWaits c off k.ctx k.id then s.holdPkt k.id
    else
      let r := tagDo op off v s.cyc (s.core c)
      ((s.dropPkt k.id).setCore c r.2).emit (.token tok (r.1.setWidth 128) 0#4)

/-- The request of a party of a peer that waits here is abandoned (05 R96, 10 R189). -/
def State.dropReq (s : State) (src tok : Nat) : State :=
  { s with net := s.net.filter fun x => ! (x.peer && x.srcCore == src && match x.body with | .tagop _ _ _ t | .sigw _ _ t => t == tok | _ => false) }

/-- An arrival of a peer on a barrier object (10 R191, R321): a departure is made on the object as the context has it, an arrival by
`barr` waits while the context is not resident. -/
def State.peerArrive (s : State) (k : Pkt) (a : Word) (dep ann : Bool) : State :=
  match s.peerWord k a with
  | none => s.refuse k (k.srcCore % 4096) a
  | some (c, off) =>
    if off % 16 ≠ 0 ∨ off < 0x80 then s.refuse k (k.srcCore % 4096) a
    else if ! dep ∧ s.away c k.ctx then s.holdPkt k.id
    else
      ((s.dropPkt k.id).updIn c k.ctx fun x => ((x.arrive off dep ann none).evalArmed off s.cyc).evalArmed (off + 8) s.cyc).emit
        (.token (k.srcCore % 4096) 0#128 0#4)

/-- PEER_ACCESS (20 R321): an access that a peer's packet brings is translated and performed here, answered, refused, or parks its
source; at a scratchpad whose context is not resident a load or a tagged operation waits, and a store while the log is full (18 R310). During
a checkpoint of the device it waits (24 R347). -/
def execPeerAccess (p : Nat) (s : State) : Out1 :=
  match s.pkt p with
  | none => .next s
  | some k =>
    if ! k.peer ∨ k.dev ≠ s.own ∨ s.sys.ckpting then .next s
    else
      match k.body with
      | .load a n tok =>
        .next (s.peerAcc k tok .load a n fun ps t =>
          if ps.any fun q => t.placeAway nCores k.ctx q.at_ then t.holdPkt p
          else ((t.touch ps).dropPkt p).emit (.token tok (BitVec.ofNat 128 (leNat (ps.map fun q => t.readAt q.at_ q.n).flatten)) 0#4))
      | .store a bs =>
        .next (s.peerAcc k (k.srcCore % 4096) .store a bs.length fun ps t =>
          if ps.any fun q => t.logStop k.ctx q.at_ then t.holdPkt p else
          (ps.foldl (fun (r : State × List Byte) q =>
            (r.1.storeTo q.at_ q.va (r.2.take q.n) k.dom k.ctx k.srcCore, r.2.drop q.n)) (t.dropPkt p, bs)).1.emit
              (.token (k.srcCore % 4096) 0#128 0#4))
      | .atomic op a n b e tok =>
        .next (s.peerAcc k tok .atomic a n fun ps t =>
          match ps with
          | q :: _ =>
            if t.placeAway nCores k.ctx q.at_ then t.holdPkt p else
            let r := ((t.dropPkt p).holdAt q).doAtomic q op b e
            r.2.emit (.token tok (r.1.setWidth 128) 0#4)
          | [] => t)
      | .fetch a n tok =>
        if viaAperture a then .next (s.refuse k tok a)
        else .next (s.peerAcc k tok .fetch a n fun ps t =>
          ((t.touch ps).dropPkt p).emit (.token tok (BitVec.ofNat 128 (leNat (ps.map fun q => t.readAt q.at_ q.n).flatten)) 0#4))
      | .tagop op a v tok => .next (s.peerTag k op a v tok)
      | .arrive a dep ann => .next (s.peerArrive k a dep ann)
      | .cancel tok =>
        .next (((s.dropPkt p).dropReq k.srcCore tok).emit (.withdrawn tok))
      | .sigw a v tok =>
        match s.peerWord k a with
        | none => .next (s.refuse k tok a)
        | some (c, off) =>
          let w := (s.core c).spWord off
          if s.expired (spEp c) (s.dtag k.dom) then .next ((s.dropPkt p).dropAt (spEp c))
          else if s.away c k.ctx ∨ ! sigOk w v ∨ s.olderWaits c off k.ctx k.id then .next (s.holdPkt p) else .next ((s.dropPkt p).emit (.token tok (w.setWidth 128) 0#4))
      | _ => .next s

end Sys2Proof.Machine
end

