-- ==== Sys2Proof/Machine/Host.lean ====
section
/-! DEFINITION. The host: accesses to device memory, registers, command queues, launches, completion records and interrupts (20
R328 to R335, 07 R121 to R124, 11 R206, 16 R284, 19 R313, 22 R337, 02 R28, R31). -/

namespace Sys2Proof.Machine

/-- Bytes wholly in the device virtual class (11 R194). -/
def dvaRange (a n : Nat) : Bool := decide (0x100000 ≤ a) && decide (a + n ≤ 0xFE000000000000)

/-! Host accesses and registers (R328, R329). -/

def State.hq (s : State) (q : Nat) : HQ := (tGet s.hub.hqs q).getD HQ.zero
def State.updHq (s : State) (q : Nat) (f : HQ → HQ) : State := s.updHub fun h => { h with hqs := tPut h.hqs q (f (s.hq q)) }

/-- What the host reads at an offset of a queue's registers (R329); TAIL and RESTART, which are written only, read as 0 (DESIGN CHOICE, log
entry 109). -/
def HQ.reg (h : HQ) (off : Nat) : Word :=
  match off with
  | 0x00 => h.rbase
  | 0x08 => h.rsize
  | 0x18 => h.head.setWidth 64
  | 0x20 => h.cbase
  | 0x28 => h.csize
  | 0x30 => h.erridx ++ 0#16 ++ h.err ++ 0#6 ++ BitVec.ofBool h.stop ++ BitVec.ofBool h.en
  | 0x38 => h.irq.setWidth 64
  | _ => 0#64

/-- HOST_MEMORY_ACCESS (R328, R329, 15 R265): device memory, a register of a command queue, or the host's own memory. An atomic of the host is performed whole, as on a page with SYSA = 1; the lost updates that R265
allows on other pages are not modelled (DESIGN CHOICE, log entry 92). -/
def execHostMemoryAccess (a : HostAcc) (s : State) : Out1 :=
  .next (match a with
    | .reg q off => s.emit (.hostRead (wordBytes ((s.hq q).reg off)))
    | .own a bs => { s with hostMem := Memory.write s.hostMem a bs }
    | .read pa n => s.emit (.hostRead (Memory.read s.mem pa n))
    | .write pa bs => s.writeAt (.dram pa) bs
    | .atomic pa op n b e =>
      let r := s.doAtomic ⟨0#64, .dram pa, n, .rc, true⟩ op b e
      r.2.emit (.hostRead (leBytes n r.1.toNat)))

def State.eth (s : State) (p : Nat) : Eth := (tGet s.hub.eths p).getD Eth.zero
def State.updEth (s : State) (p : Nat) (f : Eth → Eth) : State := s.updHub fun h => { h with eths := tPut h.eths p (f (s.eth p)) }
def State.updDbg (s : State) (c : Nat) (f : Dbg → Dbg) : State := s.upd c fun x => { x with dbg := f x.dbg }

/-- DOORBELL (R329): TAIL is written. -/
def execDoorbell (q : Nat) (tail : BitVec 32) (s : State) : Out1 := .next (s.updHq q fun h => { h with tail := tail })

/-- CTL_ENABLE (R329): EN is written. -/
def execCtlEnable (q : Nat) (en : Bool) (s : State) : Out1 := .next (s.updHq q fun h => { h with en := en })

/-- The front end takes packets now: not during a checkpoint, nor for 50 ms of a handover (24 R346, R347). -/
def State.feOpen (s : State) : Bool :=
  ! s.sys.ckpting && match s.sys.handover with | some t => decide (t + 60000000 ≤ s.cyc) | none => true

/-- CTL_RESTART (R332): the packet that stopped the queue is skipped, an INDIRECT packet with the rest of its buffer. HEAD does not advance
while the front end takes no packet (24 R346). -/
def execCtlRestart (q : Nat) (s : State) : Out1 :=
  .next (s.updHq q fun h =>
    if ! h.stop ∨ ! s.feOpen then h
    else if h.ibuf.isEmpty then { h with stop := false, head := h.head + 1#32 }
    else { h with stop := false, ibuf := [] })

/-- A field written with a mask, unless the queue is enabled (R329). -/
def HQ.ring (h : HQ) (f : HQ → HQ) : HQ := if h.en then h else f h

/-- A setting of a configuration record (24 R344): the pod's count (R319), a port map (R320), a port's block of domains (R326), a slot that
stands on its row's spare (18 R303). -/
def State.setting (s : State) : CfgSet → State
  | .podSize n own => s.updHub fun h => { h with podN := n, dev := own }
  | .portMap p dev src dst =>
    s.updPort p fun x => { x with map := (x.map.filter fun m => ! (m.1 == dev && m.2.1 == src)) ++ [(dev, src, dst)] }
  | .domBlock p lo n => s.updEth p fun e => { e with domLo := lo, domN := n }
  | .spare c =>
    if (s.core c).res.isSome ∨ (rowCores (rowOf c)).any fun k => (s.core k).phys == 8 then s else s.upd c fun x => { x with phys := 8 }

/-- A configuration record (24 R344): it is used if it verifies against the key that the running image certifies, and its version is at
least that of the record that it replaces; a failure to verify is reported. -/
def State.configure (s : State) (n : Nat) (version : BitVec 32) (digest : BitVec 256) (l : List CfgSet) : State :=
  if ! Config.verifies (Config.certified ((s.sys.image.map (·.digest)).getD 0#256)) digest ∨ s.sys.image.isNone then s.emit (.sideband 3 (BitVec.ofNat 64 n))
  else if ((tGet s.sys.recs n).map (·.1)).any fun v => decide (version < v) then s
  else l.foldl State.setting { s with sys := { s.sys with recs := tPut s.sys.recs n (version, digest) } }

/-- An item of a core's state as the debug module writes it (24 R340). -/
def Core.poke (c now aid : Nat) (i : DbgItem) (x : Core) : Core :=
  let tile (t : BitVec 4) (f : Tile → Tile) : Core := { x with sl := x.sl.setTile t (f (x.sl.tile t)) }
  let pend (rem : Nat) (t : WTgt) (fl : BitVec 5) : Core := { x with wpend := x.wpend ++ [⟨now + rem - 1, t, fl⟩] }
  match i with
  | .pc v => { x with pc := v }
  | .s r v => x.ws r v
  | .v r l w => { x with r := { x.r with v := x.r.v.set r.toNat ((x.rv r).setIfInBounds l.toNat w) r.isLt } }
  | .k r w => if r = 0#3 then x else { x with r := { x.r with k := x.r.k.set r.toNat w r.isLt } }
  | .q n l => { x.wq n l with qinfo := x.qinfo.set n.toNat (l.map fun _ => (0, 0)) n.isLt }
  | .corestat v => { x with c := { x.c with fl := v.extractLsb' 7 5, intrap := v.getLsbD 5, preq := v.getLsbD 4, txc := v.getLsbD 0 } }
  | .domain d i e => { x with c := { x.c with dom := ⟨d, i, e⟩ } }
  | .trap b k p v => { x with c := { x.c with intrap := b, cause := k, tpc := p, tval := v } }
  | .iter v => { x with c := { x.c with iter := v } }
  | .ckpttab v => { x with c := { x.c with ckpttab := v } }
  | .hbase v => { x with c := { x.c with hbase := v } }
  | .sp off bs => x.spWrite off bs
  | .tag off b => x.setTag off b
  | .bars l => { x with regsB := l }
  | .age n => { x with age := n }
  | .wiv n => { x with wReady := now + n }
  | .wbuf l => { x with wbuf := l.map fun e => ⟨e.1, e.2, x.pc, 0, none, aid⟩ }
  | .wpendV n r m l fl => pend n (.v r m (Vector.ofFn fun i => l.getD i.val 0#32)) fl
  | .wpendK n r m w fl => pend n (.k r m w) fl
  | .wpendQ n r w fl => pend n (.q r w aid) fl
  | .wpendNone => { x with wpend := [] }
  | .stream r n =>
    match tGet x.str (24 + r.toNat) with
    | some t => { x with str := tPut x.str (24 + r.toNat) { t with next := n, buf := [] } }
    | none => x
  | .cell t i w => { x with sl := x.sl.setCell t i w }
  | .header t d i e p st =>
    tile t fun h => { h with dom := ⟨d, i, e⟩, pnd := p, st := if st = 0#2 then .settled else if st = 1#2 then .published else if st = 2#2 then .derived else .poisoned }
  | .slot t n v k ld li p f q =>
    tile t fun h => { h with slots := h.slots.setIfInBounds n.toNat { (h.slots.toList.getD n.toNat Slot.zero) with
      v := v, coef := k, ldev := ld, lin := li, psn := p, fin := f, seq := q } }
  | .parts l => { x with sl := { x.sl with inbox := l.map fun p => ⟨p.1, p.2, x.c.dom, (x.act.map (·.task)).getD none, now, c, 0, x.res.getD 0#16, none⟩ } }
  | .ripple e v q a dd dc dt ds f =>
    let y := (tGet x.sl.rip e).getD { RipEnt.zero with uid := 64 * x.sl.ripGen + e }
    { x with sl := { x.sl with
        rip := if v then tPut x.sl.rip e { y with v := true, seq := q, ack := a, ddev := dd, dcore := dc, dtile := dt, dslot := ds, fin := f } else tDel x.sl.rip e
        ripGen := x.sl.ripGen + 1 } }
  | .armed i t thr src dst len sig k =>
    { x with armed := x.armed.zipIdx.map fun (a, n) =>
        if n = i then { a with trig := t, thr := thr, src := src, dst := dst, len := len, sig := sig, cmpl := k } else a }
  | .job i src dst it n =>
    { x with jobs := x.jobs.zipIdx.map fun (j, m) => if m = i then { j with src := src, dst := dst, iter := it, done := n } else j }
  | .msg q ix m => x.setIq q ((x.iq q).map fun e => if e.ix = ix then { e with m := m } else e)

/-- What the sideband reads (24 R349), with the number of its report. -/
def State.sbRead (s : State) : SbItem → Nat × Word
  | .temperature n => (10, Config.sensor (2 * n) s.cyc)
  | .power n => (11, Config.sensor (2 * n + 1) s.cyc)
  | .ptpLock => (1, if s.sys.locked then 1#64 else 0#64)
  | .linkDown p => (2, if (s.port p).down then 1#64 else 0#64)
  | .aged none => (12, BitVec.ofNat 64 s.hub.aged)
  | .aged (some p) => (12, BitVec.ofNat 64 (s.port p).aged)
  | .nodev p => (13, BitVec.ofNat 64 (s.port p).nodev)
  | .nomap p => (14, BitVec.ofNat 64 (s.port p).nomap)
  | .expd p => (15, BitVec.ofNat 64 (s.port p).expd)
  | .expdAt ep =>
    (16, BitVec.ofNat 64 (if ep < nCores then (s.core ep).expd else if ep = hubEp then s.hub.expd else (tGet s.hub.epExpd ep).getD 0))

/-- REGISTER_WRITE (R319, R320, R324, R327, R329, R331, R333, 18 R304, 11 R197, 24 R339 to R341, R344, R349): a register of the host or of
the firmware, a page-table entry, a frame of the fault service, a configuration record or the state of a halted core is written; the state
of a halted core, or an item of the sideband, is read. -/
def execRegisterWrite (r : FwReg) (s : State) : Out1 :=
  .next (match r with
    | .rbase q v => s.updHq q fun h => h.ring fun h => { h with rbase := v &&& 0xFFFFFFFFFFFFFFC0#64 }
    | .rsize q v => s.updHq q fun h => h.ring fun h => { h with rsize := v &&& 0x1FFFF#64 }
    | .cbase q v => s.updHq q fun h => h.ring fun h => { h with cbase := v &&& 0xFFFFFFFFFFFFFFE0#64 }
    | .csize q v => s.updHq q fun h => h.ring fun h => { h with csize := v &&& 0x1FFFF#64 }
    | .irq q v => s.updHq q fun h => { h with irq := v.setWidth 32 &&& 0xFFFF07FF#32 }
    | .flow p n f => s.updEth p fun e => { e with flow := tPut e.flow n ⟨f, ((tGet e.flow n).map (·.frames)).getD 0#64⟩ }
    | .egress p q ring size tv ctx => s.updEth p fun e => { e with eg := tPut e.eg q ⟨ring, size, tv, ctx, 0, 0, []⟩ }
    | .config n v d l => s.configure n v d l
    | .caps q l => s.updHq q fun h => { h with caps := l }
    | .planeAt dev port live =>
      s.updHub fun h => { h with deadAt := if live then h.deadAt.filter (· != (dev, port)) else (h.deadAt.filter (· != (dev, port))) ++ [(dev, port)] }
    | .coreRead c => if (s.core c).dbg.halted then s.emit (.coreState c (s.core c)) else s
    | .coreWrite c i => if (s.core c).dbg.halted then s.upd c fun x => x.poke c s.cyc s.nextId i else s
    | .sideband i => let r := s.sbRead i; s.emit (.sideband r.1 r.2)
    | .context c r =>
      s.updHub fun h => { h with ctxs := tPut h.ctxs c.toNat ⟨r, ((tGet h.ctxs c.toNat).map (·.htab)).getD []⟩ }
    | .traceRing c b z => s.updDbg c fun d => { d with trBase := b, trSize := z, trPos := 0 }
    | .bp c n v => s.updDbg c fun d => { d with bp := d.bp.setIfInBounds n.toNat v }
    | .wp c n v ld st => s.updDbg c fun d => { d with wp := d.wp.setIfInBounds n.toNat (v, ld, st) }
    | .dctlEn c b w => s.updDbg c fun d => { d with bpen := b, wpen := w }
    | .pte pa v => { s with mem := Memory.write s.mem pa (wordBytes v) }
    | .frame c va pa => s.updHub fun h => { h with frames := tPut h.frames (c.toNat * 2 ^ 64 + va.toNat / 65536 * 65536) pa })

/-! Completion records and interrupts (R334, R335). -/

/-- The interrupt of a queue. -/
def State.raise (s : State) (q : Nat) : State :=
  (s.emit (.msix ((s.hq q).irq.extractLsb' 0 11).toNat)).updHq q fun h => { h with pend := 0 }

/-- Writes a completion record into the host's memory, and raises the interrupt when CNT records are pending. A field that does not apply is 0 (DEDUCED
from the record of 21). -/
def State.complete (s : State) (q pidx code field ridx nfail : Nat) (dom : Dom) : State :=
  let h := s.hq q
  let b : List Byte := leBytes 8 pidx ++ leBytes 2 code ++ leBytes 2 field ++ leBytes 4 nfail ++ leBytes 4 ridx ++ leBytes 2 dom.toNat ++
    leBytes 2 0 ++ wordBytes s.nowW
  let a := h.cbase.toNat + 32 * (h.cpos % h.csize.toNat)
  let s := ({ s with hostMem := Memory.write s.hostMem a b }.emit (.host a b)).updHq q fun h =>
    { h with cpos := h.cpos + 1, pend := h.pend + 1, pendAt := if h.pend = 0 then s.cyc else h.pendAt }
  if max 1 (h.irq.extractLsb' 16 16).toNat ≤ h.pend + 1 then s.raise q else s

/-- IRQ_COALESCE_TIMEOUT (R335): the oldest pending record has waited 24,000 cycles. -/
def execIrqCoalesceTimeout (q : Nat) (s : State) : Out1 :=
  let h := s.hq q
  .next (if 0 < h.pend ∧ h.pendAt + 24000 ≤ s.cyc then s.raise q else s)

/-! Acceptance (R330 to R332). -/

/-- The front end takes packets of the queue. -/
def State.accepts (s : State) (q : Nat) : Bool := (s.hq q).en && ! (s.hq q).stop && s.feOpen

/-- A packet in the host's memory: 64 bytes, read as one line (R330). -/
def State.hostPkt (s : State) (a : Nat) : BitVec 512 := BitVec.ofNat 512 (leNat (Memory.read s.hostMem a 64))

/-- Packet k of the command ring of a queue (R329). -/
def State.ringPkt (s : State) (q k : Nat) : BitVec 512 := s.hostPkt ((s.hq q).rbase.toNat + 64 * (k % (s.hq q).rsize.toNat))

/-- The packet that comes next in a queue, if one does (R330, R332). -/
def State.nextPkt (s : State) (q : Nat) : Option (BitVec 512) :=
  let h := s.hq q
  match h.ibuf with
  | p :: _ => some p
  | [] => if h.head = h.tail then none else some (s.ringPkt q h.head.toNat)

/-- Accepts a packet, the one that comes next, from the buffer of an INDIRECT packet or from the ring: its index, and the state after. A
packet of a buffer has the index of its INDIRECT packet. -/
def State.accept (s : State) (q : Nat) (pk : BitVec 512) : Option (Nat × State) :=
  let h := s.hq q
  if ! s.accepts q ∨ s.nextPkt q ≠ some pk then none
  else
    match h.ibuf with
    | _ :: r => some ((h.head - 1#32).toNat, s.updHq q fun h => { h with ibuf := r })
    | [] => some (h.head.toNat, s.updHq q fun h => { h with head := h.head + 1#32 })

/-- Bytes of a packet as a number. -/
def pkN (pk : BitVec 512) (o n : Nat) : Nat := pk.toNat / 2 ^ (8 * o) % 2 ^ (8 * n)

/-- NOP_PACKET (R331, R332). -/
def execNopPacket (q : Nat) (pk : BitVec 512) (s : State) : Out1 :=
  match s.accept q pk with
  | none => .next s
  | some (i, s) => .next (if pkN pk 1 63 = 0 then s.complete q i 0 0 0 0 0#16 else s.complete q i 1 1 0 0 0#16)

/-- The capability of a queue covers a range of host addresses (R331): the command ring, the completion ring, and the windows that the
operator has configured. -/
def HQ.covers (h : HQ) (a n : Nat) : Bool :=
  ((h.rbase.toNat, 64 * h.rsize.toNat) :: (h.cbase.toNat, 32 * h.csize.toNat) :: h.caps).any fun w => decide (w.1 ≤ a) && decide (a + n ≤ w.1 + w.2)

/-- The 64 bytes of an INDIRECT packet (R332): the opcode with its reserved bytes, the host address, and the rest, the length first. -/
def pkJoin (op : BitVec 64) (hadr : Word) (rest : BitVec 384) : BitVec 512 := rest ++ (hadr ++ op)

/-- INDIRECT (R331, R332): the buffer is copied, unless a field is out of bounds or the packet stands in a buffer itself. -/
def execIndirect (q : Nat) (op : BitVec 64) (hadr : Word) (rest : BitVec 384) (s : State) : Out1 :=
  let pk := pkJoin op hadr rest
  let a := pkN pk 8 8
  let n := pkN pk 16 4
  let bad : Option Nat :=
    if ! (s.hq q).ibuf.isEmpty then some 0
    else if pkN pk 1 7 ≠ 0 then some 1
    else if a % 64 ≠ 0 ∨ ! (s.hq q).covers a n then some 8
    else if n % 64 ≠ 0 ∨ n < 64 ∨ n > 65536 then some 16
    else if pkN pk 20 44 ≠ 0 then some 20
    else none
  match s.accept q pk with
  | none => .next s
  | some (i, t) =>
    match bad with
    | some f => .next (t.complete q i 1 f 0 0 0#16)
    | none => .next ((t.updHq q fun h => { h with ibuf := (List.range (n / 64)).map fun k => s.hostPkt (a + 64 * k) }).complete q i 0 0 0 0 0#16)

/-- ANNUL (R332, 08 R154). -/
def execAnnul (q : Nat) (pk : BitVec 512) (s : State) : Out1 :=
  let d : Dom := pk.extractLsb' 64 16
  let e := s.dom d
  let dead : Bool := d == 0#16 || e.st != .live || e.ctx != pk.extractLsb' 32 16
  let bad : Option Nat :=
    if pkN pk 1 3 ≠ 0 then some 1 else if pkN pk 6 2 ≠ 0 then some 6 else if pkN pk 10 54 ≠ 0 then some 10 else none
  match s.accept q pk with
  | none => .next s
  | some (i, s) =>
    match bad with
    | some f => .next (s.complete q i 1 f 0 0 0#16)
    | none => .next (if dead then s.complete q i 6 0 0 0 0#16 else (s.annulAny d).complete q i 0 0 0 0 0#16)

/-- QUEUE_STOP (R332): an unknown opcode stops the queue. -/
def execQueueStop (q : Nat) (pk : BitVec 512) (s : State) : Out1 :=
  let h := s.hq q
  let stop (ix : BitVec 32) : State := s.updHq q fun h => { h with stop := true, err := pk.extractLsb' 0 8, erridx := ix }
  .next (if ! s.accepts q ∨ s.nextPkt q ≠ some pk then s else stop (if h.ibuf.isEmpty then h.head else h.head - 1#32))

/-! The checks of a LAUNCH packet (R331, R333). -/

/-- A launch's entry of the handler list (07 R124), in the form of a bind, with its index and BIND. -/
structure HLent where
  hix : BitVec 8
  bind : Bool
  nb : NBind
  ok : Bool
deriving DecidableEq, Repr

/-- A region-list entry (R333). -/
structure Reg1 where
  src : Nat
  dst : Nat
  len : Nat
  empty : Bool
  dram : Bool
  ok : Bool
deriving DecidableEq, Repr

def lCtx (pk : BitVec 512) : Ctx := pk.extractLsb' 16 16
def lFirst (pk : BitVec 512) : Nat := pkN pk 4 2
def lCount (pk : BitVec 512) : Nat := pkN pk 6 2
def lGraph (pk : BitVec 512) : Nat := pkN pk 8 8
def lCimg (pk : BitVec 512) : Nat := pkN pk 16 8
def lInst (pk : BitVec 512) : Word := pk.extractLsb' 192 64
def lRlist (pk : BitVec 512) : Nat := pkN pk 32 8
def lNrg (pk : BitVec 512) : Nat := pkN pk 44 4

/-- The first field outside its limits (R331, R333). -/
def State.launchField (s : State) (pk : BitVec 512) : Option Nat :=
  if pkN pk 1 1 ≠ 0 then some 1
  else if (tGet s.hub.ctxs (lCtx pk).toNat).isNone then some 2
  else if lFirst pk > 4095 then some 4
  else if lCount pk < 1 ∨ lCount pk > 4096 then some 6
  else if lGraph pk % 64 ≠ 0 ∨ ! dvaRange (lGraph pk) 64 then some 8
  else if lCimg pk ≠ 0 ∧ (lCimg pk % 64 ≠ 0 ∨ ! dvaRange (lCimg pk) 1920) then some 16
  else if lNrg pk ≠ 0 ∧ lNrg pk ≤ 1024 ∧ ! dvaRange (lRlist pk) (32 * lNrg pk) then some 32
  else if pkN pk 40 4 ≠ 0 then some 40
  else if lNrg pk > 1024 then some 44
  else if pkN pk 48 16 ≠ 0 then some 48
  else none

/-- Bytes of a list as a number. -/
def bN (b : List Byte) (o n : Nat) : Nat := leNat ((b.drop o).take n)

/-- Chunks of a list of bytes. -/
def chunks (n : Nat) (b : List Byte) (k : Nat) : List (List Byte) := (List.range k).map fun i => (b.drop (n * i)).take n

/-- The ranges of a record. -/
def recFps (r : List Byte) (n : Nat) : List (BitVec 128) := (chunks 16 (r.drop 64) n).map fun b => BitVec.ofNat 128 (leNat b)

/-- A record of a graph keeps R123 and R206. -/
def recOk (i : Nat) (r : List Byte) : Bool :=
  let nfp := bN r 10 1
  let naft := bN r 11 1
  bN r 8 2 / 2048 == 0 && decide (nfp ≤ 8) && decide (naft ≤ 4) && bN r 12 4 == 0 && bN r 56 8 == 0 &&
    ((List.range naft).all fun k => decide (bN r (48 + 2 * k) 2 < i)) && (recFps r nfp).all fpOk &&
    (r.drop (64 + 16 * nfp)).all (· == 0#8)

/-- A record in the Wellhead (R125, R129). -/
def recNew (s : State) (dom : DTag) (r : List Byte) : Rec :=
  let w : BitVec 16 := BitVec.ofNat 16 (bN r 8 2)
  ⟨BitVec.ofNat 64 (bN r 0 8), w.extractLsb' 0 8, w.extractLsb' 8 2, w.getLsbD 10,
    (List.range 4).map fun k => BitVec.ofNat 64 (bN r (16 + 8 * k) 8), recFps r (bN r 10 1),
    (List.range (bN r 11 1)).map fun k => bN r (48 + 2 * k) 2, 0#64, dom, .waiting, s.cyc, [], false, none⟩

/-- An entry of the handler list (07 R124 step 1). -/
def hlEnt (b : List Byte) : HLent :=
  let key : Word := BitVec.ofNat 64 (bN b 0 8)
  ⟨BitVec.ofNat 8 (bN b 16 1), bN b 18 1 % 2 == 1,
    ⟨key, BitVec.ofNat 64 (bN b 8 8), BitVec.ofNat 32 (bN b 20 4), 0xFFFFFFFF#32, BitVec.ofNat 64 (bN b 24 8), 0#32⟩,
    key != 0#64 && bN b 17 1 == 0 && decide (bN b 18 1 < 2) && bN b 19 1 == 0⟩

/-- A region-list entry by itself (R333). -/
def regEnt (b : List Byte) : Reg1 :=
  let src := bN b 0 8
  let dst := bN b 8 8
  let len := bN b 16 4
  let tag := bN b 20 1
  let pl := bN b 21 1
  ⟨src, dst, len, tag == 1, pl == 1,
    decide (len ≠ 0) && len % 8 == 0 && decide (src + len ≤ dramBytes) && (b.drop 22).all (· == 0#8) &&
      ((pl == 0 && decide (tag ≤ 1) && decide (0x800 ≤ dst) && decide (dst + len ≤ 0x80000)) || (pl == 1 && tag == 0 && dvaRange dst len))⟩

/-- Index of the first entry that fails a test that looks at the earlier ones. -/
def firstBad {α : Type} (bad : List α → α → Bool) : List α → List α → Nat → Option Nat
  | _, [], _ => none
  | seen, x :: r, i => if bad seen x then some i else firstBad bad (seen ++ [x]) r (i + 1)

def hlBad (seen : List HLent) (e : HLent) : Bool := ! e.ok || seen.any fun x => x.hix == e.hix || x.nb.key == e.nb.key
def regBad (seen : List Reg1) (e : Reg1) : Bool :=
  ! e.ok || seen.any fun x => x.dram == e.dram && decide (x.dst < e.dst + e.len) && decide (e.dst < x.dst + x.len)

/-- The table entry of the index holds another key that a running launch of the context uses (07 R124 step 2). -/
def State.hlUsed (s : State) (ctx : Ctx) (e : HLent) : Bool :=
  match (tGet s.hub.ctxs ctx.toNat).bind fun k => tGet k.htab e.hix.toNat with
  | some h => h.key != e.nb.key && s.hub.launches.any fun l => ! l.2.done && l.2.ctx == ctx && l.2.keys.contains (e.hix, h.key)
  | none => false

/-- What the checks of a launch give: it waits for a frame, is refused with a code, RIDX and FIELD, or goes on with its records,
handler list, regions and constants. -/
inductive LRes where
  | wait
  | no (code ridx field : Nat)
  | go (recs : List (List Byte)) (hl : List HLent) (regs : List Reg1) (cimg : List Byte)
deriving DecidableEq, Repr

/-- All checks of a launch that are made before anything changes (R331, R333). Their order: DESIGN CHOICE, log entry 61. -/
def State.launchCheck (s : State) (pk : BitVec 512) : LRes :=
  match s.launchField pk with
  | some f => .no 1 0 f
  | none =>
    let ctx := lCtx pk
    match s.feRead ctx (lGraph pk) 64 with
    | none => .wait
    | some h =>
      let nrec := bN h 0 4
      let nh := bN h 4 2
      let hl := bN h 8 8
      let ok := bN h 6 2 == 0 && (h.drop 16).all (· == 0#8) && decide (nrec ≤ 65536) && decide (nh ≤ 256) && hl % 32 == 0 &&
        (nh == 0 || dvaRange hl (32 * nh)) && dvaRange (lGraph pk) (64 + 192 * nrec)
      if ! ok then .no 2 0 0
      else
        match s.feRead ctx (lGraph pk + 64) (192 * nrec), s.feRead ctx hl (32 * nh), s.feRead ctx (lRlist pk) (32 * lNrg pk),
            (if lCimg pk = 0 then some (List.replicate 1920 0#8) else s.feRead ctx (lCimg pk) 1920) with
        | some g, some hb, some rb, some ci =>
          let recs := chunks 192 g nrec
          let hs := (chunks 32 hb nh).map hlEnt
          let rs := (chunks 32 rb (lNrg pk)).map regEnt
          match ((List.range nrec).zip recs).find? fun p => ! recOk p.1 p.2 with
          | some p => .no 2 p.1 0
          | none =>
            match firstBad hlBad [] hs 0 with
            | some i => .no 2 i 0
            | none =>
              match firstBad regBad [] rs 0 with
              | some i => .no 2 i 0
              | none =>
                if lFirst pk + lCount pk > nCores ∨ (List.range (lCount pk)).any fun i => (s.core (lFirst pk + i)).phys == 9 then .no 3 0 0
                else if lInst pk ≠ 0#64 ∧ ! s.inRange (lInst pk) then .no 4 0 0
                else if lInst pk ≠ 0#64 ∧ s.freeOrd = none then .no 5 0 0
                else
                  match ((List.range nh).zip hs).find? fun p => s.hlUsed ctx p.2 with
                  | some p => .no 8 p.1 0
                  | none => .go recs hs rs ci
        | _, _, _, _ => .wait

/-! The binds of a launch (07 R124 steps 3 and 4, 14 R260, R262). -/

/-- Outcome of the binds. -/
inductive LBind where
  | wait
  | no (i : Nat) (s : State)
  | ok (s : State)
deriving DecidableEq, Repr

/-- A layout record (12 R209). -/
def State.feRec (s : State) (ctx : Ctx) (a : Nat) : Option (List Byte) :=
  match s.feRead ctx a 128 with
  | some r => if recSz r then s.feRead ctx a 256 else some r
  | none => none

/-- Binds the unbound names of a list, in order. -/
def launchBinds (ctx : Ctx) : List HLent → Nat → State → LBind
  | [], _, s => .ok s
  | e :: r, i, s =>
    if ! e.bind ∨ (s.bound ctx e.nb.key).isSome then launchBinds ctx r (i + 1) s
    else if e.nb.binds ∧ ! e.nb.objOk then .no i s
    else
      match (if e.nb.binds then s.feRec ctx e.nb.lrec.toNat else some []) with
      | none => .wait
      | some b =>
        if e.nb.binds ∧ ! (recSealed b && recShaped b) then .no i s
        else
          match s.bindAll ctx DTag.imm [{ e.nb with ver := BitVec.ofNat 32 (bN b 0 4) }] with
          | (none, t) => launchBinds ctx r (i + 1) t
          | (some _, _) => .no i s

/-- The table entries of a list. -/
def State.tableEntries (s : State) (ctx : Ctx) (l : List HLent) : State :=
  l.foldl (fun (s : State) e =>
    s.setHEnt ctx e.hix.toNat (match s.bound ctx e.nb.key with
      | some b => ⟨e.nb.key, true, b.base⟩
      | none => ⟨e.nb.key, false, 0#64⟩)) s

/-! Regions and constants (R333, 02 R28, R31, 16 R284, 22 R337). -/

/-- c0 to c15 of a core (02 R28). -/
def State.idWords (s : State) (c first ncore graph : Nat) (launch : Word) : List Byte :=
  let p := if (s.core c).phys = 8 then 8 else c % 8
  ([c, c % 8, c / 8 % 8, c / 64 % 16, c / 1024, s.own].flatMap fun n => leBytes 8 n) ++ wordBytes launch ++
    ([48, 32, 48, graph, ncore, c - first, p].flatMap fun n => leBytes 8 n) ++ wordBytes s.nowW ++ leBytes 8 0

/-- A region's contents and tags stand in a scratchpad. -/
def Core.putRegion (x : Core) (off : Nat) (bs : List Byte) (empty : Bool) : Core :=
  (List.range ((bs.length + 7) / 8)).foldl (fun (x : Core) i => x.setTag (off + 8 * i) (! empty)) (x.spWrite off bs)

/-- Nothing of a context is under way on the core. -/
def Core.quiet (x : Core) : Bool :=
  (x.stat == .idle || x.stat == .out) && x.act.isNone && x.inbox.toList.all List.isEmpty && x.jobs.isEmpty && x.armed.isEmpty &&
    x.sl.inbox.isEmpty && x.sl.cur.isNone

/-- A launch reaches one of its cores: window, regions, AGE; every word outside the regions is full (02 R31). The core runs the
context from here on; it is resident where the core has no other. -/
def State.launchCore (s : State) (c : Nat) (ctx : Ctx) (l : Nat) (win : List Byte) (rs : List (Nat × List Byte × Bool)) : State :=
  let x := s.core c
  let free := match x.res with
    | none => true
    | some k => x.quiet && ! x.runs.any fun r => r.1 == k
  let s :=
    if x.res = some ctx ∨ s.away c ctx then s
    else if free then s.upd c fun x => { x with res := some ctx, stat := if x.stat = .out then .idle else x.stat }
    else s.updHub fun h => { h with saves := tPut h.saves (saveKey ctx c) (saveNew ctx) }
  let s := s.updIn c ctx fun y =>
    let y := { y with age := 0, empties := [] }
    rs.foldl (fun (y : Core) r => y.putRegion r.1 r.2.1 r.2.2) (y.spWrite 0 win)
  s.upd c fun x => { x with runs := x.runs ++ [(ctx, l)] }

/-- The `dram` regions are copied into the frames of their pages (R333, 19 R313); none while a page has no frame. -/
def dramRegions (ctx : Ctx) : List Reg1 → State → Option State
  | [], s => some s
  | r :: t, s =>
    if r.dram then
      match feWrite ctx (Memory.read s.mem r.src r.len) r.dst s with
      | some s => dramRegions ctx t s
      | none => none
    else dramRegions ctx t s

/-- The pages of a context's handler table that a list needs have frames (07 R121); a context without a table in the device virtual class
has none (log entry 25). -/
def State.tableReady (s : State) (ctx : Ctx) (l : List HLent) : Bool :=
  let b := (((tGet s.hub.ctxs ctx.toNat).map (·.record.hbase)).getD 0#64).toNat
  ! dvaRange b 4096 || l.all fun e => (s.fePlace ctx (b + 16 * e.hix.toNat)).isSome

/-- LAUNCH (R333): a packet whose pages have no frames yet, or whose handler table has none (07 R121), is not accepted yet. -/
def execLaunch (q : Nat) (pk : BitVec 512) (s : State) : Out1 :=
  match s.accept q pk with
  | none => .next s
  | some (i, t) =>
    let ctx := lCtx pk
    match t.launchCheck pk with
    | .wait => .next s
    | .no code ridx field => .next (t.complete q i code field ridx 0 0#16)
    | .go recs hl rs ci =>
      if ! t.tableReady ctx hl then .next s else
      match launchBinds ctx hl 0 t with
      | .wait => .next s
      | .no k t => .next (t.complete q i 2 0 k 0 0#16)
      | .ok t =>
        match dramRegions ctx rs t with
        | none => .next s
        | some t =>
          let d : Dom := if lInst pk = 0#64 then 0#16 else t.freeOrd.getD 0#16
          let t := if d = 0#16 then t else t.setDom d (newDom (lInst pk) .ord ctx)
          let t := t.tableEntries ctx hl
          let l := t.nextId
          let sps := (rs.filter fun r => ! r.dram).map fun r => (r.dst, Memory.read t.mem r.src r.len, r.empty)
          let lid : Word := BitVec.ofNat 64 (q * 2 ^ 32 + i)
          let t := (List.range (lCount pk)).foldl (fun (t : State) k =>
            let c := lFirst pk + k
            t.launchCore c ctx l (t.idWords c (lFirst pk) (lCount pk) (lGraph pk) lid ++ ci) sps) t.fresh
          let x : Launch :=
            ⟨q, i, ctx, t.tagOf d, lFirst pk, lCount pk, BitVec.ofNat 64 (lGraph pk), hl.map fun e => (e.hix, e.nb.key),
              recs.map (recNew t (t.tagOf d)), false, none, false, (rs.filter fun r => ! r.dram).map fun r => (r.dst, r.len)⟩
          .next (t.updHub fun h => { h with launches := tPut h.launches l x })

/-! Completion of a launch (R334, 22 R337). -/

/-- The core runs the launch no more; a context that it runs no more is not resident once nothing of it is under way. -/
def Core.leaveRun (x : Core) (ctx : Ctx) (l : Nat) : Core :=
  let runs := x.runs.filter fun r => r != (ctx, l)
  { x with runs := runs, res := if x.res = some ctx ∧ x.quiet ∧ ! runs.any fun r => r.1 == ctx then none else x.res }

/-- The record is complete, has failed or is discarded. -/
def Rec.over (y : Rec) : Bool := y.st == .done || y.st == .failed || y.st == .discarded

/-- LAUNCH_COMPLETE (R334): every record is done, has failed or is discarded; the record is written, and the cores run the launch no more. -/
def execLaunchComplete (l : Nat) (s : State) : Out1 :=
  match s.launchOf l with
  | none => .next s
  | some x =>
    if x.done ∨ ! x.recs.all Rec.over then .next s
    else
      let nf := (x.recs.filter fun r => r.st == .failed || r.st == .discarded).length
      let s := s.complete x.q x.pidx (if x.ann then 7 else 0) 0 (x.firstFail.getD 0) nf x.dom.id
      let cs := (List.range x.ncore).map fun i => x.first + i
      let s := cs.foldl (fun (s : State) c => s.upd c fun y => y.leaveRun x.ctx l) s
      let gone (p : Nat × Save) : Bool :=
        p.2.ctx == x.ctx && cs.contains (p.1 % 4096) && p.2.core.quiet && p.2.log.isEmpty &&
          ! (s.core (p.1 % 4096)).runs.any fun r => r.1 == x.ctx
      .next (s.updHub fun h =>
        { h with launches := tPut h.launches l { x with done := true }, saves := h.saves.filter fun p => ! gone p })

end Sys2Proof.Machine
end

