-- ==== Sys2Proof/Machine/Ether.lean ====
section
/-! DEFINITION. The Ethernet ports: steering, delivery, held frames, egress (20 R323 to R327); time (R315). -/

namespace Sys2Proof.Machine

/-! Fields of a frame. PRESUMED from IEEE 802.3, 802.1Q and IP, log entry 65: protocol fields stand in network byte order. -/

/-- `n` bytes as a number, first byte highest. -/
def netN (f : List Byte) (o n : Nat) : Nat := ((f.drop o).take n).foldl (fun a b => a * 256 + b.toNat) 0

/-- The frame has a VLAN tag. -/
def fTagged (f : List Byte) : Bool := netN f 12 2 == 0x8100
def fType (f : List Byte) : Nat := if fTagged f then netN f 16 2 else netN f 12 2
/-- Where the IP header begins. -/
def fIp (f : List Byte) : Nat := if fTagged f then 18 else 14
/-- The IP protocol, if the frame carries IP. -/
def fProto (f : List Byte) : Option Nat :=
  if fType f = 0x0800 then some (netN f (fIp f + 9) 1) else if fType f = 0x86DD then some (netN f (fIp f + 6) 1) else none
/-- The destination port of UDP or TCP. -/
def fPort (f : List Byte) : Option Nat :=
  match fProto f with
  | some p =>
    if p = 6 ∨ p = 17 then some (netN f (fIp f + (if fType f = 0x0800 then netN f (fIp f) 1 % 16 * 4 else 40) + 2) 2) else none
  | none => none

/-- A valid entry whose enabled fields all match (R324). -/
def flowTakes (e : FlowRec) (f : List Byte) : Bool :=
  e.msk.getLsbD 5 &&
    (! e.msk.getLsbD 0 || netN f 0 6 == e.dmac.toNat) &&
    (! e.msk.getLsbD 1 || fType f == e.etype.toNat) &&
    (! e.msk.getLsbD 2 || (fTagged f && netN f 14 2 % 4096 == e.vid.toNat)) &&
    (! e.msk.getLsbD 3 || fProto f == some e.ipp.toNat) &&
    (! e.msk.getLsbD 4 || fPort f == some e.l4dst.toNat)

/-- The next number of a stream of a port, and the port after it is taken (07 R131). A message that belongs to no stream has a number that
the spec does not state. -/
def Eth.takeSeq (e : Eth) (stag : BitVec 16) (n : Nat) : BitVec 16 × Eth :=
  if stag = 0#16 then (Config.freeSeq n, e)
  else
    let q := (tGet e.seqs stag.toNat).getD 0#16
    (q, { e with seqs := tPut e.seqs stag.toNat (q + 1#16) })

/-- The message that announces a frame (R325). -/
def State.frameMsg (s : State) (port n : Nat) (e : FlowRec) (d : Dom) (seq : BitVec 16) (slot : Word) (len : Nat) (i : Word) : Msg :=
  let t := s.tagOf d
  let txc := ((tGet s.hub.ctxs e.ctx.toNat).map (·.record.txc)).getD false
  ⟨e.hnd, false, t.ext, txc, t.id, t.inst, BitVec.ofNat 32 s.cyc, BitVec.ofNat 12 (0xF02 + port), s.hub.dev, e.stag,
    seq, 0#64, slot, s.nowW, BitVec.ofNat 64 (len + n * 2 ^ 16 + port * 2 ^ 32), i⟩

/-- The frames held for a queue of a core. -/
def Eth.heldFor (e : Eth) (core : Nat) (q : BitVec 2) : Bool :=
  e.held.any fun k => match k.body with | .msg c q' _ _ _ _ _ => c == core && q' == q | _ => false

/-- The queue of the core has no room for the next frame (R326). -/
def State.noRoom (s : State) (ctx : Ctx) (core : Nat) (q : BitVec 2) : Bool :=
  (s.core core).res == some ctx && (freeSlots ((s.core core).iq q)).isEmpty

/-- FRAME_RECEIVE (R323 to R326): a frame without its FCS, which the argument says is right. One whose consumer word or slot has no
frame of memory yet is not taken yet. -/
def execFrameReceive (port : Nat) (f : List Byte) (fcs : Bool) (s : State) : Out1 :=
  let n := f.length
  if n < 60 ∨ 9212 < n then .next s
  else if ! fcs then .next (s.updEth port fun e => { e with fcs := e.fcs + 1 })
  else
    let eth := s.eth port
    match eth.flow.find? fun p => flowTakes p.2.f f with
    | none => .next (s.updEth port fun e => { e with noMatch := e.noMatch + 1 })
    | some (ix, w) =>
      let e := w.f
      let i := w.frames
      match s.feRead e.ctx e.cons.toNat 8 with
      | none => .next s
      | some cb =>
        let s1 := s.updEth port fun x => { x with flow := tPut x.flow ix { w with frames := i + 1#64 } }
        let q := e.q
        let core := e.core.toNat
        let wait := eth.heldFor core q || s.noRoom e.ctx core q
        if (i - bytesWord cb).toNat ≥ e.nslot.toNat ∨ (wait ∧ eth.held.length ≥ 64) then
          .next (s1.updEth port fun x => { x with full := x.full + 1 })
        else if n > 2 ^ e.slog.toNat then .next (s1.updEth port fun x => { x with oversize := x.oversize + 1 })
        else
          match (if e.budget = 0#32 then some 0#16 else s1.freeDom eth.domN eth.domLo) with
          | none => .next (s1.updEth port fun x => { x with nodom := x.nodom + 1 })
          | some d =>
            let s2 := if d = 0#16 then s1 else s1.setDom d (newDom (s1.nowW + e.budget.setWidth 64) .ord e.ctx)
            let slot := e.ring + BitVec.ofNat 64 (i.toNat % e.nslot.toNat * 2 ^ e.slog.toNat)
            match feWrite e.ctx f slot.toNat s2 with
            | none => .next s
            | some s3 =>
              let r := (s3.eth port).takeSeq e.stag s3.nextId
              let s3 := s3.updEth port fun _ => r.2
              let m := s3.frameMsg port ix e d r.1 slot n i
              let k : Pkt := ⟨s3.nextId, s3.own, .msg core q m none nCores 0 0, msgTag m, e.ctx, nCores, false, s3.cyc, e.stag, wait, none⟩
              let s4 := s3.fresh
              .next (if wait then s4.updEth port fun x => { x with held := x.held ++ [k] } else { s4 with net := s4.net ++ [k] })

/-- FRAME_HELD_RELEASE (R326): the first held frame whose queue has room goes on. -/
def execFrameHeldRelease (port : Nat) (s : State) : Out1 :=
  let room (k : Pkt) : Bool := match k.body with
    | .msg c q _ _ _ _ _ => ! s.noRoom k.ctx c q
    | _ => true
  match (s.eth port).held.find? room with
  | none => .next s
  | some k =>
    .next { s.updEth port fun x => { x with held := x.held.filter fun y => y.id != k.id } with net := s.net ++ [{ k with held := false }] }

/-- The descriptors that a TAIL value newly hands over: those between the port's head and it, at most the whole ring (DESIGN CHOICE, log entry
65: TAIL counts descriptors), without those handed over before. -/
def State.descs (s : State) (g : Egress) (tail : Nat) : Option (List (List Byte)) :=
  ((List.range (min ((tail + 2 ^ 64 - g.head % 2 ^ 64) % 2 ^ 64) g.size.toNat)).drop g.desc.length).mapM fun i =>
    s.feRead g.ctx (g.ring.toNat + 32 * ((g.head + i) % g.size.toNat)) 32

/-- EGRESS_TAIL_WRITE (R327): the port reads TAIL and the descriptors that it hands over. -/
def execEgressTailWrite (port q : Nat) (s : State) : Out1 :=
  match tGet (s.eth port).eg q with
  | none => .next s
  | some g =>
    match s.feRead g.ctx g.tailVa.toNat 8 with
    | none => .next s
    | some b =>
      match s.descs g (leNat b) with
      | none => .next s
      | some l => .next (s.updEth port fun x => { x with eg := tPut x.eg q { g with tail := leNat b, desc := g.desc ++ l } })

/-- TAIL holds another value than the port has read. -/
def State.tailMoved (s : State) (g : Egress) : Bool :=
  match s.feRead g.ctx g.tailVa.toNat 8 with
  | none => false
  | some b => leNat b != g.tail

/-- FRAME_TRANSMIT (R327): the frame of the next descriptor that a TAIL store has handed over is sent, or refused for its instant or its length; ST and TXS are written. -/
def execFrameTransmit (port q : Nat) (s : State) : Out1 :=
  match tGet (s.eth port).eg q with
  | none => .next s
  | some g =>
    match g.desc with
    | [] => .next s
    | b :: r =>
        let a := g.ring.toNat + 32 * (g.head % g.size.toNat)
        let inst : Word := BitVec.ofNat 64 (bN b 16 8)
        let len := bN b 8 2
        let fin (st : BitVec 2) (s : State) : Out1 :=
          match feWrite g.ctx (wordBytes (st ++ s.nowW.extractLsb' 0 62)) (a + 24) s with
          | some s => .next (s.updEth port fun x => { x with eg := tPut x.eg q { g with head := g.head + 1, desc := r } })
          | none => .next s
        if inst ≠ 0#64 ∧ inst ≤ s.nowW then fin 2#2 s
        else if len < 60 ∨ 9212 < len then fin 3#2 s
        else
          match s.feRead g.ctx (bN b 0 8) len with
          | none => .next s
          | some f => fin 1#2 (s.emit (.frame port f))

/-- PTP_LOCK_CHANGE (R315, R349): loss and recovery of lock are reported; NOW may step forward once, at the first lock. The
corrections after it are slewed (`State.tick`). -/
def execPtpLockChange (lock : Bool) (adv : Nat) (s : State) : Out1 :=
  let y := s.sys
  if lock = y.locked then .next s
  else
    let s1 := { s with
      now := if lock ∧ ! y.everLocked then s.now + adv else s.now
      sys := { y with locked := lock, everLocked := y.everLocked || lock, lostAt := if lock then y.lostAt else s.now } }
    .next (s1.emit (.sideband 1 (if lock then 1#64 else 0#64)))

end Sys2Proof.Machine
end

