-- ==== Sys2Proof/Machine/Link.lean ====
section
/-! DEFINITION. Rintur links: flits, acknowledgement, resending, planes that go down and come back (20 R316, R317). -/

namespace Sys2Proof.Machine

/-- A sequence number stands before another. -/
def seqBefore (a b : BitVec 16) : Bool := decide (0 < (b - a).toNat) && decide ((b - a).toNat < 32768)

/-- What the far end says of the flits of a port (R317): those before the one it expects next leave the retry buffer, and a refusal after a
resend makes that resend one that failed. -/
def Port.answered (p : Port) (ack : BitVec 16) (refused : Bool) : Port :=
  let r := p.retry.filter fun f => ! seqBefore f.1 ack
  let fwd := decide (r.length < p.retry.length)
  let p := { p with retry := r, fails := if fwd then 0 else p.fails, resent := p.resent && ! fwd }
  if refused ∧ p.resent then { p with fails := p.fails + 1, resent := false } else p

/-- FLIT_RECEIVE (R317, R302): an acknowledgement clears the retry buffer up to the flit that the far end expects next, and may say
that it refuses that flit; a flit whose CRC holds and that is next in sequence is applied and acknowledged, any other is refused. A flit that
the link has delivered after a refusal is an error corrected by link retry: SOFTCOR, with the port as ADDR (DESIGN CHOICE, log entry 14). -/
def execFlitReceive (port : Nat) (sq : BitVec 16) (ok : Bool) (_dat : BitVec 256) (ack : FlitAck) (s : State) : Out1 :=
  let p := s.port port
  if p.down then .next s
  else
    let s := s.updPort port fun p => p.answered ack.next ack.refused
    .next ((
      if ok ∧ sq = p.rxSeq then
        let s := if p.refused then s.hubEvent { fEnt0 with kind := 0x21#8, addr := BitVec.ofNat 64 port } else s
        (s.updPort port fun p => { p with rxSeq := p.rxSeq + 1#16, refused := false }).emit (.flitAck port (p.rxSeq + 1#16) true)
      else (s.updPort port fun p => { p with refused := true }).emit (.flitAck port p.rxSeq false)).ringPump port)

/-- Sends flits on a plane again. -/
def State.flits (s : State) (port : Nat) (l : List (BitVec 16 × BitVec 256)) : State :=
  l.foldl (fun (s : State) f => s.emit (.flit port f.1 f.2)) s

/-- FLIT_RESEND (R317): the flits of the retry buffer are sent again, in order. A resend that nothing has answered has failed (DESIGN
CHOICE, log entry 67). -/
def execFlitResend (port : Nat) (s : State) : Out1 :=
  let p := s.port port
  if p.down ∨ p.retry.isEmpty then .next s
  else .next ((s.updPort port fun p => { p with fails := if p.resent then p.fails + 1 else p.fails, resent := true }).flits port p.retry)

/-- Flits numbered from a sequence number on. -/
def renumber (q : BitVec 16) : List (BitVec 16 × BitVec 256) → List (BitVec 16 × BitVec 256)
  | [] => []
  | f :: r => (q, f.2) :: renumber (q + 1#16) r

/-- The plane that takes over the flits held for a port (DESIGN CHOICE, log entry 67: the first that is live at this end and at every
device's end that has been reported). -/
def State.otherPlane (s : State) (port : Nat) : Option Nat :=
  s.upPorts.find? fun k => k != port && ! s.hub.deadAt.any fun p => p.2 == k

/-- The flits of a ring job that no retry buffer has taken are dropped with their plane, and their packets are counted (R319). -/
def State.dropRing (s : State) (port : Nat) : State :=
  match (s.port port).ring with
  | [] => s
  | j :: _ =>
    let n := (j.flits + 2) / 3
    ((s.updHub fun h => { h with nodev := h.nodev + n }).updPort port fun p => { p with nodev := p.nodev + n }).setRing port { j with flits := 0 }

/-- LINK_DOWN (R317, R349): after 16 failed resends the plane is down, the flits still held go over another live plane, and the
sideband is told. -/
def execLinkDown (port : Nat) (s : State) : Out1 :=
  let p := s.port port
  if p.down ∨ p.fails < 16 then .next s
  else
    let s := ((s.dropRing port).updPort port fun p => { p with down := true, fails := 0, resent := false }).emit
      (.sideband 2 (BitVec.ofNat 64 port))
    match s.otherPlane port with
    | none => .next s
    | some k =>
      let l := renumber (s.port k).txSeq p.retry
      let s := s.updPort port fun p => { p with retry := [] }
      .next ((s.updPort k fun x => { x with txSeq := x.txSeq + BitVec.ofNat 16 l.length, retry := x.retry ++ l }).flits k l)

/-- LINK_LIVE_AGAIN (R317): the plane is used again; its sequence numbers begin at 0, with the flits still held. -/
def execLinkLiveAgain (port : Nat) (s : State) : Out1 :=
  let p := s.port port
  if ! p.down then .next s
  else
    let l := renumber 0#16 p.retry
    .next ((s.updPort port fun p =>
      { p with down := false, fails := 0, resent := false, refused := false, rxSeq := 0#16, txSeq := BitVec.ofNat 16 l.length, retry := l }).flits port l)

end Sys2Proof.Machine
end

