-- ==== Sys2Proof/Machine/Debug.lean ====
section
/-! DEFINITION. Debug, counters, firmware and power (24_debug_and_housekeeping.md). -/

namespace Sys2Proof.Machine

/-! Halts (R339, R340). -/

/-- HALT_REQUEST (R339): HALT is written 1. -/
def execHaltRequest (c : Nat) (s : State) : Out1 := .next (s.updDbg c fun d => { d with halt := true })

/-- A halted core goes on where it halted; the cycles of the halt do not count for its waits, nor twice for those that a park pauses (R340,
10 R358). -/
def Core.release (x : Core) (now : Nat) : Core :=
  let n := now - x.dbg.since
  { x with
    waitFrom := x.waitFrom.map (· + n), wFrom := x.wFrom.map (· + n)
    park := x.park.map fun p => (p.1, p.2 + (now - max p.2 x.dbg.since))
    dbg := { x.dbg with halted := false, skip := true } }

/-- HALT_RELEASE (R339, R340): HALT is written 0. A frozen core stays halted until its thaw (18 R301). -/
def execHaltRelease (c : Nat) (s : State) : Out1 :=
  let s := s.updDbg c fun d => { d with halt := false }
  .next (if (s.core c).dbg.halted ∧ (s.core c).stat ≠ .frozen then s.upd c fun x => { x.release s.cyc with dbg := { (x.release s.cyc).dbg with hcause := 0#8 } } else s)

/-- SINGLE_STEP (R339): STEP is written 1 while the core is halted; a frozen core issues nothing (18 R300). -/
def execSingleStep (c : Nat) (s : State) : Out1 :=
  let x := s.core c
  .next (if x.dbg.halted ∧ x.stat ≠ .frozen then s.upd c fun x => { x.release s.cyc with dbg := { (x.release s.cyc).dbg with step := true } } else s)

/-- A breakpoint of the core stands at an address (R339). -/
def Dbg.breaks (d : Dbg) (pc : Word) : Bool := (List.range 4).any fun i => d.bpen.getLsbD i && d.bp.toList[i]? == some pc

/-- `n` bytes from an address stand in the word of an enabled watchpoint (R339). -/
def Dbg.watches (d : Dbg) (a : Word) (n : Nat) : Bool :=
  (List.range 2).any fun i =>
    d.wpen.getLsbD i &&
      match d.wp.toList[i]? with
      | some (w, _, _) => decide (a.toNat < w.toNat + 8) && decide (w.toNat < a.toNat + n)
      | none => false

/-- The access that matched a watchpoint is performed: none that matches is pending, nor awaited by the S stream (R340). -/
def Core.watchDone (x : Core) : Bool :=
  ! (x.acc.any fun a => x.dbg.watches a.p.va a.p.n) &&
    match x.stat with
    | .wait (.load ps _ _ _ _) _ _ => ! ps.any fun p => x.dbg.watches p.va p.n
    | .wait (.tag _ _ _ _ _ _ _ _) _ _ | .wait (.sigw _ _ _ _ _ _) _ _ => ! x.dbg.watches x.waitVal 8
    | _ => true

/-- Why the core halts now at its S instruction boundary, if it does (R339, R340). -/
def State.haltCause (s : State) (c : Nat) : Option (BitVec 8) :=
  let x := s.core c
  let bound := match x.stat with
    | .idle | .frozen | .wait _ _ _ | .out => true
    | .run => x.park.isSome || decide (x.ready ≤ s.cyc)
    | _ => false
  let next : Bool := match x.stat with | .run => x.park.isNone | _ => false
  if x.dbg.halted ∨ ! bound then none
  else if x.dbg.halt ∧ ! x.dbg.step then some 1#8
  else if x.dbg.hit ∧ x.watchDone then some 5#8
  else if next ∧ ! x.dbg.skip ∧ x.dbg.breaks x.pc then some 3#8
  else none

/-- DEBUG_HALT (R340). -/
def execDebugHalt (c : Nat) (s : State) : Out1 :=
  match s.haltCause c with
  | some k => .next ((s.updDbg c fun d => { d with hit := false }).halt c k)
  | none => .next s

/-! Counters and accumulators (R342, R343). -/

/-- COUNTER_PROGRAM (R343): the counter counts the events of the code from here on, from 0. -/
def execCounterProgram (c : Nat) (n : BitVec 2) (code : BitVec 3) (s : State) : Out1 :=
  .next (s.updDbg c fun d => { d with code := d.code.set n.toNat (some code) n.isLt, ctr := d.ctr.set n.toNat 0#48 n.isLt })

/-- COUNTER_OVERFLOW (R343): the sample record of an overflow is written. -/
def execCounterOverflow (c : Nat) (n : BitVec 2) (s : State) : Out1 :=
  match (s.core c).dbg.ovf.find? fun o => o.1 == n with
  | none => .next s
  | some (m, code, pc, w, t) =>
    .next ((s.updDbg c fun d => { d with ovf := d.ovf.erase (m, code, pc, w, t) }).traceAt c 5#8
      (BitVec.ofNat 64 (n.toNat * 256 + code.toNat)) pc (if w then 1#64 else 0#64) t)

/-- ACCUMULATOR_READ_CLEAR (R342). -/
def execAccumulatorReadClear (c : Nat) (s : State) : Out1 :=
  .next ((s.emit (.accs c (s.core c).dbg.acc)).updDbg c fun d => { d with acc := [] })

/-! Boot, attestation, handover, power (R344 to R348). -/

/-- POWER_ON (R344, 20 R315): the machine is reset, and the image is used if it verifies against the root key; a failure is reported. The
agenda, what has left the device, and what stands outside it (the host's memory, the host's checkpoint buffer, the ends of links at peers)
stand. -/
def execPowerOn (img : FwImage) (s : State) : Out1 :=
  let y := { State.reset.sys with buf := s.sys.buf }
  let r := { State.reset with
    agenda := s.agenda, out := s.out, hostMem := s.hostMem, hub := { State.reset.hub with deadAt := s.hub.deadAt }, sys := y }
  .next (if Config.verifies Config.rootKey img.digest then
      { r with sys := { y with slotB := img.slot, image := some img, version := img.version } }
    else r.emit (.sideband 3 0#64))

/-- The key that verifies the images and the records that come next: the one that the running image certifies (R344). -/
def Sys.key (y : Sys) : BitVec 256 :=
  match y.image with
  | some i => Config.certified i.digest
  | none => Config.rootKey

/-- FIRMWARE_HANDOVER (R346): a new image in the inactive slot that verifies takes over; a failure is reported. -/
def execFirmwareHandover (img : FwImage) (s : State) : Out1 :=
  let y := s.sys
  .next (
    if y.handover.isSome ∨ img.slot = y.slotB then s
    else if Config.verifies y.key img.digest then { s with sys := { y with pending := some img, handover := some s.cyc } }
    else s.emit (.sideband 3 0#64))

/-- NEW_IMAGE_READY (R346, R349): within 1 s the handover ends, and its outcome is reported. -/
def execNewImageReady (s : State) : Out1 :=
  let y := s.sys
  match y.pending with
  | some i =>
    .next (if y.handover.all fun t => decide (t + 1200000000 ≤ s.cyc) then s else { s with sys := { y with slotB := i.slot, image := some i, version := i.version, pending := none, handover := none } }.emit
      (.sideband 4 1#64))
  | none => .next s

/-- HANDOVER_TIMEOUT (R346, R349): after 1 s the device returns to the old image, and reports it. -/
def execHandoverTimeout (s : State) : Out1 :=
  let y := s.sys
  match y.handover with
  | some t =>
    .next (if t + 1200000000 ≤ s.cyc then { s with sys := { y with pending := none, handover := none } }.emit (.sideband 4 0#64) else s)
  | none => .next s

/-- The measurements: the digests of the boot ROM, of the running image and of each active configuration record (R345). -/
def Sys.measures (y : Sys) : List (BitVec 256) :=
  Config.romDigest :: ((y.image.map (·.digest)).toList ++ y.recs.map fun p => p.2.2)

/-- SPDM_REQUEST (R345): the measurements, signed. -/
def execSpdmRequest (nonce : BitVec 256) (s : State) : Out1 :=
  .next (s.emit (.spdm s.sys.measures (Config.signature s.sys.measures nonce)))

/-- POWER_LIMIT_GATE (R348): instruction issue is gated. -/
def execPowerLimitGate (s : State) : Out1 :=
  let y := s.sys
  .next { s with sys := { y with gate := true } }

/-- POWER_LIMIT_CLEARED (R348): issue goes on. -/
def execPowerLimitCleared (s : State) : Out1 :=
  let y := s.sys
  .next { s with sys := { y with gate := false } }

end Sys2Proof.Machine
end

