-- ==== Sys2Proof/Machine/Fetch.lean ====
section
/-! DEFINITION. Fetch of instructions (03 R40 to R47, 07 R119, 11 R201), and the steps of the W stream (02 R21, R22, R26). -/

namespace Sys2Proof.Machine

/-! The W stream. -/

/-- What a W instruction does at the W head; none for an instruction of the S stream. -/
def issueOf : Instr → Option (State → WOut)
  | .vadd k t b a d => some (issueVadd k t b a d)
  | .vsub k t b a d => some (issueVsub k t b a d)
  | .vmul k t b a d => some (issueVmul k t b a d)
  | .vmin k t b a d => some (issueVmin k t b a d)
  | .vmax k t b a d => some (issueVmax k t b a d)
  | .vabs k t a d => some (issueVabs k t a d)
  | .vneg k t a d => some (issueVneg k t a d)
  | .vceq k t b a d => some (issueVceq k t b a d)
  | .vclt k t b a d => some (issueVclt k t b a d)
  | .vcle k t b a d => some (issueVcle k t b a d)
  | .vsel k _ b a d => some (issueVsel k b a d)
  | .vand k t b a d => some (issueVand k t b a d)
  | .vor k t b a d => some (issueVor k t b a d)
  | .vxor k t b a d => some (issueVxor k t b a d)
  | .vshl k b a d => some (issueVshl k b a d)
  | .vshr k b a d => some (issueVshr k b a d)
  | .vsra k b a d => some (issueVsra k b a d)
  | .vcvt k t s a d => some (issueVcvt k t s a d)
  | .vrcp k t a d => some (issueVrcp k t a d)
  | .vrsq k t a d => some (issueVrsq k t a d)
  | .vexp k t a d => some (issueVexp k t a d)
  | .vlog k t a d => some (issueVlog k t a d)
  | .vtanh k t a d => some (issueVtanh k t a d)
  | .vsig k t a d => some (issueVsig k t a d)
  | .vperm k b a d => some (issueVperm k b a d)
  | .vfmaF32 k c b a d => some (issueVfmaF32 k c b a d)
  | .vfmaBf16 k c b a d => some (issueVfmaBf16 k c b a d)
  | .vfmsF32 k c b a d => some (issueVfmsF32 k c b a d)
  | .vfmsBf16 k c b a d => some (issueVfmsBf16 k c b a d)
  | .vfmaI32 k c b a d => some (issueVfmaI32 k c b a d)
  | .vfmsI32 k c b a d => some (issueVfmsI32 k c b a d)
  | .vaddF32Const k _ a d => some (issueVaddF32Const k a d)
  | .vsubF32Const k _ a d => some (issueVsubF32Const k a d)
  | .vmulF32Const k _ a d => some (issueVmulF32Const k a d)
  | .vminF32Const k _ a d => some (issueVminF32Const k a d)
  | .vmaxF32Const k _ a d => some (issueVmaxF32Const k a d)
  | .vceqF32Const k _ a d => some (issueVceqF32Const k a d)
  | .vcltF32Const k _ a d => some (issueVcltF32Const k a d)
  | .vcleF32Const k _ a d => some (issueVcleF32Const k a d)
  | .vandF32Const k _ a d => some (issueVandF32Const k a d)
  | .vorF32Const k _ a d => some (issueVorF32Const k a d)
  | .vxorF32Const k _ a d => some (issueVxorF32Const k a d)
  | .vaddBf16Const k _ a d => some (issueVaddBf16Const k a d)
  | .vsubBf16Const k _ a d => some (issueVsubBf16Const k a d)
  | .vmulBf16Const k _ a d => some (issueVmulBf16Const k a d)
  | .vminBf16Const k _ a d => some (issueVminBf16Const k a d)
  | .vmaxBf16Const k _ a d => some (issueVmaxBf16Const k a d)
  | .vceqBf16Const k _ a d => some (issueVceqBf16Const k a d)
  | .vcltBf16Const k _ a d => some (issueVcltBf16Const k a d)
  | .vcleBf16Const k _ a d => some (issueVcleBf16Const k a d)
  | .vandBf16Const k _ a d => some (issueVandBf16Const k a d)
  | .vorBf16Const k _ a d => some (issueVorBf16Const k a d)
  | .vxorBf16Const k _ a d => some (issueVxorBf16Const k a d)
  | .vaddI32Const k _ a d => some (issueVaddI32Const k a d)
  | .vsubI32Const k _ a d => some (issueVsubI32Const k a d)
  | .vmulI32Const k _ a d => some (issueVmulI32Const k a d)
  | .vminI32Const k _ a d => some (issueVminI32Const k a d)
  | .vmaxI32Const k _ a d => some (issueVmaxI32Const k a d)
  | .vceqI32Const k _ a d => some (issueVceqI32Const k a d)
  | .vcltI32Const k _ a d => some (issueVcltI32Const k a d)
  | .vcleI32Const k _ a d => some (issueVcleI32Const k a d)
  | .vandI32Const k _ a d => some (issueVandI32Const k a d)
  | .vorI32Const k _ a d => some (issueVorI32Const k a d)
  | .vxorI32Const k _ a d => some (issueVxorI32Const k a d)
  | .vshlI32Const k _ a d => some (issueVshlI32Const k a d)
  | .vshrI32Const k _ a d => some (issueVshrI32Const k a d)
  | .vsraI32Const k _ a d => some (issueVsraI32Const k a d)
  | .vext t l q v => some (issueVext t l q v)
  | .vins _ l q v => some (issueVins l q v)
  | .vbc k _ q v => some (issueVbc k q v)
  | .vred k t q v => some (issueVred k t q v)
  | .vrmax k t q v => some (issueVrmax k t q v)
  | .vrmin k t q v => some (issueVrmin k t q v)
  | .kget q r => some (issueKget q r)
  | .kput q r => some (issueKput q r)
  | .vld k _ p q o d => some (issueVld k p q o d)
  | .vst k _ p q o d => some (issueVst k p q o d)
  | .vbld k t p q o d => some (issueVbld k t p q o d)
  | .vbst k t p q o d => some (issueVbst k t p q o d)
  | .vgath k _ p q i d => some (issueVgath k p q i d)
  | .vscat k _ p q i d => some (issueVscat k p q i d)
  | .smode _ d => some (issueSmode d)
  | .soff d => some (issueSoff d)
  | .mma _ _ _ _ _ _ => some issueMma
  | .mmaj _ _ _ _ _ _ => some issueMmaj
  | .aclr _ => some issuePart
  | .acpy _ _ => some issuePart
  | .radd _ _ => some issuePart
  | .rscl _ _ => some issuePart
  | .rdout _ _ _ => some issuePart
  | .publOpen _ => some issuePart
  | .publClose _ => some issuePart
  | .still _ => some issuePart
  | .aspl _ _ => some issuePart
  | .afil _ _ => some issuePart
  | .mwait _ => some issueMwait
  | _ => none

/-- The constant operand that a W instruction reads at dispatch (R29). -/
def cstOf : Instr → State → Word
  | .vaddF32Const _ c _ _ => cC c
  | .vsubF32Const _ c _ _ => cC c
  | .vmulF32Const _ c _ _ => cC c
  | .vminF32Const _ c _ _ => cC c
  | .vmaxF32Const _ c _ _ => cC c
  | .vceqF32Const _ c _ _ => cC c
  | .vcltF32Const _ c _ _ => cC c
  | .vcleF32Const _ c _ _ => cC c
  | .vandF32Const _ c _ _ => cC c
  | .vorF32Const _ c _ _ => cC c
  | .vxorF32Const _ c _ _ => cC c
  | .vaddBf16Const _ c _ _ => cC c
  | .vsubBf16Const _ c _ _ => cC c
  | .vmulBf16Const _ c _ _ => cC c
  | .vminBf16Const _ c _ _ => cC c
  | .vmaxBf16Const _ c _ _ => cC c
  | .vceqBf16Const _ c _ _ => cC c
  | .vcltBf16Const _ c _ _ => cC c
  | .vcleBf16Const _ c _ _ => cC c
  | .vandBf16Const _ c _ _ => cC c
  | .vorBf16Const _ c _ _ => cC c
  | .vxorBf16Const _ c _ _ => cC c
  | .vaddI32Const _ c _ _ => cC c
  | .vsubI32Const _ c _ _ => cC c
  | .vmulI32Const _ c _ _ => cC c
  | .vminI32Const _ c _ _ => cC c
  | .vmaxI32Const _ c _ _ => cC c
  | .vceqI32Const _ c _ _ => cC c
  | .vcltI32Const _ c _ _ => cC c
  | .vcleI32Const _ c _ _ => cC c
  | .vandI32Const _ c _ _ => cC c
  | .vorI32Const _ c _ _ => cC c
  | .vxorI32Const _ c _ _ => cC c
  | .vshlI32Const _ c _ _ => cC c
  | .vshrI32Const _ c _ _ => cC c
  | .vsraI32Const _ c _ _ => cC c
  | .smode c _ => cC c
  | .mma c _ _ _ _ _ => cC c
  | .mmaj c _ _ _ _ _ => cC c
  | .rdout c _ _ => cC c
  | .still c => cC c
  | .aspl c _ => cC c
  | .afil c _ => cC c
  | .mwait c => cC c
  | _ => noC

/-- The W head of a core may issue in this cycle (R22 1 and 2, 18 R296, R300, 24 R340, R343, R348). -/
def State.wReady (s : State) (c : Nat) : Bool :=
  let x := s.core c
  (match x.wbuf with
   | e :: _ => decide (e.t < s.cyc)
   | [] => false) &&
    decide (x.wReady ≤ s.cyc) && ! s.endDue c && x.park.isNone && ! x.dbg.halted && x.dbg.ovf.isEmpty && ! s.sys.gate &&
    match x.stat with
    | .frozen | .out => false
    | _ => true

/-- W_ISSUE (R22): the W head issues, or stalls. -/
def execWIssue (c : Nat) (s : State) : Out1 :=
  if ! s.wReady c then .next s
  else
    let t := { s with cur := c, phase := .w }
    match (decodeWord .none t.head.word).bind issueOf with
    | some f => .next (t.wIssue f)
    | none => .next s

/-- The pending write that lands first: of those whose cycle has come, the first in landing order, then in program order (R26). -/
def firstDue (now : Nat) : List WPend → Option WPend
  | [] => none
  | p :: r =>
    match firstDue now r with
    | some q => if p.land ≤ now ∧ p.land ≤ q.land then some p else some q
    | none => if p.land ≤ now then some p else none

/-! Fetch. -/

/-- What a fetch of one word gives: the word; the end of inline code; a violation, a soft error that could not be corrected, a demand fault;
or a wait for a peer. -/
inductive FWord where
  | word (w : BitVec 32) (s : State)
  | inlineEnd
  | viol (a : Word)
  | data (a : Word)
  | dem (a : Word) (fk : BitVec 4)
  | wait (s : State)
deriving DecidableEq, Repr

/-- The offset of the inline code of the current activation in the core-local window (07 R119). -/
def State.inlineAt (s : State) : Option Nat :=
  match s.me.act with
  | some a => if a.m.inl then some ((slotAddr a.q a.ix).toNat + 32) else none
  | none => none

/-- The word at an address, as instructions are fetched; `k` numbers the words of the instruction. -/
def State.fetchWord (s : State) (a : Word) (k : Nat) : FWord :=
  let c := s.cur
  match classify s.own c a with
  | .loc off =>
    match s.inlineAt with
    | some o =>
      if o ≤ off ∧ off < o + 32 then .word (BitVec.ofNat 32 (leNat (s.me.spRead off 4))) s
      else if off = o + 32 then .inlineEnd
      else .viol a
    | none => .viol a
  | .ap _ _ => .viol a
  | .resv => .viol a
  | .dva va =>
    match s.chkPiece c .i (s.who c false).ctx .fetch none va 4 with
    | .ok (p :: _) t =>
      match t.struckPs [p] with
      | some true => .data a
      | some false => .word (BitVec.ofNat 32 (leNat (t.readAt p.at_ 4))) ((t.softCor c .fetch false t.me.pc a).mendPs [p])
      | none => .word (BitVec.ofNat 32 (leNat (t.readAt p.at_ 4))) t
    | .dem v fk _ => .dem v fk
    | _ => .viol a
  | .peer v =>
    if 0xFE000000000000 ≤ bits v 55 0 then .viol a
    else
      match s.readPieces (s.who c false) (10 + k) v 4 (.ok [⟨v, .peer v, 4, .uo, false⟩] s) with
      | .ok bs t => .word (BitVec.ofNat 32 (leNat bs)) t
      | .wait t => .wait t
      | .bad _ => .viol a

/-- The words of the instruction at an address: prefixes and the word that follows them; at most three. -/
def State.fetchWords (a : Word) : Nat → Nat → List (BitVec 32) → State → List (BitVec 32) × FWord
  | 0, _, l, s => (l, .wait s)
  | f + 1, k, l, s =>
    match s.fetchWord a k with
    | .word w t => if isPfx w ∧ k < 2 then State.fetchWords (a + 4#64) f (k + 1) (l ++ [w]) t else (l ++ [w], .word w t)
    | o => (l, o)

/-- What the S slot of a core begins with. -/
inductive Fetched where
  /-- an instruction to execute -/
  | run (i : Instr) (s : State)
  /-- the slot is used up -/
  | stop (s : State)
deriving DecidableEq, Repr

/-- The instruction at the pc of the current core, decoded (R40, R41); words that do not decode raise the illegal-instruction trap
with `State.ir`, which is 0 at the end of inline code. -/
def State.fetchInstr (s : State) : Fetched :=
  let r := State.fetchWords s.me.pc 3 0 [] s
  let dec (l : List (BitVec 32)) (t : State) : Fetched :=
    match decode l with
    | .ok i _ => .run i { t with ir := l.getLastD 0#32 }
    | .bad w _ => .run .illegalInstruction { t with ir := w }
  match r.2 with
  | .word _ t => dec r.1 t
  | .inlineEnd => dec r.1 s
  | .viol a => .stop (s.sViol .fetch a)
  | .data a => .stop (s.viol s.cur .fetch false s.me.pc a 0x24#8)
  | .dem a fk =>
    let f := s.leaseFault (s.who s.cur false).task a fk false
    .stop (s.demand s.cur .fetch false s.me.pc a f.1 f.2)
  | .wait t => .stop (t.updMe fun x => { x with ready := s.cyc + 1 })

/-- An atomic of the core on its own constant window is not performed yet: constant operands that follow it wait for it (R29). -/
def Core.windowBusy (x : Core) (c : Nat) : Bool :=
  x.acc.any fun a => match a.p.at_ with | .sp k off => k == c && decide (off < 0x800) | _ => false

/-- The S slot of a core is due: no instruction waits, and nothing stops issue (R21, R29, 18 R296, 24 R340, R343, R348). -/
def State.sReady (s : State) (c : Nat) : Bool :=
  let x := s.core c
  x.stat == .run && decide (x.ready ≤ s.cyc) && ! s.endDue c && x.park.isNone && ! x.dbg.halted && x.dbg.ovf.isEmpty && ! s.sys.gate &&
    (s.haltCause c).isNone && ! x.windowBusy c

/-- W_DISPATCH (R21): in an S slot that is due the word of a W instruction is placed at the tail of the W buffer of the core whose turn it
is. -/
def execWDispatch (w : BitVec 32) (s : State) : Out1 :=
  match decodeWord .none w with
  | some i => .next (if (issueOf i).isSome && s.sReady s.cur then s.dispatch w (cstOf i s) else s)
  | none => .next s

/-- W_WRITE_LANDING (R26): the next pending write of a core lands, at the end of its cycle: no S slot and no W issue of the core follows
in it. -/
def execWWriteLanding (c : Nat) (s : State) : Out1 :=
  match firstDue s.cyc (s.core c).wpend with
  | some p =>
    if p.land = s.cyc ∧ (s.wReady c ∨ s.sReady c) then .next s
    else .next (s.upd c fun x =>
      { x with wpend := x.wpend.erase p, wReady := max x.wReady (p.land + 1), ready := max x.ready (p.land + 1) }.landOne p)
  | none => .next s

/-- The S slot of a core: an activation whose domain has expired stops here (08 R148); else its instruction is fetched. -/
def State.slotOf (s : State) (c : Nat) : Fetched :=
  if ! s.sReady c then .stop s
  else
    let t := { s with cur := c, phase := .s }
    if t.me.act.isSome ∧ t.expired c (t.dtag t.me.c.dom) then .stop (t.stopAct c) else t.fetchInstr

end Sys2Proof.Machine
end

