-- ==== Sys2Proof/Machine/Sched.lean ====
section
/-! DEFINITION. What runs when the agenda names nothing (log entry 4): the steps of the device that need nothing from outside, each
as soon as it changes the state, and at last the next cycle. -/

namespace Sys2Proof.Machine

/-- The state that an answer carries. -/
def Out1.state (o : Out1) (s : State) : State :=
  match o with
  | .next t => t
  | _ => s

/-- The first of the steps that changes the state. -/
def firstChange (s : State) : List (State → Out1) → Option State
  | [] => none
  | f :: r =>
    let t := Out1.state (f s) s
    if t = s then firstChange s r else some t

/-- A job reads at a peer: its next iteration waits for what comes from outside. -/
def State.jobRemote (s : State) (c : Nat) (k : Job) : Bool :=
  ! k.wr && ! s.expired c (s.dtag k.dom) && decide (0 < if k.kind ≤ 1 then k.run else k.chunk) &&
    match classify s.own c (if k.kind ≤ 1 then k.src + BitVec.ofInt 64 (nestSum (ints k.ss) k.iter) else k.src + BitVec.ofNat 64 k.done) with
    | .peer _ => true
    | _ => false

/-- The steps of a job. -/
def State.jobSteps (s : State) (c : Nat) (k : Job) : List (State → Out1) :=
  [execJobRelease c k.id, execJobStart c k.id, execSignalSend c k.id, execJobComplete c k.id] ++
    if s.jobRemote c k then [] else [execJobIteration c k.id .none]

/-- Steps of a part of the device whose times the spec leaves open come in a cycle or do not: accesses still to be performed, replies,
packets and jobs (10 R177, 25 R350; DESIGN CHOICE, log entry 12). -/
def State.when (s : State) (k : Nat) (l : List (State → Out1)) : List (State → Out1) := if Config.moves s.cyc k then l else []

/-- The numbers of those parts: what has a number of its own; a core; a block that a slice writes; a command queue. -/
def moveId (n : Nat) : Nat := 2 * n
def moveCore (c : Nat) : Nat := 2 * c + 1
def moveBlock (c b : Nat) : Nat := 2 * (nCores * (b + 1) + c) + 1
def moveQueue (q : Nat) : Nat := 2 * (nCores * 2048 + q) + 1

/-- The step of a slice part: its end, or a block of its output, which becomes visible at some time before (04 R66). -/
def State.partSteps (s : State) (c : Nat) : List (State → Out1) :=
  match (s.sl c).cur with
  | none => []
  | some (_, e) => if e < s.cyc then [execSlicePartComplete c] else s.when (moveBlock c (s.sl c).blk) [execSlicePartComplete c]

/-- The step by which the front end takes the next packet of a queue (20 R330, R332). -/
def State.queueSteps (s : State) (q : Nat) : List (State → Out1) :=
  match s.nextPkt q with
  | none => []
  | some p =>
    s.when (moveQueue q) [match pkN p 0 1 with
      | 0 => execNopPacket q p
      | 1 => execLaunch q p
      | 2 => execIndirect q (p.extractLsb' 0 64) (p.extractLsb' 64 64) (p.extractLsb' 128 384)
      | 3 => execAnnul q p
      | _ => execQueueStop q p]

/-- The steps of a core. -/
def State.coreSteps (s : State) (c : Nat) : List (State → Out1) :=
  let x := s.core c
  [execCounterOverflow c 0#2, execCounterOverflow c 1#2, execCounterOverflow c 2#2, execCounterOverflow c 3#2, execDebugHalt c] ++
    [execTrapEntry c, execActivationEnd c, execSlicePartStart c, execRippleArrival c, execMarkArrival c,
      execRemoteTileArrival c, execWbHeldWrite c] ++
    s.partSteps c ++ x.acc.zipIdx.flatMap (fun (a, i) => s.when (moveId a.aid) [execStorePerform c i, execAtomicPerform c i, execBarrierArrival c i]) ++
    s.when (moveCore c) [execLoadReply c .own, execServiceReply c, execOutboundEntryFree c] ++
    [execTaggedWaitWake c, execFenceDrainEnd c, execCycleWaitEnd c, execWaitLimitExpiry c, execHeldFiringSubmit c, execPreemptTimeout c] ++
    x.str.flatMap (fun p => s.when (moveCore c) [execStripFetch c (BitVec.ofNat 3 p.1)]) ++
    x.jobs.flatMap (fun k => s.when (moveId k.id) (s.jobSteps c k)) ++
    ([0#2, 1#2, 2#2, 3#2].flatMap fun q => (x.iq q).map fun e => execDeferEligible c q e.ix) ++
    [execActivationStart c]

/-- The steps of a packet. -/
def Pkt.steps (k : Pkt) : List (State → Out1) :=
  [execPacketHop k.id, execPacketAgedOut k.id, execMessageArrival k.id, execPutDataArrival k.id, execSignalArrival k.id,
    execShadowNotice k.id, execPeerAccess k.id] ++
    match k.body with
    | .dropNotice c j => [execDropNoticeArrival c j]
    | .rippleAck c e q => [execRippleAck c e q]
    | .refusal c a d t => [execLateViolationReport c a d t]
    | _ => []

/-- The rows that a list of cores stands in. -/
def State.rowsIn (s : State) : List Nat := (s.cores.map fun p => rowOf p.1).eraseDups

/-- The next address of a leased range that no pin covers. -/
def Rec.unpinned (y : Rec) : Option Word :=
  y.leased.findSome? fun f =>
    let b := (f.extractLsb' 0 56).toNat
    let e := b + (f.extractLsb' 64 64).toNat
    let a := (y.pins.foldl (fun (a : Nat) _ =>
      match y.pins.find? fun p => decide ((pinIv p).1 ≤ a) && decide (a < (pinIv p).2) with
      | some p => (pinIv p).2
      | none => a) b)
    if a < e then some (BitVec.ofNat 64 a) else none

/-- The steps of a launch. -/
def Launch.steps (x : Launch) (l : Nat) : List (State → Out1) :=
  if x.done then []
  else
    (((List.range (x.first / 64 * 64 + x.ncore)).map fun i => i / 64).eraseDups.filter fun k =>
        decide (x.first < 64 * k + 64) && decide (64 * k < x.first + x.ncore)).map execClusterReport ++
      ((List.range x.recs.length).zip x.recs).flatMap (fun p =>
        [execRecordReady l p.1] ++ (match p.2.unpinned with | some a => [execLeaseGrant l p.1 a] | none => []) ++
          [execTaskPlacement l p.1, execGangReservation l p.1, execTaskComplete l p.1]) ++
      [execLaunchComplete l]

/-- The steps of a domain. -/
def DEnt.steps (e : DEnt) (d : Dom) : List (State → Out1) :=
  [execDomainExpiry d] ++ e.acks.map (fun ep => execAnnulmentNotice ep d) ++ [execDomainIdFree d]

/-- The steps of the hub and of the device as a whole. -/
def State.hubSteps (s : State) : List (State → Out1) :=
  s.hub.doms.flatMap (fun p => p.2.steps (BitVec.ofNat 16 p.1)) ++
    s.hub.dcache.map (fun p => execDomainCacheUpdate (p.1 / 65536) (BitVec.ofNat 16 p.1)) ++
    s.hub.launches.flatMap (fun p => p.2.steps p.1) ++
    s.hub.shoot.flatMap (fun k => k.acks.map execClusterShootdownAck ++ [execShootdownComplete] ++
      k.peers.map fun p => execLeaseRecallTimeout p.1) ++
    s.hub.ports.flatMap (fun p => [execRingJobStart p.1, execRingLossTimeout p.1, execRingJobEnd p.1, execLinkDown p.1]) ++
    s.hub.eths.flatMap (fun p => [execFrameHeldRelease p.1] ++ p.2.eg.flatMap fun g =>
      (if s.tailMoved g.2 then [execEgressTailWrite p.1 g.1] else []) ++ [execFrameTransmit p.1 g.1]) ++
    s.hub.hqs.flatMap (fun p => [execIrqCoalesceTimeout p.1] ++ s.queueSteps p.1) ++
    [execHandoverTimeout] ++
    if s.sys.ckpting && s.cores.any (fun p => p.2.res.isSome) then [execCheckpoint] else []

/-- Every step that needs nothing from outside. -/
def State.allSteps (s : State) : List (State → Out1) :=
  s.cores.flatMap (fun p => s.coreSteps p.1) ++
    s.rowsIn.flatMap (fun r => [execGangStart r, execMmajIterationBoundary r, execGangComplete r, execGangto r]) ++
    s.net.flatMap (fun k => s.when (moveId k.id) k.steps) ++ s.hubSteps

/-- The pending writes that are due: they land at the end of their cycle (02 R26). -/
def State.landSteps (s : State) : List (State → Out1) := s.cores.map fun p => execWWriteLanding p.1

/-- Notices of annulment that a peer has not acknowledged are sent again every 6,000 cycles (08 R147; DESIGN CHOICE, log entry 96). -/
def State.resend (s : State) : State :=
  s.hub.doms.foldl (fun (s : State) p =>
    let e := p.2
    if e.st = .annulled ∧ s.cyc ≠ e.annAt ∧ (s.cyc - e.annAt) % 6000 = 0 then
      e.peerAcks.foldl (fun (s : State) dev => Out1.state (execPeerNoticeResend (BitVec.ofNat 16 p.1) dev s) s) s
    else s) s

/-- The soft error of the cycle, if one strikes (18 R302; DESIGN CHOICE, log entry 14). -/
def State.struckNow (s : State) : State :=
  match Config.upset s.cyc with
  | some (k, bad) => s.strike k bad
  | none => s

/-- A cycle of a core is counted at the instruction that stood at its S head in the cycle (24 R343); the next one stands there in the next. -/
def State.countCycle (s : State) (c : Nat) : State :=
  (s.count c 0#3 (s.core c).dbg.head false).updDbg c fun d => { d with head := (s.core c).pc }

/-- The next cycle: CYC and NOW count on, at 1.2 GHz, corrected by at most 200 ppm once PTP has locked, rows are
scanned for waiting gang parts, cycles are counted (01 R2, 09 R162, 20 R315, 24 R343). -/
def State.tick (s : State) : State :=
  let s := s.rowsIn.foldl (fun (s : State) r => s.gangScan r) s
  let s := s.resend
  let s := s.cores.foldl (fun (s : State) p => s.countCycle p.1) s
  let s := s.struckNow
  let f := s.frac + (if s.sys.everLocked then 49990 + (Config.slew s.cyc).val else 50000)
  { s with cyc := s.cyc + 1, now := s.now + f / 60000, frac := f % 60000 }

/-- A core whose W head, or whose S slot, is due. -/
def State.wDue (s : State) : Option Nat := (s.cores.find? fun p => s.wReady p.1).map (·.1)
def State.sDue (s : State) : Option Nat := (s.cores.find? fun p => s.sReady p.1).map (·.1)

/-- What the device does when no stream is due. -/
def State.background (s : State) : State :=
  match firstChange s s.allSteps with
  | some t => t
  | none =>
    match firstChange s s.landSteps with
    | some t => t
    | none => s.tick

/-- A step that the agenda may name: of those that no word encodes, with the numbers of parts that the device has. -/
def eventOk (i : Instr) : Bool := i.wf && (encode i).isEmpty

/-- The message whose inline code begins with the bits of an instruction. -/
def fetchMsg (v : Nat) : Msg := { msgZero with inl := true, p0 := BitVec.ofNat 64 v, p1 := BitVec.ofNat 64 (v / 2 ^ 64) }

/-- Core 0 stands at the first word of an activation with inline code in slot 0 of its queue 0, and its S slot is the next step. -/
def State.placed (s : State) (v : Nat) : State :=
  let m := fetchMsg v
  let x := s.core 0
  let y : Core := { x with
    stat := .run, pc := 0x80020#64, ready := 0, park := none, res := some 0#16
    act := some ⟨m, 0#2, 0, 0#16, none, 0, 0, none, 0⟩
    inbox := x.inbox.set 0 [⟨0, m, 0#16, none, 0, 0, true, false⟩]
    c := { x.c with dom := DTag.imm }
    dbg := { x.dbg with halted := false, halt := false, hit := false, skip := true, ovf := [] } }
  let z := s.sys
  { s with cores := tPut s.cores 0 y, sys := { z with gate := false }, cur := 0, phase := .s, agenda := [.core 0] }

end Sys2Proof.Machine
end

