-- ==== Sys2Proof/Machine/Dispatch.lean ====
section
/-! DEFINITION. One arm per constructor of `Instr`: a direct call of its meaning. -/

namespace Sys2Proof.Machine

/-- What an instruction or a step of the machine does. -/
def exec (i : Instr) (s : State) : Host.Outcome State Fault Refusal :=
  match i with
  | .add t b a d => Sys2Proof.Machine.execAdd t b a d s
  | .sub t b a d => Sys2Proof.Machine.execSub t b a d s
  | .and t b a d => Sys2Proof.Machine.execAnd t b a d s
  | .or t b a d => Sys2Proof.Machine.execOr t b a d s
  | .xor t b a d => Sys2Proof.Machine.execXor t b a d s
  | .andn t b a d => Sys2Proof.Machine.execAndn t b a d s
  | .orn t b a d => Sys2Proof.Machine.execOrn t b a d s
  | .shl t b a d => Sys2Proof.Machine.execShl t b a d s
  | .shr t b a d => Sys2Proof.Machine.execShr t b a d s
  | .sra t b a d => Sys2Proof.Machine.execSra t b a d s
  | .ror t b a d => Sys2Proof.Machine.execRor t b a d s
  | .mul t b a d => Sys2Proof.Machine.execMul t b a d s
  | .mulh t b a d => Sys2Proof.Machine.execMulh t b a d s
  | .mulhu t b a d => Sys2Proof.Machine.execMulhu t b a d s
  | .div t b a d => Sys2Proof.Machine.execDiv t b a d s
  | .divu t b a d => Sys2Proof.Machine.execDivu t b a d s
  | .rem t b a d => Sys2Proof.Machine.execRem t b a d s
  | .remu t b a d => Sys2Proof.Machine.execRemu t b a d s
  | .min t b a d => Sys2Proof.Machine.execMin t b a d s
  | .max t b a d => Sys2Proof.Machine.execMax t b a d s
  | .minu t b a d => Sys2Proof.Machine.execMinu t b a d s
  | .maxu t b a d => Sys2Proof.Machine.execMaxu t b a d s
  | .ceq t b a d => Sys2Proof.Machine.execCeq t b a d s
  | .cne t b a d => Sys2Proof.Machine.execCne t b a d s
  | .clt t b a d => Sys2Proof.Machine.execClt t b a d s
  | .cltu t b a d => Sys2Proof.Machine.execCltu t b a d s
  | .cle t b a d => Sys2Proof.Machine.execCle t b a d s
  | .cleu t b a d => Sys2Proof.Machine.execCleu t b a d s
  | .abs t a d => Sys2Proof.Machine.execAbs t a d s
  | .clz t a d => Sys2Proof.Machine.execClz t a d s
  | .ctz t a d => Sys2Proof.Machine.execCtz t a d s
  | .popc t a d => Sys2Proof.Machine.execPopc t a d s
  | .bfx t b a d => Sys2Proof.Machine.execBfx t b a d s
  | .addConst c t a d => Sys2Proof.Machine.execAddConst c t a d s
  | .subConst c t a d => Sys2Proof.Machine.execSubConst c t a d s
  | .andConst c t a d => Sys2Proof.Machine.execAndConst c t a d s
  | .orConst c t a d => Sys2Proof.Machine.execOrConst c t a d s
  | .xorConst c t a d => Sys2Proof.Machine.execXorConst c t a d s
  | .andnConst c t a d => Sys2Proof.Machine.execAndnConst c t a d s
  | .ornConst c t a d => Sys2Proof.Machine.execOrnConst c t a d s
  | .shlConst c t a d => Sys2Proof.Machine.execShlConst c t a d s
  | .shrConst c t a d => Sys2Proof.Machine.execShrConst c t a d s
  | .sraConst c t a d => Sys2Proof.Machine.execSraConst c t a d s
  | .rorConst c t a d => Sys2Proof.Machine.execRorConst c t a d s
  | .mulConst c t a d => Sys2Proof.Machine.execMulConst c t a d s
  | .mulhConst c t a d => Sys2Proof.Machine.execMulhConst c t a d s
  | .mulhuConst c t a d => Sys2Proof.Machine.execMulhuConst c t a d s
  | .divConst c t a d => Sys2Proof.Machine.execDivConst c t a d s
  | .divuConst c t a d => Sys2Proof.Machine.execDivuConst c t a d s
  | .remConst c t a d => Sys2Proof.Machine.execRemConst c t a d s
  | .remuConst c t a d => Sys2Proof.Machine.execRemuConst c t a d s
  | .minConst c t a d => Sys2Proof.Machine.execMinConst c t a d s
  | .maxConst c t a d => Sys2Proof.Machine.execMaxConst c t a d s
  | .minuConst c t a d => Sys2Proof.Machine.execMinuConst c t a d s
  | .maxuConst c t a d => Sys2Proof.Machine.execMaxuConst c t a d s
  | .ceqConst c t a d => Sys2Proof.Machine.execCeqConst c t a d s
  | .cneConst c t a d => Sys2Proof.Machine.execCneConst c t a d s
  | .cltConst c t a d => Sys2Proof.Machine.execCltConst c t a d s
  | .cltuConst c t a d => Sys2Proof.Machine.execCltuConst c t a d s
  | .cleConst c t a d => Sys2Proof.Machine.execCleConst c t a d s
  | .cleuConst c t a d => Sys2Proof.Machine.execCleuConst c t a d s
  | .bfxConst c t a d => Sys2Proof.Machine.execBfxConst c t a d s
  | .addImm x im a d => Sys2Proof.Machine.execAddImm x im a d s
  | .andImm x im a d => Sys2Proof.Machine.execAndImm x im a d s
  | .orImm x im a d => Sys2Proof.Machine.execOrImm x im a d s
  | .xorImm x im a d => Sys2Proof.Machine.execXorImm x im a d s
  | .shlImm x im a d => Sys2Proof.Machine.execShlImm x im a d s
  | .shrImm x im a d => Sys2Proof.Machine.execShrImm x im a d s
  | .sraImm x im a d => Sys2Proof.Machine.execSraImm x im a d s
  | .rorImm x im a d => Sys2Proof.Machine.execRorImm x im a d s
  | .mulImm x im a d => Sys2Proof.Machine.execMulImm x im a d s
  | .minImm x im a d => Sys2Proof.Machine.execMinImm x im a d s
  | .maxImm x im a d => Sys2Proof.Machine.execMaxImm x im a d s
  | .ceqImm x im a d => Sys2Proof.Machine.execCeqImm x im a d s
  | .cneImm x im a d => Sys2Proof.Machine.execCneImm x im a d s
  | .cltImm x im a d => Sys2Proof.Machine.execCltImm x im a d s
  | .cleImm x im a d => Sys2Proof.Machine.execCleImm x im a d s
  | .cltuImm x im a d => Sys2Proof.Machine.execCltuImm x im a d s
  | .li x im d => Sys2Proof.Machine.execLi x im d s
  | .beq x o b a => Sys2Proof.Machine.execBeq x o b a s
  | .bne x o b a => Sys2Proof.Machine.execBne x o b a s
  | .blt x o b a => Sys2Proof.Machine.execBlt x o b a s
  | .bge x o b a => Sys2Proof.Machine.execBge x o b a s
  | .bltu x o b a => Sys2Proof.Machine.execBltu x o b a s
  | .bgeu x o b a => Sys2Proof.Machine.execBgeu x o b a s
  | .loop x o a => Sys2Proof.Machine.execLoop x o a s
  | .j x o => Sys2Proof.Machine.execJ x o s
  | .call x o d => Sys2Proof.Machine.execCall x o d s
  | .jr a d => Sys2Proof.Machine.execJr a d s
  | .ld x o r sc t a d => Sys2Proof.Machine.execLd x o r sc t a d s
  | .st x o r sc m t a d => Sys2Proof.Machine.execSt x o r sc m t a d s
  | .ldw x o a d => Sys2Proof.Machine.execLdw x o a d s
  | .take x o m a d => Sys2Proof.Machine.execTake x o m a d s
  | .stw x o m a d => Sys2Proof.Machine.execStw x o m a d s
  | .stf x o m a d => Sys2Proof.Machine.execStf x o m a d s
  | .tset x o m a => Sys2Proof.Machine.execTset x o m a s
  | .tclr x o m a => Sys2Proof.Machine.execTclr x o m a s
  | .trd x o a d => Sys2Proof.Machine.execTrd x o a d s
  | .twait x o a => Sys2Proof.Machine.execTwait x o a s
  | .ldx t b a d => Sys2Proof.Machine.execLdx t b a d s
  | .stx t b a d => Sys2Proof.Machine.execStx t b a d s
  | .ldp b a d => Sys2Proof.Machine.execLdp b a d s
  | .stp b a d => Sys2Proof.Machine.execStp b a d s
  | .zblk a => Sys2Proof.Machine.execZblk a s
  | .fence o sc => Sys2Proof.Machine.execFence o sc s
  | .qpush a n => Sys2Proof.Machine.execQpush a n s
  | .qpop n d => Sys2Proof.Machine.execQpop n d s
  | .send m b a => Sys2Proof.Machine.execSend m b a s
  | .sendi m b a => Sys2Proof.Machine.execSendi m b a s
  | .enq x d => Sys2Proof.Machine.execEnq x d s
  | .defer a => Sys2Proof.Machine.execDefer a s
  | .breg a => Sys2Proof.Machine.execBreg a s
  | .barr a => Sys2Proof.Machine.execBarr a s
  | .dnew a d => Sys2Proof.Machine.execDnew a d s
  | .djoin x a d => Sys2Proof.Machine.execDjoin x a d s
  | .dleave x a d => Sys2Proof.Machine.execDleave x a d s
  | .dannul x d => Sys2Proof.Machine.execDannul x d s
  | .dwhen x a d => Sys2Proof.Machine.execDwhen x a d s
  | .dmask x a d => Sys2Proof.Machine.execDmask x a d s
  | .nopen m b a d => Sys2Proof.Machine.execNopen m b a d s
  | .nopenWait m b a d => Sys2Proof.Machine.execNopenWait m b a d s
  | .nclose a d => Sys2Proof.Machine.execNclose a d s
  | .nbind m a d => Sys2Proof.Machine.execNbind m a d s
  | .nq b a d => Sys2Proof.Machine.execNq b a d s
  | .rseal b a d => Sys2Proof.Machine.execRseal b a d s
  | .cpy m a d => Sys2Proof.Machine.execCpy m a d s
  | .waitp a => Sys2Proof.Machine.execWaitp a s
  | .wm a d => Sys2Proof.Machine.execWm a d s
  | .aadd m t b a d => Sys2Proof.Machine.execAadd m t b a d s
  | .amin m t b a d => Sys2Proof.Machine.execAmin m t b a d s
  | .amax m t b a d => Sys2Proof.Machine.execAmax m t b a d s
  | .aand m t b a d => Sys2Proof.Machine.execAand m t b a d s
  | .aor m t b a d => Sys2Proof.Machine.execAor m t b a d s
  | .axchg m t b a d => Sys2Proof.Machine.execAxchg m t b a d s
  | .acas m t b a d => Sys2Proof.Machine.execAcas m t b a d s
  | .put x a d => Sys2Proof.Machine.execPut x a d s
  | .putsg x a d => Sys2Proof.Machine.execPutsg x a d s
  | .get x a d => Sys2Proof.Machine.execGet x a d s
  | .padd x a d => Sys2Proof.Machine.execPadd x a d s
  | .arm x a d => Sys2Proof.Machine.execArm x a d s
  | .sigw b a d => Sys2Proof.Machine.execSigw b a d s
  | .ringj x a d => Sys2Proof.Machine.execRingj x a d s
  | .cwr w d => Sys2Proof.Machine.execCwr w d s
  | .cww w a => Sys2Proof.Machine.execCww w a s
  | .ckpt im => Sys2Proof.Machine.execCkpt im s
  | .time d => Sys2Proof.Machine.execTime d s
  | .cyc d => Sys2Proof.Machine.execCyc d s
  | .waitc a => Sys2Proof.Machine.execWaitc a s
  | .vadd k t b a d => Sys2Proof.Machine.execVadd k t b a d s
  | .vsub k t b a d => Sys2Proof.Machine.execVsub k t b a d s
  | .vmul k t b a d => Sys2Proof.Machine.execVmul k t b a d s
  | .vmin k t b a d => Sys2Proof.Machine.execVmin k t b a d s
  | .vmax k t b a d => Sys2Proof.Machine.execVmax k t b a d s
  | .vabs k t a d => Sys2Proof.Machine.execVabs k t a d s
  | .vneg k t a d => Sys2Proof.Machine.execVneg k t a d s
  | .vceq k t b a d => Sys2Proof.Machine.execVceq k t b a d s
  | .vclt k t b a d => Sys2Proof.Machine.execVclt k t b a d s
  | .vcle k t b a d => Sys2Proof.Machine.execVcle k t b a d s
  | .vsel k t b a d => Sys2Proof.Machine.execVsel k t b a d s
  | .vand k t b a d => Sys2Proof.Machine.execVand k t b a d s
  | .vor k t b a d => Sys2Proof.Machine.execVor k t b a d s
  | .vxor k t b a d => Sys2Proof.Machine.execVxor k t b a d s
  | .vshl k b a d => Sys2Proof.Machine.execVshl k b a d s
  | .vshr k b a d => Sys2Proof.Machine.execVshr k b a d s
  | .vsra k b a d => Sys2Proof.Machine.execVsra k b a d s
  | .vcvt k t s0 a d => Sys2Proof.Machine.execVcvt k t s0 a d s
  | .vrcp k t a d => Sys2Proof.Machine.execVrcp k t a d s
  | .vrsq k t a d => Sys2Proof.Machine.execVrsq k t a d s
  | .vexp k t a d => Sys2Proof.Machine.execVexp k t a d s
  | .vlog k t a d => Sys2Proof.Machine.execVlog k t a d s
  | .vtanh k t a d => Sys2Proof.Machine.execVtanh k t a d s
  | .vsig k t a d => Sys2Proof.Machine.execVsig k t a d s
  | .vperm k b a d => Sys2Proof.Machine.execVperm k b a d s
  | .vfmaF32 k c b a d => Sys2Proof.Machine.execVfmaF32 k c b a d s
  | .vfmaBf16 k c b a d => Sys2Proof.Machine.execVfmaBf16 k c b a d s
  | .vfmsF32 k c b a d => Sys2Proof.Machine.execVfmsF32 k c b a d s
  | .vfmsBf16 k c b a d => Sys2Proof.Machine.execVfmsBf16 k c b a d s
  | .vfmaI32 k c b a d => Sys2Proof.Machine.execVfmaI32 k c b a d s
  | .vfmsI32 k c b a d => Sys2Proof.Machine.execVfmsI32 k c b a d s
  | .vaddF32Const k c a d => Sys2Proof.Machine.execVaddF32Const k c a d s
  | .vsubF32Const k c a d => Sys2Proof.Machine.execVsubF32Const k c a d s
  | .vmulF32Const k c a d => Sys2Proof.Machine.execVmulF32Const k c a d s
  | .vminF32Const k c a d => Sys2Proof.Machine.execVminF32Const k c a d s
  | .vmaxF32Const k c a d => Sys2Proof.Machine.execVmaxF32Const k c a d s
  | .vceqF32Const k c a d => Sys2Proof.Machine.execVceqF32Const k c a d s
  | .vcltF32Const k c a d => Sys2Proof.Machine.execVcltF32Const k c a d s
  | .vcleF32Const k c a d => Sys2Proof.Machine.execVcleF32Const k c a d s
  | .vandF32Const k c a d => Sys2Proof.Machine.execVandF32Const k c a d s
  | .vorF32Const k c a d => Sys2Proof.Machine.execVorF32Const k c a d s
  | .vxorF32Const k c a d => Sys2Proof.Machine.execVxorF32Const k c a d s
  | .vaddBf16Const k c a d => Sys2Proof.Machine.execVaddBf16Const k c a d s
  | .vsubBf16Const k c a d => Sys2Proof.Machine.execVsubBf16Const k c a d s
  | .vmulBf16Const k c a d => Sys2Proof.Machine.execVmulBf16Const k c a d s
  | .vminBf16Const k c a d => Sys2Proof.Machine.execVminBf16Const k c a d s
  | .vmaxBf16Const k c a d => Sys2Proof.Machine.execVmaxBf16Const k c a d s
  | .vceqBf16Const k c a d => Sys2Proof.Machine.execVceqBf16Const k c a d s
  | .vcltBf16Const k c a d => Sys2Proof.Machine.execVcltBf16Const k c a d s
  | .vcleBf16Const k c a d => Sys2Proof.Machine.execVcleBf16Const k c a d s
  | .vandBf16Const k c a d => Sys2Proof.Machine.execVandBf16Const k c a d s
  | .vorBf16Const k c a d => Sys2Proof.Machine.execVorBf16Const k c a d s
  | .vxorBf16Const k c a d => Sys2Proof.Machine.execVxorBf16Const k c a d s
  | .vaddI32Const k c a d => Sys2Proof.Machine.execVaddI32Const k c a d s
  | .vsubI32Const k c a d => Sys2Proof.Machine.execVsubI32Const k c a d s
  | .vmulI32Const k c a d => Sys2Proof.Machine.execVmulI32Const k c a d s
  | .vminI32Const k c a d => Sys2Proof.Machine.execVminI32Const k c a d s
  | .vmaxI32Const k c a d => Sys2Proof.Machine.execVmaxI32Const k c a d s
  | .vceqI32Const k c a d => Sys2Proof.Machine.execVceqI32Const k c a d s
  | .vcltI32Const k c a d => Sys2Proof.Machine.execVcltI32Const k c a d s
  | .vcleI32Const k c a d => Sys2Proof.Machine.execVcleI32Const k c a d s
  | .vandI32Const k c a d => Sys2Proof.Machine.execVandI32Const k c a d s
  | .vorI32Const k c a d => Sys2Proof.Machine.execVorI32Const k c a d s
  | .vxorI32Const k c a d => Sys2Proof.Machine.execVxorI32Const k c a d s
  | .vshlI32Const k c a d => Sys2Proof.Machine.execVshlI32Const k c a d s
  | .vshrI32Const k c a d => Sys2Proof.Machine.execVshrI32Const k c a d s
  | .vsraI32Const k c a d => Sys2Proof.Machine.execVsraI32Const k c a d s
  | .vext t l q v => Sys2Proof.Machine.execVext t l q v s
  | .vins t l q v => Sys2Proof.Machine.execVins t l q v s
  | .vbc k t q v => Sys2Proof.Machine.execVbc k t q v s
  | .vred k t q v => Sys2Proof.Machine.execVred k t q v s
  | .vrmax k t q v => Sys2Proof.Machine.execVrmax k t q v s
  | .vrmin k t q v => Sys2Proof.Machine.execVrmin k t q v s
  | .kget q r => Sys2Proof.Machine.execKget q r s
  | .kput q r => Sys2Proof.Machine.execKput q r s
  | .vld k t p q o d => Sys2Proof.Machine.execVld k t p q o d s
  | .vst k t p q o d => Sys2Proof.Machine.execVst k t p q o d s
  | .vbld k t p q o d => Sys2Proof.Machine.execVbld k t p q o d s
  | .vbst k t p q o d => Sys2Proof.Machine.execVbst k t p q o d s
  | .vgath k t p q im d => Sys2Proof.Machine.execVgath k t p q im d s
  | .vscat k t p q im d => Sys2Proof.Machine.execVscat k t p q im d s
  | .smode c d => Sys2Proof.Machine.execSmode c d s
  | .soff d => Sys2Proof.Machine.execSoff d s
  | .mma c w l g y t => Sys2Proof.Machine.execMma c w l g y t s
  | .mmaj c w l g y t => Sys2Proof.Machine.execMmaj c w l g y t s
  | .aclr t => Sys2Proof.Machine.execAclr t s
  | .acpy s0 t => Sys2Proof.Machine.execAcpy s0 t s
  | .radd s0 t => Sys2Proof.Machine.execRadd s0 t s
  | .rscl j t => Sys2Proof.Machine.execRscl j t s
  | .rdout c y t => Sys2Proof.Machine.execRdout c y t s
  | .publOpen t => Sys2Proof.Machine.execPublOpen t s
  | .publClose t => Sys2Proof.Machine.execPublClose t s
  | .still c => Sys2Proof.Machine.execStill c s
  | .aspl c t => Sys2Proof.Machine.execAspl c t s
  | .afil c t => Sys2Proof.Machine.execAfil c t s
  | .mwait c => Sys2Proof.Machine.execMwait c s
  | .pf => Sys2Proof.Machine.execPf s
  | .drain => Sys2Proof.Machine.execDrain s
  | .done => Sys2Proof.Machine.execDone s
  | .xfence => Sys2Proof.Machine.execXfence s
  | .trap => Sys2Proof.Machine.execTrap s
  | .eret => Sys2Proof.Machine.execEret s
  | .brk => Sys2Proof.Machine.execBrk s
  | .nop => Sys2Proof.Machine.execNop s
  | .hintPoll => Sys2Proof.Machine.execHintPoll s
  | .hintMark => Sys2Proof.Machine.execHintMark s
  | .hintOther => Sys2Proof.Machine.execHintOther s
  | .illegalInstruction => Sys2Proof.Machine.execIllegalInstruction s
  | .wDispatch w => Sys2Proof.Machine.execWDispatch w s
  | .wIssue c => Sys2Proof.Machine.execWIssue c s
  | .wWriteLanding c => Sys2Proof.Machine.execWWriteLanding c s
  | .stripFetch c r => Sys2Proof.Machine.execStripFetch c r s
  | .slicePartStart c => Sys2Proof.Machine.execSlicePartStart c s
  | .slicePartComplete c => Sys2Proof.Machine.execSlicePartComplete c s
  | .gangStart row => Sys2Proof.Machine.execGangStart row s
  | .gangComplete row => Sys2Proof.Machine.execGangComplete row s
  | .mmajIterationBoundary row => Sys2Proof.Machine.execMmajIterationBoundary row s
  | .gangto row => Sys2Proof.Machine.execGangto row s
  | .rippleArrival c => Sys2Proof.Machine.execRippleArrival c s
  | .markArrival c => Sys2Proof.Machine.execMarkArrival c s
  | .rippleAck c e q => Sys2Proof.Machine.execRippleAck c e q s
  | .rippleResend c => Sys2Proof.Machine.execRippleResend c s
  | .remoteTileArrival c => Sys2Proof.Machine.execRemoteTileArrival c s
  | .wbHeldWrite c => Sys2Proof.Machine.execWbHeldWrite c s
  | .activationStart c => Sys2Proof.Machine.execActivationStart c s
  | .activationEnd c => Sys2Proof.Machine.execActivationEnd c s
  | .deferEligible c q ix => Sys2Proof.Machine.execDeferEligible c q ix s
  | .messageArrival p => Sys2Proof.Machine.execMessageArrival p s
  | .outboundEntryFree c => Sys2Proof.Machine.execOutboundEntryFree c s
  | .packetHop p => Sys2Proof.Machine.execPacketHop p s
  | .packetAgedOut p => Sys2Proof.Machine.execPacketAgedOut p s
  | .domainCacheFill ep d => Sys2Proof.Machine.execDomainCacheFill ep d s
  | .domainCacheUpdate ep d => Sys2Proof.Machine.execDomainCacheUpdate ep d s
  | .domainExpiry d => Sys2Proof.Machine.execDomainExpiry d s
  | .annulmentNotice ep d => Sys2Proof.Machine.execAnnulmentNotice ep d s
  | .peerNoticeResend d dev => Sys2Proof.Machine.execPeerNoticeResend d dev s
  | .domainIdFree d => Sys2Proof.Machine.execDomainIdFree d s
  | .peerPacketReceive port pk => Sys2Proof.Machine.execPeerPacketReceive port pk s
  | .shadowNotice p => Sys2Proof.Machine.execShadowNotice p s
  | .storePerform c im => Sys2Proof.Machine.execStorePerform c im s
  | .loadReply c r => Sys2Proof.Machine.execLoadReply c r s
  | .taggedWaitWake c => Sys2Proof.Machine.execTaggedWaitWake c s
  | .waitLimitExpiry c => Sys2Proof.Machine.execWaitLimitExpiry c s
  | .cycleWaitEnd c => Sys2Proof.Machine.execCycleWaitEnd c s
  | .fenceDrainEnd c => Sys2Proof.Machine.execFenceDrainEnd c s
  | .serviceReply c => Sys2Proof.Machine.execServiceReply c s
  | .barrierArrival c im => Sys2Proof.Machine.execBarrierArrival c im s
  | .trapEntry c => Sys2Proof.Machine.execTrapEntry c s
  | .clusterReport cl => Sys2Proof.Machine.execClusterReport cl s
  | .recordReady l r => Sys2Proof.Machine.execRecordReady l r s
  | .leaseGrant l r va => Sys2Proof.Machine.execLeaseGrant l r va s
  | .leaseRefusal l r => Sys2Proof.Machine.execLeaseRefusal l r s
  | .taskPlacement l r => Sys2Proof.Machine.execTaskPlacement l r s
  | .gangReservation l r => Sys2Proof.Machine.execGangReservation l r s
  | .taskComplete l r => Sys2Proof.Machine.execTaskComplete l r s
  | .jobRelease c j => Sys2Proof.Machine.execJobRelease c j s
  | .jobStart c j => Sys2Proof.Machine.execJobStart c j s
  | .jobIteration c j err => Sys2Proof.Machine.execJobIteration c j err s
  | .jobComplete c j => Sys2Proof.Machine.execJobComplete c j s
  | .dropNoticeArrival c j => Sys2Proof.Machine.execDropNoticeArrival c j s
  | .putDataArrival p => Sys2Proof.Machine.execPutDataArrival p s
  | .signalSend c j => Sys2Proof.Machine.execSignalSend c j s
  | .signalArrival p => Sys2Proof.Machine.execSignalArrival p s
  | .heldFiringSubmit c => Sys2Proof.Machine.execHeldFiringSubmit c s
  | .atomicPerform c im => Sys2Proof.Machine.execAtomicPerform c im s
  | .ringJobStart port => Sys2Proof.Machine.execRingJobStart port s
  | .ringChunkStep port inp => Sys2Proof.Machine.execRingChunkStep port inp s
  | .ringLossTimeout port => Sys2Proof.Machine.execRingLossTimeout port s
  | .lossMarkArrival port mask => Sys2Proof.Machine.execLossMarkArrival port mask s
  | .ringJobEnd port => Sys2Proof.Machine.execRingJobEnd port s
  | .tableWalk c va acc => Sys2Proof.Machine.execTableWalk c va acc s
  | .lateViolationReport c adr d task => Sys2Proof.Machine.execLateViolationReport c adr d task s
  | .shootdown cmd => Sys2Proof.Machine.execShootdown cmd s
  | .clusterShootdownAck cl => Sys2Proof.Machine.execClusterShootdownAck cl s
  | .shootdownComplete => Sys2Proof.Machine.execShootdownComplete s
  | .leaseRecall dev lease => Sys2Proof.Machine.execLeaseRecall dev lease s
  | .leaseRecallTimeout dev => Sys2Proof.Machine.execLeaseRecallTimeout dev s
  | .peerAccess p => Sys2Proof.Machine.execPeerAccess p s
  | .faultRetry q ix => Sys2Proof.Machine.execFaultRetry q ix s
  | .faultDeny q ix => Sys2Proof.Machine.execFaultDeny q ix s
  | .faultAck q ix => Sys2Proof.Machine.execFaultAck q ix s
  | .thaw c ch => Sys2Proof.Machine.execThaw c ch s
  | .coreRetire c => Sys2Proof.Machine.execCoreRetire c s
  | .preemptRequest c => Sys2Proof.Machine.execPreemptRequest c s
  | .preemptTimeout c => Sys2Proof.Machine.execPreemptTimeout c s
  | .contextResume c ctx => Sys2Proof.Machine.execContextResume c ctx s
  | .haltRequest c => Sys2Proof.Machine.execHaltRequest c s
  | .haltRelease c => Sys2Proof.Machine.execHaltRelease c s
  | .singleStep c => Sys2Proof.Machine.execSingleStep c s
  | .debugHalt c => Sys2Proof.Machine.execDebugHalt c s
  | .counterProgram c n code => Sys2Proof.Machine.execCounterProgram c n code s
  | .counterOverflow c n => Sys2Proof.Machine.execCounterOverflow c n s
  | .accumulatorReadClear c => Sys2Proof.Machine.execAccumulatorReadClear c s
  | .flitReceive port sq ok dat ack => Sys2Proof.Machine.execFlitReceive port sq ok dat ack s
  | .flitResend port => Sys2Proof.Machine.execFlitResend port s
  | .linkDown port => Sys2Proof.Machine.execLinkDown port s
  | .frameReceive port frame fcs => Sys2Proof.Machine.execFrameReceive port frame fcs s
  | .frameHeldRelease port => Sys2Proof.Machine.execFrameHeldRelease port s
  | .egressTailWrite port q => Sys2Proof.Machine.execEgressTailWrite port q s
  | .frameTransmit port q => Sys2Proof.Machine.execFrameTransmit port q s
  | .ptpLockChange lock adv => Sys2Proof.Machine.execPtpLockChange lock adv s
  | .hostMemoryAccess a => Sys2Proof.Machine.execHostMemoryAccess a s
  | .doorbell q tail => Sys2Proof.Machine.execDoorbell q tail s
  | .ctlEnable q en => Sys2Proof.Machine.execCtlEnable q en s
  | .ctlRestart q => Sys2Proof.Machine.execCtlRestart q s
  | .registerWrite r => Sys2Proof.Machine.execRegisterWrite r s
  | .nopPacket q pk => Sys2Proof.Machine.execNopPacket q pk s
  | .launch q pk => Sys2Proof.Machine.execLaunch q pk s
  | .indirect q op hadr rest => Sys2Proof.Machine.execIndirect q op hadr rest s
  | .annul q pk => Sys2Proof.Machine.execAnnul q pk s
  | .queueStop q pk => Sys2Proof.Machine.execQueueStop q pk s
  | .launchComplete l => Sys2Proof.Machine.execLaunchComplete l s
  | .irqCoalesceTimeout q => Sys2Proof.Machine.execIrqCoalesceTimeout q s
  | .powerOn img => Sys2Proof.Machine.execPowerOn img s
  | .firmwareHandover img => Sys2Proof.Machine.execFirmwareHandover img s
  | .handoverTimeout => Sys2Proof.Machine.execHandoverTimeout s
  | .spdmRequest nonce => Sys2Proof.Machine.execSpdmRequest nonce s
  | .checkpoint => Sys2Proof.Machine.execCheckpoint s
  | .restore => Sys2Proof.Machine.execRestore s
  | .powerLimitGate => Sys2Proof.Machine.execPowerLimitGate s
  | .contextDestroyed ctx => Sys2Proof.Machine.execContextDestroyed ctx s
  | .powerLimitCleared => Sys2Proof.Machine.execPowerLimitCleared s
  | .newImageReady => Sys2Proof.Machine.execNewImageReady s
  | .linkLiveAgain port => Sys2Proof.Machine.execLinkLiveAgain port s

end Sys2Proof.Machine
end

