-- ==== Sys2Proof/Machine/Step.lean ====
section
/-! DEFINITION. One step of the machine, and a state whose next step runs a given instruction (log entries 3 and 4). -/

namespace Sys2Proof.Machine

/-- The S slot of a core: what it begins with, then the instruction. -/
def slot (c : Nat) (s : State) : Host.Outcome State Fault Refusal :=
  match s.slotOf c with
  | .run i t => exec i t
  | .stop t => .next t

/-- One step: the head of the agenda; else a W issue, else an S slot, else what the rest of the device does. -/
def step (s : State) : Host.Outcome State Fault Refusal :=
  match s.agenda with
  | .event i :: r => if eventOk i then exec i { s with agenda := r } else .fault .illFormedStep
  | .core c :: r => slot c { s with agenda := r }
  | [] =>
    match s.wDue with
    | some c => execWIssue c s
    | none =>
      match s.sDue with
      | some c => slot c s
      | none => .next s.background

/-- The state with an instruction where core 0 fetches next: in an activation of core 0 with inline code, which the agenda names. -/
def State.withFetchWord (s : State) (nbits w : Nat) : State := s.placed (w % 2 ^ nbits)

end Sys2Proof.Machine
end

