-- ==== Sys2Proof/Safety.lean ====
section
/-! DEFINITION. What counts as a safe run, and the frames in which the claims speak: which parts of the machine an instruction
leaves as they were. -/

namespace Sys2Proof.Machine

/-! Safe runs. -/

/-- The agenda names only steps that the device has. -/
def State.AgendaOk (s : State) : Prop := ∀ i, Turn.event i ∈ s.agenda → eventOk i = true

/-- The invariant of every step: device memory stands in its canonical form, and the agenda names only steps that the device
has. -/
def State.Inv (s : State) : Prop := Memory.wf s.mem = true ∧ s.AgendaOk

/-- A run of `n` steps is safe: none of them faults or is refused. -/
def Safe : Nat → State → Prop
  | 0, _ => True
  | n + 1, s => ∃ t, step s = .next t ∧ Safe n t

/-! Frames. -/

/-- The address lies in the trace ring of a core, to which any instruction's trace records go (24 R341). -/
def State.inTrace (s : State) (c a : Nat) : Prop :=
  (s.core c).dbg.trBase.toNat ≤ a ∧ a < (s.core c).dbg.trBase.toNat + (s.core c).dbg.trSize.toNat

/-- Nothing but a core, and the records of its trace ring, differs. -/
def State.OnlyCore (s t : State) (c : Nat) : Prop :=
  t = { s with cores := t.cores, mem := t.mem } ∧ (∀ d, d ≠ c → t.core d = s.core d) ∧
    ∀ a, ¬ s.inTrace c a → Memory.get t.mem a = Memory.get s.mem a

/-- What an instruction that completes may do to the debug module of its core: counters and samples, the mark of a released halt,
the mark of a watchpoint that its access matches, and the halt that ends a single step (24 R339, R343). -/
def Dbg.Keeps (d e : Dbg) : Prop :=
  e = { d with
    ctr := e.ctr, ovf := e.ovf, skip := false, step := false, halted := e.halted, hcause := e.hcause, since := e.since
    trPos := e.trPos, lost := e.lost, hit := e.hit } ∧
  (d.wpen = 0#2 → e.hit = d.hit) ∧
  (d.step = false → e.halted = d.halted ∧ e.hcause = d.hcause ∧ e.since = d.since ∧ e.trPos = d.trPos ∧ e.lost = d.lost)

/-- An instruction of the S stream of the current core completes: `f` is what it does to the core, `pc` is where the S stream goes
on, `cost` cycles later (05 R78). Everything else of the machine stays as it was. -/
def State.Goes (s t : State) (pc : Word) (cost : Nat) (f : Core → Core) : Prop :=
  s.OnlyCore t s.cur ∧ Dbg.Keeps s.me.dbg t.me.dbg ∧
    t.me = { f s.me with
      pc := pc, ready := s.cyc + cost, waitFrom := none, stat := .run, pread := tDel s.me.pread 0, dbg := t.me.dbg }

/-- The instruction of `words` words completes at the word that follows it; each prefix word adds a cycle (03 R46, 05 R78). -/
def State.Completes (s t : State) (words cost : Nat) (f : Core → Core) : Prop :=
  s.Goes t (s.me.pc + BitVec.ofNat 64 (4 * words)) (cost + (words - 1)) f

/-- It completes, and writes `v` to the S register `d` and to nothing else; a write to s0 is discarded (02 R23). -/
def State.Computes (s t : State) (words cost : Nat) (d : Reg) (v : Word) : Prop :=
  (∀ r, t.me.rs r = if r = d ∧ d ≠ 0#5 then v else s.me.rs r) ∧
    ∃ rs, s.Completes t words cost fun c => { c with r := { c.r with s := rs } }

/-! Completion, as the claims say it. -/

/-- The instruction answers a next state in which it has completed with the effect `f` on the core. -/
def Does (i : Instr) (s : State) (words cost : Nat) (f : Core → Core) : Prop :=
  ∃ t, exec i s = .next t ∧ s.Completes t words cost f

/-- The instruction answers a next state in which it has completed and `d` holds `v`. -/
def Gives (i : Instr) (s : State) (words cost : Nat) (d : Reg) (v : Word) : Prop :=
  ∃ t, exec i s = .next t ∧ s.Computes t words cost d v

/-- A function of two operands of the width of a type; the result is widened with its sign (05 R80). -/
def onWidth (t : STy) (f : (w : Nat) → BitVec w → BitVec w → BitVec w) (a b : Word) : Word :=
  match t with
  | .i64 => f 64 a b
  | .i32 => (f 32 (a.setWidth 32) (b.setWidth 32)).signExtend 64

/-- The register form and the constant form of a scalar operation compute `f` (05 R79). -/
def OnForms (f : (w : Nat) → BitVec w → BitVec w → BitVec w) (cost : Nat) (reg : STy → Reg → Reg → Reg → Instr)
    (con : CIx → STy → Reg → Reg → Instr) : Prop :=
  ∀ s : State, ∀ t a d,
    (∀ b, Gives (reg t b a d) s 1 cost d (onWidth t f (s.me.rs a) (s.me.rs b))) ∧
    (∀ k, Gives (con k t a d) s 1 cost d (onWidth t f (s.me.rs a) (s.me.cw k)))

/-- The immediate form computes it on 64 bits (05 R79). -/
def OnImm (f : (w : Nat) → BitVec w → BitVec w → BitVec w) (cost : Nat) (imm : Pfx → BitVec 12 → Reg → Reg → Instr) : Prop :=
  ∀ s : State, ∀ x i a d, Gives (imm x i a d) s (words x) cost d (f 64 (s.me.rs a) (immI x i))

/-- The unary form computes it (05 R79). -/
def OnUnary (f : (w : Nat) → BitVec w → BitVec w) (un : STy → Reg → Reg → Instr) : Prop :=
  ∀ s : State, ∀ t a d, Gives (un t a d) s 1 1 d (onWidth t (fun w x _ => f w x) (s.me.rs a) 0#64)

/-- One or zero, in a width. -/
def bit (w : Nat) (p : Prop) [Decidable p] : BitVec w := if p then 1#w else 0#w

/-- A signed field with its prefix (03 R45). -/
def signedField {n : Nat} (x : Pfx) (o : BitVec n) : Int :=
  match x with
  | .none => o.toInt
  | .one p => (p ++ o).toInt
  | .two _ p => (p ++ o).toInt

/-- The address of a scalar memory operand: the base and a count of elements (05 R88). -/
def elemAddr {n : Nat} (base : Word) (x : Pfx) (o : BitVec n) (size : Nat) : Word :=
  BitVec.ofInt 64 (base.toInt + signedField x o * size)

/-- `n` bytes read as a number, with their sign or without (05 R88). -/
def loaded (sgnd : Bool) (n : Nat) (v : Nat) : Word :=
  BitVec.ofInt 64 (if sgnd ∧ 2 ^ (8 * n - 1) ≤ v then (v : Int) - 2 ^ (8 * n) else v)

/-- `n` bytes at `ea` lie, aligned, in the scratchpad (02 R29, 05 R89). -/
def InSp (ea : Word) (n : Nat) : Prop := ea.toNat + n ≤ 0x80000 ∧ ea.toNat % n = 0

/-- Nothing that comes before an access of a stream of core `own` to the own scratchpad is pending (02 R32, 10 R182): no access of the
stream to that scratchpad, and none of the other stream that a queue handoff puts before. -/
def Core.SpFree (c : Core) (own : Nat) (w : Bool) : Prop :=
  ∀ p ∈ c.acc, if p.w = w then sameSp p.p.at_ (.sp own 0) = false else c.afterOf w ≤ p.aid

/-- No access of a stream that is not UO is pending: a release of the stream need not wait (10 R183, R188). -/
def Core.Released (c : Core) (w : Bool) : Prop := ∀ p ∈ c.acc, p.w = w → p.p.kind = .uo

/-- No soft error stands in the words of `n` bytes of device memory (18 R302). -/
def State.WholeAt (s : State) (pa n : Nat) : Prop := ∀ e ∈ s.upsets, e.1 < pa / 8 ∨ (pa + n + 7) / 8 ≤ e.1

/-- An access of the S stream to these bytes of the scratchpad may be performed now. -/
def State.Local (s : State) (ea : Word) (n : Nat) : Prop := InSp ea n ∧ s.me.SpFree s.cur false

/-- No soft error stands in the words of `n` bytes of the scratchpad (18 R302). -/
def Core.Whole (c : Core) (off n : Nat) : Prop := ∀ e ∈ c.ups, e.1 < off / 8 ∨ (off + n + 7) / 8 ≤ e.1

/-- Nor does a watermark stand before a load of them (12 R225), nor a soft error in them (18 R302). -/
def State.LocalLd (s : State) (ea : Word) (n : Nat) : Prop := s.Local ea n ∧ s.me.wmBlocks ea n = false ∧ s.me.Whole ea.toNat n

/-- The bytes of the scratchpad from an offset on, as a number. -/
def State.spNat (s : State) (a : Word) (n : Nat) : Nat := leNat (Memory.read s.me.sp a.toNat n)

/-- The instruction completes, and stores these bytes in the scratchpad: those, and no others. The streamer need not see them yet (12
R227). -/
def Stores (i : Instr) (s : State) (words : Nat) (a : Word) (bs : List Byte) : Prop :=
  ∃ t, exec i s = .next t ∧
    (∀ o, Memory.get t.me.sp o = if a.toNat ≤ o ∧ o < a.toNat + bs.length then bs.getD (o - a.toNat) 0#8 else Memory.get s.me.sp o) ∧
    ∃ sp l u, s.Completes t words 1 fun c => { c with sp := sp, late := l, ups := u }

/-- A branch: taken, it goes on at the target after 3 cycles and one for each prefix; else at the next instruction (05 R78, R84). -/
def Branches (i : Instr) (s : State) (x : Pfx) (o : BitVec 13) (p : Prop) : Prop :=
  (p → ∃ t, exec i s = .next t ∧ s.Goes t (s.me.pc + BitVec.ofInt 64 (4 * signedField x o)) (3 + x.count) id) ∧
  (¬ p → Does i s (words x) 1 id)

/-- No barrier arrival of the S stream is pending (10 R188). -/
def Core.NoArrival (c : Core) : Prop := ∀ p ∈ c.acc, p.w = false → ∀ x y, p.op ≠ .arrive x y

/-- The core is one of the device's; the tagged word at `ea` is one of its scratchpad from `lo` on, no older wait on the word could
proceed (05 R93, R94), nothing that comes before the operation is pending (10 R182, R188), and no soft error stands in the word (18
R302). -/
def State.TagWord (s : State) (lo : Nat) (ea : Word) : Prop :=
  s.cur < nCores ∧ ea.toNat % 8 = 0 ∧ lo ≤ ea.toNat ∧ ea.toNat < 0x80000 ∧ s.me.Whole ea.toNat 8 ∧
    s.olderWaits s.cur ea.toNat (s.who s.cur false).ctx s.nextId = false ∧ s.me.SpFree s.cur false ∧ s.me.NoArrival

/-! Traps and services. -/

/-- The instruction raises a trap, which is all that it does (18 R289). -/
def Traps (i : Instr) (s : State) (cause : BitVec 8) (v : Word) : Prop := exec i s = .next (s.sTrap cause v)

/-- What the entry of a trap may do to the debug module: trace records, and the halt that ends a single step (24 R339, R341). -/
def Dbg.Traced (d e : Dbg) : Prop :=
  e = { d with
    skip := false, step := false, halted := e.halted, hcause := e.hcause, since := e.since, trPos := e.trPos, lost := e.lost } ∧
  (d.step = false → e.halted = d.halted ∧ e.hcause = d.hcause ∧ e.since = d.since)

/-- The trap handler of core `c` is entered (18 R289): the trap words hold the cause, the address and the value, INTRAP is set, and
the S stream goes on at the handler. Nothing else changes. -/
def State.Enters (s t : State) (c : Nat) (r : TrapRec) (entry : Word) : Prop :=
  s.OnlyCore t c ∧ Dbg.Traced (s.core c).dbg (t.core c).dbg ∧
    t.core c = { s.core c with
      c := { (s.core c).c with cause := BitVec.ofBool r.wstr ++ r.cause, tpc := r.pc, tval := r.val, intrap := true }
      pc := entry, stat := .run, ready := s.cyc + 1, waitFrom := none, pread := [], dbg := (t.core c).dbg }

/-- The W stream of the current core has drained, it is not in a trap handler, and one is bound at `entry` (18 R289). -/
def State.CanTrap (s : State) (entry : Word) : Prop :=
  s.me.wbuf = [] ∧ s.me.wpend = [] ∧ s.me.c.intrap = false ∧ ∃ h, s.handler s.myCtx 255 = some h ∧ h.entry = entry

/-- The instruction has no effect, and is tried again in the next cycle. -/
def Retries (i : Instr) (s : State) : Prop := exec i s = .next (s.updMe fun x => { x with ready := s.cyc + 1 })

/-- The state is `u`, but that the current core waits (05 R95). -/
def Waits (i : Instr) (s u : State) (w : SWait) : Prop :=
  exec i s = .next (u.upd s.cur fun x => { x with stat := .wait w 1 1, waitFrom := none })

/-- The instruction hands its work to a service, which leaves the state `u`, and waits for the reply `v` to `d` (07 R129, 08 R150,
14 R257). -/
def Asks (i : Instr) (s u : State) (d : Reg) (v : Word) : Prop := Waits i s u (.service d v)

/-- The result word of an expiry instruction (08 R150): status, the last member gone, member index, domain. -/
def dRes (st last ix d : Nat) : Word := BitVec.ofNat 64 (st * 2 ^ 60 + last * 2 ^ 24 + ix * 2 ^ 16 + d)

/-- The lowest free id of a block of ids (08 R136). -/
def State.Lowest (s : State) (lo n : Nat) (i : Dom) : Prop :=
  lo ≤ i.toNat ∧ i.toNat < lo + n ∧ (s.dom i).st = .free ∧ ∀ j : Dom, lo ≤ j.toNat → j.toNat < i.toNat → (s.dom j).st ≠ .free

/-- Nothing but the hub's tables, and packets sent, differs. -/
def State.OnlyHub (s u : State) : Prop := u = { s with hub := u.hub, net := u.net, nextId := u.nextId } ∧ ∃ l, u.net = s.net ++ l

/-- Nothing but the hub's tables, packets sent, and the rows' reservations (07 R132) differs. -/
def State.OnlyResv (s u : State) : Prop :=
  u = { s with hub := u.hub, net := u.net, nextId := u.nextId, rows := u.rows } ∧ (∃ l, u.net = s.net ++ l) ∧
    ∀ k, u.row k = { s.row k with resv := (u.row k).resv } ∧ ((u.row k).resv = (s.row k).resv ∨ (u.row k).resv = none)

/-- Nothing but the hub's tables, packets sent, and the instants in DOMAIN of running activations (08 R139) differs. -/
def State.OnlyDoms (s u : State) : Prop :=
  u = { s with hub := u.hub, net := u.net, nextId := u.nextId, cores := u.cores } ∧ (∃ l, u.net = s.net ++ l) ∧
    ∀ c, u.core c = { s.core c with c := { (s.core c).c with dom := { (s.core c).c.dom with inst := (u.core c).c.dom.inst } } }

/-- A waiting instruction of core `c` completes: the S stream goes on after its words, each prefix word adding a cycle (05 R78, R95). -/
def Wakes (i : Instr) (s : State) (c words cost : Nat) (f : Core → Core) : Prop :=
  ∃ t, exec i s = .next t ∧ ({ s with cur := c } : State).Completes t words cost f

/-- The checks of an access of the S stream pass: its pieces, and the state with what the translation has filled (11 R200). -/
def State.Passes (s : State) (acc : Acc) (a : Word) (n : Nat) (ps : List Piece) (w : State) : Prop :=
  s.chk (s.who s.cur false) .d acc (s.taskFps (s.who s.cur false).task) a n = .ok ps w

/-- Checked pieces that lie in device memory one after another from an address on, `n` bytes in all (12 R219). -/
def Flat : List Piece → Nat → Nat → Prop
  | [], _, n => n = 0
  | p :: r, pa, n => p.at_ = .dram pa ∧ p.n ≤ n ∧ Flat r (pa + p.n) (n - p.n)

/-- The state with a number used. -/
def State.used (s : State) : State := { s with nextId := s.nextId + 1 }

/-- An atomic on pieces that pass their checks is posted, or waited for when it names a register (15 R267). -/
def Posts (i : Instr) (s : State) (op : AtOp) (t : ATy) (m : Dm) (b a d : Reg) : Prop :=
  (∀ n, (n = if t = .i64 ∨ t = .u64 then 8 else 4) →
    ((s.me.rs a).toNat % n ≠ 0 → Traps i s 0x02#8 (s.me.rs a)) ∧
    ∀ ps w, (s.me.rs a).toNat % n = 0 → s.Passes .atomic (s.me.rs a) n ps w → ∃ u l, exec i s = .next u ∧ l.map (·.p) = ps ∧
      (∀ e ∈ l, e.aid = w.nextId ∧ e.op = .atomic op (s.me.rs b) (s.me.rs d) (d != 0#5) ∧ e.dom = s.dm m ∧ e.rel = false) ∧
      (d = 0#5 → w.used.Completes u 1 1 fun x => { x with acc := x.acc ++ l }) ∧
      (d ≠ 0#5 → u.me.stat = .wait (.atomic w.nextId d none t) 1 1 ∧ u.me.acc = w.me.acc ++ l ∧ u.me.r = s.me.r ∧ u.mem = s.mem))

/-- The instruction answers a next state in which it has completed, and `d` holds `v`, from the state `z` to which the firings held before
it (15 R277) have brought the machine. -/
def GivesFrom (i : Instr) (s z : State) (words cost : Nat) (d : Reg) (v : Word) : Prop :=
  ∃ t, exec i s = .next t ∧ z.Computes t words cost d v

/-- The operation submits a job, or says which check of its descriptor fails (15 R271), after the held firings (15 R277); with no slot free
it stalls; on a domain that is not live it completes and submits nothing (15 R269). -/
def Submits (i : Instr) (s : State) (o : Side) (kind : Desc → Nat) (x : DmR) (a d : Reg) : Prop :=
  let z := s.fireHeld s.cur
  let off := z.me.rs a
  let k := readDesc (z.me.spRead off.toNat 64)
  (∀ m, z.dmr x = (m, false) → exec i s = .next (z.sTrap 0x08#8 (m.setWidth 64))) ∧
  (∀ m, z.dmr x = (m, true) →
    (off.toNat % 64 ≠ 0 ∨ off.toNat < 0x800 ∨ 0x80000 < off.toNat + 64 → exec i s = .next (z.sTrap 0x02#8 off)) ∧
    (off.toNat % 64 = 0 → 0x800 ≤ off.toNat → off.toNat + 64 ≤ 0x80000 → z.me.slotFree = false → exec i s = .next (z.sStall off)) ∧
    (off.toNat % 64 = 0 → 0x800 ≤ off.toNat → off.toNat + 64 ≤ 0x80000 → z.me.slotFree = true → z.me.spBusy z.cur = false →
      (k.code z.own z.cur o ≠ 0 → GivesFrom i s z 1 4 d (BitVec.ofNat 64 (2 ^ 63 + k.code z.own z.cur o))) ∧
      (k.code z.own z.cur o = 0 → z.sideBad (z.who z.cur false) k o = none →
        ((z.sideDom x m).2 = true → (kind k = 5 → z.me.wbuf = [] ∧ z.me.sl.inbox.length < 8) → ∃ t j sl, exec i s = .next t ∧
          z.used.Completes t 1 4 (fun c => ({ c with jobs := c.jobs ++ [j], sl := sl } : Core).ws d 0#64) ∧
          (kind k ≠ 5 → sl = z.me.sl) ∧ j.id = z.nextId ∧ j.kind = kind k ∧ j.src = k.src ∧ j.dst = k.dst ∧ j.len = k.len ∧
          j.cmpl = k.cmpl ∧ j.sig = k.sig ∧ j.dom = (z.sideDom x m).1) ∧
        ((z.sideDom x m).2 = false → k.cmpl = 0 → o ≠ .putsg → GivesFrom i s z 1 4 d 0#64))))

/-! Floating values (04). -/

/-- The real value of a finite value; 0 stands for the others. -/
def FV.val : FV → ℚ
  | .fin s m e => (if s then -1 else 1) * m * 2 ^ e
  | _ => 0

/-- Neither a NaN nor an infinity. -/
def FV.isFin : FV → Bool
  | .fin _ _ _ => true
  | _ => false

/-- A rounding of finite values to a format of `n` bits with `p` bits of precision is the one of 04 R55: below `big` the result is a
nearest value of the format, the even one of two; from `big` on it is an infinity, with VOF and VNX; VNX says that it is not exact, VUF
that it is not exact and that the value, rounded to the precision alone, stays below the smallest normal one. -/
def RoundsTo {n : Nat} (f : FV → BitVec n × BitVec 5) (v : BitVec n → FV) (p : Nat) (big : ℚ) : Prop :=
  ∀ s m e, let q := (FV.fin s m e).val
    let r := f (.fin s m e)
    let tiny : Prop := q ≠ 0 ∧ |q| < (2 ^ (p + 1) - 1) * 2 ^ (-127 - (p : Int))
    r.1.getLsbD (n - 1) = s ∧
    (|q| < big → (v r.1).isFin = true ∧
      (∀ w, (v w).isFin = true → |q - (v r.1).val| ≤ |q - (v w).val| ∧
        (|q - (v r.1).val| = |q - (v w).val| → (v w).val ≠ (v r.1).val → r.1.getLsbD 0 = false)) ∧
      (r.2.getLsbD 1 = true ↔ (v r.1).val ≠ q) ∧ (r.2.getLsbD 2 = true ↔ (v r.1).val ≠ q ∧ tiny) ∧ r.2 &&& 25#5 = 0#5) ∧
    (big ≤ |q| → v r.1 = .inf s ∧ r.2 = flOF ||| flNX)

/-! The W stream. -/

/-- What the issue of a W instruction may do to the debug module: counters, samples, and the mark of a watchpoint (24 R339,
R343). -/
def Dbg.Counted (d e : Dbg) : Prop :=
  e = { d with ctr := e.ctr, ovf := e.ovf, hit := e.hit } ∧ (d.wpen = 0#2 → e.hit = d.hit)

/-- The W head of the current core has issued (02 R22, R26): its entry leaves the buffer, the next may issue `cost` cycles later, the
writes `l` are pending, and `f` is what else it does to the core. Nothing else changes. -/
def State.Issued (s t : State) (cost : Nat) (l : List WPend) (f : Core → Core) : Prop :=
  t = { s with cores := t.cores, phase := .s } ∧ (∀ d, d ≠ s.cur → t.core d = s.core d) ∧ Dbg.Counted s.me.dbg t.me.dbg ∧
    t.me = { f s.me with
      wbuf := s.me.wbuf.tail, wReady := s.cyc + cost, wFrom := none, pread := tDel s.me.pread 1, wpend := s.me.wpend ++ l, dbg := t.me.dbg }

/-- A W instruction stands at the head; each source in stream mode holds a strip, and the destination is not in stream mode (12
R229). -/
def State.CanIssue (s : State) (l : List VReg) (d : Option VReg) : Prop :=
  s.phase = .w ∧ (∀ r ∈ l, ∀ x, tGet s.me.str r.toNat = some x → x.buf ≠ []) ∧ ∀ r, d = some r → tGet s.me.str r.toNat = none

/-- The flags of the lanes in a mask (04 R55, 06 R99). -/
def FlagsOf (fl : BitVec 5) (m : BitVec 48) (f : Fin 48 → BitVec 5) : Prop :=
  ∀ b, fl.getLsbD b = true ↔ ∃ n, laneMask m n = true ∧ (f n).getLsbD b = true

/-- It issues, and each lane in its mask will hold `f` of its sources (06 R99). -/
def IssuesLanes (i : Instr) (l : List VReg) (k : KReg) (d : VReg) (cost lat : Nat) (f : State → Fin 48 → Lane × BitVec 5) : Prop :=
  ∀ s : State, s.CanIssue l (some d) → ∃ t x fl, exec i s = .next t ∧ FlagsOf fl (s.me.rk k) (fun n => (f s n).2) ∧
    (∀ n : Fin 48, x[n] = (f s n).1) ∧
    s.Issued t cost [⟨s.cyc + (lat - 1), .v d (s.me.rk k) x, fl⟩] (Core.popStrips l)

/-- A register of two sources, of one, of three, and of a window word. -/
def Issues2 (i : KReg → VReg → VReg → VReg → Instr) (lat : Nat) (f : Lane → Lane → Lane × BitVec 5) : Prop :=
  ∀ k b a d, IssuesLanes (i k b a d) [a, b] k d 1 lat fun s n => f (s.me.src a)[n] (s.me.src b)[n]
def Issues1 (i : KReg → VReg → VReg → Instr) (cost lat : Nat) (f : Lane → Lane × BitVec 5) : Prop :=
  ∀ k a d, IssuesLanes (i k a d) [a] k d cost lat fun s n => f (s.me.src a)[n]
def Issues3 (i : KReg → VReg → VReg → VReg → VReg → Instr) (f : Lane → Lane → Lane → Lane × BitVec 5) : Prop :=
  ∀ k c b a d, IssuesLanes (i k c b a d) [a, b, c] k d 1 6 fun s n => f (s.me.src a)[n] (s.me.src b)[n] (s.me.src c)[n]
def IssuesC (t : VTy) (i : KReg → CIx → VReg → VReg → Instr) (lat : Nat) (f : Lane → Lane → Lane × BitVec 5) : Prop :=
  ∀ k c a d, IssuesLanes (i k c a d) [a] k d 1 lat fun s n => f (s.me.src a)[n] (constLane t s.head.cst)

/-- A compare: each bit of its mask will hold the relation (06 R101). -/
def IssuesMask (i : Instr) (l : List VReg) (k d : KReg) (f : State → Fin 48 → Bool × BitVec 5) : Prop :=
  ∀ s : State, s.CanIssue l none → ∃ t x fl, exec i s = .next t ∧ FlagsOf fl (s.me.rk k) (fun n => (f s n).2) ∧
    (∀ n : Fin 48, laneMask x n = (f s n).1) ∧
    s.Issued t 1 [⟨s.cyc + 1, .k d (s.me.rk k) x, fl⟩] (Core.popStrips l)

/-- The slots of q4 to q7 that pending writes have taken (02 R24). -/
def Core.taken (c : Core) (q : BitVec 2) : Nat :=
  (c.wpend.filter fun p => match p.tgt with | .q m _ _ => m == q | _ => false).length

/-- With a free slot it issues, and its queue will hold a value; with none it stalls (02 R24). -/
def IssuesPush (i : Instr) (l : List VReg) (q : BitVec 2) (lat : Nat) (v : State → Word) (fl : State → BitVec 5) : Prop :=
  ∀ s : State, s.CanIssue l none →
    ((s.me.rq (1#1 ++ q)).length + s.me.taken q < 4 → ∃ t, exec i s = .next t ∧
      s.Issued t 1 [⟨s.cyc + (lat - 1), .q q (v s) s.nextId, fl s⟩] (Core.popStrips l)) ∧
    (4 ≤ (s.me.rq (1#1 ++ q)).length + s.me.taken q → ∃ t, exec i s = .next t ∧ t.me.wbuf = s.me.wbuf ∧ t.me.wReady = s.cyc + 1 ∧
      t.me.wpend = s.me.wpend ∧ t.me.r = s.me.r)

/-- What a queue register holds after its oldest entry has left it. -/
def Core.dequeued (c : Core) (q : BitVec 3) : Core :=
  { c.wq q (c.rq q).tail with qinfo := c.qinfo.set q.toNat (c.qinfo[q.toNat]'q.isLt).tail q.isLt }

/-- What a queue register holds after a value has been added, which can be taken from a cycle on and comes after the accesses below a
number (02 R24, R32). -/
def Core.enqueued (c : Core) (q : BitVec 3) (v : Word) (from_ after : Nat) : Core :=
  { c.wq q (c.rq q ++ [v]) with qinfo := c.qinfo.set q.toNat (c.qinfo[q.toNat]'q.isLt ++ [(from_, after)]) q.isLt }

/-- What the W stream does after an entry of q0 to q3 has been read comes after the accesses that precede its write (02 R32). -/
def Core.sawEntry (c : Core) (q : BitVec 2) : Core := { c with wAfter := max c.wAfter (c.qhead (0#1 ++ q)).2 }

/-- With an entry in its queue that has arrived it issues, and takes it; with none, or before it has arrived, it stalls while the S
stream runs (02 R24, R25). -/
def IssuesPop (i : Instr) (q : BitVec 2) (d : Option VReg) (f : State → Word → WTgt) : Prop :=
  ∀ s : State, s.CanIssue [] d → let n : BitVec 3 := 0#1 ++ q
    (∀ x r, s.me.rq n = x :: r → (s.me.qhead n).1 ≤ s.cyc → ∃ t, exec i s = .next t ∧
      s.Issued t 1 [⟨s.cyc + 1, f s x, 0#5⟩] fun c => { c.dequeued n with wAfter := max c.wAfter (c.qhead n).2 }) ∧
    (s.me.rq n = [] ∧ s.me.stat = .run ∨ s.me.rq n ≠ [] ∧ s.cyc < (s.me.qhead n).1 → ∃ t, exec i s = .next t ∧
      t.me.wbuf = s.me.wbuf ∧ t.me.wReady = s.cyc + 1 ∧ t.me.wpend = s.me.wpend ∧ t.me.r = s.me.r)

/-- The base of a W access (06 R108): read when the instruction came to the head, or the first entry of its queue, which has arrived. -/
def State.HasBase (s : State) (q : BitVec 2) (b : Word) : Prop :=
  s.me.wbuf ≠ [] ∧ (s.head.base = some b ∨
    s.head.base = none ∧ (s.me.rq (0#1 ++ q)).head? = some b ∧ (s.me.qhead (0#1 ++ q)).1 ≤ s.cyc)

/-- The core once the base of its W head has been read. -/
def State.sawBase (s : State) (q : BitVec 2) : Core := if s.head.base.isSome then s.me else s.me.sawEntry q

/-- The base leaves its queue when the instruction issues, unless PK is set (06 R108). -/
def Core.tookBase (c : Core) (pk : Bool) (q : BitVec 2) : Core :=
  if pk then c else { c.dequeued (0#1 ++ q) with wAfter := max c.wAfter (c.qhead (0#1 ++ q)).2 }

/-- The core after a W access whose base stood in a queue. -/
def State.afterBase (s : State) (pk : Bool) (q : BitVec 2) (c : Core) : Core :=
  (if s.head.base.isSome then c else c.sawEntry q).tookBase pk q

/-- The lanes in a mask lie in the scratchpad, from an offset on, and nothing that comes before the access is pending. -/
def State.LocalLanes (s : State) (q : BitVec 2) (lo : Nat) (m : BitVec 48) (a : Fin 48 → Word) : Prop :=
  (s.sawBase q).SpFree s.cur true ∧ ∀ n, laneMask m n = true → InSp (a n) 4 ∧ lo ≤ (a n).toNat

/-- A W load within the scratchpad: each lane in the mask will hold the word at its address (06 R109). -/
def LoadsLanes (i : Instr) (l : List VReg) (pk : Bool) (q : BitVec 2) (k : KReg) (d : VReg) (cost lat : Nat)
    (a : State → Word → Fin 48 → Word) : Prop :=
  ∀ s : State, ∀ b, s.CanIssue l (some d) → s.HasBase q b → plainBase b = true → s.LocalLanes q 0 (s.me.rk k) (a s b) →
    (∀ n, laneMask (s.me.rk k) n = true → s.me.wmBlocks (a s b n) 4 = false ∧ s.me.Whole (a s b n).toNat 4) → ∃ t x, exec i s = .next t ∧
      (∀ n : Fin 48, laneMask (s.me.rk k) n = true → x[n] = BitVec.ofNat 32 (s.spNat (a s b n) 4)) ∧
      s.Issued t cost [⟨s.cyc + (lat - 1), .v d (s.me.rk k) x, 0#5⟩] fun c => (s.afterBase pk q c).popStrips l

/-- A W store within the scratchpad: the lanes in the mask are stored, in ascending order, and nothing else (06 R109, R111). -/
def StoresLanes (i : Instr) (l : List VReg) (pk : Bool) (q : BitVec 2) (k : KReg) (d : VReg) (cost : Nat)
    (a : State → Word → Fin 48 → Word) : Prop :=
  ∀ s : State, ∀ b, s.CanIssue l none → s.HasBase q b → plainBase b = true → s.LocalLanes q 0x80 (s.me.rk k) (a s b) →
    ∃ t sp lt ups, exec i s = .next t ∧
      s.Issued t cost [] (fun c => { (s.afterBase pk q c).popStrips l with sp := sp, late := lt, ups := ups }) ∧
      ∀ o, Memory.get sp o = (List.finRange 48).foldl (fun x n =>
        if laneMask (s.me.rk k) n = true ∧ (a s b n).toNat ≤ o ∧ o < (a s b n).toNat + 4 then
          ((s.me.src d)[n]).extractLsb' (8 * (o - (a s b n).toNat)) 8
        else x) (Memory.get s.me.sp o)

/-- The matrix instruction at the head has issued: its part stands in the inbox of the slice, from the next cycle on (09 R159). -/
def State.Sent (s t : State) (p : Part) : Prop :=
  s.Issued t 1 [] (fun c => { c with sl := { c.sl with inbox := c.sl.inbox ++ [p] } }) ∧ p.word = s.head.word ∧ p.cst = s.head.cst ∧
    p.dom = (s.who s.cur true).dom ∧ p.task = (s.who s.cur true).task ∧ p.src = s.cur ∧ p.t = s.cyc + 1

/-- The instruction sends its part to the inbox of the matrix slice, which has room (09 R159). -/
def SendsPart (i : Instr) (s : State) : Prop := ∃ t p, exec i s = .next t ∧ s.Sent t p

/-- The instruction sends its part, and whenever a slice has run that part for its busy count, it does `f` to the core (09 R163, R173 to
R176). -/
def Performs (i : Instr) (s : State) (f : Core → Core → Prop) : Prop :=
  ∃ t p, exec i s = .next t ∧ s.Sent t p ∧ ∀ u c e, (State.core u c).sl.cur = some (p, e) → e < u.cyc → (u.core c).res ≠ none →
    ∃ v, exec (.slicePartComplete c) u = .next v ∧ v.mem = u.mem ∧ (v.core c).r = (u.core c).r ∧ f (u.core c) (v.core c)

/-- The bytes of a scratchpad after a slice part has written some from an offset on (09 R174, R175). -/
def Core.Wrote (x y : Core) (o : Nat) (bs : List Byte) : Prop :=
  ∀ a, Memory.get y.sp a = if o ≤ a ∧ a < o + bs.length then bs.getD (a - o) 0#8 else Memory.get x.sp a

/-- What a ring job sends leaves for the next rank, its flits after it, or is dropped at the port and counted; the job goes on as `j` (15
R280, 20 R317, R319). -/
def State.RingSent (s t : State) (port : Nat) (o : Out) (j : RingJob) (r : List RingJob) : Prop :=
  (∃ f, (t.port port).ring = { j with flits := f } :: r) ∧
    (s.ringCut port j = false → ∃ l, t.out = s.out ++ o :: l ∧ ∀ x ∈ l, ∃ q d, x = .flit port q d) ∧
    (s.ringCut port j = true → t.out = s.out ∧ (t.port port).nodev = (s.port port).nodev + 1)

/-! Gangs (09). -/

/-- Eight gang parts, one of each slice of a row, stand at the heads of slices that have been idle for two cycles, every tile is
settled, no gang operation of the row is in its steps, and no wait of the row has reached its limit (09 R162, R163). -/
def State.GangReady (u : State) (row : Nat) (ps : List Part) : Prop :=
  u.gangtoDue row = false ∧
  (rowCores row).filterMap u.gangHead = ps ∧ ps.length = 8 ∧ (∀ c ∈ rowCores row, ∀ p, u.gangHead c = some p → p.src = c) ∧
    (∀ p ∈ ps, p.t + 2 ≤ u.cyc ∧ (u.sl p.src).busy + 2 ≤ u.cyc ∧ (u.sl p.src).arrs = [] ∧ (u.sl p.src).cur = none ∧
      ∀ t, ((u.sl p.src).tile t).st = .settled) ∧
    ∀ g ∈ (u.row row).gangs, g.iter = none

/-- The tile of a part gains the aligned sums of one step, cleared first when `clr` (09 R170): A stands at the block offset `a` of the
slot that the descriptor names, B at the block `b` of the part's half of the weight buffer. -/
def State.PartAdds (u v : State) (row : Nat) (p : Part) (d : Word) (a b : Nat) (clr : Bool) (t : AReg) : Prop :=
  ∀ k, k < 1536 → let o := if clr then 0#48 else (u.sl p.src).cell t k
    (v.sl p.src).cell t k =
      match tGet (stepAdds p.five p.grp (dE d) (u.aBlks row d a) ((u.core p.src).bBlks p.wb b)).1 k with
      | some x => cellAdd o x
      | none => o

/-- Every block of a step is valid (09 R170). -/
def State.StepGood (u : State) (row : Nat) (ps : List Part) (five : Bool) (d : Word) (a b : Nat) : Prop :=
  stepFail five (dAsl d) (u.aBlks row d a) (ps.map fun q => (u.core q.src).bBlks q.wb b) = none

end Sys2Proof.Machine
end

