-- ==== Sys2Proof/Certificates/Slice0/Obligations.lean ====
section
/-! DEFINITION. The statements about the model, for the provers. -/

section

open Sys2Proof Sys2Proof.Machine

/-! Scalar instructions (05). -/

/-- R80: the sums, differences and bitwise functions, in every form, complete with the table's result.
R80, R82: shifts and rotations by the second operand modulo the width, and the bit field. -/
def Obligations.ScalarLogic : Prop :=
  ((OnForms (fun _ x y => x + y) 1 .add .addConst ∧ OnImm (fun _ x y => x + y) 1 .addImm) ∧
   OnForms (fun _ x y => x - y) 1 .sub .subConst ∧
   (OnForms (fun _ x y => x &&& y) 1 .and .andConst ∧ OnImm (fun _ x y => x &&& y) 1 .andImm) ∧
   (OnForms (fun _ x y => x ||| y) 1 .or .orConst ∧ OnImm (fun _ x y => x ||| y) 1 .orImm) ∧
   (OnForms (fun _ x y => x ^^^ y) 1 .xor .xorConst ∧ OnImm (fun _ x y => x ^^^ y) 1 .xorImm) ∧
   OnForms (fun _ x y => x &&& ~~~ y) 1 .andn .andnConst ∧
   OnForms (fun _ x y => x ||| ~~~ y) 1 .orn .ornConst) ∧
  ((OnForms (fun w x y => x <<< (y.toNat % w)) 1 .shl .shlConst ∧ OnImm (fun w x y => x <<< (y.toNat % w)) 1 .shlImm) ∧
   (OnForms (fun w x y => x >>> (y.toNat % w)) 1 .shr .shrConst ∧ OnImm (fun w x y => x >>> (y.toNat % w)) 1 .shrImm) ∧
   (OnForms (fun w x y => x.sshiftRight (y.toNat % w)) 1 .sra .sraConst ∧
     OnImm (fun w x y => x.sshiftRight (y.toNat % w)) 1 .sraImm) ∧
   (OnForms (fun w x y => x.rotateRight (y.toNat % w)) 1 .ror .rorConst ∧
     OnImm (fun w x y => x.rotateRight (y.toNat % w)) 1 .rorImm) ∧
   OnForms (fun w x y => (x >>> (y.extractLsb' 0 6).toNat) &&& BitVec.ofNat w (2 ^ (y.extractLsb' 6 7).toNat - 1)) 1 .bfx .bfxConst)

/-- R80: the low and the high halves of products, in 3 cycles (R78).
R81: division truncates toward zero, the remainder takes the sign of the dividend, and a divisor of zero has the table's
results; in 34 cycles (R78). -/
def Obligations.ScalarProducts : Prop :=
  ((OnForms (fun _ x y => x * y) 3 .mul .mulConst ∧ OnImm (fun _ x y => x * y) 3 .mulImm) ∧
   OnForms (fun w x y => (x.signExtend (2 * w) * y.signExtend (2 * w)).extractLsb' w w) 3 .mulh .mulhConst ∧
   OnForms (fun w x y => (x.setWidth (2 * w) * y.setWidth (2 * w)).extractLsb' w w) 3 .mulhu .mulhuConst) ∧
  (OnForms (fun w x y => if y = 0#w then BitVec.allOnes w else x.sdiv y) 34 .div .divConst ∧
   OnForms (fun w x y => if y = 0#w then BitVec.allOnes w else x.udiv y) 34 .divu .divuConst ∧
   OnForms (fun w x y => if y = 0#w then x else x.srem y) 34 .rem .remConst ∧
   OnForms (fun w x y => if y = 0#w then x else x.umod y) 34 .remu .remuConst)

/-- R80: comparisons, and the lesser and the greater of two operands, by both readings.
R80, R83: the absolute value, which wraps on the most negative number, the counts of bits, and `li`. -/
def Obligations.ScalarSelection : Prop :=
  ((OnForms (fun _ x y => if x.slt y then x else y) 1 .min .minConst ∧ OnImm (fun _ x y => if x.slt y then x else y) 1 .minImm) ∧
   (OnForms (fun _ x y => if x.slt y then y else x) 1 .max .maxConst ∧ OnImm (fun _ x y => if x.slt y then y else x) 1 .maxImm) ∧
   OnForms (fun _ x y => if x.ult y then x else y) 1 .minu .minuConst ∧
   OnForms (fun _ x y => if x.ult y then y else x) 1 .maxu .maxuConst ∧
   (OnForms (fun w x y => bit w (x = y)) 1 .ceq .ceqConst ∧ OnImm (fun w x y => bit w (x = y)) 1 .ceqImm) ∧
   (OnForms (fun w x y => bit w (x ≠ y)) 1 .cne .cneConst ∧ OnImm (fun w x y => bit w (x ≠ y)) 1 .cneImm) ∧
   (OnForms (fun w x y => bit w (x.slt y)) 1 .clt .cltConst ∧ OnImm (fun w x y => bit w (x.slt y)) 1 .cltImm) ∧
   (OnForms (fun w x y => bit w (x.ult y)) 1 .cltu .cltuConst ∧ OnImm (fun w x y => bit w (x.ult y)) 1 .cltuImm) ∧
   (OnForms (fun w x y => bit w (x.sle y)) 1 .cle .cleConst ∧ OnImm (fun w x y => bit w (x.sle y)) 1 .cleImm) ∧
   OnForms (fun w x y => bit w (x.ule y)) 1 .cleu .cleuConst) ∧
  (OnUnary (fun w x => if x.slt 0#w then -x else x) .abs ∧
   OnUnary (fun w x => BitVec.ofNat w ((List.range w).takeWhile fun i => ! x.getMsbD i).length) .clz ∧
   OnUnary (fun w x => BitVec.ofNat w ((List.range w).takeWhile fun i => ! x.getLsbD i).length) .ctz ∧
   OnUnary (fun w x => BitVec.ofNat w ((List.range w).filter fun i => x.getLsbD i).length) .popc ∧
   ∀ s : State, ∀ d,
     (∀ i, Gives (.li .none i d) s 1 1 d (BitVec.ofInt 64 i.toInt)) ∧
     (∀ p i, Gives (.li (.one p) i d) s 2 1 d (BitVec.ofInt 64 (p ++ i).toInt)))

/-! Control flow (05). -/

/-- R84: each branch is taken exactly when its condition holds of the two registers, signed or unsigned; `loop` counts down, and is
taken unless it reaches 0, and never on s0.
R85, R40: jumps; the link is the address after the instruction, `jr` reads its target before it, and a target that is no
multiple of 4 raises the alignment trap at the jump. -/
def Obligations.ControlTransfer : Prop :=
  (∀ s : State, ∀ x o b a,
     Branches (.beq x o b a) s x o ((s.me.rs a).toNat = (s.me.rs b).toNat) ∧
     Branches (.bne x o b a) s x o ((s.me.rs a).toNat ≠ (s.me.rs b).toNat) ∧
     Branches (.blt x o b a) s x o ((s.me.rs a).toInt < (s.me.rs b).toInt) ∧
     Branches (.bge x o b a) s x o ((s.me.rs b).toInt ≤ (s.me.rs a).toInt) ∧
     Branches (.bltu x o b a) s x o ((s.me.rs a).toNat < (s.me.rs b).toNat) ∧
     Branches (.bgeu x o b a) s x o ((s.me.rs b).toNat ≤ (s.me.rs a).toNat) ∧
     (a ≠ 0#5 ∧ s.me.rs a ≠ 1#64 → ∃ t, exec (.loop x o a) s = .next t ∧
       s.Goes t (s.me.pc + BitVec.ofInt 64 (4 * signedField x o)) (1 + x.count) fun c => c.ws a (s.me.rs a - 1#64)) ∧
     (a = 0#5 ∨ s.me.rs a = 1#64 → Does (.loop x o a) s (words x) 1 fun c => c.ws a (s.me.rs a - 1#64))) ∧
  (∀ s : State, ∀ x o a d,
     (∃ t, exec (.j x o) s = .next t ∧ s.Goes t (s.me.pc + BitVec.ofInt 64 (4 * signedField x o)) (3 + x.count) id) ∧
     (∃ t, exec (.call x o d) s = .next t ∧
       s.Goes t (s.me.pc + BitVec.ofInt 64 (4 * signedField x o)) (3 + x.count)
         fun c => c.ws d (s.me.pc + BitVec.ofNat 64 (4 + 4 * x.count))) ∧
     ((s.me.rs a).toNat % 4 = 0 →
       ∃ t, exec (.jr a d) s = .next t ∧ s.Goes t (s.me.rs a) 3 fun c => c.ws d (s.me.pc + 4#64)) ∧
     ((s.me.rs a).toNat % 4 ≠ 0 → exec (.jr a d) s = .next (s.sTrap 0x02#8 (s.me.rs a))))

/-! Memory (05). -/

/-- R87, R88, R92: a load from the scratchpad gives the bytes at its address, little-endian, widened with their sign or with
zeros; nothing else changes. -/
def Obligations.LocalLoad : Prop :=
  ∀ s : State, ∀ a d,
    (∀ x o r c t, let ea := elemAddr (s.me.rs a) x o (mSize t)
      s.LocalLd ea (mSize t) → Gives (.ld x o r c t a d) s (words x) 2 d (loaded (mSigned t) (mSize t) (s.spNat ea (mSize t)))) ∧
    (∀ t b, let ea := BitVec.ofInt 64 ((s.me.rs a).toInt + (s.me.rs b).toInt * mSize t)
      s.LocalLd ea (mSize t) → Gives (.ldx t b a d) s 1 2 d (loaded (mSigned t) (mSize t) (s.spNat ea (mSize t)))) ∧
    (∀ b, s.LocalLd (s.me.rs a) 16 →
      Does (.ldp b a d) s 1 2 fun c =>
        (c.ws d (BitVec.ofNat 64 (s.spNat (s.me.rs a) 8))).ws b (BitVec.ofNat 64 (s.spNat (s.me.rs a + 8#64) 8)))

/-- R87, R88, R92: a store to the scratchpad above c0 to c15 writes the bytes of its register at its address, and no others;
`stp` writes two registers, and `zblk` a null block, whose CHK is the CRC-16 of its other bytes (R64). -/
def Obligations.LocalStore : Prop :=
  ∀ s : State, ∀ a d,
    (∀ x o r c m t, let ea := elemAddr (s.me.rs a) x o (stSize t)
      s.Local ea (stSize t) → 0x80 ≤ ea.toNat → (r = .rel → s.me.Released false) →
      Stores (.st x o r c m t a d) s (words x) ea (leBytes (stSize t) (s.me.rs d).toNat)) ∧
    (∀ t b, let ea := BitVec.ofInt 64 ((s.me.rs a).toInt + (s.me.rs b).toInt * stSize t)
      s.Local ea (stSize t) → 0x80 ≤ ea.toNat → Stores (.stx t b a d) s 1 ea (leBytes (stSize t) (s.me.rs d).toNat)) ∧
    (∀ b, s.Local (s.me.rs a) 16 → 0x80 ≤ (s.me.rs a).toNat →
      Stores (.stp b a d) s 1 (s.me.rs a) (leBytes 8 (s.me.rs d).toNat ++ leBytes 8 (s.me.rs b).toNat)) ∧
    (s.Local (s.me.rs a) 64 → 0x80 ≤ (s.me.rs a).toNat →
      let body : List Byte := [0x10#8, 0xFF#8] ++ List.replicate 60 0#8
      Stores (.zblk a) s 1 (s.me.rs a) (body ++ leBytes 2 (crc16 body).toNat))

/-- R93: each tagged operation on a word of the own scratchpad that it may act on, when its tag allows it, reads, writes and sets
the tag as the table says, in one step, in which armed puts on the word are evaluated; a tag write releases what precedes it
(R188). -/
def Obligations.LocalTagged : Prop :=
  ∀ s : State, ∀ x o a d, let ea := BitVec.ofInt 64 ((s.me.rs a).toInt + signedField x o * 8)
    let w := BitVec.ofNat 64 (s.spNat ea 8)
    let ev := fun c : Core => c.evalArmed ea.toNat s.cyc
    let put := fun c : Core => c.spWrite ea.toNat (leBytes 8 (s.me.rs d).toNat)
    let full := s.me.full ea.toNat
    (s.TagWord 0 ea →
      (full = true → Does (.ldw x o a d) s (words x) 2 fun c => (ev c).ws d w) ∧
      Does (.trd x o a d) s (words x) 2 fun c => (ev c).ws d (if full then 1#64 else 0#64)) ∧
    (s.TagWord 0x800 ea → full = false → Does (.twait x o a) s (words x) 2 ev) ∧
    (s.me.Released false → ∀ m,
      (s.TagWord 0x80 ea →
        Does (.stf x o m a d) s (words x) 2 (fun c => ev ((put c).setTag ea.toNat true)) ∧
        Does (.tset x o m a) s (words x) 2 (fun c => ev (c.setTag ea.toNat true))) ∧
      (s.TagWord 0x800 ea →
        (full = true → Does (.take x o m a d) s (words x) 2 fun c => (ev (c.setTag ea.toNat false)).ws d w) ∧
        (full = false → Does (.stw x o m a d) s (words x) 2 fun c => ev ((put c).setTag ea.toNat true)) ∧
        Does (.tclr x o m a) s (words x) 2 (fun c => ev (c.setTag ea.toNat false))))

/-- R92, R184, R185, R227, R49: what changes nothing: a prefetch, hints, `nop`, and fences with nothing left to wait for; after an `xfence` the
streamer sees every earlier store of the core. -/
def Obligations.NoEffect : Prop :=
  ∀ s : State,
    Does .pf s 1 1 id ∧ Does .nop s 1 1 id ∧ Does .hintPoll s 1 1 id ∧ Does .hintOther s 1 1 id ∧
    (s.me.wbuf = [] → ((∀ p ∈ s.me.acc, p.loads = true → p.p.kind = .uo) → ∀ c, Does (.fence .acq c) s 1 1 id) ∧
      ((∀ p ∈ s.me.acc, p.p.kind = .uo) → ∀ o c, Does (.fence o c) s 1 1 id) ∧
      (s.me.acc = [] → Does .drain s 1 1 id ∧ Does .xfence s 1 1 fun c => { c with late := [] }))

/-- R97, R24: `qpush` appends to q0 to q3 while there are fewer than four entries, and `qpop` takes the oldest entry of q4 to q7. -/
def Obligations.QueueMoves : Prop :=
  ∀ s : State, ∀ n : BitVec 2, ∀ r,
    ((s.me.rq (0#1 ++ n)).length < 4 → Does (.qpush r n) s 1 1 fun c => c.enqueued (0#1 ++ n) (s.me.rs r) (s.cyc + 1) s.nextId) ∧
    (∀ v l, s.me.rq (1#1 ++ n) = v :: l → (s.me.qhead (1#1 ++ n)).1 ≤ s.cyc → Does (.qpop n r) s 1 1 fun c =>
      { (c.dequeued (1#1 ++ n)).ws r v with sAfter := max c.sAfter (c.qhead (1#1 ++ n)).2 })

/-! Traps, control words and time (18, 02). -/

/-- R289, R290: a trap enters the handler once the W stream has drained, and else waits for it; in a handler, or without one, an
unrecoverable trap ends the activation; a recoverable one without a handler parks the core on a fault entry.
R292, R41: `trap`, `brk` without armed breakpoints, and a word that does not decode enter the handler of the trap that the
table names; `brk` halts the core first while breakpoints are armed.
R291: `eret` leaves the handler for TRAPPC, in 3 cycles, once the W stream has drained; outside a handler it is an illegal
instruction.
TRAPVAL of an `eret` whose wait reaches the limit is a free value (log entry 77). -/
def Obligations.TakingTraps : Prop :=
  (∀ s : State, ∀ cause v, let r : TrapRec := ⟨cause, s.me.pc, v, false⟩
     (∀ h, s.CanTrap h → s.Enters (s.sTrap cause v) s.cur r h) ∧
     (¬ (s.me.wbuf = [] ∧ s.me.wpend = []) → s.sTrap cause v = s.updMe fun x => { x with stat := .trapping r, waitFrom := none }) ∧
     (s.me.wbuf = [] → s.me.wpend = [] → (s.me.c.intrap = true ∨ s.handler s.myCtx 255 = none ∧ recoverable cause = false) →
       (s.sTrap cause v).me.act = none ∧ (s.sTrap cause v).me.stat = .idle) ∧
     (s.me.wbuf = [] → s.me.wpend = [] → s.me.c.intrap = false → s.handler s.myCtx 255 = none → recoverable cause = true →
       (s.sTrap cause v).me.park = some (s.nextId, s.cyc) ∧ (s.sTrap cause v).me.r = s.me.r ∧ (s.sTrap cause v).me.pc = s.me.pc)) ∧
  (∀ s : State, let n : Word := BitVec.ofNat 64 (s.ir.toNat / 2 ^ 20)
     (∀ h, s.CanTrap h →
       (∃ t, exec .trap s = .next t ∧ s.Enters t s.cur ⟨0x0A#8, s.me.pc, n, false⟩ h) ∧
       (s.me.dbg.bpen = 0#4 ∨ s.me.dbg.skip = true → ∃ t, exec .brk s = .next t ∧ s.Enters t s.cur ⟨0x0B#8, s.me.pc, n, false⟩ h) ∧
       (∃ t, exec .illegalInstruction s = .next t ∧ s.Enters t s.cur ⟨0x01#8, s.me.pc, BitVec.ofNat 64 s.ir.toNat, false⟩ h)) ∧
     (s.me.dbg.bpen ≠ 0#4 → s.me.dbg.skip = false → ∃ t, exec .brk s = .next t ∧ s.OnlyCore t s.cur ∧
       t.me.dbg.halted = true ∧ t.me.dbg.hcause = 4#8 ∧ { t.me with dbg := s.me.dbg } = s.me)) ∧
  (∀ s : State,
     (s.me.c.intrap = true → s.me.wbuf = [] → s.me.wpend = [] → s.me.c.tpc.toNat % 4 = 0 →
       ∃ t, exec .eret s = .next t ∧ s.Goes t s.me.c.tpc 3 fun c => { c with c := { c.c with intrap := false } }) ∧
     (s.me.c.intrap = true → ¬ (s.me.wbuf = [] ∧ s.me.wpend = []) → exec .eret s = .next (s.sStall (Config.waitVal s.nextId))) ∧
     (s.me.c.intrap = false → Traps .eret s 0x01#8 0x00010012#64))

/-- R35 to R39, R293, R294: reads and writes of the control words, and of the time. A word that a handler may not write is a
violation.
R49, R341: `hint 2, n` completes as a `nop` does, and where there is room its mark stands in the trace ring: cycle, core, kind 4,
n and the address.
R307, R86: without a pre-emption request, in a handler, or without a table `ckpt` does nothing; `done` stops dispatch, unless
the W head waits on a queue for ever.
When the trace ring has room is the model's reading (log entry 24). -/
def Obligations.ControlRegisters : Prop :=
  (∀ s : State, ∀ a d,
     (Gives (.cwr .corestat d) s 1 2 d s.me.corestat ∧ Gives (.cwr .cyc d) s 1 2 d (BitVec.ofNat 64 s.cyc) ∧
       Gives (.cwr .now d) s 1 2 d (BitVec.ofNat 64 s.now) ∧ Gives (.cwr .domain d) s 1 2 d (s.me.c.dom.inst ++ s.me.c.dom.id) ∧
       Gives (.cwr .trapcause d) s 1 2 d (BitVec.ofNat 64 s.me.c.cause.toNat) ∧ Gives (.cwr .trappc d) s 1 2 d s.me.c.tpc ∧
       Gives (.cwr .trapval d) s 1 2 d s.me.c.tval ∧ Gives (.cwr .itervec d) s 1 2 d s.me.c.iter ∧
       Gives (.cwr .ckpttab d) s 1 2 d (BitVec.ofNat 64 (s.me.c.ckpttab.toNat % 2 ^ 56)) ∧
       Gives (.cwr .handlerbase d) s 1 2 d (BitVec.ofNat 64 (s.me.c.hbase.toNat % 2 ^ 56 / 64 * 64))) ∧
     (Does (.cww .trapcause a) s 1 1 (fun c => { c with c := { c.c with cause := BitVec.ofNat 9 (s.me.rs a).toNat } }) ∧
       Does (.cww .trappc a) s 1 1 (fun c => { c with c := { c.c with tpc := s.me.rs a } }) ∧
       Does (.cww .trapval a) s 1 1 (fun c => { c with c := { c.c with tval := s.me.rs a } })) ∧
     (s.me.wbuf = [] → s.me.wpend = [] →
       Does (.cww .corestat a) s 1 1 fun c =>
         { c with c := { c.c with
           fl := c.c.fl &&& ~~~ (s.me.rs a).extractLsb' 7 5, txc := (s.me.rs a).getLsbD 0 } }) ∧
     (∀ w : Cw, w = .domain ∨ w = .cyc ∨ w = .now ∨ w = .itervec ∨ w = .ckpttab ∨ w = .handlerbase →
       exec (.cww w a) s = .next (s.sViol .fetch 0#64)) ∧
     Gives (.time d) s 1 1 d (BitVec.ofNat 64 s.now) ∧ Gives (.cyc d) s 1 1 d (BitVec.ofNat 64 s.cyc) ∧
     ((s.me.rs a).toNat ≤ s.cyc % 2 ^ 64 → Does (.waitc a) s 1 1 id) ∧
     (s.cyc % 2 ^ 64 < (s.me.rs a).toNat → Waits (.waitc a) s s (.cycle (s.me.rs a) false))) ∧
  (∀ s : State,
     (s.me.dbg.trSize = 0#64 → Does .hintMark s 1 1 id) ∧
     (s.me.dbg.trSize ≠ 0#64 → s.me.dbg.trPos + 32 ≤ s.me.dbg.trSize.toNat →
       ∃ t, exec .hintMark s = .next t ∧ t.me.r = s.me.r ∧ t.me.pc = s.me.pc + 4#64 ∧ t.me.ready = s.cyc + 1 ∧
         leNat (Memory.read t.mem (s.me.dbg.trBase.toNat + s.me.dbg.trPos) 32) =
           s.cyc % 2 ^ 44 + 2 ^ 44 * (s.cur % 2 ^ 12) + 2 ^ 56 * 4 + 2 ^ 64 * (s.ir.toNat / 2 ^ 6 % 2 ^ 20) + 2 ^ 128 * s.me.pc.toNat)) ∧
  (∀ s : State, ∀ i,
     (s.me.c.preq = false ∨ s.me.c.intrap = true ∨ s.me.c.ckpttab = 0#64 → Does (.ckpt i) s 1 1 id) ∧
     (s.me.wbuf = [] → ∃ t u, exec .done s = .next t ∧ s.Goes u s.me.pc 1 id ∧ t = u.updMe fun c => { c with stat := .ending none }))

/-! Expiry domains (08). -/

/-- R151, R136: `dnew` makes the lowest free id a live domain that expires at the instant, if that lies ahead by less than 2^47 ns.
R152, R153, R141: `djoin` makes a member of a new join or of one there is, and `dleave` ends the membership; the join keeps the
latest instant of its members, and ends with the last of them. R140: a join of another context raises the domain-use trap.
The model's choices: ID 0 in the results of refusals and the order of the tests on the join (log entry 41), the join as ID in the result of
`dleave` (log entry 90). -/
def Obligations.DomainMembership : Prop :=
  (∀ s : State, ∀ a d, let n := s.now % 2 ^ 64
     let t := s.me.rs a
     (¬ (n < t.toNat ∧ t.toNat < n + 2 ^ 47) → Asks (.dnew a d) s s d (dRes 2 0 0 0)) ∧
     (n < t.toNat → t.toNat < n + 2 ^ 47 →
       (∀ i, s.Lowest 1 0xEFFF i →
         Asks (.dnew a d) s (s.setDom i { DEnt.zero with inst := t, st := .live, kind := .ord, ctx := s.myCtx }) d (dRes 0 0 0 i.toNat)) ∧
       ((∀ i : Dom, 1 ≤ i.toNat → i.toNat < 0xF000 → (s.dom i).st ≠ .free) → Asks (.dnew a d) s s d (dRes 1 0 0 0)))) ∧
  (∀ s : State, ∀ x a d m, s.dmr x = (m, true) → let j : Dom := (s.me.rs a).setWidth 16
     (s.domOk j = false → Traps (.djoin x a d) s 0x08#8 (j.setWidth 64) ∧ Traps (.dleave x a d) s 0x08#8 (j.setWidth 64))) ∧
  (∀ s : State, ∀ x a d m, s.dmr x = (m, true) → let j : Dom := (s.me.rs a).setWidth 16
     s.domOk j = true →
     let e := s.dom m
     let g := s.dom j
     (m = 0#16 ∨ e.kind ≠ .ord → Asks (.djoin x a d) s s d (dRes 4 0 0 0)) ∧
     (m ≠ 0#16 → e.kind = .ord → e.st ≠ .live → Asks (.djoin x a d) s s d (dRes 3 0 0 0)) ∧
     (m ≠ 0#16 → e.kind = .ord → e.st = .live → e.jl.length < 4 →
       (∀ k, j = 0#16 → s.Lowest 0xF000 0x1000 k → ∃ u, Asks (.djoin x a d) s u d (dRes 0 0 0 k.toNat) ∧ s.OnlyHub u ∧
         ∀ q, u.dom q =
           if q = k then { DEnt.zero with inst := e.inst, st := .live, kind := .join, ctx := s.myCtx, mem := 1#256 }
           else if q = m then { e with jl := e.jl ++ [(k, 0)] } else s.dom q) ∧
       (j = 0#16 → (∀ k : Dom, 0xF000 ≤ k.toNat → (s.dom k).st ≠ .free) → Asks (.djoin x a d) s s d (dRes 1 0 0 0)) ∧
       (∀ ix, 0xF000 ≤ j.toNat → g.kind = .join → g.st = .live → (∀ p ∈ e.jl, p.1 ≠ j) → ix < 256 → g.mem.getLsbD ix = false →
         (∀ i, i < ix → g.mem.getLsbD i = true) → ∃ u, Asks (.djoin x a d) s u d (dRes 0 0 ix j.toNat) ∧ s.OnlyDoms u ∧
           (u.dom m).jl = e.jl ++ [(j, ix)] ∧ (u.dom j).mem = g.mem ||| 1#256 <<< ix ∧
           (u.dom j).inst = if g.inst.toNat < e.inst.toNat then e.inst else g.inst)) ∧
     (m ≠ 0#16 → e.kind = .ord → e.st = .live →
       (j ≠ 0#16 → j.toNat < 0xF000 ∨ g.kind ≠ .join → Asks (.djoin x a d) s s d (dRes 4 0 0 0)) ∧
       (0xF000 ≤ j.toNat → g.kind = .join →
         (g.st ≠ .live → Asks (.djoin x a d) s s d (dRes 3 0 0 0)) ∧
         (g.st = .live → (∀ ix, ix < 256 → e.ixIn j = some ix → Asks (.djoin x a d) s s d (dRes 0 0 ix j.toNat)) ∧
           ((∀ p ∈ e.jl, p.1 ≠ j) → 4 ≤ e.jl.length ∨ g.mem = BitVec.allOnes 256 → Asks (.djoin x a d) s s d (dRes 5 0 0 0)))) ∧
       (j = 0#16 → 4 ≤ e.jl.length → Asks (.djoin x a d) s s d (dRes 5 0 0 0))) ∧
     (g.kind ≠ .join → Asks (.dleave x a d) s s d (dRes 4 0 0 0)) ∧
     (g.kind = .join → g.st ≠ .live → Asks (.dleave x a d) s s d (dRes 3 0 0 0)) ∧
     (g.kind = .join → g.st = .live → (∀ p ∈ e.jl, p.1 ≠ j) → Asks (.dleave x a d) s s d (dRes 6 0 0 0)) ∧
     (∀ ix, g.kind = .join → g.st = .live → e.ixIn j = some ix → let mem := g.mem &&& ~~~ (1#256 <<< ix)
       (mem ≠ 0#256 → ∃ u, Asks (.dleave x a d) s u d (dRes 0 0 0 j.toNat) ∧ s.OnlyDoms u ∧ (u.dom j).mem = mem ∧
         (u.dom m).jl = e.jl.filter fun q => q.1 != j) ∧
       (mem = 0#256 → ∃ u, Waits (.dleave x a d) s u (.acks d (dRes 0 1 0 j.toNat) j) ∧ s.OnlyHub u ∧ (u.dom j).st = .annulled)))

/-- R154, R155, R156, R140: `dannul` annuls a live domain and waits for every endpoint; `dwhen` reads, and may extend, the instant;
`dmask` reads the members; a domain of another context raises the domain-use trap.
The model's choices: ID 0 in the results of refusals and the order of the tests (log entry 41), the extension in the issue slot of `dwhen`
(log entry 42). -/
def Obligations.DomainUse : Prop :=
  ∀ s : State, ∀ x a d m, let e := s.dom m
    let t := s.me.rs a
    (s.dmr x = (m, true) →
      ((m = 0#16 → Asks (.dannul x d) s s d (dRes 4 0 0 0)) ∧
        (m ≠ 0#16 → e.st ≠ .live → Asks (.dannul x d) s s d (dRes 3 0 0 0)) ∧
        (m ≠ 0#16 → e.st = .live → ∃ u, Waits (.dannul x d) s u (.acks d (dRes 0 0 0 m.toNat) m) ∧ s.OnlyDoms u ∧
          (u.dom m).st = .annulled ∧ (u.dom m).acks = List.range nEndpoints)) ∧
      ((m = 0#16 → Asks (.dwhen x a d) s s d (BitVec.allOnes 64)) ∧
        (m ≠ 0#16 → a = 0#5 ∨ e.st ≠ .live → Waits (.dwhen x a d) s s (.inst d m)) ∧
        (m ≠ 0#16 → a ≠ 0#5 → e.st = .live → e.kind = .ord → e.inst.toNat < t.toNat → t.toNat < s.now % 2 ^ 64 + 2 ^ 47 →
          (∀ q ∈ e.jl, q.1 ≠ m) → ∃ u, Waits (.dwhen x a d) s u (.inst d m) ∧ s.OnlyDoms u ∧ (u.dom m).inst = t)) ∧
      (m ≠ 0#16 → let q := (s.me.rs a).toNat % 4
        (e.st ≠ .live → Asks (.dmask x a d) s s d 0#64) ∧
        (e.st = .live → e.kind = .join ∨ e.kind = .shJoin ∧ e.hasMask = true →
          Asks (.dmask x a d) s s d (BitVec.ofNat 64 (e.mem.toNat / 2 ^ (64 * q)))) ∧
        (e.st = .live → e.kind = .ord ∨ e.kind = .shOrd → Asks (.dmask x a d) s s d (if q = 0 then 1#64 else 0#64)))) ∧
    (s.dmr x = (m, false) → let v : Word := BitVec.ofNat 64 m.toNat
      Traps (.djoin x a d) s 0x08#8 v ∧ Traps (.dleave x a d) s 0x08#8 v ∧ Traps (.dannul x d) s 0x08#8 v ∧
      Traps (.dwhen x a d) s 0x08#8 v ∧ Traps (.dmask x a d) s 0x08#8 v ∧ Traps (.enq x d) s 0x08#8 v)

/-- R144, R147, R143: the expiry unit annuls an ordinary domain whose instant has passed, and the work of every endpoint is purged
before its acknowledgement; the id is free again 1 ms later; an endpoint's cache takes the unit's entry. -/
def Obligations.DomainEvents : Prop :=
  ∀ s : State, ∀ d : Dom, let e := s.dom d
    (d ≠ 0#16 → e.st = .live → e.kind = .ord ∨ e.kind = .shOrd → e.inst.toNat ≤ s.now % 2 ^ 64 →
      ∃ t, exec (.domainExpiry d) s = .next t ∧ s.OnlyDoms t ∧ (t.dom d).st = .annulled ∧ (t.dom d).acks = List.range nEndpoints) ∧
    (∀ ep, ep < nEndpoints → e.st = .annulled → ep ∈ e.acks →
      ∃ t, exec (.annulmentNotice ep d) s = .next t ∧ (t.dom d).acks = e.acks.erase ep) ∧
    (∀ dev, e.st = .annulled → dev ∈ e.peerAcks →
      ∃ t k, exec (.peerNoticeResend d dev) s = .next t ∧ s.OnlyHub t ∧ t.hub = s.hub ∧ t.net = s.net ++ [k] ∧ k.dev = dev ∧
        k.body = .annulNotice d ∧ k.dom.id = 0#16) ∧
    (e.st = .annulled → e.annAt + 1200000 ≤ s.cyc → e.acks = [] → e.peerAcks = [] → s.carried d = false →
      ∃ t, exec (.domainIdFree d) s = .next t ∧ s.OnlyHub t ∧ t.hub.doms = tDel s.hub.doms d.toNat ∧
        ∀ ep, tGet t.hub.dcache (ep * 65536 + d.toNat) = none) ∧
    (∀ ep, ep < nEndpoints → d ≠ 0#16 →
      (tGet s.hub.dcache (ep * 65536 + d.toNat) = none → ∃ t, exec (.domainCacheFill ep d) s = .next t ∧
        tGet t.hub.dcache (ep * 65536 + d.toNat) = some ⟨e.st, e.kind, e.inst⟩ ∧ t.mem = s.mem ∧ t.net = s.net) ∧
      (tGet s.hub.dcache (ep * 65536 + d.toNat) ≠ none → ∃ t, exec (.domainCacheUpdate ep d) s = .next t ∧
        tGet t.hub.dcache (ep * 65536 + d.toNat) = some ⟨e.st, e.kind, e.inst⟩ ∧ t.mem = s.mem ∧ t.net = s.net))

/-- R150, R154, R156: a reply, the last acknowledgement, or a mask completes the instruction that waits for it. -/
def Obligations.ServiceReply : Prop :=
  ∀ s : State, ∀ c n k rd, (s.core c).dbg.halted = false →
    (∀ v, (s.core c).stat = .wait (.service rd v) n k → Wakes (.serviceReply c) s c n k fun x => x.ws rd v) ∧
    (∀ d, (s.core c).stat = .wait (.inst rd d) n k → Wakes (.serviceReply c) s c n k fun x => x.ws rd (s.dom d).inst) ∧
    (∀ v d, (s.core c).stat = .wait (.acks rd v d) n k →
      ((s.dom d).acks = [] → Wakes (.serviceReply c) s c n k fun x => x.ws rd v) ∧
      ((s.dom d).acks ≠ [] → exec (.serviceReply c) s = .next s)) ∧
    (∀ d q, (s.core c).stat = .wait (.mask d q rd) n k → (s.dom d).hasMask = true →
      Wakes (.serviceReply c) s c n k fun x => x.ws rd (s.maskOf d q))

/-! Messages and activations (07). -/

/-- R127, R131, R116: `send` and `sendi` place a message with the header that the table gives, and s8 to s11 as its payload, in the
outbound buffer; a destination word that is no destination raises the message-address trap, and a full buffer stalls.
The model's reading: the message carries the domain's present instant (log entry 94); SEQ without a stream is a free value (log entry 16). -/
def Obligations.SendMessage : Prop :=
  ∀ s : State, ∀ m b a, let d := (s.me.rs a).toNat
    let stag : BitVec 16 := (s.me.rs b).setWidth 16
    let dom := s.dm m
    let ok := d / 2 ^ 48 = 0 ∧ d / 2 ^ 12 % 2 ^ 14 = 0 ∧ d / 2 ^ 40 % 2 ^ 8 ≤ 191
    let sent := fun (i : Instr) (inl : Bool) => ∃ t e q, exec i s = .next t ∧
      ({ s with nextId := s.nextId + 1 } : State).Completes t 1 1
        (fun c => { c with outb := c.outb ++ [e], seqs := if stag = 0#16 then c.seqs else tPut c.seqs stag.toNat (q + 1#16) }) ∧
      (e.dev, e.core, e.q, e.ctx, e.after) = (d / 2 ^ 40, d / 2 ^ 28 % 2 ^ 12, BitVec.ofNat 2 (d / 2 ^ 26), s.myCtx, s.nextId) ∧
      (stag ≠ 0#16 → q = (tGet s.me.seqs stag.toNat).getD 0#16) ∧
      e.m = ⟨BitVec.ofNat 12 d, inl, dom.ext, s.me.c.txc, dom.id, dom.inst, BitVec.ofNat 32 s.cyc, BitVec.ofNat 12 s.cur, s.hub.dev, stag,
        q, s.me.rs 12#5, s.me.rs 8#5, s.me.rs 9#5, s.me.rs 10#5, s.me.rs 11#5⟩
    (ok → s.me.outb.length < 8 → (d % 2 ^ 12 ≤ 255 → sent (.send m b a) false) ∧ sent (.sendi m b a) true) ∧
    (¬ (ok ∧ d % 2 ^ 12 ≤ 255) → Traps (.send m b a) s 0x06#8 (s.me.rs a)) ∧
    (¬ ok → Traps (.sendi m b a) s 0x06#8 (s.me.rs a)) ∧
    (ok → 8 ≤ s.me.outb.length → (d % 2 ^ 12 ≤ 255 → exec (.send m b a) s = .next (s.sStall (s.me.rs a))) ∧
      exec (.sendi m b a) s = .next (s.sStall (s.me.rs a)))

/-- R130, R134: `defer` stops dispatch, unless barriers are registered; `breg` registers, and `barr` sends an arrival and ends the
registration.
R133: one arrival on a barrier object counts down; the last one starts the next phase, with the annulments and departures of this
one, and fills the tag of the status word; an arrival that no phase expects sets OVF and nothing else.
TRAPVAL of `defer`'s trap is a free value (log entry 16). -/
def Obligations.Barriers : Prop :=
  (∀ s : State, ∀ a, let ea := (s.me.rs a).toNat
     (s.me.regsB = [] → s.me.wbuf = [] → ∃ u, s.Goes u s.me.pc 1 id ∧
       exec (.defer a) s = .next (u.updMe fun c => { c with stat := .ending (some (s.me.rs a)) })) ∧
     (s.me.regsB ≠ [] → ∃ v, Traps (.defer a) s 0x07#8 v) ∧
     (ea % 16 ≠ 0 → Traps (.breg a) s 0x02#8 (s.me.rs a) ∧ Traps (.barr a) s 0x02#8 (s.me.rs a)) ∧
     (s.cur < nCores → ea % 16 = 0 → ea < 0x80000 →
       ((s.cur, ea) ∈ s.me.regsB → Does (.breg a) s 1 1 id) ∧
       ((s.cur, ea) ∉ s.me.regsB → s.me.regsB.length < 4 → Does (.breg a) s 1 1 fun c => { c with regsB := c.regsB ++ [(s.cur, ea)] }) ∧
       ((s.cur, ea) ∉ s.me.regsB → 4 ≤ s.me.regsB.length → Traps (.breg a) s 0x07#8 (s.me.rs a)) ∧
       (0x80 ≤ ea → ∃ t e, exec (.barr a) s = .next t ∧ e.op = .arrive false false ∧ e.rel = true ∧ e.p.at_ = .sp s.cur ea ∧
         ({ s with nextId := s.nextId + 1 } : State).Completes t 1 1
           fun c => { c with regsB := c.regsB.filter fun r => r != (s.cur, ea), acc := c.acc ++ [e] }))) ∧
  (∀ c : Core, ∀ off dep ann, off % 16 = 0 → off + 16 ≤ 0x80000 →
     let w := (c.spWord off).toNat
     let v := c.spWord (off + 8)
     let left := w % 2 ^ 24
     let init := w / 2 ^ 32 % 2 ^ 24
     let d := (w / 2 ^ 62 % 2 = 1) ∨ dep = true
     let n := (w / 2 ^ 61 % 2 = 1) ∨ ann = true
     let r := c.arrive off dep ann none
     (1 < left → left ≤ init →
       r.spWord off = BitVec.ofNat 64 (w / 2 ^ 63 * 2 ^ 63 + (if d then 2 ^ 62 else 0) + (if n then 2 ^ 61 else 0) + init * 2 ^ 32 + (left - 1)) ∧
       r.spWord (off + 8) = v ∧ r.empties = c.empties) ∧
     (left = 1 → left ≤ init →
       r.spWord off = BitVec.ofNat 64 ((1 - w / 2 ^ 63) * 2 ^ 63 + init * 2 ^ 32 + init) ∧
       r.spWord (off + 8) = BitVec.ofNat 64 (v.toNat / 8 * 8 + (if n then 4 else 0) + (if d then 2 else 0) + v.toNat % 2) ∧
       r.full (off + 8) = true) ∧
     (left = 0 ∨ init < left → r.spWord off = c.spWord off ∧ r.spWord (off + 8) = v ||| 8#64 ∧ r.empties = c.empties))

/-- R129, R125: `enq` appends to the launch the record that s8 to s14 and the ranges describe, and waits for its number; a full intake
takes none. -/
def Obligations.EnqueueTask : Prop :=
  ∀ s : State, ∀ x d dom, s.dmr x = (dom, true) → ∀ l y, s.myLaunch = some l → tGet s.hub.launches l = some y →
    let p := (s.me.rs 8#5).toNat
    let n := y.recs.length
    let nf := p / 2 ^ 16 % 2 ^ 4
    let a := s.me.rs 9#5
    let w := s.who s.cur false
    let k := s.intake (clusterOf s.cur)
    (dom = 0#16 ∨ (s.dom dom).st = .live) → p / 2 ^ 48 = 0 → p / 2 ^ 21 % 2 ^ 11 = 0 → p / 2 ^ 11 % 2 ^ 5 = 0 → nf ≤ 8 →
    s.me.rs 15#5 = 0#64 → (p / 2 ^ 20 % 2 = 1 → p / 2 ^ 32 % 2 ^ 16 < n) → n < 65536 →
    ∀ fps, (nf = 0 → fps = []) → (nf ≠ 0 → a.toNat % 16 = 0 ∧ ∃ bs, fps = fpList bs nf ∧ fps.all fpOk = true ∧
      s.readRun w a (16 * nf) ((List.range nf).map fun i => (a + BitVec.ofNat 64 (16 * i), 16)) = .ok bs s) →
    (64 ≤ k → Asks (.enq x d) s s d 2#64) ∧
    (k < 64 → ∃ u r, Asks (.enq x d) s u d (BitVec.ofNat 64 (n * 2 ^ 32 + (if 48 ≤ k then 2 else 0) + 1)) ∧ s.OnlyHub u ∧
      tGet u.hub.launches l = some { y with recs := y.recs ++ [r] } ∧
      r.hix.toNat = p % 2 ^ 8 ∧ r.q.toNat = p / 2 ^ 8 % 4 ∧ (r.gang = true ↔ p / 2 ^ 10 % 2 = 1) ∧
      r.args = [s.me.rs 10#5, s.me.rs 11#5, s.me.rs 12#5, s.me.rs 13#5] ∧ r.rply = s.me.rs 14#5 ∧ r.fps = fps ∧ r.dom = s.tagOf dom ∧
      r.aft = (if p / 2 ^ 20 % 2 = 1 then [p / 2 ^ 32 % 2 ^ 16] else []) ∧ r.st = .waiting ∧
      r.intake = some (clusterOf s.cur))

/-- R127, R142, R316 to R319, R145, R272: the oldest outbound message leaves the core; a packet whose instant has passed, one for a device
that the pod has not, and one that has aged out are dropped and counted, at the port where they stand or on this device, and a one-sided
operation is sent a drop notice; a packet for a peer leaves on a plane that is live at both ends, as a link flit and one or two data flits, and
its domain's PEERS holds the peer. Which plane, and the content of flits, are free values (log entries 11 and 16).
R118, R128, R148: a message that is ready takes a free slot of its queue, whole; one whose domain has expired is discarded and
counted; with no free slot it waits.
What a message's path is, is the model's choice (log entry 36). -/
def Obligations.Packets : Prop :=
  (∀ s : State,
     (∀ c e r, (s.core c).outb = e :: r → (e.dev = s.own → pathHeld s.net e.m.srcd e.m.srcc e.core = false) →
       ∃ t k, exec (.outboundEntryFree c) s = .next t ∧ (t.core c).outb = r ∧
       t.net = s.net ++ [k] ∧ k.dev = e.dev ∧ k.body = .msg e.core e.q e.m none c e.after e.afterW ∧ k.dom = ⟨e.m.dom, e.m.inst, e.m.ext⟩ ∧ t.mem = s.mem) ∧
     (∀ p k, s.pkt p = some k → k.arrived = false → (∀ d, k.body ≠ .annulNotice d) →
       let gone := s.net.filter fun x => x.id != p
       let at_ := s.portOf k
       let drops (i : Instr) (cnt : Port → Nat) : Prop := ∃ t, exec i s = .next t ∧ t.mem = s.mem ∧
         (match jobOf k.body with
           | some (c, j) => ∃ q, t.net = gone ++ [q] ∧ q.dev = (if k.peer then k.srcCore / 4096 else s.own) ∧ q.body = .dropNotice c j ∧ q.dom.id = 0#16
           | none => t.net = gone) ∧
         (k.dev ≠ s.own → cnt (t.port at_) = cnt (s.port at_) + 1) ∧ (k.peer = true → t.cores = s.cores) ∧
         ∀ c, (t.core c).r = (s.core c).r ∧ (t.core c).sp = (s.core c).sp ∧ (t.core c).inbox = (s.core c).inbox
       (k.dom.id ≠ 0#16 → k.dom.ext = false → instPassed s.now k.dom.inst = true → drops (.packetHop p) Port.expd) ∧
       ((k.dom.id = 0#16 ∨ k.dom.ext = true ∨ instPassed s.now k.dom.inst = false) → k.dev ≠ s.own → s.hub.podN ≤ k.dev ∨ s.livePorts k.dev = [] →
         drops (.packetHop p) Port.nodev) ∧
       (k.dom.id ≠ 0#16 → k.t + 600000 ≤ s.cyc → drops (.packetAgedOut p) Port.aged)) ∧
     (∀ p k, s.pkt p = some k → k.arrived = false → (k.dom.id = 0#16 ∨ k.dom.ext = true ∨ instPassed s.now k.dom.inst = false) → k.dev ≠ s.own →
       k.dev < s.hub.podN → s.livePorts k.dev ≠ [] → s.streamHead k = true → s.mayLeave k = true →
       (∀ pl ∈ s.livePorts k.dev, (s.port pl).retry.length + 3 ≤ 1024) →
       ∃ t pl n, exec (.packetHop p) s = .next t ∧ pl ∈ s.livePorts k.dev ∧ (n = 2 ∨ n = 3) ∧ t.mem = s.mem ∧
         t.out = s.out ++ (List.range n).map (fun i => .flit pl ((s.port pl).txSeq + BitVec.ofNat 16 i) (Config.flit k.id i)) ++
           [.peer k.dev { k with port := some pl }] ∧
         (t.port pl).retry.length = (s.port pl).retry.length + n ∧
         (k.dom.id = 0#16 → t.net = s.net.filter fun x => x.id != p) ∧ (k.dom.id ≠ 0#16 → k.dev ∈ (t.dom k.dom.id).peers) ∧
         ∀ c, (t.core c).r = (s.core c).r ∧ (t.core c).sp = (s.core c).sp ∧ (t.core c).inbox = (s.core c).inbox)) ∧
  (∀ s : State, ∀ p k c q m task src after afterW, s.pkt p = some k → k.body = .msg c q m task src after afterW → k.dev = s.own →
     c < nCores → s.msgReady k c q m src after afterW = true →
     (s.expired (inboxEp c) k.dom = true → ∃ t, exec (.messageArrival p) s = .next t ∧
       tGet t.hub.epExpd (inboxEp c) = some ((tGet s.hub.epExpd (inboxEp c)).getD 0 + 1) ∧
       t.net = s.net.filter (fun x => x.id != k.id) ∧ (t.core c).inbox = (s.core c).inbox) ∧
     (s.expired (inboxEp c) k.dom = false → (s.core c).res = some k.ctx → (∃ r ∈ (s.core c).runs, r.1 = k.ctx) →
       ((∃ i < 16, ∀ e ∈ (s.core c).iq q, e.ix ≠ i) → ∃ t e, exec (.messageArrival p) s = .next t ∧
         t.net = s.net.filter (fun x => x.id != k.id) ∧ (t.core c).iq q = (s.core c).iq q ++ [e] ∧
         e.m = m ∧ e.ctx = k.ctx ∧ e.task = task ∧ e.arr = s.cyc ∧ e.running = false ∧ e.deferred = false ∧ e.ix < 16 ∧
         (∀ o ∈ (s.core c).iq q, o.ix ≠ e.ix) ∧ ∀ q', q' ≠ q → (t.core c).iq q' = (s.core c).iq q') ∧
       ((∀ i < 16, ∃ e ∈ (s.core c).iq q, e.ix = i) → exec (.messageArrival p) s = .next (s.holdPkt k.id))))

/-- R33, R117, R119, R120: the message chosen starts with s1 its slot's address, s2 its queue, s3 its handle and s4 its first payload
word, every other register zero, at its handler's entry or at its own code; DOMAIN is the message's.
R34, R130: an activation that has ended leaves its core idle and its slot free; a deferred one leaves its message at the tail of
its queue, to become eligible later.
The model's choices: a handler-table entry is read where its page is mapped, and else as the device has written it (log entry 25); the cycles
of a deferral count from the end of the activation (log entry 89). -/
def Obligations.Activations : Prop :=
  (∀ s : State, ∀ c q e, s.mayStart c = true → let u := s.discardHeads c
     (u.core c).choose = some (q, e) → ∀ k, tGet s.hub.ctxs e.ctx.toNat = some k → e.m.txc = k.record.txc →
     let slot : Word := BitVec.ofNat 64 (0x80000 + 0x400 * q.toNat + 0x40 * e.ix)
     ∀ entry, (e.m.inl = true → entry = slot + 32#64) →
       (e.m.inl = false → ∃ h, s.handler e.ctx e.m.hnd.toNat = some h ∧ h.entry = entry) →
       ∃ t, exec (.activationStart c) s = .next t ∧ (t.core c).pc = entry ∧ (t.core c).stat = .run ∧
         (∀ r, (t.core c).rs r = if r = 1#5 then slot else if r = 2#5 then q.setWidth 64 else if r = 3#5 then e.m.hnd.setWidth 64
           else if r = 4#5 then e.m.p0 else 0#64) ∧
         (t.core c).r.v = Regs.zero.v ∧ (t.core c).r.k = Regs.zero.k ∧ (t.core c).r.q = Regs.zero.q ∧ (t.core c).c.fl = 0#5 ∧
         (t.core c).c.intrap = false ∧ (t.core c).c.dom = msgTag e.m ∧ (t.core c).wbuf = [] ∧
         (t.core c).act.map (fun a => (a.m, a.q, a.ix, a.ctx, a.task, a.start)) = some (e.m, q, e.ix, e.ctx, e.task, s.cyc)) ∧
  (∀ s : State, ∀ c a,
     ((s.core c).act = some a → (s.core c).ended a = true → (s.core c).ready ≤ s.cyc →
       ((s.core c).stat = .ending none → ∃ t, exec (.activationEnd c) s = .next t ∧ (t.core c).stat = .idle ∧ (t.core c).act = none ∧
         ∀ e ∈ (t.core c).iq a.q, e.ix ≠ a.ix) ∧
       (∀ n e, (s.core c).stat = .ending (some n) → ((s.core c).iq a.q).find? (fun x => x.ix == a.ix) = some e →
         ∃ t, exec (.activationEnd c) s = .next t ∧ (t.core c).stat = .idle ∧ (t.core c).act = none ∧
           (t.core c).iq a.q = ((s.core c).iq a.q).filter (fun x => x.ix != a.ix) ++
             [{ e with elig := s.cyc + Nat.min n.toNat (2 ^ 24), running := false, deferred := true }])) ∧
     (∀ q ix e, ((s.core c).iq q).find? (fun x => x.ix == ix) = some e → e.deferred = true → e.elig ≤ s.cyc →
       ∃ t, exec (.deferEligible c q ix) s = .next t ∧ t.hub = s.hub ∧ t.mem = s.mem ∧
         (t.core c).iq q = ((s.core c).iq q).filter (fun x => x.ix != ix) ++ [{ e with deferred := false }]))

/-! The directory (14). -/

/-- R257, R258, R251 to R253: `nopen` opens a handle slot on the binding of a bound name, and writes its descriptor where RB asks for
it; without a binding, and without a free slot, it is refused, and `nopen.wait` waits for a binding. One whose domain has expired is not
performed. Which free slot is taken is a free value (log entry 16).
R259, R261: `nclose` closes the slot of a handle that the context holds, whose generation grows, and refuses any other word; `nq`
tells the generation of a name, and the handles open on its binding, and writes the binding's descriptor where RB asks for it. -/
def Obligations.Directory : Prop :=
  (∀ s : State, ∀ m b a d,
     let k := s.me.rs a
     let o := (s.me.rs b).toNat
     let fit := o % 32 = 0 ∧ 0x800 ≤ o ∧ o ≤ 0x7FFE0
     (b ≠ 0#5 → ¬ fit → Traps (.nopen m b a d) s 0x02#8 (s.me.rs b) ∧ Traps (.nopenWait m b a d) s 0x02#8 (s.me.rs b)) ∧
     (b ≠ 0#5 → fit → s.me.spBusy s.cur = true → Retries (.nopen m b a d) s ∧ Retries (.nopenWait m b a d) s) ∧
     (b = 0#5 ∨ fit ∧ s.me.spBusy s.cur = false → s.expired hubEp (s.dm m) = true → ∀ ins, ins = .nopen m b a d ∨ ins = .nopenWait m b a d → exec ins s = .next (s.used.sWait
       (.tarn k (s.me.rs b) d (s.dm m) s.nextId) 1 1 k)) ∧
     (b = 0#5 ∨ fit ∧ s.me.spBusy s.cur = false → s.expired hubEp (s.dm m) = false →
       (k = 0#64 → Asks (.nopen m b a d) s s d (BitVec.ofNat 64 (2 ^ 63 + 1)) ∧ Asks (.nopenWait m b a d) s s d (BitVec.ofNat 64 (2 ^ 63 + 1))) ∧
       (k ≠ 0#64 → s.bound s.myCtx k = none →
         Asks (.nopen m b a d) s s d (BitVec.ofNat 64 (2 ^ 63 + 2)) ∧
         exec (.nopenWait m b a d) s = .next (({ s with nextId := s.nextId + 1 } : State).sWait
           (.tarn k (s.me.rs b) d (s.dm m) s.nextId) 1 1 k)) ∧
       (∀ t, k ≠ 0#64 → s.bound s.myCtx k = some t → (∀ i, i < nHandles → ∃ h, tGet s.hub.hdls i = some h ∧ h.own ≠ none) →
         Asks (.nopen m b a d) s s d (BitVec.ofNat 64 (2 ^ 63 + 3)) ∧ Asks (.nopenWait m b a d) s s d (BitVec.ofNat 64 (2 ^ 63 + 3))) ∧
       (∀ t i, k ≠ 0#64 → s.bound s.myCtx k = some t → s.freeSlot (Config.handleSlot s.nextId) = some i →
         ∀ ins, ins = .nopen m b a d ∨ ins = .nopenWait m b a d → ∃ u g, Asks ins s u d (BitVec.ofNat 64 (g * 2 ^ 20 + i)) ∧
           tGet u.hub.hdls i = some ⟨BitVec.ofNat 24 g, some (s.myCtx, (s.dm m).id, t.id)⟩ ∧ u.me.r = s.me.r ∧ u.mem = s.mem ∧
           (s.expired (spEp s.cur) (s.dm m) = true → u.me.sp = s.me.sp) ∧
           (s.expired (spEp s.cur) (s.dm m) = false → ∀ n, Memory.get u.me.sp n = if o ≠ 0 ∧ o ≤ n ∧ n < o + 32 then
             t.desc.getD (n - o) 0#8 else Memory.get s.me.sp n)))) ∧
  (∀ t : TBind, t.desc = wordBytes t.base ++ wordBytes t.bytes ++ wordBytes t.lrec ++ leBytes 4 t.ver.toNat ++ leBytes 4 t.bgen.toNat) ∧
  (∀ s : State, ∀ b a d, let k := s.me.rs a
     let o := (s.me.rs b).toNat
     (s.handleOf s.myCtx k = none → Asks (.nclose a d) s s d (BitVec.ofNat 64 (2 ^ 63 + 4))) ∧
     (∀ i n h, s.handleOf s.myCtx k = some (i, n) → tGet s.hub.hdls i = some h → ∃ u, s.cores = u.cores ∧ s.mem = u.mem ∧
       tGet u.hub.hdls i = some ⟨h.gen + 1#24, none⟩ ∧
       Asks (.nclose a d) s u d (if ∃ x ∈ u.hub.binds, x.id = n then 0#64 else 0x4000000000000000#64)) ∧
     (b = 0#5 ∨ (o % 32 = 0 ∧ 0x800 ≤ o ∧ o ≤ 0x7FFE0) ∧ s.me.spBusy s.cur = false →
       (k = 0#64 → Asks (.nq b a d) s s d 0x8000000000000000#64) ∧
       (k ≠ 0#64 → s.bound s.myCtx k = none → Asks (.nq b a d) s s d (BitVec.ofNat 64 (2 ^ 62 + (s.bgen s.myCtx k).toNat))) ∧
       (∀ t, k ≠ 0#64 → s.bound s.myCtx k = some t → ∃ u, u.mem = s.mem ∧ (∀ c, c ≠ s.cur → u.core c = s.core c) ∧ u.me.r = s.me.r ∧
         (s.expired (spEp s.cur) (s.dm .inh) = true → u.me.sp = s.me.sp) ∧
         (s.expired (spEp s.cur) (s.dm .inh) = false → ∀ n, Memory.get u.me.sp n =
           if o ≠ 0 ∧ o ≤ n ∧ n < o + 32 then t.desc.getD (n - o) 0#8 else Memory.get s.me.sp n) ∧
         Asks (.nq b a d) s u d (BitVec.ofNat 64 (s.hcnt t.id % 2 ^ 21 * 2 ^ 32 + (s.bgen s.myCtx k).toNat)))) ∧
     (b ≠ 0#5 → ¬ (o % 32 = 0 ∧ 0x800 ≤ o ∧ o ≤ 0x7FFE0) → Traps (.nq b a d) s 0x02#8 (s.me.rs b)))

/-- R260, R212: `nbind` reads its list, and once its checks have passed and the core's accesses are performed it binds at the Tarn: it is
refused for an expired domain or a generation that is not the one expected, and else the name gets the new binding, or none, and its next
generation. `rseal` refuses a record that is misshapen or sealed, and else stores the version and the CRC-32C of the body and the version as
a release.
R253: when a context is destroyed its record goes, and no handle of it stays open. -/
def Obligations.BindingAndContexts : Prop :=
  (∀ s : State, ∀ m b a d, let o := (s.me.rs a).toNat
     let n := (s.me.spWord o).toNat
     (¬ (o % 32 = 0 ∧ 0x800 ≤ o ∧ o ≤ 0x7FFE0) → Traps (.nbind m a d) s 0x02#8 (s.me.rs a)) ∧
     (o % 32 = 0 → 0x800 ≤ o → o + 32 + 32 * n ≤ 0x80000 → 1 ≤ n → n ≤ 8 → (∀ i, 8 ≤ i → i < 32 → s.me.spGet (o + i) = 0#8) →
       s.me.spBusy s.cur = false → (∀ i, i < 4 + 4 * n → s.me.wmBlocks (s.me.rs a + BitVec.ofNat 64 (8 * i)) 8 = false) →
       s.me.Whole o (32 + 32 * n) →
       let y := (List.range (4 + 4 * n)).foldl (fun (z : State) i => z.watch z.cur .load (s.me.rs a + BitVec.ofNat 64 (8 * i)) 8) s
       ∀ l u, nbindChk (y.who y.cur false) (s.me.spRead o (32 + 32 * n)) (List.range n) [] y = .ok l u → u.cur = s.cur →
         u.me.drained false = true → u.me.wbuf = [] → ∀ v t, u.bindAll u.myCtx (u.dm m) l = (v, t) → t.cur = s.cur →
         Asks (.nbind m a d) s t d (v.getD 0#64)) ∧
     (o % 128 ≠ 0 → Traps (.rseal b a d) s 0x02#8 (s.me.rs a)) ∧
     (∀ r u, o % 128 = 0 → s.readSeal (s.who s.cur false) (s.me.rs a) = .ok r u →
       (recShaped r = false → ∃ t, exec (.rseal b a d) s = .next t ∧ u.Computes t 1 1 d 1#64) ∧
       (recShaped r = true → recSealed r = true → ∃ t, exec (.rseal b a d) s = .next t ∧ u.Computes t 1 1 d 2#64) ∧
       (∀ p w, recShaped r = true → recSealed r = false →
         u.chk (u.who u.cur false) .d .store (u.taskFps (u.who u.cur false).task) (s.me.rs a) 8 = .ok [p] w → (∀ off, p.at_ ≠ .sp u.cur off) → p.n = 8 →
         p.kind ≠ .uo → ∃ t e, exec (.rseal b a d) s = .next t ∧ t.me.stat = .wait (.seal e.aid d) 1 1 ∧ e ∈ t.me.acc ∧ e.p = p ∧ e.rel = true ∧
           let ver := leBytes 4 ((s.me.rs b).toNat % 2 ^ 32)
           e.op = .store (ver ++ leBytes 4 (crc32c ((r.take (recLen r)).drop 8 ++ ver)).toNat)))) ∧
  (∀ s : State, ∀ ctx dom,
     (∀ l, s.expired hubEp dom = true → s.bindAll ctx dom l = (some (BitVec.ofNat 64 (2 ^ 63 + 10)), s)) ∧
     (∀ l i e, s.expired hubEp dom = false → l[i]? = some e → e.expect ≠ BitVec.allOnes 32 → e.expect ≠ s.bgen ctx e.key →
       (∀ j f, j < i → l[j]? = some f → f.expect = BitVec.allOnes 32 ∨ f.expect = s.bgen ctx f.key) →
       s.bindAll ctx dom l = (some (BitVec.ofNat 64 (2 ^ 63 + 16 * i + 9)), s)) ∧
     (∀ e : NBind, s.expired hubEp dom = false → e.expect = BitVec.allOnes 32 ∨ e.expect = s.bgen ctx e.key →
       s.name ctx e.key ≠ none ∨ s.hub.names.length < nNames → (∀ x ∈ s.hub.binds, x.id < s.nextId) →
       ∃ t, s.bindAll ctx dom [e] = (none, t) ∧ t.bgen ctx e.key = genNext (s.bgen ctx e.key) ∧
         (∀ c k, (c, k) ≠ (ctx, e.key) → t.bgen c k = s.bgen c k) ∧ (e.binds = false → t.bound ctx e.key = none) ∧
         (e.binds = true → ∃ b, t.bound ctx e.key = some b ∧ b.bgen = genNext (s.bgen ctx e.key) ∧ b.retired = false ∧
           (b.base, b.bytes, b.lrec, b.ver) = (e.base, BitVec.ofNat 64 (64 * e.len.toNat), e.lrec, e.ver)))) ∧
  (∀ s : State, ∀ ctx, ∃ t, exec (.contextDestroyed ctx) s = .next t ∧ t.mem = s.mem ∧ t.cores = s.cores ∧
     t.hub.ctxs = tDel s.hub.ctxs ctx.toNat ∧
     ∀ i h, (i, h) ∈ s.hub.hdls → ∀ k, tGet s.hub.hdls i = some h → h.own = some k → k.1 = ctx → tGet t.hub.hdls i = some ⟨h.gen + 1#24, none⟩)

/-! Waiting, and what is performed later (05, 10, 15, 18). -/

/-- R177, R179, R321: a load that does not lie in the own scratchpad holds the S stream until its reply; one at a peer is sent there, once the
core's earlier accesses allow it. A store to device memory, to another core's scratchpad or to a peer is posted, and performed later. -/
def Obligations.RemoteAccess : Prop :=
  ∀ s : State, ∀ x o t a d, let ea := elemAddr (s.me.rs a) x o (mSize t)
    (∀ r c ps w, s.me.wmBlocks ea (mSize t) = false → s.Passes .load ea (mSize t) ps w →
      let waits (u : State) : Prop := u.me.stat = .wait (.load ps (mSigned t) d none []) (words x) 1 ∧ u.me.waitVal = ea ∧
        u.me.r = s.me.r ∧ u.me.pc = s.me.pc ∧ u.me.sp = s.me.sp ∧ u.mem = s.mem
      ((∃ p ∈ ps, ∀ off, p.at_ ≠ .sp s.cur off) → (∀ p ∈ ps, ∀ v, p.at_ ≠ .peer v) →
        ∃ u, exec (.ld x o r c t a d) s = .next u ∧ waits u ∧ u.net = w.net) ∧
      (∀ p v, ps = [p] → p.at_ = .peer v →
        (w.me.acc = [] → ∃ u q, exec (.ld x o r c t a d) s = .next u ∧ waits u ∧ u.net = w.net ++ [q] ∧ q.dev = v.toNat / 2 ^ 56 - 1 ∧
          q.body = .load v p.n s.cur ∧ q.dom = (s.who s.cur false).dom ∧ q.ctx = s.myCtx) ∧
        (w.me.loadReady false ps = false → ∃ u, exec (.ld x o r c t a d) s = .next u ∧ u.net = w.net ∧ u.me.stat = s.me.stat ∧
          u.me.pc = s.me.pc ∧ u.me.ready = s.cyc + 1 ∧ u.me.r = s.me.r ∧ u.mem = s.mem))) ∧
    (∀ r c m y, let ea := elemAddr (s.me.rs a) x o (stSize y)
      ∀ ps w, s.Passes .store ea (stSize y) ps w → (∃ p ∈ ps, ∀ off, p.at_ ≠ .sp s.cur off) → (ps.map (·.n)).sum = stSize y →
      ∃ u l, exec (.st x o r c m y a d) s = .next u ∧ w.used.Completes u (words x) 1 (fun k => { k with acc := k.acc ++ l }) ∧
        l.map (·.p) = ps ∧ (l.map fun e => match e.op with | .store bs => bs | _ => []).flatten = leBytes (stSize y) (s.me.rs d).toNat ∧
        ∀ e ∈ l, e.aid = w.nextId ∧ e.dom = s.dm m ∧ e.sent = none ∧ e.rel = (r == .rel && e.p.kind != .uo))

/-- R179, R89, R302, R184, R185, R227, R212, R294, R95: the load's data, piece by piece, the drained stores, and the cycle end the wait of the
instruction; after an `xfence` the streamer sees every earlier store of the core; a word whose soft error cannot be corrected freezes the
core, and stays damaged; a wait that reaches its limit raises the wait-limit trap at it. -/
def Obligations.WaitEnds : Prop :=
  ∀ s : State, ∀ c n k, let x := s.core c
    x.dbg.halted = false →
    (∀ p pa sg rd, x.stat = .wait (.load [p] sg rd none []) n k → p.at_ = .dram pa → p.n = 1 ∨ p.n = 2 ∨ p.n = 4 ∨ p.n = 8 →
      (∀ a ∈ x.acc, a.w = true ∧ x.sAfter ≤ a.aid) → s.WholeAt pa p.n → ∃ t, exec (.loadReply c .own) s = .next t ∧
        ({ s.touchLine p.at_ with cur := c } : State).Completes t n k fun y => y.ws rd (loaded sg p.n (leNat (Memory.read s.mem pa p.n)))) ∧
    (∀ p q r pa sg rd hi bs, x.stat = .wait (.load (p :: q :: r) sg rd hi bs) n k → p.at_ = .dram pa → (∀ z ∈ q :: r, ∀ v, z.at_ ≠ .peer v) →
      x.acc = [] → s.WholeAt pa p.n → ∃ t, exec (.loadReply c .own) s = .next t ∧ (t.core c).r = x.r ∧ t.mem = s.mem ∧
        (t.core c).stat = .wait (.load (q :: r) sg rd hi (bs ++ Memory.read s.mem pa p.n)) n k) ∧
    (∀ p pa r sg rd hi bs, x.stat = .wait (.load (p :: r) sg rd hi bs) n k → p.at_ = .dram pa → (∀ z ∈ r, ∀ v, z.at_ ≠ .peer v) →
      x.acc = [] → x.act ≠ none → (pa / 8, true) ∈ s.upsets → 1 ≤ p.n → ∃ t, exec (.loadReply c .own) s = .next t ∧ (t.core c).stat = .frozen ∧
        (t.core c).r = x.r ∧ t.upsets = s.upsets) ∧
    (∀ st uo eng, x.stat = .wait (.fence st uo eng) n k → x.wbuf = [] →
      (∀ p ∈ x.acc, st = true ∨ p.loads = true → uo = false ∧ p.p.kind = .uo) →
      Wakes (.fenceDrainEnd c) s c n k fun y => if eng then { y with late := [] } else y) ∧
    (∀ id rd, x.stat = .wait (.seal id rd) n k → (∀ p ∈ x.acc, p.aid ≠ id) → Wakes (.fenceDrainEnd c) s c n k fun y => y.ws rd 0#64) ∧
    (∀ t, x.stat = .wait (.cycle t false) n k →
      (t.toNat ≤ s.cyc % 2 ^ 64 → Wakes (.cycleWaitEnd c) s c n k id) ∧
      (s.cyc % 2 ^ 64 < t.toNat → exec (.cycleWaitEnd c) s = .next s)) ∧
    (∀ t0 w, x.stat = .wait w n k → (∀ st uo eng, w = .fence st uo eng → x.wbuf ≠ []) → x.park = none → x.waitFrom = some t0 →
      let u := ({ s.unask c with cur := c } : State).upd c fun y => { y with waitFrom := none, stat := .run }
      (t0 + s.waitLimit c ≤ s.cyc → ∀ h, u.CanTrap h →
        ∃ t, exec (.waitLimitExpiry c) s = .next t ∧ u.Enters t c ⟨0x10#8, x.pc, x.waitVal, false⟩ h) ∧
      (s.cyc < t0 + s.waitLimit c → x.wFrom = none → exec (.waitLimitExpiry c) s = .next s))

/-- R93, R94, R274: when the oldest waiting tagged operation on a word may go on, it does its step there, at one instant, and
completes; so does `sigw` when its count is reached. R189: one on a word of a peer is sent there, and completes with the answer.
R274: `sigw` on a word of the own scratchpad whose count is reached, or whose annulment is marked, reads it; else it waits. -/
def Obligations.TaggedWaits : Prop :=
  (∀ s : State, ∀ c n cost, let x := s.core c
     x.dbg.halted = false →
     (∀ op k off rd v t dom req, x.stat = .wait (.tag op k off rd v t dom req) n cost → k ≤ nCores →
       s.olderWaits k off (s.who c false).ctx t = false → (s.core k).Whole off 8 →
       tagCond op ((s.core k).full off) = true → x.tagReady (tagWrites op) (.sp k off) = true →
       (k ≠ c → s.expired (spEp k) (s.dtag dom) = false ∧ s.away k (s.who c false).ctx = false) → let r := tagDo op off v s.cyc (s.core k)
       ∃ u, exec (.taggedWaitWake c) s = .next u ∧
         ({ s.setCore k r.2 with cur := c } : State).Goes u (((s.setCore k r.2).core c).pc + BitVec.ofNat 64 (4 * n)) (cost + (n - 1))
           fun y => if tagRd op then y.ws rd r.1 else y) ∧
     (∀ op k off rd v t dom, x.stat = .wait (.tag op k off rd v t dom none) n cost → nCores < k →
       let a : Word := BitVec.ofNat 64 ((k - nCores) * 2 ^ 56 + off)
       x.tagReady (tagWrites op) (.peer a) = true → ∃ u p, exec (.taggedWaitWake c) s = .next u ∧ u.net = s.net ++ [p] ∧ p.dev = k - nCores - 1 ∧
         p.body = .tagop op a v c ∧ p.dom = dom ∧ (u.core c).stat = .wait (.tag op k off rd v t dom (some (p.id, 0))) n cost ∧ u.mem = s.mem ∧
         ∀ y, y ≠ c → u.core y = s.core y) ∧
     (∀ op k off rd v t dom q b y, x.stat = .wait (.tag op k off rd v t dom (some (q, b))) n cost → b < 2 → nCores < k → (∀ p ∈ s.net, p.id ≠ q) →
       Wakes (.loadReply c (.val y)) s c n cost fun z => if tagRd op then z.ws rd (y.setWidth 64) else z) ∧
     (∀ k off rd v t req, x.stat = .wait (.sigw k off rd v t req) n cost → k ≤ nCores →
       (k ≠ c → s.expired (spEp k) (s.dtag (s.who c false).dom) = false ∧ s.away k (s.who c false).ctx = false) →
       s.olderWaits k off (s.who c false).ctx t = false → (s.core k).Whole off 8 →
       x.tagReady false (.sp k off) = true →
       let w := (s.core k).spWord off
       (2 ^ 63 ≤ w.toNat ∨ v.toNat % 2 ^ 63 ≤ w.toNat % 2 ^ 63 → Wakes (.taggedWaitWake c) s c n cost fun y => y.ws rd w))) ∧
  (∀ s : State, ∀ b a d, let ea := (s.me.rs a).toNat
     let v := (s.me.rs b).toNat
     let w := s.spNat (s.me.rs a) 8
     (ea % 8 ≠ 0 → Traps (.sigw b a d) s 0x02#8 (s.me.rs a)) ∧
     (s.cur < nCores → ea % 8 = 0 → ea < 0x80000 → s.me.SpFree s.cur false → s.me.NoArrival → s.me.Whole ea 8 →
       s.olderWaits s.cur ea (s.who s.cur false).ctx s.nextId = false →
       (2 ^ 63 ≤ w ∨ v % 2 ^ 63 ≤ w % 2 ^ 63 → Gives (.sigw b a d) s 1 2 d (BitVec.ofNat 64 w)) ∧
       (w < 2 ^ 63 → w < v % 2 ^ 63 → exec (.sigw b a d) s =
         .next (s.used.sWait (.sigw s.cur ea d (s.me.rs b) s.nextId none) 1 2 (s.me.rs a)))))

/-- R177, R181, R148, R268, R191, R321: a pending access that nothing before it holds back is performed at its place: a store writes its
bytes, an atomic replaces the word and gives its old value to the core that waits, an arrival reaches its object; an access whose domain
has expired is dropped, and counted at its endpoint; a store to a peer leaves in a packet, and stays pending until the peer answers (the
model's choice, log entry 47). A store leaves the words it writes without a soft error (R302). -/
def Obligations.AccessPerformed : Prop :=
  ∀ s : State, ∀ c i e, (s.core c).acc[i]? = some e → mayPerform ((s.core c).acc.take i) e = true →
    let gone := s.upd c fun x => { x with acc := x.acc.erase e, c := { x.c with fl := x.c.fl ||| e.fl } }
    let ep := s.placeEp e.p.at_ e.p.sysa
    (∀ pa, e.p.at_ = .dram pa →
      (∀ bs, e.op = .store bs →
        (s.expired (ep false) e.dom = false →
          exec (.storePerform c i) s =
            .next (({ gone with mem := Memory.write s.mem pa bs, upsets := mended s.upsets pa bs.length } : State).touchLine e.p.at_)) ∧
        (s.expired (ep false) e.dom = true → exec (.storePerform c i) s = .next (gone.dropAt (ep false)))) ∧
      (∀ op b o wt, e.op = .atomic op b o wt → s.expired (ep true) e.dom = true → exec (.atomicPerform c i) s = .next (gone.dropAt (ep true))) ∧
      (∀ op b o wt, e.op = .atomic op b o wt → s.expired (ep true) e.dom = false → s.WholeAt pa e.p.n → let old := bytesWord (Memory.read s.mem pa e.p.n)
        ∃ t, exec (.atomicPerform c i) s = .next t ∧ t.mem = Memory.write s.mem pa (leBytes e.p.n (atNew op e.p.n old b o).toNat) ∧
          (t.core c).acc = (s.core c).acc.erase e ∧
          ∀ rd ty n k, wt = true → (s.core c).stat = .wait (.atomic e.aid rd none ty) n k →
            (t.core c).stat = .wait (.atomic e.aid rd (some old) ty) n k)) ∧
    (∀ va bs, e.p.at_ = .peer va → e.op = .store bs → e.sent = none → (s.core c).park = none → s.expired c e.dom = false → ∃ t k, exec (.storePerform c i) s = .next t ∧
      t.net = s.net ++ [k] ∧ k.dev = va.toNat / 2 ^ 56 - 1 ∧ k.body = .store va bs ∧ k.dom = e.dom ∧ t.mem = s.mem ∧
      { e with sent := some k.id } ∈ (t.core c).acc ∧ (t.core c).acc.length = (s.core c).acc.length) ∧
    (∀ p, e.sent = some p → (∀ k ∈ s.net, k.id ≠ p) → (∀ y ∈ (s.core c).acc, y.sent = some p → y = e) → (∀ id rd ty n k, (s.core c).stat ≠
        .wait (.atomic id rd none ty) n k) → ∃ t, exec (.loadReply c (.performed p)) s = .next t ∧ (t.core c).acc = (s.core c).acc.erase e ∧
      (t.core c).r = (s.core c).r ∧ t.mem = s.mem) ∧
    (∀ k off bs, e.p.at_ = .sp k off → e.op = .store bs → s.away k e.ctx = false → s.expired (spEp k) e.dom = false →
      exec (.storePerform c i) s = .next (gone.upd k fun x => x.spWrite off bs)) ∧
    (∀ k off dep ann, e.p.at_ = .sp k off → e.op = .arrive dep ann → s.away k e.ctx = false → s.expired (spEp k) e.dom = false →
      exec (.barrierArrival c i) s =
        .next (gone.upd k fun x => ((x.arrive off dep ann none).evalArmed off s.cyc).evalArmed (off + 8) s.cyc)) ∧
    (∀ id rd v ty n k, (s.core c).stat = .wait (.atomic id rd (some v) ty) n k → (s.core c).dbg.halted = false →
      Wakes (.loadReply c .own) s c n k fun y => y.ws rd (if ty = .i32 then (v.setWidth 32).signExtend 64 else v))

/-- R266: the new value of an atomic, in 64 bits, and in 32.
R267: every atomic whose checks pass is posted under its type, and holds the S stream only when it names a register. -/
def Obligations.Atomics : Prop :=
  (∀ w b e : Word,
     (atNew .add 8 w b e = w + b ∧ atNew .and 8 w b e = w &&& b ∧ atNew .or 8 w b e = w ||| b ∧ atNew .xchg 8 w b e = b ∧
       atNew .cas 8 w b e = (if w = e then b else w) ∧ atNew .min 8 w b e = (if b.slt w then b else w) ∧
       atNew .max 8 w b e = (if w.slt b then b else w) ∧ atNew .minu 8 w b e = (if b.ult w then b else w) ∧
       atNew .maxu 8 w b e = (if w.ult b then b else w)) ∧
     ∀ v : BitVec 32, let c : BitVec 32 := b.setWidth 32
       atNew .add 4 (v.setWidth 64) b e = (v + c).setWidth 64 ∧ atNew .and 4 (v.setWidth 64) b e = (v &&& c).setWidth 64 ∧
       atNew .or 4 (v.setWidth 64) b e = (v ||| c).setWidth 64 ∧ atNew .xchg 4 (v.setWidth 64) b e = c.setWidth 64 ∧
       atNew .cas 4 (v.setWidth 64) b e = (if v = e.setWidth 32 then c else v).setWidth 64 ∧
       atNew .min 4 (v.setWidth 64) b e = (if c.slt v then c else v).setWidth 64 ∧
       atNew .max 4 (v.setWidth 64) b e = (if v.slt c then c else v).setWidth 64 ∧
       atNew .minu 4 (v.setWidth 64) b e = (if c.ult v then c else v).setWidth 64 ∧
       atNew .maxu 4 (v.setWidth 64) b e = (if v.ult c then c else v).setWidth 64) ∧
  (∀ s : State, ∀ m b a d,
     (∀ t, let y : ATy := if t = .i64 then .i64 else .i32
       Posts (.aadd m t b a d) s .add y m b a d ∧ Posts (.aand m t b a d) s .and y m b a d ∧ Posts (.aor m t b a d) s .or y m b a d ∧
       Posts (.axchg m t b a d) s .xchg y m b a d ∧ Posts (.acas m t b a d) s .cas y m b a d) ∧
     (∀ t, Posts (.amin m t b a d) s (if t = .u64 ∨ t = .u32 then .minu else .min) t m b a d ∧
       Posts (.amax m t b a d) s (if t = .u64 ∨ t = .u32 then .maxu else .max) t m b a d))

/-! The copy streamer and one-sided operations (12, 15). -/

/-- R213, R215, R216: `cpy` submits the job of its card, after the held firings (R277), and returns its promise; a card that fails a check
returns which, and submits nothing. -/
def Obligations.CopySubmit : Prop :=
  ∀ s : State, ∀ m a d, let z := s.fireHeld s.cur
    let c := (z.me.rs a).toNat
    let k := readCard (z.me.spRead c 128)
    let w := z.who z.cur false
    (c % 128 ≠ 0 ∨ c < 0x800 ∨ 0x7FF80 < c → exec (.cpy m a d) s = .next (z.sTrap 0x02#8 (z.me.rs a))) ∧
    (c % 128 = 0 → 0x800 ≤ c → c ≤ 0x7FF80 →
      (z.me.slotFree = false → exec (.cpy m a d) s = .next (z.sStall (z.me.rs a))) ∧
      (z.me.slotFree = true → z.me.spBusy z.cur = false →
        (k.first = false → GivesFrom (.cpy m a d) s z 1 4 d (BitVec.ofNat 64 (2 ^ 63 + 1))) ∧
        (k.first = true → k.lrec.toNat % 128 ≠ 0 → GivesFrom (.cpy m a d) s z 1 4 d (BitVec.ofNat 64 (2 ^ 63 + 2))) ∧
        (∀ r u, k.first = true → k.lrec.toNat % 128 = 0 → z.readRec w k.lrec = .ok r u → recSealed r = true → u.cur = z.cur →
          let code := u.cardCode w.ctx k r
          (code ≠ 0 → ∃ t, exec (.cpy m a d) s = .next t ∧ u.Computes t 1 4 d (BitVec.ofNat 64 (2 ^ 63 + code))) ∧
          (code = 0 → u.cardBad w k r = none → ∃ t j sq, exec (.cpy m a d) s = .next t ∧
            u.used.Completes t 1 4 (fun x => ({ x with jobs := x.jobs ++ [j], seqs := sq } : Core).ws d (BitVec.ofNat 64 j.promise)) ∧
            (j.kind, j.ch, j.wmk, j.stag, j.src, j.dst, j.cmpl, j.fps) = (k.kind, k.ch, k.wmk, k.stag, k.src, k.dst, k.cmpl.toNat, k.fps) ∧
            (j.cnt, j.ss, j.ds, j.run, j.iter) = (recCnt r, recSs r, recDs r, recRun r, k.start) ∧ j.id = u.nextId ∧ j.st = 0 ∧
            j.dom = u.dm m ∧ j.edges = u.me.edgesOf k.fps k.stag ∧
            (k.stag = 0#16 → sq = u.me.seqs) ∧
            (u.me.jobs = [] → recRun r = 0 ∨ extent s.own k.src 0 0 0 ≠ .peer ∧ extent s.own k.dst 0 0 0 ≠ .peer →
              j.promise = Nat.min (u.cyc + 2400 + (recRun r * nestCount (recCnt r) + 15) / 16) (2 ^ 63 - 1))))))

/-- R224, R225, R294: `waitp` completes once its time has come with no promise missed, and raises the promise trap else; `wm` reads
the watermark of a channel.
R208, R214, R217, R218: a job whose edges are through is released, takes its free channel, copies one run in each iteration, and
ends with its arrival. -/
def Obligations.CopyProgress : Prop :=
  (∀ s : State, ∀ c a d, let t := (s.me.rs a).toNat
     (t ≤ s.cyc % 2 ^ 64 → (∀ j ∈ s.me.jobs, j.st = 6 ∨ 1 < j.kind ∨ t < j.promise) → Does (.waitp a) s 1 1 id) ∧
     (∀ j r, t ≤ s.cyc % 2 ^ 64 → s.me.jobs = j :: r → j.st ≠ 6 → j.kind ≤ 1 → j.promise ≤ t →
       Traps (.waitp a) s 0x11#8 (BitVec.ofNat 64 j.promise)) ∧
     (s.cyc % 2 ^ 64 < t → Waits (.waitp a) s s (.cycle (s.me.rs a) true)) ∧
     (∀ n k u, (s.core c).dbg.halted = false → (s.core c).stat = .wait (.cycle u true) n k → u.toNat ≤ s.cyc % 2 ^ 64 →
       (∀ j ∈ (s.core c).jobs, j.st = 6 ∨ 1 < j.kind ∨ u.toNat < j.promise) → Wakes (.cycleWaitEnd c) s c n k id) ∧
     ((∀ j ∈ s.me.jobs, j.wmk = false ∨ j.ch ≠ t % 4 ∨ (j.st ≠ 2 ∧ j.st ≠ 3 ∧ j.st ≠ 4)) → Gives (.wm a d) s 1 2 d (BitVec.allOnes 64)) ∧
     (∀ j r, s.me.jobs = j :: r → j.wmk = true → j.ch = t % 4 → (j.st = 2 ∨ j.st = 3 ∨ j.st = 4) →
       Gives (.wm a d) s 1 2 d (j.dst + BitVec.ofNat 64 j.done))) ∧
  (∀ s : State, ∀ c j k, (s.core c).job j = some k →
     (k.st = 0 → (∀ e ∈ k.edges, ∀ y ∈ (s.core c).jobs, y.id = e → y.st = 6) →
       exec (.jobRelease c j) s = .next (s.updJob c j fun y => { y with st := 1, after := s.cyc })) ∧
     (k.st = 1 → (∀ y ∈ (s.core c).jobs, y.ch = k.ch → y.st < 2 ∨ y.st = 5) → (∀ y ∈ (s.core c).jobs, y.ch = k.ch → y.st = 1 →
       k.after < y.after ∨ k.after = y.after ∧ j ≤ y.id) → s.streamClear c k = true → exec (.jobStart c j) s = .next (s.updJob c j fun y => { y with st := 2 })) ∧
     (∀ ps qs a b u v, k.st = 2 → k.kind = 0 → k.run ≠ 0 → k.flight = 0 → k.wr = false → s.expired c (s.dtag k.dom) = false →
       let w : Who := ⟨c, k.ctx, k.task, 0, s.dtag k.dom, false⟩
       s.chkRun w .st .jobRead (some k.fps) (runParts k.run (k.src + BitVec.ofInt 64 (nestSum (ints k.ss) k.iter)) k.run) = .ok ps u →
       u.chkRun w .st .jobWrite (some k.fps) (runParts k.run (k.dst + BitVec.ofInt 64 (nestSum (ints k.ds) k.iter)) k.run) = .ok qs v →
       Flat ps a k.run → Flat qs b k.run → s.WholeAt a k.run →
       ∃ t, exec (.jobIteration c j .none) s = .next t ∧ t.mem = Memory.write s.mem b (Memory.read s.mem a k.run) ∧
         (t.core c).job j = some (match iterNext k.cnt k.iter with
           | some it => { k with iter := it, done := k.done + k.run }
           | none => { k with st := 4, done := k.done + k.run })) ∧
     (k.st = 4 → k.flight = 0 → k.sig = 0#64 ∨ k.sigSent = true → ∃ t, exec (.jobComplete c j) s = .next t ∧ t.mem = s.mem ∧ t.hub = s.hub ∧
       (t.core c).jobs = (s.core c).jobs.filter (fun y => y.id != j) ∧
       (k.cmpl = 0 → (t.core c).sp = (s.core c).sp) ∧ (t.core c).r = (s.core c).r ∧
       (k.cmpl ≠ 0 → (t.core c).sp = ((s.core c).arrive k.cmpl false false (some (engSt k.code))).sp)))

/-- R269 to R276: `put`, `putsg`, `get` and `padd` submit the job that their descriptor names; a tile add goes to the slice.
R277: `arm` places an entry, which fires at once when its trigger has been reached; the put that fired first is submitted when a
slot is free. -/
def Obligations.SideOperations : Prop :=
  (∀ s : State, ∀ x a d,
     Submits (.put x a d) s .put (fun _ => 2) x a d ∧ Submits (.putsg x a d) s .putsg (fun _ => 2) x a d ∧
     Submits (.get x a d) s .get (fun _ => 3) x a d ∧ Submits (.padd x a d) s .padd (fun k => if k.ety = 2 then 5 else 4) x a d) ∧
  (∀ s : State, ∀ x a d m, let z := s.fireHeld s.cur
     let off := z.me.rs a
     let k := readDesc (z.me.spRead off.toNat 64)
     z.dmr x = (m, true) →
     (off.toNat % 64 = 0 → 0x800 ≤ off.toNat → off.toNat + 64 ≤ 0x80000 → z.me.spBusy z.cur = false →
       (k.code z.own z.cur .arm ≠ 0 → GivesFrom (.arm x a d) s z 1 4 d (BitVec.ofNat 64 (2 ^ 63 + k.code z.own z.cur .arm))) ∧
       (k.code z.own z.cur .arm = 0 → (z.sideDom x m).2 = true →
         (32 ≤ z.me.armed.length → GivesFrom (.arm x a d) s z 1 4 d (BitVec.ofNat 64 (2 ^ 63 + 7))) ∧
         (z.me.armed.length < 32 → z.sideBad (z.who z.cur false) k .arm = none → ∃ t e, exec (.arm x a d) s = .next t ∧
           z.Completes t 1 4 (fun c => (({ c with armed := c.armed ++ [e] } : Core).evalArmed e.trig z.cyc).ws d 0#64) ∧
           (e.trig, e.thr, e.src, e.dst, e.len, e.sig, e.cmpl) = (k.trig.toNat % 2 ^ 56, k.thr, k.src, k.dst, k.len, k.sig, k.cmpl) ∧
           e.fired = none ∧ e.dom = (z.sideDom x m).1))) ∧
     (∀ c e l t0 n, (s.core c).armed = e :: l → e.fired = some (t0, n) → (∀ y ∈ l, ∀ q, y.fired = some q → t0 ≤ q.1) →
       e.len < 2 ^ 40 → (s.core c).openJobs.length < 16 → ∃ t j, exec (.heldFiringSubmit c) s = .next t ∧ (t.core c).armed = l ∧ t.mem = s.mem ∧
         (t.core c).jobs = (s.core c).jobs ++ [j] ∧ j.kind = 2 ∧ (j.src, j.dst, j.len, j.sig, j.cmpl, j.sigA, j.dom) =
           (e.src, e.dst, e.len, e.sig, e.cmpl, n, e.dom)))

/-- R272, R273: a put's data is performed at its place; a signal counts up the signal word, keeps an annulment's mark, and fills the
word's tag; a drop notice tells the job. -/
def Obligations.SideArrivals : Prop :=
  ∀ s : State, ∀ i k, s.pkt i = some k → k.dev = s.own →
    (∀ a bs src job ps pa u, k.body = .data a bs src job → k.peer = false → src / 4096 = s.own →
      s.chkRun (pktWho s.own k src) .st .jobWrite none (runParts bs.length (BitVec.ofNat 64 (a.toNat % 2 ^ 56)) bs.length) = .ok ps u →
      Flat ps pa bs.length → (∀ p ∈ ps, u.expired (u.placeEp p.at_ p.sysa false) k.dom = false) →
      (∀ y, (u.core (src % 4096)).job job = some y → u.away (src % 4096) k.ctx = false → 0 < y.flight) →
      ∃ t, exec (.putDataArrival i) s = .next t ∧ t.mem = Memory.write s.mem pa bs ∧ t.net = s.net.filter fun x => x.id != i) ∧
    (∀ c off ann src job, k.body = .signal c off ann src job → s.away c k.ctx = false → k.peer = false →
      (src % 4096 ≠ c → s.runsCtx c k.ctx = true) → off + 8 ≤ 0x80000 → let w := ((s.core c).spWord off).toNat
      ∃ t, exec (.signalArrival i) s = .next t ∧ t.net = s.net.filter (fun x => x.id != i) ∧ (t.core c).full off = true ∧
        ((t.core c).spWord off).toNat = (if 2 ^ 63 ≤ w ∨ ann = true then 2 ^ 63 else 0) + (w + 1) % 2 ^ 63) ∧
    (∀ c j y, k.body = .dropNotice c j → s.net.find? (fun p => p.dev == s.own && p.body == .dropNotice c j) = some k →
      s.away c k.ctx = false → (s.core c).job j = some y → ∃ t, exec (.dropNoticeArrival c j) s = .next t ∧
        (0 < y.flight → (t.core c).job j = some { y with flight := y.flight - 1, code := if y.code = 0 then 5 else y.code }) ∧
        ∀ z, (t.core c).job j = some z → (y.code = 0 → z.code = 5) ∧ (y.code ≠ 0 → z.code = y.code)) ∧
    (∀ c j y, (s.core c).job j = some y → y.st = 4 → y.flight = 0 → y.sig ≠ 0#64 → y.sigSent = false →
      ∃ t, exec (.signalSend c j) s = .next t ∧ t.mem = s.mem ∧ (t.core c).job j = some { y with sigSent := true } ∧
        ∀ dev c' off, sigTarget s.own c y.sig = some (dev, c', off) → ∃ p, t.net = s.net ++ [p] ∧ p.dev = dev ∧ p.dom = DTag.imm ∧
          p.body = .signal c' off (y.sigA || y.code != 0) (s.own * 4096 + c) j)

/-! The W stream and the vector unit (02, 06). -/

/-- R21, R29: a W instruction in its S slot is placed, with its constant operand, at the tail of the W buffer; W_DISPATCH does the same
with a word.
R22, R26: W_ISSUE issues the instruction at the head of the buffer; W_WRITE_LANDING lands the pending write whose cycle came
first, at the end of that cycle: lanes and bits outside its mask keep what they held, a queue gains an entry, and the flags stick. -/
def Obligations.WStream : Prop :=
  (∀ s : State, ∀ i, (issueOf i).isSome → s.phase = .s → ∃ w, encode i = [w] ∧
     (s.me.wbuf.length < 16 → Does i s 1 1 fun c => { c with wbuf := c.wbuf ++ [⟨w, cstOf i s, s.me.pc, s.cyc, none, s.nextId⟩] }) ∧
     (s.me.wbuf.length < 16 → i.wf = true → s.sReady s.cur = true → Does (.wDispatch w) s 1 1 fun c => { c with wbuf := c.wbuf ++ [⟨w, cstOf i s, s.me.pc, s.cyc, none, s.nextId⟩] }) ∧
     (16 ≤ s.me.wbuf.length → s.me.wStuck = none → ∃ t, exec i s = .next t ∧ t.me = { s.me with ready := s.cyc + 1 })) ∧
  (∀ s : State, ∀ c,
     (∀ w i f, s.wReady c = true → (s.core c).wbuf.head?.map (·.word) = some w → decodeWord .none w = some i → issueOf i = some f →
       ∃ u, exec (.wIssue c) s = .next u ∧ exec i { s with cur := c, phase := .w } = .next u) ∧
     (∀ p r, (s.core c).wpend = p :: r → p.land ≤ s.cyc → (∀ q ∈ r, p.land ≤ q.land) →
       (p.land = s.cyc → s.wReady c = false ∧ s.sReady c = false) → ∃ t, exec (.wWriteLanding c) s = .next t ∧
       t = { s with cores := t.cores } ∧ (∀ e, e ≠ c → t.core e = s.core e) ∧
       (t.core c).wpend = r ∧ (t.core c).sp = (s.core c).sp ∧ (∀ x, (t.core c).rs x = (s.core c).rs x) ∧
       (∀ d m x, p.tgt = .v d m x → (∀ n : Fin 48, ((t.core c).rv d)[n] = if laneMask m n then x[n] else ((s.core c).rv d)[n]) ∧
         ∀ e, e ≠ d → (t.core c).rv e = (s.core c).rv e) ∧
       (∀ d m x, p.tgt = .k d m x → d ≠ 0#3 → (t.core c).rk d = ((s.core c).rk d &&& ~~~ m) ||| (x &&& m)) ∧
       (∀ m x, p.tgt = .k 0#3 m x → (t.core c).rk 0#3 = BitVec.allOnes 48) ∧
       (∀ n x k, p.tgt = .q n x k → (t.core c).rq (1#1 ++ n) = (s.core c).rq (1#1 ++ n) ++ [x] ∧
         (t.core c).qinfo = ((s.core c).enqueued (1#1 ++ n) x (p.land + 1) k).qinfo) ∧
       (t.core c).c.fl = (s.core c).c.fl ||| p.fl))

/-- R100, R102, R114: the two-operand vector operations; they compute each type, and land after their latency.
R101, R102, R103, R104, R114: compares, selection, permutation, conversions and transcendentals. -/
def Obligations.VectorResults : Prop :=
  ((∀ t, Issues2 (.vadd · t) 4 (op2 fAdd (fun a b => a + b) t)) ∧
   (∀ t, Issues2 (.vsub · t) 4 (op2 (fun a b => fAdd a b.neg) (fun a b => a - b) t)) ∧
   (∀ t, Issues2 (.vmul · t) (if t = .i32 then 5 else 4) (op2 fMul (fun a b => a * b) t)) ∧
   (∀ t, Issues2 (.vmin · t) 4 (op2 fMin (fun a b => if a.toInt < b.toInt then a else b) t)) ∧
   (∀ t, Issues2 (.vmax · t) 4 (op2 fMax (fun a b => if b.toInt < a.toInt then a else b) t)) ∧
   (∀ t, Issues2 (.vand · t) 2 fun a b => (a &&& b, 0#5)) ∧
   (∀ t, Issues2 (.vor · t) 2 fun a b => (a ||| b, 0#5)) ∧
   (∀ t, Issues2 (.vxor · t) 2 fun a b => (a ^^^ b, 0#5)) ∧
   Issues2 .vshl 2 (fun a b => (a <<< (b.toNat % 32), 0#5)) ∧ Issues2 .vshr 2 (fun a b => (a >>> (b.toNat % 32), 0#5)) ∧
   Issues2 .vsra 2 (fun a b => (a.sshiftRight (b.toNat % 32), 0#5)) ∧
   (∀ t, Issues1 (.vabs · t) 1 4 fun a => op2 (fun x _ => (x.abs, false)) (fun x _ => if x.toInt < 0 then -x else x) t a a) ∧
   (∀ t, Issues1 (.vneg · t) 1 4 fun a => op2 (fun x _ => (x.neg, false)) (fun x _ => -x) t a a) ∧
   Issues3 .vfmaF32 (opFma false .f32) ∧ Issues3 .vfmsF32 (opFma true .f32) ∧ Issues3 .vfmaBf16 (opFma false .bf16) ∧
   Issues3 .vfmsBf16 (opFma true .bf16) ∧ Issues3 .vfmaI32 (fun a b c => (a * b + c, 0#5)) ∧ Issues3 .vfmsI32 (fun a b c => (a * b - c, 0#5))) ∧
  ((∀ k t b a d, IssuesMask (.vceq k t b a d) [a, b] k d fun s n => opRel relEq t (s.me.src a)[n] (s.me.src b)[n]) ∧
   (∀ k t b a d, IssuesMask (.vclt k t b a d) [a, b] k d fun s n => opRel relLt t (s.me.src a)[n] (s.me.src b)[n]) ∧
   (∀ k t b a d, IssuesMask (.vcle k t b a d) [a, b] k d fun s n => opRel relLe t (s.me.src a)[n] (s.me.src b)[n]) ∧
   (∀ k t b a d, IssuesLanes (.vsel k t b a d) [a, b] 0#3 d 1 2 fun s n =>
     (if laneMask (s.me.rk k) n then (s.me.src a)[n] else (s.me.src b)[n], 0#5)) ∧
   (∀ k b a d, IssuesLanes (.vperm k b a d) [a, b] k d 1 3 fun s n =>
     (if h : ((s.me.src b)[n]).toNat % 64 < 48 then (s.me.src a)[((s.me.src b)[n]).toNat % 64]'h else 0#32, 0#5)) ∧
   (∀ t u, Issues1 (fun k a d => .vcvt k t u a d) 1 4 (opCvt t u)) ∧
   (∀ t, Issues1 (.vrcp · t) 2 12 fun a => opTrans rcp32 t a a) ∧ (∀ t, Issues1 (.vrsq · t) 2 12 fun a => opTrans rsq32 t a a) ∧
   (∀ t, Issues1 (.vexp · t) 4 16 fun a => opTrans exp32 t a a) ∧ (∀ t, Issues1 (.vlog · t) 4 16 fun a => opTrans log32 t a a) ∧
   (∀ t, Issues1 (.vtanh · t) 4 20 fun a => opTrans tanh32 t a a) ∧ (∀ t, Issues1 (.vsig · t) 4 20 fun a => opTrans sig32 t a a))

/-- R105: the forms with a window word compute what the register forms do, on the word read at dispatch. -/
def Obligations.VectorConstant : Prop :=
  IssuesC .f32 .vaddF32Const 4 (opAdd .f32) ∧ IssuesC .bf16 .vaddBf16Const 4 (opAdd .bf16) ∧
  IssuesC .i32 .vaddI32Const 4 (fun a b => (a + b, 0#5)) ∧
  IssuesC .f32 .vsubF32Const 4 (opSub .f32) ∧ IssuesC .bf16 .vsubBf16Const 4 (opSub .bf16) ∧
  IssuesC .i32 .vsubI32Const 4 (fun a b => (a - b, 0#5)) ∧
  IssuesC .f32 .vmulF32Const 4 (opMul .f32) ∧ IssuesC .bf16 .vmulBf16Const 4 (opMul .bf16) ∧
  IssuesC .i32 .vmulI32Const 5 (fun a b => (a * b, 0#5)) ∧
  IssuesC .f32 .vminF32Const 4 (opMin .f32) ∧ IssuesC .bf16 .vminBf16Const 4 (opMin .bf16) ∧
  IssuesC .i32 .vminI32Const 4 (fun a b => (if a.toInt < b.toInt then a else b, 0#5)) ∧
  IssuesC .f32 .vmaxF32Const 4 (opMax .f32) ∧ IssuesC .bf16 .vmaxBf16Const 4 (opMax .bf16) ∧
  IssuesC .i32 .vmaxI32Const 4 (fun a b => (if b.toInt < a.toInt then a else b, 0#5)) ∧
  IssuesC .f32 .vandF32Const 2 (fun a b => (a &&& b, 0#5)) ∧ IssuesC .bf16 .vandBf16Const 2 (fun a b => (a &&& b, 0#5)) ∧
  IssuesC .i32 .vandI32Const 2 (fun a b => (a &&& b, 0#5)) ∧
  IssuesC .f32 .vorF32Const 2 (fun a b => (a ||| b, 0#5)) ∧ IssuesC .bf16 .vorBf16Const 2 (fun a b => (a ||| b, 0#5)) ∧
  IssuesC .i32 .vorI32Const 2 (fun a b => (a ||| b, 0#5)) ∧
  IssuesC .f32 .vxorF32Const 2 (fun a b => (a ^^^ b, 0#5)) ∧ IssuesC .bf16 .vxorBf16Const 2 (fun a b => (a ^^^ b, 0#5)) ∧
  IssuesC .i32 .vxorI32Const 2 (fun a b => (a ^^^ b, 0#5)) ∧
  IssuesC .i32 .vshlI32Const 2 (fun a b => (a <<< (b.toNat % 32), 0#5)) ∧
  IssuesC .i32 .vshrI32Const 2 (fun a b => (a >>> (b.toNat % 32), 0#5)) ∧
  IssuesC .i32 .vsraI32Const 2 (fun a b => (a.sshiftRight (b.toNat % 32), 0#5)) ∧
  (∀ k c a d, IssuesMask (.vceqF32Const k c a d) [a] k d fun s n => opRel relEq .f32 (s.me.src a)[n] (constLane .f32 s.head.cst)) ∧
  (∀ k c a d, IssuesMask (.vcltF32Const k c a d) [a] k d fun s n => opRel relLt .f32 (s.me.src a)[n] (constLane .f32 s.head.cst)) ∧
  (∀ k c a d, IssuesMask (.vcleF32Const k c a d) [a] k d fun s n => opRel relLe .f32 (s.me.src a)[n] (constLane .f32 s.head.cst)) ∧
  (∀ k c a d, IssuesMask (.vceqBf16Const k c a d) [a] k d fun s n => opRel relEq .bf16 (s.me.src a)[n] (constLane .bf16 s.head.cst)) ∧
  (∀ k c a d, IssuesMask (.vcltBf16Const k c a d) [a] k d fun s n => opRel relLt .bf16 (s.me.src a)[n] (constLane .bf16 s.head.cst)) ∧
  (∀ k c a d, IssuesMask (.vcleBf16Const k c a d) [a] k d fun s n => opRel relLe .bf16 (s.me.src a)[n] (constLane .bf16 s.head.cst)) ∧
  (∀ k c a d, IssuesMask (.vceqI32Const k c a d) [a] k d fun s n => (decide ((s.me.src a)[n] = s.head.cst.extractLsb' 0 32), 0#5)) ∧
  (∀ k c a d, IssuesMask (.vcltI32Const k c a d) [a] k d fun s n =>
    (decide (((s.me.src a)[n]).toInt < (s.head.cst.extractLsb' 0 32).toInt), 0#5)) ∧
  (∀ k c a d, IssuesMask (.vcleI32Const k c a d) [a] k d fun s n =>
    (decide (((s.me.src a)[n]).toInt ≤ (s.head.cst.extractLsb' 0 32).toInt), 0#5))

/-- R106, R107, R24, R25, R114: the moves between queues and vector or mask registers, and the reductions; an empty queue that the S
stream will not fill any more is a deadlock. -/
def Obligations.VectorQueues : Prop :=
  (∀ t l q v, IssuesPush (.vext t l q v) [v] q 2 (fun s => let x : Lane := if h : l.toNat < 48 then (s.me.src v)[l.toNat]'h else 0#32
    if t = .i32 then x.signExtend 64 else x.setWidth 64) fun _ => 0#5) ∧
  (∀ k t q v, IssuesPush (.vred k t q v) [v] q (if t = .i32 then 8 else 18) (fun s => (redAdd t (s.me.rk k) (s.me.src v)).1)
    fun s => (redAdd t (s.me.rk k) (s.me.src v)).2) ∧
  (∀ k t q v, IssuesPush (.vrmax k t q v) [v] q 8 (fun s => (redMax t (s.me.rk k) (s.me.src v)).1)
    fun s => (redMax t (s.me.rk k) (s.me.src v)).2) ∧
  (∀ k t q v, IssuesPush (.vrmin k t q v) [v] q 8 (fun s => (redMin t (s.me.rk k) (s.me.src v)).1)
    fun s => (redMin t (s.me.rk k) (s.me.src v)).2) ∧
  (∀ q r, IssuesPush (.kget q r) [] q 2 (fun s => (s.me.rk r).setWidth 64) fun _ => 0#5) ∧
  (∀ t l q v, IssuesPop (.vins t l q v) q (some v) fun _ x => .v v (1#48 <<< l.toNat) (Vector.replicate 48 (x.setWidth 32))) ∧
  (∀ k t q v, IssuesPop (.vbc k t q v) q (some v) fun s x => .v v (s.me.rk k) (Vector.replicate 48 (x.setWidth 32))) ∧
  (∀ q r, IssuesPop (.kput q r) q none fun _ x => .k r (BitVec.allOnes 48) (x.setWidth 48)) ∧
  (∀ s : State, ∀ q r a, s.phase = .w → s.me.rq (0#1 ++ q) = [] → s.me.stat = .ending a →
    exec (.kput q r) s = .next { s.wTrap s.cur 0x04#8 s.head.pc (q.setWidth 64) with phase := .s })

/-- R108, R109, R110: loads of the vector unit from the scratchpad, of lanes and of a block.
R108, R109, R111: stores of the vector unit to the scratchpad, of lanes and of a block. -/
def Obligations.VectorMemory : Prop :=
  ((∀ k t p q o d, LoadsLanes (.vld k t p q o d) [] p q k d 1 6 fun _ b n => vmAddr b o + BitVec.ofNat 64 (4 * n.val)) ∧
   (∀ k t p q v d, LoadsLanes (.vgath k t p q v d) [v] p q k d 6 10 fun s b n =>
     (b &&& 0x00FFFFFFFFFFFFFF#64) + ((s.me.src v)[n]).signExtend 64) ∧
   (∀ s : State, ∀ k t p q o d b, s.CanIssue [] (some d) → s.HasBase q b → plainBase b = true → InSp (vmAddr b o) 64 →
     (s.sawBase q).SpFree s.cur true → s.me.wmBlocks (vmAddr b o) 64 = false → s.me.Whole (vmAddr b o).toNat 64 →
     let x := blkOf (Memory.read s.me.sp (vmAddr b o).toNat 64)
     (x.eval (accepts t) ≤ 1 → ∃ u y fl, exec (.vbld k t p q o d) s = .next u ∧
       FlagsOf fl (s.me.rk k) (fun n => (blkLane t x s.me.c.txc n.val).2) ∧ (∀ n : Fin 48, y[n] = (blkLane t x s.me.c.txc n.val).1) ∧
       s.Issued u 1 [⟨s.cyc + 7, .v d (s.me.rk k) y, fl⟩] fun c => s.afterBase p q c) ∧
     (1 < x.eval (accepts t) → s.me.wpend ≠ [] → s.me.stat = .run → ∃ u, exec (.vbld k t p q o d) s = .next u ∧ u.me.stat = .trapping
       ⟨0x05#8, s.head.pc, vmAddr b o + BitVec.ofNat 64 (x.eval (accepts t)), true⟩)) ∧
   (∀ s : State, ∀ k t p q o d b, s.CanIssue [] (some d) → s.HasBase q b → plainBase b = false → s.me.wpend ≠ [] → s.me.stat = .run →
     ∃ u, exec (.vld k t p q o d) s = .next u ∧ u.me.stat = .trapping ⟨0x02#8, s.head.pc, b, true⟩)) ∧
  ((∀ k t p q o d, StoresLanes (.vst k t p q o d) [d] p q k d 1 fun _ b n => vmAddr b o + BitVec.ofNat 64 (4 * n.val)) ∧
   (∀ k t p q v d, StoresLanes (.vscat k t p q v d) [v, d] p q k d 6 fun s b n =>
     (b &&& 0x00FFFFFFFFFFFFFF#64) + ((s.me.src v)[n]).signExtend 64) ∧
   (∀ s : State, ∀ k t p q o d b, s.CanIssue [d] none → s.HasBase q b → bits b 5 4 = 0 → (five t = false → bits b 3 0 = 0) →
     InSp (vmAddr b o) 64 → (s.sawBase q).SpFree s.cur true → 0x80 ≤ (vmAddr b o).toNat → let sc := b.extractLsb' 56 8
     let dl := b.extractLsb' 0 4
     let m := s.me.rk k
     let elem (n : Nat) : Option FV :=
       if five t then if m.getLsbD (n / 2) then
         some (bf16Val (((s.me.src d).toList.getD (n / 2) 0#32).extractLsb' (16 * (n % 2)) 16)) else none
       else if m.getLsbD n then some (f32Val ((s.me.src d).toList.getD n 0#32)) else none
     let pay := packBlk t s.me.c.txc sc.toNat dl.toInt elem
     let done (bs : List Byte) (fl : BitVec 5) : Prop := ∃ u sp lt ups, exec (.vbst k t p q o d) s = .next u ∧
       s.Issued u 2 (if fl = 0#5 then [] else [⟨s.cyc, .none, fl⟩]) (fun c => { (s.afterBase p q c).popStrips [d] with sp := sp, late := lt, ups := ups }) ∧
       ∀ x, Memory.get sp x = if (vmAddr b o).toNat ≤ x ∧ x < (vmAddr b o).toNat + 64 then bs.getD (x - (vmAddr b o).toNat) 0#8
         else Memory.get s.me.sp x
     (sc = 0xFF#8 → done (blkBytes (classFmt t) 0xFF#8 0#480) 0#5) ∧
     (sc ≠ 0xFF#8 → (five t = true → 0 ≤ (sc.toNat : Int) + dl.toInt ∧ (sc.toNat : Int) + dl.toInt ≤ 254) →
       done (blkBytes (if five t then classFmt t ||| dl.setWidth 8 else classFmt t) sc pay.1) pay.2)))

/-! Matrix slices, gangs, tiles and streams (09, 12, 13). -/

/-- R159, R168: each matrix instruction sends its part to the inbox of its slice, with its constant and its domain; a full inbox, and a
pending access to a scratchpad that comes before it (R166), stall it. BAR counts as 0, with TRAPVAL 0, for a card of `mmaj` that lies
outside the scratchpad (the model's choice, log entry 83).
R173 to R176, R234 to R236, R246: what the part of each does to the core once its slice has run it. R170 to R172: what the gang part of
`mma` and of `mmaj` does when the gang of eight equal parts starts. -/
def Obligations.MatrixIssue : Prop :=
  (∀ i : Instr, (∃ c w l g y t, i = .mma c w l g y t) ∨ (∃ c w l g y t, i = .mmaj c w l g y t) ∨ (∃ t, i = .aclr t) ∨
      (∃ a t, i = .acpy a t) ∨ (∃ a t, i = .radd a t) ∨ (∃ j t, i = .rscl j t) ∨ (∃ c y t, i = .rdout c y t) ∨
      (∃ t, i = .publOpen t) ∨ (∃ t, i = .publClose t) ∨ (∃ c, i = .still c) ∨ (∃ c t, i = .aspl c t) ∨ (∃ c t, i = .afil c t) ∨
      (∃ c, i = .mwait c) → ∀ s : State, s.phase = .w →
    let off : Nat := match i with
      | .mma .. => bits s.head.cst 14 0 * 16
      | .mmaj .. => if s.head.cst.toNat + 8 ≤ 0x80000 then bits (s.me.spWord s.head.cst.toNat) 14 0 * 16 else 0
      | .mwait _ => s.head.cst.toNat
      | _ => 0x800
    let n : Nat := match i with
      | .mwait _ => 8
      | _ => 16
    let stalls : Prop := ∃ t, exec i s = .next t ∧ t.me.sl = s.me.sl ∧ t.me.wbuf = s.me.wbuf ∧ t.me.wReady = s.cyc + 1
    (8 ≤ s.me.sl.inbox.length → stalls) ∧
    let first (a : PAcc) : Prop := a.p.kind = .sp ∧ (a.w = true ∨ a.aid < s.head.aid)
    ((∃ a ∈ s.me.acc, first a) → stalls) ∧
    (s.me.sl.inbox.length < 8 → (∀ a ∈ s.me.acc, ¬ first a) → 0x800 ≤ off → off < 0x80000 → off % n = 0 → SendsPart i s) ∧
    (s.me.sl.inbox.length < 8 → (∀ a ∈ s.me.acc, ¬ first a) → off < 0x800 ∨ 0x80000 ≤ off ∨ off % n ≠ 0 →
      exec i s = .next { s.wTrap s.cur 0x02#8 s.head.pc (BitVec.ofNat 64 off) with phase := .s })) ∧
  (∀ s : State, s.phase = .w → s.me.sl.inbox.length < 8 → (∀ a ∈ s.me.acc, a.p.kind = .sp → a.w = false ∧ s.head.aid ≤ a.aid) →
    let d := s.head.cst
    let dom := (s.who s.cur true).dom
    let on (i : Instr) : Prop := encode i = [s.head.word]
    (∀ t, on (.aclr t) → Performs (.aclr t) s fun _ y => (∀ k, k < 1536 → y.sl.cell t k = 0#48) ∧ y.sl.tile t = { Tile.zero with dom := dom }) ∧
    (∀ a t, on (.acpy a t) → Performs (.acpy a t) s fun x y => ∀ k, k < 1536 →
      y.sl.cell t k = if a = t then x.sl.cell t k else x.sl.cell a k &&& 0x3FFFFFFFFFFF#48) ∧
    (∀ a t, on (.radd a t) → Performs (.radd a t) s fun x y => ∀ k, k < 1536 → y.sl.cell t k = cellAdd (x.sl.cell t k) (x.sl.cell a k)) ∧
    (∀ j t, on (.rscl j t) → Performs (.rscl j t) s fun x y => ∀ k, k < 1536 → y.sl.cell t k = cellScl j (x.sl.cell t k)) ∧
    (∀ c r t, on (.rdout c r t) → Performs (.rdout c r t) s fun x y =>
      if rdoutOk r.code.toNat d = true then x.Wrote y (bits d 18 0 + 64 * x.sl.blk) ((outBytes r.code.toNat d x.sl t).1.drop (64 * x.sl.blk)) ∧
        y.c.fl = x.c.fl ||| (outBytes r.code.toNat d x.sl t).2
      else y.sl.stBad = true ∧ y.sp = x.sp) ∧
    (∀ t, on (.publOpen t) → Performs (.publOpen t) s fun x y => y.sl.tile t = { x.sl.tile t with st := .published, dom := dom }) ∧
    (∀ t, on (.publClose t) → Performs (.publClose t) s fun x y =>
      if (x.sl.tile t).st = .published then y.sl.tile t = { x.sl.tile t with st := .settled } else y.sl.stBad = true) ∧
    (∀ c, on (.still c) → Performs (.still c) s fun x y => y = { x with sl := { x.sl with cur := none } }) ∧
    (∀ c t, on (.aspl c t) → Performs (.aspl c t) s fun x y =>
      if rowOk d = true ∧ rowEnd d ≤ 0x80000 then
        x.Wrote y (bits d 18 0 + 64 * x.sl.blk) (((rowParts d).flatMap fun q => spillBlk x.sl t q.1 q.2).drop (64 * x.sl.blk))
      else y.sl.stBad = true ∧ y.sp = x.sp) ∧
    (∀ c t, on (.afil c t) → Performs (.afil c t) s fun x y => let blk (i : Nat) : Blk := blkOf (x.spRead (bits d 18 0 + 64 * i) 64)
      let good (i : Nat) (q : Nat × Nat) : Prop := (blk i).eval (fun b => b.fmt == BitVec.ofNat 8 (0x40 + q.2)) ≤ 1
      (rowOk d = false ∨ 0x80000 < rowEnd d → y.sl.stBad = true ∧ y.sl.cells = x.sl.cells) ∧
      (rowOk d = true → rowEnd d ≤ 0x80000 →
        ((∀ i q, (rowParts d)[i]? = some q → good i q) → ∀ i q n, (rowParts d)[i]? = some q → n < partLen q.2 →
          y.sl.cell t (48 * q.1 + 10 * q.2 + n) = if (blk i).isNull then 0#48 else (blk i).cell n &&& 0x3FFFFFFFFFFF#48) ∧
        ((∃ i q, (rowParts d)[i]? = some q ∧ ¬ good i q) → y.sl.stBad = true ∧ y.sl.cells = x.sl.cells))) ∧
    (∀ c, on (.mwait c) → 0x800 ≤ d.toNat → d.toNat < 0x80000 → d.toNat % 8 = 0 → Performs (.mwait c) s fun x y =>
      y.spWord d.toNat = 0#48 ++ x.sl.stOpc ++ x.sl.stFop ++ 0#4 ++ BitVec.ofBool x.sl.stChk ++ BitVec.ofBool x.sl.stClmp ++ BitVec.ofBool x.sl.stBad ++ 1#1 ∧
        y.full d.toNat = true ∧ y.sl.stBad = false ∧ y.sl.stChk = false ∧ y.sl.stClmp = false) ∧
    (∀ c w l g y t, on (.mma c w l g y t) → 0x800 ≤ bits d 14 0 * 16 → ∃ v p, exec (.mma c w l g y t) s = .next v ∧ s.Sent v p ∧
      ∀ (u : State) row ps, u.GangReady row ps → p ∈ ps → (∀ q ∈ ps, u.gangKey q = u.gangKey p) → u.allExpired ps = false → descOk d = true →
        offsOk (dAoff d) (dBoff d) = true → u.StepGood row ps p.five d (dAoff d) (dBoff d) →
        ∃ z, exec (.gangStart row) u = .next z ∧ u.PartAdds z row p d (dAoff d) (dBoff d) l t ∧ (z.sl p.src).inbox = (u.sl p.src).inbox.tail) ∧
    (∀ c w l g y t, on (.mmaj c w l g y t) → d.toNat + 8 ≤ 0x80000 → 0x800 ≤ bits (s.me.spWord d.toNat) 14 0 * 16 →
      ∃ v p, exec (.mmaj c w l g y t) s = .next v ∧ s.Sent v p ∧
      ∀ (u : State) row ps, u.GangReady row ps → p ∈ ps → (∀ q ∈ ps, u.gangKey q = u.gangKey p ∧ cardOk q.cst.toNat = true) →
        u.allExpired ps = false → let k := u.card p
        let word (o : Nat) : Word := bytesWord ((k.drop o).take 8)
        let lv := (List.range 5).map fun n => word (16 + 8 * n)
        let ab := iterOffs (word 0) lv (word 56)
        (k.drop 64).all (· == 0#8) = true → bits (word 8) 63 60 = 0 → (∀ x ∈ lv, bits x 63 33 = 0) → iterOk (word 8) (word 56) = true →
        descOk (word 0) = true → offsOk ab.1 ab.2 = true → u.StepGood row ps p.five (word 0) ab.1.toNat ab.2.toNat →
        ∃ z h, exec (.gangStart row) u = .next z ∧ u.PartAdds z row p (word 0) ab.1.toNat ab.2.toNat (iterClr l lv (word 56)) (iterTile t lv (word 56)) ∧
          (z.row row).gangs = (u.row row).gangs ++ [h] ∧ h.parts = ps ∧ h.k = 1 ∧ h.iter = iterNext (word 8) (word 56)))

/-- R228, R229: `smode` puts a register in stream mode on the nest of its descriptor, `soff` ends that with the strip popped last, and
the streamer fetches strips in the order of the nest, up to four ahead.
The model's reading: the reason code of a descriptor past the scratchpad (log entry 59). -/
def Obligations.StreamMode : Prop :=
  ∀ s : State, ∀ d : BitVec 3, let v : VReg := 3#2 ++ d
    (s.phase = .w → (∀ p ∈ s.me.wpend, ∀ m x, p.tgt ≠ .v v m x) → let off := s.head.cst.toNat
      let ra := s.me.spWord off
      let start := s.me.spWord (off + 16)
      (0x80000 < off + 32 → ∀ c, exec (.smode c d) s = .next { s.wTrap s.cur 0x09#8 s.head.pc (BitVec.ofNat 64 (v.toNat * 256 + 1)) with phase := .s }) ∧
      (∀ r, off + 32 ≤ 0x80000 → s.me.spWord (off + 24) = 0#64 → bits start 63 60 = 0 → ra.toNat % 128 = 0 →
        s.readRec (s.who s.cur true) ra = .ok r s → recSealed r = true → recShaped r = true → recRun r = 192 → recGran r ≤ 4 →
        iterOk (recCnt r) start = true → ∀ c, ∃ t x, exec (.smode c d) s = .next t ∧ s.Issued t 1 [] (fun k => { k with str := tPut k.str v.toNat x }) ∧
          (x.base, x.cnt, x.ss, x.next, x.buf, x.bad) = (s.me.spWord (off + 8), recCnt r, recSs r, some start, [], none))) ∧
    (s.phase = .w →
      (tGet s.me.str v.toNat = none → ∃ t, exec (.soff d) s = .next t ∧ s.Issued t 1 [] id) ∧
      (∀ x, tGet s.me.str v.toNat = some x → ∃ t, exec (.soff d) s = .next t ∧ tGet t.me.str v.toNat = none ∧
        t.me.rv v = x.last ∧ (∀ u, u ≠ v → t.me.rv u = s.me.rv u) ∧ t.me.sp = s.me.sp ∧ t.me.wbuf = s.me.wbuf.tail)) ∧
    (∀ c x it ps q a, tGet (s.core c).str v.toNat = some x → x.next = some it → x.buf.length < 4 → x.bad = none → let w := s.who c true
      a = x.base + BitVec.ofInt 64 (nestSum (ints x.ss) it) →
      s.chkRun w .st .strip (s.taskFps w.task) (runParts 192 a 192) = .ok ps s →
      Flat ps q 192 →
      ∃ t y, exec (.stripFetch c d) s = .next t ∧ tGet (t.core c).str v.toNat = some { x with buf := x.buf ++ [y], next := iterNext x.cnt it } ∧
        t.mem = s.mem ∧ ∀ n : Fin 48, y[n] = BitVec.ofNat 32 (leNat (Memory.read s.mem (q + 4 * n.val) 4)))

/-- R163, R176, R239, R240, R247: a slice part starts when the slice is idle and no arrival waits; it is not done on a tile that is
published, and one whose domain has expired is consumed.
R173 to R176, R235: what a slice part does at the end of its busy count: on the cells, digit by digit, on the tile's header, on the
scratchpad, and on the status of `mwait`. R66, R192: `rdout` and `aspl` write their tile block by block while they are busy (in which cycle
is the model's choice, log entry 84), and what does not stand there yet at the end.
A part that is refused or has expired takes no busy count: the model's reading (log entry 56). -/
def Obligations.SliceParts : Prop :=
  (∀ s : State, ∀ c p r, let l := (s.core c).sl
     l.inbox = p :: r → s.slIdle c = true → s.gangtoDue (rowOf c) = false → l.arrs = [] → p.isGang = false → p.isAdd = false → p.t ≤ s.cyc →
     (∀ t : AReg, (l.tile t).st = .published → s.expired c (s.dtag (l.tile t).dom) = false) → ∃ t, exec (.slicePartStart c) s = .next t ∧
       (let m := (t.core c).sl
        let h := l.tile p.at_
        t.mem = s.mem ∧ (t.core c).r = (s.core c).r ∧ m.cells = l.cells ∧ m.tiles = l.tiles ∧
        (s.expired c (s.dtag p.dom) = true → p.fn ≠ 7 → m.inbox = r ∧ m.cur = none ∧ m.stBad = l.stBad) ∧
        (s.expired c (s.dtag p.dom) = false →
          (p.fn = 2 ∨ p.fn = 5 ∨ p.fn = 6 ∨ p.fn = 9 ∨ p.fn = 10 → h.st = .published → m.inbox = r ∧ m.cur = none ∧ m.stBad = true ∧
            (l.stBad = false → m.stFop = BitVec.ofNat 4 p.fn)) ∧
          (let starts : Prop := m.inbox = r ∧ m.cur = some (p, s.cyc + p.busy - 1) ∧ m.busy = s.cyc + p.busy ∧ m.stBad = l.stBad
           (p.fn = 2 ∨ p.fn = 5 ∨ p.fn = 6 ∨ p.fn = 9 ∨ p.fn = 10 → h.st = .settled → starts) ∧
           (p.fn = 3 ∨ p.fn = 4 → h.st = .settled → (l.tile p.as_).st = .settled → starts) ∧
           (p.fn = 7 → p.md ≠ 1#3 → h.st = .settled → (∀ e ∈ l.rip, e.2.stile ≠ p.at_) → starts) ∧
           (p.fn = 7 ∧ p.md = 1#3 ∨ p.fn = 11 → (s.row (rowOf c)).gangs = [] → starts) ∧
           (p.fn = 8 → bits p.cst 63 16 = 0 → bits p.cst 15 0 ≠ 0 → (∀ t, (l.tile t).st = .settled) → starts))))) ∧
  (∀ s : State, ∀ c p e, let l := (s.core c).sl
     l.cur = some (p, e) → e < s.cyc → p.isAdd = false → (s.core c).res ≠ none → ∃ t, exec (.slicePartComplete c) s = .next t ∧
       (let m := (t.core c).sl
        let h := l.tile p.at_
        let d := p.cst
        m.cur = none ∧ (t.core c).r = (s.core c).r ∧ t.mem = s.mem ∧
        (∀ k, k < 1536 →
          (p.fn = 2 → m.cell p.at_ k = 0#48) ∧
          (p.fn = 3 → p.as_ ≠ p.at_ → m.cell p.at_ k = l.cell p.as_ k &&& 0x3FFFFFFFFFFF#48) ∧
          (p.fn = 4 → m.cell p.at_ k = cellAdd (l.cell p.at_ k) (l.cell p.as_ k)) ∧
          (p.fn = 5 → m.cell p.at_ k = cellScl p.md (l.cell p.at_ k))) ∧
        (∀ a k, a ≠ p.at_ → k < 1536 → m.cell a k = l.cell a k) ∧
        (∀ a, a ≠ p.at_ → m.tile a = l.tile a) ∧
        (p.fn = 2 → m.tile p.at_ = { Tile.zero with dom := p.dom }) ∧
        (p.fn = 7 → p.md ≠ 1#3 → m.tile p.at_ = { h with st := .published, dom := p.dom }) ∧
        (p.fn = 7 → p.md = 1#3 → h.st = .published → m.tile p.at_ = { h with st := .settled }) ∧
        (p.fn = 6 → rdoutOk p.md.toNat d = true → p.md.toNat ≤ 4 → let o := outBytes p.md.toNat d l p.at_
          (s.core c).Wrote (t.core c) (bits d 18 0 + 64 * l.blk) (o.1.drop (64 * l.blk)) ∧ (t.core c).c.fl = (s.core c).c.fl ||| o.2) ∧
        (p.fn = 9 → rowOk d = true → rowEnd d ≤ 0x80000 → let bs := (rowParts d).flatMap fun q => spillBlk l p.at_ q.1 q.2
          (s.core c).Wrote (t.core c) (bits d 18 0 + 64 * l.blk) (bs.drop (64 * l.blk))) ∧
        (p.fn = 6 → rdoutOk p.md.toNat d = false → m.stBad = true) ∧
        (p.fn = 9 ∨ p.fn = 10 → rowOk d = false ∨ 0x80000 < rowEnd d → m.stBad = true ∧ m.cells = l.cells) ∧
        (p.fn = 11 → d.toNat + 8 ≤ 0x80000 → (t.core c).spWord d.toNat =
            0#48 ++ l.stOpc ++ l.stFop ++ 0#4 ++ BitVec.ofBool l.stChk ++ BitVec.ofBool l.stClmp ++ BitVec.ofBool l.stBad ++ 1#1 ∧
          (t.core c).full d.toNat = true ∧ m.stBad = false ∧ m.stChk = false ∧ m.stClmp = false))) ∧
  (∀ s : State, ∀ c p e bs, let l := (s.core c).sl
     l.cur = some (p, e) → s.cyc ≤ e → p.isAdd = false →
     (p.fn = 6 ∧ rdoutOk p.md.toNat p.cst = true ∧ bs = (outBytes p.md.toNat p.cst l p.at_).1 ∨
       p.fn = 9 ∧ rowOk p.cst = true ∧ rowEnd p.cst ≤ 0x80000 ∧ bs = (rowParts p.cst).flatMap fun q => spillBlk l p.at_ q.1 q.2) →
     (bs.length ≤ 64 * l.blk → exec (.slicePartComplete c) s = .next s) ∧
     (64 * l.blk < bs.length → ∃ t, exec (.slicePartComplete c) s = .next t ∧ (t.core c).r = (s.core c).r ∧ t.mem = s.mem ∧
       (t.core c).sl = { l with blk := l.blk + 1 } ∧
       (s.core c).Wrote (t.core c) (bits p.cst 18 0 + 64 * l.blk) ((bs.drop (64 * l.blk)).take 64)))

/-- R162, R164, R169, R170, R172: a gang starts when all eight slices hold a gang part; each cell gains the aligned sum of its row and
column, in each iteration of an `mmaj`; the parts arrive on their barrier objects when it completes, and a wait that reaches its limit
reports code 2, before any step of the next cycle. The model's choices: the limit is that of the context of the lowest slot's core (log entry
87), a card whose BAR a store has made invalid has no object (86), and MISMATCH is reported before ANNULLED and RANGE (106). -/
def Obligations.GangOperation : Prop :=
  ∀ s : State, ∀ row, let ps := (rowCores row).filterMap s.gangHead
    let p0 := ps.headD Part.zero
    let d := p0.cst
    (s.GangReady row ps →
      ((∃ p ∈ ps, s.gangKey p ≠ s.gangKey p0) → ∃ t g, exec (.gangStart row) s = .next t ∧ (t.row row).gangs = (s.row row).gangs ++ [g] ∧
        g.code = 1#4 ∧ g.iter = none ∧ ∀ p ∈ ps, (t.sl p.src).cells = (s.sl p.src).cells ∧ (t.sl p.src).inbox = (s.sl p.src).inbox.tail) ∧
      ((∀ p ∈ ps, s.gangKey p = s.gangKey p0) → p0.fn = 0 → s.allExpired ps = false → descOk d = true → offsOk (dAoff d) (dBoff d) = true →
        (s.StepGood row ps p0.five d (dAoff d) (dBoff d) → ∃ t g, exec (.gangStart row) s = .next t ∧
          (t.row row).gangs = (s.row row).gangs ++ [g] ∧
          (g.parts, g.bars, g.g, g.k, g.code, g.iter) = (ps, ps.map s.gangBar, s.cyc, 1, 0#4, none) ∧
          ∀ p ∈ ps, (t.sl p.src).inbox = (s.sl p.src).inbox.tail ∧ s.PartAdds t row p d (dAoff d) (dBoff d) p0.clr p.at_) ∧
        (∀ k f, stepFail p0.five (dAsl d) (s.aBlks row d (dAoff d)) (ps.map fun q => (s.core q.src).bBlks q.wb (dBoff d)) = some (k, f) →
          ∃ t g, exec (.gangStart row) s = .next t ∧ (t.row row).gangs = (s.row row).gangs ++ [g] ∧
            (g.code, g.opc, g.fsl, g.iter) = (3#4, BitVec.ofNat 4 k, BitVec.ofNat 3 f, none) ∧ ∀ p ∈ ps, (t.sl p.src).cells = (s.sl p.src).cells))) ∧
    (∀ g r, (s.row row).gangs = g :: r → g.iter = none → g.g + (max g.k 1) * g.per + 7 < s.cyc → g.stop = none →
      exec (.gangComplete row) s = .next ((g.parts.zip g.bars).foldl (fun (s : State) p =>
        s.gangReport p.1 p.2 (0#8 ++ g.code ++ g.opc ++ g.fsl ++ 0#26 ++ g.fl)) (s.setRow row { s.row row with gangs := r }))) ∧
    (∀ t0, let qs := ps.filter fun p => decide (p.t < s.cyc)
      (s.row row).waitFrom = some t0 → t0 + s.waitLimit ((ps.head?.map (·.src)).getD (8 * row)) < s.cyc → ∃ u,
      exec (.gangto row) s = .next (qs.foldl (fun (s : State) p => s.gangReport p (s.gangBar p) (0#8 ++ 2#4 ++ 0#36)) u) ∧
        (u.row row).waitFrom = none ∧ (u.row row).gangs = (s.row row).gangs ∧ u.mem = s.mem ∧
        ((∀ c ∈ rowCores row, ∀ p, s.gangHead c = some p → p.src = c) → ∀ p ∈ qs, (u.sl p.src).inbox = (s.sl p.src).inbox.tail ∧
          (u.sl p.src).cells = (s.sl p.src).cells)) ∧
    (∀ g r it, (s.row row).gangs = g :: r → g.iter = some it → g.g + g.k * g.per ≤ s.cyc →
      (s.allExpired g.parts = true → ∃ t, exec (.mmajIterationBoundary row) s = .next t ∧ t.mem = s.mem ∧ t.cores = s.cores ∧
        (t.row row).gangs.head? = some { g with iter := none, code := 5#4, stop := some it }) ∧
      (s.allExpired g.parts = false → (g.parts.map (·.src)).Nodup → (∀ q ∈ g.parts, q.md = (g.parts.headD Part.zero).md) →
        let ab := iterOffs g.base g.lv it
        offsOk ab.1 ab.2 = true → s.StepGood row g.parts (g.parts.headD Part.zero).five g.base ab.1.toNat ab.2.toNat →
        ∃ t fl, exec (.mmajIterationBoundary row) s = .next t ∧ t.mem = s.mem ∧
          (t.row row).gangs.head? = some { g with iter := iterNext g.cnt it, k := g.k + 1, fl := fl } ∧
          ∀ p ∈ g.parts, s.PartAdds t row p g.base ab.1.toNat ab.2.toNat (iterClr p.clr g.lv it) (iterTile p.at_ g.lv it)))

/-- R236, R244, R249, R276, R161: an arrival at an idle slice is applied with its slot's coefficient, once for each number; a mark settles a
tile, or poisons it; an acknowledgement frees the entry of its mark; a tile of a remote add is added.
The slots of a tile that arrives are judged together with the target's: the model's reading (log entry 20). -/
def Obligations.SliceArrivals : Prop :=
  ∀ s : State, ∀ c, (s.core c).res ≠ none → let l := (s.core c).sl
    (∀ n t q x src e r j y, l.arrs = .ripple n t q x src e :: r → s.slIdle c = true → (l.tile t).slotOf src e = some (j, y) →
      ∃ u, exec (.rippleArrival c) s = .next u ∧ u.mem = s.mem ∧ (∃ z, (u.core c).sl.arrs = r ++ z) ∧ (u.core c).sl.busy = s.cyc + 32 ∧ ∀ k, k < 1536 →
        (u.core c).sl.cell t k = if q = y.seq ∧ s.expired c (s.dtag (l.tile t).dom) = false
          then cellAdd (l.cell t k) (cellMul y.coef (cellAt x k)) else l.cell t k) ∧
    (∀ n t q p src e r y, l.arrs = .mark n t q p src e :: r → s.slIdle c = true → (l.tile t).slotOf src e = some (0, y) → q = y.seq →
      (∀ j, 0 < j → j < 4 → ((l.tile t).slots.toList.getD j Slot.zero).v = false) →
      ∃ u, exec (.markArrival c) s = .next u ∧ u.mem = s.mem ∧ ((u.core c).sl.tile t).st =
        if (l.tile t).pnd = true ∨ y.psn = true ∨ p = true then .poisoned else .settled) ∧
    (∀ t x ns src job ring r, l.arrs = .tile t x ns src job ring :: r → s.slIdle c = true →
      ∃ u, exec (.remoteTileArrival c) s = .next u ∧ u.mem = s.mem ∧ (u.core c).sl.arrs = r ∧ ∀ k, k < 1536 →
        (u.core c).sl.cell t k = if (l.tile t).st = .published ∨ 4 < (l.tile t).valid.length + ns.length then l.cell t k
          else cellAdd (l.cell t k) (cellAt x k)) ∧
    (∀ e q k y, s.net.find? (fun p => p.dev == s.own && p.body == .rippleAck c e q) = some k → s.away c k.ctx = false →
      tGet l.rip (e % 64) = some y → y.uid = e → ∃ u, exec (.rippleAck c e q) s = .next u ∧ tGet (u.core c).sl.rip (e % 64) =
        if y.fin = true ∧ q = y.seq then none
        else some { y with ack := q, sent := y.sent.filter fun p => (p.1 - q).toNat < 32768 }) ∧
    (∃ u ps, exec (.rippleResend c) s = .next u ∧ u.mem = s.mem ∧ u.net = s.net ++ ps ∧
      ∀ i x q m psn z, (i, x) ∈ l.rip → x.wait = false → (q, m, psn, z) ∈ x.sent → x.ddev.toNat ≠ s.own ∨ x.dcore.toNat ≠ c → ∃ p ∈ ps,
        p.dev = x.ddev.toNat ∧ p.body = if m then .mark x.dcore.toNat x.dslot x.dtile q psn (s.own * 4096 + c) x.uid
          else .ripple x.dcore.toNat x.dslot x.dtile q z (s.own * 4096 + c) x.uid) ∧
    (∀ i bs j r, l.wbHeld = (i, bs, j) :: r → s.wbInUse c (decide (1024 ≤ i)) = false → ∃ u,
      exec (.wbHeldWrite c) s = .next u ∧ (u.core c).sl.wbHeld = r ∧ tGet (u.core c).sl.wb i = some bs ∧
        ∀ k, (s.core c).job j = some k → (u.core c).job j = some { k with flight := k.flight - 1 })

/-- R278 to R282: `ringj` queues the job of its card on a ring port; the job sends chunks, adds or keeps what arrives, and ends with its
arrival; a card of PREVD that disagrees stops it; a lost neighbour stops it with a loss mark and a loss record, and each mark that comes is
added, and the first forwarded. R320: what comes without an entry of the port's map is refused and reported. The model's choices: a chunk of
another context is not the job's, and the address that a refusal shows is 0 (log entry 107).
The model's reading: CODE 4 for a refused tile (log entry 82), and the device lost first as FIRST (49). -/
def Obligations.RingCollective : Prop :=
  ∀ s : State,
    (∀ x a d m, let off := s.me.rs a
      let k := readRCard (s.me.spRead off.toNat 128)
      (s.dmr x = (m, false) → Traps (.ringj x a d) s 0x08#8 (m.setWidth 64)) ∧
      (s.dmr x = (m, true) →
        (off.toNat % 128 ≠ 0 ∨ off.toNat < 0x800 ∨ 0x80000 < off.toNat + 128 → Traps (.ringj x a d) s 0x02#8 off) ∧
        (off.toNat % 128 = 0 → 0x800 ≤ off.toNat → off.toNat + 128 ≤ 0x80000 → s.me.spBusy s.cur = false → k.port < nPorts → 4 ≤ (s.port k.port).ring.length →
          exec (.ringj x a d) s = .next (s.sStall off)) ∧
        (off.toNat % 128 = 0 → 0x800 ≤ off.toNat → off.toNat + 128 ≤ 0x80000 → s.me.spBusy s.cur = false → (s.port k.port).ring.length < 4 →
          (k.code s.own = 0 → s.ringBad (s.who s.cur false) k = none → (s.sideDom x m).2 = false → Does (.ringj x a d) s 1 4 fun c =>
            (((c.arrive k.cmpl.toNat false false (some (engSt 5))).evalArmed k.cmpl.toNat s.cyc).evalArmed (k.cmpl.toNat + 8) s.cyc).ws d 0#64) ∧
          (k.code s.own ≠ 0 → Gives (.ringj x a d) s 1 4 d (BitVec.ofNat 64 (2 ^ 63 + k.code s.own))) ∧
          (k.code s.own = 0 → s.ringBad (s.who s.cur false) k = none → (s.sideDom x m).2 = true → ∃ t j p, exec (.ringj x a d) s = .next t ∧
            (s.used.updPort k.port fun _ => p).Completes t 1 4 (fun c => c.ws d 0#64) ∧ p = { s.port k.port with ring := (s.port k.port).ring ++ [j] } ∧
            (j.nr, j.rank, j.dt, j.kind, j.src, j.dst, j.len) = (k.nr, k.rank, k.dt, k.kind, k.src, k.dst, k.len.toNat) ∧
            j.started = false ∧ j.code = none ∧ j.park = none ∧ j.id = s.nextId ∧ j.dom = (s.sideDom x m).1)))) ∧
    (∀ port j r, (s.port port).ring = j :: r → j.park = none → let w : Who := ⟨j.core, j.ctx, j.task, 0, s.dtag j.dom, false⟩
      let c0 := (j.rank + j.nr - 1) % j.nr
      let at_ (acc : Acc) (a : Word) (pa : Nat) : Prop :=
        ∃ ps, s.chkRun w .st acc none (runParts j.chunk a j.chunk) = .ok ps s ∧ Flat ps pa j.chunk
      (∀ pa, j.started = false → j.code = none → s.expired hubEp (s.dtag j.dom) = false → j.dt < 3 → j.kind ≠ 2 →
        at_ .jobRead (j.srcOf c0) pa → s.WholeAt pa j.chunk → ∃ t, exec (.ringJobStart port) s = .next t ∧ t.mem = s.mem ∧
          s.RingSent t port (.ring port 0 (Memory.read s.mem pa j.chunk) (s.dtag j.dom)) { j with started := true, lastAt := s.cyc } r) ∧
      (j.started = true → j.code = none → j.flits = 0 →
        (s.expired hubEp (s.dtag j.dom) = true → ∀ i, ∃ t, exec (.ringChunkStep port i) s = .next t ∧ t.mem = s.mem ∧
          (t.port port).ring = { j with code := some 5 } :: r) ∧
        (s.expired hubEp (s.dtag j.dom) = false →
          (∀ ctx card bs, (s.port port).map.find? (fun e => e.1 == BitVec.ofNat 8 j.prevd && e.2.1 == ctx) = none →
            ∃ t p, exec (.ringChunkStep port (.chunk ctx card bs)) s = .next t ∧ t.mem = s.mem ∧ (t.port port).ring = j :: r ∧
              t.out = s.out ++ [.sideband 20 (BitVec.ofNat 64 j.prevd)] ∧ t.net = s.net ++ [p] ∧ p.dev = j.prevd ∧
              ∃ n, p.body = .refusal n 0#64 0#16 none) ∧
          (∀ ctx card bs a b, (s.port port).map.find? (fun e => e.1 == BitVec.ofNat 8 j.prevd && e.2.1 == ctx) = some (a, b, j.ctx) →
            let i : Instr := .ringChunkStep port (.chunk ctx card bs)
            (card ≠ j.key → ∃ t, exec i s = .next t ∧ t.mem = s.mem ∧ (t.port port).ring = { j with code := some 1 } :: r) ∧
            (∀ pa, card = j.key → j.dt ≠ 4 → bs.length = j.chunk → j.adding = false → at_ .jobWrite (j.dstOf j.cid) pa →
              ∃ t, exec i s = .next t ∧ t.mem = Memory.write s.mem pa bs ∧
                (j.last ≤ j.step → t.out = s.out ∧ (t.port port).ring = { j with code := some 0 } :: r) ∧
                (j.step < j.last →
                  s.RingSent t port (.ring port (j.step + 1) bs (s.dtag j.dom)) { j with step := j.step + 1, lastAt := s.cyc } r)) ∧
            (∀ v pa, card = j.key → j.dt ≠ 4 → bs.length = j.chunk → j.adding = true → j.step + 2 ≠ j.nr → j.step < j.last →
              at_ .jobRead (j.srcOf j.cid) pa → s.WholeAt pa j.chunk →
              ringSum j.dt (bs.length / ringElem j.dt) bs (Memory.read s.mem pa j.chunk) = some v →
              ∃ t, exec i s = .next t ∧ t.mem = s.mem ∧
                s.RingSent t port (.ring port (j.step + 1) v (s.dtag j.dom)) { j with step := j.step + 1, lastAt := s.cyc } r))) ∧
        (j.lastAt + 1200 * j.tmo ≤ s.cyc → j.lossSent = false → ∃ t k, exec (.ringLossTimeout port) s = .next t ∧ t.mem = s.mem ∧
          s.RingSent t port (.lossMark port k.lost) k r ∧ k.code = some 8 ∧ k.lost = j.lost ||| 1#192 <<< j.prev ∧
          k.first = (if j.lost = 0#192 then j.prev else j.first) ∧ k.nextd = j.nextd) ∧
        (∀ m, m ≠ 0#192 → j.lossSent = false → ∃ t k, exec (.lossMarkArrival port m) s = .next t ∧ t.mem = s.mem ∧
          s.RingSent t port (.lossMark port k.lost) k r ∧ k.code = some 8 ∧ k.lost = j.lost ||| m ∧ k.lossSent = true ∧ k.nextd = j.nextd)) ∧
      (∀ m, m ≠ 0#192 → j.code = some 8 →
        (j.lossSent = false → ∃ t k, exec (.lossMarkArrival port m) s = .next t ∧ t.mem = s.mem ∧
          s.RingSent t port (.lossMark port k.lost) k r ∧ k.lost = j.lost ||| m ∧ k.lossSent = true ∧ k.nextd = j.nextd) ∧
        (j.lossSent = true → ∃ t k, exec (.lossMarkArrival port m) s = .next t ∧ t.mem = s.mem ∧ t.out = s.out ∧ (t.port port).ring = k :: r ∧
          k.lost = j.lost ||| m)) ∧
      (∀ k, j.code = some k → s.away j.core j.ctx = false → s.ringBusy port j = false → (k = 0 → j.flits = 0 ∧ j.due = 0) →
        ∃ t, exec (.ringJobEnd port) s = .next t ∧ t.mem = s.mem ∧ (t.port port).ring = r ∧
        (k ≠ 8 → let code := if k = 0 ∧ j.refused = true then 4 else k
          t.core j.core = (((s.core j.core).arrive j.cmpl false false (some (engSt code))).evalArmed j.cmpl s.cyc).evalArmed (j.cmpl + 8) s.cyc) ∧
        (k = 8 → j.lrec + 32 ≤ j.cmpl → Memory.read (t.core j.core).sp j.lrec 28 = leBytes 24 j.lost.toNat ++ leBytes 4 j.step)))

/-! Faults, translation, peers, pre-emption (11, 18, 20). -/

/-- R298, R300, R301, R289, R358: retry and denial resolve the entry of what they park, whose waits have paused meanwhile; an acknowledgement
resolves one that parks nothing; R346: during a handover every entry stays pending; a thaw lets a frozen core go on without its activation; a
trap that has waited for the W stream is taken. R300: a late refusal freezes a core that still runs the activation of its access; else the
fault queue receives the entry, and the task fails (which access and which activation a refusal is of: the model's reading, log entry 33). -/
def Obligations.FaultResolution : Prop :=
  ∀ s : State,
    (s.sys.handover ≠ none → ∀ q ix, exec (.faultRetry q ix) s = .next s ∧ exec (.faultDeny q ix) s = .next s ∧
      exec (.faultAck q ix) s = .next s) ∧
    (∀ q ix e, tGet (s.fqOf q).ents ix = some e → (s.fqOf q).held = [] → s.sys.handover = none →
      (∀ c, e.party = .core c → s.parkedBy c e.n = true →
        (∃ t, exec (.faultRetry q ix) s = .next t ∧ tGet (t.fqOf q).ents ix = none ∧ t.mem = s.mem ∧ t.core c = (s.core c).unpark c s.cyc ∧
          ∀ d, d ≠ c → t.core d = s.core d) ∧
        (e.kind = 0x20#8 → ∃ t, exec (.faultDeny q ix) s = .next t ∧ (t.core c).stat = .frozen ∧ (t.core c).park = none ∧
          (t.core c).r = (s.core c).r ∧ ∀ d, d ≠ c → (t.core d).r = (s.core d).r) ∧
        (e.kind ≠ 0x20#8 → ∃ t, exec (.faultDeny q ix) s = .next t ∧ (t.core c).stat = .idle ∧ (t.core c).act = none)) ∧
      (∀ c j y, e.party = .job c j → (s.core c).job j = some y → y.st = 3 →
        ∃ t, exec (.faultRetry q ix) s = .next t ∧ (t.core c).job j = some { y with st := 2 } ∧ t.mem = s.mem) ∧
      (∀ p j r, e.party = .ring p → (s.port p).ring = j :: r → j.park = some e.n →
        ∃ t, exec (.faultRetry q ix) s = .next t ∧ (t.port p).ring = { j with park := none, lastAt := s.cyc } :: r ∧ t.mem = s.mem ∧
          t.cores = s.cores) ∧
      (e.party = .none → ∃ t, exec (.faultAck q ix) s = .next t ∧ tGet (t.fqOf q).ents ix = none ∧ t.cores = s.cores ∧ t.mem = s.mem) ∧
      (e.party ≠ .none → exec (.faultAck q ix) s = .next s)) ∧
    (∀ c, (s.core c).stat = .frozen → ∃ t, exec (.thaw c none) s = .next t ∧ t.mem = s.mem ∧ (t.core c).stat = .idle ∧ (t.core c).act = none ∧
      (t.core c).wbuf = [] ∧ (t.core c).c.intrap = false ∧ (∀ r, (t.core c).rs r = (s.core c).rs r) ∧ (t.core c).sp = (s.core c).sp) ∧
    (∀ c n, exec (.thaw c (some n)) s = .next (s.upd c fun x => { x with jobs := x.jobs.filter fun j => ! (j.st == 6 && j.ch == n.toNat) })) ∧
    (∀ c a d task p, s.net.find? (fun p => p.dev == s.own && p.body == .refusal c a d task) = some p → c < 4096 →
      ((s.core c).jobs = [] → (s.core c).waitsAt a = none → (∀ y ∈ (s.core c).acc, y.p.at_ = .peer a → y.sent = none) →
        ∃ t e, exec (.lateViolationReport c a d task) s = .next t ∧ t.cores = s.cores ∧ t.mem = s.mem ∧
          t.net = s.net.filter (fun k => k.id != p.id) ∧ (t.cl (clusterOf c)).fq = (s.cl (clusterOf c)).fq.enter 64 e ∧
          (e.kind, e.addr, e.core, e.ctx, e.dom, e.party) = (0x30#8, a, BitVec.ofNat 12 c, p.ctx, d, .none) ∧
          ∀ l r x, task = some (l, r) → s.launchOf l = some x → ∃ y, t.launchOf l = some y ∧ y.firstFail = some (x.firstFail.getD r) ∧
            ∀ z, x.recs[r]? = some z → y.recs[r]? = some { z with tainted := true }) ∧
      (∀ y, (s.core c).acc.find? (fun x => x.sent.isSome && x.p.at_ == .peer a) = some y → (s.core c).act.map (·.id) = some y.act →
        (s.core c).stat ≠ .frozen → ∃ t, exec (.lateViolationReport c a d task) s = .next t ∧ (t.core c).stat = .frozen ∧
          (t.core c).r = (s.core c).r ∧ (t.core c).acc = (s.core c).acc.erase y)) ∧
    (∀ c r h, (s.core c).stat = .trapping r → (s.core c).wbuf = [] → (s.core c).wpend = [] → (s.core c).c.intrap = false →
      s.handler (s.who c false).ctx 255 = some h → ∃ t, exec (.trapEntry c) s = .next t ∧ s.Enters t c r h.entry)

/-- R199, R203, R204, R207, R322: a walk fills the buffers or parks the core (in the step of the walk: the model's reading, log entry 32); a
shoot-down goes to every cluster, which removes the
entries, and ends with the last acknowledgement; one that covers a pinned page is held. -/
def Obligations.TranslationEvents : Prop :=
  ∀ s : State,
    (∀ c va v acc, classify s.own c va = .dva v → let w := s.who c false
      (∀ ps t, s.chkPiece c (bufOf acc) w.ctx acc (s.taskFps w.task) v 1 = .ok ps t → exec (.tableWalk c va acc) s = .next t) ∧
      (∀ a fk l, s.chkPiece c (bufOf acc) w.ctx acc (s.taskFps w.task) v 1 = .dem a fk l → acc = .load ∨ acc = .store ∨ acc = .fetch →
        (s.core c).stat = .run → (s.core c).act ≠ none → (s.core c).park = none → ∃ t, exec (.tableWalk c va acc) s = .next t ∧
          t.mem = s.mem ∧ (∃ n, (t.core c).park = some (n, s.cyc)) ∧ (t.core c).pc = (s.core c).pc ∧ (t.core c).r = (s.core c).r)) ∧
    (∀ cmd,
      (s.shootPinned cmd = true → ∃ t, exec (.shootdown cmd) s = .next t ∧ t.cores = s.cores ∧ t.cls = s.cls ∧ t.out = s.out ∧
        ∃ k, t.hub.shoot = s.hub.shoot ++ [k] ∧ k.cmd = cmd ∧ k.held = true) ∧
      (s.shootPinned cmd = false → s.hub.leases = [] → ∃ t, exec (.shootdown cmd) s = .next t ∧ t.cores = s.cores ∧ t.cls = s.cls ∧
        ∃ k, t.hub.shoot = s.hub.shoot ++ [k] ∧ (k.cmd, k.held, k.acks, k.peers) = (cmd, false, List.range nClusters, []))) ∧
    (∀ cl k, s.hub.shoot = [k] → k.held = false → cl ∈ k.acks → (∀ c ∈ clCores cl, (s.core c).acc = []) →
      ∃ t, exec (.clusterShootdownAck cl) s = .next t ∧ t.mem = s.mem ∧ (∃ y, t.hub.shoot = [y] ∧ y.acks = k.acks.erase cl) ∧
        (∀ e ∈ (t.cl cl).l2, shootTlb k.cmd e = false) ∧
        ∀ c ∈ clCores cl, (t.core c).r = (s.core c).r ∧ ((tGet s.cores c).isSome = true →
          ∀ e, (e ∈ (t.core c).itlb ∨ e ∈ (t.core c).dtlb ∨ e ∈ (t.core c).stlb) → shootTlb k.cmd e = false)) ∧
    (∀ k r, s.hub.shoot = k :: r → k.held = false → k.acks = [] → k.peers = [] → (∀ x ∈ r, x.held = false) →
      ∃ t, exec .shootdownComplete s = .next t ∧ t.hub.shoot = r ∧ t.cores = s.cores ∧ t.mem = s.mem ∧ t.out = s.out ++ [.shootDone k.cmd]) ∧
    (∀ dev n, ((∃ k ∈ s.hub.shoot, (dev, n) ∈ k.peers) → ∃ t, exec (.leaseRecall dev n) s = .next t ∧ t.cores = s.cores ∧
        ∀ k ∈ t.hub.shoot, (dev, n) ∉ k.peers) ∧
      ((∀ k ∈ s.hub.shoot, (dev, n) ∉ k.peers) → exec (.leaseRecall dev n) s = .next (s.emit (.recallAck dev n)))) ∧
    (∀ dev, ∃ t, exec (.leaseRecallTimeout dev) s = .next t ∧ t.cores = s.cores ∧ t.mem = s.mem ∧
      ∀ k ∈ t.hub.shoot, k.t + 1200000 ≤ s.cyc → ∀ p ∈ k.peers, p.1 ≠ dev)

/-- R320, R321, R142, R145: a peer's packet is mapped and passed on, or counted, and dropped once its instant has passed, which the port's
EXPD counts (R336); its accesses are performed here, answered, or refused; a notice of annulment ends its shadow, and is acknowledged. The
model's choices: the acknowledgement goes at once (log entry 43), and a store of a peer is answered once it is performed, which no rule names
(47). -/
def Obligations.PeerPackets : Prop :=
  ∀ s : State,
    (∀ port k a b, let po := (tGet s.hub.ports port).getD Port.zero
      (∀ m, po.map.find? (fun m => m.1 == k.srcDev && m.2.1 == k.srcCtx) = some m → k.dom = 0#16 → k.body = .store a b →
        ∃ t p, exec (.peerPacketReceive port k) s = .next t ∧ t.mem = s.mem ∧ t.cores = s.cores ∧ t.net = s.net ++ [p] ∧ p.body = k.body ∧
          p.ctx = m.2.2 ∧ p.peer = true ∧ p.dev = s.own ∧ p.srcCore = k.srcDev.toNat * 4096 + k.srcCore.toNat) ∧
      (k.dom ≠ 0#16 → k.ext = false → instPassed s.now k.inst = true → let u := s.updPort port fun x => { x with expd := x.expd + 1 }
        (jobOf k.body = none → exec (.peerPacketReceive port k) s = .next u) ∧
        (∀ c j, jobOf k.body = some (c, j) → ∃ t p, exec (.peerPacketReceive port k) s = .next t ∧ t.hub = u.hub ∧ t.cores = s.cores ∧
          t.mem = s.mem ∧ t.net = s.net ++ [p] ∧ p.dev = k.srcDev.toNat ∧ p.body = .dropNotice c j)) ∧
      (k.dom = 0#16 ∨ k.ext = true ∨ instPassed s.now k.inst = false → po.map.find? (fun m => m.1 == k.srcDev && m.2.1 == k.srcCtx) = none →
        (∀ c q m t f g h, k.body = .msg c q m t f g h → ∃ t, exec (.peerPacketReceive port k) s = .next t ∧ t.net = s.net ∧ t.cores = s.cores ∧
          ((tGet t.hub.ports port).getD Port.zero).nomap = po.nomap + 1) ∧
        (k.body = .store a b → ∃ t p, exec (.peerPacketReceive port k) s = .next t ∧ t.mem = s.mem ∧ t.cores = s.cores ∧ t.net = s.net ++ [p] ∧
          t.out = s.out ++ [.sideband 20 (k.srcDev.setWidth 64)] ∧ p.dev = k.srcDev.toNat ∧ p.body = .refusal k.srcCore.toNat a k.dom none))) ∧
    (∀ p k, s.pkt p = some k → k.peer = true → k.dev = s.own → s.sys.ckpting = false →
      (∀ a n tok q pa, k.body = .load a n tok → s.peerChk k .load a n = .ok [q] s → q.at_ = .dram pa →
        s.expired (s.placeEp q.at_ q.sysa false) k.dom = false → ∃ t, exec (.peerAccess p) s = .next t ∧ t.mem = s.mem ∧ t.cores = s.cores ∧
          (∃ l, t.out = s.out ++ .token tok (BitVec.ofNat 128 (leNat (Memory.read s.mem pa q.n))) 0#4 :: l) ∧ t.net = s.net.filter fun y => y.id != p) ∧
      (∀ a bs q pa, k.body = .store a bs → s.peerChk k .store a bs.length = .ok [q] s → q.at_ = .dram pa → q.n = bs.length →
        s.expired (s.placeEp q.at_ q.sysa false) k.dom = false → ∃ t, exec (.peerAccess p) s = .next t ∧ t.mem = Memory.write s.mem pa bs ∧
          t.cores = s.cores ∧ ∃ l, t.out = s.out ++ .token (k.srcCore % 4096) 0#128 0#4 :: l) ∧
      (∀ a bs v, k.body = .store a bs → s.peerChk k .store a bs.length = .viol v → ∃ t q, exec (.peerAccess p) s = .next t ∧ t.mem = s.mem ∧
        t.cores = s.cores ∧ t.net = s.net.filter (fun y => y.id != k.id) ++ [q] ∧ q.dev = k.srcCore / 4096 ∧
        q.body = .refusal (k.srcCore % 4096) v k.dom.id none) ∧
      (∀ d, k.body = .annulNotice d → ∃ t, exec (.shadowNotice p) s = .next t ∧ t.mem = s.mem ∧
        (∃ q ∈ t.net, q.dev = k.srcCore / 4096 % 256 ∧ q.body = .noticeAck d) ∧
        ∀ i, s.shadowOf (BitVec.ofNat 8 (k.srcCore / 4096)) d = some i → i ≠ 0#16 → (s.dom i).st = .live → (t.dom i).st = .annulled))

/-- R303, R305, R308, R310, R347: a pre-emption request sets PREQ; 24,000 cycles later the context is put away, with what it has declared of
its scratchpad, and it is as it was when it resumes, there or on the row's spare; a checkpoint of the device puts every context away, and then
device memory goes to the host, from which a restoration reads it back. The model's choices: a context resumes from its record in State, and the
words outside its regions stay as they are on the core (log entry 27); CYCS is the cycle before the save's (70); RESTORE resumes on each core the
context saved last (29). -/
def Obligations.Preemption : Prop :=
  ∀ s : State,
    (∀ c, ((s.core c).res ≠ none → (s.core c).c.preq = false →
        exec (.preemptRequest c) s = .next (s.upd c fun x => { x with c := { x.c with preq := true }, preqAt := s.cyc })) ∧
      (∀ ctx, (s.core c).res = some ctx → (s.core c).c.preq = true → (s.core c).preqAt + 24000 ≤ s.cyc → s.atBoundary c = true →
        (s.row (rowOf c)).gangs = [] → ∃ t v, exec (.preemptTimeout c) s = .next t ∧ (t.core c).res = none ∧ (t.core c).stat = .out ∧
          tGet t.hub.saves (saveKey ctx c) = some v ∧ (v.ctx, v.full, v.cycs, v.log) = (ctx, true, s.cyc - 1, []) ∧
          v.core.r = (s.core c).r ∧ v.keep = s.fullKeep c ctx ∧ v.core.sp = (s.core c).sp.filter (fun p => inRanges v.keep p.1) ∧
          v.core.empties = (s.core c).empties.filter (fun w => inRanges v.keep (8 * w)) ∧ v.core.pc = (s.core c).pc ∧
          v.core.wbuf = (s.core c).wbuf ∧ v.core.wpend = (s.core c).wpend ∧ v.core.act = (s.core c).act ∧ v.core.inbox = (s.core c).inbox ∧
          v.core.sl.cells = (s.core c).sl.cells ∧ v.core.sl.tiles = (s.core c).sl.tiles ∧ v.core.c.preq = false ∧ v.core.park = none) ∧
      (∀ ctx v, tGet s.hub.saves (saveKey ctx c) = some v → (s.core c).res = none → (s.core c).phys ≠ 9 → s.sys.ckpting = false →
        v.log = [] → v.ctx = ctx → (∀ t : AReg, (v.core.sl.tile t).st ≠ .published) →
        ∃ t, exec (.contextResume c ctx) s = .next t ∧ t.mem = s.mem ∧ t.core c = v.restore s.cyc (s.core c) ∧
          (t.core c).res = some ctx ∧ (t.core c).r = v.core.r ∧ (t.core c).pc = v.core.pc ∧
          (t.core c).acc = (s.core c).acc ∧ tGet t.hub.saves (saveKey ctx c) = none ∧ (v.full = false → (t.core c).sp = v.core.sp) ∧
          (v.full = true → Memory.wf v.core.sp = true → Memory.wf (s.core c).sp = true → (∀ p ∈ v.core.sp, inRanges v.keep p.1 = true) →
            ∀ a, Memory.get (t.core c).sp a = if inRanges v.keep a then Memory.get v.core.sp a else Memory.get (s.core c).sp a)) ∧
      (s.atBoundary c = true → (s.row (rowOf c)).gangs = [] → (∀ k ∈ rowCores (rowOf c), (s.core k).phys ≠ 8) →
        (s.core c).phys ≠ 9 → ∃ t, exec (.coreRetire c) s = .next t ∧ (t.core c).phys = 8 ∧ (t.core c).sl.wb = [] ∧
          (t.core c).res = (s.core c).res ∧ (c < nCores → ∀ ctx, (s.core c).res = some ctx → (∀ t : AReg, ((s.core c).sl.tile t).st ≠ .published) →
            (t.core c).r = (s.core c).r ∧ (t.core c).pc = (s.core c).pc ∧
            (∀ w, w ∈ (t.core c).empties ↔ w ∈ (s.core c).empties ∧ inRanges (s.fullKeep c ctx) (8 * w) = true) ∧
            (Memory.wf (s.core c).sp = true → ∀ a, Memory.get (t.core c).sp a = if 0x68 ≤ a ∧ a < 0x70 then (leBytes 8 8).getD (a - 0x68) 0#8
              else if inRanges (s.fullKeep c ctx) a then Memory.get (s.core c).sp a else 0#8))) ∧
      (s.atBoundary c = true → (∃ k ∈ rowCores (rowOf c), (s.core k).phys = 8) → (s.core c).phys ≠ 9 →
        ∃ t, exec (.coreRetire c) s = .next t ∧ (t.core c).phys = 9)) ∧
    ((∀ p ∈ s.cores, p.2.res = none) → s.sys.buf = none → ∃ t, exec .checkpoint s = .next t ∧ t.sys.ckpting = true ∧ t.mem = s.mem ∧
      t.cores = s.cores ∧ t.sys.buf = some s.mem ∧ t.out = s.out ++ [.memory s.mem]) ∧
    (∀ c x ctx, s.sys.buf = none → s.cores = [(c, x)] → x.res = some ctx → s.atBoundary c = true → (s.row (rowOf c)).gangs = [] → ∃ t v, exec .checkpoint s = .next t ∧
      t.sys.ckpting = true ∧ (t.core c).res = none ∧ tGet t.hub.saves (saveKey ctx c) = some v ∧ (v.ctx, v.full) = (ctx, true) ∧
      v.core.r = x.r ∧ v.core.sp = x.sp.filter (fun p => inRanges (s.fullKeep c ctx) p.1) ∧ t.sys.buf = some t.mem ∧
      .memory t.mem ∈ t.out) ∧
    (s.sys.ckpting = false → exec .restore s = .next s) ∧
    (∀ c x k v, s.sys.ckpting = true → s.cores = [(c, x)] → x.res = none → x.phys ≠ 9 → s.hub.saves = [(k, v)] → k % 4096 = c → v.log = [] →
      (∀ t : AReg, (v.core.sl.tile t).st ≠ .published) → ∃ t, exec .restore s = .next t ∧ t.sys.ckpting = false ∧ t.sys.buf = none ∧
        t.core c = v.restore s.cyc x ∧ (t.core c).r = v.core.r ∧ t.mem = s.sys.buf.getD s.mem) ∧
    (s.sys.ckpting = true → s.hub.saves = [] → ∃ t, exec .restore s = .next t ∧ t.sys.ckpting = false ∧ t.sys.buf = none ∧
      t.cores = s.cores ∧ t.mem = s.sys.buf.getD s.mem)

/-- R125, R132, R205, R126: the Wellhead's reports, edges, leases, placement, reservations and completion of records. That RECORD_READY takes
a record out of its intake is the model's choice (log entry 35).
So is that a cluster without a report makes one at once (71). -/
def Obligations.Wellhead : Prop :=
  ∀ s : State,
    (∀ cl, (s.cl cl).report = [] ∨ (s.cl cl).repAt + 256 ≤ s.cyc → ∃ t, exec (.clusterReport cl) s = .next t ∧ t.cores = s.cores ∧
      t.mem = s.mem ∧ t.hub = s.hub ∧ (t.cl cl).placed = [] ∧ (t.cl cl).repAt = s.cyc ∧
      ∀ i, i < 64 → tGet (t.cl cl).report (64 * cl + i) = some (s.core (64 * cl + i)).reportOf) ∧
    (∀ l r x y, s.launchOf l = some x → x.recs[r]? = some y →
      (y.st = .waiting → y.intake ≠ none → ∃ t, exec (.recordReady l r) s = .next t ∧ s.OnlyHub t ∧ t.recOf l r = some { y with intake := none }) ∧
      (y.st = .waiting → y.intake = none → (∀ p ∈ x.preds r, p.lost = false ∧ (p.st = .done ∨ p.st = .discarded)) → ∃ t,
        exec (.recordReady l r) s = .next t ∧ s.OnlyHub t ∧ t.recOf l r = some { y with st := .ready, readyAt := s.cyc }) ∧
      (y.st = .waiting → y.intake = none → (∃ p ∈ x.preds r, p.lost = true) → ∃ t z, exec (.recordReady l r) s = .next t ∧ s.OnlyResv t ∧
        t.recOf l r = some z ∧ z.st = .failed ∧ z.pins = []) ∧
      (y.st = .ready → y.granted = false → ∃ t z, exec (.leaseRefusal l r) s = .next t ∧ s.OnlyResv t ∧ t.recOf l r = some z ∧ z.st = .failed ∧
        t.resvRow l r = none) ∧
      (∀ va k e lg f, y.st = .ready → tGet s.hub.ctxs x.ctx.toNat = some k → walk s.mem k.record.root va = .leaf e lg → y.leased = [f] →
        let base := va.toNat / 2 ^ lg * 2 ^ lg
        let w : Word := BitVec.ofNat 64 (base + lg)
        (f.extractLsb' 0 56).toNat < base + 2 ^ lg → base < (f.extractLsb' 0 56).toNat + (f.extractLsb' 64 64).toNat →
        (f.getLsbD 57 = true → e.getLsbD 2 = true) → (f.getLsbD 58 = true → e.getLsbD 3 = true) → w ∉ y.pins →
        ∃ t z, exec (.leaseGrant l r va) s = .next t ∧ s.OnlyHub t ∧ t.recOf l r = some z ∧ z.pins = y.pins ++ [w] ∧
          tGet t.hub.pins (pinKey x.ctx w) = some ((tGet s.hub.pins (pinKey x.ctx w)).getD 0 + 1) ∧ (z.st = .leased ↔ z.granted = true)) ∧
      (∀ cs, s.pickOf l = some (r, cs) → s.turnOf = some l → ∃ t ps z, exec (.taskPlacement l r) s = .next t ∧ t.cores = s.cores ∧
        t.mem = s.mem ∧ t.net = s.net ++ ps ∧ ps.map (·.body) = cs.map (fun c => .msg c y.q (s.taskMsg x y) (some (l, r)) nCores 0 0) ∧
        t.recOf l r = some z ∧ z.st = .placed ∧ t.hub.rr = l) ∧
      (y.gang = true → y.st = .ready ∨ y.st = .leased → y.readyAt + 4096 ≤ s.cyc → s.resvRow l r = none → (∃ row ∈ x.rows, (s.row row).resv = none) →
        ∃ t row, exec (.gangReservation l r) s = .next t ∧ row ∈ x.rows ∧ (s.row row).resv = none ∧ (t.row row).resv = some (l, r) ∧
          t.cores = s.cores ∧ ∀ k ∈ x.rows, (s.row k).resv = none →
            ((rowCores k).filter fun c => s.idleCore c).length ≤ ((rowCores row).filter fun c => s.idleCore c).length) ∧
      (y.st = .placed → s.taskWork (some (l, r)) = false → ∃ t z, exec (.taskComplete l r) s = .next t ∧ s.OnlyHub t ∧ t.recOf l r = some z ∧
        z.pins = [] ∧ z.st = if y.tainted = true ∨ (∃ p ∈ x.preds r, p.lost = true) then .failed else .done))

/-! Debug, links, frames, the host, firmware and power (20, 24). -/

/-- R339, R340, R342, R343: halts and their release, the single step, counters with their samples, and the accumulators; a frozen core stays
halted (R300, R301). The model's choices: HCAUSE is 0 after a release (log entry 30), a counter starts at 0 (67), and the layout of a sample's
second word (26). -/
def Obligations.DebugModule : Prop :=
  ∀ s : State, ∀ c, let d := (s.core c).dbg
    exec (.haltRequest c) s = .next (s.upd c fun x => { x with dbg := { d with halt := true } }) ∧
    (d.halted = false → exec (.haltRelease c) s = .next (s.upd c fun x => { x with dbg := { d with halt := false } })) ∧
    (d.halted = true → (s.core c).stat = .frozen → exec (.singleStep c) s = .next s ∧
      exec (.haltRelease c) s = .next (s.upd c fun x => { x with dbg := { d with halt := false } })) ∧
    (d.halted = true → (s.core c).stat ≠ .frozen → ∃ t, exec (.haltRelease c) s = .next t ∧ s.OnlyCore t c ∧ (t.core c).dbg.halted = false ∧ (t.core c).dbg.halt = false ∧
      (t.core c).dbg.hcause = 0#8 ∧ (t.core c).pc = (s.core c).pc ∧ (t.core c).r = (s.core c).r) ∧
    (d.halted = true → (s.core c).stat ≠ .frozen → ∃ t, exec (.singleStep c) s = .next t ∧ s.OnlyCore t c ∧ (t.core c).dbg.halted = false ∧ (t.core c).dbg.step = true ∧
      (t.core c).pc = (s.core c).pc ∧ (t.core c).r = (s.core c).r) ∧
    (∀ k, s.haltCause c = some k → ∃ t, exec (.debugHalt c) s = .next t ∧ s.OnlyCore t c ∧ (t.core c).dbg.halted = true ∧
      (t.core c).dbg.hcause = k ∧ (t.core c).pc = (s.core c).pc ∧ (t.core c).r = (s.core c).r) ∧
    (s.haltCause c = none → exec (.debugHalt c) s = .next s) ∧
    (∀ n k, ∃ t, exec (.counterProgram c n k) s = .next t ∧ s.OnlyCore t c ∧ t.mem = s.mem ∧
      (t.core c).dbg.code[n.toNat]? = some (some k) ∧ (t.core c).dbg.ctr[n.toNat]? = some 0#48 ∧ (t.core c).r = (s.core c).r) ∧
    (∀ n code pc w at_ r, d.ovf = (n, code, pc, w, at_) :: r → d.trSize ≠ 0#64 → d.trPos + 32 ≤ d.trSize.toNat → ∃ t, exec (.counterOverflow c n) s = .next t ∧
      (t.core c).dbg.ovf = r ∧ (t.core c).r = (s.core c).r ∧ t.mem = Memory.write s.mem (d.trBase.toNat + d.trPos) (leBytes 32
        ((if w then 1#64 else 0#64) ++ pc ++ BitVec.ofNat 64 (n.toNat * 256 + code.toNat) ++ 5#8 ++ BitVec.ofNat 12 c ++ BitVec.ofNat 44 at_).toNat)) ∧
    (∃ t, exec (.accumulatorReadClear c) s = .next t ∧ t.out = s.out ++ [.accs c d.acc] ∧ t.mem = s.mem ∧ (t.core c).dbg = { d with acc := [] } ∧
      (t.core c).r = (s.core c).r)

/-- R317, R349: a flit that is next in sequence is acknowledged, any other refused; held flits are sent again, over another plane when
theirs is down, and from 0 on when it is live again. A resend that is refused, or that nothing answers before the next, has failed, and 16 in
succession take the link down. The model's choices (log entry 67): the numbers and the resend of a plane that is live again, an unanswered resend
as a failed one, and which other plane takes the flits held. -/
def Obligations.LinkFlits : Prop :=
  ∀ s : State, ∀ port, let p := s.port port
    (∀ q ok dat ack no, p.down = false → ∃ t l, exec (.flitReceive port q ok dat ⟨ack, no⟩) s = .next t ∧ t.cores = s.cores ∧ t.mem = s.mem ∧
      (∀ x ∈ l, ∃ n d, x = .flit port n d) ∧
      ((∀ j ∈ p.ring, j.flits = 0) → l = [] ∧ ∀ f, f ∈ (t.port port).retry ↔ f ∈ p.retry ∧ seqBefore f.1 ack = false) ∧
      (no = true → p.resent = true → (∀ f ∈ p.retry, seqBefore f.1 ack = false) → (t.port port).fails = p.fails + 1) ∧
      (if ok = true ∧ q = p.rxSeq then t.out = s.out ++ .flitAck port (p.rxSeq + 1#16) true :: l ∧ (t.port port).rxSeq = p.rxSeq + 1#16
        else t.out = s.out ++ .flitAck port p.rxSeq false :: l ∧ (t.port port).rxSeq = p.rxSeq)) ∧
    (p.down = false → p.retry ≠ [] → ∃ t, exec (.flitResend port) s = .next t ∧ t.out = s.out ++ p.retry.map (fun f => .flit port f.1 f.2) ∧
      (t.port port).fails = (if p.resent then p.fails + 1 else p.fails) ∧ (t.port port).resent = true ∧ (t.port port).retry = p.retry ∧
      t.mem = s.mem) ∧
    (p.down = false → p.fails < 16 → exec (.linkDown port) s = .next s) ∧
    (p.down = false → 16 ≤ p.fails → ∃ t, exec (.linkDown port) s = .next t ∧ (t.port port).down = true ∧ t.cores = s.cores ∧ t.mem = s.mem ∧
      (s.otherPlane port = none → (t.port port).retry = p.retry ∧ t.out = s.out ++ [.sideband 2 (BitVec.ofNat 64 port)]) ∧
      (∀ k, s.otherPlane port = some k → let l := renumber (s.port k).txSeq p.retry
        k ≠ port ∧ (s.port k).down = false ∧ (∀ d ∈ s.hub.deadAt, d.2 ≠ k) ∧ (t.port port).retry = [] ∧
          (t.port k).retry = (s.port k).retry ++ l ∧ (t.port k).txSeq = (s.port k).txSeq + BitVec.ofNat 16 l.length ∧
          t.out = s.out ++ .sideband 2 (BitVec.ofNat 64 port) :: l.map fun f => .flit k f.1 f.2)) ∧
    (p.down = true → ∃ t, exec (.linkLiveAgain port) s = .next t ∧ t.cores = s.cores ∧ t.mem = s.mem ∧
      (t.port port).retry = renumber 0#16 p.retry ∧ (t.port port).down = false ∧ (t.port port).rxSeq = 0#16 ∧
      t.out = s.out ++ (renumber 0#16 p.retry).map fun f => .flit port f.1 f.2)

/-- R315, R323 to R327: a frame is counted where it is wrong or matches nothing, or fills its slot and leaves a message; a held frame
goes on when its queue has room; a TAIL store hands descriptors over, at most the ring (that TAIL counts them: the model's choice, log entry 65),
a descriptor's frame is sent, or refused for its instant or its length; the clock's lock is reported. -/
def Obligations.EthernetPorts : Prop :=
  ∀ s : State, ∀ port, let e := s.eth port
    (∀ f b, (f.length < 60 ∨ 9212 < f.length → exec (.frameReceive port f b) s = .next s) ∧
      (60 ≤ f.length → f.length ≤ 9212 →
        exec (.frameReceive port f false) s = .next (s.updEth port fun x => { x with fcs := x.fcs + 1 }) ∧
        (e.flow.find? (fun p => flowTakes p.2.f f) = none →
          exec (.frameReceive port f true) s = .next (s.updEth port fun x => { x with noMatch := x.noMatch + 1 })) ∧
        (∀ ix w cb u, e.flow.find? (fun p => flowTakes p.2.f f) = some (ix, w) → s.feRead w.f.ctx w.f.cons.toNat 8 = some cb →
          (w.frames - bytesWord cb).toNat < w.f.nslot.toNat → e.heldFor w.f.core.toNat w.f.q = false →
          s.noRoom w.f.ctx w.f.core.toNat w.f.q = false → f.length ≤ 2 ^ w.f.slog.toNat → w.f.budget = 0#32 →
          feWrite w.f.ctx f (w.f.ring + BitVec.ofNat 64 (w.frames.toNat % w.f.nslot.toNat * 2 ^ w.f.slog.toNat)).toNat
            (s.updEth port fun x => { x with flow := tPut x.flow ix { w with frames := w.frames + 1#64 } }) = some u →
          let z := (u.eth port).takeSeq w.f.stag u.nextId
          ∃ t p m, exec (.frameReceive port f true) s = .next t ∧ t.mem = u.mem ∧ t.cores = u.cores ∧ t.hub = (u.updEth port fun _ => z.2).hub ∧
            t.net = u.net ++ [p] ∧ p.body = .msg w.f.core.toNat w.f.q m none nCores 0 0 ∧ m.hnd = w.f.hnd ∧ m.stag = w.f.stag ∧ m.seq = z.1 ∧
            p.ctx = w.f.ctx) ∧
        (∀ ix w cb, e.flow.find? (fun p => flowTakes p.2.f f) = some (ix, w) → s.feRead w.f.ctx w.f.cons.toNat 8 = some cb →
          let u := s.updEth port fun x => { x with flow := tPut x.flow ix { w with frames := w.frames + 1#64 } }
          (w.f.nslot.toNat ≤ (w.frames - bytesWord cb).toNat →
            exec (.frameReceive port f true) s = .next (u.updEth port fun x => { x with full := x.full + 1 })) ∧
          ((w.frames - bytesWord cb).toNat < w.f.nslot.toNat → e.held.length < 64 → 2 ^ w.f.slog.toNat < f.length →
            exec (.frameReceive port f true) s = .next (u.updEth port fun x => { x with oversize := x.oversize + 1 }))))) ∧
    (∀ k l, e.held = k :: l → (∀ c q m x y z w, k.body = .msg c q m x y z w → s.noRoom k.ctx c q = false) → ∃ t,
      exec (.frameHeldRelease port) s = .next t ∧
      t.net = s.net ++ [{ k with held := false }] ∧ (t.eth port).held = e.held.filter (fun y => y.id != k.id) ∧ t.mem = s.mem) ∧
    (∀ q g, tGet e.eg q = some g →
      (∀ b l, s.feRead g.ctx g.tailVa.toNat 8 = some b →
        l.length = min ((leNat b + 2 ^ 64 - g.head % 2 ^ 64) % 2 ^ 64) g.size.toNat - g.desc.length →
        (∀ i d, l[i]? = some d → s.feRead g.ctx (g.ring.toNat + 32 * ((g.head + (g.desc.length + i)) % g.size.toNat)) 32 = some d) →
        ∃ t, exec (.egressTailWrite port q) s = .next t ∧ t.mem = s.mem ∧
          tGet (t.eth port).eg q = some { g with tail := leNat b, desc := g.desc ++ l }) ∧
      (∀ b r st u, g.desc = b :: r → let a := g.ring.toNat + 32 * (g.head % g.size.toNat)
        (st = 2#2 ∧ bN b 16 8 ≠ 0 ∧ bN b 16 8 < 2 ^ 64 ∧ bN b 16 8 ≤ s.nowW.toNat ∨ st = 3#2 ∧ bN b 16 8 = 0 ∧ (bN b 8 2 < 60 ∨ 9212 < bN b 8 2)) →
        feWrite g.ctx (wordBytes (st ++ s.nowW.extractLsb' 0 62)) (a + 24) s = some u →
        ∃ t, exec (.frameTransmit port q) s = .next t ∧ t.out = u.out ∧ t.mem = u.mem ∧ t.cores = u.cores ∧
          tGet (t.eth port).eg q = some { g with head := g.head + 1, desc := r }) ∧
      (∀ b r f u, g.desc = b :: r → let a := g.ring.toNat + 32 * (g.head % g.size.toNat)
        bN b 16 8 = 0 → 60 ≤ bN b 8 2 → bN b 8 2 ≤ 9212 → s.feRead g.ctx (bN b 0 8) (bN b 8 2) = some f →
        feWrite g.ctx (wordBytes (1#2 ++ s.nowW.extractLsb' 0 62)) (a + 24) (s.emit (.frame port f)) = some u →
        ∃ t, exec (.frameTransmit port q) s = .next t ∧ t.out = u.out ∧ t.mem = u.mem ∧ t.cores = u.cores ∧
          tGet (t.eth port).eg q = some { g with head := g.head + 1, desc := r })) ∧
    (∀ l adv, (l = s.sys.locked → exec (.ptpLockChange l adv) s = .next s) ∧
      (l ≠ s.sys.locked → ∃ t, exec (.ptpLockChange l adv) s = .next t ∧ t.sys.locked = l ∧ t.cores = s.cores ∧ t.mem = s.mem ∧
        t.now = (if l = true ∧ s.sys.everLocked = false then s.now + adv else s.now) ∧ t.out = s.out ++ [.sideband 1 (if l then 1#64 else 0#64)]))

/-- R328 to R335: host accesses, registers, and packets: the one that comes next in the queue's ring is accepted and gets its completion record;
an unknown opcode stops its queue; a launch that passes its checks reaches its cores, and completes when its records have. R344: a configuration
record is used if it verifies and is no older than the one that it replaces. R340: the debug module reads and writes a halted core's state.
The model's reading: record fields that do not apply are 0 (log entry 62), and the order of a launch's checks (61). -/
def Obligations.HostInterface : Prop :=
  ∀ s : State,
    (∀ pa n bs, exec (.hostMemoryAccess (.read pa n)) s = .next (s.emit (.hostRead (Memory.read s.mem pa n))) ∧
      exec (.hostMemoryAccess (.write pa bs)) s = .next { s with mem := Memory.write s.mem pa bs, upsets := mended s.upsets pa bs.length } ∧
      exec (.hostMemoryAccess (.own pa bs)) s = .next { s with hostMem := Memory.write s.hostMem pa bs }) ∧
    (∀ n v d l, let i : Instr := .registerWrite (.config n v d l)
      (s.sys.image = none ∨ (∃ m, s.sys.image = some m ∧ Config.verifies (Config.certified m.digest) d = false) →
        exec i s = .next (s.emit (.sideband 3 (BitVec.ofNat 64 n)))) ∧
      (∀ m, s.sys.image = some m → Config.verifies (Config.certified m.digest) d = true →
        (∀ e, tGet s.sys.recs n = some e → v < e.1 → exec i s = .next s) ∧
        ((∀ e, tGet s.sys.recs n = some e → e.1 ≤ v) → ∃ t, exec i s = .next t ∧ tGet t.sys.recs n = some (v, d) ∧ t.mem = s.mem ∧ t.out = s.out ∧
          (∀ k own, l = [.podSize k own] → t.hub.podN = k ∧ t.hub.dev = own) ∧
          (∀ p lo k, l = [.domBlock p lo k] → (t.eth p).domLo = lo ∧ (t.eth p).domN = k) ∧
          (∀ p dev a b, l = [.portMap p dev a b] → (dev, a, b) ∈ (t.port p).map ∧ ∀ y ∈ (t.port p).map, y.1 = dev → y.2.1 = a → y.2.2 = b)))) ∧
    (∀ c, let d := (s.core c).dbg
      (d.halted = true → exec (.registerWrite (.coreRead c)) s = .next (s.emit (.coreState c (s.core c))) ∧
        (∀ v, exec (.registerWrite (.coreWrite c (.pc v))) s = .next (s.upd c fun x => { x with pc := v })) ∧
        (∀ r v, exec (.registerWrite (.coreWrite c (.s r v))) s = .next (s.upd c fun x => x.ws r v)) ∧
        ∀ off bs, exec (.registerWrite (.coreWrite c (.sp off bs))) s = .next (s.upd c fun x => x.spWrite off bs)) ∧
      (d.halted = false → exec (.registerWrite (.coreRead c)) s = .next s ∧ ∀ i, exec (.registerWrite (.coreWrite c i)) s = .next s)) ∧
    (∀ q, let h := s.hq q
      (∀ v, ∃ t, exec (.doorbell q v) s = .next t ∧ t.hq q = { h with tail := v } ∧ t.mem = s.mem ∧ t.cores = s.cores) ∧
      (∀ b, ∃ t, exec (.ctlEnable q b) s = .next t ∧ t.hq q = { h with en := b } ∧ t.mem = s.mem ∧ t.cores = s.cores) ∧
      (h.stop = true → h.ibuf = [] → s.feOpen = true →
        ∃ t, exec (.ctlRestart q) s = .next t ∧ t.hq q = { h with stop := false, head := h.head + 1#32 }) ∧
      (∀ r, (∀ n v d l, r ≠ .config n v d l) → (∀ c, r ≠ .coreRead c) → (∀ c i, r ≠ .coreWrite c i) → (∀ i, r ≠ .sideband i) →
        ∃ t, exec (.registerWrite r) s = .next t ∧ t.net = s.net ∧ t.out = s.out ∧ (∀ c, (t.core c).r = (s.core c).r) ∧
        ((∀ pa v, r ≠ .pte pa v) → t.mem = s.mem) ∧
        match r with
        | .rbase n v => n = q → t.hq q = if h.en = true then h else { h with rbase := v &&& 0xFFFFFFFFFFFFFFC0#64 }
        | .rsize n v => n = q → t.hq q = if h.en = true then h else { h with rsize := v &&& 0x1FFFF#64 }
        | .cbase n v => n = q → t.hq q = if h.en = true then h else { h with cbase := v &&& 0xFFFFFFFFFFFFFFE0#64 }
        | .csize n v => n = q → t.hq q = if h.en = true then h else { h with csize := v &&& 0x1FFFF#64 }
        | .irq n v => n = q → t.hq q = { h with irq := v.setWidth 32 &&& 0xFFFF07FF#32 }
        | .flow p n f => ∃ y, tGet (t.eth p).flow n = some y ∧ y.f = f
        | .egress p n ring size tv ctx => tGet (t.eth p).eg n = some ⟨ring, size, tv, ctx, 0, 0, []⟩
        | .caps n l => n = q → t.hq q = { h with caps := l }
        | .planeAt dev p live => (dev, p) ∈ t.hub.deadAt ↔ live = false
        | .context c x => ∃ y, tGet t.hub.ctxs c.toNat = some y ∧ y.record = x
        | .traceRing c b z => ((t.core c).dbg.trBase, (t.core c).dbg.trSize, (t.core c).dbg.trPos) = (b, z, 0)
        | .bp c n v => (t.core c).dbg.bp[n.toNat]? = some v
        | .wp c n v ld st => (t.core c).dbg.wp[n.toNat]? = some (v, ld, st)
        | .dctlEn c b w => (t.core c).dbg.bpen = b ∧ (t.core c).dbg.wpen = w
        | .pte pa v => t.mem = Memory.write s.mem pa (wordBytes v)
        | .frame c va pa => tGet t.hub.frames (c.toNat * 2 ^ 64 + va.toNat / 65536 * 65536) = some pa
        | _ => True) ∧
      (∀ pk, s.accepts q = true → h.ibuf = [] → h.head ≠ h.tail →
        pk = BitVec.ofNat 512 (leNat (Memory.read s.hostMem (h.rbase.toNat + 64 * (h.head.toNat % h.rsize.toNat)) 64)) → let u := s.updHq q fun h => { h with head := h.head + 1#32 }
        let i := h.head.toNat
        (pkN pk 1 63 = 0 → exec (.nopPacket q pk) s = .next (u.complete q i 0 0 0 0 0#16)) ∧
        (pkN pk 1 63 ≠ 0 → exec (.nopPacket q pk) s = .next (u.complete q i 1 1 0 0 0#16)) ∧
        let ind : Instr := .indirect q (pk.extractLsb' 0 64) (pk.extractLsb' 64 64) (pk.extractLsb' 128 384)
        (pkN pk 1 7 = 0 → pkN pk 8 8 % 64 = 0 → h.covers (pkN pk 8 8) (pkN pk 16 4) = true → pkN pk 16 4 % 64 = 0 → 64 ≤ pkN pk 16 4 →
          pkN pk 16 4 ≤ 65536 → pkN pk 20 44 = 0 → exec ind s = .next ((u.updHq q fun h => { h with
            ibuf := (List.range (pkN pk 16 4 / 64)).map fun k => BitVec.ofNat 512 (leNat (Memory.read s.hostMem (pkN pk 8 8 + 64 * k) 64)) }).complete
              q i 0 0 0 0 0#16)) ∧
        (pkN pk 1 7 = 0 → pkN pk 8 8 % 64 ≠ 0 ∨ h.covers (pkN pk 8 8) (pkN pk 16 4) = false →
          exec ind s = .next (u.complete q i 1 8 0 0 0#16)) ∧
        (pkN pk 1 3 = 0 → pkN pk 6 2 = 0 → pkN pk 10 54 = 0 → let d : Dom := pk.extractLsb' 64 16
          (d ≠ 0#16 → (s.dom d).st = .live → (s.dom d).ctx = pk.extractLsb' 32 16 →
            exec (.annul q pk) s = .next ((u.annulAny d).complete q i 0 0 0 0 0#16)) ∧
          (d = 0#16 ∨ (s.dom d).st ≠ .live → exec (.annul q pk) s = .next (u.complete q i 6 0 0 0 0#16))) ∧
        (∃ t, exec (.queueStop q pk) s = .next t ∧ t.hq q = { h with stop := true, err := pk.extractLsb' 0 8, erridx := h.head } ∧
          t.mem = s.mem ∧ t.cores = s.cores) ∧
        (∀ f, u.launchField pk = some f → exec (.launch q pk) s = .next (u.complete q i 1 f 0 0 0#16)) ∧
        (∀ recs ci, u.launchCheck pk = .go recs [] [] ci → lInst pk = 0#64 → ∃ t x, exec (.launch q pk) s = .next t ∧ t.mem = s.mem ∧
          tGet t.hub.launches s.nextId = some x ∧ (x.q, x.pidx, x.ctx, x.first, x.ncore, x.done) = (q, i, lCtx pk, lFirst pk, lCount pk, false) ∧
          x.recs.length = recs.length ∧ ∀ k, k < lCount pk → (lCtx pk, s.nextId) ∈ (t.core (lFirst pk + k)).runs)) ∧
      (0 < h.pend → h.pendAt + 24000 ≤ s.cyc → ∃ t, exec (.irqCoalesceTimeout q) s = .next t ∧
        t.out = s.out ++ [.msix (h.irq.extractLsb' 0 11).toNat] ∧ (t.hq q).pend = 0 ∧ t.mem = s.mem)) ∧
    (∀ q i code field ridx nf d, let h := s.hq q
      1 < (h.irq.extractLsb' 16 16).toNat → h.pend = 0 → let t := s.complete q i code field ridx nf d
      let a := h.cbase.toNat + 32 * (h.cpos % h.csize.toNat)
      let b := leBytes 8 i ++ leBytes 2 code ++ leBytes 2 field ++ leBytes 4 nf ++ leBytes 4 ridx ++ leBytes 2 d.toNat ++ leBytes 2 0 ++ wordBytes s.nowW
      t.mem = s.mem ∧ t.cores = s.cores ∧ t.hostMem = Memory.write s.hostMem a b ∧ t.out = s.out ++ [.host a b]) ∧
    (∀ l x, s.launchOf l = some x → x.done = false → (∀ r ∈ x.recs, r.st = .done ∨ r.st = .failed ∨ r.st = .discarded) →
      ∃ t, exec (.launchComplete l) s = .next t ∧ t.mem = s.mem ∧ (t.launchOf l) = some { x with done := true } ∧
        ∀ k, k < x.ncore → (x.ctx, l) ∉ (t.core (x.first + k)).runs)

/-- R344 to R348: power on with an image that verifies against the root key; the handover to a new image, which verifies against the key that
the running one certifies, and its end within 1 s or after it; the signed measurements; and the gate of the power limit. What stands outside the
device (the host's memory and buffer, the ends of links at peers, what has left) stays over a power on: the model's choice, log entry 10.
What a power on resets, and how long a handover holds the queues: the model's reading (log entry 67). -/
def Obligations.FirmwareAndPower : Prop :=
  ∀ s : State,
    (∀ img, (Config.verifies Config.rootKey img.digest = true → ∃ t, exec (.powerOn img) s = .next t ∧ t.sys.image = some img ∧
        t.sys.slotB = img.slot ∧ t.sys.version = img.version ∧ t.cores = State.reset.cores ∧ t.mem = State.reset.mem ∧ t.out = s.out ∧
        t.hub = { State.reset.hub with deadAt := s.hub.deadAt } ∧ t.cyc = State.reset.cyc ∧ t.hostMem = s.hostMem) ∧
      (Config.verifies Config.rootKey img.digest = false → ∃ t, exec (.powerOn img) s = .next t ∧
        t.sys = { State.reset.sys with buf := s.sys.buf } ∧ t.out = s.out ++ [.sideband 3 0#64]) ∧
      (s.sys.handover = none → img.slot ≠ s.sys.slotB → let key := match s.sys.image with
          | some m => Config.certified m.digest
          | none => Config.rootKey
        (Config.verifies key img.digest = true →
          exec (.firmwareHandover img) s = .next { s with sys := { s.sys with pending := some img, handover := some s.cyc } }) ∧
        (Config.verifies key img.digest = false → exec (.firmwareHandover img) s = .next (s.emit (.sideband 3 0#64)))) ∧
      (∀ t0, s.sys.pending = some img → s.sys.handover = some t0 → t0 + 1200000000 ≤ s.cyc → exec .newImageReady s = .next s) ∧
      (∀ t0, s.sys.pending = some img → s.sys.handover = some t0 → s.cyc < t0 + 1200000000 → ∃ t, exec .newImageReady s = .next t ∧ t.sys.image = some img ∧ t.sys.slotB = img.slot ∧ t.sys.handover = none ∧
        t.cores = s.cores ∧ t.mem = s.mem ∧ t.out = s.out ++ [.sideband 4 1#64])) ∧
    (∀ t0, s.sys.handover = some t0 → t0 + 1200000000 ≤ s.cyc → ∃ t, exec .handoverTimeout s = .next t ∧ t.sys.handover = none ∧
      t.sys.image = s.sys.image ∧ t.cores = s.cores ∧ t.out = s.out ++ [.sideband 4 0#64]) ∧
    (∀ n, exec (.spdmRequest n) s = .next (let m := Config.romDigest :: ((s.sys.image.map (·.digest)).toList ++ s.sys.recs.map fun p => p.2.2)
      s.emit (.spdm m (Config.signature m n)))) ∧
    exec .powerLimitGate s = .next { s with sys := { s.sys with gate := true } } ∧
    exec .powerLimitCleared s = .next { s with sys := { s.sys with gate := false } } ∧
    (∀ c, s.sys.gate = true → s.sReady c = false ∧ s.wReady c = false)

/-! Numbers, encodings, steps. -/

/-- R54, R55: a binary32 or BF16 number that is no NaN, read and rounded again, is itself, with no flag. -/
def Obligations.FloatRoundTrip : Prop :=
  (∀ w : BitVec 32, (f32Val w).isNan = false → f32Of (f32Val w) = (w, 0#5)) ∧
  (∀ h : BitVec 16, (bf16Val h).isNan = false → bf16Of (bf16Val h) = (h, 0#5))

/-- R55: a sum, a product and a fused form of finite values are exact before their one rounding, and raise nothing; a NaN operand gives a
NaN, invalid when it signals; opposite infinities, and an infinity by zero, are invalid.
R55: the one rounding is to nearest, with ties to even; its overflow, underflow and inexactness are as the flags say. -/
def Obligations.FloatArithmetic : Prop :=
  (∀ s m e t n g, let a : FV := .fin s m e
     let b : FV := .fin t n g
     ((fAdd a b).1.isFin = true ∧ (fAdd a b).2 = false ∧ (fAdd a b).1.val = a.val + b.val ∧
       (a.val + b.val = 0 → (fAdd a b).1.sign = (s && t))) ∧
     ((fMul a b).1.isFin = true ∧ (fMul a b).2 = false ∧ (fMul a b).1.val = a.val * b.val ∧ (fMul a b).1.sign = (s != t)) ∧
     ∀ u k h, let c : FV := .fin u k h
       (fFma a b c).1.isFin = true ∧ (fFma a b c).2 = false ∧ (fFma a b c).1.val = a.val * b.val + c.val) ∧
  (∀ a b : FV, a.isNan = true ∨ b.isNan = true →
     fAdd a b = (.nan false, a.sig || b.sig) ∧ fMul a b = (.nan false, a.sig || b.sig)) ∧
  (∀ s, fAdd (.inf s) (.inf (!s)) = (.nan false, true) ∧ fAdd (.inf s) (.inf s) = (.inf s, false) ∧
     (∀ t e, fMul (.inf s) (.fin t 0 e) = (.nan false, true) ∧ fMul (.fin t 0 e) (.inf s) = (.nan false, true)) ∧
     ∀ t m e, fAdd (.inf s) (.fin t m e) = (.inf s, false) ∧ (m ≠ 0 → fMul (.inf s) (.fin t m e) = (.inf (s != t), false))) ∧
  RoundsTo f32Of f32Val 24 ((2 ^ 25 - 1) * 2 ^ 103) ∧ RoundsTo bf16Of bf16Val 8 ((2 ^ 9 - 1) * 2 ^ 119)

/-- R67, R68, R69: a cell holds an integer of its range as four residues, is rebuilt with its check passed, and cells add, multiply and
scale as the integers do. -/
def Obligations.ResidueArithmetic : Prop :=
  (∀ x : Int, -534775296 ≤ x → x < 534775296 → cellVal (cellOf x) = (x, true)) ∧
  (∀ x y : Int, cellAdd (cellOf x) (cellOf y) = cellOf (x + y)) ∧
  (∀ x y : Int, cellMul (cellOf x) (cellOf y) = cellOf (x * y)) ∧
  (∀ j : BitVec 3, ∀ x : Int, cellScl j (cellOf x) = cellOf (if j = 7#3 then -x else x * 2 ^ j.toNat))

/-- R42, R45, R47: every well-formed instruction that has an encoding is decoded from it, with every operand at every value, whatever
follows. -/
def Obligations.DecodeEncode : Prop :=
  ∀ i : Instr, i.wf = true → encode i ≠ [] → ∀ ws, decode (encode i ++ ws) = .ok i (encode i).length

/-- R40, R41: in the S slot of a core that is due, the words at its pc are fetched and decoded, and the instruction that they encode is
executed; words that do not decode raise ILLEGAL with the word. The fetch reads inline code in the scratchpad and code in device memory.
A step that the agenda names runs its event, and an ill-formed one is a fault; else a W head that is due issues.
What a step runs when, and the fault of an ill-formed step, are the model's (log entries 4 and 73). -/
def Obligations.StepRuns : Prop :=
  (∀ s : State, ∀ c, s.sReady c = true → let t : State := { s with cur := c, phase := .s }
     ((s.core c).act = none ∨ s.expired c (s.dtag (s.core c).c.dom) = false) →
     (∀ ws w u, State.fetchWords (s.core c).pc 3 0 [] t = (ws, .word w u) → ∃ v, slot c s = exec (match decode ws with
         | .ok i _ => i
         | .bad _ _ => .illegalInstruction) { u with ir := v } ∧ (∀ i n, decode ws = .ok i n → v = ws.getLastD 0#32) ∧
       ∀ w n, decode ws = .bad w n → v = w) ∧
     (∀ r, s.agenda = .core c :: r → step s = slot c { s with agenda := r }) ∧
     (s.agenda = [] → s.wDue = none → s.sDue = some c → step s = slot c s) ∧
     (∀ a w, (s.core c).act = some a → a.m.inl = true → let o := (slotAddr a.q a.ix).toNat + 32
       o ≤ (s.core c).pc.toNat → (s.core c).pc.toNat < o + 32 → o + 32 ≤ 0x100000 →
       w = BitVec.ofNat 32 (leNat ((s.core c).spRead (s.core c).pc.toNat 4)) → isPfx w = false →
       State.fetchWords (s.core c).pc 3 0 [] t = ([w], .word w t)) ∧
     (∀ v p pa u w, classify s.own c (s.core c).pc = .dva v → t.chkPiece c .i (t.who c false).ctx .fetch none v 4 = .ok [p] u →
       p.at_ = .dram pa → u.WholeAt pa 4 → w = BitVec.ofNat 32 (leNat (Memory.read u.mem pa 4)) → isPfx w = false →
       State.fetchWords (s.core c).pc 3 0 [] t = ([w], .word w u))) ∧
  (∀ s : State,
     (∀ i r, s.agenda = .event i :: r → i.wf = true → encode i = [] → step s = exec i { s with agenda := r }) ∧
     (∀ i r, s.agenda = .event i :: r → i.wf = false ∨ encode i ≠ [] → step s = .fault .illFormedStep) ∧
     (∀ c, s.agenda = [] → s.wDue = some c → step s = exec (.wIssue c) s) ∧
     (∀ o, s.agenda = [] → s.wDue = none → s.sDue = none → o = s.background → step s = .next o))

/-- Words of several families that the worked examples of 03, 05 to 10, 12 to 15 and 18 write out bit by bit, each with its instruction. -/
def Obligations.DecodeWords : Prop :=
  decode [0x042520C1#32] = .ok (.sub .i32 5#5 4#5 3#5) 1 ∧ decode [0xFFF02943#32] = .ok (.addImm .none 0xFFF#12 5#5 5#5) 1 ∧
  decode [0x000004BF#32, 0x345001C3#32] = .ok (.addImm (.one 18#26) 0x345#12 0#5 7#5) 2 ∧
  decode [0x02433149#32] = .ok (.st .none 1#7 .pg .dev .inh .i64 6#5 5#5) 1 ∧ decode [0x120101CA#32] = .ok (.take .none 0x120#12 .inh 0#5 7#5) 1 ∧
  decode [0x03104821#32] = .ok (.vfmaF32 0#3 3#5 2#5 1#5 4#5) 1 ∧ decode [0x0C0001A8#32] = .ok (.vbld 0#3 .i10 false 0#2 0#12 6#5) 1 ∧
  decode [0x0500300C#32] = .ok (.sendi .imm 0#5 6#5) 1 ∧ decode [0x0609314D#32] = .ok (.djoin (.reg 9#5) 6#5 5#5) 1 ∧
  decode [0x1A40000B#32] = .ok (.fence .rel .clu) 1 ∧ decode [0x1007314E#32] = .ok (.rseal 7#5 6#5 5#5) 1 ∧
  decode [0x300100AD#32] = .ok (.acpy 1#4 2#4) 1 ∧ decode [0x04673150#32] = .ok (.amin .inh .u32 7#5 6#5 5#5) 1 ∧
  decode [0x00533012#32] = .ok (.cww .trappc 6#5) 1

/-- R315: after power-on CYC is 0 and every table is empty. The model's choices (log entries 1 and 2): every register and every byte is 0, and
every tag is full. -/
def Obligations.ResetState : Prop :=
  State.reset.Inv ∧ State.reset.cyc = 0 ∧ (∀ c r, (State.reset.core c).rs r = 0#64) ∧ (∀ c v n, n < 48 → ((State.reset.core c).rv v).toList[n]? = some 0#32) ∧
    (∀ c k, (State.reset.core c).rk k = if k = 0#3 then BitVec.allOnes 48 else 0#48) ∧ (∀ c a, (State.reset.core c).full a = true) ∧
    (∀ a, Memory.get State.reset.mem a = 0#8) ∧ (∀ c, (State.reset.core c).stat = .idle ∧ (State.reset.core c).c.intrap = false ∧
      ∀ t, ((State.reset.core c).sl.tile t).st = .settled)

/-- The memory keeps its canonical form, and the agenda names only steps that the device has, in every step from every state. -/
def Obligations.StepKeepsInv : Prop := ∀ s t : State, s.Inv → step s = .next t → t.Inv

end
end

