-- ==== Sys2Proof/Laws/Mem.lean ====
section
/-! SUPPORT. Laws of sparse tables and of byte memory: reading after writing, and the canonical form that every operation
keeps. -/

namespace Sys2Proof.Machine

/-! Tables. -/

@[simp] theorem tGet_nil {α : Type} (a : Nat) : tGet ([] : Tab α) a = none := rfl

@[simp] theorem tGet_tPut_same {α : Type} (t : Tab α) (a : Nat) (v : α) : tGet (tPut t a v) a = some v := by
  induction t with
  | nil => simp [tPut, tGet]
  | cons p r ih =>
    obtain ⟨k, w⟩ := p
    by_cases h1 : a < k
    · simp [tPut, tGet, h1]
    · by_cases h2 : a = k
      · simp [tPut, tGet, h2]
      · simp [tPut, tGet, h1, h2, ih, Ne.symm h2]

theorem tGet_tPut_other {α : Type} (t : Tab α) (a b : Nat) (v : α) (h : b ≠ a) : tGet (tPut t a v) b = tGet t b := by
  induction t with
  | nil => simp [tPut, tGet, h.symm]
  | cons p r ih =>
    obtain ⟨k, w⟩ := p
    by_cases h1 : a < k
    · simp [tPut, tGet, h1, h.symm]
    · by_cases h2 : a = k
      · subst h2; simp [tPut, tGet, h.symm]
      · simp only [tPut, if_neg h1, if_neg h2, tGet, ih]

theorem tGet_tPut {α : Type} (t : Tab α) (a b : Nat) (v : α) :
    tGet (tPut t a v) b = if b = a then some v else tGet t b := by
  by_cases h : b = a
  · subst h; simp
  · simp [h, tGet_tPut_other t a b v h]

theorem tGet_tDel_other {α : Type} (t : Tab α) (a b : Nat) (h : b ≠ a) : tGet (tDel t a) b = tGet t b := by
  induction t with
  | nil => rfl
  | cons p r ih =>
    obtain ⟨k, w⟩ := p
    by_cases h1 : k = a
    · subst h1; simp [tDel, tGet, h.symm, ih]
    · simp only [tDel, if_neg h1, tGet, ih]

@[simp] theorem tGet_tDel_same {α : Type} (t : Tab α) (a : Nat) : tGet (tDel t a) a = none := by
  induction t with
  | nil => rfl
  | cons p r ih =>
    obtain ⟨k, w⟩ := p
    by_cases h1 : k = a
    · simp [tDel, h1, ih]
    · simp [tDel, h1, tGet, ih]

theorem tGet_tDel {α : Type} (t : Tab α) (a b : Nat) : tGet (tDel t a) b = if b = a then none else tGet t b := by
  by_cases h : b = a
  · subst h; simp
  · simp [h, tGet_tDel_other t a b h]

/-! Bytes. -/

@[simp] theorem Memory.get_nil (a : Nat) : Memory.get [] a = 0#8 := rfl

/-- The canonical form gives no byte below its start. -/
theorem Memory.get_of_wfFrom (m : List Host.Cell) (n a : Nat) (h : Memory.wfFrom n m = true) (ha : a < n) :
    Memory.get m a = 0#8 := by
  induction m generalizing n with
  | nil => rfl
  | cons p r ih =>
    obtain ⟨k, b⟩ := p
    simp only [Memory.wfFrom, Bool.and_eq_true, decide_eq_true_eq] at h
    have hk : k ≠ a := by omega
    simp only [Memory.get, if_neg hk]
    exact ih (k + 1) h.2 (by omega)

theorem Memory.wfFrom_mono (m : List Host.Cell) (n k : Nat) (h : Memory.wfFrom n m = true) (hk : k ≤ n) :
    Memory.wfFrom k m = true := by
  cases m with
  | nil => rfl
  | cons p r =>
    simp only [Memory.wfFrom, Bool.and_eq_true, decide_eq_true_eq] at h ⊢
    exact ⟨⟨by omega, h.1.2⟩, h.2⟩

/-- A byte is what the table of cells holds, or 0. -/
theorem Memory.get_eq (m : List Host.Cell) (a : Nat) : Memory.get m a = ((tGet (α := Byte) m a).getD 0#8) := by
  induction m with
  | nil => rfl
  | cons p r ih =>
    obtain ⟨k, c⟩ := p
    by_cases h : k = a
    · simp [Memory.get, tGet, h]
    · simp [Memory.get, tGet, h, ih]

/-- A byte read at an address written last is the byte written; any other reads as before. -/
theorem Memory.get_set (m : List Host.Cell) (a x : Nat) (b : Byte) :
    Memory.get (Memory.set m a b) x = if x = a then b else Memory.get m x := by
  simp only [Memory.get_eq, Memory.set]
  by_cases hb : b = 0#8
  · rw [if_pos hb, tGet_tDel]
    by_cases hx : x = a <;> simp [hx, hb]
  · rw [if_neg hb, tGet_tPut]
    by_cases hx : x = a <;> simp [hx]

theorem Memory.wfFrom_del (m : List Host.Cell) (n a : Nat) (h : Memory.wfFrom n m = true) :
    Memory.wfFrom n (tDel (α := Byte) m a) = true := by
  induction m generalizing n with
  | nil => rfl
  | cons p r ih =>
    obtain ⟨k, c⟩ := p
    simp only [Memory.wfFrom, Bool.and_eq_true, decide_eq_true_eq] at h
    by_cases hk : k = a
    · simp only [tDel, if_pos hk]
      exact Memory.wfFrom_mono _ (k + 1) n (ih (k + 1) h.2) (by omega)
    · simp only [tDel, if_neg hk, Memory.wfFrom, Bool.and_eq_true, decide_eq_true_eq]
      exact ⟨h.1, ih (k + 1) h.2⟩

theorem Memory.wfFrom_put (m : List Host.Cell) (n a : Nat) (b : Byte) (hb : b ≠ 0#8) (h : Memory.wfFrom n m = true) (ha : n ≤ a) :
    Memory.wfFrom n (tPut (α := Byte) m a b) = true := by
  induction m generalizing n with
  | nil => simp [tPut, Memory.wfFrom, hb, ha]
  | cons p r ih =>
    obtain ⟨k, c⟩ := p
    simp only [Memory.wfFrom, Bool.and_eq_true, decide_eq_true_eq] at h
    obtain ⟨⟨h0, h1⟩, h2⟩ := h
    by_cases c1 : a < k
    · simp only [tPut, if_pos c1, Memory.wfFrom, Bool.and_eq_true, decide_eq_true_eq]
      exact ⟨⟨ha, hb⟩, ⟨by omega, h1⟩, h2⟩
    · by_cases c2 : a = k
      · subst c2
        simp only [tPut, if_neg c1, if_true, Memory.wfFrom, Bool.and_eq_true, decide_eq_true_eq]
        exact ⟨⟨ha, hb⟩, h2⟩
      · simp only [tPut, if_neg c1, if_neg c2, Memory.wfFrom, Bool.and_eq_true, decide_eq_true_eq]
        exact ⟨⟨h0, h1⟩, ih (k + 1) h2 (by omega)⟩

theorem Memory.wfFrom_set (m : List Host.Cell) (n a : Nat) (b : Byte) (h : Memory.wfFrom n m = true) (ha : n ≤ a) :
    Memory.wfFrom n (Memory.set m a b) = true := by
  unfold Memory.set
  split
  · exact Memory.wfFrom_del m n a h
  · rename_i hb
    exact Memory.wfFrom_put m n a b hb h ha

/-- Writing one byte keeps the canonical form. -/
theorem Memory.wf_set (m : List Host.Cell) (a : Nat) (b : Byte) (h : Memory.wf m = true) : Memory.wf (Memory.set m a b) = true :=
  Memory.wfFrom_set m 0 a b h (Nat.zero_le a)

/-- Writing bytes keeps the canonical form. -/
theorem Memory.wf_write (m : List Host.Cell) (a : Nat) (bs : List Byte) (h : Memory.wf m = true) :
    Memory.wf (Memory.write m a bs) = true := by
  induction bs generalizing m a with
  | nil => exact h
  | cons b r ih => exact ih _ _ (Memory.wf_set m a b h)

/-- A byte read after a write: the byte written there, or what it read before. -/
theorem Memory.get_write (m : List Host.Cell) (a x : Nat) (bs : List Byte) :
    Memory.get (Memory.write m a bs) x = if a ≤ x ∧ x < a + bs.length then bs.getD (x - a) 0#8 else Memory.get m x := by
  induction bs generalizing m a with
  | nil =>
    have h0 : ¬ (a ≤ x ∧ x < a + ([] : List Byte).length) := by simp only [List.length_nil]; omega
    rw [if_neg h0]; rfl
  | cons b r ih =>
    simp only [Memory.write]
    rw [ih, Memory.get_set m a x b]
    by_cases hx : x = a
    · subst hx
      simp
    · by_cases hr : a + 1 ≤ x ∧ x < a + 1 + r.length
      · have h2 : a ≤ x ∧ x < a + (b :: r).length := by simp only [List.length_cons]; omega
        have h3 : x - a = (x - (a + 1)) + 1 := by omega
        rw [if_pos hr, if_pos h2, h3]
        simp
      · have h2 : ¬ (a ≤ x ∧ x < a + (b :: r).length) := by simp only [List.length_cons]; omega
        simp only [if_neg hr, if_neg h2, if_neg hx]

/-- Writing a byte leaves every other address as it was. -/
theorem Memory.get_set_other (m : List Host.Cell) (a x : Nat) (b : Byte) (hx : x ≠ a) :
    Memory.get (Memory.set m a b) x = Memory.get m x := by rw [Memory.get_set, if_neg hx]

/-- Bytes outside a write read as before. -/
theorem Memory.get_write_outside (m : List Host.Cell) (a x : Nat) (bs : List Byte)
    (hx : x < a ∨ a + bs.length ≤ x) : Memory.get (Memory.write m a bs) x = Memory.get m x := by
  induction bs generalizing m a with
  | nil => rfl
  | cons b r ih =>
    simp only [List.length_cons] at hx
    simp only [Memory.write]
    rw [ih _ _ (by omega), Memory.get_set_other _ _ _ _ (by omega)]

theorem Memory.length_read (m : List Host.Cell) (a n : Nat) : (Memory.read m a n).length = n := by
  induction n generalizing a with
  | zero => rfl
  | succ k ih => simp [Memory.read, ih]

/-- What is written is what is read. -/
theorem Memory.read_write (m : List Host.Cell) (a : Nat) (bs : List Byte) :
    Memory.read (Memory.write m a bs) a bs.length = bs := by
  induction bs generalizing m a with
  | nil => rfl
  | cons b r ih =>
    have hb : Memory.get (Memory.write (Memory.set m a b) (a + 1) r) a = b := by
      rw [Memory.get_write_outside _ (a + 1) a r (by omega), Memory.get_set, if_pos rfl]
    simp only [Memory.write, List.length_cons, Memory.read, hb, ih]

/-- Taking cells away keeps the canonical form. -/
theorem Memory.wfFrom_filter (m : List Host.Cell) (n : Nat) (p : Host.Cell → Bool) (h : Memory.wfFrom n m = true) :
    Memory.wfFrom n (m.filter p) = true := by
  induction m generalizing n with
  | nil => rfl
  | cons q r ih =>
    obtain ⟨k, c⟩ := q
    simp only [Memory.wfFrom, Bool.and_eq_true, decide_eq_true_eq] at h
    by_cases hp : p (k, c)
    · simp only [List.filter_cons, hp, if_true, Memory.wfFrom, Bool.and_eq_true, decide_eq_true_eq]
      exact ⟨h.1, ih (k + 1) h.2⟩
    · simp only [List.filter_cons, hp]
      exact Memory.wfFrom_mono _ (k + 1) n (ih (k + 1) h.2) (by omega)

theorem Memory.wf_filter (m : List Host.Cell) (p : Host.Cell → Bool) (h : Memory.wf m = true) : Memory.wf (m.filter p) = true :=
  Memory.wfFrom_filter m 0 p h

/-- Equal memories are equal data: two canonical memories that read alike are one list. -/
theorem Memory.wfFrom_ext (m m' : List Host.Cell) (n : Nat) (h : Memory.wfFrom n m = true) (h' : Memory.wfFrom n m' = true)
    (e : ∀ a, Memory.get m a = Memory.get m' a) : m = m' := by
  induction m generalizing m' n with
  | nil =>
    cases m' with
    | nil => rfl
    | cons q r =>
      obtain ⟨k, c⟩ := q
      simp only [Memory.wfFrom, Bool.and_eq_true, decide_eq_true_eq] at h'
      have := e k
      simp only [Memory.get, if_true] at this
      exact absurd this.symm h'.1.2
  | cons p r ih =>
    obtain ⟨k, b⟩ := p
    have hw := h
    simp only [Memory.wfFrom, Bool.and_eq_true, decide_eq_true_eq] at h
    cases m' with
    | nil =>
      have := e k
      simp only [Memory.get, if_true] at this
      exact absurd this h.1.2
    | cons q r' =>
      obtain ⟨k', b'⟩ := q
      have hw' := h'
      simp only [Memory.wfFrom, Bool.and_eq_true, decide_eq_true_eq] at h'
      have hk : k = k' := by
        rcases Nat.lt_trichotomy k k' with hlt | heq | hgt
        · have h1 := e k
          rw [Memory.get_of_wfFrom ((k', b') :: r') k' k (by simp [Memory.wfFrom, h'.1.2, h'.2]) hlt] at h1
          simp only [Memory.get, if_true] at h1
          exact absurd h1 h.1.2
        · exact heq
        · have h1 := e k'
          rw [Memory.get_of_wfFrom ((k, b) :: r) k k' (by simp [Memory.wfFrom, h.1.2, h.2]) hgt] at h1
          simp only [Memory.get, if_true] at h1
          exact absurd h1.symm h'.1.2
      subst hk
      have hb : b = b' := by simpa [Memory.get] using e k
      subst hb
      have hr : r = r' := by
        refine ih r' (k + 1) h.2 h'.2 fun a => ?_
        by_cases ha : k = a
        · subst ha
          rw [Memory.get_of_wfFrom r (k + 1) k h.2 (by omega), Memory.get_of_wfFrom r' (k + 1) k h'.2 (by omega)]
        · simpa [Memory.get, ha] using e a
      rw [hr]

theorem Memory.wf_ext (m m' : List Host.Cell) (h : Memory.wf m = true) (h' : Memory.wf m' = true)
    (e : ∀ a, Memory.get m a = Memory.get m' a) : m = m' := Memory.wfFrom_ext m m' 0 h h' e

end Sys2Proof.Machine
end

