-- ==== Sys2Proof/Laws/State.lean ====
section
/-! SUPPORT. What each named update of the state and of a core leaves as it was and what it writes, field by field, so that no
proof unfolds a record update. -/

namespace Sys2Proof.Machine

/-! `State.setCore`. -/

@[simp] theorem State.setCore_cyc (s : State) (c : Nat) (x : Core) : (s.setCore c x).cyc = s.cyc := rfl
@[simp] theorem State.setCore_now (s : State) (c : Nat) (x : Core) : (s.setCore c x).now = s.now := rfl
@[simp] theorem State.setCore_mem (s : State) (c : Nat) (x : Core) : (s.setCore c x).mem = s.mem := rfl
@[simp] theorem State.setCore_cores (s : State) (c : Nat) (x : Core) : (s.setCore c x).cores = tPut s.cores c x := rfl
@[simp] theorem State.setCore_rows (s : State) (c : Nat) (x : Core) : (s.setCore c x).rows = s.rows := rfl
@[simp] theorem State.setCore_cls (s : State) (c : Nat) (x : Core) : (s.setCore c x).cls = s.cls := rfl
@[simp] theorem State.setCore_hub (s : State) (c : Nat) (x : Core) : (s.setCore c x).hub = s.hub := rfl
@[simp] theorem State.setCore_sys (s : State) (c : Nat) (x : Core) : (s.setCore c x).sys = s.sys := rfl
@[simp] theorem State.setCore_net (s : State) (c : Nat) (x : Core) : (s.setCore c x).net = s.net := rfl
@[simp] theorem State.setCore_out (s : State) (c : Nat) (x : Core) : (s.setCore c x).out = s.out := rfl
@[simp] theorem State.setCore_hostMem (s : State) (c : Nat) (x : Core) : (s.setCore c x).hostMem = s.hostMem := rfl
@[simp] theorem State.setCore_upsets (s : State) (c : Nat) (x : Core) : (s.setCore c x).upsets = s.upsets := rfl
@[simp] theorem State.setCore_cur (s : State) (c : Nat) (x : Core) : (s.setCore c x).cur = s.cur := rfl
@[simp] theorem State.setCore_phase (s : State) (c : Nat) (x : Core) : (s.setCore c x).phase = s.phase := rfl
@[simp] theorem State.setCore_ir (s : State) (c : Nat) (x : Core) : (s.setCore c x).ir = s.ir := rfl
@[simp] theorem State.setCore_agenda (s : State) (c : Nat) (x : Core) : (s.setCore c x).agenda = s.agenda := rfl
@[simp] theorem State.setCore_nextId (s : State) (c : Nat) (x : Core) : (s.setCore c x).nextId = s.nextId := rfl
@[simp] theorem State.setCore_frac (s : State) (c : Nat) (x : Core) : (s.setCore c x).frac = s.frac := rfl

/-! `State.upd`. -/

@[simp] theorem State.upd_cyc (s : State) (c : Nat) (f : Core → Core) : (s.upd c f).cyc = s.cyc := rfl
@[simp] theorem State.upd_now (s : State) (c : Nat) (f : Core → Core) : (s.upd c f).now = s.now := rfl
@[simp] theorem State.upd_mem (s : State) (c : Nat) (f : Core → Core) : (s.upd c f).mem = s.mem := rfl
@[simp] theorem State.upd_cores (s : State) (c : Nat) (f : Core → Core) : (s.upd c f).cores = tPut s.cores c (f (s.core c)) := rfl
@[simp] theorem State.upd_rows (s : State) (c : Nat) (f : Core → Core) : (s.upd c f).rows = s.rows := rfl
@[simp] theorem State.upd_cls (s : State) (c : Nat) (f : Core → Core) : (s.upd c f).cls = s.cls := rfl
@[simp] theorem State.upd_hub (s : State) (c : Nat) (f : Core → Core) : (s.upd c f).hub = s.hub := rfl
@[simp] theorem State.upd_sys (s : State) (c : Nat) (f : Core → Core) : (s.upd c f).sys = s.sys := rfl
@[simp] theorem State.upd_net (s : State) (c : Nat) (f : Core → Core) : (s.upd c f).net = s.net := rfl
@[simp] theorem State.upd_out (s : State) (c : Nat) (f : Core → Core) : (s.upd c f).out = s.out := rfl
@[simp] theorem State.upd_hostMem (s : State) (c : Nat) (f : Core → Core) : (s.upd c f).hostMem = s.hostMem := rfl
@[simp] theorem State.upd_upsets (s : State) (c : Nat) (f : Core → Core) : (s.upd c f).upsets = s.upsets := rfl
@[simp] theorem State.upd_cur (s : State) (c : Nat) (f : Core → Core) : (s.upd c f).cur = s.cur := rfl
@[simp] theorem State.upd_phase (s : State) (c : Nat) (f : Core → Core) : (s.upd c f).phase = s.phase := rfl
@[simp] theorem State.upd_ir (s : State) (c : Nat) (f : Core → Core) : (s.upd c f).ir = s.ir := rfl
@[simp] theorem State.upd_agenda (s : State) (c : Nat) (f : Core → Core) : (s.upd c f).agenda = s.agenda := rfl
@[simp] theorem State.upd_nextId (s : State) (c : Nat) (f : Core → Core) : (s.upd c f).nextId = s.nextId := rfl
@[simp] theorem State.upd_frac (s : State) (c : Nat) (f : Core → Core) : (s.upd c f).frac = s.frac := rfl

/-! `State.updMe`. -/

@[simp] theorem State.updMe_cyc (s : State) (f : Core → Core) : (s.updMe f).cyc = s.cyc := rfl
@[simp] theorem State.updMe_now (s : State) (f : Core → Core) : (s.updMe f).now = s.now := rfl
@[simp] theorem State.updMe_mem (s : State) (f : Core → Core) : (s.updMe f).mem = s.mem := rfl
@[simp] theorem State.updMe_cores (s : State) (f : Core → Core) : (s.updMe f).cores = tPut s.cores s.cur (f s.me) := rfl
@[simp] theorem State.updMe_rows (s : State) (f : Core → Core) : (s.updMe f).rows = s.rows := rfl
@[simp] theorem State.updMe_cls (s : State) (f : Core → Core) : (s.updMe f).cls = s.cls := rfl
@[simp] theorem State.updMe_hub (s : State) (f : Core → Core) : (s.updMe f).hub = s.hub := rfl
@[simp] theorem State.updMe_sys (s : State) (f : Core → Core) : (s.updMe f).sys = s.sys := rfl
@[simp] theorem State.updMe_net (s : State) (f : Core → Core) : (s.updMe f).net = s.net := rfl
@[simp] theorem State.updMe_out (s : State) (f : Core → Core) : (s.updMe f).out = s.out := rfl
@[simp] theorem State.updMe_hostMem (s : State) (f : Core → Core) : (s.updMe f).hostMem = s.hostMem := rfl
@[simp] theorem State.updMe_upsets (s : State) (f : Core → Core) : (s.updMe f).upsets = s.upsets := rfl
@[simp] theorem State.updMe_cur (s : State) (f : Core → Core) : (s.updMe f).cur = s.cur := rfl
@[simp] theorem State.updMe_phase (s : State) (f : Core → Core) : (s.updMe f).phase = s.phase := rfl
@[simp] theorem State.updMe_ir (s : State) (f : Core → Core) : (s.updMe f).ir = s.ir := rfl
@[simp] theorem State.updMe_agenda (s : State) (f : Core → Core) : (s.updMe f).agenda = s.agenda := rfl
@[simp] theorem State.updMe_nextId (s : State) (f : Core → Core) : (s.updMe f).nextId = s.nextId := rfl
@[simp] theorem State.updMe_frac (s : State) (f : Core → Core) : (s.updMe f).frac = s.frac := rfl

/-! `State.setRow`. -/

@[simp] theorem State.setRow_cyc (s : State) (r : Nat) (x : Row) : (s.setRow r x).cyc = s.cyc := rfl
@[simp] theorem State.setRow_now (s : State) (r : Nat) (x : Row) : (s.setRow r x).now = s.now := rfl
@[simp] theorem State.setRow_mem (s : State) (r : Nat) (x : Row) : (s.setRow r x).mem = s.mem := rfl
@[simp] theorem State.setRow_cores (s : State) (r : Nat) (x : Row) : (s.setRow r x).cores = s.cores := rfl
@[simp] theorem State.setRow_rows (s : State) (r : Nat) (x : Row) : (s.setRow r x).rows = tPut s.rows r x := rfl
@[simp] theorem State.setRow_cls (s : State) (r : Nat) (x : Row) : (s.setRow r x).cls = s.cls := rfl
@[simp] theorem State.setRow_hub (s : State) (r : Nat) (x : Row) : (s.setRow r x).hub = s.hub := rfl
@[simp] theorem State.setRow_sys (s : State) (r : Nat) (x : Row) : (s.setRow r x).sys = s.sys := rfl
@[simp] theorem State.setRow_net (s : State) (r : Nat) (x : Row) : (s.setRow r x).net = s.net := rfl
@[simp] theorem State.setRow_out (s : State) (r : Nat) (x : Row) : (s.setRow r x).out = s.out := rfl
@[simp] theorem State.setRow_hostMem (s : State) (r : Nat) (x : Row) : (s.setRow r x).hostMem = s.hostMem := rfl
@[simp] theorem State.setRow_upsets (s : State) (r : Nat) (x : Row) : (s.setRow r x).upsets = s.upsets := rfl
@[simp] theorem State.setRow_cur (s : State) (r : Nat) (x : Row) : (s.setRow r x).cur = s.cur := rfl
@[simp] theorem State.setRow_phase (s : State) (r : Nat) (x : Row) : (s.setRow r x).phase = s.phase := rfl
@[simp] theorem State.setRow_ir (s : State) (r : Nat) (x : Row) : (s.setRow r x).ir = s.ir := rfl
@[simp] theorem State.setRow_agenda (s : State) (r : Nat) (x : Row) : (s.setRow r x).agenda = s.agenda := rfl
@[simp] theorem State.setRow_nextId (s : State) (r : Nat) (x : Row) : (s.setRow r x).nextId = s.nextId := rfl
@[simp] theorem State.setRow_frac (s : State) (r : Nat) (x : Row) : (s.setRow r x).frac = s.frac := rfl

/-! `State.updCl`. -/

@[simp] theorem State.updCl_cyc (s : State) (k : Nat) (f : Cluster → Cluster) : (s.updCl k f).cyc = s.cyc := rfl
@[simp] theorem State.updCl_now (s : State) (k : Nat) (f : Cluster → Cluster) : (s.updCl k f).now = s.now := rfl
@[simp] theorem State.updCl_mem (s : State) (k : Nat) (f : Cluster → Cluster) : (s.updCl k f).mem = s.mem := rfl
@[simp] theorem State.updCl_cores (s : State) (k : Nat) (f : Cluster → Cluster) : (s.updCl k f).cores = s.cores := rfl
@[simp] theorem State.updCl_rows (s : State) (k : Nat) (f : Cluster → Cluster) : (s.updCl k f).rows = s.rows := rfl
@[simp] theorem State.updCl_cls (s : State) (k : Nat) (f : Cluster → Cluster) : (s.updCl k f).cls = tPut s.cls k (f (s.cl k)) := rfl
@[simp] theorem State.updCl_hub (s : State) (k : Nat) (f : Cluster → Cluster) : (s.updCl k f).hub = s.hub := rfl
@[simp] theorem State.updCl_sys (s : State) (k : Nat) (f : Cluster → Cluster) : (s.updCl k f).sys = s.sys := rfl
@[simp] theorem State.updCl_net (s : State) (k : Nat) (f : Cluster → Cluster) : (s.updCl k f).net = s.net := rfl
@[simp] theorem State.updCl_out (s : State) (k : Nat) (f : Cluster → Cluster) : (s.updCl k f).out = s.out := rfl
@[simp] theorem State.updCl_hostMem (s : State) (k : Nat) (f : Cluster → Cluster) : (s.updCl k f).hostMem = s.hostMem := rfl
@[simp] theorem State.updCl_upsets (s : State) (k : Nat) (f : Cluster → Cluster) : (s.updCl k f).upsets = s.upsets := rfl
@[simp] theorem State.updCl_cur (s : State) (k : Nat) (f : Cluster → Cluster) : (s.updCl k f).cur = s.cur := rfl
@[simp] theorem State.updCl_phase (s : State) (k : Nat) (f : Cluster → Cluster) : (s.updCl k f).phase = s.phase := rfl
@[simp] theorem State.updCl_ir (s : State) (k : Nat) (f : Cluster → Cluster) : (s.updCl k f).ir = s.ir := rfl
@[simp] theorem State.updCl_agenda (s : State) (k : Nat) (f : Cluster → Cluster) : (s.updCl k f).agenda = s.agenda := rfl
@[simp] theorem State.updCl_nextId (s : State) (k : Nat) (f : Cluster → Cluster) : (s.updCl k f).nextId = s.nextId := rfl
@[simp] theorem State.updCl_frac (s : State) (k : Nat) (f : Cluster → Cluster) : (s.updCl k f).frac = s.frac := rfl

/-! `State.updHub`. -/

@[simp] theorem State.updHub_cyc (s : State) (f : Hub → Hub) : (s.updHub f).cyc = s.cyc := rfl
@[simp] theorem State.updHub_now (s : State) (f : Hub → Hub) : (s.updHub f).now = s.now := rfl
@[simp] theorem State.updHub_mem (s : State) (f : Hub → Hub) : (s.updHub f).mem = s.mem := rfl
@[simp] theorem State.updHub_cores (s : State) (f : Hub → Hub) : (s.updHub f).cores = s.cores := rfl
@[simp] theorem State.updHub_rows (s : State) (f : Hub → Hub) : (s.updHub f).rows = s.rows := rfl
@[simp] theorem State.updHub_cls (s : State) (f : Hub → Hub) : (s.updHub f).cls = s.cls := rfl
@[simp] theorem State.updHub_hub (s : State) (f : Hub → Hub) : (s.updHub f).hub = f s.hub := rfl
@[simp] theorem State.updHub_sys (s : State) (f : Hub → Hub) : (s.updHub f).sys = s.sys := rfl
@[simp] theorem State.updHub_net (s : State) (f : Hub → Hub) : (s.updHub f).net = s.net := rfl
@[simp] theorem State.updHub_out (s : State) (f : Hub → Hub) : (s.updHub f).out = s.out := rfl
@[simp] theorem State.updHub_hostMem (s : State) (f : Hub → Hub) : (s.updHub f).hostMem = s.hostMem := rfl
@[simp] theorem State.updHub_upsets (s : State) (f : Hub → Hub) : (s.updHub f).upsets = s.upsets := rfl
@[simp] theorem State.updHub_cur (s : State) (f : Hub → Hub) : (s.updHub f).cur = s.cur := rfl
@[simp] theorem State.updHub_phase (s : State) (f : Hub → Hub) : (s.updHub f).phase = s.phase := rfl
@[simp] theorem State.updHub_ir (s : State) (f : Hub → Hub) : (s.updHub f).ir = s.ir := rfl
@[simp] theorem State.updHub_agenda (s : State) (f : Hub → Hub) : (s.updHub f).agenda = s.agenda := rfl
@[simp] theorem State.updHub_nextId (s : State) (f : Hub → Hub) : (s.updHub f).nextId = s.nextId := rfl
@[simp] theorem State.updHub_frac (s : State) (f : Hub → Hub) : (s.updHub f).frac = s.frac := rfl

/-! `State.setDom`. -/

@[simp] theorem State.setDom_cyc (s : State) (d : Dom) (e : DEnt) : (s.setDom d e).cyc = s.cyc := rfl
@[simp] theorem State.setDom_now (s : State) (d : Dom) (e : DEnt) : (s.setDom d e).now = s.now := rfl
@[simp] theorem State.setDom_mem (s : State) (d : Dom) (e : DEnt) : (s.setDom d e).mem = s.mem := rfl
@[simp] theorem State.setDom_cores (s : State) (d : Dom) (e : DEnt) : (s.setDom d e).cores = s.cores := rfl
@[simp] theorem State.setDom_rows (s : State) (d : Dom) (e : DEnt) : (s.setDom d e).rows = s.rows := rfl
@[simp] theorem State.setDom_cls (s : State) (d : Dom) (e : DEnt) : (s.setDom d e).cls = s.cls := rfl
@[simp] theorem State.setDom_sys (s : State) (d : Dom) (e : DEnt) : (s.setDom d e).sys = s.sys := rfl
@[simp] theorem State.setDom_net (s : State) (d : Dom) (e : DEnt) : (s.setDom d e).net = s.net := rfl
@[simp] theorem State.setDom_out (s : State) (d : Dom) (e : DEnt) : (s.setDom d e).out = s.out := rfl
@[simp] theorem State.setDom_hostMem (s : State) (d : Dom) (e : DEnt) : (s.setDom d e).hostMem = s.hostMem := rfl
@[simp] theorem State.setDom_upsets (s : State) (d : Dom) (e : DEnt) : (s.setDom d e).upsets = s.upsets := rfl
@[simp] theorem State.setDom_cur (s : State) (d : Dom) (e : DEnt) : (s.setDom d e).cur = s.cur := rfl
@[simp] theorem State.setDom_phase (s : State) (d : Dom) (e : DEnt) : (s.setDom d e).phase = s.phase := rfl
@[simp] theorem State.setDom_ir (s : State) (d : Dom) (e : DEnt) : (s.setDom d e).ir = s.ir := rfl
@[simp] theorem State.setDom_agenda (s : State) (d : Dom) (e : DEnt) : (s.setDom d e).agenda = s.agenda := rfl
@[simp] theorem State.setDom_nextId (s : State) (d : Dom) (e : DEnt) : (s.setDom d e).nextId = s.nextId := rfl
@[simp] theorem State.setDom_frac (s : State) (d : Dom) (e : DEnt) : (s.setDom d e).frac = s.frac := rfl

/-! `State.emit`. -/

@[simp] theorem State.emit_cyc (s : State) (o : Out) : (s.emit o).cyc = s.cyc := rfl
@[simp] theorem State.emit_now (s : State) (o : Out) : (s.emit o).now = s.now := rfl
@[simp] theorem State.emit_mem (s : State) (o : Out) : (s.emit o).mem = s.mem := rfl
@[simp] theorem State.emit_cores (s : State) (o : Out) : (s.emit o).cores = s.cores := rfl
@[simp] theorem State.emit_rows (s : State) (o : Out) : (s.emit o).rows = s.rows := rfl
@[simp] theorem State.emit_cls (s : State) (o : Out) : (s.emit o).cls = s.cls := rfl
@[simp] theorem State.emit_hub (s : State) (o : Out) : (s.emit o).hub = s.hub := rfl
@[simp] theorem State.emit_sys (s : State) (o : Out) : (s.emit o).sys = s.sys := rfl
@[simp] theorem State.emit_net (s : State) (o : Out) : (s.emit o).net = s.net := rfl
@[simp] theorem State.emit_out (s : State) (o : Out) : (s.emit o).out = s.out ++ [o] := rfl
@[simp] theorem State.emit_hostMem (s : State) (o : Out) : (s.emit o).hostMem = s.hostMem := rfl
@[simp] theorem State.emit_upsets (s : State) (o : Out) : (s.emit o).upsets = s.upsets := rfl
@[simp] theorem State.emit_cur (s : State) (o : Out) : (s.emit o).cur = s.cur := rfl
@[simp] theorem State.emit_phase (s : State) (o : Out) : (s.emit o).phase = s.phase := rfl
@[simp] theorem State.emit_ir (s : State) (o : Out) : (s.emit o).ir = s.ir := rfl
@[simp] theorem State.emit_agenda (s : State) (o : Out) : (s.emit o).agenda = s.agenda := rfl
@[simp] theorem State.emit_nextId (s : State) (o : Out) : (s.emit o).nextId = s.nextId := rfl
@[simp] theorem State.emit_frac (s : State) (o : Out) : (s.emit o).frac = s.frac := rfl

/-! `State.fresh`. -/

@[simp] theorem State.fresh_cyc (s : State) : s.fresh.cyc = s.cyc := rfl
@[simp] theorem State.fresh_now (s : State) : s.fresh.now = s.now := rfl
@[simp] theorem State.fresh_mem (s : State) : s.fresh.mem = s.mem := rfl
@[simp] theorem State.fresh_cores (s : State) : s.fresh.cores = s.cores := rfl
@[simp] theorem State.fresh_rows (s : State) : s.fresh.rows = s.rows := rfl
@[simp] theorem State.fresh_cls (s : State) : s.fresh.cls = s.cls := rfl
@[simp] theorem State.fresh_hub (s : State) : s.fresh.hub = s.hub := rfl
@[simp] theorem State.fresh_sys (s : State) : s.fresh.sys = s.sys := rfl
@[simp] theorem State.fresh_net (s : State) : s.fresh.net = s.net := rfl
@[simp] theorem State.fresh_out (s : State) : s.fresh.out = s.out := rfl
@[simp] theorem State.fresh_hostMem (s : State) : s.fresh.hostMem = s.hostMem := rfl
@[simp] theorem State.fresh_upsets (s : State) : s.fresh.upsets = s.upsets := rfl
@[simp] theorem State.fresh_cur (s : State) : s.fresh.cur = s.cur := rfl
@[simp] theorem State.fresh_phase (s : State) : s.fresh.phase = s.phase := rfl
@[simp] theorem State.fresh_ir (s : State) : s.fresh.ir = s.ir := rfl
@[simp] theorem State.fresh_agenda (s : State) : s.fresh.agenda = s.agenda := rfl
@[simp] theorem State.fresh_nextId (s : State) : s.fresh.nextId = s.nextId + 1 := rfl
@[simp] theorem State.fresh_frac (s : State) : s.fresh.frac = s.frac := rfl

/-! `State.send`. -/

@[simp] theorem State.send_cyc (s : State) (d : Nat) (b : PBody) (g : DTag) (x : Ctx) (c : Nat) (q : BitVec 16) : (s.send d b g x c q).cyc = s.cyc := rfl
@[simp] theorem State.send_now (s : State) (d : Nat) (b : PBody) (g : DTag) (x : Ctx) (c : Nat) (q : BitVec 16) : (s.send d b g x c q).now = s.now := rfl
@[simp] theorem State.send_mem (s : State) (d : Nat) (b : PBody) (g : DTag) (x : Ctx) (c : Nat) (q : BitVec 16) : (s.send d b g x c q).mem = s.mem := rfl
@[simp] theorem State.send_cores (s : State) (d : Nat) (b : PBody) (g : DTag) (x : Ctx) (c : Nat) (q : BitVec 16) : (s.send d b g x c q).cores = s.cores := rfl
@[simp] theorem State.send_rows (s : State) (d : Nat) (b : PBody) (g : DTag) (x : Ctx) (c : Nat) (q : BitVec 16) : (s.send d b g x c q).rows = s.rows := rfl
@[simp] theorem State.send_cls (s : State) (d : Nat) (b : PBody) (g : DTag) (x : Ctx) (c : Nat) (q : BitVec 16) : (s.send d b g x c q).cls = s.cls := rfl
@[simp] theorem State.send_hub (s : State) (d : Nat) (b : PBody) (g : DTag) (x : Ctx) (c : Nat) (q : BitVec 16) : (s.send d b g x c q).hub = s.hub := rfl
@[simp] theorem State.send_sys (s : State) (d : Nat) (b : PBody) (g : DTag) (x : Ctx) (c : Nat) (q : BitVec 16) : (s.send d b g x c q).sys = s.sys := rfl
@[simp] theorem State.send_out (s : State) (d : Nat) (b : PBody) (g : DTag) (x : Ctx) (c : Nat) (q : BitVec 16) : (s.send d b g x c q).out = s.out := rfl
@[simp] theorem State.send_hostMem (s : State) (d : Nat) (b : PBody) (g : DTag) (x : Ctx) (c : Nat) (q : BitVec 16) : (s.send d b g x c q).hostMem = s.hostMem := rfl
@[simp] theorem State.send_upsets (s : State) (d : Nat) (b : PBody) (g : DTag) (x : Ctx) (c : Nat) (q : BitVec 16) : (s.send d b g x c q).upsets = s.upsets := rfl
@[simp] theorem State.send_cur (s : State) (d : Nat) (b : PBody) (g : DTag) (x : Ctx) (c : Nat) (q : BitVec 16) : (s.send d b g x c q).cur = s.cur := rfl
@[simp] theorem State.send_phase (s : State) (d : Nat) (b : PBody) (g : DTag) (x : Ctx) (c : Nat) (q : BitVec 16) : (s.send d b g x c q).phase = s.phase := rfl
@[simp] theorem State.send_ir (s : State) (d : Nat) (b : PBody) (g : DTag) (x : Ctx) (c : Nat) (q : BitVec 16) : (s.send d b g x c q).ir = s.ir := rfl
@[simp] theorem State.send_agenda (s : State) (d : Nat) (b : PBody) (g : DTag) (x : Ctx) (c : Nat) (q : BitVec 16) : (s.send d b g x c q).agenda = s.agenda := rfl
@[simp] theorem State.send_nextId (s : State) (d : Nat) (b : PBody) (g : DTag) (x : Ctx) (c : Nat) (q : BitVec 16) : (s.send d b g x c q).nextId = s.nextId + 1 := rfl
@[simp] theorem State.send_frac (s : State) (d : Nat) (b : PBody) (g : DTag) (x : Ctx) (c : Nat) (q : BitVec 16) : (s.send d b g x c q).frac = s.frac := rfl

/-! Reading a core after an update. -/

@[simp] theorem State.core_setCore_same (s : State) (c : Nat) (x : Core) : (s.setCore c x).core c = x := by simp [State.core]
theorem State.core_setCore_other (s : State) (c d : Nat) (x : Core) (h : d ≠ c) : (s.setCore c x).core d = s.core d := by
  simp [State.core, tGet_tPut_other _ _ _ _ h]
@[simp] theorem State.core_upd_same (s : State) (c : Nat) (f : Core → Core) : (s.upd c f).core c = f (s.core c) := by
  simp [State.upd]
theorem State.core_upd_other (s : State) (c d : Nat) (f : Core → Core) (h : d ≠ c) : (s.upd c f).core d = s.core d :=
  State.core_setCore_other s c d _ h
theorem State.core_upd (s : State) (c d : Nat) (f : Core → Core) :
    (s.upd c f).core d = if d = c then f (s.core c) else s.core d := by
  by_cases h : d = c
  · subst h; simp
  · simp [h, State.core_upd_other]
@[simp] theorem State.me_updMe (s : State) (f : Core → Core) : (s.updMe f).me = f s.me := State.core_upd_same s s.cur f
theorem State.core_updMe_other (s : State) (d : Nat) (f : Core → Core) (h : d ≠ s.cur) : (s.updMe f).core d = s.core d :=
  State.core_upd_other s s.cur d f h
theorem State.updMe_eq (s : State) (f : Core → Core) : s.updMe f = s.upd s.cur f := rfl
theorem State.me_eq (s : State) : s.me = s.core s.cur := rfl

@[simp] theorem State.core_setRow (s : State) (r : Nat) (x : Row) (k : Nat) : (s.setRow r x).core k = s.core k := rfl
@[simp] theorem State.me_setRow (s : State) (r : Nat) (x : Row) : (s.setRow r x).me = s.me := rfl
@[simp] theorem State.core_updCl (s : State) (k : Nat) (f : Cluster → Cluster) (c : Nat) : (s.updCl k f).core c = s.core c := rfl
@[simp] theorem State.me_updCl (s : State) (k : Nat) (f : Cluster → Cluster) : (s.updCl k f).me = s.me := rfl
@[simp] theorem State.core_updHub (s : State) (f : Hub → Hub) (k : Nat) : (s.updHub f).core k = s.core k := rfl
@[simp] theorem State.me_updHub (s : State) (f : Hub → Hub) : (s.updHub f).me = s.me := rfl
@[simp] theorem State.core_setDom (s : State) (d : Dom) (e : DEnt) (k : Nat) : (s.setDom d e).core k = s.core k := rfl
@[simp] theorem State.me_setDom (s : State) (d : Dom) (e : DEnt) : (s.setDom d e).me = s.me := rfl
@[simp] theorem State.core_emit (s : State) (o : Out) (k : Nat) : (s.emit o).core k = s.core k := rfl
@[simp] theorem State.me_emit (s : State) (o : Out) : (s.emit o).me = s.me := rfl
@[simp] theorem State.core_fresh (s : State) (k : Nat) : s.fresh.core k = s.core k := rfl
@[simp] theorem State.me_fresh (s : State) : s.fresh.me = s.me := rfl
@[simp] theorem State.core_send (s : State) (d : Nat) (b : PBody) (g : DTag) (x : Ctx) (c : Nat) (q : BitVec 16) (k : Nat) : (s.send d b g x c q).core k = s.core k := rfl
@[simp] theorem State.me_send (s : State) (d : Nat) (b : PBody) (g : DTag) (x : Ctx) (c : Nat) (q : BitVec 16) : (s.send d b g x c q).me = s.me := rfl

/-! Reading the hub's domains after an update. -/

@[simp] theorem State.dom_setDom_same (s : State) (d : Dom) (e : DEnt) : (s.setDom d e).dom d = e := by
  simp [State.dom, State.setDom, State.updHub]
theorem State.dom_setDom_other (s : State) (d k : Dom) (e : DEnt) (h : k ≠ d) : (s.setDom d e).dom k = s.dom k := by
  have h' : k.toNat ≠ d.toNat := fun x => h (BitVec.eq_of_toNat_eq x)
  simp [State.dom, State.setDom, State.updHub, tGet_tPut_other _ _ _ _ h']
@[simp] theorem State.dom_upd (s : State) (c : Nat) (f : Core → Core) (d : Dom) : (s.upd c f).dom d = s.dom d := rfl
@[simp] theorem State.dom_updMe (s : State) (f : Core → Core) (d : Dom) : (s.updMe f).dom d = s.dom d := rfl
@[simp] theorem State.dom_fresh (s : State) (d : Dom) : s.fresh.dom d = s.dom d := rfl

/-! `Core.ws`. -/

@[simp] theorem Core.ws_c (k : Core) (r : Reg) (x : Word) : (k.ws r x).c = k.c := by unfold Core.ws; split <;> rfl
@[simp] theorem Core.ws_pc (k : Core) (r : Reg) (x : Word) : (k.ws r x).pc = k.pc := by unfold Core.ws; split <;> rfl
@[simp] theorem Core.ws_stat (k : Core) (r : Reg) (x : Word) : (k.ws r x).stat = k.stat := by unfold Core.ws; split <;> rfl
@[simp] theorem Core.ws_ready (k : Core) (r : Reg) (x : Word) : (k.ws r x).ready = k.ready := by unfold Core.ws; split <;> rfl
@[simp] theorem Core.ws_waitFrom (k : Core) (r : Reg) (x : Word) : (k.ws r x).waitFrom = k.waitFrom := by unfold Core.ws; split <;> rfl
@[simp] theorem Core.ws_waitVal (k : Core) (r : Reg) (x : Word) : (k.ws r x).waitVal = k.waitVal := by unfold Core.ws; split <;> rfl
@[simp] theorem Core.ws_wbuf (k : Core) (r : Reg) (x : Word) : (k.ws r x).wbuf = k.wbuf := by unfold Core.ws; split <;> rfl
@[simp] theorem Core.ws_wpend (k : Core) (r : Reg) (x : Word) : (k.ws r x).wpend = k.wpend := by unfold Core.ws; split <;> rfl
@[simp] theorem Core.ws_wReady (k : Core) (r : Reg) (x : Word) : (k.ws r x).wReady = k.wReady := by unfold Core.ws; split <;> rfl
@[simp] theorem Core.ws_wFrom (k : Core) (r : Reg) (x : Word) : (k.ws r x).wFrom = k.wFrom := by unfold Core.ws; split <;> rfl
@[simp] theorem Core.ws_wVal (k : Core) (r : Reg) (x : Word) : (k.ws r x).wVal = k.wVal := by unfold Core.ws; split <;> rfl
@[simp] theorem Core.ws_park (k : Core) (r : Reg) (x : Word) : (k.ws r x).park = k.park := by unfold Core.ws; split <;> rfl
@[simp] theorem Core.ws_str (k : Core) (r : Reg) (x : Word) : (k.ws r x).str = k.str := by unfold Core.ws; split <;> rfl
@[simp] theorem Core.ws_pread (k : Core) (r : Reg) (x : Word) : (k.ws r x).pread = k.pread := by unfold Core.ws; split <;> rfl
@[simp] theorem Core.ws_act (k : Core) (r : Reg) (x : Word) : (k.ws r x).act = k.act := by unfold Core.ws; split <;> rfl
@[simp] theorem Core.ws_qinfo (k : Core) (r : Reg) (x : Word) : (k.ws r x).qinfo = k.qinfo := by unfold Core.ws; split <;> rfl
@[simp] theorem Core.ws_sAfter (k : Core) (r : Reg) (x : Word) : (k.ws r x).sAfter = k.sAfter := by unfold Core.ws; split <;> rfl
@[simp] theorem Core.ws_wAfter (k : Core) (r : Reg) (x : Word) : (k.ws r x).wAfter = k.wAfter := by unfold Core.ws; split <;> rfl
@[simp] theorem Core.ws_regsB (k : Core) (r : Reg) (x : Word) : (k.ws r x).regsB = k.regsB := by unfold Core.ws; split <;> rfl
@[simp] theorem Core.ws_inbox (k : Core) (r : Reg) (x : Word) : (k.ws r x).inbox = k.inbox := by unfold Core.ws; split <;> rfl
@[simp] theorem Core.ws_age (k : Core) (r : Reg) (x : Word) : (k.ws r x).age = k.age := by unfold Core.ws; split <;> rfl
@[simp] theorem Core.ws_seqs (k : Core) (r : Reg) (x : Word) : (k.ws r x).seqs = k.seqs := by unfold Core.ws; split <;> rfl
@[simp] theorem Core.ws_outb (k : Core) (r : Reg) (x : Word) : (k.ws r x).outb = k.outb := by unfold Core.ws; split <;> rfl
@[simp] theorem Core.ws_sp (k : Core) (r : Reg) (x : Word) : (k.ws r x).sp = k.sp := by unfold Core.ws; split <;> rfl
@[simp] theorem Core.ws_late (k : Core) (r : Reg) (x : Word) : (k.ws r x).late = k.late := by unfold Core.ws; split <;> rfl
@[simp] theorem Core.ws_empties (k : Core) (r : Reg) (x : Word) : (k.ws r x).empties = k.empties := by unfold Core.ws; split <;> rfl
@[simp] theorem Core.ws_acc (k : Core) (r : Reg) (x : Word) : (k.ws r x).acc = k.acc := by unfold Core.ws; split <;> rfl
@[simp] theorem Core.ws_sl (k : Core) (r : Reg) (x : Word) : (k.ws r x).sl = k.sl := by unfold Core.ws; split <;> rfl
@[simp] theorem Core.ws_jobs (k : Core) (r : Reg) (x : Word) : (k.ws r x).jobs = k.jobs := by unfold Core.ws; split <;> rfl
@[simp] theorem Core.ws_armed (k : Core) (r : Reg) (x : Word) : (k.ws r x).armed = k.armed := by unfold Core.ws; split <;> rfl
@[simp] theorem Core.ws_itlb (k : Core) (r : Reg) (x : Word) : (k.ws r x).itlb = k.itlb := by unfold Core.ws; split <;> rfl
@[simp] theorem Core.ws_dtlb (k : Core) (r : Reg) (x : Word) : (k.ws r x).dtlb = k.dtlb := by unfold Core.ws; split <;> rfl
@[simp] theorem Core.ws_stlb (k : Core) (r : Reg) (x : Word) : (k.ws r x).stlb = k.stlb := by unfold Core.ws; split <;> rfl
@[simp] theorem Core.ws_runs (k : Core) (r : Reg) (x : Word) : (k.ws r x).runs = k.runs := by unfold Core.ws; split <;> rfl
@[simp] theorem Core.ws_res (k : Core) (r : Reg) (x : Word) : (k.ws r x).res = k.res := by unfold Core.ws; split <;> rfl
@[simp] theorem Core.ws_dbg (k : Core) (r : Reg) (x : Word) : (k.ws r x).dbg = k.dbg := by unfold Core.ws; split <;> rfl
@[simp] theorem Core.ws_phys (k : Core) (r : Reg) (x : Word) : (k.ws r x).phys = k.phys := by unfold Core.ws; split <;> rfl
@[simp] theorem Core.ws_preqAt (k : Core) (r : Reg) (x : Word) : (k.ws r x).preqAt = k.preqAt := by unfold Core.ws; split <;> rfl
@[simp] theorem Core.ws_expd (k : Core) (r : Reg) (x : Word) : (k.ws r x).expd = k.expd := by unfold Core.ws; split <;> rfl
@[simp] theorem Core.ws_gone (k : Core) (r : Reg) (x : Word) : (k.ws r x).gone = k.gone := by unfold Core.ws; split <;> rfl
@[simp] theorem Core.ws_ups (k : Core) (r : Reg) (x : Word) : (k.ws r x).ups = k.ups := by unfold Core.ws; split <;> rfl
@[simp] theorem Core.ws_wbUps (k : Core) (r : Reg) (x : Word) : (k.ws r x).wbUps = k.wbUps := by unfold Core.ws; split <;> rfl

/-! `Core.wq`. -/

@[simp] theorem Core.wq_c (k : Core) (n : BitVec 3) (x : List Word) : (k.wq n x).c = k.c := rfl
@[simp] theorem Core.wq_pc (k : Core) (n : BitVec 3) (x : List Word) : (k.wq n x).pc = k.pc := rfl
@[simp] theorem Core.wq_stat (k : Core) (n : BitVec 3) (x : List Word) : (k.wq n x).stat = k.stat := rfl
@[simp] theorem Core.wq_ready (k : Core) (n : BitVec 3) (x : List Word) : (k.wq n x).ready = k.ready := rfl
@[simp] theorem Core.wq_waitFrom (k : Core) (n : BitVec 3) (x : List Word) : (k.wq n x).waitFrom = k.waitFrom := rfl
@[simp] theorem Core.wq_waitVal (k : Core) (n : BitVec 3) (x : List Word) : (k.wq n x).waitVal = k.waitVal := rfl
@[simp] theorem Core.wq_wbuf (k : Core) (n : BitVec 3) (x : List Word) : (k.wq n x).wbuf = k.wbuf := rfl
@[simp] theorem Core.wq_wpend (k : Core) (n : BitVec 3) (x : List Word) : (k.wq n x).wpend = k.wpend := rfl
@[simp] theorem Core.wq_wReady (k : Core) (n : BitVec 3) (x : List Word) : (k.wq n x).wReady = k.wReady := rfl
@[simp] theorem Core.wq_wFrom (k : Core) (n : BitVec 3) (x : List Word) : (k.wq n x).wFrom = k.wFrom := rfl
@[simp] theorem Core.wq_wVal (k : Core) (n : BitVec 3) (x : List Word) : (k.wq n x).wVal = k.wVal := rfl
@[simp] theorem Core.wq_park (k : Core) (n : BitVec 3) (x : List Word) : (k.wq n x).park = k.park := rfl
@[simp] theorem Core.wq_str (k : Core) (n : BitVec 3) (x : List Word) : (k.wq n x).str = k.str := rfl
@[simp] theorem Core.wq_pread (k : Core) (n : BitVec 3) (x : List Word) : (k.wq n x).pread = k.pread := rfl
@[simp] theorem Core.wq_act (k : Core) (n : BitVec 3) (x : List Word) : (k.wq n x).act = k.act := rfl
@[simp] theorem Core.wq_qinfo (k : Core) (n : BitVec 3) (x : List Word) : (k.wq n x).qinfo = k.qinfo := rfl
@[simp] theorem Core.wq_sAfter (k : Core) (n : BitVec 3) (x : List Word) : (k.wq n x).sAfter = k.sAfter := rfl
@[simp] theorem Core.wq_wAfter (k : Core) (n : BitVec 3) (x : List Word) : (k.wq n x).wAfter = k.wAfter := rfl
@[simp] theorem Core.wq_regsB (k : Core) (n : BitVec 3) (x : List Word) : (k.wq n x).regsB = k.regsB := rfl
@[simp] theorem Core.wq_inbox (k : Core) (n : BitVec 3) (x : List Word) : (k.wq n x).inbox = k.inbox := rfl
@[simp] theorem Core.wq_age (k : Core) (n : BitVec 3) (x : List Word) : (k.wq n x).age = k.age := rfl
@[simp] theorem Core.wq_seqs (k : Core) (n : BitVec 3) (x : List Word) : (k.wq n x).seqs = k.seqs := rfl
@[simp] theorem Core.wq_outb (k : Core) (n : BitVec 3) (x : List Word) : (k.wq n x).outb = k.outb := rfl
@[simp] theorem Core.wq_sp (k : Core) (n : BitVec 3) (x : List Word) : (k.wq n x).sp = k.sp := rfl
@[simp] theorem Core.wq_late (k : Core) (n : BitVec 3) (x : List Word) : (k.wq n x).late = k.late := rfl
@[simp] theorem Core.wq_empties (k : Core) (n : BitVec 3) (x : List Word) : (k.wq n x).empties = k.empties := rfl
@[simp] theorem Core.wq_acc (k : Core) (n : BitVec 3) (x : List Word) : (k.wq n x).acc = k.acc := rfl
@[simp] theorem Core.wq_sl (k : Core) (n : BitVec 3) (x : List Word) : (k.wq n x).sl = k.sl := rfl
@[simp] theorem Core.wq_jobs (k : Core) (n : BitVec 3) (x : List Word) : (k.wq n x).jobs = k.jobs := rfl
@[simp] theorem Core.wq_armed (k : Core) (n : BitVec 3) (x : List Word) : (k.wq n x).armed = k.armed := rfl
@[simp] theorem Core.wq_itlb (k : Core) (n : BitVec 3) (x : List Word) : (k.wq n x).itlb = k.itlb := rfl
@[simp] theorem Core.wq_dtlb (k : Core) (n : BitVec 3) (x : List Word) : (k.wq n x).dtlb = k.dtlb := rfl
@[simp] theorem Core.wq_stlb (k : Core) (n : BitVec 3) (x : List Word) : (k.wq n x).stlb = k.stlb := rfl
@[simp] theorem Core.wq_runs (k : Core) (n : BitVec 3) (x : List Word) : (k.wq n x).runs = k.runs := rfl
@[simp] theorem Core.wq_res (k : Core) (n : BitVec 3) (x : List Word) : (k.wq n x).res = k.res := rfl
@[simp] theorem Core.wq_dbg (k : Core) (n : BitVec 3) (x : List Word) : (k.wq n x).dbg = k.dbg := rfl
@[simp] theorem Core.wq_phys (k : Core) (n : BitVec 3) (x : List Word) : (k.wq n x).phys = k.phys := rfl
@[simp] theorem Core.wq_preqAt (k : Core) (n : BitVec 3) (x : List Word) : (k.wq n x).preqAt = k.preqAt := rfl
@[simp] theorem Core.wq_expd (k : Core) (n : BitVec 3) (x : List Word) : (k.wq n x).expd = k.expd := rfl
@[simp] theorem Core.wq_gone (k : Core) (n : BitVec 3) (x : List Word) : (k.wq n x).gone = k.gone := rfl
@[simp] theorem Core.wq_ups (k : Core) (n : BitVec 3) (x : List Word) : (k.wq n x).ups = k.ups := rfl
@[simp] theorem Core.wq_wbUps (k : Core) (n : BitVec 3) (x : List Word) : (k.wq n x).wbUps = k.wbUps := rfl

/-! `Core.push`. -/

@[simp] theorem Core.push_c (k : Core) (n : BitVec 3) (x : Word) (f a : Nat) : (k.push n x f a).c = k.c := rfl
@[simp] theorem Core.push_pc (k : Core) (n : BitVec 3) (x : Word) (f a : Nat) : (k.push n x f a).pc = k.pc := rfl
@[simp] theorem Core.push_stat (k : Core) (n : BitVec 3) (x : Word) (f a : Nat) : (k.push n x f a).stat = k.stat := rfl
@[simp] theorem Core.push_ready (k : Core) (n : BitVec 3) (x : Word) (f a : Nat) : (k.push n x f a).ready = k.ready := rfl
@[simp] theorem Core.push_waitFrom (k : Core) (n : BitVec 3) (x : Word) (f a : Nat) : (k.push n x f a).waitFrom = k.waitFrom := rfl
@[simp] theorem Core.push_waitVal (k : Core) (n : BitVec 3) (x : Word) (f a : Nat) : (k.push n x f a).waitVal = k.waitVal := rfl
@[simp] theorem Core.push_wbuf (k : Core) (n : BitVec 3) (x : Word) (f a : Nat) : (k.push n x f a).wbuf = k.wbuf := rfl
@[simp] theorem Core.push_wpend (k : Core) (n : BitVec 3) (x : Word) (f a : Nat) : (k.push n x f a).wpend = k.wpend := rfl
@[simp] theorem Core.push_wReady (k : Core) (n : BitVec 3) (x : Word) (f a : Nat) : (k.push n x f a).wReady = k.wReady := rfl
@[simp] theorem Core.push_wFrom (k : Core) (n : BitVec 3) (x : Word) (f a : Nat) : (k.push n x f a).wFrom = k.wFrom := rfl
@[simp] theorem Core.push_wVal (k : Core) (n : BitVec 3) (x : Word) (f a : Nat) : (k.push n x f a).wVal = k.wVal := rfl
@[simp] theorem Core.push_park (k : Core) (n : BitVec 3) (x : Word) (f a : Nat) : (k.push n x f a).park = k.park := rfl
@[simp] theorem Core.push_str (k : Core) (n : BitVec 3) (x : Word) (f a : Nat) : (k.push n x f a).str = k.str := rfl
@[simp] theorem Core.push_pread (k : Core) (n : BitVec 3) (x : Word) (f a : Nat) : (k.push n x f a).pread = k.pread := rfl
@[simp] theorem Core.push_act (k : Core) (n : BitVec 3) (x : Word) (f a : Nat) : (k.push n x f a).act = k.act := rfl
@[simp] theorem Core.push_sAfter (k : Core) (n : BitVec 3) (x : Word) (f a : Nat) : (k.push n x f a).sAfter = k.sAfter := rfl
@[simp] theorem Core.push_wAfter (k : Core) (n : BitVec 3) (x : Word) (f a : Nat) : (k.push n x f a).wAfter = k.wAfter := rfl
@[simp] theorem Core.push_regsB (k : Core) (n : BitVec 3) (x : Word) (f a : Nat) : (k.push n x f a).regsB = k.regsB := rfl
@[simp] theorem Core.push_inbox (k : Core) (n : BitVec 3) (x : Word) (f a : Nat) : (k.push n x f a).inbox = k.inbox := rfl
@[simp] theorem Core.push_age (k : Core) (n : BitVec 3) (x : Word) (f a : Nat) : (k.push n x f a).age = k.age := rfl
@[simp] theorem Core.push_seqs (k : Core) (n : BitVec 3) (x : Word) (f a : Nat) : (k.push n x f a).seqs = k.seqs := rfl
@[simp] theorem Core.push_outb (k : Core) (n : BitVec 3) (x : Word) (f a : Nat) : (k.push n x f a).outb = k.outb := rfl
@[simp] theorem Core.push_sp (k : Core) (n : BitVec 3) (x : Word) (f a : Nat) : (k.push n x f a).sp = k.sp := rfl
@[simp] theorem Core.push_late (k : Core) (n : BitVec 3) (x : Word) (f a : Nat) : (k.push n x f a).late = k.late := rfl
@[simp] theorem Core.push_empties (k : Core) (n : BitVec 3) (x : Word) (f a : Nat) : (k.push n x f a).empties = k.empties := rfl
@[simp] theorem Core.push_acc (k : Core) (n : BitVec 3) (x : Word) (f a : Nat) : (k.push n x f a).acc = k.acc := rfl
@[simp] theorem Core.push_sl (k : Core) (n : BitVec 3) (x : Word) (f a : Nat) : (k.push n x f a).sl = k.sl := rfl
@[simp] theorem Core.push_jobs (k : Core) (n : BitVec 3) (x : Word) (f a : Nat) : (k.push n x f a).jobs = k.jobs := rfl
@[simp] theorem Core.push_armed (k : Core) (n : BitVec 3) (x : Word) (f a : Nat) : (k.push n x f a).armed = k.armed := rfl
@[simp] theorem Core.push_itlb (k : Core) (n : BitVec 3) (x : Word) (f a : Nat) : (k.push n x f a).itlb = k.itlb := rfl
@[simp] theorem Core.push_dtlb (k : Core) (n : BitVec 3) (x : Word) (f a : Nat) : (k.push n x f a).dtlb = k.dtlb := rfl
@[simp] theorem Core.push_stlb (k : Core) (n : BitVec 3) (x : Word) (f a : Nat) : (k.push n x f a).stlb = k.stlb := rfl
@[simp] theorem Core.push_runs (k : Core) (n : BitVec 3) (x : Word) (f a : Nat) : (k.push n x f a).runs = k.runs := rfl
@[simp] theorem Core.push_res (k : Core) (n : BitVec 3) (x : Word) (f a : Nat) : (k.push n x f a).res = k.res := rfl
@[simp] theorem Core.push_dbg (k : Core) (n : BitVec 3) (x : Word) (f a : Nat) : (k.push n x f a).dbg = k.dbg := rfl
@[simp] theorem Core.push_phys (k : Core) (n : BitVec 3) (x : Word) (f a : Nat) : (k.push n x f a).phys = k.phys := rfl
@[simp] theorem Core.push_preqAt (k : Core) (n : BitVec 3) (x : Word) (f a : Nat) : (k.push n x f a).preqAt = k.preqAt := rfl
@[simp] theorem Core.push_expd (k : Core) (n : BitVec 3) (x : Word) (f a : Nat) : (k.push n x f a).expd = k.expd := rfl
@[simp] theorem Core.push_gone (k : Core) (n : BitVec 3) (x : Word) (f a : Nat) : (k.push n x f a).gone = k.gone := rfl
@[simp] theorem Core.push_ups (k : Core) (n : BitVec 3) (x : Word) (f a : Nat) : (k.push n x f a).ups = k.ups := rfl
@[simp] theorem Core.push_wbUps (k : Core) (n : BitVec 3) (x : Word) (f a : Nat) : (k.push n x f a).wbUps = k.wbUps := rfl

/-! `Core.pop`. -/

@[simp] theorem Core.pop_c (k : Core) (n : BitVec 3) : (k.pop n).c = k.c := rfl
@[simp] theorem Core.pop_pc (k : Core) (n : BitVec 3) : (k.pop n).pc = k.pc := rfl
@[simp] theorem Core.pop_stat (k : Core) (n : BitVec 3) : (k.pop n).stat = k.stat := rfl
@[simp] theorem Core.pop_ready (k : Core) (n : BitVec 3) : (k.pop n).ready = k.ready := rfl
@[simp] theorem Core.pop_waitFrom (k : Core) (n : BitVec 3) : (k.pop n).waitFrom = k.waitFrom := rfl
@[simp] theorem Core.pop_waitVal (k : Core) (n : BitVec 3) : (k.pop n).waitVal = k.waitVal := rfl
@[simp] theorem Core.pop_wbuf (k : Core) (n : BitVec 3) : (k.pop n).wbuf = k.wbuf := rfl
@[simp] theorem Core.pop_wpend (k : Core) (n : BitVec 3) : (k.pop n).wpend = k.wpend := rfl
@[simp] theorem Core.pop_wReady (k : Core) (n : BitVec 3) : (k.pop n).wReady = k.wReady := rfl
@[simp] theorem Core.pop_wFrom (k : Core) (n : BitVec 3) : (k.pop n).wFrom = k.wFrom := rfl
@[simp] theorem Core.pop_wVal (k : Core) (n : BitVec 3) : (k.pop n).wVal = k.wVal := rfl
@[simp] theorem Core.pop_park (k : Core) (n : BitVec 3) : (k.pop n).park = k.park := rfl
@[simp] theorem Core.pop_str (k : Core) (n : BitVec 3) : (k.pop n).str = k.str := rfl
@[simp] theorem Core.pop_pread (k : Core) (n : BitVec 3) : (k.pop n).pread = k.pread := rfl
@[simp] theorem Core.pop_act (k : Core) (n : BitVec 3) : (k.pop n).act = k.act := rfl
@[simp] theorem Core.pop_sAfter (k : Core) (n : BitVec 3) : (k.pop n).sAfter = k.sAfter := rfl
@[simp] theorem Core.pop_wAfter (k : Core) (n : BitVec 3) : (k.pop n).wAfter = k.wAfter := rfl
@[simp] theorem Core.pop_regsB (k : Core) (n : BitVec 3) : (k.pop n).regsB = k.regsB := rfl
@[simp] theorem Core.pop_inbox (k : Core) (n : BitVec 3) : (k.pop n).inbox = k.inbox := rfl
@[simp] theorem Core.pop_age (k : Core) (n : BitVec 3) : (k.pop n).age = k.age := rfl
@[simp] theorem Core.pop_seqs (k : Core) (n : BitVec 3) : (k.pop n).seqs = k.seqs := rfl
@[simp] theorem Core.pop_outb (k : Core) (n : BitVec 3) : (k.pop n).outb = k.outb := rfl
@[simp] theorem Core.pop_sp (k : Core) (n : BitVec 3) : (k.pop n).sp = k.sp := rfl
@[simp] theorem Core.pop_late (k : Core) (n : BitVec 3) : (k.pop n).late = k.late := rfl
@[simp] theorem Core.pop_empties (k : Core) (n : BitVec 3) : (k.pop n).empties = k.empties := rfl
@[simp] theorem Core.pop_acc (k : Core) (n : BitVec 3) : (k.pop n).acc = k.acc := rfl
@[simp] theorem Core.pop_sl (k : Core) (n : BitVec 3) : (k.pop n).sl = k.sl := rfl
@[simp] theorem Core.pop_jobs (k : Core) (n : BitVec 3) : (k.pop n).jobs = k.jobs := rfl
@[simp] theorem Core.pop_armed (k : Core) (n : BitVec 3) : (k.pop n).armed = k.armed := rfl
@[simp] theorem Core.pop_itlb (k : Core) (n : BitVec 3) : (k.pop n).itlb = k.itlb := rfl
@[simp] theorem Core.pop_dtlb (k : Core) (n : BitVec 3) : (k.pop n).dtlb = k.dtlb := rfl
@[simp] theorem Core.pop_stlb (k : Core) (n : BitVec 3) : (k.pop n).stlb = k.stlb := rfl
@[simp] theorem Core.pop_runs (k : Core) (n : BitVec 3) : (k.pop n).runs = k.runs := rfl
@[simp] theorem Core.pop_res (k : Core) (n : BitVec 3) : (k.pop n).res = k.res := rfl
@[simp] theorem Core.pop_dbg (k : Core) (n : BitVec 3) : (k.pop n).dbg = k.dbg := rfl
@[simp] theorem Core.pop_phys (k : Core) (n : BitVec 3) : (k.pop n).phys = k.phys := rfl
@[simp] theorem Core.pop_preqAt (k : Core) (n : BitVec 3) : (k.pop n).preqAt = k.preqAt := rfl
@[simp] theorem Core.pop_expd (k : Core) (n : BitVec 3) : (k.pop n).expd = k.expd := rfl
@[simp] theorem Core.pop_gone (k : Core) (n : BitVec 3) : (k.pop n).gone = k.gone := rfl
@[simp] theorem Core.pop_ups (k : Core) (n : BitVec 3) : (k.pop n).ups = k.ups := rfl
@[simp] theorem Core.pop_wbUps (k : Core) (n : BitVec 3) : (k.pop n).wbUps = k.wbUps := rfl

/-! `Core.spWrite`. -/

@[simp] theorem Core.spWrite_r (k : Core) (a : Nat) (bs : List Byte) : (k.spWrite a bs).r = k.r := rfl
@[simp] theorem Core.spWrite_c (k : Core) (a : Nat) (bs : List Byte) : (k.spWrite a bs).c = k.c := rfl
@[simp] theorem Core.spWrite_pc (k : Core) (a : Nat) (bs : List Byte) : (k.spWrite a bs).pc = k.pc := rfl
@[simp] theorem Core.spWrite_stat (k : Core) (a : Nat) (bs : List Byte) : (k.spWrite a bs).stat = k.stat := rfl
@[simp] theorem Core.spWrite_ready (k : Core) (a : Nat) (bs : List Byte) : (k.spWrite a bs).ready = k.ready := rfl
@[simp] theorem Core.spWrite_waitFrom (k : Core) (a : Nat) (bs : List Byte) : (k.spWrite a bs).waitFrom = k.waitFrom := rfl
@[simp] theorem Core.spWrite_waitVal (k : Core) (a : Nat) (bs : List Byte) : (k.spWrite a bs).waitVal = k.waitVal := rfl
@[simp] theorem Core.spWrite_wbuf (k : Core) (a : Nat) (bs : List Byte) : (k.spWrite a bs).wbuf = k.wbuf := rfl
@[simp] theorem Core.spWrite_wpend (k : Core) (a : Nat) (bs : List Byte) : (k.spWrite a bs).wpend = k.wpend := rfl
@[simp] theorem Core.spWrite_wReady (k : Core) (a : Nat) (bs : List Byte) : (k.spWrite a bs).wReady = k.wReady := rfl
@[simp] theorem Core.spWrite_wFrom (k : Core) (a : Nat) (bs : List Byte) : (k.spWrite a bs).wFrom = k.wFrom := rfl
@[simp] theorem Core.spWrite_wVal (k : Core) (a : Nat) (bs : List Byte) : (k.spWrite a bs).wVal = k.wVal := rfl
@[simp] theorem Core.spWrite_park (k : Core) (a : Nat) (bs : List Byte) : (k.spWrite a bs).park = k.park := rfl
@[simp] theorem Core.spWrite_str (k : Core) (a : Nat) (bs : List Byte) : (k.spWrite a bs).str = k.str := rfl
@[simp] theorem Core.spWrite_pread (k : Core) (a : Nat) (bs : List Byte) : (k.spWrite a bs).pread = k.pread := rfl
@[simp] theorem Core.spWrite_act (k : Core) (a : Nat) (bs : List Byte) : (k.spWrite a bs).act = k.act := rfl
@[simp] theorem Core.spWrite_qinfo (k : Core) (a : Nat) (bs : List Byte) : (k.spWrite a bs).qinfo = k.qinfo := rfl
@[simp] theorem Core.spWrite_sAfter (k : Core) (a : Nat) (bs : List Byte) : (k.spWrite a bs).sAfter = k.sAfter := rfl
@[simp] theorem Core.spWrite_wAfter (k : Core) (a : Nat) (bs : List Byte) : (k.spWrite a bs).wAfter = k.wAfter := rfl
@[simp] theorem Core.spWrite_regsB (k : Core) (a : Nat) (bs : List Byte) : (k.spWrite a bs).regsB = k.regsB := rfl
@[simp] theorem Core.spWrite_inbox (k : Core) (a : Nat) (bs : List Byte) : (k.spWrite a bs).inbox = k.inbox := rfl
@[simp] theorem Core.spWrite_age (k : Core) (a : Nat) (bs : List Byte) : (k.spWrite a bs).age = k.age := rfl
@[simp] theorem Core.spWrite_seqs (k : Core) (a : Nat) (bs : List Byte) : (k.spWrite a bs).seqs = k.seqs := rfl
@[simp] theorem Core.spWrite_outb (k : Core) (a : Nat) (bs : List Byte) : (k.spWrite a bs).outb = k.outb := rfl
@[simp] theorem Core.spWrite_empties (k : Core) (a : Nat) (bs : List Byte) : (k.spWrite a bs).empties = k.empties := rfl
@[simp] theorem Core.spWrite_acc (k : Core) (a : Nat) (bs : List Byte) : (k.spWrite a bs).acc = k.acc := rfl
@[simp] theorem Core.spWrite_sl (k : Core) (a : Nat) (bs : List Byte) : (k.spWrite a bs).sl = k.sl := rfl
@[simp] theorem Core.spWrite_jobs (k : Core) (a : Nat) (bs : List Byte) : (k.spWrite a bs).jobs = k.jobs := rfl
@[simp] theorem Core.spWrite_armed (k : Core) (a : Nat) (bs : List Byte) : (k.spWrite a bs).armed = k.armed := rfl
@[simp] theorem Core.spWrite_itlb (k : Core) (a : Nat) (bs : List Byte) : (k.spWrite a bs).itlb = k.itlb := rfl
@[simp] theorem Core.spWrite_dtlb (k : Core) (a : Nat) (bs : List Byte) : (k.spWrite a bs).dtlb = k.dtlb := rfl
@[simp] theorem Core.spWrite_stlb (k : Core) (a : Nat) (bs : List Byte) : (k.spWrite a bs).stlb = k.stlb := rfl
@[simp] theorem Core.spWrite_runs (k : Core) (a : Nat) (bs : List Byte) : (k.spWrite a bs).runs = k.runs := rfl
@[simp] theorem Core.spWrite_res (k : Core) (a : Nat) (bs : List Byte) : (k.spWrite a bs).res = k.res := rfl
@[simp] theorem Core.spWrite_dbg (k : Core) (a : Nat) (bs : List Byte) : (k.spWrite a bs).dbg = k.dbg := rfl
@[simp] theorem Core.spWrite_phys (k : Core) (a : Nat) (bs : List Byte) : (k.spWrite a bs).phys = k.phys := rfl
@[simp] theorem Core.spWrite_preqAt (k : Core) (a : Nat) (bs : List Byte) : (k.spWrite a bs).preqAt = k.preqAt := rfl
@[simp] theorem Core.spWrite_expd (k : Core) (a : Nat) (bs : List Byte) : (k.spWrite a bs).expd = k.expd := rfl
@[simp] theorem Core.spWrite_gone (k : Core) (a : Nat) (bs : List Byte) : (k.spWrite a bs).gone = k.gone := rfl
@[simp] theorem Core.spWrite_wbUps (k : Core) (a : Nat) (bs : List Byte) : (k.spWrite a bs).wbUps = k.wbUps := rfl

/-! `Core.spStore`. -/

@[simp] theorem Core.spStore_r (k : Core) (a : Nat) (bs : List Byte) : (k.spStore a bs).r = k.r := rfl
@[simp] theorem Core.spStore_c (k : Core) (a : Nat) (bs : List Byte) : (k.spStore a bs).c = k.c := rfl
@[simp] theorem Core.spStore_pc (k : Core) (a : Nat) (bs : List Byte) : (k.spStore a bs).pc = k.pc := rfl
@[simp] theorem Core.spStore_stat (k : Core) (a : Nat) (bs : List Byte) : (k.spStore a bs).stat = k.stat := rfl
@[simp] theorem Core.spStore_ready (k : Core) (a : Nat) (bs : List Byte) : (k.spStore a bs).ready = k.ready := rfl
@[simp] theorem Core.spStore_waitFrom (k : Core) (a : Nat) (bs : List Byte) : (k.spStore a bs).waitFrom = k.waitFrom := rfl
@[simp] theorem Core.spStore_waitVal (k : Core) (a : Nat) (bs : List Byte) : (k.spStore a bs).waitVal = k.waitVal := rfl
@[simp] theorem Core.spStore_wbuf (k : Core) (a : Nat) (bs : List Byte) : (k.spStore a bs).wbuf = k.wbuf := rfl
@[simp] theorem Core.spStore_wpend (k : Core) (a : Nat) (bs : List Byte) : (k.spStore a bs).wpend = k.wpend := rfl
@[simp] theorem Core.spStore_wReady (k : Core) (a : Nat) (bs : List Byte) : (k.spStore a bs).wReady = k.wReady := rfl
@[simp] theorem Core.spStore_wFrom (k : Core) (a : Nat) (bs : List Byte) : (k.spStore a bs).wFrom = k.wFrom := rfl
@[simp] theorem Core.spStore_wVal (k : Core) (a : Nat) (bs : List Byte) : (k.spStore a bs).wVal = k.wVal := rfl
@[simp] theorem Core.spStore_park (k : Core) (a : Nat) (bs : List Byte) : (k.spStore a bs).park = k.park := rfl
@[simp] theorem Core.spStore_str (k : Core) (a : Nat) (bs : List Byte) : (k.spStore a bs).str = k.str := rfl
@[simp] theorem Core.spStore_pread (k : Core) (a : Nat) (bs : List Byte) : (k.spStore a bs).pread = k.pread := rfl
@[simp] theorem Core.spStore_act (k : Core) (a : Nat) (bs : List Byte) : (k.spStore a bs).act = k.act := rfl
@[simp] theorem Core.spStore_qinfo (k : Core) (a : Nat) (bs : List Byte) : (k.spStore a bs).qinfo = k.qinfo := rfl
@[simp] theorem Core.spStore_sAfter (k : Core) (a : Nat) (bs : List Byte) : (k.spStore a bs).sAfter = k.sAfter := rfl
@[simp] theorem Core.spStore_wAfter (k : Core) (a : Nat) (bs : List Byte) : (k.spStore a bs).wAfter = k.wAfter := rfl
@[simp] theorem Core.spStore_regsB (k : Core) (a : Nat) (bs : List Byte) : (k.spStore a bs).regsB = k.regsB := rfl
@[simp] theorem Core.spStore_inbox (k : Core) (a : Nat) (bs : List Byte) : (k.spStore a bs).inbox = k.inbox := rfl
@[simp] theorem Core.spStore_age (k : Core) (a : Nat) (bs : List Byte) : (k.spStore a bs).age = k.age := rfl
@[simp] theorem Core.spStore_seqs (k : Core) (a : Nat) (bs : List Byte) : (k.spStore a bs).seqs = k.seqs := rfl
@[simp] theorem Core.spStore_outb (k : Core) (a : Nat) (bs : List Byte) : (k.spStore a bs).outb = k.outb := rfl
@[simp] theorem Core.spStore_empties (k : Core) (a : Nat) (bs : List Byte) : (k.spStore a bs).empties = k.empties := rfl
@[simp] theorem Core.spStore_acc (k : Core) (a : Nat) (bs : List Byte) : (k.spStore a bs).acc = k.acc := rfl
@[simp] theorem Core.spStore_sl (k : Core) (a : Nat) (bs : List Byte) : (k.spStore a bs).sl = k.sl := rfl
@[simp] theorem Core.spStore_jobs (k : Core) (a : Nat) (bs : List Byte) : (k.spStore a bs).jobs = k.jobs := rfl
@[simp] theorem Core.spStore_armed (k : Core) (a : Nat) (bs : List Byte) : (k.spStore a bs).armed = k.armed := rfl
@[simp] theorem Core.spStore_itlb (k : Core) (a : Nat) (bs : List Byte) : (k.spStore a bs).itlb = k.itlb := rfl
@[simp] theorem Core.spStore_dtlb (k : Core) (a : Nat) (bs : List Byte) : (k.spStore a bs).dtlb = k.dtlb := rfl
@[simp] theorem Core.spStore_stlb (k : Core) (a : Nat) (bs : List Byte) : (k.spStore a bs).stlb = k.stlb := rfl
@[simp] theorem Core.spStore_runs (k : Core) (a : Nat) (bs : List Byte) : (k.spStore a bs).runs = k.runs := rfl
@[simp] theorem Core.spStore_res (k : Core) (a : Nat) (bs : List Byte) : (k.spStore a bs).res = k.res := rfl
@[simp] theorem Core.spStore_dbg (k : Core) (a : Nat) (bs : List Byte) : (k.spStore a bs).dbg = k.dbg := rfl
@[simp] theorem Core.spStore_phys (k : Core) (a : Nat) (bs : List Byte) : (k.spStore a bs).phys = k.phys := rfl
@[simp] theorem Core.spStore_preqAt (k : Core) (a : Nat) (bs : List Byte) : (k.spStore a bs).preqAt = k.preqAt := rfl
@[simp] theorem Core.spStore_expd (k : Core) (a : Nat) (bs : List Byte) : (k.spStore a bs).expd = k.expd := rfl
@[simp] theorem Core.spStore_gone (k : Core) (a : Nat) (bs : List Byte) : (k.spStore a bs).gone = k.gone := rfl
@[simp] theorem Core.spStore_wbUps (k : Core) (a : Nat) (bs : List Byte) : (k.spStore a bs).wbUps = k.wbUps := rfl

/-! `Core.seen`. -/

@[simp] theorem Core.seen_r (k : Core) (b : Bool) : (k.seen b).r = k.r := by cases b <;> rfl
@[simp] theorem Core.seen_c (k : Core) (b : Bool) : (k.seen b).c = k.c := by cases b <;> rfl
@[simp] theorem Core.seen_pc (k : Core) (b : Bool) : (k.seen b).pc = k.pc := by cases b <;> rfl
@[simp] theorem Core.seen_stat (k : Core) (b : Bool) : (k.seen b).stat = k.stat := by cases b <;> rfl
@[simp] theorem Core.seen_ready (k : Core) (b : Bool) : (k.seen b).ready = k.ready := by cases b <;> rfl
@[simp] theorem Core.seen_waitFrom (k : Core) (b : Bool) : (k.seen b).waitFrom = k.waitFrom := by cases b <;> rfl
@[simp] theorem Core.seen_waitVal (k : Core) (b : Bool) : (k.seen b).waitVal = k.waitVal := by cases b <;> rfl
@[simp] theorem Core.seen_wbuf (k : Core) (b : Bool) : (k.seen b).wbuf = k.wbuf := by cases b <;> rfl
@[simp] theorem Core.seen_wpend (k : Core) (b : Bool) : (k.seen b).wpend = k.wpend := by cases b <;> rfl
@[simp] theorem Core.seen_wReady (k : Core) (b : Bool) : (k.seen b).wReady = k.wReady := by cases b <;> rfl
@[simp] theorem Core.seen_wFrom (k : Core) (b : Bool) : (k.seen b).wFrom = k.wFrom := by cases b <;> rfl
@[simp] theorem Core.seen_wVal (k : Core) (b : Bool) : (k.seen b).wVal = k.wVal := by cases b <;> rfl
@[simp] theorem Core.seen_park (k : Core) (b : Bool) : (k.seen b).park = k.park := by cases b <;> rfl
@[simp] theorem Core.seen_str (k : Core) (b : Bool) : (k.seen b).str = k.str := by cases b <;> rfl
@[simp] theorem Core.seen_pread (k : Core) (b : Bool) : (k.seen b).pread = k.pread := by cases b <;> rfl
@[simp] theorem Core.seen_act (k : Core) (b : Bool) : (k.seen b).act = k.act := by cases b <;> rfl
@[simp] theorem Core.seen_qinfo (k : Core) (b : Bool) : (k.seen b).qinfo = k.qinfo := by cases b <;> rfl
@[simp] theorem Core.seen_sAfter (k : Core) (b : Bool) : (k.seen b).sAfter = k.sAfter := by cases b <;> rfl
@[simp] theorem Core.seen_wAfter (k : Core) (b : Bool) : (k.seen b).wAfter = k.wAfter := by cases b <;> rfl
@[simp] theorem Core.seen_regsB (k : Core) (b : Bool) : (k.seen b).regsB = k.regsB := by cases b <;> rfl
@[simp] theorem Core.seen_inbox (k : Core) (b : Bool) : (k.seen b).inbox = k.inbox := by cases b <;> rfl
@[simp] theorem Core.seen_age (k : Core) (b : Bool) : (k.seen b).age = k.age := by cases b <;> rfl
@[simp] theorem Core.seen_seqs (k : Core) (b : Bool) : (k.seen b).seqs = k.seqs := by cases b <;> rfl
@[simp] theorem Core.seen_outb (k : Core) (b : Bool) : (k.seen b).outb = k.outb := by cases b <;> rfl
@[simp] theorem Core.seen_sp (k : Core) (b : Bool) : (k.seen b).sp = k.sp := by cases b <;> rfl
@[simp] theorem Core.seen_empties (k : Core) (b : Bool) : (k.seen b).empties = k.empties := by cases b <;> rfl
@[simp] theorem Core.seen_acc (k : Core) (b : Bool) : (k.seen b).acc = k.acc := by cases b <;> rfl
@[simp] theorem Core.seen_sl (k : Core) (b : Bool) : (k.seen b).sl = k.sl := by cases b <;> rfl
@[simp] theorem Core.seen_jobs (k : Core) (b : Bool) : (k.seen b).jobs = k.jobs := by cases b <;> rfl
@[simp] theorem Core.seen_armed (k : Core) (b : Bool) : (k.seen b).armed = k.armed := by cases b <;> rfl
@[simp] theorem Core.seen_itlb (k : Core) (b : Bool) : (k.seen b).itlb = k.itlb := by cases b <;> rfl
@[simp] theorem Core.seen_dtlb (k : Core) (b : Bool) : (k.seen b).dtlb = k.dtlb := by cases b <;> rfl
@[simp] theorem Core.seen_stlb (k : Core) (b : Bool) : (k.seen b).stlb = k.stlb := by cases b <;> rfl
@[simp] theorem Core.seen_runs (k : Core) (b : Bool) : (k.seen b).runs = k.runs := by cases b <;> rfl
@[simp] theorem Core.seen_res (k : Core) (b : Bool) : (k.seen b).res = k.res := by cases b <;> rfl
@[simp] theorem Core.seen_dbg (k : Core) (b : Bool) : (k.seen b).dbg = k.dbg := by cases b <;> rfl
@[simp] theorem Core.seen_phys (k : Core) (b : Bool) : (k.seen b).phys = k.phys := by cases b <;> rfl
@[simp] theorem Core.seen_preqAt (k : Core) (b : Bool) : (k.seen b).preqAt = k.preqAt := by cases b <;> rfl
@[simp] theorem Core.seen_expd (k : Core) (b : Bool) : (k.seen b).expd = k.expd := by cases b <;> rfl
@[simp] theorem Core.seen_gone (k : Core) (b : Bool) : (k.seen b).gone = k.gone := by cases b <;> rfl
@[simp] theorem Core.seen_ups (k : Core) (b : Bool) : (k.seen b).ups = k.ups := by cases b <;> rfl
@[simp] theorem Core.seen_wbUps (k : Core) (b : Bool) : (k.seen b).wbUps = k.wbUps := by cases b <;> rfl

/-! `Core.setTag`. -/

@[simp] theorem Core.setTag_r (k : Core) (a : Nat) (b : Bool) : (k.setTag a b).r = k.r := rfl
@[simp] theorem Core.setTag_c (k : Core) (a : Nat) (b : Bool) : (k.setTag a b).c = k.c := rfl
@[simp] theorem Core.setTag_pc (k : Core) (a : Nat) (b : Bool) : (k.setTag a b).pc = k.pc := rfl
@[simp] theorem Core.setTag_stat (k : Core) (a : Nat) (b : Bool) : (k.setTag a b).stat = k.stat := rfl
@[simp] theorem Core.setTag_ready (k : Core) (a : Nat) (b : Bool) : (k.setTag a b).ready = k.ready := rfl
@[simp] theorem Core.setTag_waitFrom (k : Core) (a : Nat) (b : Bool) : (k.setTag a b).waitFrom = k.waitFrom := rfl
@[simp] theorem Core.setTag_waitVal (k : Core) (a : Nat) (b : Bool) : (k.setTag a b).waitVal = k.waitVal := rfl
@[simp] theorem Core.setTag_wbuf (k : Core) (a : Nat) (b : Bool) : (k.setTag a b).wbuf = k.wbuf := rfl
@[simp] theorem Core.setTag_wpend (k : Core) (a : Nat) (b : Bool) : (k.setTag a b).wpend = k.wpend := rfl
@[simp] theorem Core.setTag_wReady (k : Core) (a : Nat) (b : Bool) : (k.setTag a b).wReady = k.wReady := rfl
@[simp] theorem Core.setTag_wFrom (k : Core) (a : Nat) (b : Bool) : (k.setTag a b).wFrom = k.wFrom := rfl
@[simp] theorem Core.setTag_wVal (k : Core) (a : Nat) (b : Bool) : (k.setTag a b).wVal = k.wVal := rfl
@[simp] theorem Core.setTag_park (k : Core) (a : Nat) (b : Bool) : (k.setTag a b).park = k.park := rfl
@[simp] theorem Core.setTag_str (k : Core) (a : Nat) (b : Bool) : (k.setTag a b).str = k.str := rfl
@[simp] theorem Core.setTag_pread (k : Core) (a : Nat) (b : Bool) : (k.setTag a b).pread = k.pread := rfl
@[simp] theorem Core.setTag_act (k : Core) (a : Nat) (b : Bool) : (k.setTag a b).act = k.act := rfl
@[simp] theorem Core.setTag_qinfo (k : Core) (a : Nat) (b : Bool) : (k.setTag a b).qinfo = k.qinfo := rfl
@[simp] theorem Core.setTag_sAfter (k : Core) (a : Nat) (b : Bool) : (k.setTag a b).sAfter = k.sAfter := rfl
@[simp] theorem Core.setTag_wAfter (k : Core) (a : Nat) (b : Bool) : (k.setTag a b).wAfter = k.wAfter := rfl
@[simp] theorem Core.setTag_regsB (k : Core) (a : Nat) (b : Bool) : (k.setTag a b).regsB = k.regsB := rfl
@[simp] theorem Core.setTag_inbox (k : Core) (a : Nat) (b : Bool) : (k.setTag a b).inbox = k.inbox := rfl
@[simp] theorem Core.setTag_age (k : Core) (a : Nat) (b : Bool) : (k.setTag a b).age = k.age := rfl
@[simp] theorem Core.setTag_seqs (k : Core) (a : Nat) (b : Bool) : (k.setTag a b).seqs = k.seqs := rfl
@[simp] theorem Core.setTag_outb (k : Core) (a : Nat) (b : Bool) : (k.setTag a b).outb = k.outb := rfl
@[simp] theorem Core.setTag_sp (k : Core) (a : Nat) (b : Bool) : (k.setTag a b).sp = k.sp := rfl
@[simp] theorem Core.setTag_late (k : Core) (a : Nat) (b : Bool) : (k.setTag a b).late = k.late := rfl
@[simp] theorem Core.setTag_acc (k : Core) (a : Nat) (b : Bool) : (k.setTag a b).acc = k.acc := rfl
@[simp] theorem Core.setTag_sl (k : Core) (a : Nat) (b : Bool) : (k.setTag a b).sl = k.sl := rfl
@[simp] theorem Core.setTag_jobs (k : Core) (a : Nat) (b : Bool) : (k.setTag a b).jobs = k.jobs := rfl
@[simp] theorem Core.setTag_armed (k : Core) (a : Nat) (b : Bool) : (k.setTag a b).armed = k.armed := rfl
@[simp] theorem Core.setTag_itlb (k : Core) (a : Nat) (b : Bool) : (k.setTag a b).itlb = k.itlb := rfl
@[simp] theorem Core.setTag_dtlb (k : Core) (a : Nat) (b : Bool) : (k.setTag a b).dtlb = k.dtlb := rfl
@[simp] theorem Core.setTag_stlb (k : Core) (a : Nat) (b : Bool) : (k.setTag a b).stlb = k.stlb := rfl
@[simp] theorem Core.setTag_runs (k : Core) (a : Nat) (b : Bool) : (k.setTag a b).runs = k.runs := rfl
@[simp] theorem Core.setTag_res (k : Core) (a : Nat) (b : Bool) : (k.setTag a b).res = k.res := rfl
@[simp] theorem Core.setTag_dbg (k : Core) (a : Nat) (b : Bool) : (k.setTag a b).dbg = k.dbg := rfl
@[simp] theorem Core.setTag_phys (k : Core) (a : Nat) (b : Bool) : (k.setTag a b).phys = k.phys := rfl
@[simp] theorem Core.setTag_preqAt (k : Core) (a : Nat) (b : Bool) : (k.setTag a b).preqAt = k.preqAt := rfl
@[simp] theorem Core.setTag_expd (k : Core) (a : Nat) (b : Bool) : (k.setTag a b).expd = k.expd := rfl
@[simp] theorem Core.setTag_gone (k : Core) (a : Nat) (b : Bool) : (k.setTag a b).gone = k.gone := rfl
@[simp] theorem Core.setTag_ups (k : Core) (a : Nat) (b : Bool) : (k.setTag a b).ups = k.ups := rfl
@[simp] theorem Core.setTag_wbUps (k : Core) (a : Nat) (b : Bool) : (k.setTag a b).wbUps = k.wbUps := rfl

/-! `Core.raise`. -/

@[simp] theorem Core.raise_r (k : Core) (f : BitVec 5) : (k.raise f).r = k.r := rfl
@[simp] theorem Core.raise_pc (k : Core) (f : BitVec 5) : (k.raise f).pc = k.pc := rfl
@[simp] theorem Core.raise_stat (k : Core) (f : BitVec 5) : (k.raise f).stat = k.stat := rfl
@[simp] theorem Core.raise_ready (k : Core) (f : BitVec 5) : (k.raise f).ready = k.ready := rfl
@[simp] theorem Core.raise_waitFrom (k : Core) (f : BitVec 5) : (k.raise f).waitFrom = k.waitFrom := rfl
@[simp] theorem Core.raise_waitVal (k : Core) (f : BitVec 5) : (k.raise f).waitVal = k.waitVal := rfl
@[simp] theorem Core.raise_wbuf (k : Core) (f : BitVec 5) : (k.raise f).wbuf = k.wbuf := rfl
@[simp] theorem Core.raise_wpend (k : Core) (f : BitVec 5) : (k.raise f).wpend = k.wpend := rfl
@[simp] theorem Core.raise_wReady (k : Core) (f : BitVec 5) : (k.raise f).wReady = k.wReady := rfl
@[simp] theorem Core.raise_wFrom (k : Core) (f : BitVec 5) : (k.raise f).wFrom = k.wFrom := rfl
@[simp] theorem Core.raise_wVal (k : Core) (f : BitVec 5) : (k.raise f).wVal = k.wVal := rfl
@[simp] theorem Core.raise_park (k : Core) (f : BitVec 5) : (k.raise f).park = k.park := rfl
@[simp] theorem Core.raise_str (k : Core) (f : BitVec 5) : (k.raise f).str = k.str := rfl
@[simp] theorem Core.raise_pread (k : Core) (f : BitVec 5) : (k.raise f).pread = k.pread := rfl
@[simp] theorem Core.raise_act (k : Core) (f : BitVec 5) : (k.raise f).act = k.act := rfl
@[simp] theorem Core.raise_qinfo (k : Core) (f : BitVec 5) : (k.raise f).qinfo = k.qinfo := rfl
@[simp] theorem Core.raise_sAfter (k : Core) (f : BitVec 5) : (k.raise f).sAfter = k.sAfter := rfl
@[simp] theorem Core.raise_wAfter (k : Core) (f : BitVec 5) : (k.raise f).wAfter = k.wAfter := rfl
@[simp] theorem Core.raise_regsB (k : Core) (f : BitVec 5) : (k.raise f).regsB = k.regsB := rfl
@[simp] theorem Core.raise_inbox (k : Core) (f : BitVec 5) : (k.raise f).inbox = k.inbox := rfl
@[simp] theorem Core.raise_age (k : Core) (f : BitVec 5) : (k.raise f).age = k.age := rfl
@[simp] theorem Core.raise_seqs (k : Core) (f : BitVec 5) : (k.raise f).seqs = k.seqs := rfl
@[simp] theorem Core.raise_outb (k : Core) (f : BitVec 5) : (k.raise f).outb = k.outb := rfl
@[simp] theorem Core.raise_sp (k : Core) (f : BitVec 5) : (k.raise f).sp = k.sp := rfl
@[simp] theorem Core.raise_late (k : Core) (f : BitVec 5) : (k.raise f).late = k.late := rfl
@[simp] theorem Core.raise_empties (k : Core) (f : BitVec 5) : (k.raise f).empties = k.empties := rfl
@[simp] theorem Core.raise_acc (k : Core) (f : BitVec 5) : (k.raise f).acc = k.acc := rfl
@[simp] theorem Core.raise_sl (k : Core) (f : BitVec 5) : (k.raise f).sl = k.sl := rfl
@[simp] theorem Core.raise_jobs (k : Core) (f : BitVec 5) : (k.raise f).jobs = k.jobs := rfl
@[simp] theorem Core.raise_armed (k : Core) (f : BitVec 5) : (k.raise f).armed = k.armed := rfl
@[simp] theorem Core.raise_itlb (k : Core) (f : BitVec 5) : (k.raise f).itlb = k.itlb := rfl
@[simp] theorem Core.raise_dtlb (k : Core) (f : BitVec 5) : (k.raise f).dtlb = k.dtlb := rfl
@[simp] theorem Core.raise_stlb (k : Core) (f : BitVec 5) : (k.raise f).stlb = k.stlb := rfl
@[simp] theorem Core.raise_runs (k : Core) (f : BitVec 5) : (k.raise f).runs = k.runs := rfl
@[simp] theorem Core.raise_res (k : Core) (f : BitVec 5) : (k.raise f).res = k.res := rfl
@[simp] theorem Core.raise_dbg (k : Core) (f : BitVec 5) : (k.raise f).dbg = k.dbg := rfl
@[simp] theorem Core.raise_phys (k : Core) (f : BitVec 5) : (k.raise f).phys = k.phys := rfl
@[simp] theorem Core.raise_preqAt (k : Core) (f : BitVec 5) : (k.raise f).preqAt = k.preqAt := rfl
@[simp] theorem Core.raise_expd (k : Core) (f : BitVec 5) : (k.raise f).expd = k.expd := rfl
@[simp] theorem Core.raise_gone (k : Core) (f : BitVec 5) : (k.raise f).gone = k.gone := rfl
@[simp] theorem Core.raise_ups (k : Core) (f : BitVec 5) : (k.raise f).ups = k.ups := rfl
@[simp] theorem Core.raise_wbUps (k : Core) (f : BitVec 5) : (k.raise f).wbUps = k.wbUps := rfl

/-! `Core.writeCorestat`. -/

@[simp] theorem Core.writeCorestat_r (k : Core) (x : Word) : (k.writeCorestat x).r = k.r := rfl
@[simp] theorem Core.writeCorestat_pc (k : Core) (x : Word) : (k.writeCorestat x).pc = k.pc := rfl
@[simp] theorem Core.writeCorestat_stat (k : Core) (x : Word) : (k.writeCorestat x).stat = k.stat := rfl
@[simp] theorem Core.writeCorestat_ready (k : Core) (x : Word) : (k.writeCorestat x).ready = k.ready := rfl
@[simp] theorem Core.writeCorestat_waitFrom (k : Core) (x : Word) : (k.writeCorestat x).waitFrom = k.waitFrom := rfl
@[simp] theorem Core.writeCorestat_waitVal (k : Core) (x : Word) : (k.writeCorestat x).waitVal = k.waitVal := rfl
@[simp] theorem Core.writeCorestat_wbuf (k : Core) (x : Word) : (k.writeCorestat x).wbuf = k.wbuf := rfl
@[simp] theorem Core.writeCorestat_wpend (k : Core) (x : Word) : (k.writeCorestat x).wpend = k.wpend := rfl
@[simp] theorem Core.writeCorestat_wReady (k : Core) (x : Word) : (k.writeCorestat x).wReady = k.wReady := rfl
@[simp] theorem Core.writeCorestat_wFrom (k : Core) (x : Word) : (k.writeCorestat x).wFrom = k.wFrom := rfl
@[simp] theorem Core.writeCorestat_wVal (k : Core) (x : Word) : (k.writeCorestat x).wVal = k.wVal := rfl
@[simp] theorem Core.writeCorestat_park (k : Core) (x : Word) : (k.writeCorestat x).park = k.park := rfl
@[simp] theorem Core.writeCorestat_str (k : Core) (x : Word) : (k.writeCorestat x).str = k.str := rfl
@[simp] theorem Core.writeCorestat_pread (k : Core) (x : Word) : (k.writeCorestat x).pread = k.pread := rfl
@[simp] theorem Core.writeCorestat_act (k : Core) (x : Word) : (k.writeCorestat x).act = k.act := rfl
@[simp] theorem Core.writeCorestat_qinfo (k : Core) (x : Word) : (k.writeCorestat x).qinfo = k.qinfo := rfl
@[simp] theorem Core.writeCorestat_sAfter (k : Core) (x : Word) : (k.writeCorestat x).sAfter = k.sAfter := rfl
@[simp] theorem Core.writeCorestat_wAfter (k : Core) (x : Word) : (k.writeCorestat x).wAfter = k.wAfter := rfl
@[simp] theorem Core.writeCorestat_regsB (k : Core) (x : Word) : (k.writeCorestat x).regsB = k.regsB := rfl
@[simp] theorem Core.writeCorestat_inbox (k : Core) (x : Word) : (k.writeCorestat x).inbox = k.inbox := rfl
@[simp] theorem Core.writeCorestat_age (k : Core) (x : Word) : (k.writeCorestat x).age = k.age := rfl
@[simp] theorem Core.writeCorestat_seqs (k : Core) (x : Word) : (k.writeCorestat x).seqs = k.seqs := rfl
@[simp] theorem Core.writeCorestat_outb (k : Core) (x : Word) : (k.writeCorestat x).outb = k.outb := rfl
@[simp] theorem Core.writeCorestat_sp (k : Core) (x : Word) : (k.writeCorestat x).sp = k.sp := rfl
@[simp] theorem Core.writeCorestat_late (k : Core) (x : Word) : (k.writeCorestat x).late = k.late := rfl
@[simp] theorem Core.writeCorestat_empties (k : Core) (x : Word) : (k.writeCorestat x).empties = k.empties := rfl
@[simp] theorem Core.writeCorestat_acc (k : Core) (x : Word) : (k.writeCorestat x).acc = k.acc := rfl
@[simp] theorem Core.writeCorestat_sl (k : Core) (x : Word) : (k.writeCorestat x).sl = k.sl := rfl
@[simp] theorem Core.writeCorestat_jobs (k : Core) (x : Word) : (k.writeCorestat x).jobs = k.jobs := rfl
@[simp] theorem Core.writeCorestat_armed (k : Core) (x : Word) : (k.writeCorestat x).armed = k.armed := rfl
@[simp] theorem Core.writeCorestat_itlb (k : Core) (x : Word) : (k.writeCorestat x).itlb = k.itlb := rfl
@[simp] theorem Core.writeCorestat_dtlb (k : Core) (x : Word) : (k.writeCorestat x).dtlb = k.dtlb := rfl
@[simp] theorem Core.writeCorestat_stlb (k : Core) (x : Word) : (k.writeCorestat x).stlb = k.stlb := rfl
@[simp] theorem Core.writeCorestat_runs (k : Core) (x : Word) : (k.writeCorestat x).runs = k.runs := rfl
@[simp] theorem Core.writeCorestat_res (k : Core) (x : Word) : (k.writeCorestat x).res = k.res := rfl
@[simp] theorem Core.writeCorestat_dbg (k : Core) (x : Word) : (k.writeCorestat x).dbg = k.dbg := rfl
@[simp] theorem Core.writeCorestat_phys (k : Core) (x : Word) : (k.writeCorestat x).phys = k.phys := rfl
@[simp] theorem Core.writeCorestat_preqAt (k : Core) (x : Word) : (k.writeCorestat x).preqAt = k.preqAt := rfl
@[simp] theorem Core.writeCorestat_expd (k : Core) (x : Word) : (k.writeCorestat x).expd = k.expd := rfl
@[simp] theorem Core.writeCorestat_gone (k : Core) (x : Word) : (k.writeCorestat x).gone = k.gone := rfl
@[simp] theorem Core.writeCorestat_ups (k : Core) (x : Word) : (k.writeCorestat x).ups = k.ups := rfl
@[simp] theorem Core.writeCorestat_wbUps (k : Core) (x : Word) : (k.writeCorestat x).wbUps = k.wbUps := rfl

/-! `Core.setIq`. -/

@[simp] theorem Core.setIq_r (k : Core) (q : BitVec 2) (l : List InSlot) : (k.setIq q l).r = k.r := rfl
@[simp] theorem Core.setIq_c (k : Core) (q : BitVec 2) (l : List InSlot) : (k.setIq q l).c = k.c := rfl
@[simp] theorem Core.setIq_pc (k : Core) (q : BitVec 2) (l : List InSlot) : (k.setIq q l).pc = k.pc := rfl
@[simp] theorem Core.setIq_stat (k : Core) (q : BitVec 2) (l : List InSlot) : (k.setIq q l).stat = k.stat := rfl
@[simp] theorem Core.setIq_ready (k : Core) (q : BitVec 2) (l : List InSlot) : (k.setIq q l).ready = k.ready := rfl
@[simp] theorem Core.setIq_waitFrom (k : Core) (q : BitVec 2) (l : List InSlot) : (k.setIq q l).waitFrom = k.waitFrom := rfl
@[simp] theorem Core.setIq_waitVal (k : Core) (q : BitVec 2) (l : List InSlot) : (k.setIq q l).waitVal = k.waitVal := rfl
@[simp] theorem Core.setIq_wbuf (k : Core) (q : BitVec 2) (l : List InSlot) : (k.setIq q l).wbuf = k.wbuf := rfl
@[simp] theorem Core.setIq_wpend (k : Core) (q : BitVec 2) (l : List InSlot) : (k.setIq q l).wpend = k.wpend := rfl
@[simp] theorem Core.setIq_wReady (k : Core) (q : BitVec 2) (l : List InSlot) : (k.setIq q l).wReady = k.wReady := rfl
@[simp] theorem Core.setIq_wFrom (k : Core) (q : BitVec 2) (l : List InSlot) : (k.setIq q l).wFrom = k.wFrom := rfl
@[simp] theorem Core.setIq_wVal (k : Core) (q : BitVec 2) (l : List InSlot) : (k.setIq q l).wVal = k.wVal := rfl
@[simp] theorem Core.setIq_park (k : Core) (q : BitVec 2) (l : List InSlot) : (k.setIq q l).park = k.park := rfl
@[simp] theorem Core.setIq_str (k : Core) (q : BitVec 2) (l : List InSlot) : (k.setIq q l).str = k.str := rfl
@[simp] theorem Core.setIq_pread (k : Core) (q : BitVec 2) (l : List InSlot) : (k.setIq q l).pread = k.pread := rfl
@[simp] theorem Core.setIq_act (k : Core) (q : BitVec 2) (l : List InSlot) : (k.setIq q l).act = k.act := rfl
@[simp] theorem Core.setIq_qinfo (k : Core) (q : BitVec 2) (l : List InSlot) : (k.setIq q l).qinfo = k.qinfo := rfl
@[simp] theorem Core.setIq_sAfter (k : Core) (q : BitVec 2) (l : List InSlot) : (k.setIq q l).sAfter = k.sAfter := rfl
@[simp] theorem Core.setIq_wAfter (k : Core) (q : BitVec 2) (l : List InSlot) : (k.setIq q l).wAfter = k.wAfter := rfl
@[simp] theorem Core.setIq_regsB (k : Core) (q : BitVec 2) (l : List InSlot) : (k.setIq q l).regsB = k.regsB := rfl
@[simp] theorem Core.setIq_age (k : Core) (q : BitVec 2) (l : List InSlot) : (k.setIq q l).age = k.age := rfl
@[simp] theorem Core.setIq_seqs (k : Core) (q : BitVec 2) (l : List InSlot) : (k.setIq q l).seqs = k.seqs := rfl
@[simp] theorem Core.setIq_outb (k : Core) (q : BitVec 2) (l : List InSlot) : (k.setIq q l).outb = k.outb := rfl
@[simp] theorem Core.setIq_sp (k : Core) (q : BitVec 2) (l : List InSlot) : (k.setIq q l).sp = k.sp := rfl
@[simp] theorem Core.setIq_late (k : Core) (q : BitVec 2) (l : List InSlot) : (k.setIq q l).late = k.late := rfl
@[simp] theorem Core.setIq_empties (k : Core) (q : BitVec 2) (l : List InSlot) : (k.setIq q l).empties = k.empties := rfl
@[simp] theorem Core.setIq_acc (k : Core) (q : BitVec 2) (l : List InSlot) : (k.setIq q l).acc = k.acc := rfl
@[simp] theorem Core.setIq_sl (k : Core) (q : BitVec 2) (l : List InSlot) : (k.setIq q l).sl = k.sl := rfl
@[simp] theorem Core.setIq_jobs (k : Core) (q : BitVec 2) (l : List InSlot) : (k.setIq q l).jobs = k.jobs := rfl
@[simp] theorem Core.setIq_armed (k : Core) (q : BitVec 2) (l : List InSlot) : (k.setIq q l).armed = k.armed := rfl
@[simp] theorem Core.setIq_itlb (k : Core) (q : BitVec 2) (l : List InSlot) : (k.setIq q l).itlb = k.itlb := rfl
@[simp] theorem Core.setIq_dtlb (k : Core) (q : BitVec 2) (l : List InSlot) : (k.setIq q l).dtlb = k.dtlb := rfl
@[simp] theorem Core.setIq_stlb (k : Core) (q : BitVec 2) (l : List InSlot) : (k.setIq q l).stlb = k.stlb := rfl
@[simp] theorem Core.setIq_runs (k : Core) (q : BitVec 2) (l : List InSlot) : (k.setIq q l).runs = k.runs := rfl
@[simp] theorem Core.setIq_res (k : Core) (q : BitVec 2) (l : List InSlot) : (k.setIq q l).res = k.res := rfl
@[simp] theorem Core.setIq_dbg (k : Core) (q : BitVec 2) (l : List InSlot) : (k.setIq q l).dbg = k.dbg := rfl
@[simp] theorem Core.setIq_phys (k : Core) (q : BitVec 2) (l : List InSlot) : (k.setIq q l).phys = k.phys := rfl
@[simp] theorem Core.setIq_preqAt (k : Core) (q : BitVec 2) (l : List InSlot) : (k.setIq q l).preqAt = k.preqAt := rfl
@[simp] theorem Core.setIq_expd (k : Core) (q : BitVec 2) (l : List InSlot) : (k.setIq q l).expd = k.expd := rfl
@[simp] theorem Core.setIq_gone (k : Core) (q : BitVec 2) (l : List InSlot) : (k.setIq q l).gone = k.gone := rfl
@[simp] theorem Core.setIq_ups (k : Core) (q : BitVec 2) (l : List InSlot) : (k.setIq q l).ups = k.ups := rfl
@[simp] theorem Core.setIq_wbUps (k : Core) (q : BitVec 2) (l : List InSlot) : (k.setIq q l).wbUps = k.wbUps := rfl

/-! `Core.evalArmed`. -/

@[simp] theorem Core.evalArmed_r (k : Core) (a t : Nat) : (k.evalArmed a t).r = k.r := rfl
@[simp] theorem Core.evalArmed_c (k : Core) (a t : Nat) : (k.evalArmed a t).c = k.c := rfl
@[simp] theorem Core.evalArmed_pc (k : Core) (a t : Nat) : (k.evalArmed a t).pc = k.pc := rfl
@[simp] theorem Core.evalArmed_stat (k : Core) (a t : Nat) : (k.evalArmed a t).stat = k.stat := rfl
@[simp] theorem Core.evalArmed_ready (k : Core) (a t : Nat) : (k.evalArmed a t).ready = k.ready := rfl
@[simp] theorem Core.evalArmed_waitFrom (k : Core) (a t : Nat) : (k.evalArmed a t).waitFrom = k.waitFrom := rfl
@[simp] theorem Core.evalArmed_waitVal (k : Core) (a t : Nat) : (k.evalArmed a t).waitVal = k.waitVal := rfl
@[simp] theorem Core.evalArmed_wbuf (k : Core) (a t : Nat) : (k.evalArmed a t).wbuf = k.wbuf := rfl
@[simp] theorem Core.evalArmed_wpend (k : Core) (a t : Nat) : (k.evalArmed a t).wpend = k.wpend := rfl
@[simp] theorem Core.evalArmed_wReady (k : Core) (a t : Nat) : (k.evalArmed a t).wReady = k.wReady := rfl
@[simp] theorem Core.evalArmed_wFrom (k : Core) (a t : Nat) : (k.evalArmed a t).wFrom = k.wFrom := rfl
@[simp] theorem Core.evalArmed_wVal (k : Core) (a t : Nat) : (k.evalArmed a t).wVal = k.wVal := rfl
@[simp] theorem Core.evalArmed_park (k : Core) (a t : Nat) : (k.evalArmed a t).park = k.park := rfl
@[simp] theorem Core.evalArmed_str (k : Core) (a t : Nat) : (k.evalArmed a t).str = k.str := rfl
@[simp] theorem Core.evalArmed_pread (k : Core) (a t : Nat) : (k.evalArmed a t).pread = k.pread := rfl
@[simp] theorem Core.evalArmed_act (k : Core) (a t : Nat) : (k.evalArmed a t).act = k.act := rfl
@[simp] theorem Core.evalArmed_qinfo (k : Core) (a t : Nat) : (k.evalArmed a t).qinfo = k.qinfo := rfl
@[simp] theorem Core.evalArmed_sAfter (k : Core) (a t : Nat) : (k.evalArmed a t).sAfter = k.sAfter := rfl
@[simp] theorem Core.evalArmed_wAfter (k : Core) (a t : Nat) : (k.evalArmed a t).wAfter = k.wAfter := rfl
@[simp] theorem Core.evalArmed_regsB (k : Core) (a t : Nat) : (k.evalArmed a t).regsB = k.regsB := rfl
@[simp] theorem Core.evalArmed_inbox (k : Core) (a t : Nat) : (k.evalArmed a t).inbox = k.inbox := rfl
@[simp] theorem Core.evalArmed_age (k : Core) (a t : Nat) : (k.evalArmed a t).age = k.age := rfl
@[simp] theorem Core.evalArmed_seqs (k : Core) (a t : Nat) : (k.evalArmed a t).seqs = k.seqs := rfl
@[simp] theorem Core.evalArmed_outb (k : Core) (a t : Nat) : (k.evalArmed a t).outb = k.outb := rfl
@[simp] theorem Core.evalArmed_sp (k : Core) (a t : Nat) : (k.evalArmed a t).sp = k.sp := rfl
@[simp] theorem Core.evalArmed_late (k : Core) (a t : Nat) : (k.evalArmed a t).late = k.late := rfl
@[simp] theorem Core.evalArmed_empties (k : Core) (a t : Nat) : (k.evalArmed a t).empties = k.empties := rfl
@[simp] theorem Core.evalArmed_acc (k : Core) (a t : Nat) : (k.evalArmed a t).acc = k.acc := rfl
@[simp] theorem Core.evalArmed_sl (k : Core) (a t : Nat) : (k.evalArmed a t).sl = k.sl := rfl
@[simp] theorem Core.evalArmed_jobs (k : Core) (a t : Nat) : (k.evalArmed a t).jobs = k.jobs := rfl
@[simp] theorem Core.evalArmed_itlb (k : Core) (a t : Nat) : (k.evalArmed a t).itlb = k.itlb := rfl
@[simp] theorem Core.evalArmed_dtlb (k : Core) (a t : Nat) : (k.evalArmed a t).dtlb = k.dtlb := rfl
@[simp] theorem Core.evalArmed_stlb (k : Core) (a t : Nat) : (k.evalArmed a t).stlb = k.stlb := rfl
@[simp] theorem Core.evalArmed_runs (k : Core) (a t : Nat) : (k.evalArmed a t).runs = k.runs := rfl
@[simp] theorem Core.evalArmed_res (k : Core) (a t : Nat) : (k.evalArmed a t).res = k.res := rfl
@[simp] theorem Core.evalArmed_dbg (k : Core) (a t : Nat) : (k.evalArmed a t).dbg = k.dbg := rfl
@[simp] theorem Core.evalArmed_phys (k : Core) (a t : Nat) : (k.evalArmed a t).phys = k.phys := rfl
@[simp] theorem Core.evalArmed_preqAt (k : Core) (a t : Nat) : (k.evalArmed a t).preqAt = k.preqAt := rfl
@[simp] theorem Core.evalArmed_expd (k : Core) (a t : Nat) : (k.evalArmed a t).expd = k.expd := rfl
@[simp] theorem Core.evalArmed_gone (k : Core) (a t : Nat) : (k.evalArmed a t).gone = k.gone := rfl
@[simp] theorem Core.evalArmed_ups (k : Core) (a t : Nat) : (k.evalArmed a t).ups = k.ups := rfl
@[simp] theorem Core.evalArmed_wbUps (k : Core) (a t : Nat) : (k.evalArmed a t).wbUps = k.wbUps := rfl

/-! `Core.fill`. -/

@[simp] theorem Core.fill_r (k : Core) (b : TBuf) (e : Tlb) : (k.fill b e).r = k.r := by cases b <;> rfl
@[simp] theorem Core.fill_c (k : Core) (b : TBuf) (e : Tlb) : (k.fill b e).c = k.c := by cases b <;> rfl
@[simp] theorem Core.fill_pc (k : Core) (b : TBuf) (e : Tlb) : (k.fill b e).pc = k.pc := by cases b <;> rfl
@[simp] theorem Core.fill_stat (k : Core) (b : TBuf) (e : Tlb) : (k.fill b e).stat = k.stat := by cases b <;> rfl
@[simp] theorem Core.fill_ready (k : Core) (b : TBuf) (e : Tlb) : (k.fill b e).ready = k.ready := by cases b <;> rfl
@[simp] theorem Core.fill_waitFrom (k : Core) (b : TBuf) (e : Tlb) : (k.fill b e).waitFrom = k.waitFrom := by cases b <;> rfl
@[simp] theorem Core.fill_waitVal (k : Core) (b : TBuf) (e : Tlb) : (k.fill b e).waitVal = k.waitVal := by cases b <;> rfl
@[simp] theorem Core.fill_wbuf (k : Core) (b : TBuf) (e : Tlb) : (k.fill b e).wbuf = k.wbuf := by cases b <;> rfl
@[simp] theorem Core.fill_wpend (k : Core) (b : TBuf) (e : Tlb) : (k.fill b e).wpend = k.wpend := by cases b <;> rfl
@[simp] theorem Core.fill_wReady (k : Core) (b : TBuf) (e : Tlb) : (k.fill b e).wReady = k.wReady := by cases b <;> rfl
@[simp] theorem Core.fill_wFrom (k : Core) (b : TBuf) (e : Tlb) : (k.fill b e).wFrom = k.wFrom := by cases b <;> rfl
@[simp] theorem Core.fill_wVal (k : Core) (b : TBuf) (e : Tlb) : (k.fill b e).wVal = k.wVal := by cases b <;> rfl
@[simp] theorem Core.fill_park (k : Core) (b : TBuf) (e : Tlb) : (k.fill b e).park = k.park := by cases b <;> rfl
@[simp] theorem Core.fill_str (k : Core) (b : TBuf) (e : Tlb) : (k.fill b e).str = k.str := by cases b <;> rfl
@[simp] theorem Core.fill_pread (k : Core) (b : TBuf) (e : Tlb) : (k.fill b e).pread = k.pread := by cases b <;> rfl
@[simp] theorem Core.fill_act (k : Core) (b : TBuf) (e : Tlb) : (k.fill b e).act = k.act := by cases b <;> rfl
@[simp] theorem Core.fill_qinfo (k : Core) (b : TBuf) (e : Tlb) : (k.fill b e).qinfo = k.qinfo := by cases b <;> rfl
@[simp] theorem Core.fill_sAfter (k : Core) (b : TBuf) (e : Tlb) : (k.fill b e).sAfter = k.sAfter := by cases b <;> rfl
@[simp] theorem Core.fill_wAfter (k : Core) (b : TBuf) (e : Tlb) : (k.fill b e).wAfter = k.wAfter := by cases b <;> rfl
@[simp] theorem Core.fill_regsB (k : Core) (b : TBuf) (e : Tlb) : (k.fill b e).regsB = k.regsB := by cases b <;> rfl
@[simp] theorem Core.fill_inbox (k : Core) (b : TBuf) (e : Tlb) : (k.fill b e).inbox = k.inbox := by cases b <;> rfl
@[simp] theorem Core.fill_age (k : Core) (b : TBuf) (e : Tlb) : (k.fill b e).age = k.age := by cases b <;> rfl
@[simp] theorem Core.fill_seqs (k : Core) (b : TBuf) (e : Tlb) : (k.fill b e).seqs = k.seqs := by cases b <;> rfl
@[simp] theorem Core.fill_outb (k : Core) (b : TBuf) (e : Tlb) : (k.fill b e).outb = k.outb := by cases b <;> rfl
@[simp] theorem Core.fill_sp (k : Core) (b : TBuf) (e : Tlb) : (k.fill b e).sp = k.sp := by cases b <;> rfl
@[simp] theorem Core.fill_late (k : Core) (b : TBuf) (e : Tlb) : (k.fill b e).late = k.late := by cases b <;> rfl
@[simp] theorem Core.fill_empties (k : Core) (b : TBuf) (e : Tlb) : (k.fill b e).empties = k.empties := by cases b <;> rfl
@[simp] theorem Core.fill_acc (k : Core) (b : TBuf) (e : Tlb) : (k.fill b e).acc = k.acc := by cases b <;> rfl
@[simp] theorem Core.fill_sl (k : Core) (b : TBuf) (e : Tlb) : (k.fill b e).sl = k.sl := by cases b <;> rfl
@[simp] theorem Core.fill_jobs (k : Core) (b : TBuf) (e : Tlb) : (k.fill b e).jobs = k.jobs := by cases b <;> rfl
@[simp] theorem Core.fill_armed (k : Core) (b : TBuf) (e : Tlb) : (k.fill b e).armed = k.armed := by cases b <;> rfl
@[simp] theorem Core.fill_runs (k : Core) (b : TBuf) (e : Tlb) : (k.fill b e).runs = k.runs := by cases b <;> rfl
@[simp] theorem Core.fill_res (k : Core) (b : TBuf) (e : Tlb) : (k.fill b e).res = k.res := by cases b <;> rfl
@[simp] theorem Core.fill_dbg (k : Core) (b : TBuf) (e : Tlb) : (k.fill b e).dbg = k.dbg := by cases b <;> rfl
@[simp] theorem Core.fill_phys (k : Core) (b : TBuf) (e : Tlb) : (k.fill b e).phys = k.phys := by cases b <;> rfl
@[simp] theorem Core.fill_preqAt (k : Core) (b : TBuf) (e : Tlb) : (k.fill b e).preqAt = k.preqAt := by cases b <;> rfl
@[simp] theorem Core.fill_expd (k : Core) (b : TBuf) (e : Tlb) : (k.fill b e).expd = k.expd := by cases b <;> rfl
@[simp] theorem Core.fill_gone (k : Core) (b : TBuf) (e : Tlb) : (k.fill b e).gone = k.gone := by cases b <;> rfl
@[simp] theorem Core.fill_ups (k : Core) (b : TBuf) (e : Tlb) : (k.fill b e).ups = k.ups := by cases b <;> rfl
@[simp] theorem Core.fill_wbUps (k : Core) (b : TBuf) (e : Tlb) : (k.fill b e).wbUps = k.wbUps := by cases b <;> rfl

@[simp] theorem Core.spWrite_sp (k : Core) (a : Nat) (bs : List Byte) : (k.spWrite a bs).sp = Memory.write k.sp a bs := rfl
@[simp] theorem Core.spStore_sp (k : Core) (a : Nat) (bs : List Byte) : (k.spStore a bs).sp = Memory.write k.sp a bs := rfl
@[simp] theorem Core.seen_late (k : Core) (b : Bool) : (k.seen b).late = if b then [] else k.late := by cases b <;> rfl

/-! Registers after a write: s0 reads zero whatever is written to it (R23). -/

@[simp] theorem Core.rs_zero (k : Core) : k.rs 0#5 = 0#64 := rfl
@[simp] theorem Core.ws_zero (k : Core) (x : Word) : k.ws 0#5 x = k := rfl
@[simp] theorem Core.rk_zero (k : Core) : k.rk 0#3 = BitVec.allOnes 48 := rfl
theorem Core.rs_ws_same (k : Core) (r : Reg) (x : Word) (h : r ≠ 0#5) : (k.ws r x).rs r = x := by
  simp [Core.rs, Core.ws, h]
theorem Core.rs_ws_other (k : Core) (r q : Reg) (x : Word) (h : q ≠ r) : (k.ws r x).rs q = k.rs q := by
  have h' : r.toNat ≠ q.toNat := fun e => h (BitVec.eq_of_toNat_eq e.symm)
  by_cases hr : r = 0#5
  · subst hr; rfl
  · by_cases hq : q = 0#5
    · subst hq; rfl
    · simp [Core.rs, Core.ws, hr, hq, Vector.getElem_set_ne, h']
theorem Core.rs_ws (k : Core) (r q : Reg) (x : Word) :
    (k.ws r x).rs q = if q = r ∧ r ≠ 0#5 then x else k.rs q := by
  by_cases hq : q = r
  · subst hq
    by_cases hr : q = 0#5
    · subst hr; simp
    · simp [hr, Core.rs_ws_same]
  · simp [hq, Core.rs_ws_other]
@[simp] theorem Core.rv_ws (k : Core) (r : Reg) (x : Word) (v : VReg) : (k.ws r x).rv v = k.rv v := by
  unfold Core.ws; split <;> rfl
@[simp] theorem Core.rk_ws (k : Core) (r : Reg) (x : Word) (v : KReg) : (k.ws r x).rk v = k.rk v := by
  unfold Core.ws; split <;> rfl
@[simp] theorem Core.rq_ws (k : Core) (r : Reg) (x : Word) (n : BitVec 3) : (k.ws r x).rq n = k.rq n := by
  unfold Core.ws; split <;> rfl
@[simp] theorem Core.r_v_ws (k : Core) (r : Reg) (x : Word) : (k.ws r x).r.v = k.r.v := by unfold Core.ws; split <;> rfl
@[simp] theorem Core.r_k_ws (k : Core) (r : Reg) (x : Word) : (k.ws r x).r.k = k.r.k := by unfold Core.ws; split <;> rfl
@[simp] theorem Core.r_q_ws (k : Core) (r : Reg) (x : Word) : (k.ws r x).r.q = k.r.q := by unfold Core.ws; split <;> rfl
@[simp] theorem Core.rq_wq_same (k : Core) (n : BitVec 3) (x : List Word) : (k.wq n x).rq n = x := by simp [Core.rq, Core.wq]
theorem Core.rq_wq_other (k : Core) (n m : BitVec 3) (x : List Word) (h : m ≠ n) : (k.wq n x).rq m = k.rq m := by
  have h' : n.toNat ≠ m.toNat := fun e => h (BitVec.eq_of_toNat_eq e.symm)
  simp [Core.rq, Core.wq, Vector.getElem_set_ne, h']
@[simp] theorem Core.rq_push_same (k : Core) (n : BitVec 3) (x : Word) (f a : Nat) : (k.push n x f a).rq n = k.rq n ++ [x] := by
  simp [Core.push, Core.rq, Core.wq]
theorem Core.rq_push_other (k : Core) (n m : BitVec 3) (x : Word) (f a : Nat) (h : m ≠ n) : (k.push n x f a).rq m = k.rq m :=
  Core.rq_wq_other k n m _ h
@[simp] theorem Core.rq_pop_same (k : Core) (n : BitVec 3) : (k.pop n).rq n = (k.rq n).tail := by simp [Core.pop, Core.rq, Core.wq]
theorem Core.rq_pop_other (k : Core) (n m : BitVec 3) (h : m ≠ n) : (k.pop n).rq m = k.rq m := Core.rq_wq_other k n m _ h
@[simp] theorem Core.rs_push (k : Core) (n : BitVec 3) (x : Word) (f a : Nat) (r : Reg) : (k.push n x f a).rs r = k.rs r := rfl
@[simp] theorem Core.rs_pop (k : Core) (n : BitVec 3) (r : Reg) : (k.pop n).rs r = k.rs r := rfl
@[simp] theorem Core.rs_wq (k : Core) (n : BitVec 3) (x : List Word) (r : Reg) : (k.wq n x).rs r = k.rs r := rfl

end Sys2Proof.Machine
end

