-- ==== Sys2Proof/Laws/Ops.lean ====
section
/-! SUPPORT. What each shared operation of the S stream can do, said once. -/

namespace Sys2Proof.Machine

/-! Frames compose. -/

theorem State.OnlyCore.refl (s : State) (c : Nat) : s.OnlyCore s c := ⟨rfl, fun _ _ => rfl, fun _ _ => rfl⟩

/-- The trace ring stands where it stood. -/
def SameRing (x y : Core) : Prop := y.dbg.trBase = x.dbg.trBase ∧ y.dbg.trSize = x.dbg.trSize

theorem State.OnlyCore.trans {s t u : State} {c : Nat} (h : s.OnlyCore t c) (r : SameRing (s.core c) (t.core c))
    (g : t.OnlyCore u c) : s.OnlyCore u c := by
  obtain ⟨h1, h2, h3⟩ := h
  obtain ⟨g1, g2, g3⟩ := g
  refine ⟨?_, fun d hd => (g2 d hd).trans (h2 d hd), fun a ha => ?_⟩
  · rw [g1, h1]
  · have : ¬ t.inTrace c a := by
      unfold State.inTrace at ha ⊢
      rw [r.1, r.2]
      exact ha
    exact (g3 a this).trans (h3 a ha)

theorem State.OnlyCore.upd (s : State) (c : Nat) (f : Core → Core) : s.OnlyCore (s.upd c f) c :=
  ⟨rfl, fun _ hd => State.core_upd_other s c _ f hd, fun _ _ => rfl⟩

theorem State.OnlyCore.cur {s t : State} {c : Nat} (h : s.OnlyCore t c) : t.cur = s.cur := by rw [h.1]
theorem State.OnlyCore.cyc {s t : State} {c : Nat} (h : s.OnlyCore t c) : t.cyc = s.cyc := by rw [h.1]
theorem State.OnlyCore.hub {s t : State} {c : Nat} (h : s.OnlyCore t c) : t.hub = s.hub := by rw [h.1]

/-! Trace and counters. -/

theorem leBytes_length (n v : Nat) : (leBytes n v).length = n := by
  induction n generalizing v with
  | zero => rfl
  | succ k ih => simp [leBytes, ih]

/-- A trace record: it moves the ring's position or counts a lost one, and writes within the ring (24 R341). -/
theorem State.trace_spec (s : State) (c : Nat) (k : BitVec 8) (a b d : Word) :
    s.OnlyCore (s.trace c k a b d) c ∧
      ∃ p l, (s.trace c k a b d).core c = { s.core c with dbg := { (s.core c).dbg with trPos := p, lost := l } } := by
  unfold State.trace State.traceAt
  dsimp only
  split
  · exact ⟨.refl s c, (s.core c).dbg.trPos, (s.core c).dbg.lost, rfl⟩
  · split
    · exact ⟨.upd s c _, (s.core c).dbg.trPos, (s.core c).dbg.lost + 1, State.core_upd_same s c _⟩
    · rename_i h2
      generalize hb : leBytes 32 _ = bs
      have hl : bs.length = 32 := by rw [← hb, leBytes_length]
      clear hb
      generalize hm : Memory.write s.mem _ bs = m
      have hout : ∀ x, ¬ s.inTrace c x → Memory.get m x = Memory.get s.mem x := by
        intro x hx
        rw [← hm]
        refine Memory.get_write_outside _ _ _ _ ?_
        unfold State.inTrace at hx
        omega
      exact ⟨⟨rfl, fun e he => State.core_upd_other { s with mem := m } c e _ he, hout⟩, (s.core c).dbg.trPos + 32,
        (s.core c).dbg.lost, State.core_upd_same { s with mem := m } c _⟩

/-- Counting an event touches the counters of the core and its samples (24 R343). -/
theorem State.count_spec (s : State) (c : Nat) (k : BitVec 3) (pc : Word) (w : Bool) :
    s.OnlyCore (s.count c k pc w) c ∧ (s.count c k pc w).mem = s.mem ∧
      ∃ r o, (s.count c k pc w).core c = { s.core c with dbg := { (s.core c).dbg with ctr := r, ovf := o } } := by
  have step : ∀ (l : List Nat) (t : State),
      (s.OnlyCore t c ∧ t.mem = s.mem ∧ ∃ r o, t.core c = { s.core c with dbg := { (s.core c).dbg with ctr := r, ovf := o } }) →
      let u := l.foldl (fun s n =>
        let x := s.core c
        if (x.dbg.code.toList.getD n none) = some k then
          let v := (x.dbg.ctr.toList.getD n 0#48) + 1#48
          let s := s.upd c fun x => { x with dbg := { x.dbg with ctr := x.dbg.ctr.setIfInBounds n v } }
          if v = 0#48 then s.upd c fun x => { x with dbg := { x.dbg with ovf := x.dbg.ovf ++ [(BitVec.ofNat 2 n, k, pc, w, s.cyc)] } } else s
        else s) t
      s.OnlyCore u c ∧ u.mem = s.mem ∧ ∃ r o, u.core c = { s.core c with dbg := { (s.core c).dbg with ctr := r, ovf := o } } := by
    intro l
    induction l with
    | nil => exact fun t h => h
    | cons n l ih =>
      intro t ⟨h1, h2, r, o, h3⟩
      refine ih _ ?_
      have ring : SameRing (s.core c) (t.core c) := by rw [h3]; exact ⟨rfl, rfl⟩
      dsimp only
      split
      · split
        · exact ⟨(h1.trans ring (.upd t c _)).trans (by rw [State.core_upd_same, h3]; exact ⟨rfl, rfl⟩) (.upd _ c _), h2, _, _, by
            rw [State.core_upd_same, State.core_upd_same, h3]⟩
        · exact ⟨h1.trans ring (.upd t c _), h2, _, _, by rw [State.core_upd_same, h3]⟩
      · exact ⟨h1, h2, r, o, h3⟩
  exact step [0, 1, 2, 3] s ⟨.refl s c, rfl, _, _, rfl⟩

theorem State.OnlyCore.ring_trace (s : State) (c : Nat) (k : BitVec 8) (a b d : Word) :
    SameRing (s.core c) ((s.trace c k a b d).core c) := by
  obtain ⟨_, p, l, h⟩ := s.trace_spec c k a b d
  rw [h]; exact ⟨rfl, rfl⟩

/-- A halt of a core: the reason, the time, and a trace record (24 R339). -/
theorem State.halt_spec (s : State) (c : Nat) (k : BitVec 8) :
    s.OnlyCore (s.halt c k) c ∧
      ∃ p l, (s.halt c k).core c =
        { s.core c with dbg := { (s.core c).dbg with halted := true, hcause := k, since := s.cyc, trPos := p, lost := l } } := by
  unfold State.halt
  dsimp only
  obtain ⟨h1, p, l, h2⟩ := (s.upd c fun x => { x with dbg := { x.dbg with halted := true, hcause := k, since := s.cyc } }).trace_spec
    c 6#8 (k.setWidth 64) ((s.upd c fun x => { x with dbg := { x.dbg with halted := true, hcause := k, since := s.cyc } }).core c).pc 0#64
  refine ⟨(State.OnlyCore.upd s c _).trans (by rw [State.core_upd_same]; exact ⟨rfl, rfl⟩) h1, p, l, ?_⟩
  rw [h2, State.core_upd_same]

/-- The end of an instruction halts the core when a single step was asked for (24 R339). -/
theorem State.stepEnd_spec (s : State) (c : Nat) :
    s.OnlyCore (s.stepEnd c) c ∧
      ∃ d, (s.stepEnd c).core c = { s.core c with dbg := d } ∧
        d = { (s.core c).dbg with
          step := false, halted := d.halted, hcause := d.hcause, since := d.since, trPos := d.trPos, lost := d.lost } ∧
        ((s.core c).dbg.step = false → d = (s.core c).dbg) := by
  unfold State.stepEnd
  split
  · rename_i h
    obtain ⟨h1, p, l, h2⟩ := (s.upd c fun x => { x with dbg := { x.dbg with step := false } }).halt_spec c 2#8
    rw [State.core_upd_same] at h2
    exact ⟨(State.OnlyCore.upd s c _).trans (by rw [State.core_upd_same]; exact ⟨rfl, rfl⟩) h1, _, h2, rfl,
      fun h' => absurd (h.symm.trans h') (by decide)⟩
  · rename_i h
    have h0 : (s.core c).dbg.step = false := by simpa using h
    refine ⟨.refl s c, (s.core c).dbg, rfl, ?_, fun _ => rfl⟩
    generalize (s.core c).dbg = d at h0
    cases d
    subst h0
    rfl

/-- An effect of an instruction that has nothing to do with the debug module. -/
def DbgBlind (f : Core → Core) : Prop := ∀ x d, f { x with dbg := d } = { f x with dbg := d }

/-- Completion of an S instruction, all that it does (05 R78). -/
theorem State.sGo_spec (s : State) (pc : Word) (cost : Nat) (f : Core → Core) (hf : DbgBlind f) :
    s.Goes (s.sGo pc cost f) pc cost f := by
  unfold State.sGo
  dsimp only
  obtain ⟨h1, -, r, o, h2⟩ := s.count_spec s.cur 1#3 s.me.pc false
  generalize hs1 : s.count s.cur 1#3 s.me.pc false = s1 at h1 h2 ⊢
  have hc : s1.cur = s.cur := h1.cur
  have hme : s1.me = { s.me with dbg := { s.me.dbg with ctr := r, ovf := o } } := by rw [State.me_eq, hc, h2]; rfl
  generalize hs2 : s1.updMe _ = s2
  have hcy : s1.cyc = s.cyc := h1.cyc
  have h3 : s2.core s.cur = { f s.me with
      pc := pc, ready := s.cyc + cost, waitFrom := none, stat := .run, pread := tDel s.me.pread 0
      dbg := { s.me.dbg with ctr := r, ovf := o, skip := false } } := by
    rw [← hs2, State.updMe_eq, hc, State.core_upd_same, ← hc, ← State.me_eq, hme, hf, hcy]
  have o2 : s.OnlyCore s2 s.cur := by
    rw [← hs2, State.updMe_eq, hc]
    exact h1.trans (by rw [h2]; exact ⟨rfl, rfl⟩) (.upd s1 s.cur _)
  obtain ⟨h4, d, h5, h6, h7⟩ := s2.stepEnd_spec s.cur
  have hc2 : s1.cur = s.cur := hc
  rw [hc]
  have o3 : s.OnlyCore (s2.stepEnd s.cur) s.cur := o2.trans (by rw [h3]; exact ⟨rfl, rfl⟩) h4
  have hm : (s2.stepEnd s.cur).me = { f s.me with
      pc := pc, ready := s.cyc + cost, waitFrom := none, stat := .run, pread := tDel s.me.pread 0, dbg := d } := by
    rw [State.me_eq, o3.cur, h5, h3]
  refine ⟨o3, ?_, by rw [hm]⟩
  rw [hm]
  rw [h3] at h6 h7
  refine ⟨?_, ?_, fun hstep => ?_⟩
  · have hr : d.ctr = r ∧ d.ovf = o ∧ d.skip = false := by rw [h6]; exact ⟨rfl, rfl, rfl⟩
    rw [hr.1, hr.2.1]
    have : d.hit = s.me.dbg.hit := by rw [h6]
    rw [this]
    exact h6
  · have : d.hit = s.me.dbg.hit := by rw [h6]
    exact fun _ => this
  · have := h7 hstep
    rw [this]
    exact ⟨rfl, rfl, rfl, rfl, rfl⟩

theorem State.sDone_spec (s : State) (words cost : Nat) (f : Core → Core) (hf : DbgBlind f) :
    s.Completes (s.sDone words cost f) words cost f := s.sGo_spec _ _ f hf

theorem dbgBlind_id : DbgBlind id := fun _ _ => rfl
theorem spRead_dbg (x : Core) (d : Dbg) (n : Nat) : ∀ o, ({ x with dbg := d } : Core).spRead o n = x.spRead o n := by
  induction n with
  | zero => intro o; rfl
  | succ k ih => intro o; simp only [Core.spRead, ih]; rfl
theorem dbgBlind_spStore (o : Nat) (bs : List Byte) : DbgBlind fun c => c.spStore o bs := by
  intro x d
  simp only [Core.spStore, spRead_dbg]
theorem dbgBlind_seen (b : Bool) : DbgBlind (Core.seen b) := by intro x d; cases b <;> rfl
theorem dbgBlind_ws (d : Reg) (v : Word) : DbgBlind fun c => c.ws d v := by
  intro x e
  unfold Core.ws
  split <;> rfl

theorem DbgBlind.comp {f g : Core → Core} (hf : DbgBlind f) (hg : DbgBlind g) : DbgBlind fun c => g (f c) := by
  intro x e
  show g (f { x with dbg := e }) = { g (f x) with dbg := e }
  rw [hf, hg]

/-- A completion whose effect is a write to a register, in the words of the claims. -/
theorem computes_of_completes {s t : State} {words cost : Nat} {d : Reg} {v : Word}
    (h : s.Completes t words cost fun c => c.ws d v) : s.Computes t words cost d v := by
  refine ⟨fun r => ?_, (s.me.ws d v).r.s, ?_⟩
  · have hm := h.2.2
    have : t.me.rs r = (s.me.ws d v).rs r := by rw [hm]; rfl
    rw [this, Core.rs_ws]
  · refine ⟨h.1, h.2.1, h.2.2.trans ?_⟩
    unfold Core.ws
    split <;> rfl

/-- A result in a register: the register, and nothing else. -/
theorem State.sDone_ws (s : State) (words cost : Nat) (d : Reg) (v : Word) :
    s.Computes (s.sDone words cost fun c => c.ws d v) words cost d v :=
  computes_of_completes (s.sDone_spec words cost _ (dbgBlind_ws d v))

/-! From a meaning to the claims' words. -/

theorem offB_eq (x : Pfx) (o : BitVec 13) : offB x o = BitVec.ofInt 64 (4 * signedField x o) := by
  have h (v : BitVec 64) : v <<< 2 = BitVec.ofInt 64 4 * v := by
    rw [BitVec.shiftLeft_eq_mul_twoPow, BitVec.mul_comm]; rfl
  cases x <;> simp only [offB, signedField, h, BitVec.signExtend, BitVec.ofInt_mul, pfxLast]
theorem offJ_eq (x : Pfx) (o : BitVec 21) : offJ x o = BitVec.ofInt 64 (4 * signedField x o) := by
  have h (v : BitVec 64) : v <<< 2 = BitVec.ofInt 64 4 * v := by
    rw [BitVec.shiftLeft_eq_mul_twoPow, BitVec.mul_comm]; rfl
  cases x <;> simp only [offJ, immLi, signedField, h, BitVec.signExtend, BitVec.ofInt_mul, pfxLast]

theorem goes_does (i : Instr) (s : State) (pc : Word) (k : Nat) (f : Core → Core) (hf : DbgBlind f)
   (h : exec i s = .next (s.sGo pc k f)) : ∃ t, exec i s = .next t ∧ s.Goes t pc k f := ⟨_, h, s.sGo_spec pc k f hf⟩

theorem does_intro (i : Instr) (s : State) (w k : Nat) (f : Core → Core) (hf : DbgBlind f)
   (h : exec i s = .next (s.sDone w k f)) : Does i s w k f := ⟨_, h, s.sDone_spec w k f hf⟩

theorem branch_branches (i : Instr) (s : State) (x o) (t : Bool) (p : Prop) (hp : p ↔ t = true)
   (h : exec i s = branch t x o s) : Branches i s x o p := by
  unfold branch at h
  constructor
  · intro hpp
    rw [hp.1 hpp, if_pos rfl] at h
    rw [← offB_eq]
    exact goes_does _ _ _ _ _ dbgBlind_id h
  · intro hpp
    have : t = false := by cases t <;> simp_all
    rw [this] at h
    exact does_intro _ _ _ _ _ dbgBlind_id h

/-- An INDIRECT packet is its three parts (20 R332). -/
theorem pkJoin_split (p : BitVec 512) : pkJoin (p.extractLsb' 0 64) (p.extractLsb' 64 64) (p.extractLsb' 128 384) = p := by
  ext i hi
  rw [← BitVec.getLsbD_eq_getElem, ← BitVec.getLsbD_eq_getElem]
  show ((p.extractLsb' 128 384) ++ ((p.extractLsb' 64 64) ++ (p.extractLsb' 0 64))).getLsbD i = _
  rw [BitVec.getLsbD_append, BitVec.getLsbD_append, BitVec.getLsbD_extractLsb', BitVec.getLsbD_extractLsb', BitVec.getLsbD_extractLsb']
  split
  · split
    · simp_all
    · rw [show 64 + (i - 64) = i by omega]; simp_all; omega
  · rw [show 128 + (i - (64 + 64)) = i by omega]; simp; omega

end Sys2Proof.Machine
end

