-- ==== Sys2Proof/Laws/Access.lean ====
section
/-! SUPPORT. Accesses of the S stream to the scratchpad of its own core: the checks pass, a load reads the bytes, a store writes
them. -/

namespace Sys2Proof.Machine

theorem bits_small (a : Word) (h : a.toNat < 0x80000) : bits a 63 56 = 0 ∧ bits a 55 0 = a.toNat := by
  unfold bits
  constructor <;> omega

theorem classify_local (own c : Nat) (a : Word) (h : a.toNat < 0x80000) : classify own c a = .loc a.toNat := by
  obtain ⟨h1, h2⟩ := bits_small a h
  unfold classify
  simp only [h1, h2, true_or, if_true]
  rw [if_pos (by omega)]

theorem viaAperture_local (a : Word) (h : a.toNat < 0x80000) : viaAperture a = false := by
  obtain ⟨-, h2⟩ := bits_small a h
  simp only [viaAperture, h2, decide_eq_false_iff_not]
  omega

/-- The pieces of an access to the own scratchpad that passes its checks. -/
theorem chk_local (s : State) (w : Who) (b : TBuf) (acc : Acc) (fps) (ea : Word) (n : Nat)
    (h1 : ea.toNat + n ≤ 0x80000) (h0 : 0 < n) (h2 : ea.toNat % n = 0) (h3 : accWrite acc = true → 0x80 ≤ ea.toNat) :
    s.chk w b acc fps ea n = .ok [⟨ea, .sp w.core ea.toNat, n, .sp, false⟩] s := by
  unfold State.chk
  rw [classify_local _ _ _ (by omega)]
  have hv : locViol acc ea.toNat n = false := by
    unfold locViol
    cases ha : accWrite acc
    · simp; omega
    · have := h3 ha
      simp; omega
  simp [h2, hv, viaAperture_local ea (by omega)]

theorem who_core (s : State) (c : Nat) (w : Bool) : (s.who c w).core = c := by
  unfold State.who
  dsimp only
  split <;> rfl

/-- A state that differs from `s` in the watchpoint mark of the current core only. -/
def Marked (s t : State) : Prop :=
  s.OnlyCore t s.cur ∧ t.mem = s.mem ∧ ∃ h, t.me = { s.me with dbg := { s.me.dbg with hit := h } } ∧ (s.me.dbg.wpen = 0#2 → h = s.me.dbg.hit)

theorem watch_marked (s : State) (acc : Acc) (a : Word) (n : Nat) : Marked s (s.watch s.cur acc a n) := by
  unfold State.watch
  dsimp only
  split
  · rename_i h
    refine ⟨.upd s s.cur _, rfl, true, State.me_updMe s _, fun hw => ?_⟩
    rw [← State.me_eq, hw] at h
    simp at h
  · exact ⟨.refl s s.cur, rfl, _, rfl, fun _ => rfl⟩

theorem goes_marked {s t u : State} {pc : Word} {k : Nat} {f : Core → Core} (hf : DbgBlind f) (hm : Marked s t)
    (hg : t.Goes u pc k f) : s.Goes u pc k f := by
  obtain ⟨m1, m2, h, m3, m4⟩ := hm
  obtain ⟨g1, g2, g3⟩ := hg
  have hc : t.cur = s.cur := m1.cur
  rw [hc] at g1
  have m3' : t.core s.cur = { s.me with dbg := { s.me.dbg with hit := h } } := by rw [← hc]; exact m3
  refine ⟨m1.trans (by rw [m3']; exact ⟨rfl, rfl⟩) g1, ?_, ?_⟩
  · obtain ⟨k1, k2, k3⟩ := g2
    rw [m3] at k1 k2 k3
    refine ⟨k1, fun hw => (k2 hw).trans (m4 hw), k3⟩
  · rw [g3, m3, hf, m1.cyc]

theorem completes_marked {s t u : State} {w k : Nat} {f : Core → Core} (hf : DbgBlind f) (hm : Marked s t)
    (hg : t.Completes u w k f) : s.Completes u w k f := by
  have : t.me.pc = s.me.pc := by obtain ⟨_, _, h, m3, _⟩ := hm; rw [m3]
  unfold State.Completes at hg ⊢
  rw [← this]
  exact goes_marked hf hm hg


theorem spRead_local (c : Core) (a n : Nat) (h : a + n ≤ 0x80000) : c.spRead a n = Memory.read c.sp a n := by
  induction n generalizing a with
  | zero => rfl
  | succ k ih =>
    simp only [Core.spRead, Memory.read, Core.spGet]
    rw [if_pos (by omega), ih (a + 1) (by omega)]

theorem length_spRead (c : Core) (a n : Nat) : (c.spRead a n).length = n := by
  induction n generalizing a with
  | zero => rfl
  | succ k ih => simp [Core.spRead, ih]

theorem map_untouched (n : Nat) (bs : List Byte) (hb : bs.length = n) (f : Nat → Bool) (x : Nat → Byte)
    (hf : ∀ i, i < n → f i = false) : ((List.range n).map fun i => if f i = true then x i else bs.getD i 0#8) = bs := by
  apply List.ext_getElem
  · simp [hb]
  · intro i h1 h2
    simp at h1
    simp [hf i h1, List.getD_eq_getElem?_getD, List.getElem?_eq_getElem h2]

theorem overlay_one (a : PAcc) (p : Place) (n : Nat) (bs : List Byte) (hb : bs.length = n)
    (ha : overlaps a.p.at_ a.p.n p n = false) : overlay [a] p n bs = bs := by
  simp only [overlay, List.foldl_cons, List.foldl_nil]
  split
  · split
    · rename_i xs _ _ _ x y hy
      rw [hy] at ha
      simp only [overlaps, Bool.and_eq_false_iff, decide_eq_false_iff_not] at ha
      have := map_untouched n bs hb (fun i => decide (y ≤ x + i ∧ x + i < y + a.p.n)) (fun i => xs.getD (x + i - y) 0#8)
        (by intro i hi; simp; omega)
      simpa only [decide_eq_true_eq] using this
    · rename_i xs _ _ _ c x d y hy
      split
      · rename_i hcd
        subst hcd
        rw [hy] at ha
        simp only [overlaps, beq_self_eq_true, Bool.true_and, Bool.and_eq_false_iff, decide_eq_false_iff_not] at ha
        have := map_untouched n bs hb (fun i => decide (y ≤ x + i ∧ x + i < y + a.p.n)) (fun i => xs.getD (x + i - y) 0#8)
          (by intro i hi; simp; omega)
        simpa only [decide_eq_true_eq] using this
      · rfl
    · rfl
  · rfl

/-- Pending stores to other bytes change nothing of what a load reads. -/
theorem overlay_other (l : List PAcc) (p : Place) (n : Nat) (bs : List Byte) (hb : bs.length = n)
    (h : ∀ a ∈ l, overlaps a.p.at_ a.p.n p n = false) : overlay l p n bs = bs := by
  induction l with
  | nil => rfl
  | cons a r ih =>
    have e : overlay (a :: r) p n bs = overlay r p n (overlay [a] p n bs) := rfl
    rw [e, overlay_one a p n bs hb (h a (List.mem_cons_self ..)), ih fun b hb => h b (List.mem_cons_of_mem _ hb)]

theorem sameSp_off (p : Place) (c a b : Nat) : sameSp p (.sp c a) = sameSp p (.sp c b) := by cases p <;> rfl

theorem overlaps_sameSp {p : Place} {m c a n : Nat} (h : sameSp p (.sp c a) = false) : overlaps p m (.sp c a) n = false := by
  cases p <;> simp_all [overlaps, sameSp]

/-- A stream that nothing holds back has been handed over what it needs (02 R32). -/
theorem Core.SpFree.handedOver {c : Core} {own : Nat} {w : Bool} (h : c.SpFree own w) : c.handedOver w = true := by
  unfold Core.handedOver
  rw [Bool.not_eq_true', List.any_eq_false]
  intro p hp
  have := h p hp
  split at this
  · simp [*]
  · simp only [Bool.and_eq_true, bne_iff_ne, ne_eq, decide_eq_true_eq]
    omega

/-- A load of the stream from the own scratchpad may read now (10 R182). -/
theorem Core.SpFree.loadReady {c : Core} {own : Nat} {w : Bool} (h : c.SpFree own w) (ps : List Piece)
    (hp : ∀ p ∈ ps, p.kind = .sp ∧ ∃ a, p.at_ = .sp own a) : c.loadReady w ps = true := by
  unfold Core.loadReady
  rw [h.handedOver, Bool.true_and, Bool.not_eq_true', List.any_eq_false]
  intro a ha
  have := h a ha
  split at this
  · rename_i hw
    simp only [hw, beq_self_eq_true, Bool.true_and, Bool.not_eq_true, List.any_eq_false]
    intro p hp'
    obtain ⟨hk, x, hx⟩ := hp p hp'
    have h1 : sameSp a.p.at_ (.sp own x) = false := by rw [sameSp_off _ _ _ 0]; exact this
    simp [hk, hx, h1, overlaps_sameSp h1]
  · simp [*]

/-- A store of the stream into the own scratchpad is performed at its issue (02 R32). -/
theorem Core.SpFree.storeReady {c : Core} {own : Nat} {w rel : Bool} (h : c.SpFree own w) (hr : rel = true → c.Released w) :
    c.storeReady w rel own = true := by
  unfold Core.storeReady
  have h1 : (! rel || c.released w) = true := by
    cases rel
    · rfl
    · have := hr rfl
      simp only [Bool.not_true, Bool.false_or, Core.released, Bool.not_eq_true', List.any_eq_false]
      intro p hp
      by_cases hw : p.w = w
      · simp [this p hp hw]
      · simp [hw]
  rw [h.handedOver, h1, Bool.true_and, Bool.true_and, Bool.not_eq_true', List.any_eq_false]
  intro a ha
  have := h a ha
  split at this
  · simp [this]
  · simp [*]

theorem loadPieces_local (s : State) (a : Word) (n : Nat) (h : s.Local a n) :
    s.loadPieces s.cur false [⟨a, .sp s.cur a.toNat, n, .sp, false⟩] = Memory.read s.me.sp a.toNat n := by
  obtain ⟨⟨h1, h2⟩, h3⟩ := h
  have h3' : ∀ p ∈ (s.core s.cur).acc.filter (fun a => a.w == false), overlaps p.p.at_ p.p.n (.sp s.cur a.toNat) n = false := by
    intro p hp
    obtain ⟨hp1, hp2⟩ := List.mem_filter.1 hp
    have := h3 p hp1
    rw [if_pos (by simpa using hp2)] at this
    exact overlaps_sameSp (by rw [sameSp_off _ _ _ 0]; exact this)
  unfold State.loadPieces
  simp only [List.map_cons, List.map_nil, List.flatten_cons, List.flatten_nil, List.append_nil]
  rw [overlay_other _ _ _ _ ?_ h3']
  · simp only [State.readAt, ← State.me_eq]
    exact spRead_local _ _ _ h1
  · simp only [State.readAt]; exact length_spRead _ _ _

theorem Marked.local {s t : State} (h : Marked s t) {a : Word} {n : Nat} (hl : s.Local a n) : t.Local a n := by
  obtain ⟨m1, m2, x, m3, m4⟩ := h
  unfold State.Local at hl ⊢
  rw [m3, m1.cur]
  exact hl

theorem widen_eq (g : Bool) (n : Nat) (hn : n = 1 ∨ n = 2 ∨ n = 4 ∨ n = 8) (bs : List Byte) (hb : bs.length = n) :
    widen g n bs = loaded g n (leNat bs) := by
  have hlt : leNat bs < 2 ^ (8 * n) := by
    subst hb
    clear hn
    induction bs with
    | nil => simp [leNat]
    | cons b r ih =>
      have := b.isLt
      simp only [leNat, List.length_cons]
      have e : 2 ^ (8 * (r.length + 1)) = 256 * 2 ^ (8 * r.length) := by rw [Nat.mul_add, Nat.pow_add]; omega
      rw [e]
      omega
  unfold widen loaded
  cases g
  · simp
  · simp only [if_true, true_and]
    rw [BitVec.signExtend]
    congr 1
    rw [BitVec.toInt_eq_toNat_bmod, BitVec.toNat_ofNat, Nat.mod_eq_of_lt hlt]
    rcases hn with h | h | h | h <;> subst h <;> simp only [Int.bmod_def] <;> norm_num at hlt ⊢ <;> split <;> split <;> omega

/-- Words with no soft error in them are read as they are (18 R302). -/
theorem struck_none (u : Tab Bool) (off n : Nat) (h : ∀ e ∈ u, e.1 < off / 8 ∨ (off + n + 7) / 8 ≤ e.1) : struck u off n = none := by
  unfold struck
  have : u.filter (fun e => decide (off / 8 ≤ e.1) && decide (e.1 < (off + n + 7) / 8)) = [] := by
    rw [List.filter_eq_nil_iff]
    intro e he
    have := h e he
    simp only [Bool.and_eq_true, decide_eq_true_eq]
    omega
  rw [this]

theorem Core.Whole.struck {c : Core} {off n : Nat} (h : c.Whole off n) : struck c.ups off n = none := struck_none _ _ _ h

/-- Nothing comes between an access of the own scratchpad and what it reads. -/
theorem soft_local (s : State) (acc : Acc) (w : Bool) (pc a ea : Word) (c off n : Nat) (k : PKind) (y : Bool) (f : State → State)
    (h : (s.core c).Whole off n) : s.soft s.cur acc w pc a [⟨ea, .sp c off, n, k, y⟩] f = f s := by
  unfold State.soft State.struckPs
  simp only [List.foldl_cons, List.foldl_nil, State.struckAt, h.struck]

/-- A load from the own scratchpad completes at once. -/
theorem loadAt_local (s : State) (ea : Word) (n : Nat) (g : Bool) (d : Reg) (hi : Option Reg) (ws : Nat) (h0 : 0 < n)
    (h : s.LocalLd ea n) :
    ∃ t, Marked s t ∧ loadAt ea n g d hi ws s = t.sDone ws 2 fun c =>
      match hi with
      | none => c.ws d (widen g n (Memory.read s.me.sp ea.toNat n))
      | some r => (c.ws d (bytesWord ((Memory.read s.me.sp ea.toNat n).take 8))).ws r (bytesWord ((Memory.read s.me.sp ea.toNat n).drop 8)) := by
  obtain ⟨hl, hw, hq⟩ := h
  have hm := watch_marked s .load ea n
  refine ⟨_, hm, ?_⟩
  unfold loadAt
  rw [hw]
  simp only [Bool.false_eq_true, if_false]
  unfold State.sAcc
  dsimp only
  rw [chk_local s _ .d .load _ ea n hl.1.1 h0 hl.1.2 (by simp [accWrite]), who_core]
  dsimp only
  generalize s.watch s.cur .load ea n = t at hm ⊢
  have hc : t.cur = s.cur := hm.1.cur
  have hlt := hm.local hl
  have hsp : t.me.sp = s.me.sp := by obtain ⟨_, _, x, m3, _⟩ := hm; rw [m3]
  have hwh : (t.core t.cur).Whole ea.toNat n := by
    rw [← State.me_eq]; unfold Core.Whole at hq ⊢; obtain ⟨_, _, x, m3, _⟩ := hm; rw [m3]; exact hq
  rw [← hc, soft_local t _ _ _ _ _ _ _ _ _ _ _ hwh, loadPieces_local t ea n hlt, hsp, hlt.2.loadReady _ (by simp)]
  simp [ownSp]
  all_goals cases hi <;> rfl

theorem Marked.acc {s t : State} (h : Marked s t) : t.me.acc = s.me.acc := by obtain ⟨_, _, x, m3, _⟩ := h; rw [m3]

/-- A store to the own scratchpad is performed at once (02 R32). -/
theorem storeAt_local (s : State) (ea : Word) (bs : List Byte) (dom : DTag) (rel : Bool) (ws : Nat) (h0 : 0 < bs.length)
    (h : s.Local ea bs.length) (hw : 0x80 ≤ ea.toNat) (hr : rel = true → s.me.Released false) :
    ∃ t, Marked s t ∧ storeAt ea bs dom rel ws s = (t.updMe fun x => x.spStore ea.toNat bs).sDone ws 1 id := by
  have hm := watch_marked s .store ea bs.length
  refine ⟨_, hm, ?_⟩
  unfold storeAt State.sAcc
  dsimp only
  rw [chk_local s _ .d .store _ ea bs.length h.1.1 h0 h.1.2 (fun _ => hw), who_core]
  dsimp only
  generalize s.watch s.cur .store ea bs.length = t at hm ⊢
  have hc : t.cur = s.cur := hm.1.cur
  have hlt := hm.local h
  have ha := hm.acc
  have h1 : (t.core t.cur).storeReady false rel t.cur = true :=
    hlt.2.storeReady fun h' => by unfold Core.Released; rw [ha]; exact hr h'
  have hwho : (t.who t.cur false).w = false := by unfold State.who; dsimp only; split <;> rfl
  unfold State.doStore State.storeHolds
  simp [← hc, who_core, hwho, h1, State.updMe, ownSp]

/-- An effect after which the instruction completes. -/
theorem completes_updMe (s : State) (w k : Nat) (f : Core → Core)
    (hp : ∀ x, (f x).pc = x.pc ∧ (f x).dbg = x.dbg ∧ (f x).pread = x.pread) :
    s.Completes ((s.updMe f).sDone w k id) w k f := by
  have h := (s.updMe f).sDone_spec w k id dbgBlind_id
  obtain ⟨h1, h2, h3⟩ := h
  have e : (s.updMe f).me = f s.me := State.me_updMe s f
  obtain ⟨p1, p2, p3⟩ := hp s.me
  rw [e, p2] at h2
  rw [e] at h3
  have o : s.OnlyCore (s.updMe f) s.cur := .upd s s.cur f
  refine ⟨o.trans ?_ h1, h2, ?_⟩
  · rw [← State.me_eq, show (s.updMe f).core s.cur = f s.me from e]
    unfold SameRing
    rw [p2]
    exact ⟨rfl, rfl⟩
  · simp only [id] at h3
    have hp1 : (s.updMe f).me.pc = s.me.pc := by rw [e, p1]
    rw [h3, p3, p1]
    rw [show (s.updMe f).cyc = s.cyc from rfl]

theorem dtag_hub {s t : State} (h : t.hub = s.hub) (x : DTag) : t.dtag x = s.dtag x := by
  unfold State.dtag State.tagOf State.dom
  rw [h]

theorem Marked.who {s t : State} (h : Marked s t) (w : Bool) : t.who t.cur w = s.who s.cur w := by
  obtain ⟨m1, _, x, m3, _⟩ := h
  unfold State.who
  dsimp only
  rw [← State.me_eq, ← State.me_eq, m3, m1.cur]
  simp only [dtag_hub m1.hub]

theorem stores_local (i : Instr) (s : State) (ea : Word) (bs : List Byte) (dom : DTag) (rel : Bool) (ws : Nat) (h0 : 0 < bs.length)
    (h : s.Local ea bs.length) (hw : 0x80 ≤ ea.toNat) (hr : rel = true → s.me.Released false)
    (e : exec i s = .next (storeAt ea bs dom rel ws s)) : Stores i s ws ea bs := by
  obtain ⟨t, hm, ht⟩ := storeAt_local s ea bs dom rel ws h0 h hw hr
  have hsp : t.me.sp = s.me.sp := by obtain ⟨_, _, x, m3, _⟩ := hm; rw [m3]
  have hc := completes_updMe t ws 1 (fun x => x.spStore ea.toNat bs) fun _ => ⟨rfl, rfl, rfl⟩
  have hg := completes_marked (dbgBlind_spStore _ _) hm hc
  rw [← ht] at hg
  refine ⟨_, e, fun o => ?_, (s.me.spStore ea.toNat bs).sp, (s.me.spStore ea.toNat bs).late,
    (s.me.spStore ea.toNat bs).ups, hg⟩
  rw [hg.2.2]
  exact Memory.get_write _ _ _ _

end Sys2Proof.Machine
end

