-- ==== Sys2Proof/Laws/Domain.lean ====
section
/-! SUPPORT. The hub's table of domains: the operations over it touch the hub and the network only, and what each leaves in a
row of the table. -/

namespace Sys2Proof.Machine

theorem OnlyHub_refl (s : State) : s.OnlyHub s := ⟨rfl, [], by simp⟩

theorem OnlyHub_trans {s t u : State} (h : s.OnlyHub t) (g : t.OnlyHub u) : s.OnlyHub u := by
  obtain ⟨h1, l, h2⟩ := h
  obtain ⟨g1, m, g2⟩ := g
  exact ⟨by rw [g1, h1], l ++ m, by rw [g2, h2, List.append_assoc]⟩

theorem OnlyHub_updHub (s : State) (f : Hub → Hub) : s.OnlyHub (s.updHub f) := ⟨rfl, [], by simp [State.updHub]⟩

theorem OnlyHub_setDom (s : State) (d e) : s.OnlyHub (s.setDom d e) := OnlyHub_updHub _ _

theorem OnlyHub_send (s : State) (a b c d e f) : s.OnlyHub (s.send a b c d e f) := ⟨rfl, _, rfl⟩

theorem OnlyHub_foldl {α : Type} (l : List α) (f : State → α → State) (s : State) (h : ∀ (s : State) a, s.OnlyHub (f s a)) : s.OnlyHub (l.foldl f s) := by
  induction l generalizing s with
  | nil => exact OnlyHub_refl s
  | cons a l ih => exact OnlyHub_trans (h s a) (ih _)

theorem OnlyHub_tellPeers (s : State) (d b) : s.OnlyHub (s.tellPeers d b) := OnlyHub_foldl _ _ _ fun _ _ => OnlyHub_send ..

theorem OnlyHub_annulOne (s : State) (d) : s.OnlyHub (s.annulOne d) := by
  unfold State.annulOne
  exact OnlyHub_trans (OnlyHub_trans (OnlyHub_setDom ..) (OnlyHub_updHub ..)) (OnlyHub_tellPeers ..)

theorem OnlyHub.doms {s t : State} (h : s.OnlyHub t) : s.OnlyDoms t := by
  obtain ⟨h1, l, h2⟩ := h
  have hc : t.cores = s.cores := by rw [h1]
  refine ⟨?_, ⟨l, h2⟩, fun c => ?_⟩
  · rw [hc]; exact h1
  · have : t.core c = s.core c := by unfold State.core; rw [hc]
    rw [this]

theorem OnlyDoms_trans {s t u : State} (h : s.OnlyDoms t) (g : t.OnlyDoms u) : s.OnlyDoms u := by
  obtain ⟨h1, ⟨l, h2⟩, h3⟩ := h
  obtain ⟨g1, ⟨m, g2⟩, g3⟩ := g
  refine ⟨by rw [g1, h1], ⟨l ++ m, by rw [g2, h2, List.append_assoc]⟩, fun c => ?_⟩
  rw [g3 c, h3 c]

theorem OnlyDoms_refl (s : State) : s.OnlyDoms s := OnlyHub.doms (OnlyHub_refl s)

theorem OnlyDoms_foldl {α : Type} (l : List α) (f : State → α → State) (s : State) (h : ∀ (s : State) a, s.OnlyDoms (f s a)) :
    s.OnlyDoms (l.foldl f s) := by
  induction l generalizing s with
  | nil => exact OnlyDoms_refl s
  | cons a l ih => exact OnlyDoms_trans (h s a) (ih _)

theorem tGet_map {α β : Type} (t : Tab α) (f : α → β) (a : Nat) : tGet (t.map fun p => (p.1, f p.2)) a = (tGet t a).map f := by
  induction t with
  | nil => rfl
  | cons p t ih => obtain ⟨k, v⟩ := p; simp only [List.map_cons, tGet]; split <;> simp_all

/-- DOMAIN.INST is all that following an instant changes in a core (08 R139). -/
theorem follow_eq (x : Core) (d : Dom) (t : BitVec 48) :
    x.follow d t = { x with c := { x.c with dom := { x.c.dom with inst := (x.follow d t).c.dom.inst } } } := by
  unfold Core.follow
  split <;> rfl

theorem OnlyDoms_setInst (s : State) (d t) : s.OnlyDoms (s.setInst d t) := by
  unfold State.setInst
  dsimp only
  split
  · exact OnlyDoms_refl s
  · generalize hv : (s.setDom d _).tellPeers d _ = v
    have h : s.OnlyDoms v := by
      rw [← hv]
      exact OnlyDoms_trans (OnlyHub.doms (OnlyHub_setDom ..)) (OnlyHub.doms (OnlyHub_tellPeers ..))
    refine OnlyDoms_trans h ⟨rfl, ⟨[], by simp [State.updHub]⟩, fun c => ?_⟩
    show ((tGet (v.cores.map fun p => (p.1, p.2.follow d (t.setWidth 48))) c).getD Core.zero) = _
    have hz : Core.zero.follow d (t.setWidth 48) = Core.zero := rfl
    have : ((tGet (v.cores.map fun p => (p.1, p.2.follow d (t.setWidth 48))) c).getD Core.zero) = (v.core c).follow d (t.setWidth 48) := by
      rw [tGet_map v.cores (fun x => x.follow d (t.setWidth 48)) c]
      unfold State.core
      cases tGet v.cores c <;> simp [hz]
    rw [this]
    have e : (({ v with cores := v.cores.map fun (p : Nat × Core) => (p.1, p.2.follow d (t.setWidth 48)) } : State).updHub fun h =>
      { h with saves := h.saves.map fun (p : Nat × Save) => (p.1, { p.2 with core := p.2.core.follow d (t.setWidth 48) }) }).core c =
        (v.core c).follow d (t.setWidth 48) := this
    rw [e]
    exact follow_eq _ _ _

theorem OnlyDoms_unjoin (s : State) (m j ix) : s.OnlyDoms (s.unjoin m j ix) := by
  unfold State.unjoin
  dsimp only
  have h (u : State) (e f) : u.OnlyDoms ((u.setDom m e).setDom j f) :=
    OnlyHub.doms (OnlyHub_trans (OnlyHub_setDom ..) (OnlyHub_setDom ..))
  split
  · exact OnlyDoms_trans (h ..) (OnlyHub.doms (OnlyHub_annulOne ..))
  · exact OnlyDoms_trans (OnlyDoms_trans (h ..) (OnlyDoms_setInst ..)) (OnlyHub.doms (OnlyHub_tellPeers ..))

theorem OnlyDoms_annul (s : State) (d) : s.OnlyDoms (s.annul d) := by
  unfold State.annul
  exact OnlyDoms_trans (OnlyDoms_foldl _ _ _ fun s a => OnlyDoms_unjoin ..) (OnlyHub.doms (OnlyHub_annulOne ..))

theorem OnlyDoms_extend (s : State) (d t) : s.OnlyDoms (s.extend d t) := by
  unfold State.extend
  exact OnlyDoms_trans (OnlyDoms_setInst ..) (OnlyDoms_foldl _ _ _ fun s a => OnlyDoms_setInst ..)

theorem OnlyHub_cur {s t : State} (h : s.OnlyHub t) : t.cur = s.cur := by rw [h.1]
theorem OnlyDoms_cur {s t : State} (h : s.OnlyDoms t) : t.cur = s.cur := by rw [h.1]

theorem dom_setDom (s : State) (d e q) : (s.setDom d e).dom q = if q = d then e else s.dom q := by
  unfold State.dom State.setDom State.updHub
  dsimp only
  rw [tGet_tPut]
  by_cases h : q = d
  · simp [h]
  · have : q.toNat ≠ d.toNat := fun e => h (BitVec.eq_of_toNat_eq e)
    simp [h, this]

theorem hub_send (s : State) (a b c d e f) : (s.send a b c d e f).hub = s.hub := rfl

theorem hub_tellPeers (s : State) (d b) : (s.tellPeers d b).hub = s.hub := by
  unfold State.tellPeers
  generalize (s.dom d).peers = l
  generalize (s.dom d).ctx = c
  induction l generalizing s with
  | nil => rfl
  | cons a l ih => rw [List.foldl_cons, ih]; rfl

theorem dom_tellPeers (s : State) (d b q) : (s.tellPeers d b).dom q = s.dom q := by unfold State.dom; rw [hub_tellPeers]

theorem dom_annulOne (s : State) (d q) : (s.annulOne d).dom q =
    let e := if q = d then { s.dom d with st := .annulled, mem := if (s.dom d).kind = .join then 0#256 else (s.dom d).mem, jl := [], annAt := s.cyc,
                                          acks := endpoints, peerAcks := (s.dom d).peers } else s.dom q
    { e with jl := e.jl.filter fun x => x.1 != d } := by
  unfold State.annulOne
  dsimp only
  rw [dom_tellPeers]
  have key : ∀ (t : State) (f : DEnt → DEnt) (g : Tab Launch → Tab Launch), f DEnt.zero = DEnt.zero → (t.updHub fun h => { h with doms := h.doms.map fun p => (p.1, f p.2), launches := g h.launches }).dom q = f (t.dom q) := by
    intro t f g hz
    unfold State.dom State.updHub
    dsimp only
    rw [tGet_map]
    cases tGet t.hub.doms q.toNat <;> simp [hz]
  rw [key _ (fun e => { e with jl := e.jl.filter fun x => x.1 != d }) (fun l => l.map fun p => if p.2.dom.id = d then (p.1, { p.2 with ann := true }) else p) rfl, dom_setDom]

theorem dom_setInst (s : State) (d t q) : (s.setInst d t).dom q = if q = d then { s.dom d with inst := t } else s.dom q := by
  unfold State.setInst
  dsimp only
  split
  · rename_i h
    by_cases e : q = d
    · subst e; rw [if_pos rfl, ← h]
    · simp [e]
  · show (((s.setDom d _).tellPeers d _).dom q) = _
    rw [dom_tellPeers, dom_setDom]

theorem freeDom_lowest (s : State) (n lo : Nat) (i : Dom) (hn : lo + n ≤ 65536) (h : s.Lowest lo n i) : s.freeDom n lo = some i := by
  induction n generalizing lo with
  | zero => obtain ⟨h1, h2, -⟩ := h; omega
  | succ k ih =>
    obtain ⟨h1, h2, h3, h4⟩ := h
    unfold State.freeDom
    by_cases e : lo = i.toNat
    · have : BitVec.ofNat 16 lo = i := by subst e; simp
      rw [this, if_pos h3]
    · have : (s.dom (BitVec.ofNat 16 lo)).st ≠ .free := h4 _ (by simp; omega) (by simp; omega)
      rw [if_neg this]
      exact ih (lo + 1) (by omega) ⟨by omega, by omega, h3, fun j a b => h4 j (by omega) b⟩

theorem freeDom_none (s : State) (n lo : Nat) (hn : lo + n ≤ 65536) (h : ∀ i : Dom, lo ≤ i.toNat → i.toNat < lo + n → (s.dom i).st ≠ .free) :
    s.freeDom n lo = none := by
  induction n generalizing lo with
  | zero => rfl
  | succ k ih =>
    unfold State.freeDom
    rw [if_neg (h _ (by simp; omega) (by simp; omega))]
    exact ih (lo + 1) (by omega) fun j a b => h j (by omega) (by omega)

theorem inRange_iff (s : State) (t : Word) : s.inRange t = true ↔ s.now % 2 ^ 64 < t.toNat ∧ t.toNat < s.now % 2 ^ 64 + 2 ^ 47 := by
  simp only [State.inRange, State.nowW, Bool.and_eq_true]
  have := t.isLt
  constructor
  · rintro ⟨h1, h2⟩; simp [BitVec.lt_def] at h1 h2; constructor <;> omega
  · rintro ⟨h1, h2⟩; simp [BitVec.lt_def]; constructor <;> omega

theorem withDom_ok {s : State} {x : DmR} {m : Dom} (h : s.dmr x = (m, true)) (f) : withDom x s f = .next (f m s) := by
  unfold withDom; rw [h]; rfl

theorem withDom_bad {s : State} {x : DmR} {m : Dom} (h : s.dmr x = (m, false)) (f) : withDom x s f = .next (s.sTrap 0x08#8 (m.setWidth 64)) := by
  unfold withDom; rw [h]; rfl

theorem reply_asks (i : Instr) (s u : State) (d : Reg) (v : Word) (hc : u.cur = s.cur) (h : exec i s = .next (u.reply d v)) : Asks i s u d v := by
  unfold Asks Waits
  rw [h, ← hc]; rfl

theorem lowClear_eq (m : BitVec 256) (ix : Nat) (h : ix < 256) (h1 : m.getLsbD ix = false) (h2 : ∀ i, i < ix → m.getLsbD i = true) : lowClear m = some ix := by
  unfold lowClear
  rw [List.find?_eq_some_iff_append]
  refine ⟨by simp [h1], List.range ix, (List.range (256 - ix - 1)).map (· + (ix + 1)), ?_, ?_⟩
  · have : 256 = ix + (1 + (256 - ix - 1)) := by omega
    conv => lhs; rw [this, List.range_add, List.range_add]
    simp [List.range_one, Nat.add_comm]; intros; omega
  · intro a ha; simp at ha; simp [h2 a ha]

theorem dom_annul_self (s : State) (d) : ((s.annul d).dom d).st = .annulled ∧ ((s.annul d).dom d).acks = endpoints := by
  unfold State.annul
  rw [dom_annulOne]
  simp

theorem asksHold (i : Instr) (s u : State) (w : SWait) (h1 : u.cur = s.cur) (h : exec i s = .next (u.sHold w 1 1)) : Waits i s u w := by
  unfold Waits; rw [h, ← h1]; rfl

end Sys2Proof.Machine
end

