-- ==== Sys2Proof/Laws/Issue.lean ====
section
/-! SUPPORT. What the issue of a W instruction does: one lemma for the stream, one for each kind of source and target. -/

namespace Sys2Proof.Machine

/-! The lanes of a result. -/

theorem lanesF_lane (m : BitVec 48) (f : Fin 48 → Lane × BitVec 5) (n : Fin 48) : (lanesF m f).1[n] = (f n).1 := by
  simp [lanesF]

theorem foldl_flags (m : BitVec 48) (f : Fin 48 → BitVec 5) (l : List (Fin 48)) (z : BitVec 5) (b : Nat) :
    (l.foldl (fun fl i => if laneMask m i then fl ||| f i else fl) z).getLsbD b = true ↔
      z.getLsbD b = true ∨ ∃ n ∈ l, laneMask m n = true ∧ (f n).getLsbD b = true := by
  induction l generalizing z with
  | nil => simp
  | cons a l ih =>
    rw [List.foldl_cons, ih]
    by_cases h : laneMask m a = true
    · simp [h, or_assoc]
    · simp [h]

theorem flagsOf_foldl (m : BitVec 48) (f : Fin 48 → BitVec 5) :
    FlagsOf ((List.finRange 48).foldl (fun fl i => if laneMask m i then fl ||| f i else fl) 0#5) m f := by
  intro b
  rw [foldl_flags]
  simp

theorem lanesF_flags (m : BitVec 48) (f : Fin 48 → Lane × BitVec 5) : FlagsOf (lanesF m f).2 m fun n => (f n).2 :=
  flagsOf_foldl m fun n => (f n).2

theorem maskOf_lane (f : Fin 48 → Bool) (n : Fin 48) : laneMask (maskOf f) n = f n := by
  have key : ∀ (g : Fin 48 → Bool), ∀ k, k ≤ 48 → ∀ i (hi : i < k) (hj : 48 - k + i < 48),
      (((List.finRange 48).drop (48 - k)).foldr (fun i (b : BitVec 48) => (b <<< 1) ||| (if g i then 1#48 else 0#48)) 0#48).getLsbD i =
        g ⟨48 - k + i, hj⟩ := by
    intro g k
    induction k with
    | zero => intro _ i h; omega
    | succ k ih =>
      intro hk i hik hi
      have e : (List.finRange 48).drop (48 - (k + 1)) = ⟨48 - (k + 1), by omega⟩ :: (List.finRange 48).drop (48 - k) := by
        rw [List.drop_eq_getElem_cons (by simp; omega)]
        congr 1
        · simp
        · congr 1; omega
      rw [e, List.foldr_cons]
      cases i with
      | zero =>
        cases h : g ⟨48 - (k + 1), by omega⟩ <;> simp
      | succ i =>
        have := ih (by omega) i (by omega) (by omega)
        have e2 : (⟨48 - k + i, by omega⟩ : Fin 48) = ⟨48 - (k + 1) + (i + 1), by omega⟩ := by
          ext; simp; omega
        rw [e2] at this
        rw [BitVec.getLsbD_or, BitVec.getLsbD_shiftLeft, ← this]
        have h0 : (if g ⟨48 - (k + 1), by omega⟩ = true then 1#48 else 0#48).getLsbD (i + 1) = false := by
          split <;> simp
        rw [h0]
        simp only [Bool.or_false]
        simp; omega
  have := key f 48 (by omega) n.val n.isLt (by omega)
  simpa [maskOf, laneMask] using this

/-! The stream. -/

/-- A W instruction whose function answers `done` issues. -/
theorem wIssue_done (s t : State) (f : State → WOut) (cost lat : Nat) (tgt : WTgt) (fl : BitVec 5) (g : Core → Core)
    (hf : f s = .done t cost lat tgt fl) (ht : t = { s with cores := t.cores }) (ho : ∀ d, d ≠ s.cur → t.core d = s.core d)
    (hd : Dbg.Counted s.me.dbg t.me.dbg)
    (b : List WEnt) (hm : t.me = { g s.me with wbuf := b, pread := s.me.pread, wpend := s.me.wpend, dbg := t.me.dbg })
    (hw : b.tail = s.me.wbuf.tail) :
    s.Issued (s.wIssue f) cost (if tgt = .none ∧ fl = 0#5 then [] else [⟨s.cyc + (lat - 1), tgt, fl⟩]) g := by
  have hcur : t.cur = s.cur := by rw [ht]
  simp only [State.wIssue, hf]
  generalize hu : t.updMe _ = u
  obtain ⟨h1, hmem, r, o, h2⟩ := u.count_spec s.cur 2#3 s.head.pc true
  generalize hv : u.count s.cur 2#3 s.head.pc true = v at h1 h2 hmem
  have hu1 : u = { t with cores := u.cores } := by rw [← hu]; rfl
  have hv1 : v = { u with cores := v.cores } := by rw [h1.1]; simp [hmem]
  have huo : ∀ d, d ≠ s.cur → u.core d = s.core d := by
    intro d hd'
    rw [← hu, State.core_updMe_other _ _ _ (by rw [hcur]; exact hd')]
    exact ho d hd'
  have hum : u.me = { t.me with
      wbuf := t.me.wbuf.tail, wReady := s.cyc + cost, wFrom := none, pread := tDel t.me.pread 1
      wpend := if tgt = .none ∧ fl = 0#5 then t.me.wpend else t.me.wpend ++ [⟨s.cyc + (lat - 1), tgt, fl⟩] } := by
    rw [← hu, State.me_updMe]
  have hcu : u.cur = s.cur := by rw [hu1, hcur]
  have hcv : v.cur = s.cur := by rw [hv1, hcu]
  have hvm : v.me = { u.me with dbg := { u.me.dbg with ctr := r, ovf := o } } := by
    rw [State.me_eq, hcv, h2, State.me_eq, hcu]
  refine ⟨?_, ?_, ?_, ?_⟩
  · rw [hv1, hu1, ht]
  · intro d hd'
    show v.core d = s.core d
    rw [h1.2.1 d hd']
    exact huo d hd'
  · show Dbg.Counted s.me.dbg v.me.dbg
    rw [hvm, hum]
    obtain ⟨a, b⟩ := hd
    refine ⟨?_, ?_⟩
    · dsimp only
      rw [a]
    · exact b
  · show v.me = _
    have h3 : v.me = { t.me with
        wbuf := t.me.wbuf.tail, wReady := s.cyc + cost, wFrom := none, pread := tDel t.me.pread 1, dbg := v.me.dbg
        wpend := if tgt = .none ∧ fl = 0#5 then t.me.wpend else t.me.wpend ++ [⟨s.cyc + (lat - 1), tgt, fl⟩] } := by
      rw [hvm, hum]
    show v.me = { g s.me with
      wbuf := s.me.wbuf.tail, wReady := s.cyc + cost, wFrom := none, pread := tDel s.me.pread 1
      wpend := s.me.wpend ++ (if tgt = .none ∧ fl = 0#5 then ([] : List WPend) else [⟨s.cyc + (lat - 1), tgt, fl⟩]), dbg := v.me.dbg }
    refine h3.trans ?_
    generalize v.me.dbg = e
    generalize t.me = x at hm
    generalize x.dbg = e' at hm
    subst hm
    generalize g s.me = y
    rw [← hw]
    by_cases h : tgt = .none ∧ fl = 0#5
    · simp [h]
    · simp [h]

theorem Dbg.Counted.refl (d : Dbg) : Dbg.Counted d d := ⟨rfl, fun _ => rfl⟩

/-- The same, when only the core of the instruction is changed by `g`. -/
theorem wIssue_upd (s : State) (f : State → WOut) (cost lat : Nat) (tgt : WTgt) (fl : BitVec 5) (g : Core → Core)
    (hf : f s = .done (s.updMe g) cost lat tgt fl) (hb : (g s.me).wbuf = s.me.wbuf) (hp : (g s.me).pread = s.me.pread)
    (hq : (g s.me).wpend = s.me.wpend) (hd : (g s.me).dbg = s.me.dbg) :
    s.Issued (s.wIssue f) cost (if tgt = .none ∧ fl = 0#5 then [] else [⟨s.cyc + (lat - 1), tgt, fl⟩]) g := by
  refine wIssue_done s _ f cost lat tgt fl g hf rfl (fun d hd' => State.core_updMe_other _ _ _ hd') ?_ s.me.wbuf ?_ rfl
  · rw [State.me_updMe, hd]; exact .refl _
  · rw [State.me_updMe, ← hb, ← hp, ← hq]

/-! Sources (12 R229). -/

theorem srcStop_none {s : State} (l : List VReg) (h : ∀ r ∈ l, ∀ x, tGet s.me.str r.toNat = some x → x.buf ≠ []) :
    s.srcStop l = none := by
  induction l with
  | nil => rfl
  | cons r l ih =>
    have ih := ih fun q hq => h q (List.mem_cons_of_mem _ hq)
    unfold State.srcStop
    split
    · exact ih
    · rename_i st hst
      have := h r (List.mem_cons_self ..) st hst
      split
      · exact ih
      · rename_i hb; exact absurd hb this

theorem withSrc_ok {s : State} {l : List VReg} {d : Option VReg} (h : s.CanIssue l d) (k : State → WOut) :
    withSrc l d k s = match k s with
      | .done t i n tgt fl => .done (t.updMe (Core.popStrips l)) i n tgt fl
      | o => o := by
  obtain ⟨-, h1, h2⟩ := h
  unfold withSrc
  have : (d.bind fun d => if (tGet s.me.str d.toNat).isSome then some d else none) = none := by
    cases d with
    | none => rfl
    | some d => simp [h2 d rfl]
  rw [this, srcStop_none l h1]
  all_goals rfl

/-- The strips that a function of a core takes change nothing but its streams. -/
theorem popStrips_str (l : List VReg) (c : Core) : ∃ x, c.popStrips l = { c with str := x } := by
  unfold Core.popStrips
  generalize l.eraseDups = l
  induction l generalizing c with
  | nil => exact ⟨c.str, rfl⟩
  | cons r l ih =>
    rw [List.foldl_cons]
    split
    · split
      · rename_i st _ _ y b _
        exact (ih { c with str := tPut c.str r.toNat { st with buf := b, last := y } }).imp fun x hx => hx
      · exact ih c
    · exact ih c

theorem done_pops {s : State} {l : List VReg} {d : Option VReg} (h : s.CanIssue l d) (k : State → WOut) (cost lat : Nat) (tgt : WTgt)
    (fl : BitVec 5) (hk : k s = .done s cost lat tgt fl) :
    s.Issued (s.wIssue (withSrc l d k)) cost (if tgt = .none ∧ fl = 0#5 then [] else [⟨s.cyc + (lat - 1), tgt, fl⟩])
      (Core.popStrips l) := by
  obtain ⟨x, hx⟩ := popStrips_str l s.me
  exact wIssue_upd s _ cost lat tgt fl _ (by rw [withSrc_ok h, hk]) (by rw [hx]) (by rw [hx]) (by rw [hx]) (by rw [hx])

/-! Lanes and masks. -/

theorem issuesLanes_of (i : Instr) (l : List VReg) (k : KReg) (d : VReg) (cost lat : Nat) (f : State → Fin 48 → Lane × BitVec 5)
    (g : State → WOut) (x : State → Lanes) (fl : State → BitVec 5)
    (hi : ∀ s, s.phase = .w → exec i s = .next (s.wIssue (withSrc l (some d) g)))
    (hg : ∀ s, g s = .done s cost lat (.v d (s.me.rk k) (x s)) (fl s)) (hx : ∀ s, ∀ n : Fin 48, (x s)[n] = (f s n).1)
    (hl : ∀ s, FlagsOf (fl s) (s.me.rk k) fun n => (f s n).2) : IssuesLanes i l k d cost lat f := by
  intro s h
  refine ⟨_, x s, fl s, hi s h.1, hl s, hx s, ?_⟩
  simpa using done_pops h g cost lat _ _ (hg s)

theorem issuesMask_of (i : Instr) (l : List VReg) (k d : KReg) (f : State → Fin 48 → Bool × BitVec 5)
    (g : State → WOut) (x : State → BitVec 48) (fl : State → BitVec 5)
    (hi : ∀ s, s.phase = .w → exec i s = .next (s.wIssue (withSrc l none g)))
    (hg : ∀ s, g s = .done s 1 2 (.k d (s.me.rk k) (x s)) (fl s)) (hx : ∀ s, ∀ n : Fin 48, laneMask (x s) n = (f s n).1)
    (hl : ∀ s, FlagsOf (fl s) (s.me.rk k) fun n => (f s n).2) : IssuesMask i l k d f := by
  intro s h
  refine ⟨_, x s, fl s, hi s h.1, hl s, hx s, ?_⟩
  simpa using done_pops h g 1 2 _ _ (hg s)

/-! The shapes of a W instruction. -/

theorem iV2_lanes (i : Instr) (k : KReg) (b a d : VReg) (lat cost : Nat) (f : Lane → Lane → Lane × BitVec 5)
    (hi : ∀ s, s.phase = .w → exec i s = .next (s.wIssue (iV2 lat cost f k b a d))) :
    IssuesLanes i [a, b] k d cost lat fun s n => f (s.me.src a)[n] (s.me.src b)[n] :=
  issuesLanes_of i _ k d cost lat _ _ (fun s => (lanesF (s.me.rk k) fun n => f (s.me.src a)[n] (s.me.src b)[n]).1)
    (fun s => (lanesF (s.me.rk k) fun n => f (s.me.src a)[n] (s.me.src b)[n]).2) hi (fun _ => rfl)
    (fun s n => lanesF_lane _ _ n) fun s => lanesF_flags _ _

theorem iV3_lanes (i : Instr) (k : KReg) (c b a d : VReg) (lat : Nat) (f : Lane → Lane → Lane → Lane × BitVec 5)
    (hi : ∀ s, s.phase = .w → exec i s = .next (s.wIssue (iV3 lat f k c b a d))) :
    IssuesLanes i [a, b, c] k d 1 lat fun s n => f (s.me.src a)[n] (s.me.src b)[n] (s.me.src c)[n] :=
  issuesLanes_of i _ k d 1 lat _ _ (fun s => (lanesF (s.me.rk k) fun n => f (s.me.src a)[n] (s.me.src b)[n] (s.me.src c)[n]).1)
    (fun s => (lanesF (s.me.rk k) fun n => f (s.me.src a)[n] (s.me.src b)[n] (s.me.src c)[n]).2) hi (fun _ => rfl)
    (fun s n => lanesF_lane _ _ n) fun s => lanesF_flags _ _

theorem iVC_lanes (i : Instr) (k : KReg) (a d : VReg) (lat : Nat) (t : VTy) (f : VTy → Lane → Lane → Lane × BitVec 5)
    (hi : ∀ s, s.phase = .w → exec i s = .next (s.wIssue (iVC lat t f k a d))) :
    IssuesLanes i [a] k d 1 lat fun s n => f t (s.me.src a)[n] (constLane t s.head.cst) :=
  issuesLanes_of i _ k d 1 lat _ _ (fun s => (lanesF (s.me.rk k) fun n => f t (s.me.src a)[n] (constLane t s.head.cst)).1)
    (fun s => (lanesF (s.me.rk k) fun n => f t (s.me.src a)[n] (constLane t s.head.cst)).2) hi (fun _ => rfl)
    (fun s n => lanesF_lane _ _ n) fun s => lanesF_flags _ _

theorem iCmp_mask (i : Instr) (k : KReg) (b a : VReg) (d : KReg) (t : VTy) (f : Int → Bool)
    (hi : ∀ s, s.phase = .w → exec i s = .next (s.wIssue (iCmp f k t b a d))) :
    IssuesMask i [a, b] k d fun s n => opRel f t (s.me.src a)[n] (s.me.src b)[n] :=
  issuesMask_of i _ k d _ _ (fun s => maskOf fun n => (opRel f t (s.me.src a)[n] (s.me.src b)[n]).1) 
    _ hi (fun _ => rfl)
    (fun s n => maskOf_lane _ n) fun s => flagsOf_foldl _ _

theorem iCmpC_mask (i : Instr) (k : KReg) (a : VReg) (d : KReg) (t : VTy) (f : Int → Bool)
    (hi : ∀ s, s.phase = .w → exec i s = .next (s.wIssue (iCmpC f t k a d))) :
    IssuesMask i [a] k d fun s n => opRel f t (s.me.src a)[n] (constLane t s.head.cst) :=
  issuesMask_of i _ k d _ _ (fun s => maskOf fun n => (opRel f t (s.me.src a)[n] (constLane t s.head.cst)).1) 
    _ hi (fun _ => rfl)
    (fun s n => maskOf_lane _ n) fun s => flagsOf_foldl _ _

theorem exec_w (f : State → WOut) (w : BitVec 32) (cst : State → Word) (s : State) (h : s.phase = .w) : wInstr w cst f s = .next (s.wIssue f) := by
  simp [wInstr, h]

theorem slt_toInt (a b : Lane) : a.slt b = decide (a.toInt < b.toInt) := rfl

end Sys2Proof.Machine
end

