-- ==== Sys2Proof/Laws/Tagged.lean ====
section
/-! SUPPORT. Scalar memory: the effective address as the statements write it, the fences on a drained core, and the tagged
operation on a word of the core's own scratchpad. -/

namespace Sys2Proof.Machine

theorem offM_eq (base : Word) (x : Pfx) (o : BitVec 7) (n : Nat) : base + offM x o n = elemAddr base x o n := by
  have h (i : Int) : BitVec.ofInt 64 (base.toInt + i * n) = base + BitVec.ofInt 64 i * BitVec.ofNat 64 n := by
    rw [BitVec.ofInt_add, BitVec.ofInt_mul, BitVec.ofInt_toInt]; rfl
  cases x <;> simp only [offM, elemAddr, signedField, h, BitVec.signExtend, pfxLast]

theorem mSize_cases (t : MTy) : mSize t = 1 ∨ mSize t = 2 ∨ mSize t = 4 ∨ mSize t = 8 := by cases t <;> simp [mSize]

theorem drained_of (c : Core) (h : ∀ p ∈ c.acc, p.p.kind = .uo) : c.drained false = true := by
  unfold Core.drained
  simp only [Bool.false_or, Bool.not_eq_true', List.any_eq_false]
  intro p hp
  simp [h p hp]

theorem drained_nil (c : Core) (b : Bool) (h : c.acc = []) : c.drained b = true := by simp [Core.drained, h]

theorem mem_tPut {α : Type} (t : Tab α) (k : Nat) (v : α) (p : Nat × α) (h : p ∈ tPut t k v) : p.1 = k ∨ p ∈ t := by
  induction t with
  | nil => simp [tPut] at h; simp [h]
  | cons q r ih =>
    obtain ⟨j, w⟩ := q
    unfold tPut at h
    split at h
    · rcases List.mem_cons.1 h with h | h
      · simp [h]
      · exact .inr h
    · split at h
      · rcases List.mem_cons.1 h with h | h
        · simp [h]
        · exact .inr (List.mem_cons_of_mem _ h)
      · rcases List.mem_cons.1 h with h | h
        · simp [h]
        · rcases ih h with h | h
          · exact .inl h
          · exact .inr (List.mem_cons_of_mem _ h)

theorem tGet_none {α : Type} (t : Tab α) (k : Nat) (h : ∀ p ∈ t, p.1 ≠ k) : tGet t k = none := by
  induction t with
  | nil => rfl
  | cons q r ih =>
    obtain ⟨j, w⟩ := q
    have := h (j, w) (List.mem_cons_self ..)
    simp only [tGet, if_neg this]
    exact ih fun p hp => h p (List.mem_cons_of_mem _ hp)

theorem spWord_dbg (x : Core) (d : Dbg) (o : Nat) : ({ x with dbg := d } : Core).spWord o = x.spWord o := by
  simp only [Core.spWord, spRead_dbg]

/-- The watchpoint's mark changes no wait. -/
theorem watch_olderWaits (s : State) (acc : Acc) (a : Word) (n k off : Nat) (x : Ctx) (i : Nat) (h : s.olderWaits k off x i = false) :
    (s.watch s.cur acc a n).olderWaits k off x i = false := by
  unfold State.watch
  dsimp only
  split
  · generalize hd : (fun x : Core => { x with dbg := { x.dbg with hit := true } }) = f
    have hf : ∀ x, ∃ d, f x = { x with dbg := d } ∧ d.halted = x.dbg.halted := by intro x; rw [← hd]; exact ⟨_, rfl, rfl⟩
    have core : ∀ c, ∃ d, (s.upd s.cur f).core c = { s.core c with dbg := d } ∧ d.halted = (s.core c).dbg.halted := by
      intro c
      by_cases hc : c = s.cur
      · subst hc; rw [State.core_upd_same]; exact hf _
      · rw [State.core_upd_other _ _ _ _ hc]; exact ⟨_, rfl, rfl⟩
    have word : ∀ c o, ((s.upd s.cur f).core c).spWord o = (s.core c).spWord o := by
      intro c o
      obtain ⟨d, e, -⟩ := core c
      rw [e, spWord_dbg]
    have full : ∀ c o, ((s.upd s.cur f).core c).full o = (s.core c).full o := by
      intro c o
      obtain ⟨d, e, -⟩ := core c
      rw [e]; rfl
    have wait : ∀ c, (s.upd s.cur f).waiter c = s.waiter c := by
      intro c
      unfold State.waiter
      have hw : (s.upd s.cur f).who c false = s.who c false := by
        obtain ⟨d, e, -⟩ := core c
        unfold State.who
        simp only [e]
        rfl
      obtain ⟨d, e, hh⟩ := core c
      have hr : ∀ wr p, ((s.upd s.cur f).core c).tagReady wr p = (s.core c).tagReady wr p := by intro wr p; rw [e]; rfl
      have hg : ((s.upd s.cur f).core c).dbg.halted = (s.core c).dbg.halted := by rw [e]; exact hh
      have hs : ((s.upd s.cur f).core c).stat = (s.core c).stat := by rw [e]
      simp only [word, full, hw, hr, hg, hs]
      rfl
    unfold State.olderWaits at h ⊢
    rw [Bool.or_eq_false_iff] at h ⊢
    obtain ⟨h, hpeer⟩ := h
    have peers : (s.upd s.cur f).peerWaits k off x i = s.peerWaits k off x i := by
      unfold State.peerWaits
      simp only [word, full]
      rfl
    refine ⟨?_, peers.trans hpeer⟩
    simp only [wait]
    rw [List.any_eq_false] at h ⊢
    intro p hp
    rcases mem_tPut _ _ _ _ hp with e | e
    · by_cases hk : ∃ q ∈ s.cores, q.1 = s.cur
      · obtain ⟨q, hq, hqe⟩ := hk
        have := h q hq
        rw [hqe] at this
        rw [e]; exact this
      · have : tGet s.cores s.cur = none := tGet_none _ _ fun q hq he => hk ⟨q, hq, he⟩
        have hz : s.core s.cur = Core.zero := by simp [State.core, this]
        rw [e]
        have : s.waiter s.cur = none := by unfold State.waiter; rw [hz]; rfl
        rw [this]; simp
    · exact h p e
  · exact h

theorem tagged_local (s : State) (op : TagOp) (ea : Word) (d : Reg) (v : Word) (dom : DTag) (ws lo : Nat) (h : s.TagWord lo ea)
    (hlo : (op = .take ∨ op = .stw ∨ op = .tclr ∨ op = .twait) → lo = 0x800) (hlo2 : (op = .stf ∨ op = .tset) → lo = 0x80)
    (hc : tagCond op (s.me.full ea.toNat) = true) (hw : tagWrites op = true → s.me.Released false) :
    ∃ t, Marked s t ∧ tagged op ea d v dom ws s = .next (t.sDone ws 2 fun c =>
          let c' := (tagDo op ea.toNat v s.cyc c).2
          if tagRd op then c'.ws d (tagDo op ea.toNat v s.cyc t.me).1 else c') := by
  obtain ⟨h0, h1, h2, h3, hwh, h4, h5, h6⟩ := h
  have hm := watch_marked s .tagged ea 8
  have ho := watch_olderWaits s .tagged ea 8 s.cur ea.toNat _ s.nextId h4
  refine ⟨_, hm, ?_⟩
  unfold tagged
  dsimp only
  have hni : (s.watch s.cur .tagged ea 8).nextId = s.nextId := by rw [hm.1.1]
  rw [← hni, ← hm.who] at ho
  generalize s.watch s.cur .tagged ea 8 = t at hm ho ⊢
  have hcu : t.cur = s.cur := hm.1.cur
  have hcy : t.cyc = s.cyc := hm.1.cyc
  have hacc := hm.acc
  obtain ⟨m1, m2, x, m3, m4⟩ := hm
  have hp : t.tagPlace (some op) ea 8 = .inr (s.cur, ea.toNat) := by
    unfold State.tagPlace
    dsimp only
    rw [if_neg (by omega), classify_local _ _ _ h3]
    dsimp only
    rw [viaAperture_local ea h3]
    rw [if_neg (by simp; omega), if_neg, if_neg, hcu]
    · rintro ⟨k1, k2⟩
      have := hlo2 (by simpa using k2)
      omega
    · rintro ⟨k1, k2⟩
      have := hlo (by simpa using k2)
      omega
  rw [hp]
  dsimp only
  have hfull : t.me.full ea.toNat = s.me.full ea.toNat := by rw [m3]; rfl
  have hwt : (t.core t.cur).Whole ea.toNat 8 := by rw [← State.me_eq, m3]; exact hwh
  rw [if_neg (by omega), if_pos, ← hcu, soft_local t _ _ _ _ _ _ _ _ _ _ _ hwt, hcy]
  refine ⟨hcu.symm, by rw [hfull]; exact hc, ?_, by simp [ho]⟩
  have h5' : t.me.SpFree s.cur false := by rw [m3]; exact h5
  unfold Core.tagReady
  have hr : (! tagWrites op || t.me.released false) = true := by
    cases hq : tagWrites op
    · rfl
    · have := h5'.storeReady (rel := true) fun _ => by unfold Core.Released; rw [hacc]; exact hw hq
      simp only [Core.storeReady, Bool.and_eq_true] at this
      simpa using this.1.2
  rw [h5'.handedOver, hr, Bool.true_and, Bool.true_and, Bool.not_eq_true', List.any_eq_false]
  intro a ha
  cases hwa : a.w
  · have hs := h5' a ha
    rw [if_pos hwa] at hs
    rw [hacc] at ha
    have hn := h6 a ha hwa
    have : sameSp a.p.at_ (.sp s.cur ea.toNat) = false := by rw [sameSp_off _ _ _ 0]; exact hs
    rw [this]
    cases hop : a.op with
    | arrive x y => exact absurd hop (hn x y)
    | store bs => simp
    | atomic o b e wt => simp
  · simp

end Sys2Proof.Machine
end

