-- ==== Sys2Proof/Laws/Trap.lean ====
section
/-! SUPPORT. Taking an exception: the one lemma about the shared entry, the precise trap of an instruction that runs on a drained
core, and the wake of a core that waits for a service. -/

namespace Sys2Proof.Machine

theorem wDrained_iff (c : Core) : c.wDrained = true ↔ c.wbuf = [] ∧ c.wpend = [] := by
  simp [Core.wDrained, List.isEmpty_iff]

theorem enterTrap_enters (s : State) (c : Nat) (r : TrapRec) (h : HEnt) (hi : (s.core c).c.intrap = false)
    (hh : s.handler (s.who c false).ctx 255 = some h) : s.Enters (s.enterTrap c r) c r h.entry := by
  unfold State.enterTrap
  dsimp only
  generalize hs1 : (s.upd c fun x => { x with dbg := { x.dbg with skip := false } }) = s1
  have e1 : s1.core c = { s.core c with dbg := { (s.core c).dbg with skip := false } } := by rw [← hs1, State.core_upd_same]
  have o1 : s.OnlyCore s1 c := by rw [← hs1]; exact .upd s c _
  have ew : s1.who c false = s.who c false := by unfold State.who; simp only [e1, dtag_hub o1.hub]
  have eh : s1.handler (s1.who c false).ctx 255 = some h := by
    have em : s1.mem = s.mem := by rw [← hs1]; rfl
    rw [ew, ← hh]; unfold State.handler; rw [o1.hub, em]
  rw [hi, if_neg (by simp), eh]
  dsimp only
  generalize hs2 : (s1.upd c _) = s2
  have e2 : s2.core c = { s.core c with
      c := { (s.core c).c with cause := BitVec.ofBool r.wstr ++ r.cause, tpc := r.pc, tval := r.val, intrap := true }
      pc := h.entry, stat := .run, ready := s.cyc + 1, waitFrom := none, pread := [], dbg := { (s.core c).dbg with skip := false } } := by
    rw [← hs2, State.core_upd_same, e1]
    rw [← hs1]; rfl
  have o2 : s.OnlyCore s2 c := o1.trans (by rw [e1]; exact ⟨rfl, rfl⟩) (by rw [← hs2]; exact .upd s1 c _)
  obtain ⟨o3, p, l, e3⟩ := s2.trace_spec c 3#8 (BitVec.setWidth 64 (BitVec.ofBool r.wstr ++ r.cause)) r.pc r.val
  generalize s2.trace c _ _ _ _ = s3 at o3 e3 ⊢
  obtain ⟨o4, d, e4, e5, e6⟩ := s3.stepEnd_spec c
  have o5 : s.OnlyCore s3 c := o2.trans (by rw [e2]; exact ⟨rfl, rfl⟩) o3
  refine ⟨o5.trans (by rw [e3, e2]; exact ⟨rfl, rfl⟩) o4, ?_, ?_⟩
  · rw [e4]
    rw [e3, e2] at e5 e6
    refine ⟨e5, fun hs => ?_⟩
    rw [e6 hs]; exact ⟨rfl, rfl, rfl⟩
  · rw [e4, e3, e2]

theorem trap_enters (s : State) (cause v entry) (h : s.CanTrap entry) : s.Enters (s.sTrap cause v) s.cur ⟨cause, s.me.pc, v, false⟩ entry := by
  obtain ⟨h1, h2, h3, k, h4, h5⟩ := h
  unfold State.sTrap
  dsimp only
  rw [if_pos ((wDrained_iff _).2 ⟨h1, h2⟩), ← h5]
  exact enterTrap_enters s s.cur _ k h3 h4

theorem wake_wakes (i : Instr) (s : State) (c n k : Nat) (f : Core → Core) (hf : DbgBlind f) (h : exec i s = .next (s.wake c n k f)) :
    Wakes i s c n k f := ⟨_, h, State.sGo_spec { s with cur := c } _ _ f hf⟩

end Sys2Proof.Machine
end

