-- ==== Sys2Proof/Tests/Slice0.lean ====
section
/-! SUPPORT. The model's own tests: words of every encoding, the well-formedness smoke, the spec's worked numbers, and for each statement
that has hypotheses a witness of every clause. -/

namespace Sys2Proof.Machine

set_option Elab.async false

/-! Decoding: a word of each encoding, its fields as the tables of 03, and of the instruction's rule, place them: MAJ in bits 5 to 0, FN in 31
to 28 or where the form has it, every operand with a value of its own. -/

def reads (l : List (BitVec 32 × Instr)) : Bool := l.all fun p => decide (decode [p.1] = .ok p.2 1)

theorem test_words_1 : reads [
    (0x00364941#32, .add .i32 22#5 9#5 5#5), (0x04364941#32, .sub .i32 22#5 9#5 5#5), (0x08364941#32, .and .i32 22#5 9#5 5#5),
    (0x0C364941#32, .or .i32 22#5 9#5 5#5), (0x10364941#32, .xor .i32 22#5 9#5 5#5), (0x14364941#32, .andn .i32 22#5 9#5 5#5),
    (0x18364941#32, .orn .i32 22#5 9#5 5#5), (0x1C364941#32, .shl .i32 22#5 9#5 5#5), (0x20364941#32, .shr .i32 22#5 9#5 5#5),
    (0x24364941#32, .sra .i32 22#5 9#5 5#5), (0x28364941#32, .ror .i32 22#5 9#5 5#5), (0x2C364941#32, .mul .i32 22#5 9#5 5#5),
    (0x30364941#32, .mulh .i32 22#5 9#5 5#5), (0x34364941#32, .mulhu .i32 22#5 9#5 5#5), (0x38364941#32, .div .i32 22#5 9#5 5#5)] = true := by decide

theorem test_words_2 : reads [
    (0x3C364941#32, .divu .i32 22#5 9#5 5#5), (0x40364941#32, .rem .i32 22#5 9#5 5#5), (0x44364941#32, .remu .i32 22#5 9#5 5#5),
    (0x48364941#32, .min .i32 22#5 9#5 5#5), (0x4C364941#32, .max .i32 22#5 9#5 5#5), (0x50364941#32, .minu .i32 22#5 9#5 5#5),
    (0x54364941#32, .maxu .i32 22#5 9#5 5#5), (0x58364941#32, .ceq .i32 22#5 9#5 5#5), (0x5C364941#32, .cne .i32 22#5 9#5 5#5),
    (0x60364941#32, .clt .i32 22#5 9#5 5#5), (0x64364941#32, .cltu .i32 22#5 9#5 5#5), (0x68364941#32, .cle .i32 22#5 9#5 5#5),
    (0x6C364941#32, .cleu .i32 22#5 9#5 5#5), (0x70204941#32, .abs .i32 9#5 5#5), (0x74204941#32, .clz .i32 9#5 5#5)] = true := by decide

theorem test_words_3 : reads [
    (0x78204941#32, .ctz .i32 9#5 5#5), (0x7C204941#32, .popc .i32 9#5 5#5), (0x80364941#32, .bfx .i32 22#5 9#5 5#5),
    (0x029D4942#32, .addConst 167#8 .i32 9#5 5#5), (0x069D4942#32, .subConst 167#8 .i32 9#5 5#5),
    (0x0A9D4942#32, .andConst 167#8 .i32 9#5 5#5), (0x0E9D4942#32, .orConst 167#8 .i32 9#5 5#5),
    (0x129D4942#32, .xorConst 167#8 .i32 9#5 5#5), (0x169D4942#32, .andnConst 167#8 .i32 9#5 5#5),
    (0x1A9D4942#32, .ornConst 167#8 .i32 9#5 5#5), (0x1E9D4942#32, .shlConst 167#8 .i32 9#5 5#5),
    (0x229D4942#32, .shrConst 167#8 .i32 9#5 5#5), (0x269D4942#32, .sraConst 167#8 .i32 9#5 5#5),
    (0x2A9D4942#32, .rorConst 167#8 .i32 9#5 5#5), (0x2E9D4942#32, .mulConst 167#8 .i32 9#5 5#5)] = true := by decide

theorem test_words_4 : reads [
    (0x329D4942#32, .mulhConst 167#8 .i32 9#5 5#5), (0x369D4942#32, .mulhuConst 167#8 .i32 9#5 5#5),
    (0x3A9D4942#32, .divConst 167#8 .i32 9#5 5#5), (0x3E9D4942#32, .divuConst 167#8 .i32 9#5 5#5),
    (0x429D4942#32, .remConst 167#8 .i32 9#5 5#5), (0x469D4942#32, .remuConst 167#8 .i32 9#5 5#5),
    (0x4A9D4942#32, .minConst 167#8 .i32 9#5 5#5), (0x4E9D4942#32, .maxConst 167#8 .i32 9#5 5#5),
    (0x529D4942#32, .minuConst 167#8 .i32 9#5 5#5), (0x569D4942#32, .maxuConst 167#8 .i32 9#5 5#5),
    (0x5A9D4942#32, .ceqConst 167#8 .i32 9#5 5#5), (0x5E9D4942#32, .cneConst 167#8 .i32 9#5 5#5),
    (0x629D4942#32, .cltConst 167#8 .i32 9#5 5#5), (0x669D4942#32, .cltuConst 167#8 .i32 9#5 5#5),
    (0x6A9D4942#32, .cleConst 167#8 .i32 9#5 5#5)] = true := by decide

theorem test_words_5 : reads [
    (0x6E9D4942#32, .cleuConst 167#8 .i32 9#5 5#5), (0x829D4942#32, .bfxConst 167#8 .i32 9#5 5#5),
    (0xB1C04943#32, .addImm .none 2844#12 9#5 5#5), (0xB1C14943#32, .andImm .none 2844#12 9#5 5#5),
    (0xB1C24943#32, .orImm .none 2844#12 9#5 5#5), (0xB1C34943#32, .xorImm .none 2844#12 9#5 5#5),
    (0xB1C44943#32, .shlImm .none 2844#12 9#5 5#5), (0xB1C54943#32, .shrImm .none 2844#12 9#5 5#5),
    (0xB1C64943#32, .sraImm .none 2844#12 9#5 5#5), (0xB1C74943#32, .rorImm .none 2844#12 9#5 5#5),
    (0xB1C84943#32, .mulImm .none 2844#12 9#5 5#5), (0xB1C94943#32, .minImm .none 2844#12 9#5 5#5),
    (0xB1CA4943#32, .maxImm .none 2844#12 9#5 5#5), (0xB1CB4943#32, .ceqImm .none 2844#12 9#5 5#5),
    (0xB1CC4943#32, .cneImm .none 2844#12 9#5 5#5)] = true := by decide

theorem test_words_6 : reads [
    (0xB1CD4943#32, .cltImm .none 2844#12 9#5 5#5), (0xB1CE4943#32, .cleImm .none 2844#12 9#5 5#5),
    (0xB1CF4943#32, .cltuImm .none 2844#12 9#5 5#5), (0xAD1E3944#32, .li .none 1418183#21 5#5),
    (0xD1A8B245#32, .beq .none 6709#13 22#5 9#5), (0xD1A9B245#32, .bne .none 6709#13 22#5 9#5),
    (0xD1AAB245#32, .blt .none 6709#13 22#5 9#5), (0xD1ABB245#32, .bge .none 6709#13 22#5 9#5),
    (0xD1ACB245#32, .bltu .none 6709#13 22#5 9#5), (0xD1ADB245#32, .bgeu .none 6709#13 22#5 9#5),
    (0xD1AE0245#32, .loop .none 6709#13 9#5), (0xAD1E3806#32, .j .none 1418183#21), (0xAD1E3946#32, .call .none 1418183#21 5#5),
    (0x00004947#32, .jr 9#5 5#5), (0xA6C54948#32, .ld .none 83#7 .acq .dev .u16 9#5 5#5)] = true := by decide

theorem test_words_7 : reads [
    (0xA74A4949#32, .st .none 83#7 .rel .dev .imm .i32 9#5 5#5), (0xB1C0494A#32, .ldw .none 2844#12 9#5 5#5),
    (0xB1C9494A#32, .take .none 2844#12 .imm 9#5 5#5), (0xB1CA494A#32, .stw .none 2844#12 .imm 9#5 5#5),
    (0xB1CB494A#32, .stf .none 2844#12 .imm 9#5 5#5), (0xB1CC480A#32, .tset .none 2844#12 .imm 9#5),
    (0xB1CD480A#32, .tclr .none 2844#12 .imm 9#5), (0xB1C6494A#32, .trd .none 2844#12 9#5 5#5),
    (0xB1C7480A#32, .twait .none 2844#12 9#5), (0x00B6494B#32, .ldx .u16 22#5 9#5 5#5), (0x0456494B#32, .stx .i32 22#5 9#5 5#5),
    (0x0816494B#32, .ldp 22#5 9#5 5#5), (0x0C16494B#32, .stp 22#5 9#5 5#5), (0x1000480B#32, .zblk 9#5), (0x1400480B#32, .pf)] = true := by decide

theorem test_words_8 : reads [
    (0x1A80000B#32, .fence .rel .dev), (0x1C00000B#32, .drain), (0x2000488B#32, .qpush 9#5 2#2), (0x2400314B#32, .qpop 2#2 5#5),
    (0x0116480C#32, .send .imm 22#5 9#5), (0x0516480C#32, .sendi .imm 22#5 9#5), (0x0A17014C#32, .enq (.reg 23#5) 5#5),
    (0x0C00000C#32, .done), (0x1000480C#32, .defer 9#5), (0x1400480C#32, .breg 9#5), (0x1800480C#32, .barr 9#5),
    (0x0000494D#32, .dnew 9#5 5#5), (0x0617494D#32, .djoin (.reg 23#5) 9#5 5#5), (0x0A17494D#32, .dleave (.reg 23#5) 9#5 5#5),
    (0x0E17014D#32, .dannul (.reg 23#5) 5#5)] = true := by decide

theorem test_words_9 : reads [
    (0x1217494D#32, .dwhen (.reg 23#5) 9#5 5#5), (0x1617494D#32, .dmask (.reg 23#5) 9#5 5#5),
    (0x0116494E#32, .nopen .imm 22#5 9#5 5#5), (0x0136494E#32, .nopenWait .imm 22#5 9#5 5#5), (0x0400494E#32, .nclose 9#5 5#5),
    (0x0900494E#32, .nbind .imm 9#5 5#5), (0x0C16494E#32, .nq 22#5 9#5 5#5), (0x1016494E#32, .rseal 22#5 9#5 5#5),
    (0x0100494F#32, .cpy .imm 9#5 5#5), (0x0400480F#32, .waitp 9#5), (0x0800494F#32, .wm 9#5 5#5), (0x0C00000F#32, .xfence),
    (0x01364950#32, .aadd .imm .i32 22#5 9#5 5#5), (0x05564950#32, .amin .imm .u64 22#5 9#5 5#5),
    (0x09564950#32, .amax .imm .u64 22#5 9#5 5#5)] = true := by decide

theorem test_words_10 : reads [
    (0x0D364950#32, .aand .imm .i32 22#5 9#5 5#5), (0x11364950#32, .aor .imm .i32 22#5 9#5 5#5),
    (0x15364950#32, .axchg .imm .i32 22#5 9#5 5#5), (0x19364950#32, .acas .imm .i32 22#5 9#5 5#5),
    (0x02174951#32, .put (.reg 23#5) 9#5 5#5), (0x06174951#32, .putsg (.reg 23#5) 9#5 5#5), (0x0A174951#32, .get (.reg 23#5) 9#5 5#5),
    (0x0E174951#32, .padd (.reg 23#5) 9#5 5#5), (0x12174951#32, .arm (.reg 23#5) 9#5 5#5), (0x14164951#32, .sigw 22#5 9#5 5#5),
    (0x1A174951#32, .ringj (.reg 23#5) 9#5 5#5), (0x00500012#32, .trap), (0x00010012#32, .eret), (0x00520152#32, .cwr .trappc 5#5),
    (0x00534812#32, .cww .trappc 9#5)] = true := by decide

theorem test_words_11 : reads [
    (0xB1C40012#32, .ckpt 2844#12), (0x00050152#32, .time 5#5), (0x00060152#32, .cyc 5#5), (0x00074812#32, .waitc 9#5),
    (0x00580012#32, .brk), (0x00000AFE#32, .nop), (0x04000AFE#32, .hintPoll), (0x08000AFE#32, .hintMark), (0x0C000AFE#32, .hintOther),
    (0xA8164960#32, .vadd 5#3 .i32 22#5 9#5 5#5), (0xA8364960#32, .vsub 5#3 .i32 22#5 9#5 5#5),
    (0xA8564960#32, .vmul 5#3 .i32 22#5 9#5 5#5), (0xA8764960#32, .vmin 5#3 .i32 22#5 9#5 5#5),
    (0xA8964960#32, .vmax 5#3 .i32 22#5 9#5 5#5), (0xA8A04960#32, .vabs 5#3 .i32 9#5 5#5)] = true := by decide

theorem test_words_12 : reads [
    (0xA8C04960#32, .vneg 5#3 .i32 9#5 5#5), (0xA8F649A0#32, .vceq 5#3 .i32 22#5 9#5 6#3),
    (0xA91649A0#32, .vclt 5#3 .i32 22#5 9#5 6#3), (0xA93649A0#32, .vcle 5#3 .i32 22#5 9#5 6#3),
    (0xA9564960#32, .vsel 5#3 .i32 22#5 9#5 5#5), (0xA9764960#32, .vand 5#3 .i32 22#5 9#5 5#5),
    (0xA9964960#32, .vor 5#3 .i32 22#5 9#5 5#5), (0xA9B64960#32, .vxor 5#3 .i32 22#5 9#5 5#5), (0xA9D64960#32, .vshl 5#3 22#5 9#5 5#5),
    (0xA9F64960#32, .vshr 5#3 22#5 9#5 5#5), (0xAA164960#32, .vsra 5#3 22#5 9#5 5#5), (0xAA204960#32, .vcvt 5#3 .i32 .f32 9#5 5#5),
    (0xA6404960#32, .vrcp 5#3 .bf16 9#5 5#5), (0xA6604960#32, .vrsq 5#3 .bf16 9#5 5#5), (0xA6804960#32, .vexp 5#3 .bf16 9#5 5#5)] = true := by decide

theorem test_words_13 : reads [
    (0xA6A04960#32, .vlog 5#3 .bf16 9#5 5#5), (0xA6C04960#32, .vtanh 5#3 .bf16 9#5 5#5), (0xA6E04960#32, .vsig 5#3 .bf16 9#5 5#5),
    (0xAB164960#32, .vperm 5#3 22#5 9#5 5#5), (0xADB24A21#32, .vfmaF32 5#3 13#5 22#5 9#5 5#5),
    (0xADB24A61#32, .vfmaBf16 5#3 13#5 22#5 9#5 5#5), (0xADB24AA1#32, .vfmsF32 5#3 13#5 22#5 9#5 5#5),
    (0xADB24AE1#32, .vfmsBf16 5#3 13#5 22#5 9#5 5#5), (0xADB24B21#32, .vfmaI32 5#3 13#5 22#5 9#5 5#5),
    (0xADB24B61#32, .vfmsI32 5#3 13#5 22#5 9#5 5#5), (0xA0A74962#32, .vaddF32Const 5#3 167#8 9#5 5#5),
    (0xA1A74962#32, .vsubF32Const 5#3 167#8 9#5 5#5), (0xA2A74962#32, .vmulF32Const 5#3 167#8 9#5 5#5),
    (0xA3A74962#32, .vminF32Const 5#3 167#8 9#5 5#5), (0xA4A74962#32, .vmaxF32Const 5#3 167#8 9#5 5#5)] = true := by decide

theorem test_words_14 : reads [
    (0xA7A749A2#32, .vceqF32Const 5#3 167#8 9#5 6#3), (0xA8A749A2#32, .vcltF32Const 5#3 167#8 9#5 6#3),
    (0xA9A749A2#32, .vcleF32Const 5#3 167#8 9#5 6#3), (0xABA74962#32, .vandF32Const 5#3 167#8 9#5 5#5),
    (0xACA74962#32, .vorF32Const 5#3 167#8 9#5 5#5), (0xADA74962#32, .vxorF32Const 5#3 167#8 9#5 5#5),
    (0xA0A74963#32, .vaddBf16Const 5#3 167#8 9#5 5#5), (0xA1A74963#32, .vsubBf16Const 5#3 167#8 9#5 5#5),
    (0xA2A74963#32, .vmulBf16Const 5#3 167#8 9#5 5#5), (0xA3A74963#32, .vminBf16Const 5#3 167#8 9#5 5#5),
    (0xA4A74963#32, .vmaxBf16Const 5#3 167#8 9#5 5#5), (0xA7A749A3#32, .vceqBf16Const 5#3 167#8 9#5 6#3),
    (0xA8A749A3#32, .vcltBf16Const 5#3 167#8 9#5 6#3), (0xA9A749A3#32, .vcleBf16Const 5#3 167#8 9#5 6#3),
    (0xABA74963#32, .vandBf16Const 5#3 167#8 9#5 5#5)] = true := by decide

theorem test_words_15 : reads [
    (0xACA74963#32, .vorBf16Const 5#3 167#8 9#5 5#5), (0xADA74963#32, .vxorBf16Const 5#3 167#8 9#5 5#5),
    (0xA0A74964#32, .vaddI32Const 5#3 167#8 9#5 5#5), (0xA1A74964#32, .vsubI32Const 5#3 167#8 9#5 5#5),
    (0xA2A74964#32, .vmulI32Const 5#3 167#8 9#5 5#5), (0xA3A74964#32, .vminI32Const 5#3 167#8 9#5 5#5),
    (0xA4A74964#32, .vmaxI32Const 5#3 167#8 9#5 5#5), (0xA7A749A4#32, .vceqI32Const 5#3 167#8 9#5 6#3),
    (0xA8A749A4#32, .vcltI32Const 5#3 167#8 9#5 6#3), (0xA9A749A4#32, .vcleI32Const 5#3 167#8 9#5 6#3),
    (0xABA74964#32, .vandI32Const 5#3 167#8 9#5 5#5), (0xACA74964#32, .vorI32Const 5#3 167#8 9#5 5#5),
    (0xADA74964#32, .vxorI32Const 5#3 167#8 9#5 5#5), (0xAEA74964#32, .vshlI32Const 5#3 167#8 9#5 5#5),
    (0xAFA74964#32, .vshrI32Const 5#3 167#8 9#5 5#5)] = true := by decide

theorem test_words_16 : reads [
    (0xB0A74964#32, .vsraI32Const 5#3 167#8 9#5 5#5), (0x0A5036A5#32, .vext .i32 37#6 2#2 26#5),
    (0x0A5116A5#32, .vins .i32 37#6 2#2 26#5), (0xA80216A5#32, .vbc 5#3 .i32 2#2 26#5), (0xA80336A5#32, .vred 5#3 .i32 2#2 26#5),
    (0xA80436A5#32, .vrmax 5#3 .i32 2#2 26#5), (0xA80536A5#32, .vrmin 5#3 .i32 2#2 26#5), (0x000631A5#32, .kget 2#2 6#3),
    (0x000711A5#32, .kput 2#2 6#3), (0xAB58E166#32, .vld 5#3 .i32 true 2#2 2844#12 5#5),
    (0xAB58E167#32, .vst 5#3 .i32 true 2#2 2844#12 5#5), (0xB758E168#32, .vbld 5#3 .f10e5 true 2#2 2844#12 5#5),
    (0xB758E169#32, .vbst 5#3 .f10e5 true 2#2 2844#12 5#5), (0xAB00896A#32, .vgath 5#3 .i32 true 2#2 17#5 5#5),
    (0xAB00896B#32, .vscat 5#3 .i32 true 2#2 17#5 5#5)] = true := by decide

theorem test_words_17 : reads [
    (0x00A7076C#32, .smode 167#8 5#3), (0x0100076C#32, .soff 5#3), (0x0A70F2ED#32, .mma 167#8 true true true .i5 11#4),
    (0x1A70F2ED#32, .mmaj 167#8 true true true .i5 11#4), (0x200002ED#32, .aclr 11#4), (0x300602ED#32, .acpy 6#4 11#4),
    (0x400602ED#32, .radd 6#4 11#4), (0x500052ED#32, .rscl 5#3 11#4), (0x6A7032ED#32, .rdout 167#8 .i10 11#4),
    (0x700002ED#32, .publOpen 11#4), (0x700012ED#32, .publClose 11#4), (0x8A70002D#32, .still 167#8),
    (0x9A7002ED#32, .aspl 167#8 11#4), (0xAA7002ED#32, .afil 167#8 11#4), (0xBA70002D#32, .mwait 167#8)] = true := by decide

/-- Every word that the worked examples of the spec write out (03, 05 to 10, 12 to 15, 18), with the instruction beside it. -/
theorem test_words_worked_1 : reads [
    (0x00500142#32, .addConst 20#8 .i64 0#5 5#5), (0x00542942#32, .addConst 21#8 .i64 5#5 5#5), (0x0C00000C#32, .done),
    (0x02433149#32, .st .none 1#7 .pg .dev .inh .i64 6#5 5#5), (0x03104821#32, .vfmaF32 0#3 3#5 2#5 1#5 4#5),
    (0x042520C1#32, .sub .i32 5#5 4#5 3#5), (0xFFF02943#32, .addImm .none 0xFFF#12 5#5 5#5), (0x00400184#32, .li .none 0x800#21 6#5),
    (0x06C63208#32, .ld .none 3#7 .acq .dev .u32 6#5 8#5), (0x120101CA#32, .take .none 0x120#12 .inh 0#5 7#5),
    (0xFFEE0245#32, .loop .none 0x1FFD#13 9#5), (0x000208E0#32, .vadd 0#3 .f32 2#5 1#5 3#5), (0x010208A0#32, .vclt 0#3 .f32 2#5 1#5 2#3),
    (0x021431A2#32, .vmulF32Const 0#3 20#8 6#5 6#5), (0x000321A5#32, .vred 0#3 .f32 0#2 6#5), (0x0C0001A8#32, .vbld 0#3 .i10 false 0#2 0#12 6#5),
    (0x2000300B#32, .qpush 6#5 0#2), (0x2400214B#32, .qpop 0#2 5#5), (0x0007300C#32, .send .inh 7#5 6#5), (0x0500300C#32, .sendi .imm 0#5 6#5),
    (0x0800014C#32, .enq .inh 5#5), (0x0A09014C#32, .enq (.reg 9#5) 5#5), (0x1000380C#32, .defer 7#5), (0x1800300C#32, .barr 6#5),
    (0x0000314D#32, .dnew 6#5 5#5), (0x0400314D#32, .djoin .inh 6#5 5#5), (0x0609314D#32, .djoin (.reg 9#5) 6#5 5#5),
    (0x0800314D#32, .dleave .inh 6#5 5#5), (0x0E09014D#32, .dannul (.reg 9#5) 5#5), (0x1000314D#32, .dwhen .inh 6#5 5#5),
    (0x1400314D#32, .dmask .inh 6#5 5#5), (0x01E0C0ED#32, .mma 30#8 true true false .i10 3#4), (0x4002006D#32, .radd 2#4 1#4),
    (0x5000306D#32, .rscl 3#3 1#4), (0x6160006D#32, .rdout 22#8 .i32 1#4), (0x1880000B#32, .fence .acqrel .dev), (0x1A40000B#32, .fence .rel .clu),
    (0x1900000B#32, .fence .acq .core), (0x1C00000B#32, .drain), (0x0000314F#32, .cpy .inh 6#5 5#5)] = true := by decide

theorem test_words_worked_2 : reads [
    (0x0100314F#32, .cpy .imm 6#5 5#5), (0x0400380F#32, .waitp 7#5), (0x0800314F#32, .wm 6#5 5#5), (0x0C00000F#32, .xfence),
    (0x1007314E#32, .rseal 7#5 6#5 5#5), (0x001E062C#32, .smode 30#8 0#3), (0x0100062C#32, .soff 0#3), (0x7000006D#32, .publOpen 1#4),
    (0x7000106D#32, .publClose 1#4), (0x8180002D#32, .still 24#8), (0x300100AD#32, .acpy 1#4 2#4), (0x400100AD#32, .radd 1#4 2#4),
    (0x500070AD#32, .rscl 7#3 2#4), (0x0007314E#32, .nopen .inh 7#5 6#5 5#5), (0x0027314E#32, .nopenWait .inh 7#5 6#5 5#5),
    (0x0107314E#32, .nopen .imm 7#5 6#5 5#5), (0x0400314E#32, .nclose 6#5 5#5), (0x0800314E#32, .nbind .inh 6#5 5#5),
    (0x0C07314E#32, .nq 7#5 6#5 5#5), (0x00073150#32, .aadd .inh .i64 7#5 6#5 5#5), (0x00073010#32, .aadd .inh .i64 7#5 6#5 0#5),
    (0x04673150#32, .amin .inh .u32 7#5 6#5 5#5), (0x18273150#32, .acas .inh .i32 7#5 6#5 5#5), (0x00003151#32, .put .inh 6#5 5#5),
    (0x04003151#32, .putsg .inh 6#5 5#5), (0x08003151#32, .get .inh 6#5 5#5), (0x0E093151#32, .padd (.reg 9#5) 6#5 5#5),
    (0x11003151#32, .arm .imm 6#5 5#5), (0x14073151#32, .sigw 7#5 6#5 5#5), (0x18003151#32, .ringj .inh 6#5 5#5), (0x00500012#32, .trap),
    (0x00010012#32, .eret), (0x00520152#32, .cwr .trappc 5#5), (0x00533012#32, .cww .trappc 6#5), (0x00040012#32, .ckpt 0#12),
    (0x00050152#32, .time 5#5), (0x00060152#32, .cyc 5#5), (0x00073812#32, .waitc 7#5), (0x00180012#32, .brk)] = true := by decide

theorem test_words_prefixed : decode [0x000004BF#32, 0x345001C3#32] = .ok (.addImm (.one 18#26) 0x345#12 0#5 7#5) 2 := by decide

/-! Well-formedness: a term for each check, which the check refuses (03 R43, R44, R45, R49, R52; 00 R1). -/

theorem test_wf_refuses_words : [
    Instr.li (.two 0#26 0#26) 0#21 1#5, .beq (.two 0#26 0#26) 0#13 1#5 1#5, .bne (.two 0#26 0#26) 0#13 1#5 1#5,
    .blt (.two 0#26 0#26) 0#13 1#5 1#5, .bge (.two 0#26 0#26) 0#13 1#5 1#5, .bltu (.two 0#26 0#26) 0#13 1#5 1#5,
    .bgeu (.two 0#26 0#26) 0#13 1#5 1#5, .loop (.two 0#26 0#26) 0#13 1#5, .j (.two 0#26 0#26) 0#21, .call (.two 0#26 0#26) 0#21 1#5,
    .call .none 0#21 0#5, .ld (.two 0#26 0#26) 0#7 .pg .core .i64 1#5 1#5, .st (.two 0#26 0#26) 0#7 .pg .core .inh .i64 1#5 1#5,
    .ldw (.two 0#26 0#26) 0#12 1#5 1#5, .take (.two 0#26 0#26) 0#12 .inh 1#5 1#5, .stw (.two 0#26 0#26) 0#12 .inh 1#5 1#5,
    .stf (.two 0#26 0#26) 0#12 .inh 1#5 1#5, .tset (.two 0#26 0#26) 0#12 .inh 1#5, .tclr (.two 0#26 0#26) 0#12 .inh 1#5,
    .trd (.two 0#26 0#26) 0#12 1#5 1#5, .twait (.two 0#26 0#26) 0#12 1#5, .enq (.reg 0#5) 1#5, .djoin .imm 1#5 1#5, .djoin (.reg 0#5) 1#5 1#5,
    .dleave .imm 1#5 1#5, .dannul .imm 1#5, .dwhen (.reg 0#5) 1#5 1#5, .dmask (.reg 0#5) 1#5 1#5, .put (.reg 0#5) 1#5 1#5,
    .putsg (.reg 0#5) 1#5 1#5, .get (.reg 0#5) 1#5 1#5, .padd (.reg 0#5) 1#5 1#5, .arm (.reg 0#5) 1#5 1#5, .ringj (.reg 0#5) 1#5 1#5,
    .vcvt 0#3 .f32 .f32 1#5 1#5, .vext .f32 48#6 0#2 1#5, .vins .f32 48#6 0#2 1#5, .mma 0#8 true true true .i10 0#4,
    .mmaj 0#8 true true true .i10 0#4].all (fun i => ! i.wf) = true := by decide

theorem test_wf_refuses_steps : [
    Instr.wIssue 4096, .wWriteLanding 4096, .stripFetch 4096 0#3, .slicePartStart 4096, .slicePartComplete 4096, .gangStart 512,
    .gangComplete 512, .mmajIterationBoundary 512, .gangto 512, .rippleArrival 4096, .markArrival 4096, .rippleAck 4096 0 0#16,
    .rippleResend 4096, .remoteTileArrival 4096, .wbHeldWrite 4096, .activationStart 4096, .activationEnd 4096, .deferEligible 0 0#2 16,
    .outboundEntryFree 4096, .peerNoticeResend 1#16 192, .storePerform 4096 0, .loadReply 4096 .own, .taggedWaitWake 4096,
    .waitLimitExpiry 4096, .cycleWaitEnd 4096, .fenceDrainEnd 4096, .serviceReply 4096, .barrierArrival 4096 0, .trapEntry 4096,
    .clusterReport 64, .jobRelease 4096 0, .jobStart 4096 0, .jobIteration 4096 0 .none, .jobComplete 4096 0, .dropNoticeArrival 4096 0,
    .signalSend 4096 0, .heldFiringSubmit 4096, .atomicPerform 4096 0, .ringJobStart 24, .ringChunkStep 24 (.chunk 0#16 ⟨2, 0, 0, 0, 0⟩ []), .ringLossTimeout 24,
    .lossMarkArrival 24 1#192, .ringJobEnd 24, .tableWalk 4096 0#64 .load, .lateViolationReport 4096 0#64 0#16 none,
    .clusterShootdownAck 64, .leaseRecall 192 0, .leaseRecallTimeout 192].all (fun i => ! i.wf) = true := by decide

theorem test_wf_refuses_steps_2 : [
    Instr.faultRetry 65 0, .faultDeny 65 0, .faultAck 65 0, .thaw 4096 none, .coreRetire 4096, .preemptRequest 4096, .preemptTimeout 4096,
    .contextResume 4096 0#16, .haltRequest 4096, .haltRelease 4096, .singleStep 4096, .debugHalt 4096, .counterProgram 4096 0#2 0#3,
    .counterOverflow 4096 0#2, .accumulatorReadClear 4096, .flitReceive 24 0#16 true 0#256 ⟨0#16, false⟩, .flitResend 24, .linkDown 24,
    .frameReceive 2 [] true, .frameHeldRelease 2, .egressTailWrite 0 16, .frameTransmit 2 0, .hostMemoryAccess (.read 1374389534720 1),
    .hostMemoryAccess (.write 1374389534720 [0#8]), .hostMemoryAccess (.atomic 4 .add 8 0#64 0#64), .doorbell 64 0#32, .ctlEnable 64 true,
    .ctlRestart 64, .registerWrite (.rbase 64 0#64), .registerWrite (.config 0 1#32 0#256 [.domBlock 0 0xF000 1]), .registerWrite (.egress 0 16 0#64 0#64 0#64 0#16),
    .registerWrite (.config 0 1#32 0#256 [.portMap 24 0#8 0#16 0#16]), .registerWrite (.config 0 1#32 0#256 [.podSize 193 0#8]), .registerWrite (.pte 4 0#64),
    .registerWrite (.frame 0#16 0#64 4096), .registerWrite (.config 0 1#32 0#256 [.spare 4096]), .registerWrite (.caps 64 []),
    .registerWrite (.planeAt 192 0 true), .registerWrite (.coreRead 4096), .registerWrite (.coreWrite 0 (.v 0#5 48#6 0#32)),
    .registerWrite (.sideband (.nomap 24)), .hostMemoryAccess (.reg 0 4), .nopPacket 0 1#512, .launch 0 0#512, .indirect 0 0#64 0#64 0#384, .annul 0 0#512, .queueStop 0 3#512,
    .irqCoalesceTimeout 64, .linkLiveAgain 24].all (fun i => ! i.wf) = true := by decide +kernel

/-! Witnesses: for each statement a state and operands that meet its hypotheses, clause by clause. -/

/-- The device after reset, but for core 0. -/
def demo (f : Core → Core) : State := State.reset.upd 0 f

/-- The page at 0x10_0000 is translated to the frame at 0x5_0000: it may be read, written and executed. -/
def paged (c : Core) : Core :=
  { c with itlb := [⟨0#16, 16, 0x10#64, 0x5001F#64⟩], dtlb := [⟨0#16, 16, 0x10#64, 0x5001F#64⟩], stlb := [⟨0#16, 16, 0x10#64, 0x5001F#64⟩] }

/-- Context 0 has a trap handler at 0x10_0100. -/
def handled (s : State) : State :=
  s.updHub fun h => { h with ctxs := [(0, ⟨⟨0#64, 0#64, 0#64, 0#64, 24#6, false⟩, [(255, ⟨0#64, true, 0x100100#64⟩)]⟩)] }

/-- A store to device memory that is pending. -/
def pendSt : PAcc := ⟨1, false, ⟨0x100000#64, .dram 0x50000, 1, .uo, false⟩, .store [7#8], DTag.imm, false, none, 0#16, 0, 0, none, 0#5⟩

theorem test_wit_control :
    (5#5 ≠ 0#5 ∧ (demo fun c => c.ws 5#5 2#64).me.rs 5#5 ≠ 1#64) ∧ (demo fun c => c.ws 5#5 1#64).me.rs 5#5 = 1#64 ∧
    ((demo fun c => c.ws 5#5 0xFFFFFFFFFFFFFFFC#64).me.rs 5#5).toNat % 4 = 0 ∧ ((demo fun c => c.ws 5#5 1#64).me.rs 5#5).toNat % 4 ≠ 0 := by
  decide +kernel

theorem test_wit_local :
    (demo fun c => c.ws 5#5 0x7FFF8#64).LocalLd (elemAddr 0x7FFF8#64 .none 0#7 (mSize .i64)) (mSize .i64) ∧
    (demo fun c => c.ws 5#5 0x7FFF0#64).LocalLd 0x7FFF0#64 16 ∧ State.reset.LocalLd (BitVec.ofInt 64 (0 + 0 * mSize .u8)) (mSize .u8) ∧
    (State.reset.Local (elemAddr 0x80#64 .none 0#7 (stSize .i64)) (stSize .i64) ∧ 0x80 ≤ (elemAddr 0x80#64 .none 0#7 (stSize .i64)).toNat ∧
      State.reset.me.Released false) ∧
    State.reset.Local 0x7FFF0#64 16 ∧ State.reset.Local 0x7FFC0#64 64 := by
  unfold State.LocalLd State.Local InSp Core.SpFree Core.Released Core.Whole; decide +kernel

theorem test_wit_tagged :
    (State.reset.TagWord 0 0#64 ∧ State.reset.me.full 0 = true) ∧ State.reset.TagWord 0x80 0x80#64 ∧ State.reset.me.Released false ∧
    (State.reset.TagWord 0x800 0x7FFF8#64 ∧ State.reset.me.full 0x7FFF8 = true) ∧
    ((demo fun c => c.setTag 0x800 false).TagWord 0x800 0x800#64 ∧ (demo fun c => c.setTag 0x800 false).me.full 0x800 = false ∧
      (demo fun c => c.setTag 0x800 false).me.Released false) := by
  simp only [State.TagWord, Core.SpFree, Core.NoArrival, Core.Released, show (State.reset.me).acc = [] from rfl,
    show (demo fun c => c.setTag 0x800 false).me.acc = [] from rfl, Core.Whole, show (State.reset.me).ups = [] from rfl,
    show (demo fun c => c.setTag 0x800 false).me.ups = [] from rfl]
  refine ⟨⟨⟨by decide +kernel, by decide, by decide, by decide, by simp, by decide +kernel, by simp, by simp⟩, by decide +kernel⟩,
    ⟨by decide +kernel, by decide, by decide, by decide, by simp, by decide +kernel, by simp, by simp⟩, by simp,
    ⟨⟨by decide +kernel, by decide, by decide, by decide, by simp, by decide +kernel, by simp, by simp⟩, by decide +kernel⟩,
    ⟨by decide +kernel, by decide, by decide, by decide, by simp, by decide +kernel, by simp, by simp⟩, by decide +kernel, by simp⟩

theorem test_wit_no_effect :
    (State.reset.me.wbuf = [] ∧ State.reset.me.acc = []) ∧
    ((demo fun c => { c with acc := [pendSt] }).me.wbuf = [] ∧ ∀ p ∈ (demo fun c => { c with acc := [pendSt] }).me.acc, p.p.kind = .uo) ∧
    (let s := demo fun c => { c with acc := [{ pendSt with p := { pendSt.p with kind := .so } }] }
     s.me.wbuf = [] ∧ ∀ p ∈ s.me.acc, p.loads = true → p.p.kind = .uo) := by
  decide +kernel

theorem test_wit_queues :
    ((demo fun c => c.wq 3#3 [1#64, 2#64, 3#64]).me.rq (0#1 ++ 3#2)).length < 4 ∧ (demo fun c => c.wq 7#3 [9#64]).me.rq (1#1 ++ 3#2) = 9#64 :: [] ∧
    ((demo fun c => c.wq 7#3 [9#64]).me.qhead (1#1 ++ 3#2)).1 ≤ 0 := by
  decide +kernel

theorem test_wit_traps :
    (∃ h, (handled State.reset).CanTrap h) ∧
    ¬ ((demo fun c => { c with wbuf := [⟨0#32, 0#64, 0#64, 0, none, 0⟩] }).me.wbuf = []) ∧
    (State.reset.me.wbuf = [] ∧ State.reset.me.wpend = [] ∧ State.reset.me.c.intrap = false ∧ State.reset.handler State.reset.myCtx 255 = none ∧
      recoverable 0x02#8 = false ∧ recoverable 0x10#8 = true) ∧
    (State.reset.me.dbg.bpen = 0#4 ∧ (demo fun c => { c with dbg := { c.dbg with bpen := 8#4 } }).me.dbg.bpen ≠ 0#4 ∧
      (demo fun c => { c with dbg := { c.dbg with bpen := 8#4 } }).me.dbg.skip = false) ∧
    (let s := demo fun c => { c with c := { c.c with intrap := true, tpc := 0x100004#64 } }
     s.me.c.intrap = true ∧ s.me.wbuf = [] ∧ s.me.wpend = [] ∧ s.me.c.tpc.toNat % 4 = 0) ∧
    (let s := demo fun c => { c with c := { c.c with intrap := true }, wpend := [⟨0, .none, 0#5⟩] }
     s.me.c.intrap = true ∧ ¬ (s.me.wbuf = [] ∧ s.me.wpend = [])) := by
  refine ⟨⟨0x100100#64, ?_⟩, by decide +kernel⟩
  unfold State.CanTrap
  refine ⟨by decide +kernel, by decide +kernel, by decide +kernel, ⟨0#64, true, 0x100100#64⟩, by decide +kernel, rfl⟩

theorem test_wit_control_registers :
    (State.reset.me.wbuf = [] ∧ State.reset.me.wpend = []) ∧ (State.reset.me.rs 5#5).toNat ≤ State.reset.cyc % 2 ^ 64 ∧
    State.reset.cyc % 2 ^ 64 < ((demo fun c => c.ws 5#5 1#64).me.rs 5#5).toNat ∧
    (State.reset.me.dbg.trSize = 0#64 ∧ (demo fun c => { c with dbg := { c.dbg with trSize := 32#64 } }).me.dbg.trSize ≠ 0#64 ∧
      (demo fun c => { c with dbg := { c.dbg with trSize := 32#64 } }).me.dbg.trPos + 32 ≤ 32) ∧
    State.reset.me.c.preq = false := by decide +kernel

/-- The domain table with one entry. -/
def domIs (d : Nat) (e : DEnt) (s : State) : State := s.updHub fun h => { h with doms := tPut h.doms d e }
def live : DEnt := { DEnt.zero with st := .live, inst := 100#64 }
def liveJoin : DEnt := { live with kind := .join, mem := 1#256 }
def annulled : DEnt := { live with st := .annulled, acks := [5, 4096], peerAcks := [3] }

theorem tGet_map_const {α} (e : α) (k : Nat) : ∀ l : List Nat, k ∈ l → tGet (l.map fun i => (i, e)) k = some e
  | i :: l, hk => by
    by_cases hi : i = k
    · simp [tGet, hi]
    · have : k ∈ l := by simpa [Ne.symm hi] using hk
      simp [tGet, hi, tGet_map_const e k l this]

theorem test_wit_dnew :
    (¬ (State.reset.now % 2 ^ 64 < (0#64 : Word).toNat)) ∧
    (State.reset.now % 2 ^ 64 < (1#64 : Word).toNat ∧ State.reset.Lowest 1 0xEFFF 1#16) ∧
    (domIs 1 live State.reset).Lowest 1 0xEFFF 2#16 ∧
    ∀ i : Dom, 1 ≤ i.toNat → i.toNat < 0xF000 →
      (State.dom (State.reset.updHub fun h => { h with doms := (List.range 0xF000).map fun i => (i, live) }) i).st ≠ .free := by
  refine ⟨by decide, ⟨by decide, ?_⟩, ?_, ?_⟩
  · refine ⟨by decide, by decide, by decide, fun j a b => ?_⟩
    have : (1#16 : Dom).toNat = 1 := rfl
    omega
  · refine ⟨by decide, by decide, by decide, fun j a b => ?_⟩
    have : (2#16 : Dom).toNat = 2 := rfl
    have : j = 1#16 := BitVec.eq_of_toNat_eq (by simp; omega)
    subst this; decide
  · intro i a b
    have := tGet_map_const live i.toNat (List.range 0xF000) (by simpa using b)
    simp only [State.dom, State.updHub, this]; decide

theorem test_wit_djoin :
    State.reset.dmr .inh = (0#16, true) ∧
    (let s := domIs 5 { live with ctx := 1#16 } (demo fun c => c.ws 8#5 5#64)
     s.dmr .inh = (0#16, true) ∧ s.domOk ((s.me.rs 8#5).setWidth 16) = false) ∧
    (let s := domIs 5 liveJoin (demo fun c => c.ws 7#5 5#64)
     s.dmr (.reg 7#5) = (5#16, true) ∧ (s.dom 5#16).kind ≠ .ord) ∧
    (let s := domIs 5 annulled (demo fun c => c.ws 7#5 5#64)
     s.dmr (.reg 7#5) = (5#16, true) ∧ (s.dom 5#16).kind = .ord ∧ (s.dom 5#16).st ≠ .live) ∧
    (let s := domIs 5 live (demo fun c => c.ws 7#5 5#64)
     s.dmr (.reg 7#5) = (5#16, true) ∧ (s.dom 5#16).kind = .ord ∧ (s.dom 5#16).st = .live ∧ (s.dom 5#16).jl.length < 4 ∧
      (s.me.rs 0#5).setWidth 16 = 0#16 ∧ (s.dom 0xF000#16).st = .free ∧ (s.dom 0#16).kind ≠ .join ∧ s.domOk 0#16 = true) ∧
    (let s := domIs 0xF000 { liveJoin with mem := 3#256 } (domIs 5 live (demo fun c => (c.ws 7#5 5#64).ws 8#5 0xF000#64))
     let j : Dom := (s.me.rs 8#5).setWidth 16
     s.dmr (.reg 7#5) = (5#16, true) ∧ s.domOk j = true ∧ 0xF000 ≤ j.toNat ∧ (s.dom j).kind = .join ∧ (s.dom j).st = .live ∧ (∀ p ∈ (s.dom 5#16).jl, p.1 ≠ j) ∧
      (s.dom j).mem.getLsbD 2 = false ∧ ∀ i, i < 2 → (s.dom j).mem.getLsbD i = true) := by decide +kernel

theorem test_wit_dleave :
    (let s := domIs 0xF000 { liveJoin with st := .annulled } (demo fun c => c.ws 8#5 0xF000#64)
     (s.dom 0xF000#16).kind = .join ∧ (s.dom 0xF000#16).st ≠ .live) ∧
    (let s := domIs 0xF000 { liveJoin with mem := 5#256 } (domIs 5 { live with jl := [(0xF000#16, 2)] } (demo fun c => (c.ws 7#5 5#64).ws 8#5 0xF000#64))
     s.dmr (.reg 7#5) = (5#16, true) ∧ (s.dom 0xF000#16).kind = .join ∧ (s.dom 0xF000#16).st = .live ∧ (s.dom 5#16).ixIn 0xF000#16 = some 2 ∧
      (s.dom 0xF000#16).mem &&& ~~~ (1#256 <<< 2) ≠ 0#256) ∧
    (let s := domIs 0xF000 liveJoin (domIs 5 { live with jl := [(0xF000#16, 0)] } (demo fun c => (c.ws 7#5 5#64).ws 8#5 0xF000#64))
     s.dmr (.reg 7#5) = (5#16, true) ∧ (s.dom 5#16).ixIn 0xF000#16 = some 0 ∧ (s.dom 0xF000#16).mem &&& ~~~ (1#256 <<< 0) = 0#256) := by
  decide +kernel

theorem test_wit_domain_use :
    (let s := domIs 5 live (demo fun c => (c.ws 7#5 5#64).ws 8#5 0x80000063#64)
     s.dmr (.reg 7#5) = (5#16, true) ∧ (s.dom 5#16).st = .live ∧ (s.dom 5#16).kind = .ord ∧ 8#5 ≠ 0#5 ∧
      (s.dom 5#16).inst.toNat < (s.me.rs 8#5).toNat ∧ (s.me.rs 8#5).toNat < s.now % 2 ^ 64 + 2 ^ 47 ∧ ∀ q ∈ (s.dom 5#16).jl, q.1 ≠ 5#16) ∧
    (let s := demo fun c => c.ws 7#5 5#64
     s.dmr (.reg 7#5) = (5#16, true) ∧ (s.dom 5#16).st = .free) ∧
    (let s := domIs 5 { annulled with kind := .shJoin, hasMask := true } (demo fun c => c.ws 7#5 5#64)
     s.dmr (.reg 7#5) = (5#16, true) ∧ (s.dom 5#16).st ≠ .free ∧ (s.dom 5#16).hasMask = true) ∧
    (let s := domIs 5 { live with ctx := 1#16 } (demo fun c => c.ws 7#5 5#64)
     s.dmr (.reg 7#5) = (5#16, false)) := by decide +kernel

theorem test_wit_domain_events :
    (let s := domIs 5 live { State.reset with now := 100 }
     5#16 ≠ 0#16 ∧ (s.dom 5#16).st = .live ∧ (s.dom 5#16).kind = .ord ∧ (s.dom 5#16).inst.toNat ≤ s.now % 2 ^ 64) ∧
    (let s := domIs 5 annulled State.reset
     4096 < nEndpoints ∧ (s.dom 5#16).st = .annulled ∧ 4096 ∈ (s.dom 5#16).acks ∧ 3 ∈ (s.dom 5#16).peerAcks) ∧
    (let s := domIs 5 { annulled with acks := [], peerAcks := [] } { State.reset with cyc := 1200000 }
     (s.dom 5#16).st = .annulled ∧ (s.dom 5#16).annAt + 1200000 ≤ s.cyc ∧ (s.dom 5#16).acks = [] ∧ (s.dom 5#16).peerAcks = [] ∧
       s.carried 5#16 = false) ∧
    tGet State.reset.hub.dcache (4096 * 65536 + 5) = none ∧
    tGet (State.reset.updHub fun h => { h with dcache := [(5, ⟨.free, .ord, 0#64⟩)] }).hub.dcache (0 * 65536 + 5) ≠ none := by decide +kernel

theorem test_wit_service :
    (let s := demo fun c => { c with stat := .wait (.service 5#5 9#64) 1 1 }
     (s.core 0).stat = .wait (.service 5#5 9#64) 1 1 ∧ (s.core 0).dbg.halted = false) ∧
    (demo fun c => { c with stat := .wait (.inst 5#5 5#16) 1 1 }).me.stat = .wait (.inst 5#5 5#16) 1 1 ∧
    (let s := demo fun c => { c with stat := .wait (.acks 5#5 9#64 5#16) 1 1 }
     (s.core 0).stat = .wait (.acks 5#5 9#64 5#16) 1 1 ∧ (s.dom 5#16).acks = []) ∧
    (let s := domIs 5 annulled (demo fun c => { c with stat := .wait (.acks 5#5 9#64 5#16) 1 1 })
     (s.core 0).stat = .wait (.acks 5#5 9#64 5#16) 1 1 ∧ (s.dom 5#16).acks ≠ []) ∧
    (let s := domIs 5 { live with kind := .shJoin, hasMask := true } (demo fun c => { c with stat := .wait (.mask 5#16 3#2 5#5) 1 1 })
     (s.core 0).stat = .wait (.mask 5#16 3#2 5#5) 1 1 ∧ (s.dom 5#16).hasMask = true) := by decide +kernel

theorem test_wit_send :
    (let d := ((191 * 2 ^ 40 + 4095 * 2 ^ 28 + 3 * 2 ^ 26 + 255) : Nat)
     d / 2 ^ 48 = 0 ∧ d / 2 ^ 12 % 2 ^ 14 = 0 ∧ d / 2 ^ 40 % 2 ^ 8 ≤ 191 ∧ d % 2 ^ 12 ≤ 255) ∧ State.reset.me.outb.length < 8 ∧
    (let d := (192 * 2 ^ 40 : Nat); ¬ (d / 2 ^ 40 % 2 ^ 8 ≤ 191)) ∧
    (let d := (256 : Nat); ¬ (d % 2 ^ 12 ≤ 255)) ∧
    8 ≤ (demo fun c => { c with outb := List.replicate 8 ⟨0, 0, 0#2, msgZero, 0#16, 0, 0⟩ }).me.outb.length := by decide +kernel

theorem test_wit_barriers :
    (State.reset.me.regsB = [] ∧ State.reset.me.wbuf = []) ∧
    (let s := demo fun c => { c with regsB := [(0, 0x800), (0, 0x810), (0, 0x820), (0, 0x7FFF0)] }
     s.me.regsB ≠ [] ∧ (s.cur, 0x7FFF0) ∈ s.me.regsB ∧ (s.cur, 0x80) ∉ s.me.regsB ∧ 4 ≤ s.me.regsB.length) ∧
    (State.reset.cur < nCores ∧ 0x80 % 16 = 0 ∧ (State.reset.cur, 0x80) ∉ State.reset.me.regsB ∧ State.reset.me.regsB.length < 4 ∧ 8 % 16 ≠ 0) ∧
    (let obj (init left : Nat) : Core := Core.zero.spWrite 0x7FFF0 (leBytes 8 (init * 2 ^ 32 + left))
     ((obj 2 2).spWord 0x7FFF0).toNat % 2 ^ 24 = 2 ∧ ((obj 2 1).spWord 0x7FFF0).toNat % 2 ^ 24 = 1 ∧
      ((obj 2 1).spWord 0x7FFF0).toNat / 2 ^ 32 % 2 ^ 24 = 2 ∧ ((obj 1 2).spWord 0x7FFF0).toNat % 2 ^ 24 = 2 ∧
      ((obj 1 2).spWord 0x7FFF0).toNat / 2 ^ 32 % 2 ^ 24 = 1 ∧ ((obj 1 0).spWord 0x7FFF0).toNat % 2 ^ 24 = 0) := by decide +kernel

def demoLaunch : Launch := ⟨0, 0, 0#16, DTag.imm, 0, 8, 0#64, [], [], false, none, false, []⟩
def demoRec : Rec := ⟨0#64, 0#8, 0#2, false, [], [], [], 0#64, DTag.imm, .waiting, 0, [], false, none⟩
def launched (x : Launch) (s : State) : State := s.updHub fun h => { h with launches := [(1, x)] }

theorem test_wit_enqueue :
    (let s := launched demoLaunch (demo fun c => { c with runs := [(0#16, 1)] })
     s.dmr .imm = (0#16, true) ∧ s.myLaunch = some 1 ∧ tGet s.hub.launches 1 = some demoLaunch ∧ (s.me.rs 8#5).toNat = 0 ∧ s.me.rs 15#5 = 0#64 ∧
       s.intake (clusterOf s.cur) < 48) ∧
    (let s (n : Nat) := launched { demoLaunch with recs := List.replicate n { demoRec with intake := some 0 } } (demo fun c => { c with runs := [(0#16, 1)] })
     (s 48).intake (clusterOf (s 48).cur) = 48 ∧ (s 64).intake (clusterOf (s 64).cur) = 64) ∧
    (let s := launched { demoLaunch with recs := [demoRec] }
       (demo fun c => { ((c.ws 8#5 0x180000#64).ws 9#5 0x800#64).spWrite 0x800
          ((List.range 8).flatMap fun _ => leBytes 8 (2 ^ 57) ++ leBytes 8 1) with runs := [(0#16, 1)] })
     let w := s.who s.cur false
     let p := (s.me.rs 8#5).toNat
     p / 2 ^ 48 = 0 ∧ p / 2 ^ 21 % 2 ^ 11 = 0 ∧ p / 2 ^ 11 % 2 ^ 5 = 0 ∧ p / 2 ^ 16 % 2 ^ 4 = 8 ∧ p / 2 ^ 20 % 2 = 1 ∧ p / 2 ^ 32 % 2 ^ 16 < 1 ∧
       (s.me.rs 9#5).toNat % 16 = 0 ∧ let bs := s.me.spRead 0x800 128
       (fpList bs 8).all fpOk = true ∧ s.readRun w (s.me.rs 9#5) (16 * 8)
         ((List.range 8).map fun i => (s.me.rs 9#5 + BitVec.ofNat 64 (16 * i), 16)) = .ok bs s) := by
  decide +kernel

def demoPkt (b : PBody) : Pkt := ⟨7, 0, b, DTag.imm, 0#16, 0, false, 0, 0#16, false, none⟩
def flying (k : Pkt) (s : State) : State := { s with net := [k] }

theorem test_wit_packets :
    (let s := demo fun c => { c with outb := [⟨0, 1, 2#2, msgZero, 0#16, 0, 0⟩] }
     (s.core 0).outb = ⟨0, 1, 2#2, msgZero, 0#16, 0, 0⟩ :: [] ∧ pathHeld s.net 0#8 0#12 1 = false) ∧
    (let k := { demoPkt (.store 0#64 []) with dom := ⟨5#16, 0#48, false⟩, dev := 1 }
     let s := flying k { State.reset with cyc := 600000 }
     s.pkt 7 = some k ∧ k.arrived = false ∧ jobOf k.body = none ∧ k.dev ≠ s.own ∧ k.dom.id ≠ 0#16 ∧ k.dom.ext = false ∧
       instPassed s.now k.dom.inst = true ∧ k.t + 600000 ≤ s.cyc) ∧
    (let k := { demoPkt (.data 0#64 [] 0 3) with dom := ⟨5#16, 0#48, false⟩ }
     let s := flying k State.reset
     s.pkt 7 = some k ∧ k.arrived = false ∧ jobOf k.body = some (0, 3) ∧ k.dom.id ≠ 0#16 ∧ k.dom.ext = false ∧ instPassed s.now k.dom.inst = true) ∧
    (let k := { demoPkt (.store 0#64 []) with dev := 1 }
     let s := flying k State.reset
     s.pkt 7 = some k ∧ k.arrived = false ∧ k.dom.id = 0#16 ∧ k.dev ≠ s.own ∧ s.hub.podN ≤ k.dev) ∧
    (let k := { demoPkt (.msg 0 3#2 msgZero none 0 9 9) with dom := ⟨5#16, 0x7FFFFFFFFFFF#48, false⟩, dev := 1 }
     let s := flying k (State.reset.updHub fun h => { h with podN := 2 })
     s.pkt 7 = some k ∧ k.arrived = false ∧ instPassed s.now k.dom.inst = false ∧ k.dev ≠ s.own ∧ k.dev < s.hub.podN ∧ s.livePorts k.dev ≠ [] ∧
       s.streamHead k = true ∧ s.mayLeave k = true ∧ ∀ pl ∈ s.livePorts k.dev, (s.port pl).retry.length + 3 ≤ 1024) ∧
    (let k := { demoPkt (.msg 0 3#2 msgZero none 4096 0 0) with dom := ⟨5#16, 0#48, false⟩ }
     let s := flying k State.reset
     s.pkt 7 = some k ∧ k.dev = s.own ∧ s.msgReady k 0 3#2 msgZero 4096 0 0 = true ∧ s.expired (inboxEp 0) k.dom = true) ∧
    (let k := demoPkt (.msg 0 3#2 msgZero none 4096 0 0)
     let s := flying k (demo fun c => { c with res := some 0#16, runs := [(0#16, 1)] })
     s.expired (inboxEp 0) k.dom = false ∧ (s.core 0).res = some k.ctx ∧ (∃ r ∈ (s.core 0).runs, r.1 = k.ctx) ∧ ∀ e ∈ (s.core 0).iq 3#2, e.ix ≠ 0) ∧
    (let s := demo fun c => c.setIq 3#2 ((List.range 16).map fun i => ⟨i, msgZero, 0#16, none, 0, 0, false, false⟩)
     ∀ i < 16, ∃ e ∈ (s.core 0).iq 3#2, e.ix = i) := by decide +kernel

def inSlot (m : Msg) (run dfr : Bool) : InSlot := ⟨15, m, 0#16, none, 0, 0, run, dfr⟩
def running (c : Core) (m : Msg) : Core :=
  { (c.setIq 3#2 [inSlot m true false]) with act := some ⟨m, 3#2, 15, 0#16, none, 0, 0, none, 9⟩, res := some 0#16 }

theorem test_wit_activations :
    (let s := handled (demo fun c => { (c.setIq 3#2 [inSlot { msgZero with inl := true } false false]) with res := some 0#16 })
     s.mayStart 0 = true ∧ ((s.discardHeads 0).core 0).choose = some (3#2, inSlot { msgZero with inl := true } false false) ∧ msgZero.txc = false ∧
       tGet s.hub.ctxs 0 = some ⟨⟨0#64, 0#64, 0#64, 0#64, 24#6, false⟩, [(255, ⟨0#64, true, 0x100100#64⟩)]⟩) ∧
    (let s := handled (demo fun c => { (c.setIq 0#2 [inSlot { msgZero with hnd := 255#12 } false false]) with res := some 0#16 })
     ((s.discardHeads 0).core 0).choose = some (0#2, inSlot { msgZero with hnd := 255#12 } false false) ∧
       s.handler 0#16 255 = some ⟨0#64, true, 0x100100#64⟩) ∧
    (let s := demo fun c => { running c msgZero with stat := .ending none }
     (s.core 0).act = some ⟨msgZero, 3#2, 15, 0#16, none, 0, 0, none, 9⟩ ∧ (s.core 0).ended ⟨msgZero, 3#2, 15, 0#16, none, 0, 0, none, 9⟩ = true ∧
       (s.core 0).ready ≤ s.cyc) ∧
    (let s := demo fun c => { running c msgZero with stat := .ending (some 5#64) }
     ((s.core 0).iq 3#2).find? (fun x => x.ix == 15) = some (inSlot msgZero true false)) ∧
    (let s := demo fun c => c.setIq 3#2 [inSlot msgZero false true]
     ((s.core 0).iq 3#2).find? (fun x => x.ix == 15) = some (inSlot msgZero false true) ∧ 0 ≤ s.cyc) := by decide +kernel

def demoBind : TBind := ⟨1, 0#16, 9#64, 1#32, 0x100000#64, 64#64, 0#64, 1#32, false⟩
/-- Name 9 of context 0 is bound, and handle slot 5 is open on its binding. -/
def named (s : State) : State :=
  s.updHub fun h => { h with names := [⟨0#16, 9#64, 1#32, some 1⟩], binds := [demoBind], hdls := [(5, ⟨2#24, some (0#16, 0#16, 1)⟩)] }

theorem test_wit_directory :
    (let o := (0x7FFE0#64 : Word).toNat; o % 32 = 0 ∧ 0x800 ≤ o ∧ o ≤ 0x7FFE0) ∧ ¬ ((1 : Nat) % 32 = 0) ∧
    (State.reset.me.rs 5#5 = 0#64 ∧ (demo fun c => c.ws 5#5 9#64).me.rs 5#5 ≠ 0#64 ∧ State.reset.bound 0#16 9#64 = none) ∧
    (State.reset.expired hubEp (State.reset.dm .imm) = false ∧
      (let s := demo fun c => { c with c := { c.c with dom := ⟨5#16, 0#48, false⟩ } }; s.expired hubEp (s.dm .inh) = true)) ∧
    (named State.reset).bound (named State.reset).myCtx 9#64 = some demoBind ∧
    (∃ i, State.reset.freeSlot (Config.handleSlot State.reset.nextId) = some i) ∧
    (named State.reset).handleOf (named State.reset).myCtx 0x200005#64 = some (5, 1) ∧ State.reset.handleOf 0#16 0x200005#64 = none ∧
    tGet (named State.reset).hub.hdls 5 = some ⟨2#24, some (0#16, 0#16, 1)⟩ ∧ State.reset.me.spBusy 0 = false ∧
    (demo fun c => { c with acc := [{ pendSt with p := ⟨0x800#64, .sp 0 0x800, 8, .sp, false⟩ }] }).me.spBusy 0 = true := by
  refine ⟨by decide, by decide, by decide +kernel, by decide +kernel, by decide +kernel, ⟨_, rfl⟩, by decide +kernel⟩

/-- Every handle slot is open. -/
theorem test_wit_directory_full (n : Nat) : ∀ i, i < n → ∃ h, tGet ((named State.reset).updHub fun h => { h with
    hdls := (List.range n).map fun i => (i, (⟨2#24, some (0#16, 0#16, 1)⟩ : Hdl)) }).hub.hdls i = some h ∧ h.own ≠ none :=
  fun i hi => ⟨_, tGet_map_const _ i _ (List.mem_range.2 hi), by simp⟩

/-- A layout record of version 1 with this seal, of one run of `run` bytes. -/
def demoRecord (run : Nat) (sl : List Byte) : List Byte :=
  leBytes 4 1 ++ sl ++ leBytes 4 0 ++ leBytes 4 run ++ List.replicate 112 0#8

/-- The seal of the record of one run of 64 bytes. -/
def demoSeal : List Byte := [0x4F#8, 0xC6#8, 0xB2#8, 0x4A#8]

theorem test_wit_binding :
    (let s := demo fun c => (c.spWrite 0x7FFC0 (leBytes 8 1 ++ List.replicate 24 0#8 ++ leBytes 8 9 ++ List.replicate 24 0#8))
     let o := 0x7FFC0
     let n := (s.me.spWord o).toNat
     o % 32 = 0 ∧ o + 32 + 32 * n ≤ 0x80000 ∧ 1 ≤ n ∧ n ≤ 8 ∧ (∀ i, 8 ≤ i → i < 32 → s.me.spGet (o + i) = 0#8) ∧
      (let y := (List.range (4 + 4 * n)).foldl (fun (z : State) i => z.watch z.cur .load (0x7FFC0#64 + BitVec.ofNat 64 (8 * i)) 8) s
       ∃ l, nbindChk (y.who y.cur false) (s.me.spRead o (32 + 32 * n)) (List.range n) [] y = .ok l y ∧ y.cur = s.cur ∧
         y.me.drained false = true ∧ y.me.wbuf = []) ∧
      s.me.spBusy s.cur = false ∧ (∀ i, i < 4 + 4 * n → s.me.wmBlocks (0x7FFC0#64 + BitVec.ofNat 64 (8 * i)) 8 = false) ∧ s.me.ups = []) ∧
    (∃ v t, State.bindAll State.reset 0#16 DTag.imm [] = (v, t) ∧ t.cur = State.reset.cur) ∧
    (let s := named State.reset
     (5, (⟨2#24, some (0#16, 0#16, 1)⟩ : Hdl)) ∈ s.hub.hdls ∧ tGet s.hub.hdls 5 = some ⟨2#24, some (0#16, 0#16, 1)⟩) := by
  refine ⟨⟨by decide, by decide +kernel, by decide +kernel, by decide +kernel, by decide +kernel, ⟨_, rfl, by decide +kernel, by decide +kernel, by decide +kernel⟩, by decide +kernel, by decide +kernel, by decide +kernel⟩,
    ⟨_, _, rfl, by decide +kernel⟩, by decide +kernel⟩

/-- A record of one run of 64 bytes at 0x10_0000. -/
def sealedAt : State := { (demo paged) with
  mem := [(0x50000, 1#8), (0x50004, 0x4F#8), (0x50005, 0xC6#8), (0x50006, 0xB2#8), (0x50007, 0x4A#8), (0x5000C, 64#8)] }
def openAt : State := { (demo paged) with mem := [(0x50000, 1#8), (0x5000C, 64#8)] }
def misshapenAt : State := { (demo paged) with mem := [(0x50008, 1#8)] }
def misshapen : List Byte := leBytes 8 0 ++ leBytes 8 1 ++ List.replicate 112 0#8
def reads128 (s : State) (r : List Byte) : Prop := s.readSeal (s.who s.cur false) 0x100000#64 = .ok r s

set_option maxRecDepth 100000 in
theorem test_wit_rseal :
    recShaped (demoRecord 64 demoSeal) = true ∧ recSealed (demoRecord 64 demoSeal) = true ∧ recShaped (demoRecord 64 [0#8, 0#8, 0#8, 0#8]) = true ∧
    recSealed (demoRecord 64 [0#8, 0#8, 0#8, 0#8]) = false ∧ recShaped misshapen = false := by decide +kernel
theorem test_wit_rseal_sealed : reads128 sealedAt (demoRecord 64 demoSeal) := by unfold reads128; decide +kernel
theorem test_wit_rseal_open : reads128 openAt (demoRecord 64 [0#8, 0#8, 0#8, 0#8]) := by unfold reads128; decide +kernel
theorem test_wit_rseal_misshapen : reads128 misshapenAt misshapen := by unfold reads128; decide +kernel
theorem test_wit_rseal_store : openAt.chk (openAt.who openAt.cur false) .d .store (openAt.taskFps (openAt.who openAt.cur false).task) 0x100000#64 8 =
    .ok [⟨0x100000#64, .dram 0x50000, 8, .so, false⟩] openAt := by decide +kernel

def pendAt (p : Piece) (o : AccOp) (d : DTag) : PAcc := ⟨1, false, p, o, d, false, none, 0#16, 0, 0, none, 0#5⟩

theorem test_wit_remote :
    ((demo paged).me.wmBlocks (elemAddr 0x100000#64 .none 0#7 (mSize .i64)) (mSize .i64) = false ∧
      (demo paged).Passes .load (elemAddr 0x100000#64 .none 0#7 (mSize .i64)) (mSize .i64) [⟨0x100000#64, .dram 0x50000, 8, .so, false⟩] (demo paged)) ∧
    (demo paged).Passes .store (elemAddr 0x10FFF8#64 .none 0#7 (stSize .i64)) (stSize .i64) [⟨0x10FFF8#64, .dram 0x5FFF8, 8, .so, false⟩] (demo paged) ∧
    (demo paged).Passes .atomic 0x100000#64 8 [⟨0x100000#64, .dram 0x50000, 8, .so, false⟩] (demo paged) ∧ (0x100000#64 : Word).toNat % 8 = 0 ∧
    (1#64 : Word).toNat % 4 ≠ 0 ∧
    (let a : Word := 0x0200000000100000#64
     let p : Piece := ⟨a, .peer a, 8, .rc, false⟩
     let s := demo fun c => { c with acc := [pendAt p (.store [7#8]) DTag.imm] }
     State.reset.me.wmBlocks a 8 = false ∧ State.reset.me.acc = [] ∧
       s.me.loadReady false [p] = false) := by
  unfold State.Passes; decide +kernel

theorem test_wit_remote_peer : ∃ k, State.reset.Passes .load 0x0200000000100000#64 8
    [⟨0x0200000000100000#64, .peer 0x0200000000100000#64, 8, k, false⟩] State.reset := ⟨_, rfl⟩

theorem test_wit_wait_ends :
    (let p : Piece := ⟨0x100000#64, .dram 0x50000, 1, .so, false⟩
     let x := (demo fun c => { c with stat := .wait (.load [p] true 5#5 none []) 1 1 }).core 0
     x.dbg.halted = false ∧ x.stat = .wait (.load [p] true 5#5 none []) 1 1 ∧ x.acc = [] ∧ State.reset.upsets = []) ∧
    (let p : Piece := ⟨0x100003#64, .dram 0x50003, 1, .so, false⟩
     let q : Piece := ⟨0x100004#64, .dram 0x50004, 1, .so, false⟩
     let x := (demo fun c => { c with stat := .wait (.load [p, q] true 5#5 none []) 1 1 }).core 0
     x.stat = .wait (.load (p :: q :: []) true 5#5 none []) 1 1 ∧ q.at_ = .dram 0x50004 ∧ x.acc = []) ∧
    (let p : Piece := ⟨0x100003#64, .dram 0x50003, 1, .so, false⟩
     let s : State := { (demo fun c => { running c msgZero with stat := .wait (.load [p] true 5#5 none []) 1 1 }) with upsets := [(0xA000, true)] }
     (s.core 0).stat = .wait (.load (p :: []) true 5#5 none []) 1 1 ∧ (s.core 0).act ≠ none ∧ (0x50003 / 8, true) ∈ s.upsets ∧ 1 ≤ p.n) ∧
    (let x := (demo fun c => { c with stat := .wait (.fence false true false) 1 1, acc := [pendSt] }).core 0
     x.stat = .wait (.fence false true false) 1 1 ∧ x.wbuf = [] ∧ ∀ p ∈ x.acc, false = true ∨ p.loads = true → true = false ∧ p.p.kind = .uo) ∧
    (let x := (demo fun c => { c with stat := .wait (.fence true true true) 1 1 }).core 0
     x.stat = .wait (.fence true true true) 1 1 ∧ x.wbuf = [] ∧ x.acc = []) ∧
    (let x := (demo fun c => { c with stat := .wait (.fence true false false) 1 1, acc := [pendSt] }).core 0
     x.stat = .wait (.fence true false false) 1 1 ∧ x.wbuf = [] ∧ ∀ p ∈ x.acc, true = true ∨ p.loads = true → false = false ∧ p.p.kind = .uo) ∧
    (let x := (demo fun c => { c with stat := .wait (.seal 2 5#5) 1 1, acc := [pendSt] }).core 0
     x.stat = .wait (.seal 2 5#5) 1 1 ∧ ∀ p ∈ x.acc, p.aid ≠ 2) ∧
    (let s := demo fun c => { c with stat := .wait (.cycle 0#64 false) 1 1 }
     (s.core 0).stat = .wait (.cycle 0#64 false) 1 1 ∧ (0#64 : Word).toNat ≤ s.cyc % 2 ^ 64 ∧ s.cyc % 2 ^ 64 < (1#64 : Word).toNat) ∧
    (let s := handled { (demo fun c => { c with stat := .wait (.cycle 0#64 false) 1 1, waitFrom := some 0 }) with cyc := 2 ^ 40 }
     (s.core 0).park = none ∧ (s.core 0).waitFrom = some 0 ∧ 0 + s.waitLimit 0 ≤ s.cyc ∧
      let u := ({ s.unask 0 with cur := 0 } : State).upd 0 fun y => { y with waitFrom := none, stat := .run }
      u.handler 0#16 255 = some ⟨0#64, true, 0x100100#64⟩ ∧ u.me.wbuf = [] ∧ u.me.wpend = [] ∧ u.me.c.intrap = false) ∧
    (let s := handled (demo fun c => { c with stat := .wait (.cycle 0#64 false) 1 1, waitFrom := some 0 })
     s.cyc < 0 + s.waitLimit 0 ∧ (s.core 0).wFrom = none) := by decide +kernel

theorem test_wit_tagged_waits :
    (let s := demo fun c => { c with stat := .wait (.tag .take 0 0x800 5#5 0#64 3 DTag.imm none) 1 2 }
     (s.core 0).dbg.halted = false ∧ (s.core 0).stat = .wait (.tag .take 0 0x800 5#5 0#64 3 DTag.imm none) 1 2 ∧ 0 ≤ nCores ∧
       s.olderWaits 0 0x800 (s.who 0 false).ctx 3 = false ∧ tagCond .take ((s.core 0).full 0x800) = true ∧ (s.core 0).tagReady (tagWrites .take) (.sp 0 0x800) = true ∧
       (s.core 0).ups = []) ∧
    (let s := demo fun c => { c with stat := .wait (.tag .ldw 1 0x800 5#5 0#64 3 DTag.imm none) 1 2 }
     s.olderWaits 1 0x800 (s.who 0 false).ctx 3 = false ∧ tagCond .ldw ((s.core 1).full 0x800) = true ∧ s.expired (spEp 1) DTag.imm = false ∧
       s.away 1 (s.who 0 false).ctx = false) ∧
    (let s := demo fun c => { c with stat := .wait (.tag .stw (nCores + 2) 0x800 5#5 0#64 3 DTag.imm none) 1 2 }
     (s.core 0).stat = .wait (.tag .stw (nCores + 2) 0x800 5#5 0#64 3 DTag.imm none) 1 2 ∧ nCores < nCores + 2 ∧
       (s.core 0).tagReady (tagWrites .stw) (.peer (BitVec.ofNat 64 (2 * 2 ^ 56 + 0x800))) = true) ∧
    (let s := demo fun c => { c with stat := .wait (.tag .take (nCores + 2) 0x800 5#5 0#64 3 DTag.imm (some (9, 1))) 1 2 }
     (s.core 0).stat = .wait (.tag .take (nCores + 2) 0x800 5#5 0#64 3 DTag.imm (some (9, 1))) 1 2 ∧ 1 < 2 ∧ ∀ p ∈ s.net, p.id ≠ 9) ∧
    (let s := demo fun c => { (c.spWrite 0x800 (leBytes 8 (2 ^ 63))) with stat := .wait (.sigw 0 0x800 5#5 7#64 3 none) 1 2 }
     (s.core 0).stat = .wait (.sigw 0 0x800 5#5 7#64 3 none) 1 2 ∧ 2 ^ 63 ≤ ((s.core 0).spWord 0x800).toNat ∧
       (s.core 0).tagReady false (.sp 0 0x800) = true ∧ s.olderWaits 0 0x800 (s.who 0 false).ctx 3 = false) ∧
    (State.reset.me.acc = [] ∧ State.reset.me.ups = [] ∧
      State.reset.olderWaits 0 0x7FFF8 (State.reset.who 0 false).ctx State.reset.nextId = false) ∧
    ((1#64 : Word).toNat % 8 ≠ 0 ∧ State.reset.cur < nCores ∧ (0x7FFF8#64 : Word).toNat % 8 = 0 ∧ (0x7FFF8#64 : Word).toNat < 0x80000 ∧
      (0 % 2 ^ 63 ≤ State.reset.spNat 0x7FFF8#64 8 % 2 ^ 63) ∧ State.reset.spNat 0x7FFF8#64 8 < 2 ^ 63 ∧
      State.reset.spNat 0x7FFF8#64 8 < 1 % 2 ^ 63) := by decide +kernel

theorem test_wit_performed :
    (let s := demo fun c => { c with acc := [pendSt] }
     (s.core 0).acc[0]? = some pendSt ∧ mayPerform ((s.core 0).acc.take 0) pendSt = true ∧ s.expired (s.placeEp pendSt.p.at_ false false) pendSt.dom = false) ∧
    (let e := pendAt ⟨0x100000#64, .dram 0x50000, 8, .so, false⟩ (.atomic .add 1#64 0#64 true) DTag.imm
     let s := demo fun c => { c with acc := [e], stat := .wait (.atomic 1 5#5 none .i64) 1 1 }
     (s.core 0).acc[0]? = some e ∧ (s.core 0).stat = .wait (.atomic e.aid 5#5 none .i64) 1 1 ∧ s.upsets = [] ∧
       s.expired (s.placeEp e.p.at_ false true) e.dom = false) ∧
    (let e := pendAt ⟨0x100000#64, .dram 0x50000, 8, .so, true⟩ (.atomic .add 1#64 0#64 false) ⟨5#16, 0#48, false⟩
     let s := demo fun c => { c with acc := [e] }
     (s.core 0).acc[0]? = some e ∧ s.expired (s.placeEp e.p.at_ e.p.sysa true) e.dom = true) ∧
    (let e := pendAt ⟨0x200000000000800#64, .peer 0x200000000000800#64, 1, .rc, false⟩ (.store [7#8]) DTag.imm
     let s := demo fun c => { c with acc := [e] }
     (s.core 0).acc[0]? = some e ∧ e.sent = none ∧ (s.core 0).park = none ∧ mayPerform ((s.core 0).acc.take 0) e = true ∧ s.expired 0 e.dom = false) ∧
    (let e := { pendAt ⟨0x200000000000800#64, .peer 0x200000000000800#64, 1, .rc, false⟩ (.store [7#8]) DTag.imm with sent := some 9 }
     let s := demo fun c => { c with acc := [e] }
     (s.core 0).acc[0]? = some e ∧ mayPerform ((s.core 0).acc.take 0) e = true ∧ e.sent = some 9 ∧ s.net = [] ∧ (s.core 0).acc = [e] ∧ (s.core 0).stat = .idle) ∧
    (let e := pendAt ⟨0xFF00001000000800#64, .sp 1 0x800, 1, .sp, false⟩ (.store [7#8]) DTag.imm
     let s := demo fun c => { c with acc := [e] }
     (s.core 0).acc[0]? = some e ∧ mayPerform ((s.core 0).acc.take 0) e = true ∧ s.away 1 e.ctx = false ∧ s.expired (spEp 1) e.dom = false) ∧
    (let e := pendAt ⟨0x100000#64, .dram 0x50000, 1, .so, false⟩ (.store [7#8]) ⟨5#16, 0#48, false⟩
     let s := demo fun c => { c with acc := [e] }
     (s.core 0).acc[0]? = some e ∧ s.expired (s.placeEp e.p.at_ false false) e.dom = true) ∧
    (let e := pendAt ⟨0x800#64, .sp 0 0x800, 16, .sp, false⟩ (.arrive false false) DTag.imm
     let s := demo fun c => { c with acc := [e] }
     (s.core 0).acc[0]? = some e ∧ s.away 0 e.ctx = false ∧ s.expired (spEp 0) e.dom = false) ∧
    (let s := demo fun c => { c with stat := .wait (.atomic 1 5#5 (some 9#64) .i32) 1 1 }
     (s.core 0).stat = .wait (.atomic 1 5#5 (some 9#64) .i32) 1 1 ∧ (s.core 0).dbg.halted = false) := by decide +kernel

/-- A job card at 0x7FF80: COPY, of the record at 0x10_0000, with its ranges. -/
def cardAt (fp : Nat) (s : State) : State :=
  s.updMe fun c => ((c.spWrite 0x7FF80 (leBytes 8 0 ++ leBytes 8 0x100000 ++ leBytes 8 0x100000 ++ leBytes 8 0x100040)).spWrite 0x7FFB0
    (leBytes 8 (0x100000 + 2 ^ 57 * 3) ++ leBytes 8 fp))
def demoJob : Job :=
  ⟨3, 0, 0, false, 0#16, 0#16, 0x100000#64, 0x100040#64, 0#64, [], [], 64, 0, 0, 0, 0#64, false, [], DTag.imm, none, 0#16, none, 5, [], 0,
    0#64, 0, 0, 0, 0, false, false, []⟩

set_option maxRecDepth 100000 in
theorem test_wit_cpy :
    ((1#64 : Word).toNat % 128 ≠ 0 ∧ (0x7FF80#64 : Word).toNat % 128 = 0 ∧ 0x7FF80 ≤ 0x7FF80 ∧ State.reset.me.slotFree = true ∧ State.reset.me.spBusy 0 = false ∧
      (demo fun c => { c with jobs := List.replicate 16 demoJob }).me.slotFree = false) ∧
    (let s := cardAt 128 sealedAt
     let k := readCard (s.me.spRead 0x7FF80 128)
     k.first = true ∧ k.lrec.toNat % 128 = 0 ∧
       s.cardCode 0#16 k (demoRecord 64 demoSeal) = 0 ∧ s.cardBad (s.who s.cur false) k (demoRecord 64 demoSeal) = none) ∧
    (let s := cardAt 0 sealedAt
     s.cardCode 0#16 (readCard (s.me.spRead 0x7FF80 128)) (demoRecord 64 demoSeal) = 4) ∧
    (readCard (leBytes 8 1)).first = false ∧
    (let k := readCard (leBytes 8 0 ++ leBytes 8 1 ++ List.replicate 112 0#8); k.first = true ∧ k.lrec.toNat % 128 ≠ 0) := by decide +kernel
theorem test_wit_cpy_record : let s := cardAt 128 sealedAt
    s.readRec (s.who s.cur false) 0x100000#64 = .ok (demoRecord 64 demoSeal) s := by decide +kernel

theorem test_wit_copy :
    (let s := demo fun c => { c with jobs := [demoJob] }
     (s.me.rs 0#5).toNat ≤ s.cyc % 2 ^ 64 ∧ (∀ j ∈ s.me.jobs, j.st = 6 ∨ 1 < j.kind ∨ 0 < j.promise) ∧ s.me.jobs = demoJob :: []) ∧
    (let j := { demoJob with promise := 0 }
     let s := demo fun c => { c with jobs := [j] }
     s.me.jobs = j :: [] ∧ j.st ≠ 6 ∧ j.kind ≤ 1 ∧ j.promise ≤ 0) ∧
    (let s := demo fun c => { c with jobs := [demoJob], stat := .wait (.cycle 0#64 true) 1 1 }
     (s.core 0).stat = .wait (.cycle 0#64 true) 1 1 ∧ ∀ j ∈ (s.core 0).jobs, j.st = 6 ∨ 1 < j.kind ∨ (0#64 : Word).toNat < j.promise) ∧
    (let j := { demoJob with wmk := true, st := 2, ch := 3 }
     let s := demo fun c => { c with jobs := [j] }
     s.me.jobs = j :: [] ∧ j.wmk = true ∧ j.ch = 7 % 4 ∧ j.st = 2) ∧
    (let s := demo fun c => { c with jobs := [demoJob] }
     (s.core 0).job 3 = some demoJob ∧ demoJob.st = 0 ∧ (∀ e ∈ demoJob.edges, ∀ y ∈ (s.core 0).jobs, y.id = e → y.st = 6)) ∧
    (let j := { demoJob with st := 1 }
     let s := demo fun c => { c with jobs := [j] }
     (s.core 0).job 3 = some j ∧ (∀ y ∈ (s.core 0).jobs, y.ch = j.ch → y.st < 2 ∨ y.st = 5) ∧
       (∀ y ∈ (s.core 0).jobs, y.ch = j.ch → y.st = 1 → j.after < y.after ∨ j.after = y.after ∧ 3 ≤ y.id) ∧ s.streamClear 0 j = true) ∧
    (let j := { demoJob with st := 2, fps := [BitVec.ofNat 128 (0x100000 + 2 ^ 57 * 3 + 2 ^ 64 * 128)] }
     let s := demo fun c => { (paged c) with jobs := [j] }
     let w : Who := ⟨0, j.ctx, j.task, 0, s.dtag j.dom, false⟩
     (s.core 0).job 3 = some j ∧ j.run ≠ 0 ∧ j.flight = 0 ∧ j.wr = false ∧ s.expired 0 (s.dtag j.dom) = false ∧ s.upsets = [] ∧
       s.chkRun w .st .jobRead (some j.fps) (runParts 64 (j.src + BitVec.ofInt 64 (nestSum (ints j.ss) j.iter)) 64) =
         .ok [⟨0x100000#64, .dram 0x50000, 64, .so, false⟩] s ∧
       s.chkRun w .st .jobWrite (some j.fps) (runParts 64 (j.dst + BitVec.ofInt 64 (nestSum (ints j.ds) j.iter)) 64) =
         .ok [⟨0x100040#64, .dram 0x50040, 64, .so, false⟩] s) ∧
    (let j := { demoJob with st := 4 }
     let s := demo fun c => { c with jobs := [j] }
     (s.core 0).job 3 = some j ∧ j.flight = 0 ∧ j.sig = 0#64) := by decide +kernel

/-- A descriptor at 0x7FFC0: destination, source, and the words after them. -/
def descAt (l : List Word) (c : Core) : Core := (c.ws 5#5 0x7FFC0#64).spWrite 0x7FFC0 (l.flatMap wordBytes)
def demoArmed : Armed := ⟨0x800, 1#64, 0x100000#64, 0x100040#64, 8, 0#64, 0, DTag.imm, 0#16, none, none, 0⟩

theorem test_wit_side :
    (let s := demo (descAt [0x100040#64, 0x100000#64, 8#64])
     let k := readDesc (s.me.spRead 0x7FFC0 64)
     s.dmr .imm = (0#16, true) ∧ (0x7FFC0#64 : Word).toNat % 64 = 0 ∧ s.me.slotFree = true ∧ k.code s.own s.cur .put = 0 ∧
       k.code s.own s.cur .get = 0 ∧ k.code s.own s.cur .padd = 0 ∧ k.code s.own s.cur .putsg ≠ 0 ∧
       s.sideBad (s.who s.cur false) k .put = none ∧ s.sideBad (s.who s.cur false) k .get = none ∧ s.sideBad (s.who s.cur false) k .padd = none ∧
       (s.sideDom .imm 0#16).2 = true ∧ s.fireHeld 0 = s) ∧
    (let s := demo fun c => { (descAt [0x100040#64, 0x100000#64, 8#64] c) with jobs := List.replicate 16 demoJob }
     s.dmr .imm = (0#16, true) ∧ (0x7FFC0#64 : Word).toNat % 64 = 0 ∧ s.fireHeld 0 = s ∧ s.me.slotFree = false) ∧
    (let s := domIs 5 annulled (demo fun c => (descAt [0x100040#64, 0x100000#64, 8#64] c).ws 7#5 5#64)
     let k := readDesc (s.me.spRead 0x7FFC0 64)
     s.dmr (.reg 7#5) = (5#16, true) ∧ (0x7FFC0#64 : Word).toNat % 64 = 0 ∧ s.fireHeld 0 = s ∧ s.me.slotFree = true ∧ s.me.spBusy 0 = false ∧
       k.code s.own s.cur .put = 0 ∧ s.sideBad (s.who s.cur false) k .put = none ∧ (s.sideDom (.reg 7#5) 5#16).2 = false ∧ k.cmpl = 0) ∧
    (let s := demo (descAt [0x100040#64, 0x100000#64, 8#64, 0x800#64])
     let k := readDesc (s.me.spRead 0x7FFC0 64)
     k.code s.own s.cur .putsg = 0 ∧ s.sideBad (s.who s.cur false) k .putsg = none ∧ k.code s.own s.cur .put ≠ 0) ∧
    (let s := demo (descAt [0x10001#64, 1#64, 0x20000000000#64])
     let k := readDesc (s.me.spRead 0x7FFC0 64)
     k.ety = 2 ∧ k.code s.own s.cur .padd = 0 ∧ s.sideBad (s.who s.cur false) k .padd = none ∧ s.me.wbuf = [] ∧ s.me.sl.inbox.length < 8) ∧
    (let s := domIs 5 { live with ctx := 1#16 } (demo fun c => c.ws 7#5 5#64)
     s.dmr (.reg 7#5) = (5#16, false)) ∧ (1#64 : Word).toNat % 64 ≠ 0 := by decide +kernel

theorem test_wit_arm :
    (let s := demo (descAt [0x100040#64, 0x100000#64, 8#64, 0x800#64, 0x800#64, 1#64])
     let k := readDesc (s.me.spRead 0x7FFC0 64)
     k.code s.own s.cur .arm = 0 ∧ (s.sideDom .imm 0#16).2 = true ∧ s.me.armed.length < 32 ∧ s.sideBad (s.who s.cur false) k .arm = none) ∧
    32 ≤ (demo fun c => { c with armed := List.replicate 32 demoArmed }).me.armed.length ∧
    (readDesc (leBytes 8 0 ++ List.replicate 56 1#8)).code 0 0 .arm ≠ 0 ∧
    (let e := { demoArmed with fired := some (0, true) }
     let s := demo fun c => { c with armed := [e] }
     (s.core 0).armed = e :: [] ∧ e.fired = some (0, true) ∧ e.len < 2 ^ 40 ∧ (s.core 0).openJobs.length < 16) ∧
    (let e := { demoArmed with fired := some (0, true) }
     let s := demo fun c => { c with armed := [e, { demoArmed with fired := some (1, false) }] }
     (s.core 0).armed = e :: [{ demoArmed with fired := some (1, false) }] ∧
       ∀ y ∈ [{ demoArmed with fired := some (1, false) }], ∀ q, y.fired = some q → 0 ≤ q.1) := by
  refine ⟨by decide +kernel, by decide +kernel, by decide +kernel, by decide +kernel, by decide +kernel, fun y _ q _ => Nat.zero_le _⟩

theorem test_wit_side_arrivals :
    (let k := demoPkt (.data 0x100000#64 (List.replicate 64 7#8) 0 3)
     let s := flying k (demo paged)
     s.pkt 7 = some k ∧ k.dev = s.own ∧ k.peer = false ∧ 0 / 4096 = s.own ∧
       s.chkRun (pktWho s.own k 0) .st .jobWrite none (runParts 64 (BitVec.ofNat 64 ((0x100000#64 : Word).toNat % 2 ^ 56)) 64) =
         .ok [⟨0x100000#64, .dram 0x50000, 64, .so, false⟩] s ∧
       s.expired (s.placeEp (.dram 0x50000) false false) k.dom = false ∧ (s.core 0).job 3 = none) ∧
    (let k := demoPkt (.signal 0 0x7FFF8 true 0 3)
     let s := flying k State.reset
     s.pkt 7 = some k ∧ s.away 0 k.ctx = false ∧ k.peer = false ∧ 0x7FFF8 + 8 ≤ 0x80000) ∧
    (let k := demoPkt (.signal 0 0x7FFF8 true 1 3)
     let s := flying k (demo fun c => { c with runs := [(0#16, 1)] })
     s.pkt 7 = some k ∧ 1 % 4096 ≠ 0 ∧ s.runsCtx 0 k.ctx = true) ∧
    (let k := demoPkt (.dropNotice 0 3)
     let y := { demoJob with flight := 1, code := 4 }
     let s := flying k (demo fun c => { c with jobs := [y] })
     s.away 0 k.ctx = false ∧ (s.core 0).job 3 = some y ∧ 0 < y.flight) ∧
    (let k := demoPkt (.dropNotice 0 3)
     let s := flying k (demo fun c => { c with jobs := [demoJob] })
     s.net.find? (fun p => p.dev == s.own && p.body == .dropNotice 0 3) = some k ∧ s.away 0 k.ctx = false ∧ (s.core 0).job 3 = some demoJob) ∧
    (let j := { demoJob with kind := 2, st := 4, sig := 0x800#64 }
     let s := demo fun c => { c with jobs := [j] }
     (s.core 0).job 3 = some j ∧ j.st = 4 ∧ j.flight = 0 ∧ j.sig ≠ 0#64 ∧ j.sigSent = false ∧ sigTarget s.own 0 j.sig = some (0, 0, 0x800)) := by
  decide +kernel

/-- An entry of the W buffer, and a core at whose head it stands. -/
def wEnt (w : BitVec 32) (cst : Word) : WEnt := ⟨w, cst, 0#64, 0, none, 0⟩
def atW (f : Core → Core) : State := { (demo f) with phase := .w }
def oneLane : Core → Core := fun c => { c with r := { c.r with k := c.r.k.set 5 (1#48 <<< 47) } }

theorem test_wit_w_stream :
    (∃ f, issueOf (.still 0#8) = some f) ∧ State.reset.phase = .s ∧ State.reset.me.wbuf.length < 16 ∧ (Instr.still 0#8).wf = true ∧
    16 ≤ (demo fun c => { c with wbuf := List.replicate 16 (wEnt 0#32 0#64) }).me.wbuf.length ∧
    (demo fun c => { c with wbuf := List.replicate 16 (wEnt 0#32 0#64) }).me.wStuck = none ∧
    (let p : WPend := ⟨0, .v 3#5 (1#48 <<< 47) (Vector.replicate 48 1#32), 2#5⟩
     let s := demo fun c => { c with wpend := [p] }
     (s.core 0).wpend = p :: [] ∧ p.land ≤ s.cyc ∧ (∀ q ∈ ([] : List WPend), p.land ≤ q.land) ∧ s.wReady 0 = false ∧ s.sReady 0 = false) := by
  refine ⟨⟨_, rfl⟩, by decide +kernel⟩

theorem test_wit_w_issue :
    (let s : State := { (demo fun c => { c with wbuf := [wEnt 0x8A70002D#32 0#64] }) with cyc := 1 }
     s.wReady 0 = true ∧ (s.core 0).wbuf.head?.map (·.word) = some 0x8A70002D#32) ∧
    decodeWord .none 0x8A70002D#32 = some (.still 167#8) ∧ (issueOf (.still 167#8)).isSome = true := by decide +kernel

theorem test_wit_vector :
    ((atW oneLane).CanIssue [1#5, 2#5, 31#5] (some 31#5) ∧ (atW oneLane).CanIssue [] none) ∧
    ((atW fun c => c.wq 7#3 [1#64, 2#64, 3#64]).me.rq (1#1 ++ 3#2)).length + (atW fun c => c.wq 7#3 [1#64, 2#64, 3#64]).me.taken 3#2 < 4 ∧
    4 ≤ ((atW fun c => { (c.wq 7#3 [1#64, 2#64, 3#64]) with wpend := [⟨0, .q 3#2 0#64 0, 0#5⟩] }).me.rq (1#1 ++ 3#2)).length +
      (atW fun c => { (c.wq 7#3 [1#64, 2#64, 3#64]) with wpend := [⟨0, .q 3#2 0#64 0, 0#5⟩] }).me.taken 3#2 ∧
    ((atW fun c => c.wq 3#3 [9#64]).me.rq (0#1 ++ 3#2) = 9#64 :: [] ∧ ((atW fun c => c.wq 3#3 [9#64]).me.qhead (0#1 ++ 3#2)).1 ≤ 0) ∧
    (let s := atW fun c => { c.wq 3#3 [9#64] with qinfo := c.qinfo.set 3 [(1, 0)] }
     s.me.rq (0#1 ++ 3#2) ≠ [] ∧ s.cyc < (s.me.qhead (0#1 ++ 3#2)).1) ∧
    ((atW id).me.rq (0#1 ++ 3#2) = [] ∧ (atW fun c => { c with stat := .run }).me.stat = .run ∧
      (atW fun c => { c with stat := .ending none }).me.stat = .ending none) := by
  refine ⟨⟨⟨rfl, ?_, ?_⟩, ⟨rfl, ?_, ?_⟩⟩, by decide +kernel⟩
  · intro r _ x hx; simp [atW, demo, State.upd, State.me, State.core, State.setCore, State.reset, tGet, tPut, oneLane, Core.zero] at hx
  · intro r hr; rfl
  · intro r hr; cases hr
  · intro r hr; cases hr

set_option maxRecDepth 100000 in
theorem test_wit_vector_memory :
    (let s := atW fun c => { (oneLane c).wq 3#3 [0x7FF00#64] with wbuf := [wEnt 0#32 0#64] }
     s.HasBase 3#2 0x7FF00#64 ∧ plainBase 0x7FF00#64 = true ∧ laneMask (s.me.rk 5#3) 47 = true ∧
       (∀ n : Fin 48, laneMask (s.me.rk 5#3) n = true → let a := vmAddr 0x7FF00#64 0#12 + BitVec.ofNat 64 (4 * n.val)
         InSp a 4 ∧ 0x80 ≤ a.toNat ∧ s.me.wmBlocks a 4 = false) ∧ (s.sawBase 3#2).SpFree s.cur true ∧
       0x80 ≤ (vmAddr 0x80#64 0#12).toNat ∧ InSp (vmAddr 0x7FFC0#64 0#12) 64 ∧ s.me.wmBlocks (vmAddr 0x7FFC0#64 0#12) 64 = false) ∧
    (let s := atW fun c => { (oneLane c) with wbuf := [{ (⟨0#32, 0#64, 0#64, 0, none, 0⟩ : WEnt) with base := some 0x7FF00#64 }] }
     s.HasBase 3#2 0x7FF00#64 ∧ s.me.rq 3#3 = []) ∧
    (let s := atW id
     (blkOf (Memory.read s.me.sp 0x800 64)).eval (accepts .i10) = 2) ∧
    plainBase 1#64 = false ∧
    (let b : Word := 0x7F00000000000800#64
     bits b 5 4 = 0 ∧ five .f5 = true ∧ five .i10 = false ∧ bits b 3 0 = 0 ∧ b.extractLsb' 56 8 ≠ 0xFF#8 ∧
       0 ≤ ((b.extractLsb' 56 8).toNat : Int) + (b.extractLsb' 0 4).toInt ∧ ((b.extractLsb' 56 8).toNat : Int) + (b.extractLsb' 0 4).toInt ≤ 254 ∧
       (0xFF00000000000800#64 : Word).extractLsb' 56 8 = 0xFF#8) ∧
    (blkOf (blkBytes 0x10#8 0#8 0#480)).eval (accepts .i10) ≤ 1 := by
  unfold State.HasBase InSp Core.SpFree; decide +kernel

theorem test_wit_matrix :
    ((atW id).phase = .w ∧ 0x800 ≤ bits (0x80#64 : Word) 14 0 * 16 ∧ bits (0x80#64 : Word) 14 0 * 16 < 0x80000 ∧ bits (0x80#64 : Word) 14 0 * 16 % 16 = 0 ∧
      (atW id).me.sl.inbox.length < 8 ∧ bits (0x7F#64 : Word) 14 0 * 16 < 0x800 ∧ (0x7FFF8#64 : Word).toNat % 8 = 0 ∧ (0x7FFF8#64 : Word).toNat < 0x80000) ∧
    8 ≤ (atW fun c => { c with sl := { c.sl with inbox := List.replicate 8 Part.zero } }).me.sl.inbox.length ∧
    (∀ a ∈ (atW id).me.acc, a.p.kind ≠ .sp) ∧
    (let s := atW fun c => { c with acc := [{ pendSt with p := ⟨0x800#64, .sp 0 0x800, 8, .sp, false⟩ }], wbuf := [{ (wEnt 0#32 0#64) with aid := 2 }] }
     ∃ a ∈ s.me.acc, a.p.kind = .sp ∧ (a.w = true ∨ a.aid < s.head.aid)) ∧
    (let s := atW fun c => { c with acc := [{ pendSt with p := ⟨0x800#64, .sp 0 0x800, 8, .sp, false⟩ }], wbuf := [wEnt 0#32 0#64] }
     ∀ a ∈ s.me.acc, a.p.kind = .sp → a.w = false ∧ s.head.aid ≤ a.aid) := by decide +kernel

/-- The word of each matrix instruction stands at the head of the W buffer, with a constant that its checks let through, and the part
that it sends is the slice's current one. -/
def headIs (w : BitVec 32) (d : Word) : State := atW fun c => { c with wbuf := [wEnt w d] }
theorem test_wit_matrix_words :
    [(Instr.aclr 11#4, 0x200002ED#32), (.acpy 6#4 11#4, 0x300602ED#32), (.radd 6#4 11#4, 0x400602ED#32), (.rscl 5#3 11#4, 0x500052ED#32),
      (.rdout 167#8 .i10 11#4, 0x6A7032ED#32), (.publOpen 11#4, 0x700002ED#32), (.publClose 11#4, 0x700012ED#32), (.still 167#8, 0x8A70002D#32),
      (.aspl 167#8 11#4, 0x9A7002ED#32), (.afil 167#8 11#4, 0xAA7002ED#32), (.mwait 167#8, 0xBA70002D#32),
      (.mma 0#8 false false false .i10 0#4, 0x0000002D#32), (.mmaj 0#8 false false false .i10 0#4, 0x1000002D#32)].all
        (fun p => encode p.1 == [(headIs p.2 0x800#64).head.word]) = true ∧
    (headIs 0#32 0x800#64).phase = .w ∧ (headIs 0#32 0x800#64).me.sl.inbox.length < 8 ∧ (∀ a ∈ (headIs 0#32 0x800#64).me.acc, a.p.kind ≠ .sp) ∧
    rowOk 0x20007FFC0#64 = true ∧ rowEnd 0x20007FFC0#64 ≤ 0x80000 ∧ rdoutOk 4 0x800#64 = true ∧ 0x7FFF8 < 0x80000 ∧ 0x7FFF8 % 8 = 0 := by
  decide +kernel

def demoStream (n : Nat) : Stream := ⟨0x100000#64, 0#64, [], some 0#64, List.replicate n (Vector.replicate 48 0#32), Vector.replicate 48 0#32, none⟩

/-- A record of one run of 192 bytes at 0x10_0000. -/
def stripAt : State := { (demo paged) with
  phase := .w, mem := [(0x50000, 1#8), (0x50004, 0x69#8), (0x50005, 0xB9#8), (0x50006, 0x6B#8), (0x50007, 0xCB#8), (0x5000C, 192#8)] }
def stripRecord : List Byte := leBytes 4 1 ++ [0x69#8, 0xB9#8, 0x6B#8, 0xCB#8] ++ leBytes 4 0 ++ leBytes 4 192 ++ List.replicate 112 0#8

set_option maxRecDepth 100000 in
theorem test_wit_stream_record :
    recSealed stripRecord = true ∧ recShaped stripRecord = true ∧ recRun stripRecord = 192 ∧ recGran stripRecord ≤ 4 ∧
      iterOk (recCnt stripRecord) 0#64 = true := by decide +kernel
theorem test_wit_stream_read : stripAt.readRec (stripAt.who stripAt.cur true) 0x100000#64 = .ok stripRecord stripAt := by decide +kernel
theorem test_wit_stream :
    (stripAt.phase = .w ∧ (∀ p ∈ stripAt.me.wpend, p.land = 0) ∧ 0x80000 < 0x7FFF8 + 32 ∧ stripAt.me.spWord (0x7FFE0 + 24) = 0#64 ∧
      bits (stripAt.me.spWord (0x7FFE0 + 16)) 63 60 = 0 ∧ (0x100000#64 : Word).toNat % 128 = 0) ∧
    (tGet stripAt.me.str 24 = none ∧ tGet (demo fun c => { c with str := [(24, demoStream 1)] }).me.str 24 = some (demoStream 1)) ∧
    (let s := demo fun c => { (paged c) with str := [(24, demoStream 3)] }
     let w := s.who 0 true
     tGet (s.core 0).str 24 = some (demoStream 3) ∧ (demoStream 3).next = some 0#64 ∧ (demoStream 3).buf.length < 4 ∧
       s.chkRun w .st .strip (s.taskFps w.task) (runParts 192 0x100000#64 192) = .ok [⟨0x100000#64, .dram 0x50000, 64, .so, false⟩,
         ⟨0x100040#64, .dram (0x50000 + 64), 64, .so, false⟩, ⟨0x100080#64, .dram (0x50000 + 128), 64, .so, false⟩] s) := by decide +kernel

def partOf (w : BitVec 32) (d : Word) : Part := ⟨w, d, DTag.imm, none, 0, 0, 0, 0#16, none⟩
def sliced (f : Slice → Slice) : State := demo fun c => { c with sl := f c.sl, res := some 0#16 }
def publ0 (t : Tile) : Tile := { t with st := .published }

theorem test_wit_slice_parts :
    (let s := sliced fun l => { l with inbox := [partOf 0x20000001#32 0#64] }
     (s.core 0).sl.inbox = partOf 0x20000001#32 0#64 :: [] ∧ s.slIdle 0 = true ∧ s.gangtoDue (rowOf 0) = false ∧ (s.core 0).sl.arrs = [] ∧
       (partOf 0x20000001#32 0#64).isGang = false ∧ (partOf 0x20000001#32 0#64).isAdd = false ∧ (partOf 0x20000001#32 0#64).fn = 2 ∧
       ((s.core 0).sl.tile 0#4).st = .settled ∧ s.expired 0 (s.dtag DTag.imm) = false ∧ (partOf 0x20000001#32 0#64).t ≤ s.cyc ∧
       (∀ t : AReg, ((s.core 0).sl.tile t).st ≠ .published) ∧ (∀ e ∈ (s.core 0).sl.rip, e.2.stile ≠ 0#4) ∧ (s.row (rowOf 0)).gangs = []) ∧
    ((partOf 0x80000000#32 0x800#64).fn = 8 ∧ bits (0x800#64 : Word) 63 16 = 0 ∧ bits (0x800#64 : Word) 15 0 ≠ 0) ∧
    (let s := sliced fun l => { l with inbox := [partOf 0x20000001#32 0#64], tiles := l.tiles.set 0 (publ0 Tile.zero) }
     ((s.core 0).sl.tile 0#4).st = .published ∧ s.expired 0 (s.dtag ((s.core 0).sl.tile 0#4).dom) = false) ∧
    (let s := sliced fun l => { l with inbox := [{ partOf 0x20000001#32 0#64 with dom := ⟨5#16, 0#48, false⟩ }] }
     s.expired 0 (s.dtag ⟨5#16, 0#48, false⟩) = true) ∧
    (let s : State := { (sliced fun l => { l with cur := some (partOf 0x20000001#32 0#64, 0) }) with cyc := 1 }
     (s.core 0).sl.cur = some (partOf 0x20000001#32 0#64, 0) ∧ 0 < s.cyc ∧ (s.core 0).res ≠ none) ∧
    (let p := partOf 0x60004000#32 0x800#64
     let s := sliced fun l => { l with cur := some (p, 40) }
     (s.core 0).sl.cur = some (p, 40) ∧ s.cyc ≤ 40 ∧ p.isAdd = false ∧ p.fn = 6 ∧ rdoutOk p.md.toNat p.cst = true ∧
       64 * (s.core 0).sl.blk < (outBytes p.md.toNat p.cst (s.core 0).sl p.at_).1.length) ∧
    (let p := partOf 0x90000001#32 0x20007FFC0#64
     let s := sliced fun l => { l with cur := some (p, 40), blk := 33 }
     let bs := (rowParts p.cst).flatMap fun q => spillBlk (s.core 0).sl p.at_ q.1 q.2
     (s.core 0).sl.cur = some (p, 40) ∧ s.cyc ≤ 40 ∧ p.isAdd = false ∧ p.fn = 9 ∧ rowOk p.cst = true ∧ rowEnd p.cst ≤ 0x80000 ∧
       bs.length ≤ 64 * (s.core 0).sl.blk) ∧
    ((partOf 0x30010000#32 0#64).fn = 3 ∧ (partOf 0x30010000#32 0#64).as_ ≠ (partOf 0x30010000#32 0#64).at_ ∧
      (partOf 0x40010000#32 0#64).fn = 4 ∧ (partOf 0x50007000#32 0#64).fn = 5 ∧ (partOf 0x50007000#32 0#64).md = 7#3 ∧
      (partOf 0x70000000#32 0#64).fn = 7 ∧ (partOf 0x70000000#32 0#64).md ≠ 1#3 ∧ (partOf 0x70001000#32 0#64).md = 1#3) ∧
    ((partOf 0x60004000#32 0x800#64).fn = 6 ∧ (partOf 0x60004000#32 0x800#64).md.toNat ≤ 4 ∧ rdoutOk 4 0x800#64 = true ∧ rdoutOk 4 0x7C0#64 = false) ∧
    ((partOf 0x90000001#32 0#64).fn = 9 ∧ rowOk 0x20007FFC0#64 = true ∧ rowEnd 0x20007FFC0#64 ≤ 0x80000 ∧ rowOk 0#64 = false ∧
      (partOf 0xA0000001#32 0#64).fn = 10 ∧ (partOf 0xB0000001#32 0#64).fn = 11 ∧ (0x7FFF8#64 : Word).toNat + 8 ≤ 0x80000) := by decide +kernel

/-- A block that holds nothing: FMT 0x10, SCALE 0xFF, CHK. -/
def nullBytes : List Byte := [0x10#8, 0xFF#8] ++ List.replicate 60 0#8 ++ [0xD8#8, 0x1A#8]
def nullCells : List Host.Cell :=
  (List.range 32).flatMap fun r => [(64 * (32 + r), 0x10#8), (64 * (32 + r) + 1, 0xFF#8), (64 * (32 + r) + 62, 0xD8#8), (64 * (32 + r) + 63, 0x1A#8)]
def mmaDesc : Word := 0x2000000080#64
def gangPart (d : Word) (c : Nat) : Part := { partOf 0x0000002D#32 d with src := c, t := 1 }
def gangCore (d : Word) (l : List Byte) (c : Nat) : Core :=
  { Core.zero with sl := { Slice.zero with inbox := [gangPart d c], wb := (List.range 48).map fun n => (n, l) } }
/-- Row 0 with a gang part at the head of every inbox, and null blocks in its operands. -/
def gangRow (d : Nat → Word) (l : List Byte) (sp : List Host.Cell) : State :=
  { State.reset with cyc := 3, cores := (List.range 8).map fun c => (c, if c = 0 then { gangCore (d c) l c with sp := sp } else gangCore (d c) l c) }

theorem test_wit_gang :
    (let s := gangRow (fun _ => mmaDesc) [] []
     let ps := (rowCores 0).filterMap s.gangHead
     ps = (List.range 8).map (gangPart mmaDesc) ∧ (∀ c ∈ rowCores 0, s.gangHead c = some (gangPart mmaDesc c)) ∧
       s.GangReady 0 ps ∧ (gangPart mmaDesc 0).fn = 0 ∧
       (∀ p ∈ ps, s.gangKey p = s.gangKey (gangPart mmaDesc 0)) ∧ s.allExpired ps = false ∧ descOk mmaDesc = true ∧
       offsOk (dAoff mmaDesc) (dBoff mmaDesc) = true) ∧
    (let s := gangRow (fun c => if c = 7 then mmaDesc + 0x1000000000000#64 else mmaDesc) [] []
     s.gangKey (gangPart (mmaDesc + 0x1000000000000#64) 7) ≠ s.gangKey (gangPart mmaDesc 0)) := by
  unfold State.GangReady; decide +kernel
set_option maxRecDepth 100000 in
theorem test_wit_gang_operands :
    stepFail false 0 (List.replicate 32 (blkOf nullBytes)) (List.replicate 8 (List.replicate 48 (blkOf nullBytes))) = none := by
  have h : (blkOf nullBytes).eval (stepCls false) ≤ 1 := by decide +kernel
  simp [stepFail, h, List.findSome?_eq_none_iff]
  intro a b hab
  have := (List.of_mem_zip hab).2
  simp at this
  subst this
  simp [h]

set_option maxRecDepth 100000 in
theorem test_wit_gang_blocks :
    (gangRow (fun _ => mmaDesc) nullBytes nullCells).aBlks 0 mmaDesc (dAoff mmaDesc) = List.replicate 32 (blkOf nullBytes) ∧
    ∀ c < 8, ((gangRow (fun _ => mmaDesc) nullBytes nullCells).core c).bBlks false (dBoff mmaDesc) = List.replicate 48 (blkOf nullBytes) := by
  constructor
  · have h : (List.range 32).map (fun r => ((gangRow (fun _ => mmaDesc) nullBytes nullCells).core (8 * 0 + dAsl mmaDesc)).spRead
        (64 * (dAoff mmaDesc + r)) 64) = List.replicate 32 nullBytes := by decide +kernel
    have := congrArg (List.map blkOf) h
    have hu : ((gangRow (fun _ => mmaDesc) nullBytes nullCells).core (8 * 0 + dAsl mmaDesc)).ups = [] := by decide +kernel
    have hb : ∀ o, ((gangRow (fun _ => mmaDesc) nullBytes nullCells).core (8 * 0 + dAsl mmaDesc)).spBlk o = blkOf
        (((gangRow (fun _ => mmaDesc) nullBytes nullCells).core (8 * 0 + dAsl mmaDesc)).spRead o 64) := by
      intro o; unfold Core.spBlk; rw [hu]; rfl
    rw [List.map_map, List.map_replicate] at this
    unfold State.aBlks
    simp only [hb]
    exact this
  · intro c hc
    have hu : ∀ c < 8, ((gangRow (fun _ => mmaDesc) nullBytes nullCells).core c).wbUps = [] := by decide +kernel
    have h : ∀ c < 8, (List.range 48).map (fun n => (tGet ((gangRow (fun _ => mmaDesc) nullBytes nullCells).core c).sl.wb (0 + dBoff mmaDesc + n)).getD
        (List.replicate 64 0#8)) = List.replicate 48 nullBytes := by decide +kernel
    have := congrArg (List.map blkOf) (h c hc)
    have hb : ∀ i, ((gangRow (fun _ => mmaDesc) nullBytes nullCells).core c).wbBlk i = blkOf
        ((tGet ((gangRow (fun _ => mmaDesc) nullBytes nullCells).core c).sl.wb i).getD (List.replicate 64 0#8)) := by
      intro i; unfold Core.wbBlk; rw [hu c hc]; rfl
    rw [List.map_map, List.map_replicate] at this
    unfold Core.bBlks
    simp only [hb]
    exact this

/-- The blocks of the step are valid. -/
theorem test_wit_gang_good : (gangRow (fun _ => mmaDesc) nullBytes nullCells).StepGood 0 ((List.range 8).map (gangPart mmaDesc)) false mmaDesc
    (dAoff mmaDesc) (dBoff mmaDesc) := by
  have h : ((List.range 8).map (gangPart mmaDesc)).map (fun q => ((gangRow (fun _ => mmaDesc) nullBytes nullCells).core q.src).bBlks q.wb (dBoff mmaDesc)) =
      List.replicate 8 (List.replicate 48 (blkOf nullBytes)) := by
    have := test_wit_gang_blocks.2
    simp only [List.map_map]
    rw [List.eq_replicate_iff]
    refine ⟨by simp, fun b hb => ?_⟩
    obtain ⟨c, hc, rfl⟩ := List.mem_map.mp hb
    have hw : (gangPart mmaDesc c).wb = false := by simp [gangPart, Part.wb, partOf]
    simpa only [Function.comp_apply, hw, show (gangPart mmaDesc c).src = c from rfl] using this c (by simpa using hc)
  unfold State.StepGood
  rw [h, test_wit_gang_blocks.1]
  exact test_wit_gang_operands
set_option maxRecDepth 100000 in
/-- And one that is not. -/
theorem test_wit_gang_bad : (blkOf (List.replicate 64 1#8)).eval (stepCls false) = 2 := by decide +kernel

/-- The part that `mma` of the row's core 0 sends is the one that stands at the head of its slice. -/
theorem test_wit_gang_sent :
    let s : State := { (demo fun c => { c with wbuf := [⟨0x0000002D#32, mmaDesc, 0#64, 0, none, 0⟩] }) with phase := .w }
    encode (.mma 0#8 false false false .i10 0#4) = [s.head.word] ∧ 0x800 ≤ bits s.head.cst 14 0 * 16 ∧
      (let p := gangPart mmaDesc 0
       (p.word, p.cst, p.dom, p.task, p.src, p.t) =
         (s.head.word, s.head.cst, (s.who s.cur true).dom, (s.who s.cur true).task, s.cur, s.cyc + 1)) := by decide +kernel

/-- Cards of one iteration of the same step, for `mmaj`. -/
def cardRow : State := { State.reset with
  cyc := 3
  cores := (List.range 8).map fun c => (c, { Core.zero with
    sp := (leBytes 8 mmaDesc.toNat).zipIdx.filterMap fun b => if b.1 = 0#8 then none else some (0x7FF80 + b.2, b.1)
    sl := { Slice.zero with inbox := [{ partOf 0x1000002D#32 0x7FF80#64 with src := c, t := 1 }] } }) }
theorem test_wit_gang_card :
    let ps := (rowCores 0).filterMap cardRow.gangHead
    let k := cardRow.card (ps.headD Part.zero)
    let word (o : Nat) : Word := bytesWord ((k.drop o).take 8)
    cardRow.GangReady 0 ps ∧ (∀ q ∈ ps, cardRow.gangKey q = cardRow.gangKey (ps.headD Part.zero) ∧ cardOk q.cst.toNat = true) ∧
      cardRow.allExpired ps = false ∧ (k.drop 64).all (· == 0#8) = true ∧ bits (word 8) 63 60 = 0 ∧ iterOk (word 8) (word 56) = true ∧
      word 0 = mmaDesc ∧ descOk (word 0) = true ∧ iterOffs (word 0) ((List.range 5).map fun n => word (16 + 8 * n)) (word 56) = (32, 0) := by
  unfold State.GangReady; decide +kernel

def demoGang : Gang := ⟨[], [], 0, 48, 0#64, 0#64, [], none, 1, 0#4, 0#4, 0#3, 0#3, none⟩
theorem test_wit_gang_ends :
    (let s : State := ({ State.reset with cyc := 56 }).setRow 0 { Row.zero with gangs := [demoGang] }
     (s.row 0).gangs = demoGang :: [] ∧ demoGang.g + max demoGang.k 1 * demoGang.per + 7 < s.cyc ∧ demoGang.iter = none ∧ demoGang.stop = none) ∧
    (let s : State := ({ State.reset with cyc := 2 ^ 24 + 1 }).setRow 0 { Row.zero with waitFrom := some 0 }
     let ps := (rowCores 0).filterMap s.gangHead
     (s.row 0).waitFrom = some 0 ∧ 0 + s.waitLimit ((ps.head?.map (·.src)).getD 0) < s.cyc ∧
       ∀ c ∈ rowCores 0, ∀ p, s.gangHead c = some p → p.src = c) ∧
    (let g := { demoGang with iter := some 1#64, parts := [{ partOf 0x10000000#32 0#64 with dom := ⟨5#16, 0#48, false⟩ }] }
     let s : State := ({ State.reset with cyc := 48 }).setRow 0 { Row.zero with gangs := [g] }
     (s.row 0).gangs = g :: [] ∧ g.iter = some 1#64 ∧ g.g + g.k * g.per ≤ s.cyc ∧ s.allExpired g.parts = true) ∧
    (let g := { demoGang with base := mmaDesc, iter := some 0#64, parts := (List.range 8).map (gangPart mmaDesc) }
     g.iter = some 0#64 ∧ g.g + g.k * g.per ≤ 48 ∧ (gangRow (fun _ => mmaDesc) nullBytes nullCells).allExpired g.parts = false ∧
       (g.parts.map (·.src)).Nodup ∧ (∀ q ∈ g.parts, q.md = (g.parts.headD Part.zero).md) ∧ (g.parts.headD Part.zero).five = false ∧
       iterOffs g.base g.lv 0#64 = (32, 0) ∧ offsOk 32 0 = true ∧ dAoff mmaDesc = 32 ∧ dBoff mmaDesc = 0) := by decide +kernel

def demoSlot : Slot := { Slot.zero with v := true, ent := 4 }
theorem test_wit_slice_arrivals :
    (let a : Arr := .ripple 0 15#4 0#16 [] 0 4
     let s := sliced fun l => { l with arrs := [a], tiles := l.tiles.set 15 { Tile.zero with st := .derived, slots := Tile.zero.slots.set 3 demoSlot } }
     (s.core 0).sl.arrs = a :: [] ∧ s.slIdle 0 = true ∧ ((s.core 0).sl.tile 15#4).slotOf 0 4 = some (3, demoSlot)) ∧
    (let a : Arr := .mark 0 15#4 0#16 true 0 4
     let s := sliced fun l => { l with arrs := [a], tiles := l.tiles.set 15 { Tile.zero with st := .derived, slots := Tile.zero.slots.set 0 demoSlot } }
     (s.core 0).sl.arrs = a :: [] ∧ ((s.core 0).sl.tile 15#4).slotOf 0 4 = some (0, demoSlot) ∧
       ∀ j < 4, 0 < j → (((s.core 0).sl.tile 15#4).slots.toList.getD j Slot.zero).v = false) ∧
    (let a : Arr := .tile 15#4 [] [] 0 0 none
     let s := sliced fun l => { l with arrs := [a] }
     (s.core 0).sl.arrs = a :: [] ∧ s.slIdle 0 = true) ∧
    (let k := demoPkt (.rippleAck 0 4 1#16)
     let s := flying k (sliced fun l => { l with rip := [(4, { RipEnt.zero with seq := 1#16, fin := true, uid := 4 })] })
     s.net.find? (fun p => p.dev == s.own && p.body == .rippleAck 0 4 1#16) = some k ∧ s.away 0 k.ctx = false ∧
       tGet (s.core 0).sl.rip (4 % 64) = some { RipEnt.zero with seq := 1#16, fin := true, uid := 4 }) ∧
    (let x := { RipEnt.zero with ddev := 1#8, sent := [(1#16, false, false, [])] }
     x.wait = false ∧ (1#16, false, false, []) ∈ x.sent ∧ x.ddev.toNat ≠ State.reset.own) ∧
    (let s := sliced fun l => { l with wbHeld := [(2047, [], 3)] }
     (s.core 0).sl.wbHeld = (2047, [], 3) :: [] ∧ s.wbInUse 0 (decide (1024 ≤ 2047)) = false) := by decide +kernel

/-- A ring card at 0x7FF80: two ranks, i32, over port 23. -/
def ringCard (c : Core) : Core :=
  (c.ws 5#5 0x7FF80#64).spWrite 0x7FF80
    ([BitVec.ofNat 64 (2 * 2 ^ 56 + 1 * 2 ^ 40 + 1 * 2 ^ 32 + 23 * 2 ^ 27 + 1), 0x100000#64, 0x100100#64, 128#64, 0x800#64, 0x820#64].flatMap wordBytes)
def ringJob : RingJob :=
  ⟨0, 2, 0, 1, 1, 0, 0, 1, 0x100000#64, 0x100100#64, 128, 0x820, 0x800, DTag.imm, 0#16, none, false, 0, 0, 0#192, 0, none, false, 9, none, none, 0, 0, false⟩
def ringing (j : RingJob) (s : State) : State := s.updPort 23 fun p => { p with ring := [j], map := [(BitVec.ofNat 8 j.prevd, 5#16, 0#16)] }

theorem test_wit_flat : Flat [⟨0x100000#64, .dram 0x50000, 64, .so, false⟩, ⟨0x100040#64, .dram (0x50000 + 64), 64, .so, false⟩,
    ⟨0x100080#64, .dram (0x50000 + 128), 64, .so, false⟩] 0x50000 192 := by simp [Flat]

theorem test_wit_ringj :
    (let s := demo ringCard
     let k := readRCard (s.me.spRead 0x7FF80 128)
     k.port = 23 ∧ (s.port k.port).ring.length < 4 ∧ k.code s.own = 0 ∧ s.ringBad (s.who s.cur false) k = none ∧ (s.sideDom .imm 0#16).2 = true ∧
       s.me.spBusy s.cur = false) ∧
    ((readRCard []).code 0 ≠ 0 ∧ (1#64 : Word).toNat % 128 ≠ 0) := by decide +kernel

theorem test_wit_ring :
    (let s := ringing ringJob (demo paged)
     let w : Who := ⟨0, 0#16, none, 0, s.dtag DTag.imm, false⟩
     (s.port 23).ring = ringJob :: [] ∧ ringJob.park = none ∧ ringJob.dt < 3 ∧ ringJob.kind ≠ 2 ∧ s.expired hubEp (s.dtag DTag.imm) = false ∧
       s.chkRun w .st .jobRead none (runParts ringJob.chunk (ringJob.srcOf 1) ringJob.chunk) = .ok [⟨0x100040#64, .dram 0x50040, 64, .so, false⟩] s) ∧
    (let j := { ringJob with started := true, dom := ⟨5#16, 0#48, false⟩ }
     let s := ringing j State.reset
     (s.port 23).ring = j :: [] ∧ j.code = none ∧ j.flits = 0 ∧ s.expired hubEp (s.dtag j.dom) = true) ∧
    (let j := { ringJob with started := true }
     let s := ringing j (demo paged)
     let find (ctx : Ctx) := (s.port 23).map.find? fun e => e.1 == BitVec.ofNat 8 j.prevd && e.2.1 == ctx
     (s.port 23).ring = j :: [] ∧ j.code = none ∧ j.flits = 0 ∧ s.expired hubEp (s.dtag j.dom) = false ∧ find 6#16 = none ∧
       find 5#16 = some (BitVec.ofNat 8 j.prevd, 5#16, j.ctx) ∧ { j.key with nr := 3 } ≠ j.key) ∧
    (let j := { ringJob with started := true, code := some 8 }
     let k := { ringJob with started := true, code := some 8, lossSent := true }
     ((ringing j State.reset).port 23).ring = j :: [] ∧ j.lossSent = false ∧ ((ringing k State.reset).port 23).ring = k :: [] ∧ k.code = some 8 ∧
       k.lossSent = true) ∧
    (let j := { ringJob with started := true, step := 1 }
     let s := ringing j (demo paged)
     let w : Who := ⟨0, 0#16, none, 0, s.dtag DTag.imm, false⟩
     j.adding = false ∧ j.dt ≠ 4 ∧ j.last ≤ j.step ∧
       ∃ pa, s.chkRun w .st .jobWrite none (runParts j.chunk (j.dstOf j.cid) j.chunk) = .ok [⟨j.dstOf j.cid, .dram pa, 64, .so, false⟩] s) ∧
    (let j := { ringJob with started := true, nr := 3, len := 192 }
     j.adding = true ∧ j.step + 2 ≠ j.nr ∧ j.step < j.last ∧ j.chunk = 64 ∧
       ∃ v, ringSum j.dt (64 / ringElem j.dt) (List.replicate 64 0#8) (List.replicate 64 0#8) = some v) ∧
    (let j := { ringJob with started := true }
     let s := ringing j { State.reset with cyc := 1200 }
     (s.port 23).ring = j :: [] ∧ j.lastAt + 1200 * j.tmo ≤ s.cyc ∧ j.lossSent = false ∧ (1#192 : BitVec 192) ≠ 0#192) ∧
    (let j := { ringJob with started := true, code := some 8 }
     let s := ringing j State.reset
     (s.port 23).ring = j :: [] ∧ s.away 0 j.ctx = false ∧ s.ringBusy 23 j = false ∧ j.lrec + 32 ≤ j.cmpl) ∧
    (let j := { ringJob with started := true, code := some 0, refused := true }
     let s := ringing j State.reset
     (s.port 23).ring = j :: [] ∧ s.away 0 j.ctx = false ∧ s.ringBusy 23 j = false ∧ j.flits = 0 ∧ j.due = 0) := by
  refine ⟨by decide +kernel, by decide +kernel, by decide +kernel, by decide +kernel, ⟨by decide, by decide, by decide, 0x50140, by decide +kernel⟩,
    ⟨by decide, by decide, by decide, by decide, _, rfl⟩, by decide +kernel, by decide +kernel, by decide +kernel⟩

def demoEnt (k : BitVec 8) (p : Party) : FEnt := { fEnt0 with n := 4, kind := k, party := p }
def faulted (e : FEnt) (s : State) : State := s.updCl 63 fun k => { k with fq := { k.fq with ents := [(63, e)] } }

theorem test_wit_faults :
    (let s := faulted (demoEnt 0x20#8 (.core 0)) (demo fun c => { c with park := some (4, 0) })
     tGet (s.fqOf 63).ents 63 = some (demoEnt 0x20#8 (.core 0)) ∧ (s.fqOf 63).held = [] ∧ s.sys.handover = none ∧ s.parkedBy 0 4 = true) ∧
    ({ State.reset.sys with handover := some 0 }.handover ≠ none) ∧
    (demoEnt 0x22#8 (.core 0)).kind ≠ 0x20#8 ∧
    (let s := faulted (demoEnt 0x20#8 (.job 0 3)) (demo fun c => { c with jobs := [{ demoJob with st := 3 }] })
     tGet (s.fqOf 63).ents 63 = some (demoEnt 0x20#8 (.job 0 3)) ∧ (s.core 0).job 3 = some { demoJob with st := 3 }) ∧
    (let j := { ringJob with park := some 4 }
     let s := faulted (demoEnt 0x20#8 (.ring 23)) (ringing j State.reset)
     tGet (s.fqOf 63).ents 63 = some (demoEnt 0x20#8 (.ring 23)) ∧ (s.port 23).ring = j :: [] ∧ j.park = some (demoEnt 0x20#8 (.ring 23)).n) ∧
    (let s := faulted (demoEnt 0x30#8 .none) State.reset
     tGet (s.fqOf 63).ents 63 = some (demoEnt 0x30#8 .none) ∧ (demoEnt 0x30#8 (.core 0)).party ≠ .none) ∧
    (demo fun c => { c with stat := .frozen }).core 0 = { Core.zero with stat := .frozen } ∧
    (let k := demoPkt (.refusal 0 0x100000#64 0#16 none)
     let s := flying k State.reset
     s.net.find? (fun p => p.dev == s.own && p.body == .refusal 0 0x100000#64 0#16 none) = some k ∧ (s.core 0).jobs = [] ∧ (s.core 0).waitsAt 0x100000#64 = none ∧
       (s.core 0).acc = []) ∧
    (let k := demoPkt (.refusal 0 0x0200000000100000#64 0#16 none)
     let e := { pendAt ⟨0x0200000000100000#64, .peer 0x0200000000100000#64, 1, .rc, false⟩ (.store [7#8]) DTag.imm with sent := some 9, act := 9 }
     let s := flying k (demo fun c => { running c msgZero with stat := .run, acc := [e] })
     s.net.find? (fun p => p.dev == s.own && p.body == .refusal 0 0x0200000000100000#64 0#16 none) = some k ∧
       (s.core 0).acc.find? (fun x => x.sent.isSome && x.p.at_ == .peer 0x0200000000100000#64) = some e ∧ (s.core 0).act.map (·.id) = some e.act ∧
       (s.core 0).stat ≠ .frozen) ∧
    (let s := demo fun c => { running c msgZero with stat := .run }
     (s.core 0).act ≠ none ∧ (s.core 0).stat ≠ .frozen ∧ (s.core 0).c.dom.id = 0#16) ∧
    (let s := handled (demo fun c => { c with stat := .trapping ⟨2#8, 4#64, 0#64, true⟩ })
     (s.core 0).stat = .trapping ⟨2#8, 4#64, 0#64, true⟩ ∧ (s.core 0).wbuf = [] ∧ (s.core 0).wpend = [] ∧ (s.core 0).c.intrap = false ∧
       s.handler (s.who 0 false).ctx 255 = some ⟨0#64, true, 0x100100#64⟩) := by decide +kernel

theorem test_wit_translation :
    (let s := demo paged
     classify s.own 0 0x100000#64 = .dva 0x100000#64 ∧
       s.chkPiece 0 (bufOf .load) (s.who 0 false).ctx .load (s.taskFps (s.who 0 false).task) 0x100000#64 1 =
         .ok [⟨0x100000#64, .dram 0x50000, 1, .so, false⟩] s) ∧
    (let s := demo fun c => { running c msgZero with stat := .run }
     s.chkPiece 0 (bufOf .load) (s.who 0 false).ctx .load (s.taskFps (s.who 0 false).task) 0x100000#64 1 = .dem 0x100000#64 1#4 false ∧
       (s.core 0).stat = .run ∧ (s.core 0).act ≠ none ∧ (s.core 0).park = none) ∧
    (State.reset.updHub fun h => { h with pins := [(pinKey 0#16 0x100010#64, 1)] }).shootPinned 0x100000#128 = true ∧
    (State.reset.shootPinned 0#128 = false ∧ State.reset.hub.leases = []) ∧
    (let k : Shoot := ⟨0#128, false, [63], [], 0⟩
     let s := State.reset.updHub fun h => { h with shoot := [k] }
     s.hub.shoot = [k] ∧ 63 ∈ k.acks ∧ ∀ c ∈ clCores 63, (s.core c).acc = []) ∧
    (let k : Shoot := ⟨0#128, false, [], [], 0⟩
     let s := State.reset.updHub fun h => { h with shoot := [k, { k with acks := [1] }] }
     s.hub.shoot = [k, { k with acks := [1] }] ∧ k.acks = [] ∧ k.peers = [] ∧ ∀ x ∈ [{ k with acks := [1] }], x.held = false) ∧
    (let s := State.reset.updHub fun h => { h with shoot := [⟨0#128, false, [], [(1, 2)], 0⟩] }
     (∃ k ∈ s.hub.shoot, (1, 2) ∈ k.peers) ∧ ∀ k ∈ s.hub.shoot, (1, 3) ∉ k.peers) := by decide +kernel

def peerPk (b : PBody) : PeerPkt := ⟨1#8, 0#12, 5#16, 0#16, false, 0#48, b⟩
theorem test_wit_peers :
    (let s := State.reset.updPort 23 fun p => { p with map := [(1#8, 5#16, 0#16)] }
     ((tGet s.hub.ports 23).getD Port.zero).map.find? (fun m => m.1 == (peerPk (.store 0#64 [])).srcDev && m.2.1 == (peerPk (.store 0#64 [])).srcCtx) =
       some (1#8, 5#16, 0#16) ∧ (peerPk (.store 0#64 [])).dom = 0#16) ∧
    ((tGet State.reset.hub.ports 23).getD Port.zero).map.find? (fun m => m.1 == 1#8 && m.2.1 == 5#16) = none ∧
    (let k := { peerPk (.store 0#64 []) with dom := 5#16 }
     k.dom ≠ 0#16 ∧ k.ext = false ∧ instPassed State.reset.now k.inst = true ∧ jobOf k.body = none) ∧
    jobOf (peerPk (.data 0#64 [] (2 * 4096 + 1) 3)).body = some (1, 3) ∧
    (let k := { demoPkt (.load 0x100000#64 8 3) with peer := true, srcCore := 4096 }
     let s := flying k (State.reset.upd 4096 paged)
     s.pkt 7 = some k ∧ k.dev = s.own ∧ s.sys.ckpting = false ∧ s.peerChk k .load 0x100000#64 8 = .ok [⟨0x100000#64, .dram 0x50000, 8, .so, false⟩] s ∧
       s.expired (s.placeEp (.dram 0x50000) false false) k.dom = false) ∧
    (let k := { demoPkt (.store 0x100000#64 [1#8]) with peer := true, srcCore := 4096 }
     let s := flying k (State.reset.upd 4096 paged)
     s.pkt 7 = some k ∧ s.peerChk k .store 0x100000#64 1 = .ok [⟨0x100000#64, .dram 0x50000, 1, .so, false⟩] s) ∧
    (let k := { demoPkt (.store 0xFE000100000000#64 [1#8]) with peer := true, srcCore := 4096 }
     let s := flying k State.reset
     s.pkt 7 = some k ∧ s.peerChk k .store 0xFE000100000000#64 1 = .viol 0xFE000100000000#64) ∧
    (let k := { demoPkt (.annulNotice 9#16) with peer := true, srcCore := 4096 }
     let s := flying k (domIs 5 { live with kind := .shOrd, hdev := 1#8, hid := 9#16 } State.reset)
     s.pkt 7 = some k ∧ s.shadowOf (BitVec.ofNat 8 (k.srcCore / 4096)) 9#16 = some 5#16 ∧ (s.dom 5#16).st = .live) := by decide +kernel

def resident (c : Core) : Core := { c with res := some 0#16 }
theorem test_wit_preemption :
    (((demo resident).core 0).res ≠ none ∧ ((demo resident).core 0).c.preq = false) ∧
    (let s : State := { (demo fun c => { resident c with c := { c.c with preq := true } }) with cyc := 24000 }
     (s.core 0).res = some 0#16 ∧ (s.core 0).c.preq = true ∧ (s.core 0).preqAt + 24000 ≤ s.cyc ∧ s.atBoundary 0 = true ∧ (s.row (rowOf 0)).gangs = []) ∧
    (let s := State.reset.updHub fun h => { h with saves := [(saveKey 0#16 0, saveNew 0#16)] }
     tGet s.hub.saves (saveKey 0#16 0) = some (saveNew 0#16) ∧ (s.core 0).res = none ∧ s.sys.ckpting = false ∧ (saveNew 0#16).log = [] ∧
       (saveNew 0#16).ctx = 0#16 ∧ (s.core 0).phys ≠ 9 ∧ (∀ t : AReg, ((saveNew 0#16).core.sl.tile t).st ≠ .published) ∧
       Memory.wf (saveNew 0#16).core.sp = true ∧ Memory.wf (s.core 0).sp = true ∧
       (∀ p ∈ (saveNew 0#16).core.sp, inRanges (saveNew 0#16).keep p.1 = true) ∧ (saveNew 0#16).full = true ∧ { saveNew 0#16 with full := false }.full = false) ∧
    (let s := demo resident
     (s.core 0).res = some 0#16 ∧ (∀ t : AReg, ((s.core 0).sl.tile t).st ≠ .published) ∧ Memory.wf (s.core 0).sp = true) ∧
    (State.reset.atBoundary 0 = true ∧ (State.reset.row (rowOf 0)).gangs = [] ∧ (∀ k ∈ rowCores (rowOf 0), (State.reset.core k).phys ≠ 8) ∧
      (State.reset.core 0).phys ≠ 9 ∧ (State.reset.core 0).res = none ∧ 0 < nCores) ∧
    (let s := demo resident
     s.atBoundary 0 = true ∧ (s.core 0).res = some 0#16 ∧ s.cores = [(0, resident Core.zero)]) ∧
    (let s : State := { (State.reset.updHub fun h => { h with saves := [(saveKey 0#16 0, saveNew 0#16)] }) with
       cores := [(0, Core.zero)], sys := { State.reset.sys with ckpting := true } }
     s.sys.ckpting = true ∧ s.cores = [(0, Core.zero)] ∧ s.hub.saves = [(saveKey 0#16 0, saveNew 0#16)] ∧ saveKey 0#16 0 % 4096 = 0 ∧
       Core.zero.phys ≠ 9 ∧ s.sys.buf = none) ∧
    (let s := State.reset.upd 1 fun c => { c with phys := 8 }
     s.atBoundary 0 = true ∧ (∃ k ∈ rowCores (rowOf 0), (s.core k).phys = 8) ∧ (s.core 0).phys ≠ 9) ∧
    (∀ p ∈ State.reset.cores, p.2.res = none) ∧ State.reset.sys.ckpting = false ∧
    (let s : State := { State.reset with sys := { State.reset.sys with ckpting := true } }
     s.sys.ckpting = true ∧ s.hub.saves = []) := by decide +kernel

def leafFp : BitVec 128 := BitVec.ofNat 128 (2 ^ 64 + 3 * 2 ^ 57 + 0x100000)
/-- Page tables at 0 for the page at 0x10_0000 of context 0, each table 4 KiB. -/
def tabled : State := { State.reset with
  mem := [(0, 1#8), (1, 0x10#8), (0x1000, 1#8), (0x1001, 0x20#8), (0x2000, 1#8), (0x2001, 0x30#8), (0x3000, 1#8), (0x3001, 0x40#8),
    (0x4080, 0x1F#8), (0x4082, 5#8)] }
def recs1 (r : Rec) : Launch := { demoLaunch with recs := [r] }
def reported (s : State) : State := s.updCl 0 fun k => { k with report := (List.range 8).map fun c => (c, (16, 16, 16, 16, true)) }

theorem test_wit_wellhead :
    (State.reset.cl 63).report = [] ∧
    (let s := launched (recs1 demoRec) State.reset
     s.launchOf 1 = some (recs1 demoRec) ∧ (recs1 demoRec).recs[0]? = some demoRec ∧ demoRec.st = .waiting ∧ demoRec.intake = none ∧
       ∀ p ∈ (recs1 demoRec).preds 0, p.lost = false ∧ (p.st = .done ∨ p.st = .discarded)) ∧
    (let x := { demoLaunch with recs := [{ demoRec with st := .failed }, { demoRec with aft := [0] }] }
     x.recs[1]? = some { demoRec with aft := [0] } ∧ ∃ p ∈ x.preds 1, p.lost = true) ∧
    { demoRec with intake := some 63 }.intake ≠ none ∧
    (let y := { demoRec with st := .ready, fps := [leafFp] }
     y.st = .ready ∧ y.granted = false ∧ y.leased = [leafFp] ∧ BitVec.ofNat 64 (0x100000 + 16) ∉ y.pins) ∧
    (handled tabled).hub.ctxs = [(0, ⟨⟨0#64, 0#64, 0#64, 0#64, 24#6, false⟩, [(255, ⟨0#64, true, 0x100100#64⟩)]⟩)] ∧
    walk tabled.mem 0#64 0x100000#64 = .leaf 0x5001F#64 16 ∧
    ((leafFp.extractLsb' 0 56).toNat < 0x100000 + 2 ^ 16 ∧ 0x100000 < (leafFp.extractLsb' 0 56).toNat + (leafFp.extractLsb' 64 64).toNat ∧
      (0x5001F#64 : Word).getLsbD 2 = true ∧ (0x5001F#64 : Word).getLsbD 3 = true) ∧
    (let s := reported (launched (recs1 { demoRec with st := .leased, q := 3#2 }) State.reset)
     s.pickOf 1 = some (0, [0]) ∧ s.turnOf = some 1) ∧
    (let y := { demoRec with st := .leased, gang := true }
     let s : State := { (launched (recs1 y) State.reset) with cyc := 4096 }
     y.gang = true ∧ y.placeable = true ∧ y.readyAt + 4096 ≤ s.cyc ∧ s.resvRow 1 0 = none ∧ 0 ∈ (recs1 y).rows ∧ (s.row 0).resv = none) ∧
    (let s := launched (recs1 { demoRec with st := .placed }) State.reset
     s.taskWork (some (1, 0)) = false) := by decide +kernel

theorem test_wit_debug :
    ((State.reset.core 0).dbg.halted = false ∧ State.reset.haltCause 0 = none) ∧
    ((demo fun c => { c with dbg := { c.dbg with halted := true } }).me.dbg.halted = true ∧
      (demo fun c => { c with dbg := { c.dbg with halted := true } }).me.stat ≠ .frozen) ∧
    (let s := demo fun c => { c with dbg := { c.dbg with halted := true }, stat := .frozen }
     s.me.dbg.halted = true ∧ s.me.stat = .frozen) ∧
    (demo fun c => { c with dbg := { c.dbg with halt := true } }).haltCause 0 = some 1#8 ∧
    (let d := { Dbg.zero with ovf := [(3#2, 7#3, 4#64, true, 9)], trSize := 32#64 }
     d.ovf = (3#2, 7#3, 4#64, true, 9) :: [] ∧ d.trSize ≠ 0#64 ∧ d.trPos + 32 ≤ d.trSize.toNat) := by decide +kernel

theorem test_wit_links :
    (State.reset.port 23).down = false ∧
    (let s := State.reset.updPort 23 fun p => { p with retry := [(0#16, 0#256)], fails := 16 }
     (s.port 23).down = false ∧ (s.port 23).retry ≠ [] ∧ 16 ≤ (s.port 23).fails ∧ s.otherPlane 23 = some 0) ∧
    (let s := State.reset.updHub fun h => { h with ports := (List.range 24).map fun k => (k, { Port.zero with down := k != 23, fails := 16 }) }
     (s.port 23).down = false ∧ 16 ≤ (s.port 23).fails ∧ s.otherPlane 23 = none) ∧
    (let s := State.reset.updPort 23 fun p => { p with retry := [(5#16, 0#256)], resent := true }
     (s.port 23).down = false ∧ (s.port 23).resent = true ∧ (s.port 23).retry = [(5#16, 0#256)] ∧ seqBefore 5#16 3#16 = false ∧ (s.port 23).ring = []) ∧
    ((State.reset.updPort 23 fun p => { p with down := true }).port 23).down = true := by decide +kernel

def demoFlow : FlowRec := ⟨0#48, 0#16, 0#12, 0#8, 0x20#6, 0#16, 0#12, 3#2, 0#16, 0#12, 0#32, 0#16, 0x100000#64, 1#32, 11#8, 0x100800#64⟩
def frame60 : List Byte := List.replicate 60 0#8
def tabledCtx : State := handled tabled

theorem test_wit_ethernet :
    (frame60.length = 60 ∧ (List.replicate 59 0#8).length < 60) ∧ (State.reset.eth 1).flow.find? (fun p => flowTakes p.2.f frame60) = none ∧
    (let s := tabledCtx.updEth 1 fun e => { e with flow := [(4095, ⟨demoFlow, 0#64⟩)] }
     (s.eth 1).flow.find? (fun p => flowTakes p.2.f frame60) = some (4095, ⟨demoFlow, 0#64⟩) ∧
       s.feRead 0#16 (0x100800#64 : Word).toNat 8 = some (List.replicate 8 0#8) ∧ (0#64 - bytesWord (List.replicate 8 0#8)).toNat < (1#32 : BitVec 32).toNat ∧
       (s.eth 1).heldFor 0 3#2 = false ∧ s.noRoom 0#16 0 3#2 = false ∧ frame60.length ≤ 2 ^ (11#8 : BitVec 8).toNat) ∧
    (let s := tabledCtx.updEth 1 fun e => { e with flow := [(4095, ⟨{ demoFlow with slog := 5#8 }, 1#64⟩)] }
     (s.eth 1).flow.find? (fun p => flowTakes p.2.f frame60) = some (4095, ⟨{ demoFlow with slog := 5#8 }, 1#64⟩) ∧
       (1#32 : BitVec 32).toNat ≤ (1#64 - bytesWord (List.replicate 8 0#8)).toNat ∧ (s.eth 1).held.length < 64 ∧
       2 ^ (5#8 : BitVec 8).toNat < frame60.length) ∧
    (let k := demoPkt (.msg 0 3#2 msgZero none 4096 0 0)
     let s := State.reset.updEth 1 fun e => { e with held := [k] }
     (s.eth 1).held = k :: [] ∧ s.noRoom k.ctx 0 3#2 = false) ∧
    (let g : Egress := ⟨0x100000#64, 2#64, 0x100800#64, 0#16, 2 ^ 64 - 1, 1, []⟩
     let s := tabledCtx.updEth 1 fun e => { e with eg := [(15, g)] }
     let l := [List.replicate 32 0#8]
     tGet (s.eth 1).eg 15 = some g ∧ s.feRead g.ctx g.tailVa.toNat 8 = some (List.replicate 8 0#8) ∧
       l.length = min ((leNat (List.replicate 8 0#8) + 2 ^ 64 - g.head % 2 ^ 64) % 2 ^ 64) g.size.toNat - g.desc.length ∧
       s.feRead g.ctx (g.ring.toNat + 32 * ((g.head + (g.desc.length + 0)) % g.size.toNat)) 32 = some (List.replicate 32 0#8)) ∧
    (let b := leBytes 8 0x100000 ++ leBytes 2 60 ++ List.replicate 6 0#8 ++ leBytes 8 5 ++ List.replicate 8 0#8
     let g : Egress := ⟨0x100000#64, 2#64, 0x100800#64, 0#16, 0, 1, [b]⟩
     let s : State := { tabledCtx with now := 6 }
     g.desc = b :: [] ∧ bN b 16 8 ≠ 0 ∧ bN b 16 8 < 2 ^ 64 ∧ bN b 16 8 ≤ s.nowW.toNat ∧
       (feWrite g.ctx (wordBytes (2#2 ++ s.nowW.extractLsb' 0 62)) (g.ring.toNat + 24) s).isSome = true) ∧
    (let b := leBytes 8 0x100000 ++ leBytes 2 59 ++ List.replicate 22 0#8
     bN b 16 8 = 0 ∧ bN b 8 2 < 60) ∧
    State.reset.sys.locked ≠ true := by decide +kernel

theorem test_wit_ethernet_slot : ∃ u, feWrite 0#16 frame60 0x100000 tabledCtx = some u := by
  have h : (feWrite 0#16 frame60 0x100000 tabledCtx).isSome = true := by decide +kernel
  exact Option.isSome_iff_exists.mp h
theorem test_wit_ethernet_descriptor :
    let b := leBytes 8 0x100000 ++ leBytes 2 9212 ++ List.replicate 22 0#8
    bN b 16 8 = 0 ∧ 60 ≤ bN b 8 2 ∧ bN b 8 2 ≤ 9212 := by decide +kernel

def queued : State := State.reset.updHq 63 fun h => { h with en := true, tail := 1#32 }
/-- Its packet stands at the head of the ring of queue 63, at 0x1000 of the host's memory. -/
def ringHolds (pk : BitVec 512) : State :=
  { (queued.updHq 63 fun h => { h with rbase := 0x1000#64, rsize := 4#64, cbase := 0x2000#64, csize := 4#64 }) with
    hostMem := Memory.write [] 0x1000 (leBytes 64 pk.toNat) }
theorem test_wit_host_ring : [0#512, 0x100#512, 0x101#512, BitVec.ofNat 512 (2 + 0x1000 * 2 ^ 64 + 64 * 2 ^ 128), BitVec.ofNat 512 (2 + 8 * 2 ^ 64),
      BitVec.ofNat 512 (3 + 5 * 2 ^ 64), BitVec.ofNat 512 (1 + 2 ^ 48 + 0x100000 * 2 ^ 64), 0x77#512].all (fun pk =>
    let h := (ringHolds pk).hq 63
    (ringHolds pk).accepts 63 && h.ibuf.isEmpty && h.head != h.tail &&
      pk == BitVec.ofNat 512 (leNat (Memory.read (ringHolds pk).hostMem (h.rbase.toNat + 64 * (h.head.toNat % h.rsize.toNat)) 64))) = true := by
  decide +kernel

theorem test_wit_host_config :
    (State.reset.sys.image = none ∧
      (let s : State := { State.reset with sys := { State.reset.sys with image := some ⟨true, 2#32, 9#256⟩, recs := [(3, 5#32, 7#256)] } }
       s.sys.image = some ⟨true, 2#32, 9#256⟩ ∧ tGet s.sys.recs 3 = some (5#32, 7#256) ∧ (4#32 : BitVec 32) < 5#32 ∧ (5#32 : BitVec 32) ≤ 5#32)) ∧
    (∀ k d, Config.verifies k d = true ∨ Config.verifies k d = false) ∧
    ((demo fun c => { c with dbg := { c.dbg with halted := true } }).core 0).dbg.halted = true := by
  refine ⟨by decide +kernel, fun k d => by cases Config.verifies k d <;> simp, by decide +kernel⟩

theorem test_wit_host :
    (queued.accepts 63 = true ∧ (queued.hq 63).ibuf = [] ∧ (queued.hq 63).head ≠ (queued.hq 63).tail) ∧
    (let s := State.reset.updHq 63 fun h => { h with stop := true }
     (s.hq 63).stop = true ∧ (s.hq 63).ibuf = [] ∧ s.feOpen = true) ∧
    (pkN 0#512 1 63 = 0 ∧ pkN 0x100#512 1 63 ≠ 0) ∧
    (let pk : BitVec 512 := BitVec.ofNat 512 (2 + 0x1000 * 2 ^ 64 + 64 * 2 ^ 128)
     pkN pk 1 7 = 0 ∧ pkN pk 8 8 % 64 = 0 ∧ ((ringHolds pk).hq 63).covers (pkN pk 8 8) (pkN pk 16 4) = true ∧ pkN pk 16 4 % 64 = 0 ∧
       64 ≤ pkN pk 16 4 ∧ pkN pk 16 4 ≤ 65536 ∧ pkN pk 20 44 = 0) ∧
    (let pk : BitVec 512 := BitVec.ofNat 512 (2 + 8 * 2 ^ 64)
     pkN pk 1 7 = 0 ∧ pkN pk 8 8 % 64 ≠ 0 ∧ HQ.zero.covers 64 64 = false) ∧
    (let pk : BitVec 512 := BitVec.ofNat 512 (3 + 5 * 2 ^ 64)
     let s := domIs 5 live queued
     pkN pk 1 3 = 0 ∧ pkN pk 6 2 = 0 ∧ pkN pk 10 54 = 0 ∧ pk.extractLsb' 64 16 = 5#16 ∧ (s.dom 5#16).st = .live ∧
       (s.dom 5#16).ctx = pk.extractLsb' 32 16 ∧ (queued.dom 5#16).st ≠ .live) ∧
    queued.launchField 0x101#512 = some 1 ∧
    (let s : State := { (State.reset.updHq 63 fun h => { h with pend := 1 }) with cyc := 24000 }
     0 < (s.hq 63).pend ∧ (s.hq 63).pendAt + 24000 ≤ s.cyc) ∧
    (let s := State.reset.updHq 63 fun h => { h with irq := 0x20000#32 }
     1 < ((s.hq 63).irq.extractLsb' 16 16).toNat ∧ (s.hq 63).pend = 0) ∧
    (let s := launched (recs1 { demoRec with st := .done }) State.reset
     s.launchOf 1 = some (recs1 { demoRec with st := .done }) ∧ ∀ r ∈ (recs1 { demoRec with st := .done }).recs, r.st = .done ∨ r.st = .failed ∨ r.st = .discarded) := by
  decide +kernel

/-- A launch of a graph of no records at 0x10_0000, on core 0. -/
def launchPk : BitVec 512 := BitVec.ofNat 512 (1 + 2 ^ 48 + 0x100000 * 2 ^ 64)
theorem test_wit_launch : tabledCtx.launchCheck launchPk = .go [] [] [] (List.replicate 1920 0#8) ∧ lInst launchPk = 0#64 := by decide +kernel

def demoImage : FwImage := ⟨true, 2#32, 9#256⟩
theorem test_wit_firmware :
    (∀ k d, Config.verifies k d = true ∨ Config.verifies k d = false) ∧ (State.reset.sys.handover = none ∧ demoImage.slot ≠ State.reset.sys.slotB) ∧
    (let s : State := { State.reset with cyc := 1200000000, sys := { State.reset.sys with pending := some demoImage, handover := some 0, gate := true } }
     s.sys.pending = some demoImage ∧ s.sys.handover = some 0 ∧ 0 + 1200000000 ≤ s.cyc ∧ s.sys.gate = true) ∧
    (let s : State := { State.reset with cyc := 1199999999, sys := { State.reset.sys with pending := some demoImage, handover := some 0 } }
     s.sys.pending = some demoImage ∧ s.sys.handover = some 0 ∧ s.cyc < 0 + 1200000000) := by
  refine ⟨fun k d => by cases Config.verifies k d <;> simp, by decide +kernel⟩

theorem test_wit_numbers : (f32Val 0x7F7FFFFF#32).isNan = false ∧ (bf16Val 0x0001#16).isNan = false ∧ (FV.nan true).isNan = true ∧
    (-534775296 : Int) ≤ -534775296 ∧ (534775295 : Int) < 534775296 := by decide +kernel

theorem test_wit_encode : (Instr.li (.one 0x3FFFFFF#26) 0x1FFFFF#21 31#5).wf = true ∧ encode (.li (.one 0x3FFFFFF#26) 0x1FFFFF#21 31#5) ≠ [] := by
  decide +kernel

/-- Core 0 runs the inline code of its message in slot 15 of queue 3: `sub.i64 s5, s4, s3` comes first. -/
def inlineCore (c : Core) : Core :=
  { running c { msgZero with inl := true, p0 := 0x042520C1#64 } with stat := .run, pc := 0x80FE0#64 }
theorem test_wit_step :
    (let s := demo inlineCore
     let t : State := { s with cur := 0, phase := .s }
     let o := (slotAddr 3#2 15).toNat + 32
     s.sReady 0 = true ∧ s.expired 0 (s.dtag (s.core 0).c.dom) = false ∧ o ≤ (s.core 0).pc.toNat ∧ (s.core 0).pc.toNat < o + 32 ∧ o + 32 ≤ 0x100000 ∧
       BitVec.ofNat 32 (leNat ((s.core 0).spRead (s.core 0).pc.toNat 4)) = 0x042520C1#32 ∧ isPfx 0x042520C1#32 = false ∧
       State.fetchWords (s.core 0).pc 3 0 [] t = ([0x042520C1#32], .word 0x042520C1#32 t)) ∧
    (let s : State := { (demo fun c => { (paged c) with stat := .run, pc := 0x100000#64 }) with mem := [(0x50000, 0x0C#8), (0x50003, 0x0C#8)] }
     let t : State := { s with cur := 0, phase := .s }
     classify s.own 0 (s.core 0).pc = .dva 0x100000#64 ∧ t.upsets = [] ∧ (s.core 0).act = none ∧
       t.chkPiece 0 .i (t.who 0 false).ctx .fetch none 0x100000#64 4 = .ok [⟨0x100000#64, .dram 0x50000, 4, .so, false⟩] t ∧
       BitVec.ofNat 32 (leNat (Memory.read t.mem 0x50000 4)) = 0x0C00000C#32 ∧ isPfx 0x0C00000C#32 = false) ∧
    ((Instr.checkpoint).wf = true ∧ encode .checkpoint = [] ∧ (Instr.wIssue 4096).wf = false ∧ encode (.zblk 1#5) ≠ []) ∧
    (State.reset.agenda = [] ∧ State.reset.wDue = none ∧ State.reset.sDue = none ∧ (demo inlineCore).sDue = some 0 ∧
      ({ (demo fun c => { c with wbuf := [wEnt 0#32 0#64] }) with cyc := 1 } : State).wDue = some 0) := by decide +kernel

theorem test_wit_invariant : State.reset.Inv ∧ ∃ t, step State.reset = .next t := by
  refine ⟨⟨by decide, fun i h => by simp [State.reset] at h⟩, _, rfl⟩

/-! The spec's worked numbers. -/

/-- The reduction example of 06 R103: 2^24 and 47 ones give 16,777,262 with VNX. -/
theorem test_red_f32 : redAdd .f32 (BitVec.allOnes 48) ((Vector.replicate 48 0x3F800000#32).set 0 0x4B800000#32) = (0x4B800017#64, 2#5) := by
  decide +kernel

/-- The shifted elements of 04 R73: 511 by -1 is 256, -512 by -10 is 0. -/
theorem test_shifted : (alignPair [511] [1] (-1)).1 = 256 ∧ (alignPair [-512] [1] (-10)).1 = 0 := by decide +kernel

/-- The walk of 11: the leaf of 0x40_0003_2468. -/
theorem test_walk : walk [(0x100000, 0x01#8), (0x100001, 0x10#8), (0x100002, 0x10#8), (0x101000, 0x01#8), (0x101001, 0x20#8), (0x101002, 0x10#8),
    (0x102800, 0x01#8), (0x102801, 0x30#8), (0x102802, 0x10#8), (0x103000, 0x01#8), (0x103001, 0x40#8), (0x103002, 0x10#8),
    (0x104018, 0x0F#8), (0x10401A, 0x50#8), (0x10401B, 0x34#8), (0x10401C, 0x12#8), (0x10401F, 0x0C#8)] 0x100000#64 0x4000032468#64 =
    .leaf 0x0C0000123450000F#64 16 := by decide +kernel

/-- A core after one instruction. -/
def after (i : Instr) (s : State) : Core :=
  match exec i s with
  | .next t => t.me
  | _ => Core.zero

/-- The sum of the worked example of 05 wraps at 32 bits: 16 + 0x7FFF_FFFF. -/
theorem test_add_wraps : (after (.add .i32 7#5 5#5 5#5) (demo fun c => (c.ws 5#5 16#64).ws 7#5 0x7FFFFFFF#64)).rs 5#5 = 0xFFFFFFFF8000000F#64 := by
  decide +kernel
theorem test_div_corner : (after (.div .i32 7#5 5#5 5#5) (demo fun c => (c.ws 5#5 0x80000000#64).ws 7#5 0xFFFFFFFF#64)).rs 5#5 =
    0xFFFFFFFF80000000#64 := by decide +kernel
theorem test_rem_sign : (after (.rem .i64 7#5 5#5 5#5) (demo fun c => (c.ws 5#5 (-7#64)).ws 7#5 2#64)).rs 5#5 = -1#64 := by decide +kernel
theorem test_discarded : (after (.li .none 5#21 0#5) (demo id)).rs 0#5 = 0#64 := by decide +kernel
theorem test_store_bytes : Memory.get (after (.st .none 0#7 .pg .core .inh .i16 6#5 5#5) (demo fun c => (c.ws 5#5 0x1234#64).ws 6#5 0x900#64)).sp 0x901 =
    0x12#8 := by decide +kernel
theorem test_load_sign : (after (.ld .none 0#7 .pg .core .i8 6#5 5#5) (demo fun c => (c.ws 6#5 0x900#64).spWrite 0x900 [0x80#8])).rs 5#5 =
    0xFFFFFFFFFFFFFF80#64 := by decide +kernel

end Sys2Proof.Machine
end

section
/-! The scalar integer instructions (05 R78 to R82): the model takes each operation on both integer readings of its operands; here each
is the operation on words that the claims name, in every width, and every form completes with it. -/

namespace Sys2Proof.Machine

/-! From a form's meaning to the claims' words. -/

/-- In every width, an operation of R80 to R82 on the readings of two operands, wrapped to the width, is a function of words. -/
def ScFn.Computes (g : ScFn) (f : (w : Nat) → BitVec w → BitVec w → BitVec w) : Prop :=
  ∀ w (x y : BitVec w), BitVec.ofInt w (g w x.toInt x.toNat y.toInt y.toNat) = f w x y

section
variable {g : ScFn} {f : (w : Nat) → BitVec w → BitVec w → BitVec w}

/-- R80 lines 1 to 4: the operands cut to the type's width, the result widened with its sign. -/
theorem ScFn.Computes.scalar_eq (h : g.Computes f) (t : STy) (a b : Word) : scalar g t a b = onWidth t f a b := by
  cases t with
  | i64 =>
    simp only [scalar, onWidth, width, BitVec.setWidth_eq, BitVec.signExtend_eq]
    exact h 64 a b
  | i32 => exact congrArg (BitVec.signExtend 64) (h 32 (a.setWidth 32) (b.setWidth 32))

/-- The arms of `exec` for an operation's register and constant forms hold by unfolding, at the place of use. -/
theorem ScFn.Computes.onForms (h : g.Computes f) {cost : Nat} {reg : STy → Reg → Reg → Reg → Instr}
    {con : CIx → STy → Reg → Reg → Instr}
    (hreg : ∀ t b a d s, exec (reg t b a d) s = scReg g cost t b a d s := by intros; rfl)
    (hcon : ∀ k t a d s, exec (con k t a d) s = scConst g cost k t a d s := by intros; rfl) : OnForms f cost reg con := by
  intro s t a d
  refine ⟨fun b => ⟨_, hreg t b a d s, ?_⟩, fun k => ⟨_, hcon k t a d s, ?_⟩⟩
  · rw [h.scalar_eq]
    exact s.sDone_ws 1 cost d _
  · rw [h.scalar_eq]
    exact s.sDone_ws 1 cost d _

/-- The same of its immediate form. -/
theorem ScFn.Computes.onImm (h : g.Computes f) {cost : Nat} {imm : Pfx → BitVec 12 → Reg → Reg → Instr}
    (himm : ∀ x i a d s, exec (imm x i a d) s = scImm g cost x i a d s := by intros; rfl) : OnImm f cost imm := by
  intro s x i a d
  refine ⟨_, himm x i a d s, ?_⟩
  rw [h.scalar_eq]
  exact s.sDone_ws (words x) cost d _

end

/-! Sums, differences and bitwise functions (R80). -/

theorem scAdd_computes : scAdd.Computes fun _ x y => x + y := by
  intro w x y
  show BitVec.ofInt w (x.toInt + y.toInt) = x + y
  rw [BitVec.ofInt_add, BitVec.ofInt_toInt, BitVec.ofInt_toInt]

theorem scSub_computes : scSub.Computes fun _ x y => x - y := by
  intro w x y
  show BitVec.ofInt w (x.toInt - y.toInt) = x - y
  rw [Int.sub_eq_add_neg, BitVec.ofInt_add, BitVec.ofInt_neg, BitVec.ofInt_toInt, BitVec.ofInt_toInt, BitVec.sub_eq_add_neg]

/-- A result given by its unsigned reading. -/
theorem ofInt_natCast_eq {w n : Nat} {z : BitVec w} (h : n = z.toNat) : BitVec.ofInt w n = z := by
  rw [BitVec.ofInt_natCast, h, BitVec.ofNat_toNat, BitVec.setWidth_eq]

theorem scAnd_computes : scAnd.Computes fun _ x y => x &&& y :=
  fun _ x y => ofInt_natCast_eq (BitVec.toNat_and x y).symm

theorem scOr_computes : scOr.Computes fun _ x y => x ||| y :=
  fun _ x y => ofInt_natCast_eq (BitVec.toNat_or x y).symm

theorem scXor_computes : scXor.Computes fun _ x y => x ^^^ y :=
  fun _ x y => ofInt_natCast_eq (BitVec.toNat_xor x y).symm

theorem scAndn_computes : scAndn.Computes fun _ x y => x &&& ~~~ y :=
  fun _ _ _ => ofInt_natCast_eq (by rw [BitVec.toNat_and, BitVec.toNat_not])

theorem scOrn_computes : scOrn.Computes fun _ x y => x ||| ~~~ y :=
  fun _ _ _ => ofInt_natCast_eq (by rw [BitVec.toNat_or, BitVec.toNat_not])

/-! Shifts, rotations and the bit field (R80, R82). -/

theorem ofNat_mul_two_pow {w : Nat} (x : BitVec w) (k : Nat) : BitVec.ofNat w (x.toNat * 2 ^ k) = x <<< k :=
  BitVec.eq_of_toNat_eq (by rw [BitVec.toNat_ofNat, BitVec.toNat_shiftLeft, Nat.shiftLeft_eq])

theorem ofNat_div_two_pow {w : Nat} (x : BitVec w) (k : Nat) : BitVec.ofNat w (x.toNat / 2 ^ k) = x >>> k := by
  rw [← Nat.shiftRight_eq_div_pow, ← BitVec.toNat_ushiftRight, BitVec.ofNat_toNat, BitVec.setWidth_eq]

theorem scShl_computes : scShl.Computes fun w x y => x <<< (y.toNat % w) := by
  intro w x y
  rw [scShl, BitVec.ofInt_natCast, ofNat_mul_two_pow]

theorem scShr_computes : scShr.Computes fun w x y => x >>> (y.toNat % w) := by
  intro w x y
  rw [scShr, BitVec.ofInt_natCast, ofNat_div_two_pow]

theorem scSra_computes : scSra.Computes fun w x y => x.sshiftRight (y.toNat % w) := by
  intro w x y
  have h : (x.sshiftRight (y.toNat % w)).toInt = x.toInt / 2 ^ (y.toNat % w) := by
    rw [BitVec.toInt_sshiftRight, Int.shiftRight_eq_div_pow]
    push_cast
    rfl
  rw [scSra, ← h, BitVec.ofInt_toInt]

/-- The bits that a rotation moves down and those that it moves up do not meet. -/
theorem ushiftRight_and_shiftLeft_eq_zero {w : Nat} (x : BitVec w) (k : Nat) : x >>> k &&& x <<< (w - k) = 0#w := by
  ext i hi
  rw [BitVec.getElem_and, BitVec.getElem_ushiftRight, BitVec.getElem_shiftLeft, BitVec.getElem_zero]
  by_cases h : i < w - k
  · simp [h]
  · simp [BitVec.getLsbD_of_ge x (k + i) (by omega)]

theorem scRor_computes : scRor.Computes fun w x y => x.rotateRight (y.toNat % w) := by
  intro w x y
  show BitVec.ofInt w ((x.toNat / 2 ^ (y.toNat % w) + x.toNat * 2 ^ (w - y.toNat % w) : Nat) : Int) = x.rotateRight (y.toNat % w)
  rw [BitVec.ofInt_natCast, BitVec.ofNat_add, ofNat_div_two_pow, ofNat_mul_two_pow,
    BitVec.add_eq_or_of_and_eq_zero _ _ (ushiftRight_and_shiftLeft_eq_zero x _), BitVec.rotateRight_def, Nat.mod_mod]

/-- R82: the position is in bits 5 to 0 of the second operand and the width in bits 12 to 6; past the operand there are zeros. -/
theorem scBfx_computes : scBfx.Computes fun w x y =>
    (x >>> (y.extractLsb' 0 6).toNat) &&& BitVec.ofNat w (2 ^ (y.extractLsb' 6 7).toNat - 1) := by
  intro w x y
  have lo : (y.extractLsb' 0 6).toNat = y.toNat % 64 := BitVec.extractLsb'_toNat 0 6 y
  have width : (y.extractLsb' 6 7).toNat = y.toNat / 64 % 128 := by
    rw [BitVec.extractLsb'_toNat, Nat.shiftRight_eq_div_pow]
  show BitVec.ofInt w ((x.toNat / 2 ^ (y.toNat % 64) % 2 ^ (y.toNat / 64 % 128) : Nat) : Int) =
    (x >>> (y.extractLsb' 0 6).toNat) &&& BitVec.ofNat w (2 ^ (y.extractLsb' 6 7).toNat - 1)
  rw [BitVec.ofInt_natCast, ← Nat.and_two_pow_sub_one_eq_mod, BitVec.ofNat_and, ofNat_div_two_pow, lo, width]

/-! Products (R80). -/

theorem scMul_computes : scMul.Computes fun _ x y => x * y := by
  intro w x y
  rw [scMul, BitVec.ofInt_mul, BitVec.ofInt_toInt, BitVec.ofInt_toInt]

theorem emod_mul_self_ediv (p : Int) {c : Int} (hc : 0 < c) : p % (c * c) / c = p / c % c := by
  rw [Int.emod_def, Int.emod_def, Int.mul_assoc, Int.sub_mul_ediv_left _ _ hc.ne', Int.ediv_ediv_of_nonneg hc.le]

/-- The upper half of a number of twice the width: the quotient by 2^w, whether the number fits or not. -/
theorem extractLsb'_ofInt_upper (w : Nat) (p : Int) : (BitVec.ofInt (2 * w) p).extractLsb' w w = BitVec.ofInt w (p / 2 ^ w) := by
  apply BitVec.eq_of_toNat_eq
  have hpos : (0 : Int) < 2 ^ w := by positivity
  have hsq : ((2 ^ (2 * w) : Nat) : Int) = 2 ^ w * 2 ^ w := by push_cast; ring
  have hlow : 0 ≤ p % (2 ^ w * 2 ^ w) := Int.emod_nonneg _ (by positivity)
  have hhigh : 0 ≤ p / 2 ^ w % 2 ^ w := Int.emod_nonneg _ hpos.ne'
  rw [BitVec.extractLsb'_toNat, BitVec.toNat_ofInt, BitVec.toNat_ofInt, hsq, Nat.shiftRight_eq_div_pow]
  zify
  rw [Int.toNat_of_nonneg hlow, Int.toNat_of_nonneg hhigh, emod_mul_self_ediv p hpos, Int.emod_emod]

theorem scMulh_computes : scMulh.Computes fun w x y =>
    (x.signExtend (2 * w) * y.signExtend (2 * w)).extractLsb' w w := by
  intro w x y
  have h : x.signExtend (2 * w) * y.signExtend (2 * w) = BitVec.ofInt (2 * w) (x.toInt * y.toInt) := (BitVec.ofInt_mul _ _).symm
  show _ = BitVec.extractLsb' w w (x.signExtend (2 * w) * y.signExtend (2 * w))
  rw [h, extractLsb'_ofInt_upper, scMulh]

theorem scMulhu_computes : scMulhu.Computes fun w x y =>
    (x.setWidth (2 * w) * y.setWidth (2 * w)).extractLsb' w w := by
  intro w x y
  have h : x.setWidth (2 * w) * y.setWidth (2 * w) = BitVec.ofInt (2 * w) (x.toNat * y.toNat) := by
    rw [BitVec.ofInt_mul, BitVec.ofInt_natCast, BitVec.ofInt_natCast, BitVec.ofNat_toNat, BitVec.ofNat_toNat]
  show _ = BitVec.extractLsb' w w (x.setWidth (2 * w) * y.setWidth (2 * w))
  rw [h, extractLsb'_ofInt_upper, scMulhu]
  push_cast
  rfl

/-! Quotients and remainders (R81). -/

theorem toNat_eq_zero_iff {w : Nat} (y : BitVec w) : y.toNat = 0 ↔ y = 0#w :=
  BitVec.toNat_inj (y := 0#w)

theorem scDiv_computes : scDiv.Computes fun w x y => if y = 0#w then BitVec.allOnes w else x.sdiv y := by
  intro w x y
  simp only [scDiv, toNat_eq_zero_iff]
  split
  · rw [← BitVec.neg_one_eq_allOnes, BitVec.ofInt_neg]
    rfl
  · exact BitVec.eq_of_toInt_eq (by rw [BitVec.toInt_ofInt, BitVec.toInt_sdiv])

theorem scDivu_computes : scDivu.Computes fun w x y => if y = 0#w then BitVec.allOnes w else x.udiv y := by
  intro w x y
  simp only [scDivu, toNat_eq_zero_iff]
  split
  · have h : ((2 ^ w - 1 : Nat) : Int) = 2 ^ w - 1 := by push_cast [Nat.one_le_two_pow]; rfl
    rw [← h, ofInt_natCast_eq BitVec.toNat_allOnes.symm]
  · exact ofInt_natCast_eq BitVec.toNat_udiv.symm

theorem scRem_computes : scRem.Computes fun w x y => if y = 0#w then x else x.srem y := by
  intro w x y
  simp only [scRem, toNat_eq_zero_iff]
  split
  · rw [BitVec.ofInt_toInt]
  · rw [← BitVec.toInt_srem, BitVec.ofInt_toInt]

theorem scRemu_computes : scRemu.Computes fun w x y => if y = 0#w then x else x.umod y := by
  intro w x y
  simp only [scRemu, toNat_eq_zero_iff]
  split
  · exact ofInt_natCast_eq rfl
  · exact ofInt_natCast_eq BitVec.toNat_umod.symm

/-! The statements. -/

/-- Settles O1: each operation of R80 and R82 computes its function of words, and each form completes with it. -/
theorem scalarLogic : Obligations.ScalarLogic :=
  ⟨⟨⟨scAdd_computes.onForms, scAdd_computes.onImm⟩,
    scSub_computes.onForms,
    ⟨scAnd_computes.onForms, scAnd_computes.onImm⟩,
    ⟨scOr_computes.onForms, scOr_computes.onImm⟩,
    ⟨scXor_computes.onForms, scXor_computes.onImm⟩,
    scAndn_computes.onForms,
    scOrn_computes.onForms⟩,
   ⟨scShl_computes.onForms, scShl_computes.onImm⟩,
   ⟨scShr_computes.onForms, scShr_computes.onImm⟩,
   ⟨scSra_computes.onForms, scSra_computes.onImm⟩,
   ⟨scRor_computes.onForms, scRor_computes.onImm⟩,
   scBfx_computes.onForms⟩

/-- Settles O2: each product and each quotient computes its function of words, division by zero included, and each form completes
with it. -/
theorem scalarProducts : Obligations.ScalarProducts :=
  ⟨⟨⟨scMul_computes.onForms, scMul_computes.onImm⟩,
    scMulh_computes.onForms,
    scMulhu_computes.onForms⟩,
   scDiv_computes.onForms,
   scDivu_computes.onForms,
   scRem_computes.onForms,
   scRemu_computes.onForms⟩

end Sys2Proof.Machine
end

section
/-! Decoding undoes encoding (03 R40 to R53): what each field of a word in each format reads as, the decoder on each major code, and the
decoder's answer on the words of every instruction. -/

namespace Sys2Proof

/-! Each format's fields (R42). A word of a format is a concatenation; a field of it is one of the parts, or lies within one. -/

section
variable (fn : BitVec 6) (x b a d : BitVec 5) (maj : BitVec 6)
theorem fld_fR (lo n : Nat) : fld (fR fn x b a d maj) lo n =
    BitVec.extractLsb' (n := 6 + 5 + 5 + 5 + 5 + 6) lo n (fn ++ x ++ b ++ a ++ d ++ maj) := rfl
@[simp] theorem fld_fR_fn : fld (fR fn x b a d maj) 26 6 = fn := by
  simp [-Nat.reduceAdd, fld_fR, BitVec.extractLsb'_append_eq_of_le, BitVec.extractLsb'_append_eq_of_add_le]
@[simp] theorem fld_fR_x : fld (fR fn x b a d maj) 21 5 = x := by
  simp [-Nat.reduceAdd, fld_fR, BitVec.extractLsb'_append_eq_of_le, BitVec.extractLsb'_append_eq_of_add_le]
@[simp] theorem fld_fR_x_4_3 : fld (fR fn x b a d maj) 24 2 = x.extractLsb' 3 2 := by
  simp [-Nat.reduceAdd, fld_fR, BitVec.extractLsb'_append_eq_of_le, BitVec.extractLsb'_append_eq_of_add_le]
@[simp] theorem fld_fR_x_2_0 : fld (fR fn x b a d maj) 21 3 = x.extractLsb' 0 3 := by
  simp [-Nat.reduceAdd, fld_fR, BitVec.extractLsb'_append_eq_of_le, BitVec.extractLsb'_append_eq_of_add_le]
@[simp] theorem fld_fR_b : fld (fR fn x b a d maj) 16 5 = b := by
  simp [-Nat.reduceAdd, fld_fR, BitVec.extractLsb'_append_eq_of_le, BitVec.extractLsb'_append_eq_of_add_le]
@[simp] theorem fld_fR_a : fld (fR fn x b a d maj) 11 5 = a := by
  simp [-Nat.reduceAdd, fld_fR, BitVec.extractLsb'_append_eq_of_le, BitVec.extractLsb'_append_eq_of_add_le]
@[simp] theorem fld_fR_a_4_2 : fld (fR fn x b a d maj) 13 3 = a.extractLsb' 2 3 := by
  simp [-Nat.reduceAdd, fld_fR, BitVec.extractLsb'_append_eq_of_le, BitVec.extractLsb'_append_eq_of_add_le]
@[simp] theorem fld_fR_a_1_0 : fld (fR fn x b a d maj) 11 2 = a.extractLsb' 0 2 := by
  simp [-Nat.reduceAdd, fld_fR, BitVec.extractLsb'_append_eq_of_le, BitVec.extractLsb'_append_eq_of_add_le]
@[simp] theorem fld_fR_d : fld (fR fn x b a d maj) 6 5 = d := by
  simp [-Nat.reduceAdd, fld_fR, BitVec.extractLsb'_append_eq_of_le, BitVec.extractLsb'_append_eq_of_add_le]
@[simp] theorem fld_fR_d_4_2 : fld (fR fn x b a d maj) 8 3 = d.extractLsb' 2 3 := by
  simp [-Nat.reduceAdd, fld_fR, BitVec.extractLsb'_append_eq_of_le, BitVec.extractLsb'_append_eq_of_add_le]
@[simp] theorem fld_fR_d_1_0 : fld (fR fn x b a d maj) 6 2 = d.extractLsb' 0 2 := by
  simp [-Nat.reduceAdd, fld_fR, BitVec.extractLsb'_append_eq_of_le, BitVec.extractLsb'_append_eq_of_add_le]
@[simp] theorem fld_fR_maj : fld (fR fn x b a d maj) 0 6 = maj := by
  simp [-Nat.reduceAdd, fld_fR, BitVec.extractLsb'_append_eq_of_le, BitVec.extractLsb'_append_eq_of_add_le]
end

section
variable (fn : BitVec 6) (c : BitVec 8) (x : BitVec 2) (a d : BitVec 5) (maj : BitVec 6)
theorem fld_fC (lo n : Nat) : fld (fC fn c x a d maj) lo n =
    BitVec.extractLsb' (n := 6 + 8 + 2 + 5 + 5 + 6) lo n (fn ++ c ++ x ++ a ++ d ++ maj) := rfl
@[simp] theorem fld_fC_fn : fld (fC fn c x a d maj) 26 6 = fn := by
  simp [-Nat.reduceAdd, fld_fC, BitVec.extractLsb'_append_eq_of_le, BitVec.extractLsb'_append_eq_of_add_le]
@[simp] theorem fld_fC_c : fld (fC fn c x a d maj) 18 8 = c := by
  simp [-Nat.reduceAdd, fld_fC, BitVec.extractLsb'_append_eq_of_le, BitVec.extractLsb'_append_eq_of_add_le]
@[simp] theorem fld_fC_x : fld (fC fn c x a d maj) 16 2 = x := by
  simp [-Nat.reduceAdd, fld_fC, BitVec.extractLsb'_append_eq_of_le, BitVec.extractLsb'_append_eq_of_add_le]
@[simp] theorem fld_fC_a : fld (fC fn c x a d maj) 11 5 = a := by
  simp [-Nat.reduceAdd, fld_fC, BitVec.extractLsb'_append_eq_of_le, BitVec.extractLsb'_append_eq_of_add_le]
@[simp] theorem fld_fC_d : fld (fC fn c x a d maj) 6 5 = d := by
  simp [-Nat.reduceAdd, fld_fC, BitVec.extractLsb'_append_eq_of_le, BitVec.extractLsb'_append_eq_of_add_le]
@[simp] theorem fld_fC_maj : fld (fC fn c x a d maj) 0 6 = maj := by
  simp [-Nat.reduceAdd, fld_fC, BitVec.extractLsb'_append_eq_of_le, BitVec.extractLsb'_append_eq_of_add_le]
end

section
variable (i : BitVec 12) (fn : BitVec 4) (a d : BitVec 5) (maj : BitVec 6)
theorem fld_fI (lo n : Nat) : fld (fI i fn a d maj) lo n =
    BitVec.extractLsb' (n := 12 + 4 + 5 + 5 + 6) lo n (i ++ fn ++ a ++ d ++ maj) := rfl
@[simp] theorem fld_fI_i : fld (fI i fn a d maj) 20 12 = i := by
  simp [-Nat.reduceAdd, fld_fI, BitVec.extractLsb'_append_eq_of_le, BitVec.extractLsb'_append_eq_of_add_le]
@[simp] theorem fld_fI_fn : fld (fI i fn a d maj) 16 4 = fn := by
  simp [-Nat.reduceAdd, fld_fI, BitVec.extractLsb'_append_eq_of_le, BitVec.extractLsb'_append_eq_of_add_le]
@[simp] theorem fld_fI_a : fld (fI i fn a d maj) 11 5 = a := by
  simp [-Nat.reduceAdd, fld_fI, BitVec.extractLsb'_append_eq_of_le, BitVec.extractLsb'_append_eq_of_add_le]
@[simp] theorem fld_fI_d : fld (fI i fn a d maj) 6 5 = d := by
  simp [-Nat.reduceAdd, fld_fI, BitVec.extractLsb'_append_eq_of_le, BitVec.extractLsb'_append_eq_of_add_le]
@[simp] theorem fld_fI_maj : fld (fI i fn a d maj) 0 6 = maj := by
  simp [-Nat.reduceAdd, fld_fI, BitVec.extractLsb'_append_eq_of_le, BitVec.extractLsb'_append_eq_of_add_le]
end

section
variable (i : BitVec 21) (d : BitVec 5) (maj : BitVec 6)
theorem fld_fJ (lo n : Nat) : fld (fJ i d maj) lo n =
    BitVec.extractLsb' (n := 21 + 5 + 6) lo n (i ++ d ++ maj) := rfl
@[simp] theorem fld_fJ_i : fld (fJ i d maj) 11 21 = i := by
  simp [-Nat.reduceAdd, fld_fJ, BitVec.extractLsb'_append_eq_of_le, BitVec.extractLsb'_append_eq_of_add_le]
@[simp] theorem fld_fJ_d : fld (fJ i d maj) 6 5 = d := by
  simp [-Nat.reduceAdd, fld_fJ, BitVec.extractLsb'_append_eq_of_le, BitVec.extractLsb'_append_eq_of_add_le]
@[simp] theorem fld_fJ_maj : fld (fJ i d maj) 0 6 = maj := by
  simp [-Nat.reduceAdd, fld_fJ, BitVec.extractLsb'_append_eq_of_le, BitVec.extractLsb'_append_eq_of_add_le]
end

section
variable (o : BitVec 13) (cnd : BitVec 3) (b a : BitVec 5) (maj : BitVec 6)
theorem fld_fB (lo n : Nat) : fld (fB o cnd b a maj) lo n =
    BitVec.extractLsb' (n := 13 + 3 + 5 + 5 + 6) lo n (o ++ cnd ++ b ++ a ++ maj) := rfl
@[simp] theorem fld_fB_o : fld (fB o cnd b a maj) 19 13 = o := by
  simp [-Nat.reduceAdd, fld_fB, BitVec.extractLsb'_append_eq_of_le, BitVec.extractLsb'_append_eq_of_add_le]
@[simp] theorem fld_fB_cnd : fld (fB o cnd b a maj) 16 3 = cnd := by
  simp [-Nat.reduceAdd, fld_fB, BitVec.extractLsb'_append_eq_of_le, BitVec.extractLsb'_append_eq_of_add_le]
@[simp] theorem fld_fB_b : fld (fB o cnd b a maj) 11 5 = b := by
  simp [-Nat.reduceAdd, fld_fB, BitVec.extractLsb'_append_eq_of_le, BitVec.extractLsb'_append_eq_of_add_le]
@[simp] theorem fld_fB_a : fld (fB o cnd b a maj) 6 5 = a := by
  simp [-Nat.reduceAdd, fld_fB, BitVec.extractLsb'_append_eq_of_le, BitVec.extractLsb'_append_eq_of_add_le]
@[simp] theorem fld_fB_maj : fld (fB o cnd b a maj) 0 6 = maj := by
  simp [-Nat.reduceAdd, fld_fB, BitVec.extractLsb'_append_eq_of_le, BitVec.extractLsb'_append_eq_of_add_le]
end

section
variable (o : BitVec 7) (ord : BitVec 2) (sc : BitVec 3) (dm : BitVec 1) (ty : BitVec 3) (a d : BitVec 5) (maj : BitVec 6)
theorem fld_fM (lo n : Nat) : fld (fM o ord sc dm ty a d maj) lo n =
    BitVec.extractLsb' (n := 7 + 2 + 3 + 1 + 3 + 5 + 5 + 6) lo n (o ++ ord ++ sc ++ dm ++ ty ++ a ++ d ++ maj) := rfl
@[simp] theorem fld_fM_o : fld (fM o ord sc dm ty a d maj) 25 7 = o := by
  simp [-Nat.reduceAdd, fld_fM, BitVec.extractLsb'_append_eq_of_le, BitVec.extractLsb'_append_eq_of_add_le]
@[simp] theorem fld_fM_ord : fld (fM o ord sc dm ty a d maj) 23 2 = ord := by
  simp [-Nat.reduceAdd, fld_fM, BitVec.extractLsb'_append_eq_of_le, BitVec.extractLsb'_append_eq_of_add_le]
@[simp] theorem fld_fM_sc : fld (fM o ord sc dm ty a d maj) 20 3 = sc := by
  simp [-Nat.reduceAdd, fld_fM, BitVec.extractLsb'_append_eq_of_le, BitVec.extractLsb'_append_eq_of_add_le]
@[simp] theorem fld_fM_dm : fld (fM o ord sc dm ty a d maj) 19 1 = dm := by
  simp [-Nat.reduceAdd, fld_fM, BitVec.extractLsb'_append_eq_of_le, BitVec.extractLsb'_append_eq_of_add_le]
@[simp] theorem fld_fM_ty : fld (fM o ord sc dm ty a d maj) 16 3 = ty := by
  simp [-Nat.reduceAdd, fld_fM, BitVec.extractLsb'_append_eq_of_le, BitVec.extractLsb'_append_eq_of_add_le]
@[simp] theorem fld_fM_a : fld (fM o ord sc dm ty a d maj) 11 5 = a := by
  simp [-Nat.reduceAdd, fld_fM, BitVec.extractLsb'_append_eq_of_le, BitVec.extractLsb'_append_eq_of_add_le]
@[simp] theorem fld_fM_d : fld (fM o ord sc dm ty a d maj) 6 5 = d := by
  simp [-Nat.reduceAdd, fld_fM, BitVec.extractLsb'_append_eq_of_le, BitVec.extractLsb'_append_eq_of_add_le]
@[simp] theorem fld_fM_maj : fld (fM o ord sc dm ty a d maj) 0 6 = maj := by
  simp [-Nat.reduceAdd, fld_fM, BitVec.extractLsb'_append_eq_of_le, BitVec.extractLsb'_append_eq_of_add_le]
end

section
variable (o : BitVec 12) (dm : BitVec 1) (fn : BitVec 3) (a d : BitVec 5) (maj : BitVec 6)
theorem fld_fT (lo n : Nat) : fld (fT o dm fn a d maj) lo n =
    BitVec.extractLsb' (n := 12 + 1 + 3 + 5 + 5 + 6) lo n (o ++ dm ++ fn ++ a ++ d ++ maj) := rfl
@[simp] theorem fld_fT_o : fld (fT o dm fn a d maj) 20 12 = o := by
  simp [-Nat.reduceAdd, fld_fT, BitVec.extractLsb'_append_eq_of_le, BitVec.extractLsb'_append_eq_of_add_le]
@[simp] theorem fld_fT_dm : fld (fT o dm fn a d maj) 19 1 = dm := by
  simp [-Nat.reduceAdd, fld_fT, BitVec.extractLsb'_append_eq_of_le, BitVec.extractLsb'_append_eq_of_add_le]
@[simp] theorem fld_fT_fn : fld (fT o dm fn a d maj) 16 3 = fn := by
  simp [-Nat.reduceAdd, fld_fT, BitVec.extractLsb'_append_eq_of_le, BitVec.extractLsb'_append_eq_of_add_le]
@[simp] theorem fld_fT_a : fld (fT o dm fn a d maj) 11 5 = a := by
  simp [-Nat.reduceAdd, fld_fT, BitVec.extractLsb'_append_eq_of_le, BitVec.extractLsb'_append_eq_of_add_le]
@[simp] theorem fld_fT_d : fld (fT o dm fn a d maj) 6 5 = d := by
  simp [-Nat.reduceAdd, fld_fT, BitVec.extractLsb'_append_eq_of_le, BitVec.extractLsb'_append_eq_of_add_le]
@[simp] theorem fld_fT_maj : fld (fT o dm fn a d maj) 0 6 = maj := by
  simp [-Nat.reduceAdd, fld_fT, BitVec.extractLsb'_append_eq_of_le, BitVec.extractLsb'_append_eq_of_add_le]
end

section
variable (k ty : BitVec 3) (fn b a d : BitVec 5) (maj : BitVec 6)
theorem fld_fV2 (lo n : Nat) : fld (fV2 k ty fn b a d maj) lo n =
    BitVec.extractLsb' (n := 3 + 3 + 5 + 5 + 5 + 5 + 6) lo n (k ++ ty ++ fn ++ b ++ a ++ d ++ maj) := rfl
@[simp] theorem fld_fV2_k : fld (fV2 k ty fn b a d maj) 29 3 = k := by
  simp [-Nat.reduceAdd, fld_fV2, BitVec.extractLsb'_append_eq_of_le, BitVec.extractLsb'_append_eq_of_add_le]
@[simp] theorem fld_fV2_ty : fld (fV2 k ty fn b a d maj) 26 3 = ty := by
  simp [-Nat.reduceAdd, fld_fV2, BitVec.extractLsb'_append_eq_of_le, BitVec.extractLsb'_append_eq_of_add_le]
@[simp] theorem fld_fV2_fn : fld (fV2 k ty fn b a d maj) 21 5 = fn := by
  simp [-Nat.reduceAdd, fld_fV2, BitVec.extractLsb'_append_eq_of_le, BitVec.extractLsb'_append_eq_of_add_le]
@[simp] theorem fld_fV2_b : fld (fV2 k ty fn b a d maj) 16 5 = b := by
  simp [-Nat.reduceAdd, fld_fV2, BitVec.extractLsb'_append_eq_of_le, BitVec.extractLsb'_append_eq_of_add_le]
@[simp] theorem fld_fV2_b_4_3 : fld (fV2 k ty fn b a d maj) 19 2 = b.extractLsb' 3 2 := by
  simp [-Nat.reduceAdd, fld_fV2, BitVec.extractLsb'_append_eq_of_le, BitVec.extractLsb'_append_eq_of_add_le]
@[simp] theorem fld_fV2_b_2_0 : fld (fV2 k ty fn b a d maj) 16 3 = b.extractLsb' 0 3 := by
  simp [-Nat.reduceAdd, fld_fV2, BitVec.extractLsb'_append_eq_of_le, BitVec.extractLsb'_append_eq_of_add_le]
@[simp] theorem fld_fV2_a : fld (fV2 k ty fn b a d maj) 11 5 = a := by
  simp [-Nat.reduceAdd, fld_fV2, BitVec.extractLsb'_append_eq_of_le, BitVec.extractLsb'_append_eq_of_add_le]
@[simp] theorem fld_fV2_d : fld (fV2 k ty fn b a d maj) 6 5 = d := by
  simp [-Nat.reduceAdd, fld_fV2, BitVec.extractLsb'_append_eq_of_le, BitVec.extractLsb'_append_eq_of_add_le]
@[simp] theorem fld_fV2_d_4_3 : fld (fV2 k ty fn b a d maj) 9 2 = d.extractLsb' 3 2 := by
  simp [-Nat.reduceAdd, fld_fV2, BitVec.extractLsb'_append_eq_of_le, BitVec.extractLsb'_append_eq_of_add_le]
@[simp] theorem fld_fV2_d_2_0 : fld (fV2 k ty fn b a d maj) 6 3 = d.extractLsb' 0 3 := by
  simp [-Nat.reduceAdd, fld_fV2, BitVec.extractLsb'_append_eq_of_le, BitVec.extractLsb'_append_eq_of_add_le]
@[simp] theorem fld_fV2_maj : fld (fV2 k ty fn b a d maj) 0 6 = maj := by
  simp [-Nat.reduceAdd, fld_fV2, BitVec.extractLsb'_append_eq_of_le, BitVec.extractLsb'_append_eq_of_add_le]
end

section
variable (k : BitVec 3) (c b a d : BitVec 5) (fn : BitVec 3) (maj : BitVec 6)
theorem fld_fV3 (lo n : Nat) : fld (fV3 k c b a d fn maj) lo n =
    BitVec.extractLsb' (n := 3 + 5 + 5 + 5 + 5 + 3 + 6) lo n (k ++ c ++ b ++ a ++ d ++ fn ++ maj) := rfl
@[simp] theorem fld_fV3_k : fld (fV3 k c b a d fn maj) 29 3 = k := by
  simp [-Nat.reduceAdd, fld_fV3, BitVec.extractLsb'_append_eq_of_le, BitVec.extractLsb'_append_eq_of_add_le]
@[simp] theorem fld_fV3_c : fld (fV3 k c b a d fn maj) 24 5 = c := by
  simp [-Nat.reduceAdd, fld_fV3, BitVec.extractLsb'_append_eq_of_le, BitVec.extractLsb'_append_eq_of_add_le]
@[simp] theorem fld_fV3_b : fld (fV3 k c b a d fn maj) 19 5 = b := by
  simp [-Nat.reduceAdd, fld_fV3, BitVec.extractLsb'_append_eq_of_le, BitVec.extractLsb'_append_eq_of_add_le]
@[simp] theorem fld_fV3_a : fld (fV3 k c b a d fn maj) 14 5 = a := by
  simp [-Nat.reduceAdd, fld_fV3, BitVec.extractLsb'_append_eq_of_le, BitVec.extractLsb'_append_eq_of_add_le]
@[simp] theorem fld_fV3_d : fld (fV3 k c b a d fn maj) 9 5 = d := by
  simp [-Nat.reduceAdd, fld_fV3, BitVec.extractLsb'_append_eq_of_le, BitVec.extractLsb'_append_eq_of_add_le]
@[simp] theorem fld_fV3_fn : fld (fV3 k c b a d fn maj) 6 3 = fn := by
  simp [-Nat.reduceAdd, fld_fV3, BitVec.extractLsb'_append_eq_of_le, BitVec.extractLsb'_append_eq_of_add_le]
@[simp] theorem fld_fV3_maj : fld (fV3 k c b a d fn maj) 0 6 = maj := by
  simp [-Nat.reduceAdd, fld_fV3, BitVec.extractLsb'_append_eq_of_le, BitVec.extractLsb'_append_eq_of_add_le]
end

section
variable (k : BitVec 3) (fn : BitVec 5) (c : BitVec 8) (a d : BitVec 5) (maj : BitVec 6)
theorem fld_fVC (lo n : Nat) : fld (fVC k fn c a d maj) lo n =
    BitVec.extractLsb' (n := 3 + 5 + 8 + 5 + 5 + 6) lo n (k ++ fn ++ c ++ a ++ d ++ maj) := rfl
@[simp] theorem fld_fVC_k : fld (fVC k fn c a d maj) 29 3 = k := by
  simp [-Nat.reduceAdd, fld_fVC, BitVec.extractLsb'_append_eq_of_le, BitVec.extractLsb'_append_eq_of_add_le]
@[simp] theorem fld_fVC_fn : fld (fVC k fn c a d maj) 24 5 = fn := by
  simp [-Nat.reduceAdd, fld_fVC, BitVec.extractLsb'_append_eq_of_le, BitVec.extractLsb'_append_eq_of_add_le]
@[simp] theorem fld_fVC_c : fld (fVC k fn c a d maj) 16 8 = c := by
  simp [-Nat.reduceAdd, fld_fVC, BitVec.extractLsb'_append_eq_of_le, BitVec.extractLsb'_append_eq_of_add_le]
@[simp] theorem fld_fVC_a : fld (fVC k fn c a d maj) 11 5 = a := by
  simp [-Nat.reduceAdd, fld_fVC, BitVec.extractLsb'_append_eq_of_le, BitVec.extractLsb'_append_eq_of_add_le]
@[simp] theorem fld_fVC_d : fld (fVC k fn c a d maj) 6 5 = d := by
  simp [-Nat.reduceAdd, fld_fVC, BitVec.extractLsb'_append_eq_of_le, BitVec.extractLsb'_append_eq_of_add_le]
@[simp] theorem fld_fVC_d_4_3 : fld (fVC k fn c a d maj) 9 2 = d.extractLsb' 3 2 := by
  simp [-Nat.reduceAdd, fld_fVC, BitVec.extractLsb'_append_eq_of_le, BitVec.extractLsb'_append_eq_of_add_le]
@[simp] theorem fld_fVC_d_2_0 : fld (fVC k fn c a d maj) 6 3 = d.extractLsb' 0 3 := by
  simp [-Nat.reduceAdd, fld_fVC, BitVec.extractLsb'_append_eq_of_le, BitVec.extractLsb'_append_eq_of_add_le]
@[simp] theorem fld_fVC_maj : fld (fVC k fn c a d maj) 0 6 = maj := by
  simp [-Nat.reduceAdd, fld_fVC, BitVec.extractLsb'_append_eq_of_le, BitVec.extractLsb'_append_eq_of_add_le]
end

section
variable (k ty : BitVec 3) (ln : BitVec 6) (fn : BitVec 4) (q : BitVec 3) (v : BitVec 5)
theorem fld_fVQ (lo n : Nat) : fld (fVQ k ty ln fn q v) lo n =
    BitVec.extractLsb' (n := 3 + 3 + 6 + 4 + 2 + 3 + 5 + 6) lo n (k ++ ty ++ ln ++ fn ++ 0#2 ++ q ++ v ++ 0x25#6) := rfl
@[simp] theorem fld_fVQ_k : fld (fVQ k ty ln fn q v) 29 3 = k := by
  simp [-Nat.reduceAdd, fld_fVQ, BitVec.extractLsb'_append_eq_of_le, BitVec.extractLsb'_append_eq_of_add_le]
@[simp] theorem fld_fVQ_ty : fld (fVQ k ty ln fn q v) 26 3 = ty := by
  simp [-Nat.reduceAdd, fld_fVQ, BitVec.extractLsb'_append_eq_of_le, BitVec.extractLsb'_append_eq_of_add_le]
@[simp] theorem fld_fVQ_ln : fld (fVQ k ty ln fn q v) 20 6 = ln := by
  simp [-Nat.reduceAdd, fld_fVQ, BitVec.extractLsb'_append_eq_of_le, BitVec.extractLsb'_append_eq_of_add_le]
@[simp] theorem fld_fVQ_fn : fld (fVQ k ty ln fn q v) 16 4 = fn := by
  simp [-Nat.reduceAdd, fld_fVQ, BitVec.extractLsb'_append_eq_of_le, BitVec.extractLsb'_append_eq_of_add_le]
@[simp] theorem fld_fVQ_zero : fld (fVQ k ty ln fn q v) 14 2 = 0#2 := by
  simp [-Nat.reduceAdd, fld_fVQ, BitVec.extractLsb'_append_eq_of_le, BitVec.extractLsb'_append_eq_of_add_le]
@[simp] theorem fld_fVQ_q : fld (fVQ k ty ln fn q v) 11 3 = q := by
  simp [-Nat.reduceAdd, fld_fVQ, BitVec.extractLsb'_append_eq_of_le, BitVec.extractLsb'_append_eq_of_add_le]
@[simp] theorem fld_fVQ_q_2_2 : fld (fVQ k ty ln fn q v) 13 1 = q.extractLsb' 2 1 := by
  simp [-Nat.reduceAdd, fld_fVQ, BitVec.extractLsb'_append_eq_of_le, BitVec.extractLsb'_append_eq_of_add_le]
@[simp] theorem fld_fVQ_q_1_0 : fld (fVQ k ty ln fn q v) 11 2 = q.extractLsb' 0 2 := by
  simp [-Nat.reduceAdd, fld_fVQ, BitVec.extractLsb'_append_eq_of_le, BitVec.extractLsb'_append_eq_of_add_le]
@[simp] theorem fld_fVQ_v : fld (fVQ k ty ln fn q v) 6 5 = v := by
  simp [-Nat.reduceAdd, fld_fVQ, BitVec.extractLsb'_append_eq_of_le, BitVec.extractLsb'_append_eq_of_add_le]
@[simp] theorem fld_fVQ_v_4_3 : fld (fVQ k ty ln fn q v) 9 2 = v.extractLsb' 3 2 := by
  simp [-Nat.reduceAdd, fld_fVQ, BitVec.extractLsb'_append_eq_of_le, BitVec.extractLsb'_append_eq_of_add_le]
@[simp] theorem fld_fVQ_v_2_0 : fld (fVQ k ty ln fn q v) 6 3 = v.extractLsb' 0 3 := by
  simp [-Nat.reduceAdd, fld_fVQ, BitVec.extractLsb'_append_eq_of_le, BitVec.extractLsb'_append_eq_of_add_le]
@[simp] theorem fld_fVQ_maj : fld (fVQ k ty ln fn q v) 0 6 = 0x25#6 := by
  simp [-Nat.reduceAdd, fld_fVQ, BitVec.extractLsb'_append_eq_of_le, BitVec.extractLsb'_append_eq_of_add_le]
end

section
variable (k ty : BitVec 3) (p : BitVec 1) (q : BitVec 2) (o : BitVec 12) (d : BitVec 5) (maj : BitVec 6)
theorem fld_fVM (lo n : Nat) : fld (fVM k ty p q o d maj) lo n =
    BitVec.extractLsb' (n := 3 + 3 + 1 + 2 + 12 + 5 + 6) lo n (k ++ ty ++ p ++ q ++ o ++ d ++ maj) := rfl
@[simp] theorem fld_fVM_k : fld (fVM k ty p q o d maj) 29 3 = k := by
  simp [-Nat.reduceAdd, fld_fVM, BitVec.extractLsb'_append_eq_of_le, BitVec.extractLsb'_append_eq_of_add_le]
@[simp] theorem fld_fVM_ty : fld (fVM k ty p q o d maj) 26 3 = ty := by
  simp [-Nat.reduceAdd, fld_fVM, BitVec.extractLsb'_append_eq_of_le, BitVec.extractLsb'_append_eq_of_add_le]
@[simp] theorem fld_fVM_p : fld (fVM k ty p q o d maj) 25 1 = p := by
  simp [-Nat.reduceAdd, fld_fVM, BitVec.extractLsb'_append_eq_of_le, BitVec.extractLsb'_append_eq_of_add_le]
@[simp] theorem fld_fVM_q : fld (fVM k ty p q o d maj) 23 2 = q := by
  simp [-Nat.reduceAdd, fld_fVM, BitVec.extractLsb'_append_eq_of_le, BitVec.extractLsb'_append_eq_of_add_le]
@[simp] theorem fld_fVM_o : fld (fVM k ty p q o d maj) 11 12 = o := by
  simp [-Nat.reduceAdd, fld_fVM, BitVec.extractLsb'_append_eq_of_le, BitVec.extractLsb'_append_eq_of_add_le]
@[simp] theorem fld_fVM_d : fld (fVM k ty p q o d maj) 6 5 = d := by
  simp [-Nat.reduceAdd, fld_fVM, BitVec.extractLsb'_append_eq_of_le, BitVec.extractLsb'_append_eq_of_add_le]
@[simp] theorem fld_fVM_maj : fld (fVM k ty p q o d maj) 0 6 = maj := by
  simp [-Nat.reduceAdd, fld_fVM, BitVec.extractLsb'_append_eq_of_le, BitVec.extractLsb'_append_eq_of_add_le]
end

section
variable (k ty : BitVec 3) (p : BitVec 1) (q : BitVec 2) (i d : BitVec 5) (maj : BitVec 6)
theorem fld_fVX (lo n : Nat) : fld (fVX k ty p q i d maj) lo n =
    BitVec.extractLsb' (n := 3 + 3 + 1 + 2 + 7 + 5 + 5 + 6) lo n (k ++ ty ++ p ++ q ++ 0#7 ++ i ++ d ++ maj) := rfl
@[simp] theorem fld_fVX_k : fld (fVX k ty p q i d maj) 29 3 = k := by
  simp [-Nat.reduceAdd, fld_fVX, BitVec.extractLsb'_append_eq_of_le, BitVec.extractLsb'_append_eq_of_add_le]
@[simp] theorem fld_fVX_ty : fld (fVX k ty p q i d maj) 26 3 = ty := by
  simp [-Nat.reduceAdd, fld_fVX, BitVec.extractLsb'_append_eq_of_le, BitVec.extractLsb'_append_eq_of_add_le]
@[simp] theorem fld_fVX_p : fld (fVX k ty p q i d maj) 25 1 = p := by
  simp [-Nat.reduceAdd, fld_fVX, BitVec.extractLsb'_append_eq_of_le, BitVec.extractLsb'_append_eq_of_add_le]
@[simp] theorem fld_fVX_q : fld (fVX k ty p q i d maj) 23 2 = q := by
  simp [-Nat.reduceAdd, fld_fVX, BitVec.extractLsb'_append_eq_of_le, BitVec.extractLsb'_append_eq_of_add_le]
@[simp] theorem fld_fVX_zero : fld (fVX k ty p q i d maj) 16 7 = 0#7 := by
  simp [-Nat.reduceAdd, fld_fVX, BitVec.extractLsb'_append_eq_of_le, BitVec.extractLsb'_append_eq_of_add_le]
@[simp] theorem fld_fVX_i : fld (fVX k ty p q i d maj) 11 5 = i := by
  simp [-Nat.reduceAdd, fld_fVX, BitVec.extractLsb'_append_eq_of_le, BitVec.extractLsb'_append_eq_of_add_le]
@[simp] theorem fld_fVX_d : fld (fVX k ty p q i d maj) 6 5 = d := by
  simp [-Nat.reduceAdd, fld_fVX, BitVec.extractLsb'_append_eq_of_le, BitVec.extractLsb'_append_eq_of_add_le]
@[simp] theorem fld_fVX_maj : fld (fVX k ty p q i d maj) 0 6 = maj := by
  simp [-Nat.reduceAdd, fld_fVX, BitVec.extractLsb'_append_eq_of_le, BitVec.extractLsb'_append_eq_of_add_le]
end

section
variable (fn : BitVec 4) (c : BitVec 8) (s : BitVec 4) (w : BitVec 1) (md : BitVec 3) (t : BitVec 4)
theorem fld_fMX (lo n : Nat) : fld (fMX fn c s w md t) lo n =
    BitVec.extractLsb' (n := 4 + 8 + 4 + 1 + 3 + 2 + 4 + 6) lo n (fn ++ c ++ s ++ w ++ md ++ 0#2 ++ t ++ 0x2D#6) := rfl
@[simp] theorem fld_fMX_fn : fld (fMX fn c s w md t) 28 4 = fn := by
  simp [-Nat.reduceAdd, fld_fMX, BitVec.extractLsb'_append_eq_of_le, BitVec.extractLsb'_append_eq_of_add_le]
@[simp] theorem fld_fMX_c : fld (fMX fn c s w md t) 20 8 = c := by
  simp [-Nat.reduceAdd, fld_fMX, BitVec.extractLsb'_append_eq_of_le, BitVec.extractLsb'_append_eq_of_add_le]
@[simp] theorem fld_fMX_s : fld (fMX fn c s w md t) 16 4 = s := by
  simp [-Nat.reduceAdd, fld_fMX, BitVec.extractLsb'_append_eq_of_le, BitVec.extractLsb'_append_eq_of_add_le]
@[simp] theorem fld_fMX_w : fld (fMX fn c s w md t) 15 1 = w := by
  simp [-Nat.reduceAdd, fld_fMX, BitVec.extractLsb'_append_eq_of_le, BitVec.extractLsb'_append_eq_of_add_le]
@[simp] theorem fld_fMX_md : fld (fMX fn c s w md t) 12 3 = md := by
  simp [-Nat.reduceAdd, fld_fMX, BitVec.extractLsb'_append_eq_of_le, BitVec.extractLsb'_append_eq_of_add_le]
@[simp] theorem fld_fMX_md_2_2 : fld (fMX fn c s w md t) 14 1 = md.extractLsb' 2 1 := by
  simp [-Nat.reduceAdd, fld_fMX, BitVec.extractLsb'_append_eq_of_le, BitVec.extractLsb'_append_eq_of_add_le]
@[simp] theorem fld_fMX_md_1_1 : fld (fMX fn c s w md t) 13 1 = md.extractLsb' 1 1 := by
  simp [-Nat.reduceAdd, fld_fMX, BitVec.extractLsb'_append_eq_of_le, BitVec.extractLsb'_append_eq_of_add_le]
@[simp] theorem fld_fMX_md_0_0 : fld (fMX fn c s w md t) 12 1 = md.extractLsb' 0 1 := by
  simp [-Nat.reduceAdd, fld_fMX, BitVec.extractLsb'_append_eq_of_le, BitVec.extractLsb'_append_eq_of_add_le]
@[simp] theorem fld_fMX_zero : fld (fMX fn c s w md t) 10 2 = 0#2 := by
  simp [-Nat.reduceAdd, fld_fMX, BitVec.extractLsb'_append_eq_of_le, BitVec.extractLsb'_append_eq_of_add_le]
@[simp] theorem fld_fMX_t : fld (fMX fn c s w md t) 6 4 = t := by
  simp [-Nat.reduceAdd, fld_fMX, BitVec.extractLsb'_append_eq_of_le, BitVec.extractLsb'_append_eq_of_add_le]
@[simp] theorem fld_fMX_maj : fld (fMX fn c s w md t) 0 6 = 0x2D#6 := by
  simp [-Nat.reduceAdd, fld_fMX, BitVec.extractLsb'_append_eq_of_le, BitVec.extractLsb'_append_eq_of_add_le]
end

section
variable (k : BitVec 6) (g : BitVec 20)
theorem fld_fH (lo n : Nat) : fld (fH k g) lo n =
    BitVec.extractLsb' (n := 6 + 20 + 6) lo n (k ++ g ++ 0x3E#6) := rfl
@[simp] theorem fld_fH_k : fld (fH k g) 26 6 = k := by
  simp [-Nat.reduceAdd, fld_fH, BitVec.extractLsb'_append_eq_of_le, BitVec.extractLsb'_append_eq_of_add_le]
@[simp] theorem fld_fH_g : fld (fH k g) 6 20 = g := by
  simp [-Nat.reduceAdd, fld_fH, BitVec.extractLsb'_append_eq_of_le, BitVec.extractLsb'_append_eq_of_add_le]
@[simp] theorem fld_fH_maj : fld (fH k g) 0 6 = 0x3E#6 := by
  simp [-Nat.reduceAdd, fld_fH, BitVec.extractLsb'_append_eq_of_le, BitVec.extractLsb'_append_eq_of_add_le]
end

section
variable (p : BitVec 26)
theorem fld_fP (lo n : Nat) : fld (fP p) lo n =
    BitVec.extractLsb' (n := 26 + 6) lo n (p ++ 0x3F#6) := rfl
@[simp] theorem fld_fP_p : fld (fP p) 6 26 = p := by
  simp [-Nat.reduceAdd, fld_fP, BitVec.extractLsb'_append_eq_of_le, BitVec.extractLsb'_append_eq_of_add_le]
@[simp] theorem fld_fP_maj : fld (fP p) 0 6 = 0x3F#6 := by
  simp [-Nat.reduceAdd, fld_fP, BitVec.extractLsb'_append_eq_of_le, BitVec.extractLsb'_append_eq_of_add_le]
end


/-- The bits from 0 on that reach over a zero field are zero when those above it are. -/
theorem extractLsb'_append_zero_eq_zero {n m k : Nat} (x : BitVec n) (h : m ≤ k) :
    (x ++ 0#m).extractLsb' 0 k = 0#k ↔ x.extractLsb' 0 (k - m) = 0#(k - m) := by
  constructor
  · intro e
    ext i hi
    have := congrArg (fun v => v.getLsbD (m + i)) e
    simpa [BitVec.getLsbD_append, show m + i < k by omega] using this
  · intro e
    ext i hi
    by_cases hm : i < m
    · simp [BitVec.getLsbD_append, hm]
    · have := congrArg (fun v => v.getLsbD (i - m)) e
      simpa [BitVec.getLsbD_append, hm, show i - m < k - m by omega] using this

/-! The coded fields read back (R43). -/

@[simp] theorem STy.ofXf_xf (t : STy) : STy.ofXf t.xf = some t := by cases t <;> rfl
@[simp] theorem STy.ofXf2_xf2 (t : STy) : STy.ofXf2 t.xf2 = some t := by cases t <;> rfl
@[simp] theorem STy.ofXf3_xf3 (t : STy) : STy.ofXf3 t.xf3 = some t := by cases t <;> rfl
@[simp] theorem MTy.ofCode_code (t : MTy) : MTy.ofCode t.code = t := by cases t <;> rfl
@[simp] theorem StTy.ofCode_code3 (t : StTy) : StTy.ofCode t.code3 = some t := by cases t <;> rfl
@[simp] theorem ATy.ofCode_code (t : ATy) : ATy.ofCode t.code = some t := by cases t <;> rfl
@[simp] theorem VTy.ofCode_code (t : VTy) : VTy.ofCode t.code = some t := by cases t <;> rfl
@[simp] theorem FTy.ofCode_code (t : FTy) : FTy.ofCode t.code = some t := by cases t <;> rfl
@[simp] theorem BTy.ofCode_code (t : BTy) : BTy.ofCode t.code = some t := by cases t <;> rfl
@[simp] theorem MTyp.ofCode_code (t : MTyp) : MTyp.ofCode t.code = t := by cases t <;> rfl
@[simp] theorem RTyp.ofCode_code (t : RTyp) : RTyp.ofCode t.code = some t := by cases t <;> rfl
@[simp] theorem LdOrd.ofCode_code (t : LdOrd) : LdOrd.ofCode t.code = some t := by cases t <;> rfl
@[simp] theorem StOrd.ofCode_code (t : StOrd) : StOrd.ofCode t.code = some t := by cases t <;> rfl
@[simp] theorem FenceOrd.ofCode_code (t : FenceOrd) : FenceOrd.ofCode t.code = some t := by cases t <;> rfl
@[simp] theorem Scope.ofCode_code (t : Scope) : Scope.ofCode t.code = some t := by cases t <;> rfl
@[simp] theorem Dm.ofCode_code (t : Dm) : Dm.ofCode t.code = t := by cases t <;> rfl
@[simp] theorem Dm.ofCode2_code2 (t : Dm) : Dm.ofCode2 t.code2 = some t := by cases t <;> rfl
@[simp] theorem Cw.ofCode_code (t : Cw) : Cw.ofCode t.code = some t := by cases t <;> rfl

@[simp] theorem DmR.ofCode_code {x : DmR} (h : x.ok = true) : DmR.ofCode x.code x.rb = some x := by
  cases x with
  | inh => rfl
  | imm => rfl
  | reg b =>
    have hb : b ≠ 0#5 := by simpa [DmR.ok] using h
    simp [DmR.ofCode, DmR.code, DmR.rb, hb]

@[simp] theorem MTyp.code_eq_zero (t : MTyp) : t.code = 0#1 ↔ t = .i10 := by cases t <;> decide
@[simp] theorem ofBool_eq_one (b : Bool) : BitVec.ofBool b = 1#1 ↔ b = true := by cases b <;> decide
@[simp] theorem ofBool_beq_one (b : Bool) : (BitVec.ofBool b == 1#1) = b := by cases b <;> rfl

/-! The decoder on each major code (R50, R51). -/

section
variable {x : Pfx} {w : BitVec 32}


theorem decodeWord_01 (h : fld w 0 6 = 0x01#6) : decodeWord .none w = dec01 w := by simp [decodeWord, h]
theorem decodeWord_02 (h : fld w 0 6 = 0x02#6) : decodeWord .none w = dec02 w := by simp [decodeWord, h]
theorem decodeWord_03 (h : fld w 0 6 = 0x03#6) : decodeWord x w = dec03 x w := by simp [decodeWord, h]
theorem decodeWord_04 (hx : x.atMostOne = true) (h : fld w 0 6 = 0x04#6) : decodeWord x w = some (.li x (fld w 11 21) (rd w)) := by
  simp [decodeWord, h, hx]
theorem decodeWord_05 (hx : x.atMostOne = true) (h : fld w 0 6 = 0x05#6) : decodeWord x w = dec05 x w := by simp [decodeWord, h, hx]
theorem decodeWord_06 (hx : x.atMostOne = true) (h : fld w 0 6 = 0x06#6) : decodeWord x w = dec06 x w := by simp [decodeWord, h, hx]
theorem decodeWord_07 (h : fld w 0 6 = 0x07#6) : decodeWord .none w = dec07 w := by simp [decodeWord, h]
theorem decodeWord_08 (hx : x.atMostOne = true) (h : fld w 0 6 = 0x08#6) : decodeWord x w = dec08 x w := by simp [decodeWord, h, hx]
theorem decodeWord_09 (hx : x.atMostOne = true) (h : fld w 0 6 = 0x09#6) : decodeWord x w = dec09 x w := by simp [decodeWord, h, hx]
theorem decodeWord_0A (hx : x.atMostOne = true) (h : fld w 0 6 = 0x0A#6) : decodeWord x w = dec0A x w := by simp [decodeWord, h, hx]
theorem decodeWord_0B (h : fld w 0 6 = 0x0B#6) : decodeWord .none w = dec0B w := by simp [decodeWord, h]
theorem decodeWord_0C (h : fld w 0 6 = 0x0C#6) : decodeWord .none w = dec0C w := by simp [decodeWord, h]
theorem decodeWord_0D (h : fld w 0 6 = 0x0D#6) : decodeWord .none w = dec0D w := by simp [decodeWord, h]
theorem decodeWord_0E (h : fld w 0 6 = 0x0E#6) : decodeWord .none w = dec0E w := by simp [decodeWord, h]
theorem decodeWord_0F (h : fld w 0 6 = 0x0F#6) : decodeWord .none w = dec0F w := by simp [decodeWord, h]
theorem decodeWord_10 (h : fld w 0 6 = 0x10#6) : decodeWord .none w = dec10 w := by simp [decodeWord, h]
theorem decodeWord_11 (h : fld w 0 6 = 0x11#6) : decodeWord .none w = dec11 w := by simp [decodeWord, h]
theorem decodeWord_12 (h : fld w 0 6 = 0x12#6) : decodeWord .none w = dec12 w := by simp [decodeWord, h]
theorem decodeWord_20 (h : fld w 0 6 = 0x20#6) : decodeWord .none w = dec20 w := by simp [decodeWord, h]
theorem decodeWord_21 (h : fld w 0 6 = 0x21#6) : decodeWord .none w = dec21 w := by simp [decodeWord, h]
theorem decodeWord_22 (h : fld w 0 6 = 0x22#6) : decodeWord .none w = dec22 w := by simp [decodeWord, h]
theorem decodeWord_23 (h : fld w 0 6 = 0x23#6) : decodeWord .none w = dec23 w := by simp [decodeWord, h]
theorem decodeWord_24 (h : fld w 0 6 = 0x24#6) : decodeWord .none w = dec24 w := by simp [decodeWord, h]
theorem decodeWord_25 (h : fld w 0 6 = 0x25#6) : decodeWord .none w = dec25 w := by simp [decodeWord, h]
theorem decodeWord_26 (h : fld w 0 6 = 0x26#6) : decodeWord .none w = dec26 w := by simp [decodeWord, h]
theorem decodeWord_27 (h : fld w 0 6 = 0x27#6) : decodeWord .none w = dec27 w := by simp [decodeWord, h]
theorem decodeWord_28 (h : fld w 0 6 = 0x28#6) : decodeWord .none w = dec28 w := by simp [decodeWord, h]
theorem decodeWord_29 (h : fld w 0 6 = 0x29#6) : decodeWord .none w = dec29 w := by simp [decodeWord, h]
theorem decodeWord_2A (h : fld w 0 6 = 0x2A#6) : decodeWord .none w = dec2A w := by simp [decodeWord, h]
theorem decodeWord_2B (h : fld w 0 6 = 0x2B#6) : decodeWord .none w = dec2B w := by simp [decodeWord, h]
theorem decodeWord_2C (h : fld w 0 6 = 0x2C#6) : decodeWord .none w = dec2C w := by simp [decodeWord, h]
theorem decodeWord_2D (h : fld w 0 6 = 0x2D#6) : decodeWord .none w = dec2D w := by simp [decodeWord, h]
theorem decodeWord_3E (h : fld w 0 6 = 0x3E#6) : decodeWord .none w = dec3E w := by simp [decodeWord, h]

end

/-! An instruction's words. -/

/-- An instruction is its long-immediate words and one word, which the decoder reads as it. -/
def Encodes (i : Instr) : Prop :=
  ∃ x w, encode i = x.words ++ [w] ∧ isPfx w = false ∧ decodeWord x w = some i

theorem decode_words (x : Pfx) (w : BitVec 32) (ws : List (BitVec 32)) (h : isPfx w = false) :
    decode (x.words ++ [w] ++ ws) = decodeLast x w := by
  have hp (p : BitVec 26) : isPfx (fP p) = true ∧ fld (fP p) 6 26 = p := by simp [isPfx]
  cases x with
  | none => simp [Pfx.words, decode, h]
  | one p => simp [Pfx.words, decode, h, hp]
  | two p q => simp [Pfx.words, decode, hp]

theorem length_words (x : Pfx) : x.words.length = x.count := by cases x <;> rfl

theorem Encodes.decode_encode {i : Instr} (h : Encodes i) (ws : List (BitVec 32)) :
    decode (encode i ++ ws) = .ok i (encode i).length := by
  obtain ⟨x, w, e, hp, hd⟩ := h
  rw [e, decode_words x w ws hp, decodeLast, hd, List.length_append, length_words]
  rfl

/-- The decoder of a major code reads the word back. -/
theorem encodes_of_maj {i : Instr} {x : Pfx} {w : BitVec 32} {m : BitVec 6} {o : Option Instr} (e : encode i = x.words ++ [w])
    (dec : fld w 0 6 = m → decodeWord x w = o) (hm : fld w 0 6 = m) (hd : o = some i) (hp : m ≠ 0x3F#6 := by decide) : Encodes i :=
  ⟨x, w, e, by simp [isPfx, hm, hp], (dec hm).trans hd⟩

/-- Every well-formed instruction that has words, by the families of the major codes. -/
theorem encodes_of_wf (i : Instr) (hw : i.wf = true) (he : encode i ≠ []) : Encodes i := by
  cases i
  case add | sub | and | or | xor | andn | orn | shl | shr | sra | ror | mul | mulh | mulhu | div | divu | rem | remu | min | max | minu |
      maxu | ceq | cne | clt | cltu | cle | cleu | abs | clz | ctz | popc | bfx =>
    exact encodes_of_maj (x := .none) rfl decodeWord_01 (fld_fR_maj ..) (by simp [-Nat.reduceAdd, dec01, fn6, xf, rb, ra, rd])
  case addConst | subConst | andConst | orConst | xorConst | andnConst | ornConst | shlConst | shrConst | sraConst | rorConst | mulConst |
      mulhConst | mulhuConst | divConst | divuConst | remConst | remuConst | minConst | maxConst | minuConst | maxuConst | ceqConst |
      cneConst | cltConst | cltuConst | cleConst | cleuConst | bfxConst =>
    exact encodes_of_maj (x := .none) rfl decodeWord_02 (fld_fC_maj ..) (by simp [-Nat.reduceAdd, dec02, fn6, ra, rd])
  case addImm | andImm | orImm | xorImm | shlImm | shrImm | sraImm | rorImm | mulImm | minImm | maxImm | ceqImm | cneImm | cltImm | cleImm
      | cltuImm =>
    exact encodes_of_maj rfl decodeWord_03 (fld_fI_maj ..) (by simp [-Nat.reduceAdd, dec03, ra, rd])
  case li =>
    exact encodes_of_maj rfl (decodeWord_04 hw) (fld_fJ_maj ..) (by simp [-Nat.reduceAdd, rd])
  case beq | bne | blt | bge | bltu | bgeu | loop =>
    exact encodes_of_maj rfl (decodeWord_05 hw) (fld_fB_maj ..) (by simp [-Nat.reduceAdd, dec05, ra, rd])
  case j =>
    exact encodes_of_maj rfl (decodeWord_06 hw) (fld_fJ_maj ..) (by simp [-Nat.reduceAdd, dec06, rd])
  case call =>
    obtain ⟨hx, hd⟩ : _ ∧ _ := by simpa [Instr.wf] using hw
    exact encodes_of_maj rfl (decodeWord_06 hx) (fld_fJ_maj ..) (by simp [-Nat.reduceAdd, dec06, rd, hd])
  case jr =>
    exact encodes_of_maj (x := .none) rfl decodeWord_07 (fld_fR_maj ..) (by simp [-Nat.reduceAdd, dec07, fn6, xf, rb, ra, rd])
  case ld =>
    exact encodes_of_maj rfl (decodeWord_08 hw) (fld_fM_maj ..) (by simp [-Nat.reduceAdd, dec08, ra, rd])
  case st =>
    exact encodes_of_maj rfl (decodeWord_09 hw) (fld_fM_maj ..) (by simp [-Nat.reduceAdd, dec09, ra, rd])
  case ldw | take | stw | stf | tset | tclr | trd | twait =>
    exact encodes_of_maj rfl (decodeWord_0A hw) (fld_fT_maj ..) (by simp [-Nat.reduceAdd, dec0A, ra, rd])
  case ldx | stx | ldp | stp | zblk | fence | qpush | qpop | pf | drain =>
    exact encodes_of_maj (x := .none) rfl decodeWord_0B (fld_fR_maj ..) (by simp [-Nat.reduceAdd, dec0B, fn6, xf, rb, ra, rd,
        BitVec.extractLsb'_append_eq_left, BitVec.extractLsb'_append_eq_right])
  case send | sendi | defer | breg | barr | done =>
    exact encodes_of_maj (x := .none) rfl decodeWord_0C (fld_fR_maj ..) (by simp [-Nat.reduceAdd, dec0C, fn6, xf, rb, ra, rd,
        BitVec.extractLsb'_append_eq_left, BitVec.extractLsb'_append_eq_right])
  case enq =>
    exact encodes_of_maj (x := .none) rfl decodeWord_0C (fld_fR_maj ..) (by simp [-Nat.reduceAdd, dec0C, fn6, xf, rb, ra, rd,
        BitVec.extractLsb'_append_eq_left, BitVec.extractLsb'_append_eq_right, DmR.ofCode_code hw])
  case dnew =>
    exact encodes_of_maj (x := .none) rfl decodeWord_0D (fld_fR_maj ..) (by simp [-Nat.reduceAdd, dec0D, fn6, xf, rb, ra, rd,
        BitVec.extractLsb'_append_eq_left, BitVec.extractLsb'_append_eq_right, DmR.ofCode])
  case djoin | dleave | dannul =>
    obtain ⟨hx, hi⟩ : _ ∧ _ := by simpa [Instr.wf] using hw
    exact encodes_of_maj (x := .none) rfl decodeWord_0D (fld_fR_maj ..) (by simp [-Nat.reduceAdd, dec0D, fn6, xf, rb, ra, rd,
        BitVec.extractLsb'_append_eq_left, BitVec.extractLsb'_append_eq_right, DmR.ofCode_code hx, hi])
  case dwhen | dmask =>
    exact encodes_of_maj (x := .none) rfl decodeWord_0D (fld_fR_maj ..) (by simp [-Nat.reduceAdd, dec0D, fn6, xf, rb, ra, rd,
        BitVec.extractLsb'_append_eq_left, BitVec.extractLsb'_append_eq_right, DmR.ofCode_code hw])
  case nopen | nopenWait | nclose | nbind | nq | rseal =>
    exact encodes_of_maj (x := .none) rfl decodeWord_0E (fld_fR_maj ..) (by simp [-Nat.reduceAdd, dec0E, fn6, xf, rb, ra, rd,
        BitVec.extractLsb'_append_eq_left, BitVec.extractLsb'_append_eq_right])
  case cpy | waitp | wm | xfence =>
    exact encodes_of_maj (x := .none) rfl decodeWord_0F (fld_fR_maj ..) (by simp [-Nat.reduceAdd, dec0F, fn6, xf, rb, ra, rd,
        BitVec.extractLsb'_append_eq_left, BitVec.extractLsb'_append_eq_right])
  case aadd | amin | amax | aand | aor | axchg | acas =>
    exact encodes_of_maj (x := .none) rfl decodeWord_10 (fld_fR_maj ..) (by simp [-Nat.reduceAdd, dec10, fn6, xf, rb, ra, rd,
        BitVec.extractLsb'_append_eq_left, BitVec.extractLsb'_append_eq_right])
  case sigw =>
    exact encodes_of_maj (x := .none) rfl decodeWord_11 (fld_fR_maj ..) (by simp [-Nat.reduceAdd, dec11, fn6, xf, rb, ra, rd,
        BitVec.extractLsb'_append_eq_left, BitVec.extractLsb'_append_eq_right])
  case put | putsg | get | padd | arm | ringj =>
    exact encodes_of_maj (x := .none) rfl decodeWord_11 (fld_fR_maj ..) (by simp [-Nat.reduceAdd, dec11, fn6, xf, rb, ra, rd,
        BitVec.extractLsb'_append_eq_left, BitVec.extractLsb'_append_eq_right, DmR.ofCode_code hw])
  case cwr | cww | ckpt | time | cyc | waitc | trap | eret | brk =>
    exact encodes_of_maj (x := .none) rfl decodeWord_12 (fld_fI_maj ..) (by simp [-Nat.reduceAdd, dec12, ra, rd])
  case vadd | vsub | vmul | vmin | vmax | vabs | vneg | vceq | vclt | vcle | vsel | vand | vor | vxor | vshl | vshr | vsra | vrcp | vrsq |
      vexp | vlog | vtanh | vsig | vperm =>
    exact encodes_of_maj (x := .none) rfl decodeWord_20 (fld_fV2_maj ..) (by simp [-Nat.reduceAdd, dec20, rb, ra, rd,
        BitVec.extractLsb'_append_eq_left, BitVec.extractLsb'_append_eq_right])
  case vcvt =>
    simp only [Instr.wf, bne_iff_ne] at hw
    exact encodes_of_maj (x := .none) rfl decodeWord_20 (fld_fV2_maj ..) (by simp [-Nat.reduceAdd, dec20, rb, ra, rd,
        BitVec.extractLsb'_append_eq_left, BitVec.extractLsb'_append_eq_right, hw])
  case vfmaF32 | vfmaBf16 | vfmsF32 | vfmsBf16 | vfmaI32 | vfmsI32 =>
    exact encodes_of_maj (x := .none) rfl decodeWord_21 (fld_fV3_maj ..) (by simp [-Nat.reduceAdd, dec21])
  case vaddF32Const | vsubF32Const | vmulF32Const | vminF32Const | vmaxF32Const | vceqF32Const | vcltF32Const | vcleF32Const |
      vandF32Const | vorF32Const | vxorF32Const =>
    exact encodes_of_maj (x := .none) rfl decodeWord_22 (fld_fVC_maj ..) (by simp [-Nat.reduceAdd, dec22, ra, rd,
        BitVec.extractLsb'_append_eq_left, BitVec.extractLsb'_append_eq_right])
  case vaddBf16Const | vsubBf16Const | vmulBf16Const | vminBf16Const | vmaxBf16Const | vceqBf16Const | vcltBf16Const | vcleBf16Const |
      vandBf16Const | vorBf16Const | vxorBf16Const =>
    exact encodes_of_maj (x := .none) rfl decodeWord_23 (fld_fVC_maj ..) (by simp [-Nat.reduceAdd, dec23, ra, rd,
        BitVec.extractLsb'_append_eq_left, BitVec.extractLsb'_append_eq_right])
  case vaddI32Const | vsubI32Const | vmulI32Const | vminI32Const | vmaxI32Const | vceqI32Const | vcltI32Const | vcleI32Const |
      vandI32Const | vorI32Const | vxorI32Const | vshlI32Const | vshrI32Const | vsraI32Const =>
    exact encodes_of_maj (x := .none) rfl decodeWord_24 (fld_fVC_maj ..) (by simp [-Nat.reduceAdd, dec24, ra, rd,
        BitVec.extractLsb'_append_eq_left, BitVec.extractLsb'_append_eq_right])
  case vext | vins =>
    simp only [Instr.wf, decide_eq_true_eq] at hw
    exact encodes_of_maj (x := .none) rfl decodeWord_25 (fld_fVQ_maj ..) (by simp [-Nat.reduceAdd, dec25, rd,
        BitVec.extractLsb'_append_eq_left, BitVec.extractLsb'_append_eq_right, hw])
  case vbc | vred | vrmax | vrmin | kget | kput =>
    exact encodes_of_maj (x := .none) rfl decodeWord_25 (fld_fVQ_maj ..) (by simp [-Nat.reduceAdd, dec25, rd,
        BitVec.extractLsb'_append_eq_left, BitVec.extractLsb'_append_eq_right])
  case vld =>
    exact encodes_of_maj (x := .none) rfl decodeWord_26 (fld_fVM_maj ..) (by simp [-Nat.reduceAdd, dec26, rd])
  case vst =>
    exact encodes_of_maj (x := .none) rfl decodeWord_27 (fld_fVM_maj ..) (by simp [-Nat.reduceAdd, dec27, rd])
  case vbld =>
    exact encodes_of_maj (x := .none) rfl decodeWord_28 (fld_fVM_maj ..) (by simp [-Nat.reduceAdd, dec28, rd])
  case vbst =>
    exact encodes_of_maj (x := .none) rfl decodeWord_29 (fld_fVM_maj ..) (by simp [-Nat.reduceAdd, dec29, rd])
  case vgath =>
    exact encodes_of_maj (x := .none) rfl decodeWord_2A (fld_fVX_maj ..) (by simp [-Nat.reduceAdd, dec2A, ra, rd])
  case vscat =>
    exact encodes_of_maj (x := .none) rfl decodeWord_2B (fld_fVX_maj ..) (by simp [-Nat.reduceAdd, dec2B, ra, rd])
  case smode | soff =>
    exact encodes_of_maj (x := .none) rfl decodeWord_2C (fld_fVC_maj ..) (by simp [-Nat.reduceAdd, dec2C, ra,
        BitVec.extractLsb'_append_eq_left, BitVec.extractLsb'_append_eq_right])
  case mma | mmaj =>
    simp only [Instr.wf, Bool.not_eq_true', Bool.and_eq_false_imp, beq_eq_false_iff_ne, ne_eq] at hw
    exact encodes_of_maj (x := .none) rfl decodeWord_2D (fld_fMX_maj ..) (by simpa [-Nat.reduceAdd, dec2D,
        BitVec.extractLsb'_append_eq_left, BitVec.extractLsb'_append_eq_right, BitVec.extractLsb'_append_eq_of_le,
        BitVec.extractLsb'_append_eq_of_add_le] using hw)
  case aclr | acpy | radd | rscl | rdout | publOpen | publClose | still | aspl | afil | mwait =>
    exact encodes_of_maj (x := .none) rfl decodeWord_2D (fld_fMX_maj ..) (by simp [-Nat.reduceAdd, dec2D,
        BitVec.extractLsb'_append_eq_left, BitVec.extractLsb'_append_eq_right, fld_fMX, BitVec.extractLsb'_append_eq_of_le,
        BitVec.extractLsb'_append_eq_of_add_le, extractLsb'_append_zero_eq_zero])
  case nop | hintPoll | hintMark | hintOther =>
    exact encodes_of_maj (x := .none) rfl decodeWord_3E (fld_fH_maj ..) (by simp [-Nat.reduceAdd, dec3E])
  all_goals exact absurd rfl he

/-- Settles O56: the decoder reads the words of every instruction back, by the families of the major codes. -/
theorem decodeEncode : Obligations.DecodeEncode :=
  fun i hw he ws => (encodes_of_wf i hw he).decode_encode ws

end Sys2Proof
end

section
/-! Device memory in a device checkpoint (24 R347): RESTORE takes the host's buffer as it is, so the invariant of device memory alone is
not kept by every step from every state. -/

namespace Sys2Proof.Machine

/-- A device whose checkpoint buffer holds a cell that the canonical form of a memory leaves out, and which is about to restore it. -/
def restoringIllFormed : State :=
  { State.reset with
    sys := { State.reset.sys with ckpting := true, buf := some [(0, 0#8)] }
    agenda := [.event .restore] }

theorem restoringIllFormed_inv : restoringIllFormed.Inv := by
  refine ⟨rfl, fun i hi => ?_⟩
  obtain rfl : i = .restore := by simpa [restoringIllFormed] using hi
  decide

theorem step_restoringIllFormed : ∃ t, step restoringIllFormed = .next t ∧ t.mem = [(0, 0#8)] :=
  ⟨_, rfl, rfl⟩

/-- Refutes O60: from a state that meets the invariant, RESTORE of a buffer with a zero cell leaves device memory out of its canonical
form; the invariant says nothing of the buffer. -/
theorem not_stepKeepsInv : ¬ Obligations.StepKeepsInv := by
  intro h
  obtain ⟨t, ht, hm⟩ := step_restoringIllFormed
  have hwf := (h _ t restoringIllFormed_inv ht).1
  rw [hm] at hwf
  exact absurd hwf (by decide)

end Sys2Proof.Machine
end

section
/-! Comparisons, the lesser and the greater of two operands, absolute value, counts of bits, and `li` (05 R80, R83). -/

namespace Sys2Proof.Machine

/-! Results that are one of the operands. -/

theorem ofInt_ite_toInt {w : Nat} {p q : Prop} [Decidable p] [Decidable q] (x y : BitVec w) (h : p ↔ q) :
    BitVec.ofInt w (if p then x.toInt else y.toInt) = if q then x else y := by
  by_cases hq : q
  · rw [if_pos hq, if_pos (h.2 hq), BitVec.ofInt_toInt]
  · rw [if_neg hq, if_neg (fun hp => hq (h.1 hp)), BitVec.ofInt_toInt]

theorem scMin_computes : scMin.Computes fun _ x y => if x.slt y then x else y := by
  intro w x y
  dsimp only [scMin]
  rw [← ofInt_ite_toInt (p := x.toInt < y.toInt) x y BitVec.slt_iff_toInt_lt.symm]
  congr 1
  split <;> omega

theorem scMax_computes : scMax.Computes fun _ x y => if x.slt y then y else x := by
  intro w x y
  dsimp only [scMax]
  rw [← ofInt_ite_toInt (p := x.toInt < y.toInt) y x BitVec.slt_iff_toInt_lt.symm]
  congr 1
  split <;> omega

theorem scMinu_computes : scMinu.Computes fun _ x y => if x.ult y then x else y := by
  intro w x y
  refine ofInt_natCast_eq ?_
  simp only [BitVec.ult, decide_eq_true_eq]
  split <;> omega

theorem scMaxu_computes : scMaxu.Computes fun _ x y => if x.ult y then y else x := by
  intro w x y
  refine ofInt_natCast_eq ?_
  simp only [BitVec.ult, decide_eq_true_eq]
  split <;> omega

/-! Results of one bit. -/

theorem ofInt_ite_bit (w : Nat) {p q : Prop} [Decidable p] [Decidable q] (h : p ↔ q) :
    BitVec.ofInt w (if p then 1 else 0) = bit w q := by
  by_cases hq : q
  · rw [if_pos (h.2 hq), bit, if_pos hq]; rfl
  · rw [if_neg (fun hp => hq (h.1 hp)), bit, if_neg hq]; rfl

theorem scCeq_computes : scCeq.Computes fun w x y => bit w (x = y) :=
  fun w _ _ => ofInt_ite_bit w BitVec.toNat_inj

theorem scCne_computes : scCne.Computes fun w x y => bit w (x ≠ y) :=
  fun w _ _ => ofInt_ite_bit w BitVec.toNat_inj.not

theorem scClt_computes : scClt.Computes fun w x y => bit w (x.slt y) :=
  fun w _ _ => ofInt_ite_bit w BitVec.slt_iff_toInt_lt.symm

theorem scCltu_computes : scCltu.Computes fun w x y => bit w (x.ult y) :=
  fun w _ _ => ofInt_ite_bit w BitVec.ult_iff_lt.symm

theorem scCle_computes : scCle.Computes fun w x y => bit w (x.sle y) :=
  fun w _ _ => ofInt_ite_bit w BitVec.sle_iff_toInt_le.symm

theorem scCleu_computes : scCleu.Computes fun w x y => bit w (x.ule y) :=
  fun w _ _ => ofInt_ite_bit w BitVec.ule_iff_le.symm

/-! The absolute value. -/

theorem scAbs_computes : scAbs.Computes fun _ x _ => if x.slt 0#_ then -x else x := by
  intro w x _
  simp only [scAbs, BitVec.slt_iff_toInt_lt, BitVec.toInt_zero]
  split
  · rw [show ((x.toInt.natAbs : Nat) : Int) = -x.toInt by omega, BitVec.ofInt_neg, BitVec.ofInt_toInt]
  · rw [show ((x.toInt.natAbs : Nat) : Int) = x.toInt by omega, BitVec.ofInt_toInt]

/-! Counts of bits. -/

theorem length_takeWhile_range {p : Nat → Bool} {n k : Nat} (hk : k ≤ n) (h : ∀ i, i < k → p i = true) (he : k < n → p k = false) :
    ((List.range n).takeWhile p).length = k := by
  obtain ⟨m, rfl⟩ := Nat.exists_eq_add_of_le hk
  rw [List.range_add, List.takeWhile_append_of_pos (by simpa using h)]
  cases m with
  | zero => simp
  | succ m => simp [List.range_succ_eq_map, he (by omega)]

theorem lt_two_pow_bitLen (n : Nat) : n < 2 ^ bitLen n := by
  unfold bitLen
  split
  · simp [*]
  · exact Nat.lt_log2_self

theorem testBit_bitLen_sub_one {n : Nat} (h : n ≠ 0) : n.testBit (bitLen n - 1) = true := by
  rw [bitLen, if_neg h, Nat.add_sub_cancel]
  exact Nat.testBit_log2 h

theorem scClz_computes : scClz.Computes fun w x _ => BitVec.ofNat w ((List.range w).takeWhile fun i => ! x.getMsbD i).length := by
  intro w x _
  dsimp only [scClz]
  rw [BitVec.ofInt_natCast, length_takeWhile_range (Nat.sub_le w (bitLen x.toNat))]
  · intro i hi
    have hlt : x.toNat < 2 ^ (w - 1 - i) := lt_of_lt_of_le (lt_two_pow_bitLen _) (Nat.pow_le_pow_right (by decide) (by omega))
    simp [BitVec.getMsbD, BitVec.getLsbD, Nat.testBit_lt_two_pow hlt]
  · intro h
    have h0 : x.toNat ≠ 0 := fun e => by simp [bitLen, e] at h
    have hb : 0 < bitLen x.toNat := by simp [bitLen, h0]
    have hw : bitLen x.toNat ≤ w := by
      rw [bitLen, if_neg h0]
      exact (Nat.log2_lt h0).2 x.isLt
    have := testBit_bitLen_sub_one h0
    simp [BitVec.getMsbD, BitVec.getLsbD, show w - bitLen x.toNat < w by omega,
      show w - 1 - (w - bitLen x.toNat) = bitLen x.toNat - 1 by omega, this]

/-- The trailing zeros: the bits below the count are zero, and the next one is not. -/
theorem trailing_spec (w n : Nat) :
    trailing w n ≤ w ∧ (∀ i, i < trailing w n → n.testBit i = false) ∧ (trailing w n < w → n.testBit (trailing w n) = true) := by
  induction w generalizing n with
  | zero => simp [trailing]
  | succ w ih =>
    obtain ⟨hle, hlow, hone⟩ := ih (n / 2)
    unfold trailing
    split
    · rename_i h
      simp [Nat.testBit_zero, h]
    · rename_i h
      refine ⟨by omega, fun i hi => ?_, fun hlt => ?_⟩
      · cases i with
        | zero => simp [Nat.testBit_zero, h]
        | succ i => rw [Nat.testBit_succ]; exact hlow i (by omega)
      · rw [Nat.testBit_succ]; exact hone (by omega)

theorem scCtz_computes : scCtz.Computes fun w x _ => BitVec.ofNat w ((List.range w).takeWhile fun i => ! x.getLsbD i).length := by
  intro w x _
  obtain ⟨hle, hlow, hone⟩ := trailing_spec w x.toNat
  dsimp only [scCtz]
  rw [BitVec.ofInt_natCast, length_takeWhile_range hle]
  · intro i hi
    simp [BitVec.getLsbD, hlow i hi]
  · intro h
    simp [BitVec.getLsbD, hone h]

theorem ones_eq_length_filter (w n : Nat) : ones w n = ((List.range w).filter n.testBit).length := by
  induction w generalizing n with
  | zero => rfl
  | succ w ih =>
    have hsucc : n.testBit ∘ Nat.succ = (n / 2).testBit := funext fun i => Nat.testBit_succ n i
    rw [ones, ih, List.range_succ_eq_map, List.filter_cons, List.filter_map, hsucc]
    rcases Nat.mod_two_eq_zero_or_one n with h | h
    · simp [Nat.testBit_zero, h]
    · simp [Nat.testBit_zero, h, Nat.add_comm]

theorem scPopc_computes : scPopc.Computes fun w x _ => BitVec.ofNat w ((List.range w).filter fun i => x.getLsbD i).length := by
  intro w x _
  rw [scPopc, BitVec.ofInt_natCast, ones_eq_length_filter]
  rfl

/-- A unary form reads s0 as its second operand. -/
theorem ScFn.Computes.onUnary {g : ScFn} {f : (w : Nat) → BitVec w → BitVec w} (h : g.Computes fun w x _ => f w x)
    {un : STy → Reg → Reg → Instr} (hun : ∀ t a d s, exec (un t a d) s = scReg g 1 t 0#5 a d s := by intros; rfl) : OnUnary f un := by
  intro s t a d
  refine ⟨_, hun t a d s, ?_⟩
  rw [h.scalar_eq]
  exact s.sDone_ws 1 1 d _

/-- Settles O3: each operation computes its function of words, and each form completes with it. -/
theorem scalarSelection : Obligations.ScalarSelection :=
  ⟨⟨⟨scMin_computes.onForms, scMin_computes.onImm⟩,
    ⟨scMax_computes.onForms, scMax_computes.onImm⟩,
    scMinu_computes.onForms,
    scMaxu_computes.onForms,
    ⟨scCeq_computes.onForms, scCeq_computes.onImm⟩,
    ⟨scCne_computes.onForms, scCne_computes.onImm⟩,
    ⟨scClt_computes.onForms, scClt_computes.onImm⟩,
    ⟨scCltu_computes.onForms, scCltu_computes.onImm⟩,
    ⟨scCle_computes.onForms, scCle_computes.onImm⟩,
    scCleu_computes.onForms⟩,
   scAbs_computes.onUnary,
   scClz_computes.onUnary,
   scCtz_computes.onUnary,
   scPopc_computes.onUnary,
   fun s d => ⟨fun _ => ⟨_, rfl, s.sDone_ws 1 1 d _⟩, fun _ _ => ⟨_, rfl, s.sDone_ws 2 1 d _⟩⟩⟩

end Sys2Proof.Machine
end

section
/-! Control flow (05 R84, R85), accesses of the own scratchpad (05 R87 to R93), what changes nothing, and the queue moves of the S stream
(06 R97). -/

namespace Sys2Proof.Machine

/-! Branches and jumps. -/

section
variable {s : State} {x : Pfx} {a : Reg}

theorem execLoop_taken (o : BitVec 13) (h0 : a ≠ 0#5) (h1 : s.me.rs a ≠ 1#64) :
    exec (.loop x o a) s = .next (s.sGo (s.me.pc + offB x o) (1 + x.count) fun c => c.ws a (s.me.rs a - 1#64)) := by
  have h : (s.me.ws a (s.me.rs a - 1#64)).rs a ≠ 0#64 := by
    rw [Core.rs_ws_same _ _ _ h0]
    bv_omega
  exact if_pos h

theorem execLoop_through (o : BitVec 13) (h : a = 0#5 ∨ s.me.rs a = 1#64) :
    exec (.loop x o a) s = .next (s.sDone (words x) 1 fun c => c.ws a (s.me.rs a - 1#64)) := by
  have h : ¬ (s.me.ws a (s.me.rs a - 1#64)).rs a ≠ 0#64 := by
    rw [not_not, Core.rs_ws]
    rcases h with rfl | h
    · rfl
    · split
      · rw [h]; rfl
      · simp_all
  exact if_neg h

end

theorem extractLsb'_zero_two_eq_zero (t : Word) : t.extractLsb' 0 2 = 0#2 ↔ t.toNat % 4 = 0 := by
  rw [← BitVec.toNat_inj, BitVec.extractLsb'_toNat]
  rfl

theorem execJr_aligned {s : State} {a d : Reg} (h : (s.me.rs a).toNat % 4 = 0) :
    exec (.jr a d) s = .next (s.sGo (s.me.rs a) 3 fun c => c.ws d (s.me.pc + 4#64)) :=
  if_neg (not_not.2 ((extractLsb'_zero_two_eq_zero _).2 h))

theorem execJr_misaligned {s : State} {a d : Reg} (h : (s.me.rs a).toNat % 4 ≠ 0) :
    exec (.jr a d) s = .next (s.sTrap 0x02#8 (s.me.rs a)) :=
  if_pos (mt (extractLsb'_zero_two_eq_zero _).1 h)

/-- Settles O4: each branch is `branch` on the reading of its condition, and each jump a completion at its target. -/
theorem controlTransfer : Obligations.ControlTransfer := by
  refine ⟨fun s x o b a => ⟨?_, ?_, ?_, ?_, ?_, ?_, fun ⟨h0, h1⟩ => ?_, fun h => ?_⟩, fun s x o a d => ⟨?_, ?_, fun h => ?_, fun h => ?_⟩⟩
  · exact branch_branches _ s x o _ _ (by rw [beq_iff_eq, BitVec.toNat_inj]) rfl
  · exact branch_branches _ s x o _ _ (by rw [bne_iff_ne, ne_eq, ne_eq, BitVec.toNat_inj]) rfl
  · exact branch_branches _ s x o _ _ BitVec.slt_iff_toInt_lt.symm rfl
  · exact branch_branches _ s x o _ _ (by simp [BitVec.slt_eq_decide]) rfl
  · exact branch_branches _ s x o _ _ BitVec.ult_iff_lt.symm rfl
  · exact branch_branches _ s x o _ _ (by simp [BitVec.ult_eq_decide]) rfl
  · rw [← offB_eq]
    exact goes_does _ s _ _ _ (dbgBlind_ws _ _) (execLoop_taken o h0 h1)
  · exact does_intro _ s _ _ _ (dbgBlind_ws _ _) (execLoop_through o h)
  · rw [← offJ_eq]
    exact goes_does _ s _ _ _ dbgBlind_id rfl
  · rw [← offJ_eq, show 4 + 4 * x.count = 4 * words x by simp [words]; ring]
    exact goes_does _ s _ _ _ (dbgBlind_ws _ _) rfl
  · exact goes_does _ s _ _ _ (dbgBlind_ws _ _) (execJr_aligned h)
  · exact execJr_misaligned h

/-! Loads. -/

theorem add_mul_eq_ofInt (a b : Word) (n : Nat) : a + b * BitVec.ofNat 64 n = BitVec.ofInt 64 (a.toInt + b.toInt * n) := by
  rw [BitVec.ofInt_add, BitVec.ofInt_mul, BitVec.ofInt_toInt, BitVec.ofInt_toInt]
  rfl

/-- A load of one register from the own scratchpad. -/
theorem gives_loadAt {i : Instr} {s : State} {ea : Word} {t : MTy} {d : Reg} {ws : Nat} (h : s.LocalLd ea (mSize t))
    (e : exec i s = .next (loadAt ea (mSize t) (mSigned t) d none ws s)) :
    Gives i s ws 2 d (loaded (mSigned t) (mSize t) (s.spNat ea (mSize t))) := by
  have h0 : 0 < mSize t := by cases t <;> decide
  obtain ⟨u, hm, hu⟩ := loadAt_local s ea (mSize t) (mSigned t) d none ws h0 h
  rw [widen_eq _ _ (mSize_cases t) _ (Memory.length_read ..)] at hu
  refine ⟨_, e, computes_of_completes ?_⟩
  rw [hu]
  exact completes_marked (dbgBlind_ws _ _) hm (u.sDone_spec ws 2 _ (dbgBlind_ws _ _))

theorem Memory.read_take (m : List Host.Cell) (a n k : Nat) (h : k ≤ n) : (Memory.read m a n).take k = Memory.read m a k := by
  induction k generalizing a n with
  | zero => rfl
  | succ k ih =>
    obtain ⟨n, rfl⟩ : ∃ j, n = j + 1 := ⟨n - 1, by omega⟩
    simp only [Memory.read, List.take_succ_cons, ih (a + 1) n (by omega)]

theorem Memory.read_drop (m : List Host.Cell) (a n k : Nat) (h : k ≤ n) : (Memory.read m a n).drop k = Memory.read m (a + k) (n - k) := by
  induction k generalizing a n with
  | zero => rfl
  | succ k ih =>
    obtain ⟨n, rfl⟩ : ∃ j, n = j + 1 := ⟨n - 1, by omega⟩
    simp only [Memory.read, List.drop_succ_cons, ih (a + 1) n (by omega)]
    congr 1 <;> omega

/-- Settles O5: an access to the own scratchpad that nothing holds back completes at once with the bytes there. -/
theorem localLoad : Obligations.LocalLoad := by
  intro s a d
  refine ⟨fun x o r c t h => ?_, fun t b h => ?_, fun b h => ?_⟩
  · rw [← offM_eq] at h
    exact (offM_eq .. ▸ gives_loadAt h rfl)
  · rw [← add_mul_eq_ofInt] at h ⊢
    exact gives_loadAt h rfl
  · obtain ⟨u, hm, hu⟩ := loadAt_local s (s.me.rs a) 16 false d (some b) 1 (by decide) h
    obtain ⟨⟨⟨hle, hal⟩, -⟩, -⟩ := h
    have e : exec (.ldp b a d) s = .next (loadAt (s.me.rs a) 16 false d (some b) 1 s) := congrArg _ (if_neg (not_not.2 hal))
    have hf := (dbgBlind_ws d (bytesWord ((Memory.read s.me.sp (s.me.rs a).toNat 16).take 8))).comp
      (dbgBlind_ws b (bytesWord ((Memory.read s.me.sp (s.me.rs a).toNat 16).drop 8)))
    refine ⟨_, e, ?_⟩
    rw [hu]
    have hc := completes_marked hf hm (u.sDone_spec 1 2 _ hf)
    rw [Memory.read_take _ _ _ _ (by decide), Memory.read_drop _ _ _ _ (by decide)] at hc
    rwa [State.spNat, State.spNat, show (s.me.rs a + 8#64).toNat = (s.me.rs a).toNat + 8 by bv_omega]

/-! Stores. -/

theorem stSize_pos (t : StTy) : 0 < stSize t := by cases t <;> decide

/-- A store of one register to the own scratchpad. -/
theorem stores_storeAt {i : Instr} {s : State} {ea v : Word} {t : StTy} {dom : DTag} {rel : Bool} {ws : Nat}
    (h : s.Local ea (stSize t)) (hw : 0x80 ≤ ea.toNat) (hr : rel = true → s.me.Released false)
    (e : exec i s = .next (storeAt ea (leBytes (stSize t) v.toNat) dom rel ws s)) : Stores i s ws ea (leBytes (stSize t) v.toNat) := by
  have hl : (leBytes (stSize t) v.toNat).length = stSize t := leBytes_length _ _
  exact stores_local i s ea _ dom rel ws (hl.symm ▸ stSize_pos t) (hl.symm ▸ h) hw hr e

theorem leBytes_zero (n : Nat) : leBytes n 0 = List.replicate n 0#8 := by
  induction n with
  | zero => rfl
  | succ n ih => simp [leBytes, ih, List.replicate_succ]

/-- The null block of `zblk`, its payload of zeros written out (04 R62). -/
theorem nullI10_eq : nullI10 =
    ([0x10#8, 0xFF#8] ++ List.replicate 60 0#8) ++ leBytes 2 (crc16 ([0x10#8, 0xFF#8] ++ List.replicate 60 0#8)).toNat := by
  simp only [nullI10, blkBytes, show (0#480).toNat = 0 from rfl, leBytes_zero, List.cons_append, List.nil_append]

/-- Settles O6: a store to the own scratchpad that nothing holds back is performed at its issue. -/
theorem localStore : Obligations.LocalStore := by
  intro s a d
  refine ⟨fun x o r c m t h hw hr => ?_, fun t b h hw => ?_, fun b h hw => ?_, fun h hw => ?_⟩
  · rw [← offM_eq] at h hw ⊢
    exact stores_storeAt h hw (fun e => hr (by simpa using e)) rfl
  · rw [← add_mul_eq_ofInt] at h hw ⊢
    exact stores_storeAt (rel := false) h hw (by simp) rfl
  · have e : exec (.stp b a d) s = .next (storeAt (s.me.rs a) (leBytes 8 (s.me.rs d).toNat ++ leBytes 8 (s.me.rs b).toNat) (s.dm .inh)
        false 1 s) := congrArg _ (if_neg (not_not.2 h.1.2))
    have hl : (leBytes 8 (s.me.rs d).toNat ++ leBytes 8 (s.me.rs b).toNat).length = 16 := by simp [leBytes_length]
    exact stores_local _ s _ _ _ false _ (by omega) (hl.symm ▸ h) hw (by simp) e
  · have e : exec (.zblk a) s = .next (storeAt (s.me.rs a) nullI10 (s.dm .inh) false 1 s) := congrArg _ (if_neg (not_not.2 h.1.2))
    rw [nullI10_eq] at e
    exact stores_local _ s _ _ _ false _ (by simp) (by simpa [leBytes_length] using h) hw (by simp) e

end Sys2Proof.Machine
end

section
/-! Tagged operations on words of the own scratchpad (05 R93, R94), what changes nothing (05 R92, R184, R185, 12 R227), and the queue
moves of the S stream (06 R97). -/

namespace Sys2Proof.Machine

/-! Tagged operations. -/

theorem offT_eq (base : Word) (x : Pfx) (o : BitVec 12) : base + offT x o = BitVec.ofInt 64 (base.toInt + signedField x o * 8) := by
  have h (v : Word) : v <<< 3 = v * BitVec.ofInt 64 8 := by
    rw [BitVec.shiftLeft_eq_mul_twoPow]; rfl
  cases x <;>
    simp only [offT, signedField, h, BitVec.ofInt_add, BitVec.ofInt_mul, BitVec.ofInt_toInt, BitVec.signExtend, pfxLast]

theorem dbgBlind_evalArmed (off t : Nat) : DbgBlind fun c => c.evalArmed off t := by
  intro x d
  simp only [Core.evalArmed, spWord_dbg]

theorem dbgBlind_tagDo (op : TagOp) (off : Nat) (v : Word) (t : Nat) : DbgBlind fun c => (tagDo op off v t c).2 := by
  have h := dbgBlind_evalArmed off t
  intro x d
  cases op
  case ldw | trd | twait => exact h x d
  case take | tclr => exact h (x.setTag off false) d
  case stw | stf => exact h ((x.spWrite off (wordBytes v)).setTag off true) d
  case tset => exact h (x.setTag off true) d

theorem tagDo_dbg (op : TagOp) (off : Nat) (v : Word) (t : Nat) (x : Core) (d : Dbg) :
    (tagDo op off v t { x with dbg := d }).1 = (tagDo op off v t x).1 := by
  unfold tagDo
  simp only [spWord_dbg]
  cases op <;> rfl

/-- A tagged operation that its word lets go on completes in one step. -/
theorem does_tagged {i : Instr} {s : State} {op : TagOp} {ea : Word} {d : Reg} {v : Word} {dom : DTag} {ws lo : Nat}
    (e : exec i s = tagged op ea d v dom ws s) (h : s.TagWord lo ea)
    (hlo : (op = .take ∨ op = .stw ∨ op = .tclr ∨ op = .twait) → lo = 0x800) (hlo2 : (op = .stf ∨ op = .tset) → lo = 0x80)
    (hc : tagCond op (s.me.full ea.toNat) = true) (hw : tagWrites op = true → s.me.Released false) :
    Does i s ws 2 fun c => if tagRd op then (tagDo op ea.toNat v s.cyc c).2.ws d (tagDo op ea.toNat v s.cyc s.me).1
      else (tagDo op ea.toNat v s.cyc c).2 := by
  obtain ⟨t, hm, ht⟩ := tagged_local s op ea d v dom ws lo h hlo hlo2 hc hw
  have hv : (tagDo op ea.toNat v s.cyc t.me).1 = (tagDo op ea.toNat v s.cyc s.me).1 := by
    obtain ⟨-, -, b, hb, -⟩ := hm
    rw [hb, tagDo_dbg]
  rw [hv] at ht
  have hf := dbgBlind_tagDo op ea.toNat v s.cyc
  refine ⟨_, e.trans ht, ?_⟩
  cases tagRd op
  · exact completes_marked hf hm (t.sDone_spec ws 2 _ hf)
  · have hf := hf.comp (dbgBlind_ws d (tagDo op ea.toNat v s.cyc s.me).1)
    exact completes_marked hf hm (t.sDone_spec ws 2 _ hf)

theorem spWord_local (s : State) (ea : Word) (h : ea.toNat % 8 = 0) (h' : ea.toNat < 0x80000) :
    s.me.spWord ea.toNat = BitVec.ofNat 64 (s.spNat ea 8) := by
  rw [Core.spWord, spRead_local _ _ _ (by omega)]
  rfl

/-- Settles O7: each tagged operation is `tagDo` on its word, from the state in which the access has been noted. -/
theorem localTagged : Obligations.LocalTagged := by
  intro s x o a d
  rw [← offT_eq]
  intro ea w ev put full
  have hword {lo} (h : s.TagWord lo ea) : s.me.spWord ea.toNat = w := spWord_local s ea h.2.1 h.2.2.2.1
  refine ⟨fun h => ⟨fun hf => ?_, ?_⟩, fun h hf => ?_, fun hr m => ⟨fun h => ⟨?_, ?_⟩, fun h => ⟨fun hf => ?_, fun hf => ?_, ?_⟩⟩⟩
  · have := does_tagged (i := .ldw x o a d) rfl h (by simp) (by simp) hf (by simp [tagWrites])
    rw [← hword h]
    exact this
  · exact does_tagged (i := .trd x o a d) rfl h (by simp) (by simp) rfl (by simp [tagWrites])
  · exact does_tagged (i := .twait x o a) rfl h (by simp) (by simp) (congrArg (! ·) hf) (by simp [tagWrites])
  · exact does_tagged (i := .stf x o m a d) rfl h (by simp) (by simp) rfl fun _ => hr
  · exact does_tagged (i := .tset x o m a) rfl h (by simp) (by simp) rfl fun _ => hr
  · have := does_tagged (i := .take x o m a d) rfl h (by simp) (by simp) hf fun _ => hr
    rw [← hword h]
    exact this
  · exact does_tagged (i := .stw x o m a d) rfl h (by simp) (by simp) (congrArg (! ·) hf) fun _ => hr
  · exact does_tagged (i := .tclr x o m a) rfl h (by simp) (by simp) rfl fun _ => hr

/-! What changes nothing. -/

theorem fenceDone_iff (c : Core) (stores uo : Bool) :
    c.fenceDone stores uo = true ↔ c.wbuf = [] ∧ ∀ p ∈ c.acc, (stores = true ∨ p.loads = true) → uo = false ∧ p.p.kind = .uo := by
  simp only [Core.fenceDone, Bool.and_eq_true, List.isEmpty_iff, Bool.not_eq_true', List.any_eq_false]
  refine and_congr_right fun _ => forall₂_congr fun p _ => ?_
  cases stores <;> cases uo <;> cases p.loads <;> simp

theorem does_fenceOn {i : Instr} {s : State} {stores uo eng : Bool} (e : exec i s = fenceOn stores uo eng s)
    (h : s.me.fenceDone stores uo = true) : Does i s 1 1 (Core.seen eng) :=
  does_intro i s 1 1 _ (dbgBlind_seen eng) (by rw [e, fenceOn, if_pos h])

theorem execFence_empty {s : State} (h : s.me.wbuf = []) (o : FenceOrd) (c : Scope) :
    exec (.fence o c) s = fenceOn (o != .acq) false false s :=
  if_pos (List.isEmpty_iff.2 h)

/-- Settles O8: fences with nothing left to wait for complete as `nop` does. -/
theorem noEffect : Obligations.NoEffect := by
  intro s
  refine ⟨does_intro _ s 1 1 id dbgBlind_id rfl, does_intro _ s 1 1 id dbgBlind_id rfl, does_intro _ s 1 1 id dbgBlind_id rfl,
    does_intro _ s 1 1 id dbgBlind_id rfl, fun hw => ⟨fun ha c => ?_, fun ha o c => ?_, fun ha => ⟨?_, ?_⟩⟩⟩
  · exact does_fenceOn (execFence_empty hw .acq c) ((fenceDone_iff ..).2 ⟨hw, fun p hp hl => ⟨rfl, ha p hp (by simpa using hl)⟩⟩)
  · exact does_fenceOn (execFence_empty hw o c) ((fenceDone_iff ..).2 ⟨hw, fun p hp _ => ⟨rfl, ha p hp⟩⟩)
  · exact does_fenceOn (i := .drain) rfl ((fenceDone_iff ..).2 ⟨hw, by simp [ha]⟩)
  · exact does_fenceOn (i := .xfence) rfl ((fenceDone_iff ..).2 ⟨hw, by simp [ha]⟩)

/-! Queue moves. -/

theorem dbgBlind_pop_ws (q : BitVec 3) (d : Reg) (v : Word) :
    DbgBlind fun c => { (c.pop q).ws d v with sAfter := max c.sAfter (c.qhead q).2 } := by
  intro x e
  simp only [Core.ws]
  split <;> rfl

/-- Settles O9: a queue with room takes the value, and one with an entry that has arrived gives it. -/
theorem queueMoves : Obligations.QueueMoves := by
  intro s n r
  refine ⟨fun h => does_intro _ s 1 1 _ (fun _ _ => rfl) (if_pos h), fun v l hq hc => ?_⟩
  refine does_intro _ s 1 1 _ (dbgBlind_pop_ws (1#1 ++ n) r v) ?_
  show execQpop n r s = _
  unfold execQpop
  dsimp only
  rw [hq]
  exact if_neg (not_lt.2 hc)

end Sys2Proof.Machine
end

section
/-! What a step runs: fetch, decode and dispatch (02 R21, 03 R40, R41), words of the worked examples, and the state after reset. -/

namespace Sys2Proof.Machine

/-! Fetch. -/

theorem fetchInstr_of_word {t u : State} {ws : List (BitVec 32)} {w : BitVec 32}
    (h : State.fetchWords t.me.pc 3 0 [] t = (ws, .word w u)) :
    t.fetchInstr = match decode ws with
      | .ok i _ => .run i { u with ir := ws.getLastD 0#32 }
      | .bad w _ => .run .illegalInstruction { u with ir := w } := by
  unfold State.fetchInstr
  rw [h] <;> rfl

/-- The slot of a core that is due, whose activation goes on, begins with a fetch. -/
theorem slotOf_ready {s : State} {c : Nat} (h : s.sReady c = true)
    (he : (s.core c).act = none ∨ s.expired c (s.dtag (s.core c).c.dom) = false) :
    s.slotOf c = ({ s with cur := c, phase := .s } : State).fetchInstr := by
  unfold State.slotOf
  rw [if_neg (by simp [h])]
  refine if_neg fun ⟨ha, hx⟩ => ?_
  rcases he with he | he
  · have : (s.core c).act.isSome = true := ha
    simp [he] at this
  · exact absurd (show s.expired c (s.dtag (s.core c).c.dom) = true from hx) (by simp [he])

theorem fetchWords_one {s u : State} {a : Word} {w : BitVec 32} (h : s.fetchWord a 0 = .word w u) (hw : isPfx w = false) :
    State.fetchWords a 3 0 [] s = ([w], .word w u) := by
  simp [State.fetchWords, h, hw]

theorem fetchWord_inline {s : State} {a : Word} {o : Nat} (k : Nat) (h : s.inlineAt = some o) (h1 : o ≤ a.toNat) (h2 : a.toNat < o + 32)
    (h3 : o + 32 ≤ 0x100000) : s.fetchWord a k = .word (BitVec.ofNat 32 (leNat (s.me.spRead a.toNat 4))) s := by
  have hb : bits a 63 56 = 0 ∧ bits a 55 0 = a.toNat := by unfold bits; omega
  have hc : classify s.own s.cur a = .loc a.toNat := by
    unfold classify
    simp only [hb.1, hb.2, true_or, if_true]
    exact if_pos (by omega)
  unfold State.fetchWord
  simp only [hc, h, h1, h2, and_self, if_true]

theorem struckPs_whole {u : State} {p : Piece} {pa : Nat} (hp : p.at_ = .dram pa) (h : u.WholeAt pa p.n) : u.struckPs [p] = none := by
  simp [State.struckPs, State.struckAt, hp, struck_none _ _ _ h]

theorem chkPiece_n {s u : State} {c : Nat} {b : TBuf} {ctx : Ctx} {acc : Acc} {fps} {va : Word} {n : Nat} {p : Piece}
    (h : s.chkPiece c b ctx acc fps va n = .ok [p] u) : p.n = n := by
  unfold State.chkPiece at h
  split at h
  · unfold demFault at h
    split at h <;> cases h
  · split at h
    · unfold demFault at h
      split at h <;> cases h
    · split at h
      · cases h
      · cases h
        rfl

theorem fetchWord_dram {s u : State} {a va : Word} {p : Piece} {pa : Nat} (k : Nat) (hc : classify s.own s.cur a = .dva va)
    (h : s.chkPiece s.cur .i (s.who s.cur false).ctx .fetch none va 4 = .ok [p] u) (hp : p.at_ = .dram pa) (hu : u.WholeAt pa 4) :
    s.fetchWord a k = .word (BitVec.ofNat 32 (leNat (Memory.read u.mem pa 4))) u := by
  have hs : u.struckPs [p] = none := struckPs_whole hp (by rwa [chkPiece_n h])
  unfold State.fetchWord
  simp only [hc, h, hs, hp, State.readAt]

/-! Steps. -/

theorem slot_of_word {s u : State} {c : Nat} {ws : List (BitVec 32)} {w : BitVec 32} (h : s.sReady c = true)
    (he : (s.core c).act = none ∨ s.expired c (s.dtag (s.core c).c.dom) = false)
    (hf : State.fetchWords (s.core c).pc 3 0 [] { s with cur := c, phase := .s } = (ws, .word w u)) :
    slot c s = match decode ws with
      | .ok i _ => exec i { u with ir := ws.getLastD 0#32 }
      | .bad w _ => exec .illegalInstruction { u with ir := w } := by
  unfold slot
  rw [slotOf_ready h he, fetchInstr_of_word (t := { s with cur := c, phase := .s }) hf]
  cases decode ws <;> rfl

theorem eventOk_iff (i : Instr) : eventOk i = true ↔ i.wf = true ∧ encode i = [] := by
  simp [eventOk]

theorem step_agenda_event {s : State} {i : Instr} {r : List Turn} (h : s.agenda = .event i :: r) :
    step s = if eventOk i then exec i { s with agenda := r } else .fault .illFormedStep := by
  unfold step
  rw [h]

/-- Settles O57: each clause is one branch of `step` or of the fetch. -/
theorem stepRuns : Obligations.StepRuns := by
  constructor
  · intro s c hs t he
    refine ⟨fun ws w u hf => ?_, fun r ha => ?_, fun ha hw hc => ?_, ?_,
      fun v p pa u w hc hk hp hu hw hx => ?_⟩
    · rw [slot_of_word hs he hf]
      cases hd : decode ws <;> dsimp only
      case ok i n => exact ⟨ws.getLastD 0#32, rfl, fun _ _ _ => rfl, fun _ _ e => nomatch e⟩
      case bad v n =>
        refine ⟨v, rfl, ?_, ?_⟩
        · rintro _ _ ⟨⟩
        · rintro _ _ ⟨⟩
          rfl
    · unfold step
      rw [ha]
    · unfold step
      rw [ha, hw, hc]
    · intro a w ha hi o h1 h2 h3 hw hp
      subst hw
      have ho : ({ s with cur := c, phase := .s } : State).inlineAt = some ((slotAddr a.q a.ix).toNat + 32) := by
        show (match (s.core c).act with | some a => if a.m.inl then some ((slotAddr a.q a.ix).toNat + 32) else none | none => none) = _
        rw [ha]
        exact if_pos hi
      exact fetchWords_one (fetchWord_inline 0 ho h1 h2 h3) hp
    · subst hw
      exact fetchWords_one (fetchWord_dram (s := { s with cur := c, phase := .s }) 0 hc hk hp hu) hx
  · intro s
    refine ⟨fun i r ha hi hn => ?_, fun i r ha hi => ?_, fun c ha hw => ?_, fun o ha hw hc ho => ?_⟩
    · rw [step_agenda_event ha, if_pos ((eventOk_iff i).2 ⟨hi, hn⟩)]
    · rw [step_agenda_event ha, if_neg]
      rw [eventOk_iff]
      rintro ⟨h1, h2⟩
      rcases hi with hi | hi
      · simp [hi] at h1
      · exact hi h2
    · unfold step
      rw [ha, hw]
      rfl
    · unfold step
      rw [ha, hw, hc, ho]

/-- Settles O58: the words are closed terms, and decoding them is a computation. -/
theorem decodeWords : Obligations.DecodeWords := by
  unfold Obligations.DecodeWords
  decide +kernel

/-- Settles O59: no table of the reset state has an entry, so each part reads as its default. -/
theorem resetState : Obligations.ResetState := by
  have hc (c : Nat) : State.reset.core c = Core.zero := by simp only [State.core, State.reset, tGet, Option.getD_none]
  refine ⟨⟨rfl, fun _ h => absurd h List.not_mem_nil⟩, rfl, fun c r => ?_, fun c v n hn => ?_, fun c k => ?_, fun c a => ?_, fun a => rfl, fun c => ⟨?_, ?_, fun t => ?_⟩⟩
  · simp [hc, Core.rs, Core.zero, Regs.zero]
  · show ((Vector.replicate 32 (Vector.replicate 48 0#32))[v.toNat]).toList[n]? = _
    rw [Vector.getElem_replicate, Vector.toList_replicate, List.getElem?_replicate_of_lt hn]
  · simp [hc, Core.rk, Core.zero, Regs.zero]
  · rw [hc]; rfl
  · rw [hc]; rfl
  · rw [hc]; rfl
  · simp [hc, Slice.tile, Core.zero, Slice.zero, Tile.zero]

end Sys2Proof.Machine
end

section
/-! Traps, control words and time (18 R289 to R294, 02 R35 to R39). -/

namespace Sys2Proof.Machine

/-! The end of an activation, at its core. -/

theorem core_reclaim (s : State) (b c : Nat) : (s.reclaim b).core c = s.core c := by
  unfold State.reclaim
  split
  · rfl
  · dsimp only
    split <;> rfl

theorem core_unask (s : State) (c d : Nat) : (s.unask c).core d = s.core d := by
  unfold State.unask
  split
  · split
    · split
      · rfl
      · split <;> rfl
    · rfl
  · rfl

theorem core_disown (s : State) (t : TaskRef) (c : Nat) : ∃ l, (s.disown t).core c = { s.core c with armed := l } := by
  unfold State.disown
  split
  · exact ⟨_, rfl⟩
  · let f (x : Core) : Core := { x with armed := x.armed.map fun a => if a.task = t ∧ a.fired.isNone then { a with task := none, act := 0 } else a }
    have h : (tGet (s.cores.map fun p => (p.1, f p.2)) c).getD Core.zero = f (s.core c) := by
      rw [tGet_map, State.core]
      cases tGet s.cores c <;> rfl
    exact ⟨_, h⟩

theorem core_accumulate (s : State) (c : Nat) (a : Act) :
    ∃ l, (s.accumulate c a).core c = { s.core c with dbg := { (s.core c).dbg with acc := l } } :=
  ⟨_, State.core_upd_same s c _⟩

/-- An activation that has ended leaves its core without one. -/
theorem core_endAct (s : State) (c : Nat) (ann keep : Bool) (how : Word) (next : SStat) :
    ((s.endAct c ann keep how next).core c).act = none ∧ ((s.endAct c ann keep how next).core c).stat = next := by
  unfold State.endAct
  dsimp only
  generalize s.unask c = s
  split
  · next h =>
    rw [State.core_upd_same]
    exact ⟨h, rfl⟩
  · next a _ =>
    generalize s.depart c ann = s
    generalize hu : (s.upd c _) = u
    obtain ⟨l, hl⟩ := core_accumulate u c a
    obtain ⟨-, p, q, ht⟩ := (u.accumulate c a).trace_spec c 2#8 (BitVec.ofNat 64 (u.cyc - a.start)) 0#64 how
    generalize (u.accumulate c a).trace c _ _ _ _ = v at ht ⊢
    obtain ⟨m, hm⟩ := core_disown v a.task c
    have hv : ((v.disown a.task).core c).act = none ∧ ((v.disown a.task).core c).stat = next := by
      rw [hm, ht, hl, ← hu, State.core_upd_same]
      exact ⟨rfl, rfl⟩
    split
    · rwa [core_reclaim]
    · exact hv

/-! The core whose turn it is stays so. -/

theorem cur_unask (s : State) (c : Nat) : (s.unask c).cur = s.cur := by
  unfold State.unask
  split
  · split
    · split
      · rfl
      · split <;> rfl
    · rfl
  · rfl

theorem cur_reclaim (s : State) (b : Nat) : (s.reclaim b).cur = s.cur := by
  unfold State.reclaim
  split
  · rfl
  · dsimp only
    split <;> rfl

theorem cur_disown (s : State) (t : TaskRef) : (s.disown t).cur = s.cur := by
  unfold State.disown
  split <;> rfl

theorem cur_updIn (s : State) (c : Nat) (x : Ctx) (f : Core → Core) : (s.updIn c x f).cur = s.cur := by
  unfold State.updIn
  split <;> rfl

theorem cur_departs (s : State) (w : Who) (ann : Bool) (l : List (Nat × Nat)) : (s.departs w ann l).cur = s.cur := by
  unfold State.departs
  induction l generalizing s with
  | nil => rfl
  | cons p l ih =>
    rw [List.foldl_cons, ih]
    dsimp only
    split
    · rfl
    · split
      · exact cur_updIn ..
      · rfl

theorem cur_endAct (s : State) (c : Nat) (ann keep : Bool) (how : Word) (next : SStat) :
    (s.endAct c ann keep how next).cur = s.cur := by
  rw [← cur_unask s c]
  unfold State.endAct
  dsimp only
  generalize s.unask c = s
  split
  · rfl
  · next a _ =>
    have hd : (s.depart c ann).cur = s.cur := cur_departs ..
    generalize s.depart c ann = t at hd
    rw [← hd]
    generalize hu : (t.upd c _) = u
    have hu : u.cur = t.cur := by rw [← hu]; rfl
    rw [← hu]
    obtain ⟨ho, -⟩ := (u.accumulate c a).trace_spec c 2#8 (BitVec.ofNat 64 (u.cyc - a.start)) 0#64 how
    have ho := (cur_disown _ a.task).trans ho.cur
    split
    · exact (cur_reclaim ..).trans ho
    · exact ho

/-! Taking a trap. -/

theorem sTrap_drained {s : State} (h1 : s.me.wbuf = []) (h2 : s.me.wpend = []) (cause : BitVec 8) (v : Word) :
    s.sTrap cause v = s.enterTrap s.cur ⟨cause, s.me.pc, v, false⟩ :=
  if_pos ((wDrained_iff _).2 ⟨h1, h2⟩)

theorem sTrap_waits {s : State} (h : ¬ (s.me.wbuf = [] ∧ s.me.wpend = [])) (cause : BitVec 8) (v : Word) :
    s.sTrap cause v = s.updMe fun x => { x with stat := .trapping ⟨cause, s.me.pc, v, false⟩, waitFrom := none } :=
  if_neg (mt (wDrained_iff _).1 h)

/-- What the entry of a trap begins with: a released halt is no longer marked. -/
def State.unskip (s : State) (c : Nat) : State := s.upd c fun x => { x with dbg := { x.dbg with skip := false } }

theorem unskip_core (s : State) (c : Nat) : (s.unskip c).core c = { s.core c with dbg := { (s.core c).dbg with skip := false } } :=
  State.core_upd_same s c _

theorem unskip_handler (s : State) (c : Nat) : (s.unskip c).handler ((s.unskip c).who c false).ctx 255 = s.handler (s.who c false).ctx 255 := by
  have : (s.unskip c).who c false = s.who c false := by
    unfold State.who
    simp only [unskip_core]
    rfl
  rw [this]
  rfl

/-- In a handler, or unrecoverable without one, a trap ends the activation (18 R290). -/
theorem enterTrap_ends {s : State} {c : Nat} {r : TrapRec}
    (h : (s.core c).c.intrap = true ∨ s.handler (s.who c false).ctx 255 = none ∧ recoverable r.cause = false) :
    ((s.enterTrap c r).core c).act = none ∧ ((s.enterTrap c r).core c).stat = .idle := by
  have ends (t : State) :
      (((t.endAct c false false 2#64 .idle).stepEnd c).core c).act = none ∧ (((t.endAct c false false 2#64 .idle).stepEnd c).core c).stat = .idle := by
    obtain ⟨-, d, hd, -⟩ := (t.endAct c false false 2#64 .idle).stepEnd_spec c
    rw [hd]
    exact core_endAct t c false false 2#64 .idle
  unfold State.enterTrap
  dsimp only
  rw [← State.unskip]
  cases hi : (s.core c).c.intrap
  · obtain ⟨hn, hr⟩ : s.handler (s.who c false).ctx 255 = none ∧ recoverable r.cause = false := by simpa [hi] using h
    rw [if_neg (by decide), unskip_handler, hn]
    dsimp only
    rw [hr, if_neg (by decide)]
    exact ends _
  · rw [if_pos rfl]
    exact ends _

/-- Without a handler a recoverable trap parks the core on its fault entry (18 R290). -/
theorem enterTrap_parks {s : State} {c : Nat} {r : TrapRec} (hi : (s.core c).c.intrap = false)
    (hn : s.handler (s.who c false).ctx 255 = none) (hr : recoverable r.cause = true) :
    ∃ d, (s.enterTrap c r).core c =
      { s.core c with stat := .run, park := some (s.nextId, s.cyc), pc := r.pc, waitFrom := none, dbg := d } := by
  unfold State.enterTrap
  dsimp only
  rw [← State.unskip, hi, if_neg (by decide), unskip_handler, hn]
  dsimp only
  rw [hr, if_pos rfl, State.core_upd_same]
  show ∃ d, { (s.unskip c).core c with stat := .run, park := some (s.nextId, s.cyc), pc := r.pc, waitFrom := none } = _
  rw [unskip_core]
  exact ⟨_, rfl⟩

theorem cur_enterTrap (s : State) (c : Nat) (r : TrapRec) : (s.enterTrap c r).cur = s.cur := by
  unfold State.enterTrap
  dsimp only
  split
  · exact ((State.stepEnd_spec _ c).1.cur).trans (cur_endAct ..)
  · split
    · exact ((State.stepEnd_spec _ c).1.cur).trans (State.trace_spec ..).1.cur
    · split
      · rfl
      · exact ((State.stepEnd_spec _ c).1.cur).trans (cur_endAct ..)

theorem who_ctx (s : State) : (s.who s.cur false).ctx = s.myCtx := rfl

/-! The instructions that raise a trap, and `eret`. -/

theorem imm_eq (s : State) : (irImm s).setWidth 64 = BitVec.ofNat 64 (s.ir.toNat / 2 ^ 20) := by
  unfold irImm
  have := s.ir.isLt
  apply BitVec.eq_of_toNat_eq
  simp only [BitVec.toNat_setWidth, BitVec.extractLsb'_toNat, BitVec.toNat_ofNat, Nat.shiftRight_eq_div_pow]
  omega

theorem execBrk_traps {s : State} (h : s.me.dbg.bpen = 0#4 ∨ s.me.dbg.skip = true) :
    exec .brk s = .next (s.sTrap 0x0B#8 ((irImm s).setWidth 64)) :=
  congrArg _ (if_neg fun ⟨h1, h2⟩ => by rcases h with h | h <;> simp_all)

theorem execBrk_halts {s : State} (h1 : s.me.dbg.bpen ≠ 0#4) (h2 : s.me.dbg.skip = false) : exec .brk s = .next (s.halt s.cur 4#8) :=
  congrArg _ (if_pos ⟨h1, by simp [h2]⟩)

theorem execEret_goes {s : State} (h : s.me.c.intrap = true) (h1 : s.me.wbuf = []) (h2 : s.me.wpend = []) (h3 : s.me.c.tpc.toNat % 4 = 0) :
    exec .eret s = .next (s.sGo s.me.c.tpc 3 fun c => { c with c := { c.c with intrap := false } }) := by
  have hd : s.me.wDrained = true := (wDrained_iff _).2 ⟨h1, h2⟩
  have ht : s.me.c.tpc.extractLsb' 0 2 = 0#2 := by
    rw [← BitVec.toNat_inj, BitVec.extractLsb'_toNat]
    exact h3
  show execEret s = _
  simp [execEret, h, hd, ht]

theorem execEret_stalls {s : State} (h : s.me.c.intrap = true) (hd : ¬ (s.me.wbuf = [] ∧ s.me.wpend = [])) :
    exec .eret s = .next (s.sStall (Config.waitVal s.nextId)) := by
  have hd : s.me.wDrained = false := by rw [← Bool.not_eq_true, wDrained_iff]; exact hd
  show execEret s = _
  simp [execEret, h, hd]

theorem execEret_illegal {s : State} (h : s.me.c.intrap = false) : exec .eret s = .next (s.sTrap 0x01#8 0x00010012#64) := by
  show execEret s = _
  simp [execEret, h]

/-- Settles O10. -/
theorem takingTraps : Obligations.TakingTraps := by
  refine ⟨fun s cause v => ⟨fun h hc => trap_enters s cause v h hc, fun h => sTrap_waits h cause v, fun h1 h2 h => ?_,
    fun h1 h2 h3 h4 h5 => ?_⟩, fun s => ⟨fun h hc => ⟨?_, fun hb => ?_, ?_⟩, fun h1 h2 => ?_⟩,
    fun s => ⟨fun h h1 h2 h3 => goes_does _ s _ _ _ (fun _ _ => rfl) (execEret_goes h h1 h2 h3), execEret_stalls, execEret_illegal⟩⟩
  · rw [sTrap_drained h1 h2, State.me_eq, cur_enterTrap]
    exact enterTrap_ends h
  · obtain ⟨d, hd⟩ := enterTrap_parks (r := ⟨cause, s.me.pc, v, false⟩) h3 h4 h5
    rw [sTrap_drained h1 h2, State.me_eq, cur_enterTrap, hd]
    exact ⟨rfl, rfl, rfl⟩
  · exact ⟨_, rfl, imm_eq s ▸ trap_enters s _ _ h hc⟩
  · exact ⟨_, execBrk_traps hb, imm_eq s ▸ trap_enters s _ _ h hc⟩
  · exact ⟨_, rfl, BitVec.ofNat_toNat 64 s.ir ▸ trap_enters s _ _ h hc⟩
  · obtain ⟨ho, p, l, hh⟩ := s.halt_spec s.cur 4#8
    have hm : (s.halt s.cur 4#8).me = { s.me with dbg := { s.me.dbg with halted := true, hcause := 4#8, since := s.cyc, trPos := p, lost := l } } := by
      rw [State.me_eq, ho.cur]
      exact hh
    refine ⟨_, execBrk_halts h1 h2, ho, ?_, ?_, ?_⟩ <;> rw [hm]

end Sys2Proof.Machine
end

section
/-! Numbers as bytes (01 R7), trace records (24 R341), and the control words, the clocks and what stops dispatch (02 R35 to R39, 18 R293,
R294, R307, 05 R86). -/

namespace Sys2Proof.Machine

/-! Numbers as bytes. -/

theorem leNat_leBytes (n v : Nat) : leNat (leBytes n v) = v % 256 ^ n := by
  induction n generalizing v with
  | zero => simp [leBytes, leNat, Nat.mod_one]
  | succ n ih =>
    show v % 256 + 256 * leNat (leBytes n (v / 256)) = _
    rw [ih, pow_succ', Nat.mod_mul]

theorem toNat_append_eq {m n : Nat} (x : BitVec m) (y : BitVec n) : (x ++ y).toNat = x.toNat * 2 ^ n + y.toNat := by
  rw [BitVec.toNat_append, ← Nat.shiftLeft_add_eq_or_of_lt y.isLt, Nat.shiftLeft_eq]

/-- Reading what has been written there and elsewhere. -/
theorem Memory.read_congr {m m' : List Host.Cell} {a n : Nat} (h : ∀ x, a ≤ x → x < a + n → Memory.get m x = Memory.get m' x) :
    Memory.read m a n = Memory.read m' a n := by
  induction n generalizing a with
  | zero => rfl
  | succ n ih =>
    rw [Memory.read, Memory.read, h a (by omega) (by omega), ih fun x h1 h2 => h x (by omega) (by omega)]

/-! Trace records. -/

/-- The trace record of an event, as a number: cycle, core, kind and three words (24 R341). -/
def traceRec (t c : Nat) (kind : BitVec 8) (d1 d2 d3 : Word) : BitVec 256 := d3 ++ d2 ++ d1 ++ kind ++ BitVec.ofNat 12 c ++ BitVec.ofNat 44 t

theorem traceRec_toNat (t c : Nat) (kind : BitVec 8) (d1 d2 d3 : Word) : (traceRec t c kind d1 d2 d3).toNat =
    t % 2 ^ 44 + 2 ^ 44 * (c % 2 ^ 12) + 2 ^ 56 * kind.toNat + 2 ^ 64 * d1.toNat + 2 ^ 128 * d2.toNat + 2 ^ 192 * d3.toNat := by
  simp only [traceRec, toNat_append_eq, BitVec.toNat_ofNat]
  ring

/-- Device memory with a record at the position of a core's ring. -/
def State.recorded (s : State) (c : Nat) (r : BitVec 256) : List Host.Cell :=
  Memory.write s.mem ((s.core c).dbg.trBase.toNat + (s.core c).dbg.trPos) (leBytes 32 r.toNat)

theorem State.read_recorded (s : State) (c : Nat) (r : BitVec 256) :
    Memory.read (s.recorded c r) ((s.core c).dbg.trBase.toNat + (s.core c).dbg.trPos) 32 = leBytes 32 r.toNat := by
  have := Memory.read_write s.mem ((s.core c).dbg.trBase.toNat + (s.core c).dbg.trPos) (leBytes 32 r.toNat)
  rwa [leBytes_length] at this

/-- With room in the ring the record stands at its position, and the position moves on. -/
theorem State.trace_room {s : State} {c : Nat} (k : BitVec 8) (a b d : Word) (h : (s.core c).dbg.trSize ≠ 0#64)
    (h' : (s.core c).dbg.trPos + 32 ≤ (s.core c).dbg.trSize.toNat) :
    s.trace c k a b d = ({ s with mem := s.recorded c (traceRec s.cyc c k a b d) } : State).upd c fun x =>
      { x with dbg := { x.dbg with trPos := x.dbg.trPos + 32 } } := by
  unfold State.trace State.traceAt
  dsimp only
  rw [if_neg h, if_neg (by omega)]
  rfl

theorem State.trace_off {s : State} {c : Nat} (k : BitVec 8) (a b d : Word) (h : (s.core c).dbg.trSize = 0#64) : s.trace c k a b d = s :=
  if_pos h

/-- A record is written at the ring's position or not at all. -/
theorem State.trace_below (s : State) (c : Nat) (k : BitVec 8) (a b d : Word) {x : Nat}
    (h : x < (s.core c).dbg.trBase.toNat + (s.core c).dbg.trPos) : Memory.get (s.trace c k a b d).mem x = Memory.get s.mem x := by
  by_cases h1 : (s.core c).dbg.trSize = 0#64
  · rw [State.trace_off k a b d h1]
  · by_cases h2 : (s.core c).dbg.trPos + 32 ≤ (s.core c).dbg.trSize.toNat
    · rw [State.trace_room k a b d h1 h2]
      exact Memory.get_write_outside _ _ _ _ (.inl h)
    · unfold State.trace State.traceAt
      dsimp only
      rw [if_neg h1, if_pos (by omega)]
      rfl

theorem State.stepEnd_below (s : State) (c : Nat) {x : Nat} (h : x < (s.core c).dbg.trBase.toNat + (s.core c).dbg.trPos) :
    Memory.get (s.stepEnd c).mem x = Memory.get s.mem x := by
  unfold State.stepEnd State.halt
  split
  · exact State.trace_below _ _ _ _ _ _ (by simpa only [State.core_upd_same] using h)
  · rfl

/-- The completion of an instruction writes no record below the ring's position. -/
theorem State.sGo_below (s : State) (pc : Word) (k : Nat) (f : Core → Core) {x : Nat}
    (h : x < s.me.dbg.trBase.toNat + s.me.dbg.trPos) : Memory.get (s.sGo pc k f).mem x = Memory.get s.mem x := by
  obtain ⟨h1, hm, r, o, h2⟩ := s.count_spec s.cur 1#3 s.me.pc false
  unfold State.sGo
  dsimp only
  generalize s.count s.cur 1#3 s.me.pc false = t at h1 hm h2 ⊢
  have hc : t.core t.cur = { s.core s.cur with dbg := { (s.core s.cur).dbg with ctr := r, ovf := o } } := by rw [h1.cur, h2]
  refine (State.stepEnd_below _ _ ?_).trans (by rw [← hm]; rfl)
  rw [State.updMe_eq, State.core_upd_same, hc]
  exact h

theorem execHintMark_off {s : State} (h : s.me.dbg.trSize = 0#64) : exec .hintMark s = .next (s.sDone 1 1 id) :=
  congrArg (fun t : State => Host.Outcome.next (t.sDone 1 1 id)) (State.trace_off (c := s.cur) _ _ _ _ h)

/-- The mark of `hint 2` stands in the ring after the instruction. -/
theorem execHintMark_room {s : State} (h : s.me.dbg.trSize ≠ 0#64) (h' : s.me.dbg.trPos + 32 ≤ s.me.dbg.trSize.toNat) :
    ∃ t, exec .hintMark s = .next t ∧ t.me.r = s.me.r ∧ t.me.pc = s.me.pc + 4#64 ∧ t.me.ready = s.cyc + 1 ∧
      Memory.read t.mem (s.me.dbg.trBase.toNat + s.me.dbg.trPos) 32 =
        leBytes 32 (traceRec s.cyc s.cur 4#8 ((s.ir.extractLsb' 6 20).setWidth 64) s.me.pc 0#64).toNat := by
  let v : Word := (s.ir.extractLsb' 6 20).setWidth 64
  have e := State.trace_room (c := s.cur) 4#8 v s.me.pc 0#64 h h'
  have he : exec .hintMark s = .next ((s.trace s.cur 4#8 v s.me.pc 0#64).sDone 1 1 id) := rfl
  rw [he]
  generalize s.trace s.cur 4#8 v s.me.pc 0#64 = t at e
  have hm : t.me = { s.me with dbg := { s.me.dbg with trPos := s.me.dbg.trPos + 32 } } := by
    rw [e]
    exact State.core_upd_same _ _ _
  have hy : t.cyc = s.cyc := by rw [e]; rfl
  have ht : t.mem = s.recorded s.cur (traceRec s.cyc s.cur 4#8 v s.me.pc 0#64) := by rw [e]; rfl
  have below : Memory.read (t.sDone 1 1 id).mem (s.me.dbg.trBase.toNat + s.me.dbg.trPos) 32 =
      Memory.read t.mem (s.me.dbg.trBase.toNat + s.me.dbg.trPos) 32 :=
    Memory.read_congr fun x _ hx => State.sGo_below t _ _ _ (by rw [hm]; show x < _ + (_ + 32); omega)
  obtain ⟨-, -, hme⟩ := t.sDone_spec 1 1 id dbgBlind_id
  refine ⟨t.sDone 1 1 id, rfl, ?_, ?_, ?_, ?_⟩
  · rw [hme, hm]; rfl
  · rw [hme, hm]
  · rw [hme, hy]
  · rw [below, ht]
    exact s.read_recorded s.cur _

/-! Control words. -/

theorem and_low56 (x : Word) : x &&& 0x00FFFFFFFFFFFFFF#64 = BitVec.ofNat 64 (x.toNat % 2 ^ 56) := by
  apply BitVec.eq_of_toNat_eq
  rw [BitVec.toNat_and, show (0x00FFFFFFFFFFFFFF#64).toNat = 2 ^ 56 - 1 from rfl, Nat.and_two_pow_sub_one_eq_mod, BitVec.toNat_ofNat]
  omega

theorem and_page64 (x : Word) : x &&& 0x00FFFFFFFFFFFFC0#64 = BitVec.ofNat 64 (x.toNat % 2 ^ 56 / 64 * 64) := by
  apply BitVec.eq_of_toNat_eq
  rw [BitVec.toNat_and, show (0x00FFFFFFFFFFFFC0#64).toNat = (2 ^ 50 - 1) * 2 ^ 6 from rfl, BitVec.toNat_ofNat,
    Nat.mod_eq_of_lt (b := 2 ^ 64) (by omega)]
  refine Nat.eq_of_testBit_eq fun i => ?_
  have e : x.toNat % 2 ^ 56 / 64 * 64 = x.toNat % 2 ^ 56 / 2 ^ 6 * 2 ^ 6 := rfl
  rw [e, Nat.testBit_and, Nat.testBit_mul_two_pow, Nat.testBit_mul_two_pow, Nat.testBit_div_two_pow,
    Nat.testBit_mod_two_pow, Nat.testBit_two_pow_sub_one]
  by_cases h : 6 ≤ i
  · rw [show i - 6 + 6 = i by omega]
    by_cases h2 : i < 56 <;> simp [h, h2] <;> omega
  · simp [h]

theorem gives_cwr (w : Cw) (d : Reg) (s : State) : Gives (.cwr w d) s 1 2 d (s.cwRead w) := ⟨_, rfl, s.sDone_ws 1 2 d _⟩

theorem execDone_empty {s : State} (h : s.me.wbuf = []) :
    exec .done s = .next ((s.sGo s.me.pc 1 id).updMe fun c => { c with stat := .ending none }) := by
  show execDone s = _
  unfold execDone Core.wStuck
  rw [h]

theorem execCkpt_nothing {s : State} (i : BitVec 12) (h : s.me.c.preq = false ∨ s.me.c.intrap = true ∨ s.me.c.ckpttab = 0#64) :
    exec (.ckpt i) s = .next (s.sDone 1 1 id) :=
  if_pos (by simpa using h)

theorem execCww_corestat {s : State} (a : Reg) (h1 : s.me.wbuf = []) (h2 : s.me.wpend = []) :
    exec (.cww .corestat a) s = .next (s.sDone 1 1 fun c => c.writeCorestat (s.me.rs a)) := by
  show execCww .corestat a s = _
  unfold execCww
  dsimp only
  rw [if_pos ((wDrained_iff _).2 ⟨h1, h2⟩)]

theorem execWaitc_now {s : State} {a : Reg} (h : (s.me.rs a).toNat ≤ s.cyc % 2 ^ 64) : exec (.waitc a) s = .next (s.sDone 1 1 id) := by
  show execWaitc a s = _
  rw [execWaitc, if_pos h]

theorem execWaitc_later {s : State} {a : Reg} (h : s.cyc % 2 ^ 64 < (s.me.rs a).toNat) :
    exec (.waitc a) s = .next (s.sHold (.cycle (s.me.rs a) false) 1 1) := by
  show execWaitc a s = _
  rw [execWaitc, if_neg (not_le.2 h)]

/-- Settles O11. -/
theorem controlRegisters : Obligations.ControlRegisters := by
  refine ⟨fun s a d => ⟨⟨?_, ?_, ?_, ?_, ?_, ?_, ?_, ?_, ?_, ?_⟩, ⟨?_, ?_, ?_⟩, fun h1 h2 => ?_, ?_, ?_, ?_, fun h => ?_, fun h => ?_⟩,
    fun s => ⟨fun h => does_intro _ s 1 1 id dbgBlind_id (execHintMark_off h), fun h h' => ?_⟩, fun s i => ⟨fun h => ?_, fun h => ?_⟩⟩
  · exact gives_cwr .corestat d s
  · exact gives_cwr .cyc d s
  · exact gives_cwr .now d s
  · exact gives_cwr .domain d s
  · rw [BitVec.ofNat_toNat]
    exact gives_cwr .trapcause d s
  · exact gives_cwr .trappc d s
  · exact gives_cwr .trapval d s
  · exact gives_cwr .itervec d s
  · rw [← and_low56]
    exact gives_cwr .ckpttab d s
  · rw [← and_page64]
    exact gives_cwr .handlerbase d s
  · rw [BitVec.ofNat_toNat]
    exact does_intro _ s 1 1 _ (fun _ _ => rfl) rfl
  · exact does_intro _ s 1 1 _ (fun _ _ => rfl) rfl
  · exact does_intro _ s 1 1 _ (fun _ _ => rfl) rfl
  · exact does_intro _ s 1 1 _ (fun _ _ => rfl) (execCww_corestat a h1 h2)
  · rintro w (rfl | rfl | rfl | rfl | rfl | rfl) <;> rfl
  · exact ⟨_, rfl, s.sDone_ws 1 1 d _⟩
  · exact ⟨_, rfl, s.sDone_ws 1 1 d _⟩
  · exact does_intro _ s 1 1 id dbgBlind_id (execWaitc_now h)
  · exact asksHold _ s s _ rfl (execWaitc_later h)
  · obtain ⟨t, ht, hr, hp, hy, hm⟩ := execHintMark_room h h'
    refine ⟨t, ht, hr, hp, hy, ?_⟩
    rw [hm, leNat_leBytes, show 256 ^ 32 = 2 ^ 256 from rfl, Nat.mod_eq_of_lt (traceRec _ _ _ _ _ _).isLt, traceRec_toNat, BitVec.toNat_setWidth, BitVec.extractLsb'_toNat,
      Nat.shiftRight_eq_div_pow, Nat.mod_eq_of_lt (b := 2 ^ 64) (by omega), show (0#64).toNat = 0 from rfl, Nat.mul_zero, Nat.add_zero]
    rfl
  · exact does_intro _ s 1 1 id dbgBlind_id (execCkpt_nothing i h)
  · exact ⟨_, _, execDone_empty h, s.sGo_spec _ 1 id dbgBlind_id, rfl⟩

end Sys2Proof.Machine
end

section
/-! Membership in joins: `dnew`, `djoin` and `dleave` (08 R141, R150 to R153). -/

namespace Sys2Proof.Machine

/-! Result words. -/

theorem dResult_eq {st ix : Nat} (l : Bool) (d : Dom) (h1 : st < 16) (h2 : ix < 256) : dResult st l ix d = dRes st l.toNat ix d.toNat := by
  apply BitVec.eq_of_toNat_eq
  have := d.isLt
  have : l.toNat < 2 := l.toNat_lt
  simp only [dResult, dRes, toNat_append_eq, BitVec.toNat_ofNat, BitVec.toNat_ofBool]
  omega

/-! `dnew`. -/

theorem asks_dnew {s u : State} {a d : Reg} {v : Word} (hc : u.cur = s.cur) (h : execDnew a d s = .next (u.reply d v)) :
    Asks (.dnew a d) s u d v := reply_asks _ s u d v hc h

theorem asks_dnew_late {s : State} {a d : Reg} (h : s.inRange (s.me.rs a) = false) : Asks (.dnew a d) s s d (dRes 2 0 0 0) := by
  refine asks_dnew rfl ?_
  simp [execDnew, h, dResult_eq]

theorem asks_dnew_full {s : State} {a d : Reg} (h : s.inRange (s.me.rs a) = true) (hf : s.freeOrd = none) :
    Asks (.dnew a d) s s d (dRes 1 0 0 0) := by
  refine asks_dnew rfl ?_
  simp [execDnew, h, hf, dResult_eq]

theorem asks_dnew_free {s : State} {a d : Reg} {i : Dom} (h : s.inRange (s.me.rs a) = true) (hf : s.freeOrd = some i) :
    Asks (.dnew a d) s (s.setDom i (newDom (s.me.rs a) .ord s.myCtx)) d (dRes 0 0 0 i.toNat) := by
  refine asks_dnew rfl ?_
  simp [execDnew, h, hf, dResult_eq]

/-! `djoin`. -/

theorem execDjoin_ok {s : State} {x : DmR} {a d : Reg} {m : Dom} (hx : s.dmr x = (m, true)) :
    exec (.djoin x a d) s = .next (if ! s.domOk ((s.me.rs a).setWidth 16) then s.sTrap 0x08#8 (((s.me.rs a).setWidth 16 : Dom).setWidth 64)
      else (s.djoin m ((s.me.rs a).setWidth 16)).2.reply d (s.djoin m ((s.me.rs a).setWidth 16)).1) := by
  show execDjoin x a d s = _
  rw [execDjoin, withDom_ok hx]

theorem asks_djoin {s : State} {x : DmR} {a d : Reg} {m : Dom} {v : Word} {u : State} (hx : s.dmr x = (m, true))
    (hj : s.domOk ((s.me.rs a).setWidth 16) = true) (h : s.djoin m ((s.me.rs a).setWidth 16) = (v, u)) (hc : u.cur = s.cur) :
    Asks (.djoin x a d) s u d v := by
  refine reply_asks _ s u d v hc ?_
  rw [execDjoin_ok hx, hj, h]
  rfl

/-- A live domain becomes a member of a join at the lowest free place (08 R152). -/
def State.enterJoin (s : State) (e : DEnt) (m k : Dom) : Word × State :=
  let ej := s.dom k
  let ix := (lowClear ej.mem).getD 0
  let mem := ej.mem ||| (1#256 <<< ix)
  let t := (s.setDom k { ej with mem := mem }).setDom m { e with jl := e.jl ++ [(k, ix)] }
  (dResult 0 false ix k, (if ej.inst < e.inst then t.setInst k e.inst else t).tellPeers k (.maskNotice k mem))

theorem enterJoin_dom {s : State} {e : DEnt} {m k : Dom} {ix : Nat} (h : lowClear (s.dom k).mem = some ix) (hkm : k ≠ m) (q : Dom) :
    (s.enterJoin e m k).2.dom q =
      if q = k then { s.dom k with mem := (s.dom k).mem ||| (1#256 <<< ix), inst := if (s.dom k).inst < e.inst then e.inst else (s.dom k).inst }
      else if q = m then { e with jl := e.jl ++ [(k, ix)] } else s.dom q := by
  unfold State.enterJoin
  simp only [h, Option.getD_some, dom_tellPeers]
  split
  · simp only [dom_setInst, dom_setDom, if_neg hkm, if_true]
    split <;> rfl
  · simp only [dom_setDom]
    by_cases hq : q = k
    · subst hq
      rw [if_neg hkm, if_pos rfl, if_pos rfl]
    · simp only [if_neg hq]

theorem enterJoin_only (s : State) (e : DEnt) (m k : Dom) : s.OnlyDoms (s.enterJoin e m k).2 := by
  unfold State.enterJoin
  refine OnlyDoms_trans ?_ (OnlyHub.doms (OnlyHub_tellPeers ..))
  split
  · exact OnlyDoms_trans (OnlyHub.doms (OnlyHub_trans (OnlyHub_setDom ..) (OnlyHub_setDom ..))) (OnlyDoms_setInst ..)
  · exact OnlyHub.doms (OnlyHub_trans (OnlyHub_setDom ..) (OnlyHub_setDom ..))

theorem enterJoin_result {s : State} {e : DEnt} {m k : Dom} {ix : Nat} (h : lowClear (s.dom k).mem = some ix) (hi : ix < 256) :
    s.enterJoin e m k = (dRes 0 0 ix k.toNat, (s.enterJoin e m k).2) := by
  refine Prod.ext ?_ rfl
  show dResult 0 false ((lowClear (s.dom k).mem).getD 0) k = _
  rw [h]
  exact dResult_eq false k (by decide) hi

/-- With an instant that is no later, the instant of the join stays. -/
theorem enterJoin_onlyHub {s : State} {e : DEnt} {m k : Dom} (h : ¬ (s.dom k).inst < e.inst) : s.OnlyHub (s.enterJoin e m k).2 := by
  unfold State.enterJoin
  simp only [if_neg h]
  exact OnlyHub_trans (OnlyHub_trans (OnlyHub_setDom ..) (OnlyHub_setDom ..)) (OnlyHub_tellPeers ..)

section
variable {s : State} {m j : Dom}

theorem djoin_no_ord (h : m = 0#16 ∨ (s.dom m).kind ≠ .ord) : s.djoin m j = (dRes 4 0 0 0, s) := by
  unfold State.djoin
  rw [if_pos h, dResult_eq false _ (by decide) (by decide)]
  rfl

variable (hm : m ≠ 0#16) (hk : (s.dom m).kind = .ord)
include hm hk

theorem djoin_dead (h : (s.dom m).st ≠ .live) : s.djoin m j = (dRes 3 0 0 0, s) := by
  unfold State.djoin
  rw [if_neg (by simp [hm, hk]), if_pos h, dResult_eq false _ (by decide) (by decide)]
  rfl

variable (hl : (s.dom m).st = .live)
include hl

theorem djoin_no_join (h0 : j ≠ 0#16) (h : j.toNat < 0xF000 ∨ (s.dom j).kind ≠ .join) : s.djoin m j = (dRes 4 0 0 0, s) := by
  unfold State.djoin
  rw [if_neg (by simp [hm, hk]), if_neg (by simp [hl]), if_pos ⟨h0, h⟩, dResult_eq false _ (by decide) (by decide)]
  rfl

theorem djoin_join_dead (h0 : 0xF000 ≤ j.toNat) (h1 : (s.dom j).kind = .join) (h2 : (s.dom j).st ≠ .live) :
    s.djoin m j = (dRes 3 0 0 0, s) := by
  have hj : j ≠ 0#16 := by rintro rfl; simp at h0
  have hn : ¬ j < 0xF000#16 := not_lt.2 h0
  unfold State.djoin
  rw [if_neg (by simp [hm, hk]), if_neg (by simp [hl]), if_neg (by simp [hn, h1]), if_pos ⟨hj, h2⟩,
    dResult_eq false _ (by decide) (by decide)]
  rfl

/-- With a live join named, what is left is the place in its mask. -/
theorem djoin_join_live (h0 : 0xF000 ≤ j.toNat) (h1 : (s.dom j).kind = .join) (h2 : (s.dom j).st = .live) :
    s.djoin m j = match (s.dom m).ixIn j with
      | some ix => (dResult 0 false ix j, s)
      | none =>
        if (s.dom m).jl.length ≥ 4 ∨ (lowClear (s.dom j).mem).isNone then (dRes 5 0 0 0, s)
        else s.enterJoin (s.dom m) m j := by
  have hj : j ≠ 0#16 := by rintro rfl; simp at h0
  have hn : ¬ j < 0xF000#16 := not_lt.2 h0
  unfold State.djoin
  rw [if_neg (by simp [hm, hk]), if_neg (by simp [hl]), if_neg (by simp [hn, h1]), if_neg (by simp [h2])]
  simp only [if_neg hj]
  cases (s.dom m).ixIn j with
  | some ix => rfl
  | none =>
    simp only [ne_eq, hj, not_false_eq_true, true_and, dResult_eq false 0#16 (st := 5) (ix := 0) (by decide) (by decide)] <;> rfl

/-- Without a join named, what is left is a free id for a new one. -/
theorem djoin_new : s.djoin m 0#16 =
    if (s.dom m).jl.length ≥ 4 then (dRes 5 0 0 0, s)
    else
      match s.freeJoin with
      | none => (dRes 1 0 0 0, s)
      | some k => (s.setDom k (newDom (s.dom m).inst .join s.myCtx)).enterJoin (s.dom m) m k := by
  unfold State.djoin
  rw [if_neg (by simp [hm, hk]), if_neg (by simp [hl]), if_neg (by simp), if_neg (by simp)]
  simp only [if_true, ne_eq, not_true_eq_false, false_and, or_false, dResult_eq false 0#16 (st := 5) (ix := 0) (by decide) (by decide),
    dResult_eq false 0#16 (st := 1) (ix := 0) (by decide) (by decide)] <;> rfl

end

/-! `dleave`. -/

theorem execDleave_ok {s : State} {x : DmR} {a : Reg} (d : Reg) {m j : Dom} (hx : s.dmr x = (m, true)) (hj : (s.me.rs a).setWidth 16 = j) :
    exec (.dleave x a d) s = .next (
      if ! s.domOk j then s.sTrap 0x08#8 (j.setWidth 64)
      else if (s.dom j).kind ≠ .join then s.reply d (dResult 4 false 0 0#16)
      else if (s.dom j).st ≠ .live then s.reply d (dResult 3 false 0 0#16)
      else
        match (s.dom m).ixIn j with
        | none => s.reply d (dResult 6 false 0 0#16)
        | some ix =>
          if ((s.unjoin m j ix).dom j).st = .annulled then (s.unjoin m j ix).sHold (.acks d (dResult 0 true 0 j) j) 1 1
          else (s.unjoin m j ix).reply d (dResult 0 false 0 j)) := by
  subst hj
  show execDleave x a d s = _
  rw [execDleave, withDom_ok hx] <;> rfl

section
variable {s : State} {x : DmR} {a : Reg} {m j : Dom} (d : Reg) (hx : s.dmr x = (m, true)) (hj : (s.me.rs a).setWidth 16 = j)
  (ho : s.domOk j = true)
include hx hj ho

theorem asks_dleave_no_join (h : (s.dom j).kind ≠ .join) : Asks (.dleave x a d) s s d (dRes 4 0 0 0) := by
  refine reply_asks _ s s d _ rfl ?_
  rw [execDleave_ok d hx hj, ho, if_neg (by decide), if_pos h, dResult_eq false _ (by decide) (by decide)]
  rfl

variable (hk : (s.dom j).kind = .join)
include hk

theorem asks_dleave_dead (h : (s.dom j).st ≠ .live) : Asks (.dleave x a d) s s d (dRes 3 0 0 0) := by
  refine reply_asks _ s s d _ rfl ?_
  rw [execDleave_ok d hx hj, ho, if_neg (by decide), if_neg (not_not.2 hk), if_pos h, dResult_eq false _ (by decide) (by decide)]
  rfl

variable (hl : (s.dom j).st = .live)
include hl

theorem asks_dleave_no_member (h : (s.dom m).ixIn j = none) : Asks (.dleave x a d) s s d (dRes 6 0 0 0) := by
  refine reply_asks _ s s d _ rfl ?_
  rw [execDleave_ok d hx hj, ho, if_neg (by decide), if_neg (not_not.2 hk), if_neg (not_not.2 hl), h]
  dsimp only
  rw [dResult_eq false _ (by decide) (by decide)]
  rfl

theorem execDleave_member {ix : Nat} (h : (s.dom m).ixIn j = some ix) : exec (.dleave x a d) s = .next (
    if ((s.unjoin m j ix).dom j).st = .annulled then (s.unjoin m j ix).sHold (.acks d (dRes 0 1 0 j.toNat) j) 1 1
    else (s.unjoin m j ix).reply d (dRes 0 0 0 j.toNat)) := by
  rw [execDleave_ok d hx hj, ho, if_neg (by decide), if_neg (not_not.2 hk), if_neg (not_not.2 hl), h]
  dsimp only
  rw [dResult_eq false j (by decide) (by decide), dResult_eq true j (by decide) (by decide)]
  rfl

end

/-- A member that has lost its place in a join. -/
def State.unlist (s : State) (m j : Dom) : State := s.setDom m { s.dom m with jl := (s.dom m).jl.filter fun q => q.1 != j }

theorem unlist_mem (s : State) (m j q : Dom) : ((s.unlist m j).dom q).mem = (s.dom q).mem := by
  rw [State.unlist, dom_setDom]
  split
  · next h => rw [h]
  · rfl

theorem unlist_st (s : State) (m j q : Dom) : ((s.unlist m j).dom q).st = (s.dom q).st := by
  rw [State.unlist, dom_setDom]
  split
  · next h => rw [h]
  · rfl

theorem unlist_jl (s : State) (m j : Dom) : ((s.unlist m j).dom m).jl = (s.dom m).jl.filter fun q => q.1 != j := by
  rw [State.unlist, State.dom_setDom_same]

theorem unjoin_eq (s : State) (m j : Dom) (ix : Nat) : s.unjoin m j ix =
    let mem := (s.dom j).mem &&& ~~~(1#256 <<< ix)
    let t := (s.unlist m j).setDom j { (s.unlist m j).dom j with mem := mem }
    if mem = 0#256 then t.annulOne j else (t.setInst j (t.joinInst j 0#64)).tellPeers j (.maskNotice j mem) := by
  rw [← unlist_mem s m j j]
  rfl

theorem unjoin_last {s : State} {m j : Dom} {ix : Nat} (h : (s.dom j).mem &&& ~~~(1#256 <<< ix) = 0#256) :
    s.OnlyHub (s.unjoin m j ix) ∧ ((s.unjoin m j ix).dom j).st = .annulled := by
  rw [unjoin_eq]
  dsimp only
  rw [if_pos h]
  refine ⟨OnlyHub_trans (OnlyHub_trans (OnlyHub_setDom ..) (OnlyHub_setDom ..)) (OnlyHub_annulOne ..), ?_⟩
  rw [dom_annulOne, if_pos rfl]

theorem unjoin_other {s : State} {m j : Dom} {ix : Nat} (h : (s.dom j).mem &&& ~~~(1#256 <<< ix) ≠ 0#256) :
    ((s.unjoin m j ix).dom j).st = (s.dom j).st ∧ ((s.unjoin m j ix).dom j).mem = (s.dom j).mem &&& ~~~(1#256 <<< ix) ∧
      ((s.unjoin m j ix).dom m).jl = (s.dom m).jl.filter fun q => q.1 != j := by
  have hs := unlist_st s m j j
  have hl := unlist_jl s m j
  rw [unjoin_eq]
  dsimp only
  rw [if_neg h]
  generalize s.unlist m j = t at hs hl
  simp only [dom_tellPeers, dom_setInst, dom_setDom, if_true]
  refine ⟨hs, trivial, ?_⟩
  by_cases hj : m = j
  · subst hj
    simpa using hl
  · simpa [hj] using hl

theorem ixIn_none {e : DEnt} {j : Dom} (h : ∀ p ∈ e.jl, p.1 ≠ j) : e.ixIn j = none := by
  simpa [DEnt.ixIn, List.find?_eq_none] using fun a b hab => h (a, b) hab

theorem lowClear_allOnes : lowClear (BitVec.allOnes 256) = none := by
  rw [lowClear, List.find?_eq_none]
  intro i hi
  rw [BitVec.getLsbD_allOnes, decide_eq_true (List.mem_range.1 hi)]
  decide

theorem lowClear_new (t : Word) (k : DKd) (c : Ctx) : lowClear (newDom t k c).mem = some 0 :=
  lowClear_eq _ 0 (by decide) BitVec.getLsbD_zero (by simp)

/-- Settles O12. -/
theorem domainMembership : Obligations.DomainMembership := by
  refine ⟨fun s a d => ?_, fun s x a d m hx => ?_, fun s x a d m hx => ?_⟩
  · intro n t
    refine ⟨fun h => ?_, fun h1 h2 => ⟨fun i hi => ?_, fun hi => ?_⟩⟩
    · exact asks_dnew_late (by rw [← Bool.not_eq_true, inRange_iff]; exact h)
    · exact asks_dnew_free ((inRange_iff ..).2 ⟨h1, h2⟩) (freeDom_lowest _ _ _ _ (by decide) hi)
    · exact asks_dnew_full ((inRange_iff ..).2 ⟨h1, h2⟩) (freeDom_none _ _ _ (by decide) fun i h1 h2 => hi i h1 (by omega))
  · intro j hj
    constructor
    · rw [Traps, execDjoin_ok hx, hj]
      rfl
    · rw [Traps, execDleave_ok d hx rfl, hj]
      rfl
  · intro j
    have hja : (s.me.rs a).setWidth 16 = j := rfl
    clear_value j
    intro hj e g
    have join {v u} (h : s.djoin m j = (v, u)) (hc : u.cur = s.cur) : Asks (.djoin x a d) s u d v :=
      asks_djoin hx (hja ▸ hj) (hja ▸ h) hc
    refine ⟨fun h => join (djoin_no_ord h) rfl, fun hm hk h => join (djoin_dead hm hk h) rfl,
      fun hm hk hl hn => ⟨fun k h0 hf => ?_, fun h0 hf => ?_, fun ix h0 h1 h2 hno hix hc hlow => ?_⟩,
      fun hm hk hl => ⟨fun h0 h => join (djoin_no_join hm hk hl h0 h) rfl, fun h0 h1 => ⟨fun h2 => join (djoin_join_dead hm hk hl h0 h1 h2) rfl,
        fun h2 => ⟨fun ix hix h => ?_, fun hno h => ?_⟩⟩, fun h0 h => ?_⟩,
      asks_dleave_no_join d hx hja hj, asks_dleave_dead d hx hja hj, fun hk hl h => asks_dleave_no_member d hx hja hj hk hl (ixIn_none h),
      fun ix hk hl h => ?_⟩
    · subst h0
      have hkm : k ≠ m := by rintro rfl; exact absurd (hf.2.2.1.symm.trans hl) (by decide)
      have hd := djoin_new hm hk hl
      rw [if_neg (not_le.2 hn), show s.freeJoin = some k from freeDom_lowest _ _ _ _ (by decide) hf] at hd
      have hz := State.dom_setDom_same s k (newDom (s.dom m).inst .join s.myCtx)
      have h0 : lowClear ((s.setDom k (newDom (s.dom m).inst .join s.myCtx)).dom k).mem = some 0 := by
        rw [hz]
        exact lowClear_new ..
      have hlt : ¬ ((s.setDom k (newDom (s.dom m).inst .join s.myCtx)).dom k).inst < (s.dom m).inst := by
        rw [hz]
        exact BitVec.lt_irrefl _
      have ho := OnlyHub_trans (OnlyHub_setDom s k (newDom (s.dom m).inst .join s.myCtx)) (enterJoin_onlyHub (m := m) hlt)
      refine ⟨_, join (hd.trans (enterJoin_result h0 (by decide))) (OnlyHub_cur ho), ho, fun q => ?_⟩
      rw [enterJoin_dom h0 hkm, hz, dom_setDom]
      by_cases hq : q = k
      · rw [if_pos hq, if_pos hq]
        simp [newDom, DEnt.zero]
        rfl
      · rw [if_neg hq, if_neg hq, if_neg hq]
    · subst h0
      refine join ?_ rfl
      rw [djoin_new hm hk hl, if_neg (not_le.2 hn), show s.freeJoin = none from freeDom_none _ _ _ (by decide) fun i h1 _ => hf i h1]
    · have hjm : j ≠ m := by rintro rfl; exact absurd (h1.symm.trans hk) (by decide)
      have hx := lowClear_eq _ ix hix hc hlow
      have hd := djoin_join_live hm hk hl h0 h1 h2
      rw [ixIn_none hno] at hd
      dsimp only at hd
      rw [show lowClear (s.dom j).mem = some ix from hx, if_neg (by rintro (h | h); exacts [not_le.2 hn h, absurd h (by simp)])] at hd
      refine ⟨_, join (hd.trans (enterJoin_result hx hix)) (OnlyDoms_cur (enterJoin_only ..)), enterJoin_only .., ?_, ?_, ?_⟩
      · rw [enterJoin_dom hx hjm, if_neg hjm.symm, if_pos rfl]
      · rw [enterJoin_dom hx hjm, if_pos rfl]
      · rw [enterJoin_dom hx hjm, if_pos rfl]
        simp only [BitVec.lt_def]
        rfl
    · refine join ?_ rfl
      rw [djoin_join_live hm hk hl h0 h1 h2, h]
      dsimp only
      rw [dResult_eq false j (by decide) hix]
      rfl
    · refine join ?_ rfl
      rw [djoin_join_live hm hk hl h0 h1 h2, ixIn_none hno]
      dsimp only
      rw [if_pos]
      rcases h with h | h
      · exact .inl h
      · exact .inr (by rw [show (s.dom j).mem = _ from h, lowClear_allOnes]; rfl)
    · subst h0
      refine join ?_ rfl
      rw [djoin_new hm hk hl, if_pos h]
    · intro mem
      have he := execDleave_member d hx hja hj hk hl h
      refine ⟨fun hne => ?_, fun hz => ?_⟩
      · obtain ⟨hst, hmem, hjl⟩ := unjoin_other (m := m) hne
        have ho := OnlyDoms_unjoin s m j ix
        rw [hst, if_neg (by rw [hl]; decide)] at he
        exact ⟨_, reply_asks _ s _ d _ (OnlyDoms_cur ho) he, ho, hmem, hjl⟩
      · obtain ⟨ho, hst⟩ := unjoin_last (m := m) hz
        rw [if_pos hst] at he
        exact ⟨_, asksHold _ s _ _ (OnlyHub_cur ho) he, ho, hst⟩

end Sys2Proof.Machine
end

section
/-! The use of domains, what the expiry unit does by itself, and the replies of services (08 R139, R143, R144, R147, R150, R154 to R157). -/

namespace Sys2Proof.Machine

/-! `dannul`, `dwhen` and `dmask`. -/

section
variable {s : State} {x : DmR} {m : Dom} (a d : Reg) (hx : s.dmr x = (m, true))
include hx

theorem execDannul_ok : exec (.dannul x d) s = .next (
    if m = 0#16 then s.reply d (dResult 4 false 0 0#16)
    else if (s.dom m).st ≠ .live then s.reply d (dResult 3 false 0 0#16)
    else (s.annulAny m).sHold (.acks d (dResult 0 false 0 m) m) 1 1) := by
  show execDannul x d s = _
  rw [execDannul, withDom_ok hx]

theorem execDwhen_ok : exec (.dwhen x a d) s = .next (
    if m = 0#16 then s.reply d 0xFFFFFFFFFFFFFFFF#64
    else State.sHold (if a ≠ 0#5 ∧ (s.dom m).st = .live ∧ s.extends m (s.me.rs a) then
        match (s.dom m).kind with
        | .ord => s.extend m (s.me.rs a)
        | .shOrd => s.send (s.dom m).hdev.toNat (.extendReq (s.dom m).hid (s.me.rs a)) DTag.imm (s.dom m).ctx nCores 0#16
        | _ => s
      else s) (.inst d m) 1 1) := by
  show execDwhen x a d s = _
  rw [execDwhen, withDom_ok hx] <;> rfl

theorem execDmask_ok : exec (.dmask x a d) s = .next (
    if (s.dom m).st = .live ∧ (s.dom m).kind = .shJoin ∧ ! (s.dom m).hasMask then
      (s.fresh).sWait (.mask m ((s.me.rs a).setWidth 2) d) 1 1 (Config.maskVal s.nextId)
    else s.reply d (s.maskOf m ((s.me.rs a).setWidth 2))) := by
  show execDmask x a d s = _
  rw [execDmask, withDom_ok hx]

end

theorem OnlyDoms_annulAny (s : State) (m : Dom) : s.OnlyDoms (s.annulAny m) := by
  unfold State.annulAny
  refine OnlyDoms_trans ?_ (OnlyDoms_annul ..)
  split
  · exact OnlyHub.doms (OnlyHub_send ..)
  · exact OnlyDoms_refl s

theorem annulAny_self (s : State) (m : Dom) : ((s.annulAny m).dom m).st = .annulled ∧ ((s.annulAny m).dom m).acks = endpoints :=
  dom_annul_self _ m

/-- Following the other joins leaves the instant of the domain itself. -/
theorem extend_inst {s : State} {m : Dom} {t : Word} (h : ∀ q ∈ (s.dom m).jl, q.1 ≠ m) : ((s.extend m t).dom m).inst = t := by
  have keeps : ∀ (l : List (Dom × Nat)) (u : State), (∀ q ∈ l, q.1 ≠ m) → (u.dom m).inst = t →
      ((l.foldl (fun (s : State) q => s.setInst q.1 (s.joinInst q.1 0#64)) u).dom m).inst = t := by
    intro l
    induction l with
    | nil => exact fun u _ hu => hu
    | cons q l ih =>
      intro u hq hu
      refine ih _ (fun r hr => hq r (List.mem_cons_of_mem _ hr)) ?_
      rw [dom_setInst, if_neg (hq q List.mem_cons_self).symm]
      exact hu
  have hi : (s.setInst m t).dom m = { s.dom m with inst := t } := by rw [dom_setInst, if_pos rfl]
  exact keeps _ _ (by rw [hi]; exact h) (by rw [hi])

theorem extends_iff (s : State) (m : Dom) (t : Word) :
    s.extends m t = true ↔ (s.dom m).inst.toNat < t.toNat ∧ t.toNat < s.now % 2 ^ 64 + 2 ^ 47 := by
  simp [State.extends, BitVec.lt_def]

theorem maskOf_dead {s : State} {m : Dom} (q : BitVec 2) (h0 : m ≠ 0#16) (h : (s.dom m).st ≠ .live) : s.maskOf m q = 0#64 :=
  if_pos ⟨h0, h⟩

theorem maskOf_join {s : State} {m : Dom} (q : BitVec 2) (hl : (s.dom m).st = .live) (h : (s.dom m).kind = .join ∨ (s.dom m).kind = .shJoin) :
    s.maskOf m q = BitVec.ofNat 64 ((s.dom m).mem.toNat / 2 ^ (64 * q.toNat)) := by
  unfold State.maskOf
  simp only [hl, ne_eq, not_true_eq_false, and_false, if_false, if_pos h]
  apply BitVec.eq_of_toNat_eq
  rw [BitVec.extractLsb'_toNat, BitVec.toNat_ofNat, Nat.shiftRight_eq_div_pow]

theorem maskOf_ord {s : State} {m : Dom} (q : BitVec 2) (hl : (s.dom m).st = .live) (h : (s.dom m).kind = .ord ∨ (s.dom m).kind = .shOrd) :
    s.maskOf m q = if q = 0#2 then 1#64 else 0#64 := by
  unfold State.maskOf
  rcases h with h | h <;> simp [hl, h]

/-- A join, or a shadow of one with its mask, is read at once (08 R156). -/
theorem asks_dmask {s : State} {x : DmR} {m : Dom} (a d : Reg) (hx : s.dmr x = (m, true))
    (h : (s.dom m).st ≠ .live ∨ (s.dom m).kind ≠ .shJoin ∨ (s.dom m).hasMask = true) :
    Asks (.dmask x a d) s s d (s.maskOf m ((s.me.rs a).setWidth 2)) := by
  refine reply_asks _ s s d _ rfl ?_
  rw [execDmask_ok a d hx, if_neg]
  rintro ⟨h1, h2, h3⟩
  rcases h with h | h | h
  · exact h h1
  · exact h h2
  · simp [h] at h3

theorem execEnq_bad {s : State} {x : DmR} {m : Dom} (d : Reg) (hx : s.dmr x = (m, false)) :
    exec (.enq x d) s = .next (s.sTrap 0x08#8 (m.setWidth 64)) := by
  show execEnq x d s = _
  unfold execEnq
  rw [hx]
  rfl

/-- Settles O13. -/
theorem domainUse : Obligations.DomainUse := by
  intro s x a d m e t
  refine ⟨fun hx => ⟨⟨fun h0 => ?_, fun h0 hl => ?_, fun h0 hl => ?_⟩, ⟨fun h0 => ?_, fun h0 h => ?_, fun h0 ha hl hk h1 h2 hj => ?_⟩,
    fun h0 => ?_⟩, fun hx => ?_⟩
  · refine reply_asks _ s s d _ rfl ?_
    rw [execDannul_ok d hx, if_pos h0, dResult_eq false _ (by decide) (by decide)]
    rfl
  · refine reply_asks _ s s d _ rfl ?_
    rw [execDannul_ok d hx, if_neg h0, if_pos hl, dResult_eq false _ (by decide) (by decide)]
    rfl
  · have he := execDannul_ok d hx
    rw [if_neg h0, if_neg (not_not.2 hl), dResult_eq false _ (by decide) (by decide)] at he
    have ho := OnlyDoms_annulAny s m
    exact ⟨_, asksHold _ s _ _ (OnlyDoms_cur ho) he, ho, annulAny_self s m⟩
  · refine reply_asks _ s s d _ rfl ?_
    rw [execDwhen_ok a d hx, if_pos h0]
    rfl
  · have he := execDwhen_ok a d hx
    rw [if_neg h0, if_neg (by rintro ⟨h1, h2, -⟩; exact h.elim h1 fun h => h h2)] at he
    exact asksHold _ s s _ rfl he
  · have he := execDwhen_ok a d hx
    rw [if_neg h0, if_pos ⟨ha, hl, (extends_iff ..).2 ⟨h1, h2⟩⟩, show (s.dom m).kind = .ord from hk] at he
    have ho := OnlyDoms_extend s m t
    exact ⟨_, asksHold _ s _ _ (OnlyDoms_cur ho) he, ho, extend_inst hj⟩
  · intro q
    have hq : ((s.me.rs a).setWidth 2 : BitVec 2).toNat = q := by rw [BitVec.toNat_setWidth]
    refine ⟨fun hl => ?_, fun hl hk => ?_, fun hl hk => ?_⟩
    · have := asks_dmask a d hx (.inl hl)
      rwa [maskOf_dead _ h0 hl] at this
    · have := asks_dmask a d hx (.inr (hk.imp (fun h h' => absurd (h.symm.trans h') (by decide)) And.right))
      rwa [maskOf_join _ hl (hk.imp id And.left), hq] at this
    · have := asks_dmask a d hx (.inr (.inl fun h => hk.elim (fun h' => absurd (h.symm.trans h') (by decide)) fun h' => absurd (h.symm.trans h') (by decide)))
      rw [maskOf_ord _ hl hk] at this
      rw [← hq]
      simpa [← BitVec.toNat_inj] using this
  · intro v
    have hv : (m.setWidth 64 : Word) = v := (BitVec.ofNat_toNat 64 m).symm
    rw [← hv]
    refine ⟨?_, ?_, ?_, ?_, ?_, execEnq_bad d hx⟩
    · show execDjoin x a d s = _
      exact withDom_bad hx _
    · show execDleave x a d s = _
      exact withDom_bad hx _
    · show execDannul x d s = _
      exact withDom_bad hx _
    · show execDwhen x a d s = _
      exact withDom_bad hx _
    · show execDmask x a d s = _
      exact withDom_bad hx _

end Sys2Proof.Machine
end

section
/-! What leaves the table of domains as it is, the events of the expiry unit, and the replies of services (08 R143, R144, R147, R150,
R154 to R157). -/

namespace Sys2Proof.Machine

/-! The table of domains under the operations of a purge. -/

section
variable (s : State)

theorem doms_foldl {α : Type} {f : State → α → State} (h : ∀ s a, (f s a).hub.doms = s.hub.doms) (l : List α) :
    (l.foldl f s).hub.doms = s.hub.doms := by
  induction l generalizing s with
  | nil => rfl
  | cons a l ih => rw [List.foldl_cons, ih, h]

@[simp] theorem doms_trace (c : Nat) (k : BitVec 8) (a b d : Word) : (s.trace c k a b d).hub.doms = s.hub.doms := by
  rw [(s.trace_spec c k a b d).1.hub]

@[simp] theorem doms_updIn (c : Nat) (x : Ctx) (f : Core → Core) : (s.updIn c x f).hub.doms = s.hub.doms := by
  unfold State.updIn
  split <;> rfl

@[simp] theorem doms_reclaim (b : Nat) : (s.reclaim b).hub.doms = s.hub.doms := by
  unfold State.reclaim
  split
  · rfl
  · dsimp only
    split <;> rfl

@[simp] theorem doms_unask (c : Nat) : (s.unask c).hub.doms = s.hub.doms := by
  unfold State.unask
  split
  · split
    · split
      · rfl
      · split <;> rfl
    · rfl
  · rfl

@[simp] theorem doms_disown (t : TaskRef) : (s.disown t).hub.doms = s.hub.doms := by
  unfold State.disown
  split <;> rfl

@[simp] theorem doms_accumulate (c : Nat) (a : Act) : (s.accumulate c a).hub.doms = s.hub.doms := rfl

@[simp] theorem doms_departs (w : Who) (ann : Bool) (l : List (Nat × Nat)) : (s.departs w ann l).hub.doms = s.hub.doms := by
  refine doms_foldl s (fun s p => ?_) l
  dsimp only
  split
  · rfl
  · split
    · exact doms_updIn ..
    · rfl

@[simp] theorem doms_depart (c : Nat) (ann : Bool) : (s.depart c ann).hub.doms = s.hub.doms := doms_departs ..

@[simp] theorem doms_endAct (c : Nat) (ann keep : Bool) (how : Word) (next : SStat) : (s.endAct c ann keep how next).hub.doms = s.hub.doms := by
  rw [← doms_unask s c]
  unfold State.endAct
  generalize s.unask c = u
  dsimp only
  cases (u.core c).act with
  | none => rfl
  | some a =>
    have htr (t : State) (m : Word) : (((t.accumulate c a).trace c 2#8 m 0#64 how).disown a.task).hub.doms = t.hub.doms := by
      rw [doms_disown, doms_trace, doms_accumulate]
    dsimp only
    cases a.bind with
    | none => exact (htr _ _).trans (doms_depart ..)
    | some b => exact (doms_reclaim ..).trans ((htr _ _).trans (doms_depart ..))

@[simp] theorem doms_stopAct (c : Nat) : (s.stopAct c).hub.doms = s.hub.doms := by
  unfold State.stopAct
  rw [doms_endAct]
  rfl

@[simp] theorem doms_sendSig (c : Nat) (x : Ctx) (g : Word) (ann : Bool) (j : Nat) : (s.sendSig c x g ann j).hub.doms = s.hub.doms := by
  unfold State.sendSig
  split <;> rfl

@[simp] theorem doms_armedOff (c : Nat) (d : Dom) (l : List Armed) : (s.armedOff c d l).hub.doms = s.hub.doms := by
  refine doms_foldl s (fun s a => ?_) l
  dsimp only
  split
  · rfl
  · split <;> split <;> simp

@[simp] theorem doms_logImage (c : Nat) (x : Ctx) (n i : Nat) : (s.logImage c x n i).hub.doms = s.hub.doms := by
  unfold State.logImage
  split <;> rfl

@[simp] theorem doms_toLog (c : Nat) (k : Pkt) : (s.toLog c k).hub.doms = s.hub.doms := by
  unfold State.toLog
  exact doms_logImage ..

@[simp] theorem doms_toSlice (c : Nat) (x : Ctx) (a : Arr) : (s.toSlice c x a).hub.doms = s.hub.doms := by
  unfold State.toSlice
  split
  · split
    · rfl
    · cases a
      case tile => rfl
      all_goals exact doms_toLog ..
  · rfl

@[simp] theorem doms_ripPkt (c : Nat) (x : Ctx) (e : RipEnt) (q : BitVec 16) (m p : Bool) (l : Tab (BitVec 48)) :
    (s.ripPkt c x e q m p l).hub.doms = s.hub.doms := by
  unfold State.ripPkt
  split
  · exact doms_toSlice ..
  · rfl

@[simp] theorem doms_ripGo (c : Nat) (x : Ctx) (o : Slice) (t : AReg) (n : Nat) (m p : Bool) (l : Tab (BitVec 48)) :
    (s.ripGo c x o t n m p l).hub.doms = s.hub.doms := by
  unfold State.ripGo
  refine doms_foldl _ (fun s a => ?_) _
  split
  · exact doms_ripPkt ..
  · rfl

@[simp] theorem doms_closeExpired (c : Nat) : (s.closeExpired c).hub.doms = s.hub.doms := by
  unfold State.closeExpired
  refine doms_foldl _ (fun s a => ?_) _
  dsimp only
  split
  · exact doms_ripGo ..
  · rfl

@[simp] theorem doms_closeSaved (c : Nat) (x : Ctx) : (s.closeSaved c x).hub.doms = s.hub.doms := by
  unfold State.closeSaved
  refine doms_foldl _ (fun s a => ?_) _
  dsimp only
  split
  · rfl
  · split
    · rw [doms_ripGo, doms_updIn]
    · rfl

@[simp] theorem doms_dropNote (k : Pkt) : (s.dropNote k).hub.doms = s.hub.doms := by
  unfold State.dropNote
  split
  · rfl
  · split
    · rfl
    · exact doms_updIn ..

@[simp] theorem doms_closeHdl (i : Nat) : (s.closeHdl i).hub.doms = s.hub.doms := by
  unfold State.closeHdl
  split
  · split
    · exact doms_reclaim ..
    · rfl
  · rfl

theorem doms_purgeCore (c : Nat) (d : Dom) : (s.purgeCore c d).hub.doms = s.hub.doms := by
  have saves (u : State) : (u.hub.saves.foldl (fun (s : State) p => if p.1 % 4096 = c then s.closeSaved c p.2.ctx else s) u).hub.doms =
      u.hub.doms := by
    refine doms_foldl u (fun s p => ?_) _
    split
    · exact doms_closeSaved ..
    · rfl
  unfold State.purgeCore
  dsimp only
  split
  · split
    · rw [saves, doms_closeExpired]
      exact doms_armedOff ..
    · rw [doms_stopAct, saves, doms_closeExpired]
      exact doms_armedOff ..
  · rw [saves, doms_closeExpired]
    exact doms_armedOff ..

@[simp] theorem doms_purgeSave (d : Dom) (x : Ctx) (c : Nat) : (s.purgeSave d x c).hub.doms = s.hub.doms := by
  unfold State.purgeSave
  split
  · rfl
  · next v _ =>
    have drops (l : List Pkt) (u : State) : (l.foldl (fun (s : State) k => s.dropNote k) u).hub.doms = u.hub.doms :=
      doms_foldl u (fun s k => doms_dropNote s k) l
    dsimp only
    split
    · split
      · simp [drops]
      · simp [drops]
    · simp [drops]

theorem doms_purgeHub (d : Dom) : (s.purgeHub d).hub.doms = s.hub.doms := by
  have hrec : (s.purgeRecs d).hub.doms = s.hub.doms := by
    unfold State.purgeRecs
    refine doms_foldl _ (fun s p => ?_) _
    rfl
  have hring : ((s.purgeRecs d).purgeRings d).hub.doms = (s.purgeRecs d).hub.doms := by
    unfold State.purgeRings
    refine doms_foldl _ (fun s p => ?_) _
    split
    · split <;> rfl
    · rfl
  have hsave (u : State) : (u.hub.saves.foldl (fun (s : State) p => s.purgeSave d p.2.ctx (p.1 % 4096)) u).hub.doms = u.hub.doms :=
    doms_foldl u (fun s p => doms_purgeSave ..) _
  have hhdl (u : State) : (u.hub.hdls.foldl (fun (s : State) p =>
      match p.2.own with
      | some (_, k, _) => if k = d then s.closeHdl p.1 else s
      | none => s) u).hub.doms = u.hub.doms := by
    refine doms_foldl u (fun s p => ?_) _
    split
    · split
      · exact doms_closeHdl ..
      · rfl
    · rfl
  unfold State.purgeHub
  dsimp only
  rw [hsave]
  refine (hhdl _).trans ?_
  exact hring.trans hrec

theorem doms_purgeEp (ep : Nat) (d : Dom) : (s.purgeEp ep d).hub.doms = s.hub.doms := by
  unfold State.purgeEp
  split
  · exact doms_purgeHub s d
  · split
    · exact doms_purgeCore s ep d
    · split <;> rfl

end

/-! The caches of domains. -/

theorem fillDom_key (s : State) (ep : Nat) (d : Dom) :
    tGet (s.fillDom ep d).hub.dcache (dcKey ep d) = some ⟨(s.dom d).st, (s.dom d).kind, (s.dom d).inst⟩ := tGet_tPut_same _ _ _

theorem followInst_hub (s : State) (ep : Nat) (d : Dom) :
    (s.followInst ep d).hub = s.hub ∧ (s.followInst ep d).mem = s.mem ∧ (s.followInst ep d).net = s.net := by
  unfold State.followInst
  split <;> exact ⟨rfl, rfl, rfl⟩

theorem tGet_filter_none {α : Type} (t : Tab α) (k : Nat) (f : Nat × α → Bool) (h : ∀ v, f (k, v) = false) : tGet (t.filter f) k = none := by
  refine tGet_none _ _ fun p hp hk => ?_
  obtain ⟨-, hf⟩ := List.mem_filter.1 hp
  obtain ⟨j, v⟩ := p
  subst hk
  simp [h v] at hf

/-- The entry that an endpoint's cache takes is followed there (08 R139, R143). -/
theorem filled (s : State) (ep : Nat) (d : Dom) : let t := (s.fillDom ep d).followInst ep d
    tGet t.hub.dcache (ep * 65536 + d.toNat) = some ⟨(s.dom d).st, (s.dom d).kind, (s.dom d).inst⟩ ∧ t.mem = s.mem ∧ t.net = s.net := by
  obtain ⟨h1, h2, h3⟩ := followInst_hub (s.fillDom ep d) ep d
  intro t
  exact ⟨(congrArg (fun h : Hub => tGet h.dcache (dcKey ep d)) h1).trans (fillDom_key s ep d), h2, h3⟩

/-! The events. -/

theorem execDomainExpiry_due {s : State} {d : Dom} (h0 : d ≠ 0#16) (hl : (s.dom d).st = .live) (hk : (s.dom d).kind = .ord ∨ (s.dom d).kind = .shOrd)
    (hi : (s.dom d).inst.toNat ≤ s.now % 2 ^ 64) : exec (.domainExpiry d) s = .next (s.annul d) := by
  have : (s.dom d).inst ≤ s.nowW := by rw [BitVec.le_def, State.nowW, BitVec.toNat_ofNat]; exact hi
  show execDomainExpiry d s = _
  rw [execDomainExpiry, if_pos ⟨h0, hl, hk, this⟩]

theorem execAnnulmentNotice_due {s : State} {ep : Nat} {d : Dom} (hs : (s.dom d).st = .annulled) (he : ep ∈ (s.dom d).acks) :
    exec (.annulmentNotice ep d) s = .next (((s.fillDom ep d).purgeEp ep d).setDom d
      { ((s.fillDom ep d).purgeEp ep d).dom d with acks := (((s.fillDom ep d).purgeEp ep d).dom d).acks.erase ep }) := by
  show execAnnulmentNotice ep d s = _
  rw [execAnnulmentNotice, if_pos ⟨hs, List.contains_iff_mem.2 he⟩]

theorem execDomainIdFree_due {s : State} {d : Dom} (h1 : (s.dom d).st = .annulled) (h2 : (s.dom d).annAt + 1200000 ≤ s.cyc)
    (h3 : (s.dom d).acks = []) (h4 : (s.dom d).peerAcks = []) (h5 : s.carried d = false) : exec (.domainIdFree d) s = .next (
      s.updHub fun h => { h with doms := tDel h.doms d.toNat, dcache := h.dcache.filter fun p => p.1 % 65536 != d.toNat }) := by
  show execDomainIdFree d s = _
  rw [execDomainIdFree, if_pos ⟨h1, h2, h3, h4, by rw [h5]; rfl⟩]

/-- Settles O14: a purge leaves the table of domains as it is, so an acknowledgement takes the endpoint off the list that stood there. -/
theorem domainEvents : Obligations.DomainEvents := by
  intro s d e
  refine ⟨fun h0 hl hk hi => ⟨_, execDomainExpiry_due h0 hl hk hi, OnlyDoms_annul s d, dom_annul_self s d⟩, fun ep _ hs he => ?_,
    fun dev hs hd => ?_, fun h1 h2 h3 h4 h5 => ⟨_, execDomainIdFree_due h1 h2 h3 h4 h5, OnlyHub_updHub .., rfl, fun ep => ?_⟩,
    fun ep he h0 => ⟨fun h => ?_, fun h => ?_⟩⟩
  · refine ⟨_, execAnnulmentNotice_due hs he, ?_⟩
    have hp : ((s.fillDom ep d).purgeEp ep d).dom d = s.dom d := by
      unfold State.dom
      rw [doms_purgeEp]
      rfl
    rw [State.dom_setDom_same, hp]
  · refine ⟨s.send dev (.annulNotice d) DTag.imm e.ctx nCores 0#16, _, ?_, OnlyHub_send .., rfl, rfl, rfl, rfl, rfl⟩
    show execPeerNoticeResend d dev s = _
    rw [execPeerNoticeResend, if_pos ⟨hs, List.contains_iff_mem.2 hd⟩]
  · exact tGet_filter_none _ _ _ fun v => by have := d.isLt; simp; omega
  · refine ⟨_, ?_, filled s ep d⟩
    show execDomainCacheFill ep d s = _
    rw [execDomainCacheFill, if_neg]
    rintro (h1 | h1 | h1)
    · omega
    · exact h0 h1
    · rw [dcKey, h] at h1
      cases h1
  · refine ⟨_, ?_, filled s ep d⟩
    show execDomainCacheUpdate ep d s = _
    rw [execDomainCacheUpdate, if_pos (show (tGet s.hub.dcache (dcKey ep d)).isSome = true from Option.isSome_iff_ne_none.2 h)]

/-! Replies. -/

/-- What `SERVICE_REPLY` does on a core that is not halted and waits for `w`. -/
def State.served (s : State) (c n k : Nat) : SWait → State
  | .service rd v => s.wake c n k fun x => x.ws rd v
  | .inst rd d => s.wake c n k fun x => x.ws rd (s.dom d).inst
  | .acks rd v d => if (s.dom d).acks.isEmpty then s.wake c n k fun x => x.ws rd v else s
  | .mask d q rd => if (s.dom d).st = .live ∧ (s.dom d).kind = .shJoin ∧ ! (s.dom d).hasMask then s
      else s.wake c n k fun x => x.ws rd (s.maskOf d q)
  | _ => s

theorem execServiceReply_wait {s : State} {c n k : Nat} {w : SWait} (hh : (s.core c).dbg.halted = false) (hs : (s.core c).stat = .wait w n k) :
    exec (.serviceReply c) s = .next (s.served c n k w) := by
  show execServiceReply c s = _
  rw [execServiceReply, if_neg (by simp [hh]), hs]
  cases w <;> rfl

/-- Settles O15. -/
theorem serviceReply : Obligations.ServiceReply := by
  intro s c n k rd hh
  refine ⟨fun v hs => ?_, fun d hs => ?_, fun v d hs => ⟨fun ha => ?_, fun ha => ?_⟩, fun d q hs hm => ?_⟩
  · refine wake_wakes _ s c n k _ (dbgBlind_ws rd v) ?_
    rw [execServiceReply_wait hh hs, State.served]
  · refine wake_wakes _ s c n k _ (dbgBlind_ws rd _) ?_
    rw [execServiceReply_wait hh hs, State.served]
  · refine wake_wakes _ s c n k _ (dbgBlind_ws rd _) ?_
    rw [execServiceReply_wait hh hs, State.served, if_pos (List.isEmpty_iff.2 ha)]
  · rw [execServiceReply_wait hh hs, State.served, if_neg (mt List.isEmpty_iff.1 ha)]
  · refine wake_wakes _ s c n k _ (dbgBlind_ws rd _) ?_
    rw [execServiceReply_wait hh hs, State.served, if_neg (by simp [hm])]

end Sys2Proof.Machine
end

section
/-! `send` and `sendi` (07 R127, R131, R116), `defer`, `breg`, `barr`, and the arrivals on barrier objects (07 R130, R133, R134). -/

namespace Sys2Proof.Machine

/-! Sending. -/

section
variable {s : State} {a : Reg}

/-- A word that names a destination (07 R127). -/
def goodDest (inl : Bool) (d : Word) : Prop :=
  d.toNat / 2 ^ 48 = 0 ∧ d.toNat / 2 ^ 12 % 2 ^ 14 = 0 ∧ d.toNat / 2 ^ 40 % 2 ^ 8 ≤ 191 ∧ (inl = false → d.toNat % 2 ^ 12 ≤ 255)

theorem badDest_iff (inl : Bool) (d : Word) :
    (bits d 63 48 ≠ 0 ∨ bits d 25 12 ≠ 0 ∨ bits d 47 40 > 191 ∨ (! inl ∧ bits d 11 0 > 255)) ↔ ¬ goodDest inl d := by
  have := d.isLt
  unfold goodDest bits
  cases inl <;> simp <;> omega

theorem sendMsg_bad {inl : Bool} {m : Dm} {b : Reg} (h : ¬ goodDest inl (s.me.rs a)) :
    sendMsg inl m b a s = .next (s.sTrap 0x06#8 (s.me.rs a)) := by
  unfold sendMsg
  dsimp only
  rw [if_pos ((badDest_iff _ _).2 h)]

theorem sendMsg_full {inl : Bool} {m : Dm} {b : Reg} (h : goodDest inl (s.me.rs a)) (hf : 8 ≤ s.me.outb.length) :
    sendMsg inl m b a s = .next (s.sStall (s.me.rs a)) := by
  unfold sendMsg
  dsimp only
  rw [if_neg (mt (badDest_iff _ _).1 (not_not.2 h)), if_pos hf]

/-- The entry that a send appends. -/
def State.sentEntry (s : State) (inl : Bool) (m : Dm) (b a : Reg) : OutEnt :=
  let x := s.me
  let d := x.rs a
  let stag : BitVec 16 := (x.rs b).setWidth 16
  let dom := s.dm m
  ⟨bits d 47 40, bits d 39 28, d.extractLsb' 26 2,
    ⟨d.extractLsb' 0 12, inl, dom.ext, x.c.txc, dom.id, dom.inst, BitVec.ofNat 32 s.cyc, BitVec.ofNat 12 s.cur, s.hub.dev, stag,
      (x.takeSeq stag s.nextId).1, x.rs 12#5, x.rs 8#5, x.rs 9#5, x.rs 10#5, x.rs 11#5⟩,
    (s.who s.cur false).ctx, s.nextId, x.sAfter⟩

theorem sendMsg_room {inl : Bool} {m : Dm} {b : Reg} (h : goodDest inl (s.me.rs a)) (hf : s.me.outb.length < 8) :
    sendMsg inl m b a s = .next (s.fresh.sDone 1 1 fun c =>
      { (c.takeSeq ((s.me.rs b).setWidth 16) s.nextId).2 with
        outb := (c.takeSeq ((s.me.rs b).setWidth 16) s.nextId).2.outb ++ [s.sentEntry inl m b a] }) := by
  unfold sendMsg
  dsimp only
  rw [if_neg (mt (badDest_iff _ _).1 (not_not.2 h)), if_neg (by omega)]
  rfl

theorem dbgBlind_takeSeq (g : BitVec 16) (n : Nat) (e : OutEnt) :
    DbgBlind fun c => { (c.takeSeq g n).2 with outb := (c.takeSeq g n).2.outb ++ [e] } := by
  intro x d
  unfold Core.takeSeq
  split <;> rfl

theorem takeSeq_core (c : Core) (g : BitVec 16) (n : Nat) (e : OutEnt) :
    { (c.takeSeq g n).2 with outb := (c.takeSeq g n).2.outb ++ [e] } =
      { c with outb := c.outb ++ [e], seqs := if g = 0#16 then c.seqs else tPut c.seqs g.toNat ((c.takeSeq g n).1 + 1#16) } := by
  unfold Core.takeSeq
  split <;> rfl

theorem takeSeq_stream {c : Core} {g : BitVec 16} {n : Nat} (h : g ≠ 0#16) : (c.takeSeq g n).1 = (tGet c.seqs g.toNat).getD 0#16 := by
  unfold Core.takeSeq
  rw [if_neg h]

/-- A completion whose effect is another's on the core as it is. -/
theorem Completes_congr {s t : State} {ws cost : Nat} {f g : Core → Core} (h : f s.me = g s.me) (hf : s.Completes t ws cost f) :
    s.Completes t ws cost g := by
  obtain ⟨h1, h2, h3⟩ := hf
  exact ⟨h1, h2, by rw [h3, h]⟩

theorem sentEntry_core (inl : Bool) (m : Dm) (b a : Reg) (h : (s.me.rs a).toNat / 2 ^ 48 = 0) :
    (s.sentEntry inl m b a).dev = (s.me.rs a).toNat / 2 ^ 40 ∧ (s.sentEntry inl m b a).core = (s.me.rs a).toNat / 2 ^ 28 % 2 ^ 12 ∧
      (s.sentEntry inl m b a).q = BitVec.ofNat 2 ((s.me.rs a).toNat / 2 ^ 26) := by
  refine ⟨?_, ?_, ?_⟩
  · show bits _ _ _ = _
    unfold bits
    omega
  · rfl
  · refine BitVec.eq_of_toNat_eq ?_
    show ((s.me.rs a).extractLsb' 26 2).toNat = _
    rw [BitVec.extractLsb'_toNat, BitVec.toNat_ofNat, Nat.shiftRight_eq_div_pow]

/-- What the claim says of a send that finds room. -/
theorem sendMsg_sent {i : Instr} {inl : Bool} {m : Dm} {b : Reg} (hi : exec i s = sendMsg inl m b a s) (h : goodDest inl (s.me.rs a))
    (hf : s.me.outb.length < 8) : ∃ t, exec i s = .next t ∧
      ({ s with nextId := s.nextId + 1 } : State).Completes t 1 1 fun c =>
        { c with outb := c.outb ++ [s.sentEntry inl m b a]
                 seqs := if ((s.me.rs b).setWidth 16 : BitVec 16) = 0#16 then c.seqs else
                  tPut c.seqs ((s.me.rs b).setWidth 16 : BitVec 16).toNat ((s.me.takeSeq ((s.me.rs b).setWidth 16) s.nextId).1 + 1#16) } := by
  have hc := s.fresh.sDone_spec 1 1 _ (dbgBlind_takeSeq ((s.me.rs b).setWidth 16) s.nextId (s.sentEntry inl m b a))
  exact ⟨_, hi.trans (sendMsg_room h hf), Completes_congr (s := s.fresh) (takeSeq_core s.me _ _ _) hc⟩

end

/-- Settles O16. -/
theorem sendMessage : Obligations.SendMessage := by
  intro s m b a d stag dom ok sent
  have hsent (i : Instr) (inl : Bool) (hi : exec i s = sendMsg inl m b a s) (h : goodDest inl (s.me.rs a)) (hf : s.me.outb.length < 8) :
      sent i inl := by
    obtain ⟨t, h1, h2⟩ := sendMsg_sent hi h hf
    obtain ⟨e1, e2, e3⟩ := sentEntry_core inl m b a h.1
    refine ⟨t, _, _, h1, h2, ?_, takeSeq_stream, ?_⟩
    · rw [e1, e2, e3] <;> rfl
    · have hd : (s.me.rs a).extractLsb' 0 12 = BitVec.ofNat 12 d := BitVec.eq_of_toNat_eq (by simp [BitVec.extractLsb'_toNat, d])
      show (⟨(s.me.rs a).extractLsb' 0 12, _, _, _, _, _, _, _, _, _, _, _, _, _, _, _⟩ : Msg) = _
      rw [hd] <;> rfl
  have good0 : ok ∧ d % 2 ^ 12 ≤ 255 ↔ goodDest false (s.me.rs a) := by
    unfold goodDest
    simp only [ok, d]
    tauto
  have good1 : ok ↔ goodDest true (s.me.rs a) := by
    unfold goodDest
    simp only [ok, d]
    tauto
  refine ⟨fun ho hf => ⟨fun hd => ?_, ?_⟩, fun h => ?_, fun h => ?_, fun ho hf => ⟨fun hd => ?_, ?_⟩⟩
  · exact hsent (.send m b a) false rfl (good0.1 ⟨ho, hd⟩) hf
  · exact hsent (.sendi m b a) true rfl (good1.1 ho) hf
  · exact sendMsg_bad (mt good0.2 h)
  · exact sendMsg_bad (mt good1.2 h)
  · exact sendMsg_full (good0.1 ⟨ho, hd⟩) hf
  · exact sendMsg_full (good1.1 ho) hf

/-! Barrier objects. -/

section
variable {s : State} {a : Reg}

theorem execDefer_goes (h1 : s.me.regsB = []) (h2 : s.me.wbuf = []) :
    exec (.defer a) s = .next ((s.sGo s.me.pc 1 id).updMe fun c => { c with stat := .ending (some (s.me.rs a)) }) := by
  show execDefer a s = _
  rw [execDefer, if_neg (by simp [h1]), Core.wStuck, h2]

theorem regPlace_local (h : (s.me.rs a).toNat % 16 = 0) (h' : (s.me.rs a).toNat < 0x80000) :
    s.regPlace (s.me.rs a) = .inr (s.cur, (s.me.rs a).toNat) := by
  rw [State.regPlace, if_neg (by omega), classify_local _ _ _ h']
  exact if_pos h'

theorem barPlace_local (h : (s.me.rs a).toNat % 16 = 0) (h0 : 0x80 ≤ (s.me.rs a).toNat) (h' : (s.me.rs a).toNat < 0x80000) :
    s.barPlace (s.me.rs a) = .inr (s.cur, (s.me.rs a).toNat) := by
  rw [State.barPlace, if_neg (by omega), State.tagPlace, if_neg (by omega), classify_local _ _ _ h']
  dsimp only
  rw [if_neg (by simp [viaAperture_local _ h']; omega), if_neg (by simp), if_neg (by omega)]

theorem execBreg_local (h : (s.me.rs a).toNat % 16 = 0) (h' : (s.me.rs a).toNat < 0x80000) : exec (.breg a) s = .next (
    if (s.cur, (s.me.rs a).toNat) ∈ s.me.regsB then s.sDone 1 1 id
    else if 4 ≤ s.me.regsB.length then s.sTrap 0x07#8 (s.me.rs a)
    else s.sDone 1 1 fun c => { c with regsB := c.regsB ++ [(s.cur, (s.me.rs a).toNat)] }) := by
  show execBreg a s = _
  rw [execBreg, regPlace_local h h']
  dsimp only
  simp only [List.contains_iff_mem, ge_iff_le]

/-- The arrival that `barr` posts. -/
def State.arrival (s : State) (a : Reg) : PAcc :=
  ⟨s.nextId, false, ⟨s.me.rs a, .sp s.cur (s.me.rs a).toNat, 16, .sp, false⟩, .arrive false false, DTag.imm, true, (s.who s.cur false).task,
    (s.who s.cur false).ctx, (s.who s.cur false).act, s.me.afterOf false, none, 0#5⟩

theorem execBarr_local (hc : s.cur < nCores) (h : (s.me.rs a).toNat % 16 = 0) (h0 : 0x80 ≤ (s.me.rs a).toNat) (h' : (s.me.rs a).toNat < 0x80000) :
    exec (.barr a) s = .next (s.fresh.sDone 1 1 fun c =>
      { c with regsB := c.regsB.filter fun r => r != (s.cur, (s.me.rs a).toNat), acc := c.acc ++ [s.arrival a] }) := by
  show execBarr a s = _
  rw [execBarr, barPlace_local h h0 h']
  dsimp only
  rw [if_neg (by omega)]
  rfl

end

/-! Words of the scratchpad. -/

theorem bytesWord_wordBytes (w : Word) : bytesWord (wordBytes w) = w := by
  unfold bytesWord wordBytes
  rw [leNat_leBytes]
  refine BitVec.eq_of_toNat_eq ?_
  have := w.isLt
  rw [BitVec.toNat_ofNat]
  omega

theorem spWord_read {c : Core} {o : Nat} (h : o + 8 ≤ 0x80000) : c.spWord o = bytesWord (Memory.read c.sp o 8) := by
  rw [Core.spWord, spRead_local c o 8 h]

theorem spWord_spWrite_same (c : Core) {o : Nat} (w : Word) (h : o + 8 ≤ 0x80000) : (c.spWrite o (wordBytes w)).spWord o = w := by
  rw [spWord_read h]
  have := Memory.read_write c.sp o (wordBytes w)
  rw [show (wordBytes w).length = 8 from leBytes_length 8 _] at this
  exact (congrArg bytesWord this).trans (bytesWord_wordBytes w)

theorem spWord_spWrite_other (c : Core) {o p : Nat} (bs : List Byte) (h : p + 8 ≤ 0x80000) (hd : p + 8 ≤ o ∨ o + bs.length ≤ p) :
    (c.spWrite o bs).spWord p = c.spWord p := by
  rw [spWord_read h, spWord_read h]
  refine congrArg bytesWord (Memory.read_congr fun x hx hx' => ?_)
  exact Memory.get_write_outside _ _ _ _ (by omega)

theorem length_wordBytes (w : Word) : (wordBytes w).length = 8 := leBytes_length 8 _

theorem full_setTag (c : Core) (o : Nat) : (c.setTag o true).full o = true := by
  simp [Core.setTag, Core.full, setDel]

/-! The words of an object (07 R133). -/

theorem statusMarks_eq (v : Word) (n d : Bool) :
    (v &&& 0xFFFFFFFFFFFFFFF9#64) ||| (if n then 4#64 else 0#64) ||| (if d then 2#64 else 0#64) =
      BitVec.ofNat 64 (v.toNat / 8 * 8 + (if n then 4 else 0) + (if d then 2 else 0) + v.toNat % 2) := by
  have hm : (0xFFFFFFFFFFFFFFF9#64 : Word) = BitVec.allOnes 61 ++ 1#3 := by decide
  have hn : (if n then 4#64 else 0#64 : Word) = 0#61 ++ (if n then 4#3 else 0#3) := by cases n <;> decide
  have hd : (if d then 2#64 else 0#64 : Word) = 0#61 ++ (if d then 2#3 else 0#3) := by cases d <;> decide
  have hv : v = v.extractLsb' 3 61 ++ v.extractLsb' 0 3 := by
    refine BitVec.eq_of_toNat_eq ?_
    rw [toNat_append_eq, BitVec.extractLsb'_toNat, BitVec.extractLsb'_toNat, Nat.shiftRight_eq_div_pow]
    have := v.isLt
    omega
  have h1 : (v.extractLsb' 3 61).toNat = v.toNat / 8 := by
    rw [BitVec.extractLsb'_toNat, Nat.shiftRight_eq_div_pow]
    have := v.isLt
    omega
  have h0 : v.toNat % 2 = (v.extractLsb' 0 3).toNat % 2 := by
    rw [BitVec.extractLsb'_toNat]
    omega
  have low : ∀ (l : BitVec 3) (n d : Bool), ((l &&& 1#3) ||| (if n then 4#3 else 0#3) ||| (if d then 2#3 else 0#3)).toNat =
      (if n then 4 else 0) + (if d then 2 else 0) + l.toNat % 2 := by decide
  rw [h0, ← h1, hm, hn, hd]
  nth_rw 1 [hv]
  rw [BitVec.and_append, BitVec.or_append, BitVec.or_append]
  refine BitVec.eq_of_toNat_eq ?_
  rw [toNat_append_eq, low, BitVec.toNat_ofNat]
  have e : (v.extractLsb' 3 61 &&& BitVec.allOnes 61 ||| 0#61 ||| 0#61) = v.extractLsb' 3 61 := by
    rw [BitVec.and_allOnes, BitVec.or_zero, BitVec.or_zero]
  have b : (v.extractLsb' 3 61).toNat < 2 ^ 61 := (v.extractLsb' 3 61).isLt
  rw [e]
  have : ∀ x : Bool, (if x then 2 else 0 : Nat) ≤ 2 := by decide
  have : ∀ x : Bool, (if x then 4 else 0 : Nat) ≤ 4 := by decide
  have := this n
  rename_i h2 _
  have := h2 d
  omega

section
variable {c : Core} {off : Nat} {dep ann : Bool}

/-- The departures and annulments of a phase with those of one arrival more, the phase, its count, and what is left of it (07 R133). -/
def Core.bDep (c : Core) (off : Nat) (dep : Bool) : Bool := (c.spWord off).getLsbD 62 || dep
def Core.bAnn (c : Core) (off : Nat) (ann : Bool) : Bool := (c.spWord off).getLsbD 61 || ann
def Core.bInit (c : Core) (off : Nat) : BitVec 24 := (c.spWord off).extractLsb' 32 24
def Core.bLeft (c : Core) (off : Nat) : BitVec 24 := (c.spWord off).extractLsb' 0 24

theorem arrive_more (h1 : 1#24 < c.bLeft off) (h2 : c.bLeft off ≤ c.bInit off) : c.arrive off dep ann none =
    (c.spWrite off (wordBytes (BitVec.ofBool ((c.spWord off).getLsbD 63) ++ BitVec.ofBool (c.bDep off dep) ++ BitVec.ofBool (c.bAnn off ann) ++
      0#5 ++ c.bInit off ++ 0#8 ++ (c.bLeft off - 1#24)))).spWrite (off + 8) (wordBytes (c.spWord (off + 8))) := by
  have e : ¬ (c.bInit off = 0#24 ∨ c.bLeft off = 0#24 ∨ c.bLeft off > c.bInit off) := by bv_omega
  have e' : ¬ c.bLeft off = 1#24 := by bv_omega
  unfold Core.bLeft Core.bInit at e
  unfold Core.bLeft at e'
  unfold Core.arrive
  dsimp only
  rw [if_neg e, if_neg e']
  rfl

theorem arrive_last (h1 : c.bLeft off = 1#24) (h2 : c.bLeft off ≤ c.bInit off) : c.arrive off dep ann none =
    ((c.spWrite off (wordBytes (BitVec.ofBool (! (c.spWord off).getLsbD 63) ++ 0#7 ++ c.bInit off ++ 0#8 ++ c.bInit off))).spWrite (off + 8)
      (wordBytes ((c.spWord (off + 8) &&& 0xFFFFFFFFFFFFFFF9#64) ||| (if c.bAnn off ann then 4#64 else 0#64) |||
        (if c.bDep off dep then 2#64 else 0#64)))).setTag (off + 8) true := by
  have e : ¬ (c.bInit off = 0#24 ∨ c.bLeft off = 0#24 ∨ c.bLeft off > c.bInit off) := by bv_omega
  unfold Core.bLeft Core.bInit at e
  unfold Core.bLeft at h1
  unfold Core.arrive
  dsimp only
  rw [if_neg e, if_pos h1]
  rfl

theorem arrive_unexpected (h : c.bLeft off = 0#24 ∨ c.bInit off < c.bLeft off) :
    c.arrive off dep ann none = c.spWrite (off + 8) (wordBytes (c.spWord (off + 8) ||| 8#64)) := by
  have e : c.bInit off = 0#24 ∨ c.bLeft off = 0#24 ∨ c.bLeft off > c.bInit off := Or.inr h
  unfold Core.bLeft Core.bInit at e
  unfold Core.arrive
  dsimp only
  rw [if_pos e]

theorem bLeft_toNat : (c.bLeft off).toNat = (c.spWord off).toNat % 2 ^ 24 := by
  simp [Core.bLeft, BitVec.extractLsb'_toNat]

theorem bInit_toNat : (c.bInit off).toNat = (c.spWord off).toNat / 2 ^ 32 % 2 ^ 24 := by
  simp [Core.bInit, BitVec.extractLsb'_toNat, Nat.shiftRight_eq_div_pow]

theorem getLsbD_iff (w : Word) (n : Nat) : w.getLsbD n = true ↔ w.toNat / 2 ^ n % 2 = 1 := by
  rw [BitVec.getLsbD, Nat.testBit_eq_decide_div_mod_eq, decide_eq_true_iff]

theorem bDep_iff : c.bDep off dep = true ↔ (c.spWord off).toNat / 2 ^ 62 % 2 = 1 ∨ dep = true := by
  rw [Core.bDep, Bool.or_eq_true, getLsbD_iff]

theorem bAnn_iff : c.bAnn off ann = true ↔ (c.spWord off).toNat / 2 ^ 61 % 2 = 1 ∨ ann = true := by
  rw [Core.bAnn, Bool.or_eq_true, getLsbD_iff]

theorem toNat_phase (w : Word) : (BitVec.ofBool (w.getLsbD 63)).toNat = w.toNat / 2 ^ 63 := by
  have := w.isLt
  have h := getLsbD_iff w 63
  cases hb : w.getLsbD 63
  · rw [hb] at h
    simp at h ⊢
    omega
  · rw [hb] at h
    simp at h ⊢
    omega

end

theorem toNat_ofBool_ite (b : Bool) : (BitVec.ofBool b).toNat = if b = true then 1 else 0 := by cases b <;> rfl

/-- Settles O17. -/
theorem barriers : Obligations.Barriers := by
  refine ⟨fun s a => ?_, fun c off dep ann h16 hoff => ?_⟩
  · refine ⟨fun h1 h2 => ⟨_, s.sGo_spec _ _ _ dbgBlind_id, execDefer_goes h1 h2⟩, fun h => ⟨Config.deferVal s.nextId, ?_⟩, fun h => ⟨?_, ?_⟩,
      fun hc h h' => ⟨fun hm => ?_, fun hm hl => ?_, fun hm hl => ?_, fun h0 => ?_⟩⟩
    · show execDefer a s = _
      rw [execDefer, if_pos (by simpa using h)]
    · show execBreg a s = _
      rw [execBreg, State.regPlace, if_pos h]
    · show execBarr a s = _
      rw [execBarr, State.barPlace, if_pos h]
    · refine does_intro _ _ _ _ _ dbgBlind_id ?_
      rw [execBreg_local h h', if_pos hm]
    · refine does_intro _ _ _ _ _ (fun _ _ => rfl) ?_
      rw [execBreg_local h h', if_neg hm, if_neg (by omega)]
    · show exec _ _ = _
      rw [execBreg_local h h', if_neg hm, if_pos hl]
    · exact ⟨_, s.arrival a, execBarr_local hc h h0 h', rfl, rfl, rfl, s.fresh.sDone_spec 1 1 _ fun _ _ => rfl⟩
  · intro w v left init d n r
    have hl : (c.bLeft off).toNat = left := bLeft_toNat
    have hi : (c.bInit off).toNat = init := bInit_toNat
    have hd : c.bDep off dep = true ↔ d := bDep_iff
    have hn : c.bAnn off ann = true ↔ n := bAnn_iff
    refine ⟨fun h1 h2 => ?_, fun h1 h2 => ?_, fun h => ?_⟩
    · have hr : r = _ := arrive_more (by rw [BitVec.lt_def, hl]; exact h1) (by rw [BitVec.le_def, hl, hi]; exact h2)
      rw [hr]
      refine ⟨?_, spWord_spWrite_same _ _ (by omega), rfl⟩
      rw [spWord_spWrite_other _ _ (by omega) (by omega), spWord_spWrite_same _ _ (by omega)]
      refine BitVec.eq_of_toNat_eq ?_
      have hw : w / 2 ^ 63 ≤ 1 := by have := (c.spWord off).isLt; omega
      have hi' : init < 2 ^ 24 := Nat.mod_lt _ (by decide)
      have hl' : left < 2 ^ 24 := Nat.mod_lt _ (by decide)
      have hs : (c.bLeft off - 1#24).toNat = left - 1 := by
        rw [← hl, BitVec.toNat_sub_of_le (by rw [BitVec.le_def, hl]; exact h1.le)]
        rfl
      have hdt : (BitVec.ofBool (c.bDep off dep)).toNat = if d then 1 else 0 := by simp only [toNat_ofBool_ite, hd]
      have hnt : (BitVec.ofBool (c.bAnn off ann)).toNat = if n then 1 else 0 := by simp only [toNat_ofBool_ite, hn]
      simp only [toNat_append_eq, toNat_phase, hs, hi, hdt, hnt, BitVec.toNat_ofNat]
      by_cases hd' : d <;> by_cases hn' : n <;> simp only [hd', hn', if_true, if_false] <;> omega
    · have hr : r = _ := arrive_last (BitVec.eq_of_toNat_eq (hl.trans h1)) (by rw [BitVec.le_def, hl, hi]; exact h2)
      have h8 (x : Core) : (x.setTag (off + 8) true).spWord = x.spWord := rfl
      rw [hr, h8]
      refine ⟨?_, ?_, full_setTag _ _⟩
      · rw [spWord_spWrite_other _ _ (by omega) (by omega), spWord_spWrite_same _ _ (by omega)]
        refine BitVec.eq_of_toNat_eq ?_
        have hw : w / 2 ^ 63 ≤ 1 := by have := (c.spWord off).isLt; omega
        have hi' : init < 2 ^ 24 := Nat.mod_lt _ (by decide)
        have hph : (BitVec.ofBool (! (c.spWord off).getLsbD 63)).toNat = 1 - w / 2 ^ 63 := by
          have := toNat_phase (c.spWord off)
          cases hb : (c.spWord off).getLsbD 63 <;> rw [hb] at this <;> simp [w] at this ⊢ <;> omega
        simp only [toNat_append_eq, hph, hi, BitVec.toNat_ofNat]
        omega
      · rw [spWord_spWrite_same _ _ (by omega), statusMarks_eq]
        simp only [hd, hn]
        rfl
    · have hr : r = _ := arrive_unexpected (h.imp (fun h => BitVec.eq_of_toNat_eq (hl.trans h)) fun h => by rw [BitVec.lt_def, hl, hi]; exact h)
      rw [hr]
      exact ⟨spWord_spWrite_other _ _ (by omega) (by omega), spWord_spWrite_same _ _ (by omega), rfl⟩

end Sys2Proof.Machine
end

section
/-! `enq` (07 R129). -/

namespace Sys2Proof.Machine

section
variable {s : State} {x : DmR} {d : Reg} {dom : Dom} {l : Nat} {y : Launch} {fps : List (BitVec 128)}

/-- What `enq` refuses in its descriptor (07 R129). -/
def State.enqBad (s : State) (fps : List (BitVec 128)) (n : Nat) : Prop :=
  bits (s.me.rs 8#5) 63 48 ≠ 0 ∨ bits (s.me.rs 8#5) 31 21 ≠ 0 ∨ bits (s.me.rs 8#5) 15 11 ≠ 0 ∨ s.me.rs 15#5 ≠ 0#64 ∨ bits (s.me.rs 8#5) 19 16 > 8 ∨
    (bits (s.me.rs 8#5) 19 16 ≠ 0 ∧ (s.me.rs 9#5).toNat % 16 ≠ 0) ∨ ((s.me.rs 8#5).getLsbD 20 ∧ bits (s.me.rs 8#5) 47 32 ≥ n) ∨ ! fps.all fpOk

/-- The record of a domain that is live. -/
def State.enqRec (s : State) (dom : Dom) (fps : List (BitVec 128)) : Rec :=
  let s8 := s.me.rs 8#5
  ⟨0#64, s8.extractLsb' 0 8, s8.extractLsb' 8 2, s8.getLsbD 10, [s.me.rs 10#5, s.me.rs 11#5, s.me.rs 12#5, s.me.rs 13#5], fps,
    if s8.getLsbD 20 then [bits s8 47 32] else [], s.me.rs 14#5, s.tagOf dom, .waiting, s.cyc, [], false, some (clusterOf s.cur)⟩

/-- The launch has the record behind the others. -/
def State.enqueued (s : State) (l : Nat) (y : Launch) (r : Rec) : State :=
  s.updHub fun h => { h with launches := tPut h.launches l { y with recs := y.recs ++ [r] } }

theorem enqueue_full (hl : s.myLaunch = some l) (hy : tGet s.hub.launches l = some y) (hb : ¬ s.enqBad fps y.recs.length)
    (hk : 64 ≤ s.intake (clusterOf s.cur)) : s.enqueue dom fps = (2#64, s) := by
  unfold State.enqBad at hb
  unfold State.enqueue
  simp only [hl, hy, Option.bind_some, Option.map_some]
  rw [if_neg hb, if_pos (Or.inr hk), highBit, if_pos (by omega)]

theorem enqueue_room (hl : s.myLaunch = some l) (hy : tGet s.hub.launches l = some y) (hb : ¬ s.enqBad fps y.recs.length)
    (hn : y.recs.length < 65536) (hk : s.intake (clusterOf s.cur) < 64) (hd : dom = 0#16 ∨ (s.dom dom).st = .live) :
    s.enqueue dom fps = (BitVec.ofNat 64 (y.recs.length * 2 ^ 32 + 1) ||| highBit (s.intake (clusterOf s.cur) + 1),
      s.enqueued l y (s.enqRec dom fps)) := by
  unfold State.enqBad at hb
  unfold State.enqueue
  simp only [hl, hy, Option.bind_some, Option.map_some]
  rw [if_neg hb, if_neg (by omega)]
  simp only [hd, if_true]
  rfl

theorem execEnq_go (hx : s.dmr x = (dom, true)) (h8 : bits (s.me.rs 8#5) 19 16 ≤ 8)
    (h0 : bits (s.me.rs 8#5) 19 16 = 0 → fps = []) (h1 : bits (s.me.rs 8#5) 19 16 ≠ 0 → (s.me.rs 9#5).toNat % 16 = 0 ∧
      ∃ bs, fps = fpList bs (bits (s.me.rs 8#5) 19 16) ∧ s.readRun (s.who s.cur false) (s.me.rs 9#5) (16 * bits (s.me.rs 8#5) 19 16)
        ((List.range (bits (s.me.rs 8#5) 19 16)).map fun i => (s.me.rs 9#5 + BitVec.ofNat 64 (16 * i), 16)) = .ok bs s) :
    exec (.enq x d) s = .next ((s.enqueue dom fps).2.sHold (.service d (s.enqueue dom fps).1) 1 1) := by
  show execEnq x d s = _
  rw [execEnq, hx]
  dsimp only
  rw [if_neg (by simp)]
  by_cases hz : bits (s.me.rs 8#5) 19 16 = 0
  · rw [if_pos (Or.inl hz), h0 hz]
  · obtain ⟨ha, bs, hf, hr⟩ := h1 hz
    rw [if_neg (by omega), hr, hf]

theorem or_high {n k : Nat} (h : n < 65536) :
    BitVec.ofNat 64 (n * 2 ^ 32 + 1) ||| highBit (k + 1) = BitVec.ofNat 64 (n * 2 ^ 32 + (if 48 ≤ k then 2 else 0) + 1) := by
  unfold highBit
  by_cases hk : 48 ≤ k
  · rw [if_pos (by omega), if_pos hk]
    have h1 : BitVec.ofNat 64 (n * 2 ^ 32 + 1) = BitVec.ofNat 32 n ++ 1#32 := BitVec.eq_of_toNat_eq (by
      rw [toNat_append_eq, BitVec.toNat_ofNat, BitVec.toNat_ofNat, BitVec.toNat_ofNat]; omega)
    rw [h1, show (2#64 : Word) = 0#32 ++ 2#32 by decide, BitVec.or_append, BitVec.or_zero]
    refine BitVec.eq_of_toNat_eq ?_
    rw [toNat_append_eq, BitVec.toNat_ofNat, BitVec.toNat_ofNat, show (1#32 ||| 2#32).toNat = 3 by decide]
    omega
  · rw [if_neg (by omega), if_neg hk, BitVec.or_zero, Nat.add_zero]

end

/-- Settles O18. -/
theorem enqueueTask : Obligations.EnqueueTask := by
  intro s x d dom hx l y hl hy p n nf a w k hd hp48 hp21 hp11 hnf h15 haft hn fps hf0 hf1
  have b1 : bits (s.me.rs 8#5) 19 16 = nf := rfl
  have b2 : bits (s.me.rs 8#5) 63 48 = 0 := by
    show p / 2 ^ 48 % 2 ^ 16 = 0
    omega
  have b3 : bits (s.me.rs 8#5) 47 32 = p / 2 ^ 32 % 2 ^ 16 := rfl
  have b4 : (s.me.rs 8#5).getLsbD 20 = true ↔ p / 2 ^ 20 % 2 = 1 := getLsbD_iff _ _
  have hall : fps.all fpOk = true := by
    by_cases hz : nf = 0
    · rw [hf0 hz]
      rfl
    · obtain ⟨-, bs, -, h, -⟩ := hf1 hz
      exact h
  have hb : ¬ s.enqBad fps y.recs.length := by
    rintro (h | h | h | h | h | ⟨h, h'⟩ | ⟨h, h'⟩ | h)
    · exact h b2
    · exact h hp21
    · exact h hp11
    · exact h h15
    · rw [b1] at h
      omega
    · exact h' (hf1 h).1
    · have := haft (b4.1 h)
      rw [b3] at h'
      omega
    · rw [hall] at h
      cases h
  have hgo : exec (.enq x d) s = _ := execEnq_go (fps := fps) hx hnf hf0 fun hz => by
    obtain ⟨h1, bs, h2, -, h3⟩ := hf1 hz
    exact ⟨h1, bs, h2, h3⟩
  refine ⟨fun hk => ?_, fun hk => ⟨s.enqueued l y (s.enqRec dom fps), s.enqRec dom fps, ?_, OnlyHub_updHub .., ?_, ?_⟩⟩
  · rw [enqueue_full hl hy hb hk] at hgo
    exact asksHold _ _ _ _ rfl hgo
  · rw [enqueue_room hl hy hb hn hk hd, or_high hn] at hgo
    exact asksHold _ _ _ _ rfl hgo
  · exact tGet_tPut_same _ _ _
  · refine ⟨?_, ?_, ?_, rfl, rfl, rfl, rfl, ?_, rfl, rfl⟩
    · show ((s.me.rs 8#5).extractLsb' 0 8).toNat = _
      rw [BitVec.extractLsb'_toNat, Nat.shiftRight_zero]
    · show ((s.me.rs 8#5).extractLsb' 8 2).toNat = _
      rw [BitVec.extractLsb'_toNat, Nat.shiftRight_eq_div_pow]
    · exact getLsbD_iff _ 10
    · show (if (s.me.rs 8#5).getLsbD 20 = true then _ else _) = _
      simp only [b4, b3]

end Sys2Proof.Machine
end

section
/-! Packets: the outbound buffer, hops, and the arrival of messages (07 R118, R127, R128; 08 R142, R145, R148; 20 R316 to R319). -/

namespace Sys2Proof.Machine

/-- Registers, scratchpads and inboxes are as they were. -/
def State.KeepsRegs (s t : State) : Prop :=
  ∀ c, (t.core c).r = (s.core c).r ∧ (t.core c).sp = (s.core c).sp ∧ (t.core c).inbox = (s.core c).inbox

theorem State.KeepsRegs.of_cores {s t : State} (h : t.cores = s.cores) : s.KeepsRegs t := fun c => by
  have : t.core c = s.core c := congrArg (fun l => (tGet l c).getD Core.zero) h
  rw [this]
  exact ⟨rfl, rfl, rfl⟩

theorem State.KeepsRegs.trans {s t u : State} (h : s.KeepsRegs t) (g : t.KeepsRegs u) : s.KeepsRegs u := fun c => by
  obtain ⟨h1, h2, h3⟩ := h c
  obtain ⟨g1, g2, g3⟩ := g c
  exact ⟨g1.trans h1, g2.trans h2, g3.trans h3⟩

theorem State.KeepsRegs.upd (s : State) (c : Nat) (f : Core → Core) (h : ∀ x, (f x).r = x.r ∧ (f x).sp = x.sp ∧ (f x).inbox = x.inbox) :
    s.KeepsRegs (s.upd c f) := fun d => by
  rw [State.core_upd]
  split
  · next e =>
    subst e
    exact h _
  · exact ⟨rfl, rfl, rfl⟩

/-! What a drop does. -/

section
variable (s : State) (k : Pkt)

theorem dropNote_frame : s.dropNote k =
    { s with cores := (s.dropNote k).cores, net := (s.dropNote k).net, nextId := (s.dropNote k).nextId
             hub := { s.hub with saves := (s.dropNote k).hub.saves } } := by
  unfold State.dropNote
  split
  · rfl
  · split
    · rfl
    · unfold State.updIn
      split <;> rfl

theorem dropNote_keepsRegs : s.KeepsRegs (s.dropNote k) := by
  unfold State.dropNote
  split
  · exact .of_cores rfl
  · split
    · exact .of_cores rfl
    · refine State.KeepsRegs.trans ?_ (.upd _ _ _ fun _ => ⟨rfl, rfl, rfl⟩)
      unfold State.updIn
      split
      · exact .of_cores rfl
      · exact .upd _ _ _ fun _ => ⟨rfl, rfl, rfl⟩

theorem dropNote_job {c j : Nat} (h : jobOf k.body = some (c, j)) : ∃ q, (s.dropNote k).net = s.net ++ [q] ∧
    q.dev = (if k.peer then k.srcCore / 4096 else s.own) ∧ q.body = .dropNotice c j ∧ q.dom.id = 0#16 := by
  rw [State.dropNote, h]
  exact ⟨_, rfl, rfl, rfl, rfl⟩

theorem dropNote_noJob (h : jobOf k.body = none) : (s.dropNote k).net = s.net := by
  rw [State.dropNote, h]
  dsimp only
  split
  · rfl
  · unfold State.updIn
    split <;> rfl

theorem dropNote_peer (h : k.peer = true) : (s.dropNote k).cores = s.cores := by
  unfold State.dropNote
  split
  · rfl
  · rw [if_pos h]

theorem portOf_congr {t : State} (h : t.hub.ports = s.hub.ports) (h' : t.hub.deadAt = s.hub.deadAt) : t.portOf k = s.portOf k := by
  unfold State.portOf State.livePorts State.upPorts
  rw [h, h']

theorem portOf_live (h : s.livePorts k.dev ≠ []) : s.portOf k ∈ s.livePorts k.dev := by
  unfold State.portOf
  dsimp only
  have hp : 0 < (s.livePorts k.dev).length := List.length_pos_of_ne_nil h
  rw [if_neg (by simpa using h), List.getD_eq_getElem _ _ (Nat.mod_lt _ hp)]
  exact List.getElem_mem _

theorem port_updPort_same (p : Nat) (f : Port → Port) : (s.updPort p f).port p = f (s.port p) := by
  simp [State.port, State.updPort]

theorem port_updPort_other {p q : Nat} (f : Port → Port) (h : q ≠ p) : (s.updPort p f).port q = s.port q := by
  simp [State.port, State.updPort, tGet_tPut_other _ _ _ _ h]

/-- A packet is taken out of the network, its loss noted, and counted at a port of a field of its counters. -/
structure State.Dropped (s t : State) (k : Pkt) (p : Nat) (cnt : Port → Nat) : Prop where
  mem : t.mem = s.mem
  net : t.net = ((s.dropPkt p).dropNote k).net
  count : k.dev ≠ s.own → cnt (t.port (s.portOf k)) = cnt (s.port (s.portOf k)) + 1
  cores : t.cores = ((s.dropPkt p).dropNote k).cores

theorem dropped_port (p : Nat) : ((s.dropPkt p).dropNote k).own = s.own ∧ ((s.dropPkt p).dropNote k).portOf k = s.portOf k ∧
    ∀ q, ((s.dropPkt p).dropNote k).port q = s.port q := by
  have h := dropNote_frame (s.dropPkt p) k
  rw [h]
  exact ⟨rfl, portOf_congr _ _ rfl rfl, fun _ => rfl⟩

theorem dropped_mem (p : Nat) : ((s.dropPkt p).dropNote k).mem = s.mem := by
  rw [dropNote_frame]
  rfl

theorem dropped_expd (p : Nat) : s.Dropped (((s.dropPkt p).dropNote k).hopExpd k) k p Port.expd := by
  obtain ⟨h1, h2, h3⟩ := dropped_port s k p
  unfold State.hopExpd
  rw [h1, h2]
  split
  · exact ⟨dropped_mem s k p, rfl, fun _ => by rw [port_updPort_same, h3], rfl⟩
  · next h => exact ⟨dropped_mem s k p, rfl, fun h' => absurd h' h, rfl⟩

theorem dropped_aged (p : Nat) : s.Dropped (((s.dropPkt p).dropNote k).hopAged k) k p Port.aged := by
  obtain ⟨h1, h2, h3⟩ := dropped_port s k p
  unfold State.hopAged
  rw [h1, h2]
  split
  · exact ⟨dropped_mem s k p, rfl, fun _ => by rw [port_updPort_same, h3], rfl⟩
  · next h => exact ⟨dropped_mem s k p, rfl, fun h' => absurd h' h, rfl⟩

theorem dropped_nodev (p : Nat) : s.Dropped (((s.dropPkt p).dropNote k).portNodev k) k p Port.nodev := by
  obtain ⟨-, h2, h3⟩ := dropped_port s k p
  unfold State.portNodev
  rw [h2]
  exact ⟨dropped_mem s k p, rfl, fun _ => by rw [port_updPort_same]; exact congrArg (fun x : Port => x.nodev + 1) (h3 _), rfl⟩

variable {s k} in
theorem State.Dropped.keepsRegs {t : State} {p : Nat} {cnt : Port → Nat} (h : s.Dropped t k p cnt) : s.KeepsRegs t :=
  .trans (.trans (.of_cores rfl) (dropNote_keepsRegs (s.dropPkt p) k)) (.of_cores h.cores)

end

/-! Leaving for a peer. -/

section
variable (s : State)

theorem markPeer_frame (d : Dom) (dev : Nat) : s.markPeer d dev =
    { s with hub := { s.hub with doms := (s.markPeer d dev).hub.doms }, net := (s.markPeer d dev).net, nextId := (s.markPeer d dev).nextId } := by
  unfold State.markPeer
  split
  · rfl
  · dsimp only
    split
    · rfl
    · split
      · rfl
      · split <;> rfl

theorem markPeer_imm (dev : Nat) : s.markPeer 0#16 dev = s := if_pos rfl

theorem mem_peers_markPeer {d : Dom} (dev : Nat) (h : d ≠ 0#16) : dev ∈ ((s.markPeer d dev).dom d).peers := by
  unfold State.markPeer
  rw [if_neg h]
  dsimp only
  split
  · next hc => exact List.contains_iff_mem.1 hc
  · have hs (g : DEnt) (hg : dev ∈ g.peers) : dev ∈ ((s.setDom d g).dom d).peers := by
      rw [State.dom_setDom_same]
      exact hg
    split
    · exact hs _ (by simp)
    · split
      · exact hs _ (by simp)
      · exact hs _ (by simp)

theorem putFlits_succ (pl id n : Nat) : s.putFlits pl id (n + 1) =
    (((s.putFlits pl id n).updPort pl fun p => { p with
      txSeq := p.txSeq + 1#16, retry := p.retry ++ [(((s.putFlits pl id n).port pl).txSeq, Config.flit id n)] }).emit
        (.flit pl ((s.putFlits pl id n).port pl).txSeq (Config.flit id n))) := by
  unfold State.putFlits
  rw [List.range_succ, List.foldl_append]
  rfl

theorem putFlits_frame (pl id n : Nat) : s.putFlits pl id n =
    { s with hub := { s.hub with ports := (s.putFlits pl id n).hub.ports }, out := (s.putFlits pl id n).out } := by
  induction n with
  | zero => rfl
  | succ n ih =>
    rw [putFlits_succ, ih]
    rfl

theorem putFlits_port (pl id n : Nat) : ((s.putFlits pl id n).port pl).txSeq = (s.port pl).txSeq + BitVec.ofNat 16 n ∧
    ((s.putFlits pl id n).port pl).retry.length = (s.port pl).retry.length + n := by
  induction n with
  | zero => exact ⟨(BitVec.add_zero _).symm, rfl⟩
  | succ n ih =>
    obtain ⟨h1, h2⟩ := ih
    have e : (s.putFlits pl id (n + 1)).port pl = { (s.putFlits pl id n).port pl with
        txSeq := ((s.putFlits pl id n).port pl).txSeq + 1#16
        retry := ((s.putFlits pl id n).port pl).retry ++ [(((s.putFlits pl id n).port pl).txSeq, Config.flit id n)] } := by
      rw [putFlits_succ]
      exact port_updPort_same (s.putFlits pl id n) pl fun p => { p with
        txSeq := p.txSeq + 1#16, retry := p.retry ++ [(((s.putFlits pl id n).port pl).txSeq, Config.flit id n)] }
    rw [e]
    refine ⟨?_, ?_⟩
    · show ((s.putFlits pl id n).port pl).txSeq + 1#16 = _
      rw [h1, BitVec.add_assoc, ← BitVec.ofNat_add]
    · show (((s.putFlits pl id n).port pl).retry ++ [_]).length = _
      rw [List.length_append, h2]
      rfl

theorem putFlits_out (pl id n : Nat) : (s.putFlits pl id n).out = s.out ++
    (List.range n).map fun i => .flit pl ((s.port pl).txSeq + BitVec.ofNat 16 i) (Config.flit id i) := by
  induction n with
  | zero => exact (List.append_nil _).symm
  | succ n ih =>
    rw [putFlits_succ, List.range_succ, List.map_append, ← List.append_assoc, ← ih, (putFlits_port s pl id n).1]
    rfl

theorem flitsOf_cases (id : Nat) : flitsOf id = 2 ∨ flitsOf id = 3 := by
  unfold flitsOf
  split
  · exact Or.inr rfl
  · exact Or.inl rfl

/-- The number of a message of a stream that leaves the device is kept at its core. -/
def State.noteGone (s : State) (k : Pkt) : State :=
  match k.body with
  | .msg _ _ m _ src _ _ =>
    if src < nCores ∧ m.srcd = s.hub.dev ∧ m.stag ≠ 0#16 then s.upd src fun x => { x with gone := x.gone ++ [(k.id, m.stag, m.seq)] } else s
  | _ => s

theorem noteGone_frame (k : Pkt) : s.noteGone k = { s with cores := (s.noteGone k).cores } := by
  unfold State.noteGone
  split
  · split <;> rfl
  · rfl

theorem noteGone_keepsRegs (k : Pkt) : s.KeepsRegs (s.noteGone k) := by
  unfold State.noteGone
  split
  · split
    · exact .upd _ _ _ fun _ => ⟨rfl, rfl, rfl⟩
    · exact .of_cores rfl
  · exact .of_cores rfl

theorem leave_room (k : Pkt) (h : (s.port (s.portOf k)).retry.length + flitsOf k.id ≤ 1024) : s.leave k =
    (((((s.dropPkt k.id).markPeer k.dom.id k.dev).noteGone k).putFlits (s.portOf k) k.id (flitsOf k.id)).emit
      (.peer k.dev { k with port := some (s.portOf k) })) := by
  unfold State.leave State.noteGone
  exact if_neg (Nat.not_lt.2 h)

end

/-! The events. -/

section
variable {s : State} {p : Nat} {k : Pkt}

theorem pkt_id (h : s.pkt p = some k) : k.id = p := by
  have := List.find?_some h
  simpa using this

theorem execPacketHop_expired (h : s.pkt p = some k) (ha : k.arrived = false) (h0 : k.dom.id ≠ 0#16) (he : k.dom.ext = false)
    (hi : instPassed s.now k.dom.inst = true) : exec (.packetHop p) s = .next (((s.dropPkt p).dropNote k).hopExpd k) := by
  show execPacketHop p s = _
  rw [execPacketHop, h]
  dsimp only
  rw [if_neg (by simp [ha]), if_pos ⟨h0, by simp [he], hi⟩]

theorem execPacketHop_nodev (h : s.pkt p = some k) (ha : k.arrived = false) (hd : k.dom.id = 0#16 ∨ k.dom.ext = true ∨ instPassed s.now k.dom.inst = false)
    (ho : k.dev ≠ s.own) (hl : s.hub.podN ≤ k.dev ∨ s.livePorts k.dev = []) (hb : ∀ d, k.body ≠ .annulNotice d) :
    exec (.packetHop p) s = .next (((s.dropPkt p).dropNote k).portNodev k) := by
  show execPacketHop p s = _
  rw [execPacketHop, h]
  dsimp only
  rw [if_neg (by simp [ha]), if_neg (by rintro ⟨h1, h2, h3⟩; simp [h1, h3] at hd h2; simp [hd] at h2), if_pos ho,
    if_pos (hl.imp id (List.isEmpty_iff.2))]
  split
  · next e => exact absurd e (hb _)
  · rfl

theorem execPacketHop_leaves (h : s.pkt p = some k) (ha : k.arrived = false) (hd : k.dom.id = 0#16 ∨ k.dom.ext = true ∨ instPassed s.now k.dom.inst = false)
    (ho : k.dev ≠ s.own) (hp : k.dev < s.hub.podN) (hl : s.livePorts k.dev ≠ []) (h1 : s.streamHead k = true) (h2 : s.mayLeave k = true) :
    exec (.packetHop p) s = .next (s.leave k) := by
  show execPacketHop p s = _
  rw [execPacketHop, h]
  dsimp only
  rw [if_neg (by simp [ha]), if_neg (by rintro ⟨h1, h2, h3⟩; simp [h1, h3] at hd h2; simp [hd] at h2), if_pos ho,
    if_neg (by simp; exact ⟨hp, hl⟩), if_pos (by simp [h1, h2])]

theorem execPacketAgedOut_due (h : s.pkt p = some k) (ha : k.arrived = false) (h0 : k.dom.id ≠ 0#16) (ht : k.t + 600000 ≤ s.cyc) :
    exec (.packetAgedOut p) s = .next (((s.dropPkt p).dropNote k).hopAged k) := by
  show execPacketAgedOut p s = _
  rw [execPacketAgedOut, h]
  dsimp only
  rw [if_pos ⟨h0, by simp [ha], ht⟩]

theorem execMessageArrival_ready {c : Nat} {q : BitVec 2} {m : Msg} {task : TaskRef} {src after afterW : Nat} (h : s.pkt p = some k)
    (hb : k.body = .msg c q m task src after afterW) (hd : k.dev = s.own) (hr : s.msgReady k c q m src after afterW = true) :
    exec (.messageArrival p) s = .next (s.deliver k c q m task) := by
  show execMessageArrival p s = _
  rw [execMessageArrival, h]
  dsimp only
  rw [hb]
  dsimp only
  rw [if_pos ⟨hd, hr⟩]

end

/-! The inbox. -/

theorem iq_setIq_same (c : Core) (q : BitVec 2) (l : List InSlot) : (c.setIq q l).iq q = l := by simp [Core.iq, Core.setIq]

theorem iq_setIq_other (c : Core) {q p : BitVec 2} (l : List InSlot) (h : p ≠ q) : (c.setIq q l).iq p = c.iq p := by
  have : q.toNat ≠ p.toNat := fun e => h (BitVec.eq_of_toNat_eq e.symm)
  simp [Core.iq, Core.setIq, Vector.getElem_set_ne, this]

theorem mem_freeSlots (l : List InSlot) (i : Nat) : i ∈ freeSlots l ↔ i < 16 ∧ ∀ e ∈ l, e.ix ≠ i := by
  simp [freeSlots]

theorem disown_frame (s : State) (t : TaskRef) : s.disown t =
    { s with cores := (s.disown t).cores, hub := { s.hub with saves := (s.disown t).hub.saves } } := by
  unfold State.disown
  split <;> rfl

theorem tookMsg_frame (s : State) (k : Pkt) (m : Msg) :
    s.tookMsg k m = { s with net := s.net.filter fun x => x.id != k.id, out := (s.tookMsg k m).out } := by
  unfold State.tookMsg
  dsimp only
  split <;> rfl

section
variable {s : State} {k : Pkt} {c : Nat} {q : BitVec 2} {m : Msg} {task : TaskRef}

theorem deliver_expired (h : s.expired (inboxEp c) k.dom = true) :
    s.deliver k c q m task = ((s.dropPkt k.id).dropAt (inboxEp c)).disown task := if_pos h

theorem runs_any {c : Core} {x : Ctx} (h : ∃ r ∈ c.runs, r.1 = x) : (c.runs.any fun r => r.1 == x) = true := by
  simpa using h

theorem deliver_full (h : s.expired (inboxEp c) k.dom = false) (hr : (s.core c).res = some k.ctx) (hc : ∃ r ∈ (s.core c).runs, r.1 = k.ctx)
    (hf : ∀ i < 16, ∃ e ∈ (s.core c).iq q, e.ix = i) : s.deliver k c q m task = s.holdPkt k.id := by
  have e : freeSlots ((s.core c).iq q) = [] := List.eq_nil_iff_forall_not_mem.2 fun i hi => by
    obtain ⟨h1, h2⟩ := (mem_freeSlots _ _).1 hi
    obtain ⟨o, ho, hi⟩ := hf i h1
    exact h2 o ho hi
  unfold State.deliver
  dsimp only
  rw [if_neg (by simp [h]), if_pos ⟨hr, runs_any hc⟩, e]
  rfl

/-- The slot that a message takes. -/
def State.slotFor (s : State) (k : Pkt) (c : Nat) (q : BitVec 2) : Nat :=
  (freeSlots ((s.core c).iq q)).getD (Config.slotChoice k.id % (freeSlots ((s.core c).iq q)).length) 0

theorem slotFor_mem (h : ∃ i < 16, ∀ e ∈ (s.core c).iq q, e.ix ≠ i) : s.slotFor k c q ∈ freeSlots ((s.core c).iq q) := by
  obtain ⟨i, h1, h2⟩ := h
  have hp : 0 < (freeSlots ((s.core c).iq q)).length := List.length_pos_of_mem ((mem_freeSlots _ i).2 ⟨h1, h2⟩)
  rw [State.slotFor, List.getD_eq_getElem _ _ (Nat.mod_lt _ hp)]
  exact List.getElem_mem _

theorem deliver_slot (h : s.expired (inboxEp c) k.dom = false) (hr : (s.core c).res = some k.ctx) (hc : ∃ r ∈ (s.core c).runs, r.1 = k.ctx)
    (hf : ∃ i < 16, ∀ e ∈ (s.core c).iq q, e.ix ≠ i) : s.deliver k c q m task =
      (s.tookMsg k m).upd c fun x => x.setIq q ((s.core c).iq q ++ [⟨s.slotFor k c q, m, k.ctx, task, s.cyc, s.cyc, false, false⟩]) := by
  have e : ¬ (freeSlots ((s.core c).iq q)).isEmpty = true := fun e => by
    have := slotFor_mem (k := k) hf
    rw [List.isEmpty_iff.1 e] at this
    cases this
  unfold State.deliver
  dsimp only
  rw [if_neg (by simp [h]), if_pos ⟨hr, runs_any hc⟩, if_neg e]
  rfl

end

/-- What the claim says of a drop. -/
theorem drops_of {s t : State} {k : Pkt} {p : Nat} {cnt : Port → Nat} {i : Instr} (hi : exec i s = .next t) (h : s.Dropped t k p cnt) :
    ∃ t, exec i s = .next t ∧ t.mem = s.mem ∧
      (match jobOf k.body with
        | some (c, j) => ∃ q, t.net = (s.net.filter fun x => x.id != p) ++ [q] ∧ q.dev = (if k.peer then k.srcCore / 4096 else s.own) ∧
            q.body = .dropNotice c j ∧ q.dom.id = 0#16
        | none => t.net = s.net.filter fun x => x.id != p) ∧
      (k.dev ≠ s.own → cnt (t.port (s.portOf k)) = cnt (s.port (s.portOf k)) + 1) ∧ (k.peer = true → t.cores = s.cores) ∧
      ∀ c, (t.core c).r = (s.core c).r ∧ (t.core c).sp = (s.core c).sp ∧ (t.core c).inbox = (s.core c).inbox := by
  refine ⟨t, hi, h.mem, ?_, h.count, fun hp => h.cores.trans (dropNote_peer _ _ hp), h.keepsRegs⟩
  rw [h.net]
  split
  · next hj => exact dropNote_job (s.dropPkt p) k hj
  · next hj => exact dropNote_noJob (s.dropPkt p) k hj

/-- Settles O19. -/
theorem packets : Obligations.Packets := by
  refine ⟨fun s => ⟨fun c e r ho hp => ?_, fun p k hk ha hb => ?_,
    fun p k hk ha hd ho hn hl h1 h2 hroom => ?_⟩, fun s p k c q m task src after afterW hk hb hd hc hr => ⟨fun he => ?_, fun he hres hrun => ⟨fun hf => ?_, fun hf => ?_⟩⟩⟩
  · refine ⟨(s.upd c fun x => { x with outb := r }).send e.dev (.msg e.core e.q e.m none c e.after e.afterW) (msgTag e.m) e.ctx c e.m.stag,
      _, ?_, ?_, rfl, rfl, rfl, rfl, rfl⟩
    · show execOutboundEntryFree c s = _
      rw [execOutboundEntryFree, ho]
      dsimp only
      rw [if_neg (by rintro ⟨h1, h2⟩; rw [hp h1] at h2; cases h2)]
    · rw [State.core_send, State.core_upd_same]
  · intro gone at_ drops
    exact ⟨fun h0 he hi => drops_of (execPacketHop_expired hk ha h0 he hi) (dropped_expd s k p),
      fun hd ho hl => drops_of (execPacketHop_nodev hk ha hd ho hl hb) (dropped_nodev s k p),
      fun h0 ht => drops_of (execPacketAgedOut_due hk ha h0 ht) (dropped_aged s k p)⟩
  · have hmem := portOf_live s k hl
    have hfl := flitsOf_cases k.id
    have hleave := leave_room s k (by have := hroom _ hmem; omega)
    have hf := noteGone_frame ((s.dropPkt k.id).markPeer k.dom.id k.dev) k
    have hm := markPeer_frame (s.dropPkt k.id) k.dom.id k.dev
    have hkeep : s.KeepsRegs (((s.dropPkt k.id).markPeer k.dom.id k.dev).noteGone k) :=
      .trans (.of_cores (by rw [hm]; rfl)) (noteGone_keepsRegs _ k)
    generalize hu : ((s.dropPkt k.id).markPeer k.dom.id k.dev).noteGone k = u at hf hleave hkeep
    have hdoms : u.hub.doms = ((s.dropPkt k.id).markPeer k.dom.id k.dev).hub.doms := by rw [hf]
    have hport : u.port = s.port := by
      rw [hf, hm]
      rfl
    have hput := putFlits_frame u (s.portOf k) k.id (flitsOf k.id)
    refine ⟨s.leave k, s.portOf k, flitsOf k.id, execPacketHop_leaves hk ha hd ho hn hl h1 h2, hmem, hfl, ?_, ?_, ?_, fun h0 => ?_, fun h0 => ?_, ?_⟩
    · rw [hleave, hput, hf, hm]
      rfl
    · rw [hleave]
      show (u.putFlits (s.portOf k) k.id (flitsOf k.id)).out ++ [_] = _
      rw [putFlits_out, hport, hf, hm]
      rfl
    · rw [hleave, ← hport]
      exact (putFlits_port u (s.portOf k) k.id (flitsOf k.id)).2
    · rw [hleave, hput, hf, h0, markPeer_imm, ← pkt_id hk]
      rfl
    · have : (s.leave k).dom k.dom.id = ((s.dropPkt k.id).markPeer k.dom.id k.dev).dom k.dom.id := by
        unfold State.dom
        rw [hleave, ← hdoms, hput]
        rfl
      rw [this]
      exact mem_peers_markPeer _ _ h0
    · refine State.KeepsRegs.trans hkeep (.of_cores ?_)
      rw [hleave, hput]
      rfl
  · have hd1 : (s.dropPkt k.id).dropAt (inboxEp c) = (s.dropPkt k.id).updHub fun h =>
        { h with epExpd := tPut h.epExpd (inboxEp c) ((tGet h.epExpd (inboxEp c)).getD 0 + 1) } := by
      rw [State.dropAt, if_neg (by unfold inboxEp; omega), if_neg (by unfold inboxEp hubEp; omega)]
    refine ⟨_, (execMessageArrival_ready hk hb hd hr).trans (congrArg _ (deliver_expired he)), ?_, ?_, ?_⟩
    · rw [disown_frame, hd1]
      exact tGet_tPut_same _ _ _
    · rw [disown_frame, hd1]
      rfl
    · obtain ⟨l, h⟩ := core_disown ((s.dropPkt k.id).dropAt (inboxEp c)) task c
      rw [h, hd1]
      rfl
  · have hfree := (mem_freeSlots _ _).1 (slotFor_mem (k := k) hf)
    have hcore : (s.tookMsg k m).core c = s.core c := by
      rw [tookMsg_frame]
      rfl
    refine ⟨_, ⟨s.slotFor k c q, m, k.ctx, task, s.cyc, s.cyc, false, false⟩,
      (execMessageArrival_ready hk hb hd hr).trans (congrArg _ (deliver_slot he hres hrun hf)), ?_, ?_, rfl, rfl, rfl, rfl, rfl, rfl, hfree.1, hfree.2,
      fun q' hq => ?_⟩
    · rw [State.upd_net, tookMsg_frame]
    · rw [State.core_upd_same, iq_setIq_same]
    · rw [State.core_upd_same, iq_setIq_other _ _ hq, hcore]
  · exact (execMessageArrival_ready hk hb hd hr).trans (congrArg _ (deliver_full he hres hrun hf))

end Sys2Proof.Machine
end

section
/-! Activations: start, end, deferral (02 R33, R34; 07 R117, R119, R120, R130). -/

namespace Sys2Proof.Machine

/-! The start. -/

/-- Cores, and the counts of what was dropped at an endpoint, may differ. -/
def State.Discards (s u : State) : Prop := u = { s with cores := u.cores, hub := { s.hub with epExpd := u.hub.epExpd } }

theorem discardHeads_frame (s : State) (c : Nat) : s.Discards (s.discardHeads c) := by
  unfold State.discardHeads
  generalize [0#2, 1#2, 2#2, 3#2] = l
  induction l generalizing s with
  | nil => rfl
  | cons q l ih =>
    rw [List.foldl_cons]
    refine (ih _).trans ?_
    dsimp only
    split <;> rfl

theorem discardHeads_keeps (s : State) (c : Nat) :
    (s.discardHeads c).hub.ctxs = s.hub.ctxs ∧ (s.discardHeads c).mem = s.mem ∧ (s.discardHeads c).cyc = s.cyc := by
  have h := discardHeads_frame s c
  unfold State.Discards at h
  generalize s.discardHeads c = u at h
  rw [h]
  exact ⟨rfl, rfl, rfl⟩

theorem Regs.rs_start (a b c d : Word) (r : Reg) (x : Core)
    (h : x.r.s = ((((Regs.zero.s.set 1 a).set 2 b).set 3 c).set 4 d)) :
    x.rs r = if r = 1#5 then a else if r = 2#5 then b else if r = 3#5 then c else if r = 4#5 then d else 0#64 := by
  have e (n : Nat) (hn : n < 32) : (n = r.toNat) = (r = BitVec.ofNat 5 n) := by
    refine propext ⟨fun h => BitVec.eq_of_toNat_eq ?_, fun h => ?_⟩
    · rw [BitVec.toNat_ofNat, ← h]
      omega
    · rw [h, BitVec.toNat_ofNat]
      omega
  unfold Core.rs
  simp only [h, Vector.getElem_set, e 1 (by decide), e 2 (by decide), e 3 (by decide), e 4 (by decide), Regs.zero, Vector.getElem_replicate]
  by_cases h0 : r = 0#5
  · subst h0
    rfl
  · rw [if_neg h0]
    by_cases h4 : r = 4#5
    · subst h4
      rfl
    · by_cases h3 : r = 3#5
      · subst h3
        rfl
      · by_cases h2 : r = 2#5
        · subst h2
          rfl
        · simp [h4, h3, h2]

/-- The activation that a message starts. -/
def State.newAct (s : State) (q : BitVec 2) (e : InSlot) (bind : Option Nat) : Act :=
  ⟨e.m, q, e.ix, e.ctx, e.task, e.arr, s.cyc, bind, s.nextId⟩

/-- Its core, but for the debug module. -/
def State.started (s : State) (c : Nat) (q : BitVec 2) (e : InSlot) (entry : Word) (bind : Option Nat) (r : CtxRec) (d : Dbg) : Core :=
  let x := s.core c
  { x with
    r := { Regs.zero with s := (((Regs.zero.s.set 1 (slotAddr q e.ix)).set 2 (q.setWidth 64)).set 3 (e.m.hnd.setWidth 64)).set 4 e.m.p0 }
    pc := entry, stat := .run, ready := max x.ready s.cyc, waitFrom := none, wFrom := none, wbuf := [], wpend := [], str := []
    pread := [], regsB := [], dbg := d, act := some (s.newAct q e bind), age := if q = 3#2 then 0 else x.age + 1
    inbox := (x.setIq q ((x.iq q).map fun y => if y.ix = e.ix then { y with running := true } else y)).inbox
    c := { x.c with fl := 0#5, intrap := false, txc := r.txc, dom := msgTag e.m
                    ckpttab := if e.m.inl then 0#64 else entry, hbase := r.hbase } }

theorem startedAct (s : State) (c : Nat) (q : BitVec 2) (e : InSlot) (entry : Word) (bind : Option Nat) (r : CtxRec) (d : Dbg) :
    (s.started c q e entry bind r d).act.map (fun a => (a.m, a.q, a.ix, a.ctx, a.task, a.start)) =
      some (e.m, q, e.ix, e.ctx, e.task, s.cyc) := rfl

theorem core_trace_count (u : State) (c : Nat) (k : BitVec 8) (a b d : Word) (k' : BitVec 3) (pc : Word) (w : Bool) :
    ∃ e, ((u.trace c k a b d).count c k' pc w).core c = { u.core c with dbg := e } := by
  obtain ⟨-, p, l, h1⟩ := u.trace_spec c k a b d
  obtain ⟨-, -, r, o, h2⟩ := (u.trace c k a b d).count_spec c k' pc w
  rw [h2, h1]
  exact ⟨_, rfl⟩

theorem startAct_core {s : State} {c : Nat} {q : BitVec 2} {e : InSlot} {entry : Word} {bind : Option Nat} {k : Context}
    (hk : tGet s.hub.ctxs e.ctx.toNat = some k) (ht : e.m.txc = k.record.txc) :
    ∃ d, (s.startAct c q e entry bind).core c = s.started c q e entry bind k.record d := by
  unfold State.startAct
  rw [hk]
  simp only [Option.map_some, Option.getD_some]
  rw [if_neg (by simp [ht])]
  refine (core_trace_count _ c _ _ _ _ _ _ _).imp fun d h => h.trans ?_
  rw [State.core_upd_same]
  rfl

section
variable {s : State} {c : Nat} {q : BitVec 2} {e : InSlot}

theorem execActivationStart_inline (h : s.mayStart c = true) (hc : ((s.discardHeads c).core c).choose = some (q, e)) (hi : e.m.inl = true) :
    exec (.activationStart c) s = .next ((s.discardHeads c).startAct c q e (slotAddr q e.ix + 32#64) none) := by
  show execActivationStart c s = _
  rw [execActivationStart, if_neg (by simp [h])]
  dsimp only
  rw [hc]
  exact if_pos hi

theorem execActivationStart_handler {h : HEnt} (hm : s.mayStart c = true) (hc : ((s.discardHeads c).core c).choose = some (q, e)) (hi : e.m.inl = false)
    (hh : (s.discardHeads c).handler e.ctx e.m.hnd.toNat = some h) : exec (.activationStart c) s =
      .next ((s.discardHeads c).startAct c q e h.entry ((s.discardHeads c).nameBind e.ctx h.key)) := by
  show execActivationStart c s = _
  rw [execActivationStart, if_neg (by simp [hm])]
  dsimp only
  rw [hc]
  dsimp only
  rw [if_neg (by simp [hi]), hh]

end

theorem handler_discardHeads (s : State) (c : Nat) (x : Ctx) (n : Nat) : (s.discardHeads c).handler x n = s.handler x n := by
  obtain ⟨h1, h2, -⟩ := discardHeads_keeps s c
  unfold State.handler
  rw [h1, h2]

/-! The end. -/

section
variable (s : State)

theorem inbox_evalArmed (x : Core) (off t : Nat) : (x.evalArmed off t).inbox = x.inbox := rfl

theorem inbox_arrive (x : Core) (off : Nat) (dep ann : Bool) (st : Option (BitVec 48)) : (x.arrive off dep ann st).inbox = x.inbox := by
  unfold Core.arrive
  dsimp only
  split
  · rfl
  · split <;> rfl

theorem inbox_upd (c d : Nat) (f : Core → Core) (h : ∀ x, (f x).inbox = x.inbox) : ((s.upd c f).core d).inbox = (s.core d).inbox := by
  rw [State.core_upd]
  split
  · next e =>
    subst e
    exact h _
  · rfl

theorem inbox_updIn (c d : Nat) (x : Ctx) (f : Core → Core) (h : ∀ x, (f x).inbox = x.inbox) :
    ((s.updIn c x f).core d).inbox = (s.core d).inbox := by
  unfold State.updIn
  split
  · rfl
  · exact inbox_upd s c d f h

theorem inbox_departs (w : Who) (ann : Bool) (l : List (Nat × Nat)) (d : Nat) : ((s.departs w ann l).core d).inbox = (s.core d).inbox := by
  unfold State.departs
  induction l generalizing s with
  | nil => rfl
  | cons p l ih =>
    rw [List.foldl_cons, ih]
    split
    · exact inbox_upd _ _ _ _ fun _ => rfl
    · split
      · exact inbox_updIn _ _ _ _ _ fun x => by rw [inbox_evalArmed, inbox_evalArmed, inbox_arrive]
      · rfl

theorem inbox_depart (c : Nat) (ann : Bool) (d : Nat) : ((s.depart c ann).core d).inbox = (s.core d).inbox := by
  unfold State.depart
  rw [inbox_departs]
  exact inbox_upd s c d _ fun _ => rfl

theorem inbox_endAct {c : Nat} {a : Act} (ann keep : Bool) (how : Word) (next : SStat) (h : (s.core c).act = some a) :
    ((s.endAct c ann keep how next).core c).inbox = if keep then (s.core c).inbox else
      (s.core c).inbox.setIfInBounds a.q.toNat (((s.core c).inbox.toList.getD a.q.toNat []).filter fun e => e.ix != a.ix) := by
  have hu := core_unask s c c
  unfold State.endAct
  dsimp only
  generalize s.unask c = s' at hu ⊢
  rw [hu, h]
  dsimp only
  have hd : ((s'.depart c ann).core c).inbox = (s.core c).inbox := by rw [inbox_depart, hu]
  generalize s'.depart c ann = s'' at hd ⊢
  rw [← hd]
  generalize hw : (s''.upd c _) = u
  obtain ⟨l, hl⟩ := core_accumulate u c a
  obtain ⟨-, p, q, ht⟩ := (u.accumulate c a).trace_spec c 2#8 (BitVec.ofNat 64 (u.cyc - a.start)) 0#64 how
  generalize (u.accumulate c a).trace c _ _ _ _ = v at ht ⊢
  obtain ⟨m, hm⟩ := core_disown v a.task c
  have hv : ((v.disown a.task).core c).inbox = if keep then (s''.core c).inbox else
      (s''.core c).inbox.setIfInBounds a.q.toNat (((s''.core c).inbox.toList.getD a.q.toNat []).filter fun e => e.ix != a.ix) := by
    rw [hm, ht, hl, ← hw, State.core_upd_same]
  split
  · rw [core_reclaim]
    exact hv
  · exact hv

/-! The clock under the operations of an end. -/

theorem cyc_unask (c : Nat) : (s.unask c).cyc = s.cyc := by
  unfold State.unask
  split
  · split
    · split
      · rfl
      · split <;> rfl
    · rfl
  · rfl

theorem cyc_reclaim (b : Nat) : (s.reclaim b).cyc = s.cyc := by
  unfold State.reclaim
  split
  · rfl
  · dsimp only
    split <;> rfl

theorem cyc_departs (w : Who) (ann : Bool) (l : List (Nat × Nat)) : (s.departs w ann l).cyc = s.cyc := by
  unfold State.departs
  induction l generalizing s with
  | nil => rfl
  | cons p l ih =>
    rw [List.foldl_cons, ih]
    split
    · rfl
    · split
      · unfold State.updIn
        split <;> rfl
      · rfl

theorem cyc_endAct (c : Nat) (ann keep : Bool) (how : Word) (next : SStat) : (s.endAct c ann keep how next).cyc = s.cyc := by
  rw [← cyc_unask s c]
  unfold State.endAct
  generalize s.unask c = u
  dsimp only
  cases (u.core c).act with
  | none => rfl
  | some a =>
    have htr (t : State) (m : Word) : (((t.accumulate c a).trace c 2#8 m 0#64 how).disown a.task).cyc = t.cyc := by
      rw [disown_frame]
      exact ((t.accumulate c a).trace_spec c 2#8 m 0#64 how).1.cyc
    dsimp only
    cases a.bind with
    | none => exact (htr _ _).trans (cyc_departs ..)
    | some b => exact (cyc_reclaim ..).trans ((htr _ _).trans (cyc_departs ..))

end

section
variable {s : State} {c : Nat} {a : Act}

theorem execActivationEnd_done (ha : (s.core c).act = some a) (he : (s.core c).ended a = true) (hr : (s.core c).ready ≤ s.cyc)
    (hs : (s.core c).stat = .ending none) : exec (.activationEnd c) s = .next (s.endAct c false false 0#64 .idle) := by
  show execActivationEnd c s = _
  rw [execActivationEnd]
  simp only [hs, ha]
  rw [if_pos ⟨he, hr⟩]

theorem execActivationEnd_defer {n : Word} (ha : (s.core c).act = some a) (he : (s.core c).ended a = true) (hr : (s.core c).ready ≤ s.cyc)
    (hs : (s.core c).stat = .ending (some n)) :
    exec (.activationEnd c) s = .next ((s.endAct c false true 3#64 .idle).deferSlot c a n) := by
  show execActivationEnd c s = _
  rw [execActivationEnd]
  simp only [hs, ha]
  rw [if_pos ⟨he, hr⟩]

theorem iq_eq_of_inbox {x y : Core} (h : x.inbox = y.inbox) (q : BitVec 2) : x.iq q = y.iq q := by
  unfold Core.iq
  simp only [h]

theorem find?_and {α : Type} {f g : α → Bool} {l : List α} {e : α} (h : l.find? f = some e) (hg : g e = true) :
    (l.find? fun x => f x && g x) = some e := by
  induction l with
  | nil => cases h
  | cons x l ih =>
    rw [List.find?_cons] at h ⊢
    cases hx : f x with
    | true =>
      rw [hx] at h
      cases h
      simp [hg]
    | false =>
      rw [hx] at h
      simpa using ih h

end

/-- Settles O20. -/
theorem activations : Obligations.Activations := by
  refine ⟨fun s c q e hm => ?_, fun s c a => ⟨fun ha he hr => ⟨fun hs => ?_, fun n e hs hf => ?_⟩, fun q ix e hf hd hel => ?_⟩⟩
  · intro u hc k hk ht slot entry hin hout
    obtain ⟨hctxs, -, hcyc⟩ := discardHeads_keeps s c
    have hk' : tGet u.hub.ctxs e.ctx.toNat = some k := (congrArg (tGet · e.ctx.toNat) hctxs).trans hk
    obtain ⟨bind, hx⟩ : ∃ b, exec (.activationStart c) s = .next (u.startAct c q e entry b) := by
      cases hi : e.m.inl with
      | true =>
        rw [hin hi]
        exact ⟨_, execActivationStart_inline hm hc hi⟩
      | false =>
        obtain ⟨h, hh, rfl⟩ := hout hi
        exact ⟨_, execActivationStart_handler hm hc hi ((handler_discardHeads s c _ _).trans hh)⟩
    obtain ⟨d, hcore⟩ := startAct_core (c := c) (q := q) (entry := entry) (bind := bind) hk' ht
    refine ⟨_, hx, ?_⟩
    have hcyc : u.cyc = s.cyc := hcyc
    clear_value u
    rw [hcore, ← hcyc]
    exact ⟨rfl, rfl, fun r => Regs.rs_start _ _ _ _ r _ rfl, rfl, rfl, rfl, rfl, rfl, rfl, rfl, startedAct ..⟩
  · have hb := inbox_endAct s false false 0#64 .idle ha
    obtain ⟨h1, h2⟩ := core_endAct s c false false 0#64 .idle
    refine ⟨_, execActivationEnd_done ha he hr hs, h2, h1, fun x hx => ?_⟩
    have hl := a.q.isLt
    unfold Core.iq at hx
    simp only [hb, if_false, Bool.false_eq_true] at hx
    rw [Vector.getElem_setIfInBounds_self] at hx
    simpa using (List.mem_filter.1 hx).2
  · have hb := inbox_endAct s false true 3#64 .idle ha
    obtain ⟨h1, h2⟩ := core_endAct s c false true 3#64 .idle
    rw [if_pos rfl] at hb
    have hq := iq_eq_of_inbox hb a.q
    have hdef : ((s.endAct c false true 3#64 .idle).deferSlot c a n).core c = ((s.endAct c false true 3#64 .idle).core c).setIq a.q
        (((s.core c).iq a.q).filter (fun x => x.ix != a.ix) ++
          [{ e with elig := s.cyc + Nat.min n.toNat (2 ^ 24), running := false, deferred := true }]) := by
      unfold State.deferSlot
      rw [State.core_upd_same, hq, hf, cyc_endAct] <;> rfl
    refine ⟨_, execActivationEnd_defer ha he hr hs, ?_⟩
    rw [hdef]
    exact ⟨h2, h1, iq_setIq_same _ _ _⟩
  · refine ⟨s.upd c fun x => x.setIq q (((x.iq q).filter fun y => y.ix != ix) ++ [{ e with deferred := false }]), ?_, rfl, rfl, ?_⟩
    · show execDeferEligible c q ix s = _
      have := find?_and (g := fun x : InSlot => x.deferred && decide (x.elig ≤ s.cyc)) hf (by simp [hd, hel])
      rw [execDeferEligible]
      simp only [Bool.and_assoc]
      rw [this]
    · rw [State.core_upd_same, iq_setIq_same]

end Sys2Proof.Machine
end

section
/-! The directory: `nopen`, `nopen.wait`, `nclose`, `nq` (14 R251 to R253, R257 to R261). -/

namespace Sys2Proof.Machine

/-! Descriptors. -/

section
variable (s : State) (c : Nat) (dom : DTag) (o : Word) (b : TBind)

theorem dropAt_sp : s.dropAt (spEp c) = s.updHub fun h => { h with epExpd := tPut h.epExpd (spEp c) ((tGet h.epExpd (spEp c)).getD 0 + 1) } := by
  rw [State.dropAt, if_neg (by unfold spEp; omega), if_neg (by unfold spEp hubEp nCores; omega)]

/-- A descriptor changes the scratchpad of its core, or the count of what was dropped there. -/
theorem putDesc_frame : s.putDesc c dom o b =
    { s with cores := (s.putDesc c dom o b).cores, hub := { s.hub with epExpd := (s.putDesc c dom o b).hub.epExpd } } := by
  unfold State.putDesc
  split
  · rfl
  · split
    · rw [dropAt_sp]
      rfl
    · rfl

theorem putDesc_other {d : Nat} (h : d ≠ c) : (s.putDesc c dom o b).core d = s.core d := by
  unfold State.putDesc
  split
  · rfl
  · split
    · rw [dropAt_sp]
      rfl
    · exact State.core_upd_other s c d _ h

theorem putDesc_regs : ((s.putDesc c dom o b).core c).r = (s.core c).r := by
  unfold State.putDesc
  split
  · rfl
  · split
    · rw [dropAt_sp]
      rfl
    · rw [State.core_upd_same, Core.spWrite_r]

theorem putDesc_expired (h : s.expired (spEp c) dom = true) : ((s.putDesc c dom o b).core c).sp = (s.core c).sp := by
  unfold State.putDesc
  rw [if_pos h]
  split
  · rfl
  · rw [dropAt_sp]
    rfl

theorem length_desc : b.desc.length = 32 := by
  simp only [TBind.desc, wordBytes, List.length_append, leBytes_length]

theorem putDesc_sp (h : s.expired (spEp c) dom = false) (n : Nat) : Memory.get ((s.putDesc c dom o b).core c).sp n =
    if o.toNat ≠ 0 ∧ o.toNat ≤ n ∧ n < o.toNat + 32 then b.desc.getD (n - o.toNat) 0#8 else Memory.get (s.core c).sp n := by
  unfold State.putDesc
  rw [h]
  by_cases h0 : o = 0#64
  · rw [if_pos h0, if_neg (by simp [h0])]
  · have h0' : o.toNat ≠ 0 := fun h => h0 (BitVec.eq_of_toNat_eq h)
    rw [if_neg h0, if_neg Bool.false_ne_true, State.core_upd_same]
    refine (Memory.get_write _ _ _ _).trans ?_
    rw [length_desc]
    simp [h0']

end

/-! Opens. -/

section
variable {s : State} {m : Dm} {a b d : Reg} {w : Bool}

theorem tarnOff_iff (o : Word) : tarnOff o = true ↔ o.toNat % 32 = 0 ∧ 0x800 ≤ o.toNat ∧ o.toNat ≤ 0x7FFE0 := by
  simp [tarnOff, and_assoc]

/-- A place for the descriptor that asks for nothing, or may be written now. -/
def State.PlaceFree (s : State) (b : Reg) : Prop := b = 0#5 ∨ tarnOff (s.me.rs b) = true ∧ s.me.spBusy s.cur = false

theorem State.PlaceFree.off (h : s.PlaceFree b) : ¬ (b ≠ 0#5 ∧ (! tarnOff (s.me.rs b)) = true) := by
  rintro ⟨h1, h2⟩
  obtain h | ⟨h, -⟩ := h
  · exact h1 h
  · rw [h] at h2
    cases h2

theorem State.PlaceFree.busy (h : s.PlaceFree b) : ¬ (s.me.rs b ≠ 0#64 ∧ s.me.spBusy s.cur = true) := by
  rintro ⟨h1, h2⟩
  obtain rfl | ⟨-, h⟩ := h
  · exact h1 rfl
  · rw [h] at h2
    cases h2

theorem nopenOp_misplaced (hb : b ≠ 0#5) (h : tarnOff (s.me.rs b) = false) : nopenOp w m b a d s = .next (s.sTrap 0x02#8 (s.me.rs b)) := by
  rw [nopenOp]
  dsimp only
  rw [if_pos ⟨hb, by simp [h]⟩]

theorem ne_zero_of_tarnOff {o : Word} (h : tarnOff o = true) : o ≠ 0#64 := by
  rintro rfl
  exact absurd h (by decide)

theorem nopenOp_busy (h : tarnOff (s.me.rs b) = true) (hy : s.me.spBusy s.cur = true) : nopenOp w m b a d s = .next s.sRetry := by
  rw [nopenOp]
  dsimp only
  rw [if_neg (by simp [h]), if_pos ⟨ne_zero_of_tarnOff h, hy⟩]

theorem nopenOp_expired (hp : s.PlaceFree b) (he : s.expired hubEp (s.dm m) = true) : nopenOp w m b a d s =
    .next (s.used.sWait (.tarn (s.me.rs a) (s.me.rs b) d (s.dm m) s.nextId) 1 1 (s.me.rs a)) := by
  rw [nopenOp]
  dsimp only
  rw [if_neg hp.off, if_neg hp.busy, if_pos he]
  rfl

theorem nopenOp_zero (hp : s.PlaceFree b) (he : s.expired hubEp (s.dm m) = false) (hk : s.me.rs a = 0#64) :
    nopenOp w m b a d s = .next (s.reply d (tarnNo 0 1)) := by
  rw [nopenOp]
  dsimp only
  rw [if_neg hp.off, if_neg hp.busy, if_neg (by simp [he]), if_pos hk]

theorem nopenOp_unbound (hp : s.PlaceFree b) (he : s.expired hubEp (s.dm m) = false) (hk : s.me.rs a ≠ 0#64) (hb : s.bound s.myCtx (s.me.rs a) = none) :
    nopenOp w m b a d s = .next (if w then s.used.sWait (.tarn (s.me.rs a) (s.me.rs b) d (s.dm m) s.nextId) 1 1 (s.me.rs a)
      else s.reply d (tarnNo 0 2)) := by
  rw [nopenOp]
  dsimp only
  rw [if_neg hp.off, if_neg hp.busy, if_neg (by simp [he]), if_neg hk, hb]
  rfl

theorem nopenOp_bound {t : TBind} (hp : s.PlaceFree b) (he : s.expired hubEp (s.dm m) = false) (hk : s.me.rs a ≠ 0#64)
    (hb : s.bound s.myCtx (s.me.rs a) = some t) : nopenOp w m b a d s =
      .next ((s.openOn s.cur s.myCtx (s.dm m) (s.me.rs b) t).2.reply d (s.openOn s.cur s.myCtx (s.dm m) (s.me.rs b) t).1) := by
  rw [nopenOp]
  dsimp only
  rw [if_neg hp.off, if_neg hp.busy, if_neg (by simp [he]), if_neg hk, hb]

theorem freeSlot_full {n : Nat} (h : ∀ i, i < nHandles → ∃ e, tGet s.hub.hdls i = some e ∧ e.own ≠ none) : s.freeSlot n = none := by
  unfold State.freeSlot
  refine List.find?_eq_none.2 fun i hi => ?_
  obtain ⟨j, -, rfl⟩ := List.mem_map.1 hi
  obtain ⟨e, h1, h2⟩ := h _ (Nat.mod_lt _ (by decide))
  rw [h1]
  simpa using h2

/-- The slot holds a handle on a binding. -/
def State.taken (s : State) (i : Nat) (ctx : Ctx) (dom : DTag) (t : TBind) : State :=
  (s.fresh).updHub fun h => { h with hdls := tPut h.hdls i ⟨((tGet s.hub.hdls i).map (·.gen)).getD 0#24, some (ctx, dom.id, t.id)⟩ }

theorem openOn_free {c i : Nat} {ctx : Ctx} {dom : DTag} {o : Word} {t : TBind} (h : s.freeSlot (Config.handleSlot s.nextId) = some i) :
    s.openOn c ctx dom o t = (BitVec.ofNat 64 ((((tGet s.hub.hdls i).map (·.gen)).getD 0#24).toNat * 2 ^ 20 + i),
      (s.taken i ctx dom t).putDesc c dom o t) := by
  rw [State.openOn, h]
  rfl

theorem openOn_full {c : Nat} {ctx : Ctx} {dom : DTag} {o : Word} {t : TBind} (h : s.freeSlot (Config.handleSlot s.nextId) = none) :
    s.openOn c ctx dom o t = (tarnNo 0 3, s) := by
  rw [State.openOn, h]

theorem asks_opens {w : Bool} {u : State} {v : Word} (hc : u.cur = s.cur) (h : nopenOp w m b a d s = .next (u.reply d v)) :
    Asks (if w then .nopenWait m b a d else .nopen m b a d) s u d v := by
  cases w
  · exact reply_asks (.nopen m b a d) s u d v hc h
  · exact reply_asks (.nopenWait m b a d) s u d v hc h

theorem tarnNo_zero (n : Nat) : tarnNo 0 n = BitVec.ofNat 64 (2 ^ 63 + n) := rfl

end

/-! Closes. -/

theorem reclaim_tables (s : State) (b : Nat) : (s.reclaim b).hub.hdls = s.hub.hdls ∧ (s.reclaim b).hub.names = s.hub.names ∧
    (s.reclaim b).hub.ctxs = s.hub.ctxs ∧ (s.reclaim b).cores = s.cores ∧ (s.reclaim b).mem = s.mem := by
  unfold State.reclaim
  split
  · exact ⟨rfl, rfl, rfl, rfl, rfl⟩
  · dsimp only
    split <;> exact ⟨rfl, rfl, rfl, rfl, rfl⟩

theorem handleOf_some {s : State} {ctx : Ctx} {w : Word} {i n : Nat} (h : s.handleOf ctx w = some (i, n)) :
    ∃ e k q, tGet s.hub.hdls i = some e ∧ e.own = some (k, q, n) := by
  unfold State.handleOf at h
  dsimp only at h
  split at h
  · cases h
  · split at h
    · next e he =>
      split at h
      · next k q b ho =>
        split at h
        · obtain ⟨rfl, rfl⟩ := Prod.mk.inj (Option.some.inj h)
          exact ⟨e, k, q, he, ho⟩
        · cases h
      · cases h
    · cases h

theorem closeHdl_owned {s : State} {i n : Nat} {e : Hdl} {k : Ctx} {q : Dom} (h : tGet s.hub.hdls i = some e) (ho : e.own = some (k, q, n)) :
    s.closeHdl i = (s.updHub fun k => { k with hdls := tPut k.hdls i ⟨e.gen + 1#24, none⟩ }).reclaim n := by
  rw [State.closeHdl, h]
  dsimp only
  rw [ho]

section
variable {s : State} {a b d : Reg}

theorem execNclose_none (h : s.handleOf s.myCtx (s.me.rs a) = none) : exec (.nclose a d) s = .next (s.reply d (tarnNo 0 4)) := by
  show execNclose a d s = _
  rw [execNclose, h]

theorem execNclose_some {i n : Nat} (h : s.handleOf s.myCtx (s.me.rs a) = some (i, n)) : exec (.nclose a d) s =
    .next ((s.closeHdl i).reply d (if (s.closeHdl i).hub.binds.any fun x => x.id == n then 0#64 else 0x4000000000000000#64)) := by
  show execNclose a d s = _
  rw [execNclose, h]

theorem execNq_misplaced (hb : b ≠ 0#5) (h : tarnOff (s.me.rs b) = false) : exec (.nq b a d) s = .next (s.sTrap 0x02#8 (s.me.rs b)) := by
  show execNq b a d s = _
  rw [execNq]
  dsimp only
  rw [if_pos ⟨hb, by simp [h]⟩]

theorem execNq_zero (hp : s.PlaceFree b) (hk : s.me.rs a = 0#64) : exec (.nq b a d) s = .next (s.reply d 0x8000000000000000#64) := by
  show execNq b a d s = _
  rw [execNq]
  dsimp only
  rw [if_neg hp.off, if_neg hp.busy, if_pos hk]

theorem execNq_unbound (hp : s.PlaceFree b) (hk : s.me.rs a ≠ 0#64) (hb : s.bound s.myCtx (s.me.rs a) = none) :
    exec (.nq b a d) s = .next (s.reply d (1#2 ++ 0#30 ++ s.bgen s.myCtx (s.me.rs a))) := by
  show execNq b a d s = _
  rw [execNq]
  dsimp only
  rw [if_neg hp.off, if_neg hp.busy, if_neg hk, hb]

theorem execNq_bound {t : TBind} (hp : s.PlaceFree b) (hk : s.me.rs a ≠ 0#64) (hb : s.bound s.myCtx (s.me.rs a) = some t) :
    exec (.nq b a d) s = .next ((s.putDesc s.cur (s.dm .inh) (s.me.rs b) t).reply d
      (0#11 ++ BitVec.ofNat 21 ((s.putDesc s.cur (s.dm .inh) (s.me.rs b) t).hcnt t.id) ++ s.bgen s.myCtx (s.me.rs a))) := by
  show execNq b a d s = _
  rw [execNq]
  dsimp only
  rw [if_neg hp.off, if_neg hp.busy, if_neg hk, hb]

theorem hcnt_putDesc (c : Nat) (dom : DTag) (o : Word) (t : TBind) (n : Nat) : (s.putDesc c dom o t).hcnt n = s.hcnt n := by
  rw [putDesc_frame]
  rfl

theorem cur_putDesc (c : Nat) (dom : DTag) (o : Word) (t : TBind) : (s.putDesc c dom o t).cur = s.cur := by
  rw [putDesc_frame]

end

theorem nqWord_unbound (g : BitVec 32) : (1#2 ++ 0#30 ++ g : Word) = BitVec.ofNat 64 (2 ^ 62 + g.toNat) := by
  refine BitVec.eq_of_toNat_eq ?_
  have := g.isLt
  rw [toNat_append_eq, BitVec.toNat_ofNat, show (1#2 ++ 0#30 : BitVec 32).toNat = 2 ^ 30 by decide]
  omega

theorem nqWord_bound (n : Nat) (g : BitVec 32) : (0#11 ++ BitVec.ofNat 21 n ++ g : Word) = BitVec.ofNat 64 (n % 2 ^ 21 * 2 ^ 32 + g.toNat) := by
  refine BitVec.eq_of_toNat_eq ?_
  have := g.isLt
  rw [toNat_append_eq, toNat_append_eq, BitVec.toNat_ofNat, BitVec.toNat_ofNat, BitVec.toNat_ofNat]
  omega

/-- Settles O21. -/
theorem directory : Obligations.Directory := by
  refine ⟨fun s m b a d => ?_, fun t => rfl, fun s b a d => ?_⟩
  · intro k o fit
    have hfit : fit ↔ tarnOff (s.me.rs b) = true := (tarnOff_iff _).symm
    have hplace (h : b = 0#5 ∨ fit ∧ s.me.spBusy s.cur = false) : s.PlaceFree b := h.imp_right fun h => ⟨hfit.1 h.1, h.2⟩
    refine ⟨fun hb hf => ?_, fun hb hf hy => ?_, fun hp he ins hi => ?_, fun hp he => ⟨fun hk => ?_, fun hk hn => ?_, fun t hk ht hfull => ?_,
      fun t i hk ht hi ins hins => ?_⟩⟩
    · have hf : tarnOff (s.me.rs b) = false := by simpa using mt hfit.2 hf
      exact ⟨nopenOp_misplaced hb hf, nopenOp_misplaced hb hf⟩
    · exact ⟨nopenOp_busy (hfit.1 hf) hy, nopenOp_busy (hfit.1 hf) hy⟩
    · obtain rfl | rfl := hi
      · exact nopenOp_expired (hplace hp) he
      · exact nopenOp_expired (hplace hp) he
    · have h (w : Bool) := asks_opens (w := w) rfl (nopenOp_zero (d := d) (hplace hp) he hk)
      exact ⟨h false, h true⟩
    · have h (w : Bool) := nopenOp_unbound (w := w) (d := d) (hplace hp) he hk hn
      exact ⟨asks_opens (w := false) rfl (h false), h true⟩
    · have h (w : Bool) := nopenOp_bound (w := w) (d := d) (hplace hp) he hk ht
      rw [openOn_full (freeSlot_full hfull)] at h
      exact ⟨asks_opens (w := false) rfl (h false), asks_opens (w := true) rfl (h true)⟩
    · have h (w : Bool) := nopenOp_bound (w := w) (d := d) (hplace hp) he hk ht
      rw [openOn_free hi] at h
      generalize hu : (s.taken i s.myCtx (s.dm m) t).putDesc s.cur (s.dm m) (s.me.rs b) t = u at h
      have hframe := putDesc_frame (s.taken i s.myCtx (s.dm m) t) s.cur (s.dm m) (s.me.rs b) t
      rw [hu] at hframe
      have hcur : u.cur = s.cur := by rw [hframe] <;> rfl
      have hme : u.me = u.core s.cur := by rw [State.me, hcur]
      have hasks (w : Bool) := asks_opens hcur (h w)
      refine ⟨u, (((tGet s.hub.hdls i).map (·.gen)).getD 0#24).toNat, ?_, ?_, ?_, ?_, fun hx => ?_, fun hx => ?_⟩
      · obtain rfl | rfl := hins
        · exact hasks false
        · exact hasks true
      · rw [hframe, BitVec.ofNat_toNat, BitVec.setWidth_eq]
        exact tGet_tPut_same _ _ _
      · rw [hme, ← hu, putDesc_regs]
        rfl
      · rw [hframe]
        rfl
      · rw [hme, ← hu]
        exact putDesc_expired (s.taken i s.myCtx (s.dm m) t) _ _ _ _ hx
      · rw [hme, ← hu]
        exact putDesc_sp (s.taken i s.myCtx (s.dm m) t) _ _ _ _ hx
  · intro k o
    have hoff : (o % 32 = 0 ∧ 0x800 ≤ o ∧ o ≤ 0x7FFE0) ↔ tarnOff (s.me.rs b) = true := (tarnOff_iff _).symm
    refine ⟨fun h => reply_asks _ s s d _ rfl (execNclose_none h), fun i n e h he => ?_, fun hp => ?_, fun hb hf => ?_⟩
    · obtain ⟨e', q, dm, h1, ho⟩ := handleOf_some h
      obtain rfl : e' = e := Option.some.inj (h1.symm.trans he)
      obtain ⟨hh, -, -, hc, hm⟩ := reclaim_tables (s.updHub fun k => { k with hdls := tPut k.hdls i ⟨e'.gen + 1#24, none⟩ }) n
      have hcl := closeHdl_owned he ho
      rw [← hcl] at hh hc hm
      refine ⟨s.closeHdl i, hc.symm, hm.symm, ?_, ?_⟩
      · rw [hh]
        exact tGet_tPut_same _ _ _
      · have := reply_asks _ s (s.closeHdl i) d _ (by rw [hcl, cur_reclaim]; rfl) (execNclose_some (d := d) h)
        simpa only [List.any_eq_true, beq_iff_eq] using this
    · have hp : s.PlaceFree b := hp.imp_right fun h => ⟨hoff.1 h.1, h.2⟩
      refine ⟨fun hk => reply_asks _ s s d _ rfl (execNq_zero hp hk), fun hk hn => ?_, fun t hk ht => ?_⟩
      · have := reply_asks _ s s d _ rfl (execNq_unbound (d := d) hp hk hn)
        rwa [nqWord_unbound] at this
      · have hcur := cur_putDesc (s := s) s.cur (s.dm .inh) (s.me.rs b) t
        have hme : (s.putDesc s.cur (s.dm .inh) (s.me.rs b) t).me = (s.putDesc s.cur (s.dm .inh) (s.me.rs b) t).core s.cur := by
          rw [State.me, hcur]
        have hq := execNq_bound (d := d) hp hk ht
        rw [hcnt_putDesc, nqWord_bound] at hq
        refine ⟨s.putDesc s.cur (s.dm .inh) (s.me.rs b) t, ?_, fun c hc => putDesc_other _ _ _ _ _ hc, ?_, fun hx => ?_, fun hx => ?_,
          reply_asks _ s _ d _ hcur hq⟩
        · rw [putDesc_frame]
        · rw [hme]
          exact putDesc_regs ..
        · rw [hme]
          exact putDesc_expired _ _ _ _ _ hx
        · rw [hme]
          exact putDesc_sp _ _ _ _ _ hx
    · exact execNq_misplaced hb (by simpa using mt hoff.2 hf)

end Sys2Proof.Machine
end

section
/-! What the checks of an access leave as it is, and the posting of stores. -/

namespace Sys2Proof.Machine

/-! Checks fill translation buffers, and nothing else. -/

/-- Nothing but the translation buffers of cores and of clusters differs. -/
def State.Fills (s t : State) : Prop :=
  t = { s with cores := t.cores, cls := t.cls } ∧ ∀ d, ∃ i j k, t.core d = { s.core d with itlb := i, dtlb := j, stlb := k }

namespace State.Fills

theorem refl (s : State) : s.Fills s := ⟨rfl, fun _ => ⟨_, _, _, rfl⟩⟩

theorem trans {s t u : State} (h : s.Fills t) (g : t.Fills u) : s.Fills u := by
  obtain ⟨h1, h2⟩ := h
  obtain ⟨g1, g2⟩ := g
  refine ⟨by rw [g1, h1], fun d => ?_⟩
  obtain ⟨i, j, k, hd⟩ := h2 d
  obtain ⟨i', j', k', gd⟩ := g2 d
  exact ⟨i', j', k', by rw [gd, hd]⟩

variable {s t : State} (h : s.Fills t)
include h

theorem cur : t.cur = s.cur := by rw [h.1]
theorem cyc : t.cyc = s.cyc := by rw [h.1]
theorem mem : t.mem = s.mem := by rw [h.1]
theorem net : t.net = s.net := by rw [h.1]
theorem hub : t.hub = s.hub := by rw [h.1]
theorem nextId : t.nextId = s.nextId := by rw [h.1]

theorem core (d : Nat) : ∃ i j k, t.core d = { s.core d with itlb := i, dtlb := j, stlb := k } := h.2 d

theorem me : ∃ i j k, t.me = { s.me with itlb := i, dtlb := j, stlb := k } := by
  obtain ⟨i, j, k, e⟩ := h.2 s.cur
  exact ⟨i, j, k, by rw [State.me, h.cur, e] <;> rfl⟩

end State.Fills

theorem Core.fill_tlbs (x : Core) (b : TBuf) (e : Tlb) : ∃ i j k, x.fill b e = { x with itlb := i, dtlb := j, stlb := k } := by
  cases b <;> exact ⟨_, _, _, rfl⟩

theorem fills_upd (s : State) (c : Nat) (b : TBuf) (e : Tlb) : s.Fills (s.upd c fun x => x.fill b e) := by
  refine ⟨rfl, fun d => ?_⟩
  rw [State.core_upd]
  split
  · next h =>
    subst h
    exact Core.fill_tlbs _ _ _
  · exact ⟨_, _, _, rfl⟩

theorem fills_updCl (s : State) (k : Nat) (f : Cluster → Cluster) : s.Fills (s.updCl k f) := ⟨rfl, fun _ => ⟨_, _, _, rfl⟩⟩

section
variable {s : State} {c : Nat} {b : TBuf} {ctx : Ctx}

theorem fills_xlate (s : State) (c : Nat) (b : TBuf) (ctx : Ctx) (ok : Word → Bool) (va : Word) : s.Fills (s.xlate c b ctx ok va).2 := by
  unfold State.xlate
  split
  · exact .refl s
  · split
    · exact fills_upd ..
    · split
      · exact .refl s
      · split
        · exact .refl s
        · split
          · exact .refl s
          · dsimp only
            exact (fills_upd s c b _).trans (fills_updCl _ _ _)

theorem fills_chkPiece {acc : Acc} {fps : Option (List (BitVec 128))} {va : Word} {n : Nat} {ps : List Piece} {t : State}
    (h : s.chkPiece c b ctx acc fps va n = .ok ps t) : s.Fills t := by
  have hx := fills_xlate s c b ctx (leafOk acc) va
  unfold State.chkPiece at h
  split at h
  · unfold demFault at h
    split at h <;> cases h
  · next e =>
    rw [e] at hx
    split at h
    · unfold demFault at h
      split at h <;> cases h
    · split at h
      · cases h
      · cases h
        exact hx

theorem fills_chkPieces {acc : Acc} {fps : Option (List (BitVec 128))} {l : List (Word × Nat)} {ps : List Piece} {t : State}
    (h : s.chkPieces c b ctx acc fps l = .ok ps t) : s.Fills t := by
  induction l generalizing s ps t with
  | nil =>
    cases h
    exact .refl s
  | cons p l ih =>
    obtain ⟨a, n⟩ := p
    rw [State.chkPieces] at h
    split at h
    · next h1 =>
      split at h
      · next h2 =>
        cases h
        exact (fills_chkPiece h1).trans (ih h2)
      · next x hx => exact absurd h (hx _ _)
    · next x hx => exact absurd h (hx _ _)

/-- The checks of an access that passes fill translation buffers only. -/
theorem fills_chk {w : Who} {acc : Acc} {fps : Option (List (BitVec 128))} {a : Word} {n : Nat} {ps : List Piece} {t : State}
    (h : s.chk w b acc fps a n = .ok ps t) : s.Fills t := by
  unfold State.chk at h
  split at h
  · cases h
  · split at h
    · cases h
    · split at h
      · cases h
      · split at h
        · cases h
        · cases h
          exact .refl s
  · split at h
    · cases h
    · split at h
      · cases h
      · cases h
        exact .refl s
  · split at h
    · cases h
    · split at h
      · cases h
      · exact fills_chkPieces h
  · dsimp only at h
    split at h
    · cases h
    · cases h
      exact .refl s

end

/-- Checks that pass hand their pieces on, in a state that differs in the watchpoint mark only. -/
theorem sAcc_ok {s : State} {acc : Acc} {a : Word} {n : Nat} {ps : List Piece} {w : State} (h : s.Passes acc a n ps w)
    (k : List Piece → State → State) : s.sAcc acc a n k = k ps (w.watch w.cur acc a n) := by
  unfold State.Passes at h
  unfold State.sAcc
  dsimp only
  rw [h]

/-! Posted stores. -/

/-- The bytes of a pending store. -/
def storeBytes : AccOp → List Byte
  | .store bs => bs
  | _ => []

/-- The pending accesses of a store: each piece takes its share of the bytes. -/
def shares (f : Piece → List Byte → PAcc) : List Piece → List Byte → List PAcc
  | [], _ => []
  | p :: r, bs => f p (bs.take p.n) :: shares f r (bs.drop p.n)

theorem foldl_shares (f : Piece → List Byte → PAcc) (ps : List Piece) (l : List PAcc) (bs : List Byte) :
    (ps.foldl (fun (acc : List PAcc × List Byte) p => (acc.1 ++ [f p (acc.2.take p.n)], acc.2.drop p.n)) (l, bs)).1 = l ++ shares f ps bs := by
  induction ps generalizing l bs with
  | nil => simp [shares]
  | cons p r ih => rw [List.foldl_cons, ih, shares, List.append_assoc, List.singleton_append]

theorem map_shares {α : Type} (f : Piece → List Byte → PAcc) (g : PAcc → α) (h : Piece → α) (hg : ∀ p bs, g (f p bs) = h p) (ps : List Piece)
    (bs : List Byte) : (shares f ps bs).map g = ps.map h := by
  induction ps generalizing bs with
  | nil => rfl
  | cons p r ih => rw [shares, List.map_cons, hg, ih, List.map_cons]

theorem mem_shares {f : Piece → List Byte → PAcc} {ps : List Piece} {bs : List Byte} {e : PAcc} (h : e ∈ shares f ps bs) :
    ∃ p ∈ ps, ∃ b, e = f p b := by
  induction ps generalizing bs with
  | nil => cases h
  | cons p r ih =>
    rw [shares, List.mem_cons] at h
    obtain rfl | h := h
    · exact ⟨p, List.mem_cons_self, _, rfl⟩
    · obtain ⟨q, hq, b, e⟩ := ih h
      exact ⟨q, List.mem_cons_of_mem _ hq, b, e⟩

theorem flatten_shares (f : Piece → List Byte → PAcc) (hf : ∀ p bs, storeBytes (f p bs).op = bs) (ps : List Piece) (bs : List Byte)
    (h : (ps.map (·.n)).sum = bs.length) : ((shares f ps bs).map fun e => storeBytes e.op).flatten = bs := by
  induction ps generalizing bs with
  | nil =>
    have : bs = [] := List.eq_nil_of_length_eq_zero (by simpa using h.symm)
    rw [this]
    rfl
  | cons p r ih =>
    rw [List.map_cons, List.sum_cons] at h
    rw [shares, List.map_cons, List.flatten_cons, hf, ih _ (by rw [List.length_drop]; omega), List.take_append_drop]

/-- A piece of a store that is posted. -/
def State.postOf (s : State) (w : Who) (dom : DTag) (rel : Bool) (fl : BitVec 5) (p : Piece) (bs : List Byte) : PAcc :=
  ⟨s.nextId, w.w, p, .store bs, dom, rel && p.kind != .uo, w.task, w.ctx, w.act, (s.core w.core).afterOf w.w, none, fl⟩

theorem postStore_eq (s : State) (w : Who) (ps : List Piece) (bs : List Byte) (dom : DTag) (rel : Bool) (fl : BitVec 5) :
    s.postStore w ps bs dom rel fl = (s.upd w.core fun x => { x with acc := x.acc ++ shares (s.postOf w dom rel fl) ps bs }).fresh := by
  have h := foldl_shares (s.postOf w dom rel fl) ps [] bs
  rw [List.nil_append] at h
  rw [← h]
  rfl

/-- A store with a piece outside the own scratchpad is posted. -/
theorem doStore_posts {s : State} {w : Who} {ps : List Piece} (h : ∃ p ∈ ps, ∀ off, p.at_ ≠ .sp w.core off) (bs : List Byte) (dom : DTag) (rel : Bool)
    (fl : BitVec 5) : s.doStore w ps bs dom rel fl = s.postStore w ps bs dom rel fl := by
  unfold State.doStore
  split
  · next p =>
    obtain ⟨q, hq, hoff⟩ := h
    rw [List.mem_singleton] at hq
    subst hq
    split
    · next c off hat =>
      refine if_neg fun hc => ?_
      rw [hc.1] at hat
      exact hoff off hat
    · rfl
  · rfl

theorem ownSp_false {c : Nat} {ps : List Piece} (h : ∃ p ∈ ps, ∀ off, p.at_ ≠ .sp c off) : ownSp c ps = false := by
  obtain ⟨p, hp, hoff⟩ := h
  refine Bool.eq_false_iff.2 fun ht => ?_
  have := List.all_eq_true.1 ht p hp
  split at this
  · next d o hat =>
    rw [beq_iff_eq.1 this] at hat
    exact hoff o hat
  · cases this

end Sys2Proof.Machine
end

section
/-! Binding at the Tarn, sealing, and the end of a context (12 R212; 14 R251 to R256, R260). -/

namespace Sys2Proof.Machine

/-! What leaves names and bindings as they are. -/

theorem foldl_keeps {α β : Type} (g : State → β) {f : State → α → State} (h : ∀ s a, g (f s a) = g s) (l : List α) (s : State) :
    g (l.foldl f s) = g s := by
  induction l generalizing s with
  | nil => rfl
  | cons a l ih => rw [List.foldl_cons, ih, h]

/-- The names and the bindings of the Tarn. -/
def State.tarn (s : State) : List Name × List TBind := (s.hub.names, s.hub.binds)

theorem hub_writeAt (s : State) (p : Place) (bs : List Byte) : (s.writeAt p bs).hub = s.hub := by
  unfold State.writeAt
  split <;> rfl

theorem hub_feWrite {ctx : Ctx} {bs : List Byte} {a : Nat} {s u : State} (h : feWrite ctx bs a s = some u) : u.hub = s.hub := by
  induction bs generalizing a s with
  | nil =>
    cases h
    rfl
  | cons b r ih =>
    rw [feWrite] at h
    split at h
    · rw [ih h, hub_writeAt]
    · cases h

theorem tarn_setHEnt (s : State) (ctx : Ctx) (n : Nat) (e : HEnt) : (s.setHEnt ctx n e).tarn = s.tarn := by
  unfold State.setHEnt
  split
  · rfl
  · next k _ =>
    dsimp only
    cases hw : feWrite ctx e.bytes (k.record.hbase.toNat + 16 * n)
      (s.updHub fun y => { y with ctxs := tPut y.ctxs ctx.toNat { k with htab := tPut k.htab n e } }) with
    | none => rfl
    | some u =>
      rw [Option.getD_some, State.tarn, hub_feWrite hw]
      rfl

theorem tarn_openOn (s : State) (c : Nat) (ctx : Ctx) (dom : DTag) (o : Word) (b : TBind) : (s.openOn c ctx dom o b).2.tarn = s.tarn := by
  unfold State.openOn
  split
  · rfl
  · dsimp only
    rw [putDesc_frame]
    rfl

theorem tarn_satisfy (s : State) (ctx : Ctx) (l : List Word) : (s.satisfy ctx l).tarn = s.tarn := by
  unfold State.satisfy
  refine foldl_keeps State.tarn (fun s e => ?_) _ s
  dsimp only
  split
  · rfl
  · exact tarn_openOn ..

theorem name_congr {s t : State} (h : t.hub.names = s.hub.names) (ctx : Ctx) (key : Word) : t.name ctx key = s.name ctx key := by
  rw [State.name, h, State.name]

/-! Installing one entry. -/

/-- The names once an entry is installed, and the bindings before an old one is given up. -/
def State.newNames (s : State) (ctx : Ctx) (e : NBind) : List Name :=
  (s.hub.names.filter fun n => ! (n.ctx == ctx && n.key == e.key)) ++
    [(⟨ctx, e.key, genNext (s.bgen ctx e.key), if e.binds then some s.nextId else none⟩ : Name)]
def State.newBind (s : State) (ctx : Ctx) (e : NBind) : TBind :=
  ⟨s.nextId, ctx, e.key, genNext (s.bgen ctx e.key), e.base, BitVec.ofNat 64 (64 * e.len.toNat), e.lrec, e.ver, false⟩
def State.newBinds (s : State) (ctx : Ctx) (e : NBind) : List TBind :=
  let bs := s.hub.binds.map fun x => if (s.name ctx e.key).bind (·.bind) = some x.id then { x with retired := true } else x
  if e.binds then bs ++ [s.newBind ctx e] else bs

/-- The state before the old binding is given up. -/
theorem install_eq (s : State) (ctx : Ctx) (e : NBind) : ∃ t : State, t.tarn = (s.newNames ctx e, s.newBinds ctx e) ∧
    s.install ctx e = match (s.name ctx e.key).bind (·.bind) with | some o => t.reclaim o | none => t := by
  unfold State.install
  dsimp only
  refine ⟨_, ?_, rfl⟩
  refine foldl_keeps State.tarn (fun s h => ?_) _ _
  exact tarn_setHEnt ..

theorem reclaim_binds (s : State) (o : Nat) : (s.reclaim o).hub.binds = s.hub.binds ∨
    (∃ x, s.hub.binds.find? (fun x => x.id == o) = some x ∧ x.retired = true) ∧
      (s.reclaim o).hub.binds = s.hub.binds.filter fun y => y.id != o := by
  unfold State.reclaim
  split
  · exact Or.inl rfl
  · next x hx =>
    split
    · next h => exact Or.inr ⟨⟨x, hx, h.1⟩, rfl⟩
    · exact Or.inl rfl

theorem install_names (s : State) (ctx : Ctx) (e : NBind) : (s.install ctx e).hub.names = s.newNames ctx e := by
  obtain ⟨t, h1, h2⟩ := install_eq s ctx e
  have hn : t.hub.names = s.newNames ctx e := congrArg Prod.fst h1
  rw [h2]
  split
  · rw [(reclaim_tables t _).2.1, hn]
  · exact hn

theorem find?_newBind {s : State} {ctx : Ctx} {e : NBind} (he : e.binds = true) (h : ∀ x ∈ s.hub.binds, x.id < s.nextId) :
    (s.newBinds ctx e).find? (fun x => x.id == s.nextId) = some (s.newBind ctx e) := by
  unfold State.newBinds
  rw [if_pos he, List.find?_append, List.find?_eq_none.2]
  · simp [State.newBind]
  · intro x hx
    obtain ⟨y, hy, rfl⟩ := List.mem_map.1 hx
    have := h y hy
    split <;> simp <;> omega

theorem find?_filter_ne {l : List TBind} {n o : Nat} (h : n ≠ o) :
    (l.filter fun y => y.id != o).find? (fun x => x.id == n) = l.find? fun x => x.id == n := by
  rw [List.find?_filter]
  congr 1
  funext x
  by_cases hx : x.id = n <;> simp [hx, h]

theorem install_binds {s : State} {ctx : Ctx} {e : NBind} (he : e.binds = true) (h : ∀ x ∈ s.hub.binds, x.id < s.nextId) :
    (s.install ctx e).hub.binds.find? (fun x => x.id == s.nextId) = some (s.newBind ctx e) := by
  obtain ⟨t, h1, h2⟩ := install_eq s ctx e
  have hb : t.hub.binds = s.newBinds ctx e := congrArg Prod.snd h1
  have hf := find?_newBind (ctx := ctx) he h
  rw [h2]
  split
  · next o _ =>
    obtain hr | ⟨⟨x, hx, hret⟩, hr⟩ := reclaim_binds t o
    · rw [hr, hb, hf]
    · have hne : s.nextId ≠ o := by
        rintro rfl
        rw [hb, hf] at hx
        obtain rfl := Option.some.inj hx
        cases hret
      rw [hr, find?_filter_ne hne, hb, hf]
  · rw [hb, hf]

theorem name_install_same (s : State) (ctx : Ctx) (e : NBind) : (s.install ctx e).name ctx e.key =
    some ⟨ctx, e.key, genNext (s.bgen ctx e.key), if e.binds then some s.nextId else none⟩ := by
  rw [State.name, install_names, State.newNames, List.find?_append, List.find?_eq_none.2]
  · simp
  · intro n hn
    have := (List.mem_filter.1 hn).2
    simpa [imp_iff_not_or] using this

theorem name_install_other (s : State) {ctx c : Ctx} {e : NBind} {k : Word} (h : (c, k) ≠ (ctx, e.key)) :
    (s.install ctx e).name c k = s.name c k := by
  have hne : ¬ (ctx = c ∧ e.key = k) := fun ⟨h1, h2⟩ => h (by rw [h1, h2])
  rw [State.name, install_names, State.newNames, List.find?_append, State.name, List.find?_filter]
  rw [List.find?_singleton, if_neg (by simpa using hne), Option.or_none]
  congr 1
  funext n
  by_cases hn : n.ctx = c ∧ n.key = k
  · obtain ⟨rfl, rfl⟩ := hn
    have hne : n.ctx = ctx → n.key ≠ e.key := fun h1 h2 => hne ⟨h1.symm, h2.symm⟩
    simpa [imp_iff_not_or] using hne
  · have : (n.ctx == c && n.key == k) = false := by simpa using hn
    simp only [this, Bool.false_eq_true, and_false, decide_false]

/-! The bind. -/

section
variable {s : State} {ctx : Ctx} {dom : DTag}

theorem bindAll_expired (h : s.expired hubEp dom = true) (l : List NBind) : s.bindAll ctx dom l = (some (tarnNo 0 10), s) := if_pos h

theorem bindAll_refused {l : List NBind} {i : Nat} {e : NBind} (h : s.expired hubEp dom = false) (hi : l[i]? = some e)
    (h1 : e.expect ≠ BitVec.allOnes 32) (h2 : e.expect ≠ s.bgen ctx e.key)
    (hb : ∀ j f, j < i → l[j]? = some f → f.expect = BitVec.allOnes 32 ∨ f.expect = s.bgen ctx f.key) :
    s.bindAll ctx dom l = (some (tarnNo i 9), s) := by
  obtain ⟨hl, he⟩ := List.getElem?_eq_some_iff.1 hi
  have hf : (((List.range l.length).zip l).find? fun p => p.2.expect != 0xFFFFFFFF#32 && p.2.expect != s.bgen ctx p.2.key) = some (i, e) := by
    refine List.find?_eq_some_iff_getElem.2 ⟨by simp [h2]; exact h1, i, by simpa using hl, by simp [he], fun j hj => ?_⟩
    have hjl : j < l.length := by omega
    obtain h | h := hb j l[j] hj (List.getElem?_eq_getElem hjl)
    · simp [h, show BitVec.allOnes 32 = 0xFFFFFFFF#32 from rfl]
    · simp [h]
  unfold State.bindAll
  rw [if_neg (by simp [h])]
  dsimp only
  rw [hf]

theorem bindAll_one {e : NBind} (h : s.expired hubEp dom = false) (hx : e.expect = BitVec.allOnes 32 ∨ e.expect = s.bgen ctx e.key)
    (hr : s.name ctx e.key ≠ none ∨ s.hub.names.length < nNames) : s.bindAll ctx dom [e] = (none, (s.install ctx e).satisfy ctx [e.key]) := by
  have hf : ((List.range [e].length).zip [e]).find? (fun p => p.2.expect != 0xFFFFFFFF#32 && p.2.expect != s.bgen ctx p.2.key) = none := by
    obtain h | h := hx
    · simp [h, List.range_succ, show BitVec.allOnes 32 = 0xFFFFFFFF#32 from rfl]
    · simp [h, List.range_succ]
  have hnew : (((List.range [e].length).zip [e]).filter fun p => (s.name ctx p.2.key).isNone).length ≤ nNames - s.hub.names.length := by
    obtain h | h := hr
    · simp [List.range_succ, h]
    · refine (List.length_filter_le _ _).trans ?_
      simp [List.range_succ]
      omega
  unfold State.bindAll
  rw [if_neg (by simp [h])]
  dsimp only
  rw [hf]
  dsimp only
  rw [if_neg (by omega)]
  dsimp only
  rw [Nat.sub_eq_zero_of_le hnew, List.take_zero]
  have : (s.updHub fun h => { h with names := h.names.filter fun n => ! ([] : List Name).contains n }) = s := by
    simp [State.updHub]
  rw [this]
  rfl

end

/-! The end of a context. -/

section
variable {ctx : Ctx}

/-- One slot of the table, looked at when a context is destroyed. -/
def State.shut (s : State) (ctx : Ctx) (p : Nat × Hdl) : State :=
  match p.2.own with
  | some (k, _, _) => if k = ctx then s.closeHdl p.1 else s
  | none => s

theorem execContextDestroyed_eq (s : State) (ctx : Ctx) : exec (.contextDestroyed ctx) s =
    .next ((s.hub.hdls.foldl (fun s p => s.shut ctx p) s).updHub fun h => { h with ctxs := tDel h.ctxs ctx.toNat }) := rfl

theorem closeHdl_tables (s : State) (i : Nat) :
    (s.closeHdl i).hub.ctxs = s.hub.ctxs ∧ (s.closeHdl i).cores = s.cores ∧ (s.closeHdl i).mem = s.mem := by
  unfold State.closeHdl
  split
  · split
    · obtain ⟨-, -, h1, h2, h3⟩ := reclaim_tables (s.updHub _) _
      exact ⟨h1, h2, h3⟩
    · exact ⟨rfl, rfl, rfl⟩
  · exact ⟨rfl, rfl, rfl⟩

theorem shut_keeps (s : State) (p : Nat × Hdl) :
    ((s.shut ctx p).hub.ctxs, (s.shut ctx p).cores, (s.shut ctx p).mem) = (s.hub.ctxs, s.cores, s.mem) := by
  unfold State.shut
  split
  · split
    · obtain ⟨h1, h2, h3⟩ := closeHdl_tables s p.1
      rw [h1, h2, h3]
    · rfl
  · rfl

theorem hdls_closeHdl (s : State) (i j : Nat) : tGet (s.closeHdl i).hub.hdls j =
    if j = i then (tGet s.hub.hdls i).map fun h => if h.own = none then h else ⟨h.gen + 1#24, none⟩ else tGet s.hub.hdls j := by
  unfold State.closeHdl
  split
  · next h hi =>
    split
    · next k q b ho =>
      rw [(reclaim_tables _ _).1]
      refine (tGet_tPut _ _ _ _).trans ?_
      rw [hi]
      simp [ho]
    · next ho =>
      split
      · next e =>
        subst e
        rw [hi]
        simp [ho]
      · rfl
  · next hi =>
    split
    · next e =>
      subst e
      rw [hi]
      rfl
    · rfl

theorem hdls_shut (s : State) (p : Nat × Hdl) (i : Nat) : tGet (s.shut ctx p).hub.hdls i = tGet s.hub.hdls i ∨
    (p.1 = i ∧ tGet (s.shut ctx p).hub.hdls i = tGet (s.closeHdl i).hub.hdls i) := by
  unfold State.shut
  split
  · split
    · by_cases h : i = p.1
      · subst h
        exact Or.inr ⟨rfl, rfl⟩
      · exact Or.inl ((hdls_closeHdl s p.1 i).trans (if_neg h))
    · exact Or.inl rfl
  · exact Or.inl rfl

theorem closed_stays {i : Nat} {g : BitVec 24} (l : List (Nat × Hdl)) {s : State} (h : tGet s.hub.hdls i = some ⟨g, none⟩) :
    tGet (l.foldl (fun s p => s.shut ctx p) s).hub.hdls i = some ⟨g, none⟩ := by
  induction l generalizing s with
  | nil => exact h
  | cons p l ih =>
    rw [List.foldl_cons]
    refine ih ?_
    obtain h' | ⟨-, h'⟩ := hdls_shut (ctx := ctx) s p i
    · rw [h', h]
    · rw [h', hdls_closeHdl, if_pos rfl, h]
      rfl

theorem owned_closes {i : Nat} {h e : Hdl} {k : Ctx × Dom × Nat} (l : List (Nat × Hdl)) (hl : (i, e) ∈ l) (he : ∃ k, e.own = some k ∧ k.1 = ctx)
    (ho : h.own = some k) {s : State} (hs : tGet s.hub.hdls i = some h) :
    tGet (l.foldl (fun s p => s.shut ctx p) s).hub.hdls i = some ⟨h.gen + 1#24, none⟩ := by
  have hclose : tGet (s.closeHdl i).hub.hdls i = some ⟨h.gen + 1#24, none⟩ := by
    rw [hdls_closeHdl, if_pos rfl, hs]
    simp [ho]
  induction l generalizing s with
  | nil => cases hl
  | cons p l ih =>
    rw [List.foldl_cons]
    obtain h' | ⟨-, h'⟩ := hdls_shut (ctx := ctx) s p i
    · rw [List.mem_cons] at hl
      obtain rfl | hl := hl
      · obtain ⟨⟨c, q, b⟩, hk, rfl⟩ := he
        have : s.shut c (i, e) = s.closeHdl i := by
          rw [State.shut]
          dsimp only
          rw [hk]
          exact if_pos rfl
        exact closed_stays l (by rw [this, hclose])
      · refine ih hl (h'.trans hs) ?_
        rw [hdls_closeHdl, if_pos rfl, h', hs]
        simp [ho]
    · exact closed_stays l (h'.trans hclose)

end

/-! Reading a list in the scratchpad. -/

section
variable (x : Core)

theorem spRead_take (o n k : Nat) (h : k ≤ n) : (x.spRead o n).take k = x.spRead o k := by
  induction k generalizing o n with
  | zero => rfl
  | succ k ih =>
    obtain ⟨m, rfl⟩ : ∃ m, n = m + 1 := ⟨n - 1, by omega⟩
    rw [Core.spRead, List.take_succ_cons, ih _ _ (by omega), Core.spRead]

theorem spRead_drop (o n k : Nat) (h : k ≤ n) : (x.spRead o n).drop k = x.spRead (o + k) (n - k) := by
  induction k generalizing o n with
  | zero => rfl
  | succ k ih =>
    obtain ⟨m, rfl⟩ : ∃ m, n = m + 1 := ⟨n - 1, by omega⟩
    rw [Core.spRead, List.drop_succ_cons, ih _ _ (by omega), Nat.add_sub_add_right, Nat.add_right_comm, Nat.add_assoc]

theorem mem_spRead {o n : Nat} {b : Byte} (h : b ∈ x.spRead o n) : ∃ i < n, b = x.spGet (o + i) := by
  induction n generalizing o with
  | zero => cases h
  | succ n ih =>
    rw [Core.spRead, List.mem_cons] at h
    obtain rfl | h := h
    · exact ⟨0, by omega, rfl⟩
    · obtain ⟨i, hi, rfl⟩ := ih h
      exact ⟨i + 1, by omega, by rw [Nat.add_right_comm, Nat.add_assoc]⟩

end

/-- Loads noted at the watchpoints leave the core's turn, and its scratchpad. -/
theorem watched (l : List Nat) (f : Nat → Word) (s : State) : let y := l.foldl (fun (z : State) i => z.watch z.cur .load (f i) 8) s
    y.cur = s.cur ∧ ∃ d, y.me = { s.me with dbg := d } := by
  induction l generalizing s with
  | nil => exact ⟨rfl, _, rfl⟩
  | cons i l ih =>
    obtain ⟨h1, h2⟩ := ih (s.watch s.cur .load (f i) 8)
    obtain ⟨ho, -, h, hm, -⟩ := watch_marked s .load (f i) 8
    obtain ⟨d, h2⟩ := h2
    exact ⟨h1.trans ho.cur, d, by rw [List.foldl_cons, h2, hm]⟩

section
variable {s : State} {m : Dm} {a b d : Reg}

/-- A list that is well placed and shaped, at hand, and free of watermarks and of soft errors (14 R260). -/
structure State.ListAt (s : State) (a : Word) (n : Nat) : Prop where
  off : a.toNat % 32 = 0
  low : 0x800 ≤ a.toNat
  high : a.toNat + 32 + 32 * n ≤ 0x80000
  some : 1 ≤ n
  few : n ≤ 8
  count : (s.me.spWord a.toNat).toNat = n
  zero : ∀ i, 8 ≤ i → i < 32 → s.me.spGet (a.toNat + i) = 0#8
  free : s.me.spBusy s.cur = false
  open_ : ∀ i, i < 4 + 4 * n → s.me.wmBlocks (a + BitVec.ofNat 64 (8 * i)) 8 = false
  whole : s.me.Whole a.toNat (32 + 32 * n)

theorem noBlocks {n : Nat} (f : Nat → Word) (h : ∀ i, i < n → s.me.wmBlocks (f i) 8 = false) :
    ¬ ((List.range n).any fun i => s.me.wmBlocks (f i) 8) = true := by
  rw [List.any_eq_true]
  rintro ⟨i, hi, hb⟩
  rw [h i (List.mem_range.1 hi)] at hb
  cases hb

theorem execNbind_list {n : Nat} {l : List NBind} {u : State} (h : s.ListAt (s.me.rs a) n) :
    let y := (List.range (4 + 4 * n)).foldl (fun (z : State) i => z.watch z.cur .load (s.me.rs a + BitVec.ofNat 64 (8 * i)) 8) s
    nbindChk (y.who y.cur false) (s.me.spRead (s.me.rs a).toNat (32 + 32 * n)) (List.range n) [] y = .ok l u →
    u.me.drained false = true → u.me.wbuf = [] →
    exec (.nbind m a d) s = .next ((u.bindAll u.myCtx (u.dm m) l).2.reply d ((u.bindAll u.myCtx (u.dm m) l).1.getD 0#64)) := by
  intro y hy hd hw
  have hcount : recWord (s.me.spRead (s.me.rs a).toNat 32) 0 = s.me.spWord (s.me.rs a).toNat := by
    rw [recWord, List.drop_zero, spRead_take _ _ _ _ (by decide), Core.spWord]
  have h1 := h.some
  have h8 := h.few
  have hhigh := h.high
  have hn : bits (s.me.spWord (s.me.rs a).toNat) 3 0 = n := by
    have := h.count
    unfold bits
    omega
  have hn' : bits (s.me.spWord (s.me.rs a).toNat) 63 4 = 0 := by
    have := h.count
    unfold bits
    omega
  have hz : ((s.me.spRead (s.me.rs a).toNat 32).drop 8).all (· == 0#8) = true := by
    rw [spRead_drop _ _ _ _ (by decide), List.all_eq_true]
    intro b hb
    obtain ⟨i, hi, rfl⟩ := mem_spRead _ hb
    rw [Nat.add_assoc, h.zero _ (by omega) (by omega)]
    rfl
  have hread : y.me.spRead (s.me.rs a).toNat (32 + 32 * n) = s.me.spRead (s.me.rs a).toNat (32 + 32 * n) := by
    obtain ⟨-, e, he⟩ := watched (List.range (4 + 4 * n)) (fun i => s.me.rs a + BitVec.ofNat 64 (8 * i)) s
    rw [he, spRead_dbg]
  show execNbind m a d s = _
  unfold execNbind
  dsimp only
  rw [hcount, hn, hn', if_neg (by simp [(tarnOff_iff (s.me.rs a)).2 ⟨h.off, h.low, by omega⟩]), if_neg (by simp [h.free]),
    if_neg (noBlocks (fun i => s.me.rs a + BitVec.ofNat 64 (8 * i)) fun i hi => h.open_ i (by omega)), if_neg (by rw [hz]; simp; omega),
    if_neg (noBlocks (fun i => s.me.rs a + BitVec.ofNat 64 (8 * i)) h.open_), soft_local _ _ _ _ _ _ _ _ _ _ _ _ h.whole]
  rw [hread, hy]
  dsimp only
  rw [if_neg (by simp [hd, hw])]

/-! Seals. -/

theorem execRseal_read {r : LayRec} {u : State} (h0 : (s.me.rs a).toNat % 128 = 0) (h : s.readSeal (s.who s.cur false) (s.me.rs a) = .ok r u) :
    exec (.rseal b a d) s = .next (
      if ! recShaped r then u.sDone 1 1 fun c => c.ws d 1#64
      else if recSealed r then u.sDone 1 1 fun c => c.ws d 2#64
      else u.sAcc .store (s.me.rs a) 8 fun ps t =>
        let id := t.nextId
        let t := t.doStore (t.who t.cur false) ps
          (leBytes 4 ((s.me.rs b).setWidth 32).toNat ++ leBytes 4 (recSeal r (leBytes 4 ((s.me.rs b).setWidth 32).toNat)).toNat) (t.dm .inh) true
        if t.me.acc.any (fun x => x.aid == id) then t.sHold (.seal id d) 1 1 else t.sDone 1 1 fun c => c.ws d 0#64) := by
  show execRseal b a d s = _
  unfold execRseal
  dsimp only
  rw [if_neg (by omega), h]

/-- The store of a seal whose record lies outside the own scratchpad is posted, and waited for. -/
theorem sealStore_posts {t : State} {p : Piece} {bs : List Byte} (hp : ∀ off, p.at_ ≠ .sp t.cur off) (hn : p.n = bs.length) (hk : p.kind ≠ .uo) :
    ∃ v e, (let z := t.doStore (t.who t.cur false) [p] bs (t.dm .inh) true
        if z.me.acc.any (fun x => x.aid == t.nextId) then z.sHold (.seal t.nextId d) 1 1 else z.sDone 1 1 fun c => c.ws d 0#64) = v ∧
      v.me.stat = .wait (.seal e.aid d) 1 1 ∧ e ∈ v.me.acc ∧ e.p = p ∧ e.rel = true ∧ e.op = .store bs := by
  have hw : (t.who t.cur false).core = t.cur := who_core t t.cur false
  have hpost := doStore_posts (s := t) (w := t.who t.cur false) ⟨p, List.mem_singleton_self p, by rw [hw]; exact hp⟩ bs (t.dm .inh) true 0#5
  rw [postStore_eq, hw] at hpost
  generalize he : t.postOf (t.who t.cur false) (t.dm .inh) true 0#5 p bs = e
  have hl : shares (t.postOf (t.who t.cur false) (t.dm .inh) true 0#5) [p] bs = [e] := by
    rw [shares, shares, hn, List.take_length, he]
  rw [hl] at hpost
  have hacc : ((t.upd t.cur fun x => { x with acc := x.acc ++ [e] }).fresh).me.acc = t.me.acc ++ [e] := by
    rw [State.me_fresh, ← State.updMe_eq, State.me_updMe]
  have hid : e.aid = t.nextId := by rw [← he] <;> rfl
  have hany : ((t.upd t.cur fun x => { x with acc := x.acc ++ [e] }).fresh).me.acc.any (fun x => x.aid == t.nextId) = true := by
    rw [hacc]
    simp [hid]
  refine ⟨_, e, rfl, ?_⟩
  dsimp only
  rw [hpost, if_pos hany, State.sHold, State.me_updMe]
  refine ⟨by rw [hid], ?_, by rw [← he] <;> rfl, ?_, by rw [← he] <;> rfl⟩
  · rw [hacc]
    simp
  · rw [← he]
    simp [State.postOf, hk]

end

/-- Settles O22. -/
theorem bindingAndContexts : Obligations.BindingAndContexts := by
  refine ⟨fun s m b a d => ?_, fun s ctx dom => ⟨fun l he => bindAll_expired he l, fun l i e he hi h1 h2 hb => bindAll_refused he hi h1 h2 hb,
    fun e he hx hr hid => ?_⟩, fun s ctx => ⟨_, execContextDestroyed_eq s ctx, ?_, ?_, ?_, fun i h hm k hi ho hk => ?_⟩⟩
  · intro o n
    refine ⟨fun h => ?_, fun h1 h2 h3 h4 h5 h6 h7 h8 h9 => ?_, fun h => ?_, fun r u h0 hr => ⟨fun hs => ?_, fun hs hl => ?_,
      fun p w hs hl hc hp hn hk => ?_⟩⟩
    · have : tarnOff (s.me.rs a) = false := by simpa using mt (tarnOff_iff _).1 h
      show execNbind m a d s = _
      unfold execNbind
      dsimp only
      rw [if_pos (by simp [this])]
    · intro y l u hy hu hd hw v t hv ht
      have := execNbind_list (m := m) (d := d) ⟨h1, h2, h3, h4, h5, rfl, h6, h7, h8, h9⟩ hy hd hw
      rw [hv] at this
      exact reply_asks _ s t d _ ht this
    · show execRseal b a d s = _
      unfold execRseal
      dsimp only
      rw [if_pos h]
    · refine ⟨_, execRseal_read h0 hr, ?_⟩
      rw [if_pos (by simp [hs])]
      exact u.sDone_ws 1 1 d _
    · refine ⟨_, execRseal_read h0 hr, ?_⟩
      rw [if_neg (by simp [hs]), if_pos hl]
      exact u.sDone_ws 1 1 d _
    · have hx := execRseal_read (b := b) (d := d) h0 hr
      rw [if_neg (by simp [hs]), if_neg (by simp [hl]), sAcc_ok hc] at hx
      have hcur : (w.watch w.cur .store (s.me.rs a) 8).cur = u.cur :=
        (watch_marked w .store (s.me.rs a) 8).1.cur.trans (fills_chk hc).cur
      have hv : ((s.me.rs b).setWidth 32 : BitVec 32).toNat = (s.me.rs b).toNat % 2 ^ 32 := BitVec.toNat_setWidth ..
      rw [hv] at hx
      generalize w.watch w.cur .store (s.me.rs a) 8 = z at hx hcur
      obtain ⟨t, e, h1, h2, h3, h4, h5, h6⟩ := sealStore_posts (d := d) (t := z) (p := p)
        (bs := leBytes 4 ((s.me.rs b).toNat % 2 ^ 32) ++ leBytes 4 (recSeal r (leBytes 4 ((s.me.rs b).toNat % 2 ^ 32))).toNat)
        (by rw [hcur]; exact hp) (by simp [leBytes_length, hn]) hk
      exact ⟨t, e, hx.trans (congrArg _ h1), h2, h3, h4, h5, h6⟩
  · have htn := tarn_satisfy (s.install ctx e) ctx [e.key]
    have hname (c : Ctx) (k : Word) := name_congr (congrArg Prod.fst htn) c k
    have hbinds : ((s.install ctx e).satisfy ctx [e.key]).hub.binds = (s.install ctx e).hub.binds := congrArg Prod.snd htn
    refine ⟨_, bindAll_one he hx hr, ?_, fun c k hck => ?_, fun hb => ?_, fun hb => ⟨s.newBind ctx e, ?_, rfl, rfl, rfl⟩⟩
    · rw [State.bgen, hname, name_install_same]
      rfl
    · rw [State.bgen, hname, name_install_other s hck, State.bgen]
    · rw [State.bound, hname, name_install_same, hb]
      rfl
    · rw [State.bound, hname, name_install_same, hb, hbinds]
      exact install_binds hb hid
  · exact congrArg (fun z => z.2.2) (foldl_keeps (fun s : State => (s.hub.ctxs, s.cores, s.mem)) (fun s p => shut_keeps s p) s.hub.hdls s)
  · exact congrArg (fun z => z.2.1) (foldl_keeps (fun s : State => (s.hub.ctxs, s.cores, s.mem)) (fun s p => shut_keeps s p) s.hub.hdls s)
  · exact congrArg (fun z => tDel z.1 ctx.toNat) (foldl_keeps (fun s : State => (s.hub.ctxs, s.cores, s.mem)) (fun s p => shut_keeps s p) s.hub.hdls s)
  · exact owned_closes s.hub.hdls hm ⟨k, ho, hk⟩ ho hi

end Sys2Proof.Machine
end

section
/-! Loads outside the own scratchpad wait, and stores there are posted (10 R177, R179, R181; 20 R321). -/

namespace Sys2Proof.Machine

/-! The machine after the checks of an access. -/

/-- Nothing but translation buffers and debug modules of cores, and clusters' buffers, differs. -/
def State.Checked (s z : State) : Prop :=
  z = { s with cores := z.cores, cls := z.cls } ∧
    ∀ d, ∃ i j k h, z.core d = { s.core d with itlb := i, dtlb := j, stlb := k, dbg := h }

namespace State.Checked

theorem trans {s t u : State} (h : s.Checked t) (g : t.Checked u) : s.Checked u := by
  obtain ⟨h1, h2⟩ := h
  obtain ⟨g1, g2⟩ := g
  refine ⟨by rw [g1, h1], fun d => ?_⟩
  obtain ⟨i, j, k, e, hd⟩ := h2 d
  obtain ⟨i', j', k', e', gd⟩ := g2 d
  exact ⟨i', j', k', e', by rw [gd, hd]⟩

theorem of_fills {s t : State} (h : s.Fills t) : s.Checked t := by
  refine ⟨h.1, fun d => ?_⟩
  obtain ⟨i, j, k, hd⟩ := h.2 d
  exact ⟨i, j, k, (s.core d).dbg, hd⟩

theorem of_onlyCore {s t : State} {c : Nat} (h : s.OnlyCore t c) (hm : t.mem = s.mem) (hd : ∃ e, t.core c = { s.core c with dbg := e }) :
    s.Checked t := by
  obtain ⟨h1, h2, -⟩ := h
  refine ⟨?_, fun d => ?_⟩
  · rw [h1, hm]
  · by_cases e : d = c
    · subst e
      obtain ⟨e, he⟩ := hd
      exact ⟨_, _, _, e, he⟩
    · exact ⟨_, _, _, _, h2 d e⟩

theorem of_watch (s : State) (acc : Acc) (a : Word) (n : Nat) : s.Checked (s.watch s.cur acc a n) := by
  obtain ⟨h1, h2, h, h3, -⟩ := watch_marked s acc a n
  refine of_onlyCore h1 h2 ⟨{ s.me.dbg with hit := h }, ?_⟩
  rw [State.me, h1.cur] at h3
  exact h3

theorem of_count (s : State) (c : Nat) (k : BitVec 3) (pc : Word) (w : Bool) : s.Checked (s.count c k pc w) := by
  obtain ⟨h1, h2, r, o, h3⟩ := s.count_spec c k pc w
  exact of_onlyCore h1 h2 ⟨_, h3⟩

variable {s z : State} (h : s.Checked z)
include h

theorem cur : z.cur = s.cur := by rw [h.1]
theorem cyc : z.cyc = s.cyc := by rw [h.1]
theorem mem : z.mem = s.mem := by rw [h.1]
theorem net : z.net = s.net := by rw [h.1]
theorem hub : z.hub = s.hub := by rw [h.1]
theorem nextId : z.nextId = s.nextId := by rw [h.1]

theorem me : ∃ i j k e, z.me = { s.me with itlb := i, dtlb := j, stlb := k, dbg := e } := by
  obtain ⟨i, j, k, e, hd⟩ := h.2 s.cur
  exact ⟨i, j, k, e, by rw [State.me, h.cur, hd] <;> rfl⟩

theorem dtag (t : DTag) : z.dtag t = s.dtag t := by
  unfold State.dtag State.tagOf State.dom
  rw [h.hub]

theorem who : z.who z.cur false = s.who s.cur false := by
  obtain ⟨i, j, k, e, hd⟩ := h.2 s.cur
  rw [h.cur]
  unfold State.who
  rw [hd]
  simp only [h.dtag]

theorem dm (m : Dm) : z.dm m = s.dm m := by
  obtain ⟨i, j, k, e, hd⟩ := h.me
  unfold State.dm
  rw [hd]
  simp only [h.dtag]

end State.Checked

/-- The machine in which an access whose checks pass is made. -/
theorem checked_of_passes {s w : State} {acc : Acc} {a : Word} {n : Nat} {ps : List Piece} (h : s.Passes acc a n ps w) :
    s.Checked (w.watch w.cur acc a n) :=
  (State.Checked.of_fills (fills_chk h)).trans (.of_watch w acc a n)

/-! Effects before a completion. -/

/-- A completion after an effect on the core that the completion does not look at. -/
theorem goes_updMe {s t : State} {pc : Word} {k : Nat} {f : Core → Core} (hd : (f s.me).dbg = s.me.dbg) (hp : (f s.me).pread = s.me.pread)
    (h : (s.updMe f).Goes t pc k id) : s.Goes t pc k f := by
  obtain ⟨h1, h2, h3⟩ := h
  have hme : (s.updMe f).me = f s.me := State.me_updMe s f
  rw [hme, hd] at h2
  rw [hme] at h3
  refine ⟨(State.OnlyCore.upd s s.cur f).trans ⟨?_, ?_⟩ h1, h2, ?_⟩
  · rw [State.core_upd_same]
    exact congrArg Dbg.trBase hd
  · rw [State.core_upd_same]
    exact congrArg Dbg.trSize hd
  · rw [h3, ← hp]
    rfl

/-! Remote loads. -/

section
variable {s w : State} {ea : Word} {n : Nat} {ps : List Piece}

theorem askPeer_none (s : State) (c : Nat) (op : Option (AtOp × Word × Word)) (h : ∀ p ∈ ps, ∀ v, p.at_ ≠ .peer v) : s.askPeer c ps op = s := by
  unfold State.askPeer
  dsimp only
  induction ps with
  | nil => rfl
  | cons p r ih =>
    have hp := h p List.mem_cons_self
    have hr := ih fun q hq => h q (List.mem_cons_of_mem _ hq)
    rw [List.foldl_cons]
    cases hat : p.at_ with
    | peer v => exact absurd hat (hp v)
    | sp c o => exact hr
    | dram pa => exact hr

theorem anyPeer_false (h : ∀ p ∈ ps, ∀ v, p.at_ ≠ .peer v) : (ps.any fun p => match p.at_ with | .peer _ => true | _ => false) = false := by
  refine Bool.eq_false_iff.2 fun ht => ?_
  obtain ⟨p, hp, hv⟩ := List.any_eq_true.1 ht
  split at hv
  · next v e => exact h p hp v e
  · cases hv

/-- A load with a piece outside the own scratchpad. -/
theorem loadAt_remote {g : Bool} {d : Reg} {hi : Option Reg} {ws : Nat} (hb : s.me.wmBlocks ea n = false) (h : s.Passes .load ea n ps w)
    (ho : ∃ p ∈ ps, ∀ off, p.at_ ≠ .sp s.cur off) : ∃ z, s.Checked z ∧ loadAt ea n g d hi ws s =
      if (ps.any fun p => match p.at_ with | .peer _ => true | _ => false) ∧ ! z.me.loadReady false ps then z.sStall ea
      else ((if ps.any fun p => match p.at_ with | .dram _ => true | _ => false then z.count z.cur 7#3 z.me.pc false else z).askPeer
        (if ps.any fun p => match p.at_ with | .dram _ => true | _ => false then z.count z.cur 7#3 z.me.pc false else z).cur ps none).sWait
          (.load ps g d hi []) ws 1 ea := by
  have hz := checked_of_passes h
  have hown : ownSp (w.watch w.cur .load ea n).cur ps = false := ownSp_false (by rw [hz.cur]; exact ho)
  refine ⟨_, hz, ?_⟩
  unfold loadAt
  rw [if_neg (by simp [hb]), sAcc_ok h, hown, if_neg (by simp), if_neg (by simp)] <;> rfl

/-- What the claim says of a core that waits for a load. -/
def Waiting (s u : State) (ps : List Piece) (g : Bool) (d : Reg) (ws : Nat) (ea : Word) : Prop :=
  u.me.stat = .wait (.load ps g d none []) ws 1 ∧ u.me.waitVal = ea ∧ u.me.r = s.me.r ∧ u.me.pc = s.me.pc ∧ u.me.sp = s.me.sp ∧ u.mem = s.mem

theorem waiting_sWait {z : State} {g : Bool} {d : Reg} {ws : Nat} (h : s.Checked z) :
    Waiting s (z.sWait (.load ps g d none []) ws 1 ea) ps g d ws ea := by
  obtain ⟨i, j, k, e, hm⟩ := h.me
  unfold State.sWait
  rw [Waiting, State.me_updMe, hm]
  exact ⟨rfl, rfl, rfl, rfl, rfl, h.mem⟩

theorem checked_counted {z : State} (h : s.Checked z) (b : Bool) (k : BitVec 3) (pc : Word) :
    s.Checked (if b = true then z.count z.cur k pc false else z) := by
  split
  · exact h.trans (.of_count ..)
  · exact h

/-- A request for a piece of a load leaves for its device. -/
theorem askPeer_one {z : State} {p : Piece} {v : Word} (hv : p.at_ = .peer v) : z.askPeer z.cur [p] none =
    z.send (bits v 63 56 - 1) (.load v p.n z.cur) (z.who z.cur false).dom (z.who z.cur false).ctx z.cur 0#16 := by
  unfold State.askPeer
  simp only [List.foldl_cons, List.foldl_nil, hv]

/-- A request leaves the core as it was. -/
theorem waiting_send {z : State} {g : Bool} {d : Reg} {ws : Nat} (h : s.Checked z) (dev : Nat) (b : PBody) (t : DTag) (x : Ctx) (c : Nat) (q : BitVec 16) :
    Waiting s ((z.send dev b t x c q).sWait (.load ps g d none []) ws 1 ea) ps g d ws ea := by
  obtain ⟨i, j, k, e, hm⟩ := h.me
  unfold State.sWait
  rw [Waiting, State.me_updMe, State.me_send, hm]
  exact ⟨rfl, rfl, rfl, rfl, rfl, h.mem⟩

theorem loadReady_of_none {c : Core} (h : c.acc = []) : c.loadReady false ps = true := by
  simp [Core.loadReady, Core.handedOver, h]

/-! Remote stores. -/

theorem marked_fresh {z : State} (h : Marked w z) : Marked w.used z.fresh := by
  obtain ⟨⟨h1, h2, h3⟩, hm, e, he, hk⟩ := h
  refine ⟨⟨?_, h2, h3⟩, hm, e, he, hk⟩
  show z.fresh = _
  rw [h1]
  rfl

theorem storeAt_posts {bs : List Byte} {dom : DTag} {rel : Bool} {ws : Nat} (h : s.Passes .store ea bs.length ps w)
    (ho : ∃ p ∈ ps, ∀ off, p.at_ ≠ .sp s.cur off) : ∃ z : State, s.Checked z ∧ Marked w z ∧ storeAt ea bs dom rel ws s =
      ((z.fresh).updMe fun x => { x with acc := x.acc ++ shares (z.postOf (z.who z.cur false) dom rel 0#5) ps bs }).sDone ws 1 id := by
  have hz := checked_of_passes h
  refine ⟨_, hz, watch_marked w .store ea bs.length, ?_⟩
  unfold storeAt
  rw [sAcc_ok h]
  generalize w.watch w.cur .store ea bs.length = z at hz
  have hwho : (z.who z.cur false).core = z.cur := who_core z z.cur false
  have ho' : ∃ p ∈ ps, ∀ off, p.at_ ≠ .sp (z.who z.cur false).core off := by
    rw [hwho, hz.cur]
    exact ho
  rw [State.storeHolds, ownSp_false ho', if_neg (by simp), doStore_posts ho', postStore_eq, hwho]
  rfl

end

/-- Settles O23. -/
theorem remoteAccess : Obligations.RemoteAccess := by
  intro s x o t a d ea
  have hea : s.me.rs a + offM x o (mSize t) = ea := offM_eq _ _ _ _
  have hld (r : LdOrd) (c : Scope) : exec (.ld x o r c t a d) s = .next (loadAt ea (mSize t) (mSigned t) d none (words x) s) := by
    rw [← hea] <;> rfl
  refine ⟨fun r c ps w hb hp => ?_, fun r c m y => ?_⟩
  · intro waits
    have hw : s.Checked w := .of_fills (fills_chk hp)
    refine ⟨fun ho hnp => ?_, fun p v hps hv => ?_⟩
    · obtain ⟨z, hz, hx⟩ := loadAt_remote (g := mSigned t) (d := d) (hi := none) (ws := words x) hb hp ho
      rw [anyPeer_false hnp, if_neg (by simp), askPeer_none _ _ _ hnp] at hx
      have hc := checked_counted hz (ps.any fun p => match p.at_ with | .dram _ => true | _ => false) 7#3 z.me.pc
      refine ⟨_, (hld r c).trans (congrArg _ hx), waiting_sWait hc, ?_⟩
      exact hc.net.trans hw.net.symm
    · subst hps
      have ho : ∃ q ∈ [p], ∀ off, q.at_ ≠ .sp s.cur off := ⟨p, List.mem_singleton_self p, fun off => by rw [hv]; exact Place.noConfusion⟩
      obtain ⟨z, hz, hx⟩ := loadAt_remote (g := mSigned t) (d := d) (hi := none) (ws := words x) hb hp ho
      simp only [List.any_cons, List.any_nil, hv, Bool.or_false, true_and, Bool.not_eq_true', Bool.false_eq_true, if_false] at hx
      have hacc : z.me.acc = w.me.acc ∧ z.me.loadReady false [p] = w.me.loadReady false [p] := by
        obtain ⟨_, _, _, _, h1⟩ := hz.me
        obtain ⟨_, _, _, _, h2⟩ := hw.me
        rw [h1, h2]
        exact ⟨rfl, rfl⟩
      refine ⟨fun hnil => ?_, fun hnr => ?_⟩
      · rw [loadReady_of_none (by rw [hacc.1, hnil]), if_neg (by simp), askPeer_one hv] at hx
        refine ⟨_, ⟨z.nextId, bits v 63 56 - 1, .load v p.n z.cur, (z.who z.cur false).dom, (z.who z.cur false).ctx, z.cur, false, z.cyc, 0#16,
          false, none⟩, (hld r c).trans (congrArg _ hx), waiting_send hz _ _ _ _ _ _, ?_, ?_, ?_, ?_, ?_⟩
        · exact congrArg (· ++ [_]) (hz.net.trans hw.net.symm)
        · show bits v 63 56 - 1 = _
          have := v.isLt
          unfold bits
          omega
        · rw [← hz.cur]
        · rw [← hz.who]
        · rw [State.myCtx, ← hz.who]
      · rw [hacc.2, hnr, if_pos rfl] at hx
        obtain ⟨_, _, _, _, h1⟩ := hz.me
        have hme := State.me_updMe z fun x => { x with ready := z.cyc + 1, waitFrom := some (x.waitFrom.getD z.cyc), waitVal := ea }
        refine ⟨_, (hld r c).trans (congrArg _ hx), hz.net.trans hw.net.symm, ?_⟩
        rw [State.sStall, hme, h1, hz.cyc]
        exact ⟨rfl, rfl, rfl, rfl, hz.mem⟩
  · intro ea' ps w hp ho hsum
    have hea' : s.me.rs a + offM x o (stSize y) = ea' := offM_eq _ _ _ _
    have hlen : (leBytes (stSize y) (s.me.rs d).toNat).length = stSize y := leBytes_length _ _
    obtain ⟨z, hz, hm, hx⟩ := storeAt_posts (bs := leBytes (stSize y) (s.me.rs d).toNat) (dom := s.dm m) (rel := r == .rel) (ws := words x)
      (by rw [hlen]; exact hp) ho
    have hst : exec (.st x o r c m y a d) s =
        .next (storeAt ea' (leBytes (stSize y) (s.me.rs d).toNat) (s.dm m) (r == .rel) (words x) s) := by
      rw [← hea'] <;> rfl
    rw [hx] at hst
    have hid : z.nextId = w.nextId := hz.nextId.trans (fills_chk hp).nextId.symm
    generalize hl : shares (z.postOf (z.who z.cur false) (s.dm m) (r == .rel) 0#5) ps (leBytes (stSize y) (s.me.rs d).toNat) = l at hst
    refine ⟨_, l, hst, ?_, ?_, ?_, fun e he => ?_⟩
    · have hpc : w.used.me.pc = z.fresh.me.pc := by
        obtain ⟨-, -, h, hme, -⟩ := hm
        show w.me.pc = z.me.pc
        rw [hme]
      have hg := (z.fresh.updMe fun k => { k with acc := k.acc ++ l }).sDone_spec (words x) 1 id dbgBlind_id
      unfold State.Completes at hg ⊢
      rw [State.me_updMe] at hg
      rw [hpc]
      exact goes_marked (fun _ _ => rfl) (marked_fresh hm) (goes_updMe rfl rfl hg)
    · rw [← hl, map_shares _ _ id fun p bs => rfl, List.map_id]
    · rw [← hl]
      exact flatten_shares _ (fun p bs => rfl) ps _ (by rw [hsum, hlen])
    · rw [← hl] at he
      obtain ⟨p, -, b, rfl⟩ := mem_shares he
      exact ⟨hid, rfl, rfl, rfl⟩

end Sys2Proof.Machine
end

section
/-! The ends of waits (05 R95, R267; 10 R179, R184, R185), and what a violation does to its core (18 R300). -/

namespace Sys2Proof.Machine

/-! A violation. -/

section
variable (s : State)

/-- What neither an access list, nor an arrival, nor an armed put changes of a core, departures keep. -/
theorem departs_keeps {α : Type} (π : Core → α) (hacc : ∀ x l, π { x with acc := l } = π x)
    (harr : ∀ (x : Core) off dep ann st, π (x.arrive off dep ann st) = π x) (hput : ∀ (x : Core) off t, π (x.evalArmed off t) = π x)
    (w : Who) (ann : Bool) (l : List (Nat × Nat)) (d : Nat) : π ((s.departs w ann l).core d) = π (s.core d) := by
  have hupd (u : State) (c : Nat) (f : Core → Core) (hf : ∀ x, π (f x) = π x) : π ((u.upd c f).core d) = π (u.core d) := by
    rw [State.core_upd]
    split
    · next e => rw [hf, e]
    · rfl
  unfold State.departs
  induction l generalizing s with
  | nil => rfl
  | cons p l ih =>
    rw [List.foldl_cons, ih]
    split
    · exact hupd _ _ _ fun x => hacc x _
    · split
      · unfold State.updIn
        split
        · rfl
        · exact hupd _ _ _ fun x => by rw [hput, hput, harr]
      · rfl

theorem r_arrive (x : Core) (off : Nat) (dep ann : Bool) (st : Option (BitVec 48)) : (x.arrive off dep ann st).r = x.r := by
  unfold Core.arrive
  dsimp only
  split
  · rfl
  · split <;> rfl

theorem r_depart (c : Nat) (ann : Bool) (d : Nat) : ((s.depart c ann).core d).r = (s.core d).r := by
  unfold State.depart
  rw [departs_keeps _ Core.r (fun _ _ => rfl) r_arrive (fun _ _ _ => rfl), State.core_upd]
  split
  · next e => rw [e]
  · rfl

theorem failTask_frame (t : TaskRef) : s.failTask t = { s with hub := (s.failTask t).hub } := by
  unfold State.failTask
  split
  · rfl
  · dsimp only
    split <;> rfl

theorem core_failTask (t : TaskRef) (c : Nat) : (s.failTask t).core c = s.core c := by
  rw [failTask_frame]
  rfl

/-- Nothing but memory, cores, fault queues, the hub's tables, the network and the numbers given differs. -/
def State.Quits (s t : State) : Prop := t = { s with mem := t.mem, cores := t.cores, cls := t.cls, hub := t.hub, net := t.net, nextId := t.nextId }

theorem State.Quits.trans {s t u : State} (h : s.Quits t) (g : t.Quits u) : s.Quits u := by
  unfold State.Quits at h
  rw [h] at g
  exact g

theorem State.Quits.of_onlyCore {s t : State} {c : Nat} (h : s.OnlyCore t c) : s.Quits t := by
  unfold State.Quits
  obtain ⟨h1, -⟩ := h
  rw [h1]

theorem State.Quits.upsets {s t : State} (h : s.Quits t) : t.upsets = s.upsets := by
  unfold State.Quits at h
  rw [h]

theorem quits_fault (cl : Nat) (e : FEnt) : s.Quits (s.fault cl e) := rfl

theorem quits_failTask (t : TaskRef) : s.Quits (s.failTask t) := by
  unfold State.Quits
  rw [failTask_frame]

theorem quits_unask (c : Nat) : s.Quits (s.unask c) := by
  unfold State.unask
  split
  · split
    · split
      · rfl
      · split <;> rfl
    · rfl
  · rfl

theorem quits_departs (w : Who) (ann : Bool) (l : List (Nat × Nat)) : s.Quits (s.departs w ann l) := by
  unfold State.departs
  induction l generalizing s with
  | nil => rfl
  | cons p l ih =>
    rw [List.foldl_cons]
    refine State.Quits.trans ?_ (ih _)
    split
    · rfl
    · split
      · unfold State.updIn
        split <;> rfl
      · rfl

theorem quits_depart (c : Nat) (ann : Bool) : s.Quits (s.depart c ann) :=
  State.Quits.trans (t := s.upd c fun x => { x with regsB := [] }) rfl (quits_departs ..)

theorem quits_reclaim (b : Nat) : s.Quits (s.reclaim b) := by
  unfold State.reclaim
  split
  · rfl
  · dsimp only
    split <;> rfl

/-- The core freezes and is halted, and armed puts of the task go on without it (R300). -/
def State.froze (s : State) (c : Nat) (t : TaskRef) : State :=
  let s := s.trace c 2#8 (BitVec.ofNat 64 (s.cyc - ((s.core c).act.map (·.start)).getD s.cyc)) 0#64 2#64
  ((s.upd c fun x => { x with stat := .frozen, waitFrom := none }).halt c 6#8).disown t

theorem froze_core (c : Nat) (t : TaskRef) : ∃ e l, (s.froze c t).core c = { s.core c with stat := .frozen, waitFrom := none, dbg := e, armed := l } := by
  unfold State.froze
  dsimp only
  obtain ⟨-, p, q, ht⟩ := s.trace_spec c 2#8 (BitVec.ofNat 64 (s.cyc - ((s.core c).act.map (·.start)).getD s.cyc)) 0#64 2#64
  generalize s.trace c 2#8 _ 0#64 2#64 = u at ht ⊢
  obtain ⟨-, p', q', hh⟩ := (u.upd c fun x => { x with stat := .frozen, waitFrom := none }).halt_spec c 6#8
  generalize (u.upd c fun x => { x with stat := .frozen, waitFrom := none }).halt c 6#8 = v at hh ⊢
  obtain ⟨m, hm⟩ := core_disown v t c
  exact ⟨(v.core c).dbg, m, by rw [hm, hh, State.core_upd_same, ht]⟩

theorem quits_froze (c : Nat) (t : TaskRef) : s.Quits (s.froze c t) := by
  unfold State.froze
  dsimp only
  generalize BitVec.ofNat 64 (s.cyc - ((s.core c).act.map (·.start)).getD s.cyc) = d
  refine (State.Quits.of_onlyCore (s.trace_spec c 2#8 d 0#64 2#64).1).trans ?_
  generalize s.trace c 2#8 d 0#64 2#64 = u
  refine State.Quits.trans (t := u.upd c fun x => { x with stat := .frozen, waitFrom := none }) rfl ?_
  refine (State.Quits.of_onlyCore (State.halt_spec _ c 6#8).1).trans ?_
  rw [disown_frame]
  rfl

/-- A core whose activation has ended counts it for its sender (24 R342). -/
def State.counted (s : State) (c : Nat) : State := match (s.core c).act with | some a => s.accumulate c a | none => s

theorem counted_core (c : Nat) : ∃ e, (s.counted c).core c = { s.core c with dbg := e } := by
  unfold State.counted
  cases (s.core c).act with
  | none => exact ⟨(s.core c).dbg, rfl⟩
  | some a =>
    obtain ⟨l, hl⟩ := core_accumulate s c a
    exact ⟨_, hl⟩

theorem quits_counted (c : Nat) : s.Quits (s.counted c) := by
  unfold State.counted
  split <;> rfl

/-- The report of a violation has gone out, and its task, its request and its registrations are done with. -/
def State.reported (s : State) (c : Nat) (acc : Acc) (w : Bool) (pc a : Word) (kind : BitVec 8) : State :=
  (((s.fault (clusterOf c) { s.coreEnt c kind pc a w .none with acc := accCode acc }).failTask (s.who c w).task).unask c).depart c false

/-- The binding whose code the core ran loses a hold. -/
def State.unheld (s : State) (c : Nat) : State := match (s.core c).act.bind (·.bind) with | some b => s.reclaim b | none => s

theorem core_unheld (c d : Nat) : (s.unheld c).core d = s.core d := by
  unfold State.unheld
  split
  · exact core_reclaim ..
  · rfl

theorem quits_unheld (c : Nat) : s.Quits (s.unheld c) := by
  unfold State.unheld
  split
  · exact quits_reclaim ..
  · rfl

theorem viol_eq (c : Nat) (acc : Acc) (w : Bool) (pc a : Word) (kind : BitVec 8) :
    s.viol c acc w pc a kind = (((s.reported c acc w pc a kind).counted c).froze c (s.who c w).task).unheld c := rfl

theorem r_reported (c : Nat) (acc : Acc) (w : Bool) (pc a : Word) (kind : BitVec 8) :
    ((s.reported c acc w pc a kind).core c).r = (s.core c).r := by
  unfold State.reported
  rw [r_depart, core_unask, core_failTask]
  rfl

theorem quits_reported (c : Nat) (acc : Acc) (w : Bool) (pc a : Word) (kind : BitVec 8) : s.Quits (s.reported c acc w pc a kind) :=
  (quits_fault ..).trans ((quits_failTask ..).trans ((quits_unask ..).trans (quits_depart ..)))

theorem quits_viol (c : Nat) (acc : Acc) (w : Bool) (pc a : Word) (kind : BitVec 8) : s.Quits (s.viol c acc w pc a kind) := by
  rw [viol_eq]
  exact (quits_reported ..).trans ((quits_counted ..).trans ((quits_froze ..).trans (quits_unheld ..)))

/-- A violation freezes the core, and its registers stay (R300). -/
theorem viol_core (c : Nat) (acc : Acc) (w : Bool) (pc a : Word) (kind : BitVec 8) :
    ((s.viol c acc w pc a kind).core c).stat = .frozen ∧ ((s.viol c acc w pc a kind).core c).r = (s.core c).r := by
  have hr := r_reported s c acc w pc a kind
  obtain ⟨e, he⟩ := counted_core (s.reported c acc w pc a kind) c
  obtain ⟨d, l, hd⟩ := froze_core ((s.reported c acc w pc a kind).counted c) c (s.who c w).task
  rw [viol_eq, core_unheld, hd, he]
  exact ⟨rfl, hr⟩

end

/-! The ends. -/

section
variable {s : State} {c n k : Nat}

theorem struckPs_bad {p : Piece} {pa : Nat} (hp : p.at_ = .dram pa) (hn : 1 ≤ p.n) (h : (pa / 8, true) ∈ s.upsets) : s.struckPs [p] = some true := by
  have hm : (pa / 8, true) ∈ s.upsets.filter fun e => decide (pa / 8 ≤ e.1) && decide (e.1 < (pa + p.n + 7) / 8) := by
    rw [List.mem_filter]
    exact ⟨h, by simp only [Bool.and_eq_true, decide_eq_true_eq]; omega⟩
  have hs : struck s.upsets pa p.n = some true := by
    unfold struck
    generalize s.upsets.filter _ = l at hm
    cases l with
    | nil => cases hm
    | cons e l => exact congrArg some (List.any_eq_true.2 ⟨_, hm, rfl⟩)
  simp [State.struckPs, State.struckAt, hp, hs]

/-- What waits before a load's next piece in device memory. -/
theorem loadReady_dram {x : Core} {p : Piece} (h : ∀ a ∈ x.acc, a.w = true ∧ x.sAfter ≤ a.aid) : x.loadReady false [p] = true := by
  unfold Core.loadReady Core.handedOver
  simp only [Bool.and_eq_true, Bool.not_eq_true', List.any_eq_false, bne_iff_ne, decide_eq_true_eq, Core.afterOf, not_and, beq_iff_eq]
  refine ⟨fun a ha _ => ?_, fun a ha hw => ?_⟩
  · have := (h a ha).2
    simp
    omega
  · rw [(h a ha).1] at hw
    cases hw

/-- What a load of `n` bytes writes to its registers. -/
def loadEnd (sg : Bool) (n : Nat) (rd : Reg) (hi : Option Reg) (bs : List Byte) (y : Core) : Core :=
  match hi with
  | none => y.ws rd (widen sg n bs)
  | some h => (y.ws rd (bytesWord (bs.take 8))).ws h (bytesWord (bs.drop 8))

theorem execLoadReply_dram {p : Piece} {r : List Piece} {pa : Nat} {sg : Bool} {rd : Reg} {hi : Option Reg} {got : List Byte}
    (hh : (s.core c).dbg.halted = false) (hs : (s.core c).stat = .wait (.load (p :: r) sg rd hi got) n k) (hp : p.at_ = .dram pa)
    (hr : ∀ z ∈ r, ∀ v, z.at_ ≠ .peer v) (ha : ∀ a ∈ (s.core c).acc, a.w = true ∧ (s.core c).sAfter ≤ a.aid) :
    exec (.loadReply c .own) s = .next (s.soft c .load false (s.core c).pc (s.core c).waitVal [p] fun s => s.readPiece c p r sg rd hi got n k
      fun s bs => s.wake c n k (loadEnd sg (got.length + ((p :: r).map (·.n)).sum) rd hi bs)) := by
  show execLoadReply c .own s = _
  unfold execLoadReply
  dsimp only
  have hrem : ((p :: r).any fun p => match p.at_ with | .peer _ => true | _ => false) = false := by
    rw [List.any_eq_false]
    intro z hz
    rcases List.mem_cons.1 hz with rfl | hz
    · simp [hp]
    · have := hr z hz
      cases hq : z.at_ with
      | peer v => exact absurd hq (this v)
      | sp _ _ => simp
      | dram _ => simp
  rw [if_neg (by simp [hh])]
  simp only [hs]
  rw [if_pos]
  · rfl
  · simp only [Bool.and_eq_true]
    refine ⟨⟨loadReady_dram ha, ?_⟩, ?_⟩
    · rw [Bool.not_eq_true']
      exact hrem
    · simp [State.placeAway, hp]

theorem wake_completes (u : State) (c n k : Nat) {f : Core → Core} (hf : DbgBlind f) :
    ({ u with cur := c } : State).Completes (u.wake c n k f) n k f := State.sGo_spec { u with cur := c } _ _ f hf

/-- With no store of the stream pending a piece in device memory gives the bytes there (R90, R179). -/
theorem loadPieces_dram {p : Piece} {pa : Nat} (hp : p.at_ = .dram pa) (ha : ∀ a ∈ (s.core c).acc, a.w = true) :
    s.loadPieces c false [p] = Memory.read s.mem pa p.n := by
  have hf : (s.core c).acc.filter (fun a => a.w == false) = [] := List.filter_eq_nil_iff.2 fun a h => by simp [ha a h]
  simp only [State.loadPieces, List.map_cons, List.map_nil, hf, overlay, hp, State.readAt, List.foldl_nil, List.flatten_cons, List.flatten_nil,
    List.append_nil]

theorem soft_whole {p : Piece} {pa : Nat} (hp : p.at_ = .dram pa) (h : s.WholeAt pa p.n) (acc : Acc) (w : Bool) (pc a : Word)
    (f : State → State) : s.soft c acc w pc a [p] f = f s := by
  unfold State.soft
  rw [struckPs_whole hp h]

theorem execLoadReply_last {p : Piece} {pa : Nat} {sg : Bool} {rd : Reg} (hh : (s.core c).dbg.halted = false)
    (hs : (s.core c).stat = .wait (.load [p] sg rd none []) n k) (hp : p.at_ = .dram pa) (hn : p.n = 1 ∨ p.n = 2 ∨ p.n = 4 ∨ p.n = 8)
    (ha : ∀ a ∈ (s.core c).acc, a.w = true ∧ (s.core c).sAfter ≤ a.aid) (hw : s.WholeAt pa p.n) : exec (.loadReply c .own) s =
      .next ((s.touchLine p.at_).wake c n k fun y => y.ws rd (loaded sg p.n (leNat (Memory.read s.mem pa p.n)))) := by
  rw [execLoadReply_dram hh hs hp (by simp) ha, soft_whole hp hw]
  unfold State.readPiece
  dsimp only
  rw [loadPieces_dram hp fun a h => (ha a h).1, if_pos List.isEmpty_nil, List.nil_append]
  have he : loadEnd sg (([] : List Byte).length + ([p].map (·.n)).sum) rd none (Memory.read s.mem pa p.n) =
      fun y => y.ws rd (loaded sg p.n (leNat (Memory.read s.mem pa p.n))) := by
    funext y
    unfold loadEnd
    dsimp only
    rw [← widen_eq sg p.n hn _ (Memory.length_read s.mem pa p.n)]
    simp
  rw [he]
  rfl

theorem execLoadReply_next {p q : Piece} {r : List Piece} {pa : Nat} {sg : Bool} {rd : Reg} {hi : Option Reg} {got : List Byte}
    (hh : (s.core c).dbg.halted = false) (hs : (s.core c).stat = .wait (.load (p :: q :: r) sg rd hi got) n k) (hp : p.at_ = .dram pa)
    (hr : ∀ z ∈ q :: r, ∀ v, z.at_ ≠ .peer v) (ha : (s.core c).acc = []) (hw : s.WholeAt pa p.n) : exec (.loadReply c .own) s =
      .next ((s.touchLine p.at_).upd c fun x => { x with stat := .wait (.load (q :: r) sg rd hi (got ++ Memory.read s.mem pa p.n)) n k }) := by
  rw [execLoadReply_dram hh hs hp hr (by simp [ha]), soft_whole hp hw]
  unfold State.readPiece
  dsimp only
  rw [loadPieces_dram hp (by simp [ha]), if_neg (by simp)]
  rfl

theorem touchLine_frame (p : Place) : s.touchLine p = { s with sys := (s.touchLine p).sys } := by
  unfold State.touchLine
  split
  · split <;> rfl
  · rfl

theorem core_touchLine (p : Place) (d : Nat) : (s.touchLine p).core d = s.core d := by
  rw [touchLine_frame]
  rfl

theorem execFenceDrainEnd_fence {st uo eng : Bool} (hh : (s.core c).dbg.halted = false) (hs : (s.core c).stat = .wait (.fence st uo eng) n k)
    (h : (s.core c).fenceDone st uo = true) : exec (.fenceDrainEnd c) s = .next (s.wake c n k (Core.seen eng)) := by
  show execFenceDrainEnd c s = _
  rw [execFenceDrainEnd]
  simp only [hh, hs, h, Bool.false_eq_true, if_false, if_true]

theorem execFenceDrainEnd_seal {id : Nat} {rd : Reg} (hh : (s.core c).dbg.halted = false) (hs : (s.core c).stat = .wait (.seal id rd) n k)
    (h : ∀ p ∈ (s.core c).acc, p.aid ≠ id) : exec (.fenceDrainEnd c) s = .next (s.wake c n k fun y => y.ws rd 0#64) := by
  have ha : (s.core c).acc.any (fun a => a.aid == id) = false := List.any_eq_false.2 fun p hp => by simpa using h p hp
  show execFenceDrainEnd c s = _
  rw [execFenceDrainEnd]
  simp only [hh, hs, ha, Bool.false_eq_true, if_false]

theorem execCycleWaitEnd_wait {t : Word} (hh : (s.core c).dbg.halted = false) (hs : (s.core c).stat = .wait (.cycle t false) n k) :
    exec (.cycleWaitEnd c) s = if t.toNat ≤ s.cyc % 2 ^ 64 then .next (s.wake c n k id) else .next s := by
  show execCycleWaitEnd c s = _
  rw [execCycleWaitEnd]
  simp only [hh, hs, Bool.false_eq_true, if_false]

/-- A wait that has reached its limit stops, and the trap is raised at it (R95). -/
theorem execWaitLimitExpiry_due {w : SWait} {t0 : Nat} (hh : (s.core c).dbg.halted = false) (hs : (s.core c).stat = .wait w n k)
    (hf : ∀ st uo eng, w = .fence st uo eng → (s.core c).wbuf ≠ []) (hp : (s.core c).park = none) (hw : (s.core c).waitFrom = some t0)
    (h : t0 + s.waitLimit c ≤ s.cyc) : exec (.waitLimitExpiry c) s =
      .next ((({ s.unask c with cur := c } : State).updMe fun x => { x with waitFrom := none, stat := .run }).sTrap 0x10#8 (s.core c).waitVal) := by
  show execWaitLimitExpiry c s = _
  unfold execWaitLimitExpiry
  dsimp only
  rw [if_neg (by simp [hh]), if_pos]
  rw [hs, hp, hw]
  cases w <;> simp_all

theorem execWaitLimitExpiry_early {t0 : Nat} (hh : (s.core c).dbg.halted = false)
    (hw : (s.core c).waitFrom = some t0) (hn : (s.core c).wFrom = none) (h : s.cyc < t0 + s.waitLimit c) :
    exec (.waitLimitExpiry c) s = .next s := by
  show execWaitLimitExpiry c s = _
  unfold execWaitLimitExpiry
  dsimp only
  rw [if_neg (by simp [hh]), hw, hn]
  dsimp only
  rw [if_neg, if_neg] <;> simp
  omega

end

/-- Settles O24: each wait ends as the instruction's data, the drained stores, the clock or the limit end it. -/
theorem waitEnds : Obligations.WaitEnds := by
  intro s c n k x hh
  refine ⟨fun p pa sg rd hs hp hn ha hw => ?_, fun p q r pa sg rd hi bs hs hp hr ha hw => ?_, fun p pa r sg rd hi bs hs hp hr ha _ hu hn => ?_,
    fun st uo eng hs hb ha => ?_, fun id rd hs ha => ?_, fun t hs => ⟨fun h => ?_, fun h => ?_⟩, ?_⟩
  · exact ⟨_, execLoadReply_last hh hs hp hn ha hw, wake_completes (s.touchLine p.at_) c n k (dbgBlind_ws rd _)⟩
  · refine ⟨_, execLoadReply_next hh hs hp hr ha hw, ?_, ?_, ?_⟩
    · rw [State.core_upd_same, core_touchLine]
    · rw [touchLine_frame]
      rfl
    · rw [State.core_upd_same]
  · refine ⟨_, execLoadReply_dram hh hs hp hr (by simp [x, ha]), ?_⟩
    unfold State.soft
    rw [struckPs_bad hp hn hu]
    exact ⟨(viol_core s ..).1, (viol_core s ..).2, (quits_viol s ..).upsets⟩
  · exact wake_wakes _ s c n k _ (dbgBlind_seen eng) (execFenceDrainEnd_fence hh hs ((fenceDone_iff ..).2 ⟨hb, ha⟩))
  · exact wake_wakes _ s c n k _ (dbgBlind_ws rd _) (execFenceDrainEnd_seal hh hs ha)
  · refine wake_wakes _ s c n k _ dbgBlind_id ?_
    rw [execCycleWaitEnd_wait hh hs, if_pos h]
  · rw [execCycleWaitEnd_wait hh hs, if_neg (Nat.not_le.2 h)]
  · intro t0 w hs hf hp hw u
    refine ⟨fun h e hc => ?_, fun h hn => execWaitLimitExpiry_early hh hw hn h⟩
    refine ⟨_, execWaitLimitExpiry_due hh hs hf hp hw h, ?_⟩
    have ht := trap_enters u 0x10#8 x.waitVal e hc
    have hpc : u.me.pc = x.pc := by
      show ((({ s.unask c with cur := c } : State).upd c _).core c).pc = _
      rw [State.core_upd_same]
      show ((s.unask c).core c).pc = _
      rw [core_unask]
    rw [hpc] at ht
    exact ht

end Sys2Proof.Machine
end

section
/-! Waits at tagged words and signal words (05 R93, R94; 10 R189; 15 R274). -/

namespace Sys2Proof.Machine

section
variable {s : State} {c : Nat}

theorem reachable_of {k : Nat} {ctx : Ctx} {d : DTag} (h : k ≠ c → s.expired (spEp k) (s.dtag d) = false ∧ s.away k ctx = false) :
    s.reachable c k ctx d = true := by
  unfold State.reachable
  by_cases hk : k = c
  · simp [hk]
  · simp [hk, h hk]

/-- A whole word of a scratchpad is read as it stands. -/
theorem soft_sp {k off : Nat} (h : (s.core k).Whole off 8) (acc : Acc) (w : Bool) (pc a ea : Word) (y : PKind) (b : Bool) (f : State → State) :
    s.soft c acc w pc a [⟨ea, .sp k off, 8, y, b⟩] f = f s := by
  unfold State.soft State.struckPs
  simp only [List.foldl_cons, List.foldl_nil, State.struckAt, h.struck]

/-- The count of a signal word is reached, or its annulment is marked. -/
theorem sigOk_iff (w v : Word) : sigOk w v = true ↔ 2 ^ 63 ≤ w.toNat ∨ v.toNat % 2 ^ 63 ≤ w.toNat % 2 ^ 63 := by
  have hm (x : Word) : (x &&& 0x7FFFFFFFFFFFFFFF#64).toNat = x.toNat % 2 ^ 63 := by
    rw [BitVec.toNat_and]
    exact Nat.and_two_pow_sub_one_eq_mod x.toNat 63
  unfold sigOk
  rw [Bool.or_eq_true, decide_eq_true_eq, getLsbD_iff, ge_iff_le, BitVec.le_def, hm, hm]
  refine or_congr_left ?_
  have := w.isLt
  omega

/-- A read of a word of the own scratchpad waits for nothing (02 R32, 10 R188). -/
theorem tagReady_read {x : Core} {own off : Nat} (h : x.SpFree own false) (ha : x.NoArrival) : x.tagReady false (.sp own off) = true := by
  unfold Core.tagReady
  rw [h.handedOver, Bool.true_and, Bool.not_false, Bool.true_or, Bool.true_and, Bool.not_eq_true', List.any_eq_false]
  intro a hm
  cases hw : a.w
  · have hs := h a hm
    rw [if_pos hw] at hs
    have : sameSp a.p.at_ (.sp own off) = false := by rw [sameSp_off _ _ _ 0]; exact hs
    rw [this]
    cases hop : a.op with
    | arrive y z => exact absurd hop (ha a hm hw y z)
    | store bs => simp
    | atomic o b e wt => simp
  · simp

theorem leNat_lt {n : Nat} (bs : List Byte) (h : bs.length = n) : leNat bs < 2 ^ (8 * n) := by
  induction bs generalizing n with
  | nil => simp [leNat]
  | cons b r ih =>
    subst h
    have := b.isLt
    have hr := ih rfl
    rw [List.length_cons, Nat.mul_add, Nat.pow_add]
    simp only [leNat]
    omega

section
variable {n cost k off : Nat} {op : TagOp} {rd : Reg} {v : Word} {t : Nat} {dom : DTag} {req : Option (Nat × Nat)}

theorem core_send (dev : Nat) (body : PBody) (dom : DTag) (ctx : Ctx) (src : Nat) (stag : BitVec 16) (d : Nat) :
    (s.send dev body dom ctx src stag).core d = s.core d := rfl

theorem execTaggedWaitWake_word (hh : (s.core c).dbg.halted = false) (hs : (s.core c).stat = .wait (.tag op k off rd v t dom req) n cost)
    (hk : k ≤ nCores) (ho : s.olderWaits k off (s.who c false).ctx t = false) (hw : (s.core k).Whole off 8)
    (hc : tagCond op ((s.core k).full off) = true) (hr : (s.core c).tagReady (tagWrites op) (.sp k off) = true)
    (ha : k ≠ c → s.expired (spEp k) (s.dtag dom) = false ∧ s.away k (s.who c false).ctx = false) :
    exec (.taggedWaitWake c) s = .next ((s.setCore k (tagDo op off v s.cyc (s.core k)).2).wake c n cost fun y =>
      if tagRd op then y.ws rd (tagDo op off v s.cyc (s.core k)).1 else y) := by
  show execTaggedWaitWake c s = _
  rw [execTaggedWaitWake]
  simp only [hh, hs, Bool.false_eq_true, if_false]
  rw [if_neg (by omega), if_pos, soft_sp hw]
  simp [hc, hr, ho, reachable_of ha]

theorem execTaggedWaitWake_peer (hh : (s.core c).dbg.halted = false) (hs : (s.core c).stat = .wait (.tag op k off rd v t dom none) n cost)
    (hk : nCores < k) (hr : (s.core c).tagReady (tagWrites op) (.peer (BitVec.ofNat 64 ((k - nCores) * 2 ^ 56 + off))) = true) :
    exec (.taggedWaitWake c) s = .next ((s.upd c fun x => { x with stat := .wait (.tag op k off rd v t dom (some (s.nextId, 0))) n cost }).send
      (k - nCores - 1) (.tagop op (BitVec.ofNat 64 ((k - nCores) * 2 ^ 56 + off)) v c) dom (s.who c false).ctx c 0#16) := by
  show execTaggedWaitWake c s = _
  rw [execTaggedWaitWake]
  simp only [hh, hs, Bool.false_eq_true, if_false]
  rw [if_pos hk, if_pos (by rw [hr]; rfl)]

theorem execLoadReply_tag {q b : Nat} {y : BitVec 128} (hh : (s.core c).dbg.halted = false)
    (hs : (s.core c).stat = .wait (.tag op k off rd v t dom (some (q, b))) n cost) (hb : b < 2) (hk : nCores < k) (hq : ∀ p ∈ s.net, p.id ≠ q) :
    exec (.loadReply c (.val y)) s = .next (s.wake c n cost fun z => if tagRd op then z.ws rd (y.setWidth 64) else z) := by
  have hn : (s.net.any fun p => p.id == q) = false := List.any_eq_false.2 fun p hp => by simpa using hq p hp
  show execLoadReply c (.val y) s = _
  rw [execLoadReply]
  simp only [hh, hs, Bool.false_eq_true, if_false]
  rw [if_pos ⟨hk, by simp [hb, hn]⟩]

theorem execTaggedWaitWake_sigw (hh : (s.core c).dbg.halted = false) (hs : (s.core c).stat = .wait (.sigw k off rd v t req) n cost)
    (hk : k ≤ nCores) (ha : k ≠ c → s.expired (spEp k) (s.dtag (s.who c false).dom) = false ∧ s.away k (s.who c false).ctx = false)
    (ho : s.olderWaits k off (s.who c false).ctx t = false) (hw : (s.core k).Whole off 8) (hr : (s.core c).tagReady false (.sp k off) = true)
    (hv : sigOk ((s.core k).spWord off) v = true) :
    exec (.taggedWaitWake c) s = .next (s.wake c n cost fun y => y.ws rd ((s.core k).spWord off)) := by
  show execTaggedWaitWake c s = _
  rw [execTaggedWaitWake]
  simp only [hh, hs, Bool.false_eq_true, if_false]
  rw [if_neg (by omega), if_pos, soft_sp hw]
  simp [hv, hr, ho, reachable_of ha]

theorem dbgBlind_readTo (b : Bool) (d : Reg) (v : Word) : DbgBlind fun y => if b then y.ws d v else y := by
  cases b
  · exact dbgBlind_id
  · exact dbgBlind_ws d v

end

/-- `sigw` on an aligned word of the own scratchpad acts there (15 R274). -/
theorem tagPlace_own {ea : Word} (h : ea.toNat % 8 = 0) (h' : ea.toNat < 0x80000) : s.tagPlace none ea 8 = .inr (s.cur, ea.toNat) := by
  unfold State.tagPlace
  dsimp only
  rw [if_neg (by omega), classify_local _ _ _ h']
  dsimp only
  rw [viaAperture_local ea h', if_neg (by simp; omega), if_neg (by simp), if_neg (by simp)]

section
variable {b a d : Reg}

theorem execSigw_misaligned (h : (s.me.rs a).toNat % 8 ≠ 0) : Traps (.sigw b a d) s 0x02#8 (s.me.rs a) := by
  show execSigw b a d s = _
  unfold execSigw State.tagPlace
  dsimp only
  rw [if_pos h]

theorem execSigw_reads (hc : s.cur < nCores) (hp : s.tagPlace none (s.me.rs a) 8 = .inr (s.cur, (s.me.rs a).toNat))
    (hw : s.me.Whole (s.me.rs a).toNat 8) (ho : s.olderWaits s.cur (s.me.rs a).toNat (s.who s.cur false).ctx s.nextId = false)
    (hr : s.me.tagReady false (.sp s.cur (s.me.rs a).toNat) = true) (hv : sigOk (s.me.spWord (s.me.rs a).toNat) (s.me.rs b) = true) :
    exec (.sigw b a d) s = .next (s.sDone 1 2 fun y => y.ws d (s.me.spWord (s.me.rs a).toNat)) := by
  show execSigw b a d s = _
  unfold execSigw
  dsimp only
  rw [hp]
  dsimp only
  rw [if_neg (by omega), if_pos ⟨rfl, hv, hr, by simp [ho]⟩, soft_sp hw]

theorem execSigw_waits (hc : s.cur < nCores) (hp : s.tagPlace none (s.me.rs a) 8 = .inr (s.cur, (s.me.rs a).toNat))
    (hv : sigOk (s.me.spWord (s.me.rs a).toNat) (s.me.rs b) = false) : exec (.sigw b a d) s =
      .next (s.used.sWait (.sigw s.cur (s.me.rs a).toNat d (s.me.rs b) s.nextId none) 1 2 (s.me.rs a)) := by
  show execSigw b a d s = _
  unfold execSigw
  dsimp only
  rw [hp]
  dsimp only
  rw [if_neg (by omega), if_neg (by simp [hv])]
  rfl

end
end

/-- Settles O25: the oldest wait whose word lets it go on is served; `sigw` reads its word when the count is reached, and else waits. -/
theorem taggedWaits : Obligations.TaggedWaits := by
  refine ⟨?_, ?_⟩
  · intro s c n cost x hh
    refine ⟨fun op k off rd v t dom req hs hk ho hw hc hr ha => ?_, ?_, fun op k off rd v t dom q b y hs hb hk hq => ?_, ?_⟩
    · exact ⟨_, execTaggedWaitWake_word hh hs hk ho hw hc hr ha, wake_completes _ c n cost (dbgBlind_readTo _ _ _)⟩
    · intro op k off rd v t dom hs hk a hr
      refine ⟨_, ⟨s.nextId, k - nCores - 1, .tagop op a v c, dom, (s.who c false).ctx, c, false, s.cyc, 0#16, false, none⟩,
        execTaggedWaitWake_peer hh hs hk hr, rfl, rfl, rfl, rfl, ?_, rfl, fun y hy => ?_⟩
      · rw [core_send, State.core_upd_same]
      · rw [core_send, State.core_upd_other _ _ _ _ hy]
    · exact wake_wakes _ s c n cost _ (dbgBlind_readTo _ _ _) (execLoadReply_tag hh hs hb hk hq)
    · intro k off rd v t req hs hk ha ho hw hr w hv
      exact wake_wakes _ s c n cost _ (dbgBlind_ws rd _) (execTaggedWaitWake_sigw hh hs hk ha ho hw hr ((sigOk_iff _ _).2 hv))
  · intro s b a d ea v w
    refine ⟨execSigw_misaligned, fun hc h8 hlt hf hn hw ho => ?_⟩
    have hp := tagPlace_own (s := s) h8 hlt
    have hwd : s.me.spWord ea = BitVec.ofNat 64 w := spWord_local s (s.me.rs a) h8 hlt
    have hwn : (s.me.spWord ea).toNat = w := by
      rw [hwd, BitVec.toNat_ofNat]
      exact Nat.mod_eq_of_lt (leNat_lt _ (Memory.length_read ..))
    refine ⟨fun hv => ?_, fun h1 h2 => execSigw_waits hc hp ?_⟩
    · rw [← hwd]
      exact ⟨_, execSigw_reads hc hp hw ho (tagReady_read hf hn) ((sigOk_iff _ _).2 (by rw [hwn]; exact hv)), s.sDone_ws 1 2 d _⟩
    · rw [← Bool.not_eq_true, sigOk_iff, hwn]
      omega

end Sys2Proof.Machine
end

section
/-! Pending accesses are performed, or dropped (10 R148, R177, R181, R191; 15 R267, R268; 20 R321). -/

namespace Sys2Proof.Machine

section
variable {s : State} {c i : Nat} {e : PAcc}

/-- The access has left the core's list, and its flags have landed. -/
def State.without (s : State) (c : Nat) (e : PAcc) : State :=
  s.upd c fun x => { x with acc := x.acc.erase e, c := { x.c with fl := x.c.fl ||| e.fl } }

theorem heldAway_dram {pa : Nat} (h : e.p.at_ = .dram pa) : s.heldAway e = false := by
  unfold State.heldAway
  rw [h]
  split <;> rfl

theorem heldAway_peer {va : Word} (h : e.p.at_ = .peer va) : s.heldAway e = false := by
  unfold State.heldAway
  rw [h]
  split <;> rfl

/-- A context that is resident holds no access back. -/
theorem heldAway_here {k off : Nat} (h : e.p.at_ = .sp k off) (ha : s.away k e.ctx = false) : s.heldAway e = false := by
  have hl : s.logFull k e.ctx = false := by
    unfold State.away at ha
    unfold State.logFull
    rw [Option.isSome_eq_false_iff, Option.isNone_iff_eq_none] at ha
    rw [ha]
  unfold State.heldAway
  rw [h]
  dsimp only
  rw [hl, ha]
  split <;> rfl

theorem performNth_ready {f : AccOp → Bool} (h : (s.core c).acc[i]? = some e) (hm : mayPerform ((s.core c).acc.take i) e = true)
    (hf : f e.op = true) (ha : s.heldAway e = false) : s.performNth c i f = s.perform c e := by
  unfold State.performNth
  simp only [h, hf, hm, ha, Bool.not_false, Bool.and_self, if_true]

section
variable {pa : Nat} {bs : List Byte}

theorem perform_store_dram (hp : e.p.at_ = .dram pa) (ho : e.op = .store bs) (h : s.expired (s.placeEp e.p.at_ e.p.sysa false) e.dom = false) :
    s.perform c e = ({ s.without c e with mem := Memory.write s.mem pa bs, upsets := mended s.upsets pa bs.length } : State).touchLine e.p.at_ := by
  rw [hp] at h
  unfold State.perform
  simp only [hp, ho]
  rw [if_neg]
  · rfl
  · intro he
    exact Bool.false_ne_true (h.symm.trans he)

theorem perform_store_expired (hp : e.p.at_ = .dram pa) (ho : e.op = .store bs) (h : s.expired (s.placeEp e.p.at_ e.p.sysa false) e.dom = true) :
    s.perform c e = (s.without c e).dropAt (s.placeEp e.p.at_ e.p.sysa false) := by
  rw [hp] at h ⊢
  unfold State.perform
  simp only [hp, ho]
  exact if_pos h

variable {op : AtOp} {b o : Word} {wt : Bool}

theorem perform_atomic_expired (hp : e.p.at_ = .dram pa) (ho : e.op = .atomic op b o wt)
    (h : s.expired (s.placeEp e.p.at_ e.p.sysa true) e.dom = true) :
    s.perform c e = (s.without c e).dropAt (s.placeEp e.p.at_ e.p.sysa true) := by
  rw [hp] at h ⊢
  unfold State.perform
  simp only [hp, ho]
  exact if_pos h

/-- The old value goes to the instruction that waits for this access. -/
def Core.gives (x : Core) (id : Nat) (w : Word) : Core :=
  match x.stat with
  | .wait (.atomic i rd none t) n k => if i = id then { x with stat := .wait (.atomic i rd (some w) t) n k } else x
  | _ => x

/-- The atomic's new value has been written. -/
def State.replaced (s : State) (p : Piece) (pa : Nat) (v : Word) : State :=
  { s with mem := Memory.write s.mem pa (leBytes p.n v.toNat), upsets := mended s.upsets pa p.n }

theorem perform_atomic (hp : e.p.at_ = .dram pa) (ho : e.op = .atomic op b o wt)
    (h : s.expired (s.placeEp e.p.at_ e.p.sysa true) e.dom = false) (hw : s.WholeAt pa e.p.n) :
    let old := bytesWord (Memory.read s.mem pa e.p.n)
    let t := (s.without c e).replaced e.p pa (atNew op e.p.n old b o)
    s.perform c e = if wt then t.upd c fun x => x.gives e.aid old else t := by
  have hs : (s.without c e).struckPs [e.p] = none := struckPs_whole hp hw
  rw [hp] at h
  unfold State.perform
  simp only [hp, ho]
  refine (if_neg fun he => Bool.false_ne_true (h.symm.trans he)).trans ?_
  unfold State.without at hs
  unfold Core.raise
  dsimp only
  rw [hs]
  unfold State.doAtomic State.writeAt State.readAt
  simp only [hp, leBytes_length]
  rfl

end

section
variable {op : AtOp} {b o : Word} {wt : Bool} {pa : Nat} {bs : List Byte}

theorem execStorePerform_ready (h : (s.core c).acc[i]? = some e) (hm : mayPerform ((s.core c).acc.take i) e = true) (ho : e.op = .store bs)
    (ha : s.heldAway e = false) : exec (.storePerform c i) s = .next (s.perform c e) := by
  show execStorePerform c i s = _
  rw [execStorePerform, performNth_ready h hm (by rw [ho]) ha]

/-- Where the sync engine of the tower takes the line, nothing but its lines differs (15 R264). -/
theorem holdAt_frame (p : Piece) : s.holdAt p = { s with sys := (s.holdAt p).sys } := by
  unfold State.holdAt
  split
  · split <;> rfl
  · rfl

theorem execAtomicPerform_ready (h : (s.core c).acc[i]? = some e) (hm : mayPerform ((s.core c).acc.take i) e = true) (ho : e.op = .atomic op b o wt)
    (ha : s.heldAway e = false) : ∃ y, exec (.atomicPerform c i) s = .next { s.perform c e with sys := y } ∧
      (s.expired (s.placeEp e.p.at_ e.p.sysa true) e.dom = true → y = (s.perform c e).sys) := by
  show ∃ y, execAtomicPerform c i s = _ ∧ _
  unfold execAtomicPerform
  rw [performNth_ready h hm (by rw [ho]) ha, h]
  dsimp only
  rw [ho]
  dsimp only
  split
  · exact ⟨_, rfl, fun _ => rfl⟩
  · next hn =>
    rw [holdAt_frame]
    exact ⟨_, rfl, fun he => absurd (Or.inr (Or.inl he)) hn⟩

theorem perform_peer {va : Word} (hp : e.p.at_ = .peer va) (hs : e.sent = none) (hk : (s.core c).park = none) (hd : s.expired c e.dom = false) :
    s.perform c e = (s.upd c fun x => { x with acc := x.acc.map fun b => if b = e then { b with sent := some s.nextId } else b }).send
      (bits va 63 56 - 1) (e.packet va c) e.dom e.ctx c 0#16 := by
  unfold State.perform
  simp only [hp, hs]
  rw [if_neg (by rw [hk]; simp), if_neg (by rw [hd]; simp)]

theorem bits_device (va : Word) : bits va 63 56 = va.toNat / 2 ^ 56 := by
  have := va.isLt
  unfold bits
  simp
  omega

theorem answered_acc {p : Nat} (hn : ∀ k ∈ s.net, k.id ≠ p) (he : e ∈ (s.core c).acc) (hs : e.sent = some p)
    (hu : ∀ y ∈ (s.core c).acc, y.sent = some p → y = e) (hw : ∀ id rd ty n k, (s.core c).stat ≠ .wait (.atomic id rd none ty) n k) :
    s.answered c p = (s.upd c fun x => { x with gone := x.gone.filter fun g => g.1 != p }).without c e := by
  have hf : (s.core c).acc.find? (fun a => a.sent == some p) = some e := by
    cases hq : (s.core c).acc.find? (fun a => a.sent == some p) with
    | none =>
      have := List.find?_eq_none.1 hq e he
      simp [hs] at this
    | some a => rw [hu a (List.mem_of_find?_eq_some hq) (by simpa using List.find?_some hq)]
  have ha : (s.net.any fun k => k.id == p) = false := List.any_eq_false.2 fun k hk => by simpa using hn k hk
  unfold State.answered
  simp only [ha, hf, Bool.false_eq_true, if_false]
  rfl

theorem perform_store_sp {k off : Nat} (hp : e.p.at_ = .sp k off) (ho : e.op = .store bs) (ha : s.away k e.ctx = false)
    (h : s.expired (spEp k) e.dom = false) : s.perform c e = (s.without c e).upd k fun x => x.spWrite off bs := by
  unfold State.perform
  simp only [hp, ho]
  refine (if_neg fun he => Bool.false_ne_true (h.symm.trans he)).trans ?_
  exact if_neg fun he => Bool.false_ne_true (ha.symm.trans he)

theorem perform_arrive {k off : Nat} {dep ann : Bool} (hp : e.p.at_ = .sp k off) (ho : e.op = .arrive dep ann)
    (h : s.expired (spEp k) e.dom = false) : s.perform c e =
      (s.without c e).upd k fun x => ((x.arrive off dep ann none).evalArmed off s.cyc).evalArmed (off + 8) s.cyc := by
  unfold State.perform
  simp only [hp, ho]
  exact if_neg fun he => Bool.false_ne_true (h.symm.trans he)

theorem execBarrierArrival_ready {dep ann : Bool} (h : (s.core c).acc[i]? = some e) (hm : mayPerform ((s.core c).acc.take i) e = true)
    (ho : e.op = .arrive dep ann) (ha : s.heldAway e = false) : exec (.barrierArrival c i) s = .next (s.perform c e) := by
  show execBarrierArrival c i s = _
  rw [execBarrierArrival, performNth_ready h hm (by rw [ho]) ha]

theorem execLoadReply_atomic {id n k : Nat} {rd : Reg} {v : Word} {ty : ATy} (hs : (s.core c).stat = .wait (.atomic id rd (some v) ty) n k)
    (hh : (s.core c).dbg.halted = false) : exec (.loadReply c .own) s =
      .next (s.wake c n k fun y => y.ws rd (if ty = .i32 then (v.setWidth 32).signExtend 64 else v)) := by
  show execLoadReply c .own s = _
  rw [execLoadReply]
  simp only [hh, hs, Bool.false_eq_true, if_false]
  cases ty <;> rfl

end
end

/-- Settles O26: an access that nothing before it holds back is performed at its place, dropped, or sent to its peer. -/
theorem accessPerformed : Obligations.AccessPerformed := by
  intro s c i e h hm gone ep
  refine ⟨fun pa hp => ⟨fun bs ho => ⟨fun hx => ?_, fun hx => ?_⟩, fun op b o wt ho hx => ?_, ?_⟩, ?_, ?_, ?_, ?_, ?_⟩
  · rw [execStorePerform_ready h hm ho (heldAway_dram hp), perform_store_dram hp ho hx]
    rfl
  · rw [execStorePerform_ready h hm ho (heldAway_dram hp), perform_store_expired hp ho hx]
    rfl
  · obtain ⟨y, he, hy⟩ := execAtomicPerform_ready h hm ho (heldAway_dram hp)
    rw [he, hy hx, perform_atomic_expired hp ho hx]
    rfl
  · intro op b o wt ho hx hw old
    obtain ⟨y, he, -⟩ := execAtomicPerform_ready h hm ho (heldAway_dram hp)
    have hq := perform_atomic (c := c) hp ho hx hw
    dsimp only at hq
    have hc : (((s.without c e).replaced e.p pa (atNew op e.p.n old b o)).core c).acc = (s.core c).acc.erase e := by
      show ((s.without c e).core c).acc = _
      rw [State.without, State.core_upd_same]
    have hst : (((s.without c e).replaced e.p pa (atNew op e.p.n old b o)).core c).stat = (s.core c).stat := by
      show ((s.without c e).core c).stat = _
      rw [State.without, State.core_upd_same]
    refine ⟨_, he, ?_, ?_, fun rd ty n k ht hs => ?_⟩
    · show (s.perform c e).mem = _
      rw [hq]
      split <;> rfl
    · show ((s.perform c e).core c).acc = _
      rw [hq]
      split
      · rw [State.core_upd_same, ← hc]
        unfold Core.gives
        split
        · split <;> rfl
        · rfl
      · exact hc
    · show ((s.perform c e).core c).stat = _
      rw [hq, if_pos ht, State.core_upd_same]
      unfold Core.gives
      rw [hst, hs]
      dsimp only
      rw [if_pos rfl]
  · intro va bs hp ho hs hk hd
    refine ⟨_, ⟨s.nextId, bits va 63 56 - 1, e.packet va c, e.dom, e.ctx, c, false, s.cyc, 0#16, false, none⟩,
      execStorePerform_ready h hm ho (heldAway_peer hp), ?_⟩
    rw [perform_peer hp hs hk hd]
    refine ⟨rfl, congrArg (· - 1) (bits_device va), ?_, rfl, rfl, ?_, ?_⟩
    · show e.packet va c = _
      unfold PAcc.packet
      rw [ho]
    · rw [core_send, State.core_upd_same]
      exact List.mem_map.2 ⟨e, List.mem_of_getElem? h, if_pos rfl⟩
    · rw [core_send, State.core_upd_same]
      exact List.length_map _
  · intro p hs hn hu hw
    refine ⟨s.answered c p, rfl, ?_⟩
    rw [answered_acc hn (List.mem_of_getElem? h) hs hu hw]
    refine ⟨?_, ?_, rfl⟩
    · rw [State.without, State.core_upd_same, State.core_upd_same]
    · rw [State.without, State.core_upd_same, State.core_upd_same]
  · intro k off bs hp ho ha hx
    rw [execStorePerform_ready h hm ho (heldAway_here hp ha), perform_store_sp hp ho ha hx]
    rfl
  · intro k off dep ann hp ho ha hx
    rw [execBarrierArrival_ready h hm ho (heldAway_here hp ha), perform_arrive hp ho hx]
    rfl
  · intro id rd v ty n k hs hh
    exact wake_wakes _ s c n k _ (dbgBlind_ws rd _) (execLoadReply_atomic hs hh)

end Sys2Proof.Machine
end

section
/-! Atomics: their values, and how they are posted (15 R266, R267). -/

namespace Sys2Proof.Machine

/-! The values. -/

/-- The mask of 32-bit values keeps the low half. -/
theorem and_low32 (x : Word) : x &&& 0xFFFFFFFF#64 = (x.setWidth 32).setWidth 64 := by
  refine BitVec.eq_of_toNat_eq ?_
  rw [BitVec.toNat_and, BitVec.toNat_setWidth, BitVec.toNat_setWidth]
  have : x.toNat % 2 ^ 32 < 2 ^ 64 := by omega
  rw [Nat.mod_eq_of_lt this]
  exact Nat.and_two_pow_sub_one_eq_mod x.toNat 32

theorem and_all64 (x : Word) : x &&& 0xFFFFFFFFFFFFFFFF#64 = x := BitVec.and_allOnes

theorem setWidth_low (v : BitVec 32) : (v.setWidth 64).setWidth 32 = v := by
  rw [BitVec.setWidth_setWidth_of_le _ (by decide), BitVec.setWidth_eq]

theorem setWidth_64_inj (v u : BitVec 32) : v.setWidth 64 = u.setWidth 64 ↔ v = u :=
  ⟨fun h => by rw [← setWidth_low v, h, setWidth_low], fun h => by rw [h]⟩

theorem setWidth_64_lt (v u : BitVec 32) : v.setWidth 64 < u.setWidth 64 ↔ v < u := by
  rw [BitVec.lt_def, BitVec.lt_def, BitVec.toNat_setWidth, BitVec.toNat_setWidth, Nat.mod_eq_of_lt, Nat.mod_eq_of_lt] <;> omega

theorem atNew_64 (w b e : Word) :
    atNew .add 8 w b e = w + b ∧ atNew .and 8 w b e = w &&& b ∧ atNew .or 8 w b e = w ||| b ∧ atNew .xchg 8 w b e = b ∧
      atNew .cas 8 w b e = (if w = e then b else w) ∧ atNew .min 8 w b e = (if b.slt w then b else w) ∧
      atNew .max 8 w b e = (if w.slt b then b else w) ∧ atNew .minu 8 w b e = (if b.ult w then b else w) ∧
      atNew .maxu 8 w b e = (if w.ult b then b else w) := by
  have h8 : ¬ (8 = 4) := by decide
  simp only [atNew, h8, if_false, and_all64, BitVec.slt, BitVec.ult, decide_eq_true_eq, BitVec.lt_def, gt_iff_lt, and_self]

theorem atNew_32 (v : BitVec 32) (b e : Word) : let c : BitVec 32 := b.setWidth 32
    atNew .add 4 (v.setWidth 64) b e = (v + c).setWidth 64 ∧ atNew .and 4 (v.setWidth 64) b e = (v &&& c).setWidth 64 ∧
      atNew .or 4 (v.setWidth 64) b e = (v ||| c).setWidth 64 ∧ atNew .xchg 4 (v.setWidth 64) b e = c.setWidth 64 ∧
      atNew .cas 4 (v.setWidth 64) b e = (if v = e.setWidth 32 then c else v).setWidth 64 ∧
      atNew .min 4 (v.setWidth 64) b e = (if c.slt v then c else v).setWidth 64 ∧
      atNew .max 4 (v.setWidth 64) b e = (if v.slt c then c else v).setWidth 64 ∧
      atNew .minu 4 (v.setWidth 64) b e = (if c.ult v then c else v).setWidth 64 ∧
      atNew .maxu 4 (v.setWidth 64) b e = (if v.ult c then c else v).setWidth 64 := by
  intro c
  have hand : v.setWidth 64 &&& b = (v &&& c).setWidth 64 := by
    refine BitVec.eq_of_getLsbD_eq fun i hi => ?_
    simp only [c, BitVec.getLsbD_and, BitVec.getLsbD_setWidth]
    by_cases h : i < 32
    · simp [h, hi]
    · simp [h, hi, BitVec.getLsbD_of_ge v i (by omega)]
  have hif (p : Prop) [Decidable p] (x y : BitVec 32) : (if p then x else y).setWidth 64 = if p then x.setWidth 64 else y.setWidth 64 := by
    split <;> rfl
  simp only [atNew, if_true, and_low32, BitVec.setWidth_add _ _ (show 32 ≤ 64 by decide), BitVec.setWidth_or, setWidth_low, setWidth_64_inj,
    setWidth_64_lt, hand, hif, BitVec.slt, BitVec.ult_iff_lt, decide_eq_true_eq, gt_iff_lt, c, and_self]

/-! The posting. -/

section
variable {s w : State} {ea : Word} {n : Nat} {ps : List Piece}

/-- The access that an atomic posts for a piece. -/
def State.atomicOf (z : State) (op : AtOp) (m : Dm) (b d : Reg) (p : Piece) : PAcc :=
  let w := z.who z.cur false
  ⟨z.nextId, false, p, .atomic op (z.me.rs b) (z.me.rs d) (d != 0#5), z.dm m, false, w.task, w.ctx, w.act, z.me.afterOf false, none, 0#5⟩

/-- The machine with accesses posted under one number. -/
def State.posted (z : State) (l : List PAcc) : State := (z.updMe fun x => { x with acc := x.acc ++ l }).fresh

theorem atomicOp_passes {op : AtOp} {t : ATy} {m : Dm} {b a d : Reg} (ha : (s.me.rs a).toNat % atSize t = 0)
    (h : s.Passes .atomic (s.me.rs a) (atSize t) ps w) : ∃ z : State, s.Checked z ∧ Marked w z ∧ atomicOp op t m b a d s =
      .next (if d != 0#5 then (z.posted (ps.map (z.atomicOf (atTyped op t) m b d))).sWait (.atomic z.nextId d none t) 1 1 (s.me.rs a)
        else (z.posted (ps.map (z.atomicOf (atTyped op t) m b d))).sDone 1 1 id) := by
  refine ⟨_, checked_of_passes h, watch_marked w .atomic (s.me.rs a) (atSize t), ?_⟩
  unfold atomicOp
  dsimp only
  rw [if_neg (by omega), sAcc_ok h]
  rfl

theorem atomicOp_misaligned {op : AtOp} {t : ATy} {m : Dm} {b a d : Reg} (ha : (s.me.rs a).toNat % atSize t ≠ 0) :
    atomicOp op t m b a d s = .next (s.sTrap 0x02#8 (s.me.rs a)) := by
  unfold atomicOp
  dsimp only
  rw [if_pos ha]

theorem rs_checked {z : State} (h : s.Checked z) (r : Reg) : z.me.rs r = s.me.rs r := by
  obtain ⟨_, _, _, _, hm⟩ := h.me
  rw [hm]
  rfl

theorem completes_posted {z u : State} {l : List PAcc} (hm : Marked w z) (hg : (z.posted l).Completes u 1 1 id) :
    w.used.Completes u 1 1 fun x => { x with acc := x.acc ++ l } := by
  have hpc : w.used.me.pc = z.fresh.me.pc := by
    obtain ⟨-, -, h, hme, -⟩ := hm
    show w.me.pc = z.me.pc
    rw [hme]
  have hp : z.posted l = z.fresh.updMe fun x => { x with acc := x.acc ++ l } := rfl
  rw [hp] at hg
  unfold State.Completes at hg ⊢
  rw [State.me_updMe] at hg
  rw [hpc]
  exact goes_marked (fun _ _ => rfl) (marked_fresh hm) (goes_updMe rfl rfl hg)

/-- An atomic on pieces that pass their checks is posted, and waited for when it names a register. -/
theorem posts_atomicOp {i : Instr} {op op' : AtOp} {t : ATy} {m : Dm} {b a d : Reg} (hi : exec i s = atomicOp op t m b a d s)
    (hop : atTyped op t = op') : Posts i s op' t m b a d := by
  intro n hn
  have hn : n = atSize t := by rw [hn]; cases t <;> rfl
  subst hn hop
  refine ⟨fun ha => hi.trans (atomicOp_misaligned ha), fun ps w ha hp => ?_⟩
  obtain ⟨z, hz, hm, hx⟩ := atomicOp_passes (op := op) (t := t) (m := m) (b := b) (a := a) (d := d) ha hp
  have hid : z.nextId = w.nextId := hz.nextId.trans (fills_chk hp).nextId.symm
  have hacc : z.me.acc = w.me.acc := by
    obtain ⟨-, -, h, hme, -⟩ := hm
    rw [hme]
  generalize hl : ps.map (z.atomicOf (atTyped op t) m b d) = l at hx
  refine ⟨_, l, hi.trans hx, ?_, fun e he => ?_, fun h0 => ?_, fun h0 => ?_⟩
  · rw [← hl, List.map_map]
    exact List.map_id _
  · rw [← hl] at he
    obtain ⟨p, -, rfl⟩ := List.mem_map.1 he
    refine ⟨hid, ?_, hz.dm m, rfl⟩
    unfold State.atomicOf
    rw [rs_checked hz, rs_checked hz]
  · rw [if_neg (by simp [h0])]
    exact completes_posted hm (State.sDone_spec _ 1 1 id dbgBlind_id)
  · rw [if_pos (by simpa using h0), ← hid, ← hacc]
    obtain ⟨_, _, _, _, hme⟩ := hz.me
    have hr : z.me.r = s.me.r := by rw [hme]
    have hf : (z.posted l).me = { z.me with acc := z.me.acc ++ l } := by
      show (z.updMe fun x => { x with acc := x.acc ++ l }).me = _
      rw [State.me_updMe]
    refine ⟨?_, ?_, ?_, hz.mem⟩
    · rw [State.sWait, State.me_updMe]
    · rw [State.sWait, State.me_updMe, hf]
    · rw [State.sWait, State.me_updMe, hf, hr]

end

/-- Settles O27: the values by the table's bit-vector identities; every atomic is `atomicOp` under its type. -/
theorem atomics : Obligations.Atomics := by
  refine ⟨fun w b e => ⟨atNew_64 w b e, fun v => atNew_32 v b e⟩, fun s m b a d => ⟨fun t => ?_, fun t => ?_⟩⟩
  · have hy : (if t = .i64 then ATy.i64 else .i32) = atTy t := by cases t <;> rfl
    intro y
    have hy : y = atTy t := hy
    rw [hy]
    exact ⟨posts_atomicOp rfl rfl, posts_atomicOp rfl rfl, posts_atomicOp rfl rfl, posts_atomicOp rfl rfl, posts_atomicOp rfl rfl⟩
  · exact ⟨posts_atomicOp (op := .min) rfl (by cases t <;> rfl), posts_atomicOp (op := .max) rfl (by cases t <;> rfl)⟩

end Sys2Proof.Machine
end

section
/-! `cpy`: the card's checks and the job that it submits (12 R213, R215, R216). -/

namespace Sys2Proof.Machine

/-! Reads of runs of bytes leave the hub as it was. -/

theorem fills_chkRun {w : Who} {b : TBuf} {acc : Acc} {fps : Option (List (BitVec 128))} {l : List (Word × Nat)} {s t : State} {ps : List Piece}
    (h : s.chkRun w b acc fps l = .ok ps t) : s.Fills t := by
  induction l generalizing s ps with
  | nil =>
    cases h
    exact State.Fills.refl _
  | cons p r ih =>
    unfold State.chkRun at h
    split at h
    · next qs s2 h2 =>
      split at h
      · next qs' s3 h3 =>
        cases h
        exact (fills_chk h2).trans (ih h3)
      · next h' => exact absurd h (h' _ _)
    · next h' => exact absurd h (h' _ _)

theorem hub_watch (s : State) (c : Nat) (acc : Acc) (a : Word) (n : Nat) : (s.watch c acc a n).hub = s.hub := by
  unfold State.watch
  dsimp only
  split <;> rfl

theorem readPieces_ok {s t : State} {w : Who} {key : Nat} {a : Word} {n : Nat} {bs : List Byte} {c : Chk} (hk : key ≤ 1)
    (h : s.readPieces w key a n c = .ok bs t) : ∃ ps, c = .ok ps t := by
  unfold State.readPieces at h
  split at h
  · next ps u =>
    refine ⟨ps, ?_⟩
    split at h
    · split at h
      next asked got _ =>
      split at h
      · cases h
        rfl
      · split at h
        · split at h <;> cases h
        · cases h
    · rw [if_neg (by omega)] at h
      split at h
      · cases h
        rfl
      · cases h
  · cases h

theorem hub_readRun {s t : State} {w : Who} {a : Word} {n : Nat} {l : List (Word × Nat)} {bs : List Byte} (h : s.readRun w a n l = .ok bs t) :
    t.hub = s.hub := by
  unfold State.readRun at h
  split at h
  · cases h
  · split at h
    · next bs' u hu =>
      cases h
      obtain ⟨ps, hps⟩ := readPieces_ok (by split <;> decide) hu
      rw [← (fills_chkRun hps).hub]
      clear hu hps
      exact foldl_keeps State.hub (fun s p => hub_watch ..) l u
    · next h' => exact absurd h (h' _ _)

theorem hub_readRec {s t : State} {w : Who} {a : Word} {r : LayRec} (h : s.readRec w a = .ok r t) : t.hub = s.hub := by
  unfold State.readRec State.readBytes at h
  split at h
  · next r1 s1 h1 =>
    rw [← hub_readRun h1]
    split at h
    · cases h
      rfl
    · split at h
      · exact hub_readRun h
      · split at h
        · next h2 =>
          cases h
          exact hub_readRun h2
        · next h' => exact absurd h (h' _ _)
  · next h' => exact absurd h (h' _ _)

theorem fireOne_frame (s : State) (c : Nat) : s.fireOne c = { s with cores := (s.fireOne c).cores, nextId := (s.fireOne c).nextId } := by
  unfold State.fireOne
  dsimp only
  split
  · rfl
  · split <;> rfl

theorem fireHeld_frame (s : State) (c : Nat) : s.fireHeld c = { s with cores := (s.fireHeld c).cores, nextId := (s.fireHeld c).nextId } := by
  unfold State.fireHeld
  generalize List.filter _ _ = l
  induction l generalizing s with
  | nil => rfl
  | cons _ r ih =>
    rw [List.foldl_cons]
    refine (ih _).trans ?_
    rw [fireOne_frame] <;> rfl

theorem hub_fireHeld (s : State) (c : Nat) : (s.fireHeld c).hub = s.hub := by rw [fireHeld_frame]

/-! The instruction. -/

section
variable {s : State} {m : Dm} {a d : Reg}

theorem execCpy_misplaced (h : ((s.fireHeld s.cur).me.rs a).toNat % 128 ≠ 0 ∨ ((s.fireHeld s.cur).me.rs a).toNat < 0x800 ∨
    0x7FF80 < ((s.fireHeld s.cur).me.rs a).toNat) : exec (.cpy m a d) s = .next ((s.fireHeld s.cur).sTrap 0x02#8 ((s.fireHeld s.cur).me.rs a)) := by
  show execCpy m a d s = _
  unfold execCpy
  dsimp only
  rw [if_pos h]

/-- The refusal of a card with the code of its check. -/
def State.refuseCard (s : State) (d : Reg) (code : Nat) : State := s.sDone 1 4 fun x => x.ws d (BitVec.ofNat 64 (2 ^ 63 + code))

theorem refuseCard_computes (s : State) (d : Reg) (code : Nat) :
    s.Computes (s.refuseCard d code) 1 4 d (BitVec.ofNat 64 (2 ^ 63 + code)) := s.sDone_ws 1 4 d _

/-- Whether the job moves bytes at a peer. -/
def State.cardPeer (s : State) (k : Card) (r : LayRec) : Bool :=
  recRun r != 0 && (extent s.own k.src 0 0 0 == .peer || (k.kind == 0 && extent s.own k.dst 0 0 0 == .peer))

/-- The job of a good card. -/
def State.cardJob (s : State) (w : Who) (k : Card) (r : LayRec) (m : Dm) : Job :=
  { id := s.nextId, kind := k.kind, ch := k.ch, wmk := k.wmk, stag := k.stag, seq := (s.me.takeSeq k.stag s.nextId).1, src := k.src, dst := k.dst
    cnt := recCnt r, ss := recSs r, ds := recDs r, run := recRun r, len := recRun r * nestCount (recCnt r), ety := 0, cmpl := k.cmpl.toNat
    sig := 0#64, sigA := false, fps := k.fps, dom := s.dm m, task := w.task, ctx := w.ctx
    act := s.me.act.map (·.id)
    promise := s.me.promiseOf s.cyc k.ch (recRun r * nestCount (recCnt r)) (s.me.edgesOf k.fps k.stag) (s.cardPeer k r)
    edges := s.me.edgesOf k.fps k.stag, st := 0, iter := k.start
    done := nestIndex (recCnt r) k.start * recRun r, code := 0, flight := 0, after := 0, sigSent := false
    wr := false, pkts := [] }

/-- What the submission does to the core. -/
def Core.submit (x : Core) (stag : BitVec 16) (n : Nat) (j : Job) (d : Reg) : Core :=
  let x := (x.takeSeq stag n).2
  { x with jobs := x.jobs ++ [j] }.ws d (BitVec.ofNat 64 j.promise)

theorem execCpy_placed (h1 : ((s.fireHeld s.cur).me.rs a).toNat % 128 = 0) (h2 : 0x800 ≤ ((s.fireHeld s.cur).me.rs a).toNat)
    (h3 : ((s.fireHeld s.cur).me.rs a).toNat ≤ 0x7FF80) : exec (.cpy m a d) s = .next (
      let z := s.fireHeld s.cur
      let k := readCard (z.me.spRead (z.me.rs a).toNat 128)
      let w := z.who z.cur false
      if ! z.me.slotFree then z.sStall (z.me.rs a)
      else if z.me.spBusy z.cur then z.sRetry
      else if ! k.first then z.refuseCard d 1
      else if k.lrec.toNat % 128 ≠ 0 then z.refuseCard d 2
      else match z.readRec w k.lrec with
        | .wait u => u.sStall (z.me.rs a)
        | .bad x => z.sBad x
        | .ok r u =>
          if ! recSealed r then u.sViol .load k.lrec
          else if u.cardCode w.ctx k r ≠ 0 then u.refuseCard d (u.cardCode w.ctx k r)
          else match u.cardBad w k r with
            | some (acc, v) => u.sViol acc v
            | none => (u.fresh).sDone 1 4 fun x => x.submit k.stag u.nextId (u.cardJob w k r m) d) := by
  show execCpy m a d s = _
  unfold execCpy
  dsimp only
  rw [if_neg (by omega)]
  rfl

theorem takeSeq_seqs (x : Core) (stag : BitVec 16) (n : Nat) : (x.takeSeq stag n).2 = { x with seqs := (x.takeSeq stag n).2.seqs } := by
  unfold Core.takeSeq
  split <;> rfl

theorem takeSeq_none (x : Core) (n : Nat) : (x.takeSeq 0#16 n).2 = x := rfl

theorem submit_eq (x : Core) (stag : BitVec 16) (n : Nat) (j : Job) (d : Reg) : x.submit stag n j d =
    ({ x with jobs := x.jobs ++ [j], seqs := (x.takeSeq stag n).2.seqs } : Core).ws d (BitVec.ofNat 64 j.promise) := by
  unfold Core.submit
  rw [takeSeq_seqs]

theorem dbgBlind_submit (stag : BitVec 16) (n : Nat) (j : Job) (d : Reg) : DbgBlind fun x => x.submit stag n j d := by
  intro x e
  have hs : (({ x with dbg := e } : Core).takeSeq stag n).2.seqs = (x.takeSeq stag n).2.seqs := by
    unfold Core.takeSeq
    split <;> rfl
  simp only [submit_eq, hs]
  exact dbgBlind_ws d (BitVec.ofNat 64 j.promise) { x with jobs := x.jobs ++ [j], seqs := (x.takeSeq stag n).2.seqs } e

/-- The first job's promise has nothing to wait for (R216). -/
theorem promise_first {u : State} {k : Card} {r : LayRec} (m : Dm) (w : Who) (hj : u.me.jobs = [])
    (hp : recRun r = 0 ∨ extent u.own k.src 0 0 0 ≠ .peer ∧ extent u.own k.dst 0 0 0 ≠ .peer) :
    (u.cardJob w k r m).promise = Nat.min (u.cyc + 2400 + (recRun r * nestCount (recCnt r) + 15) / 16) (2 ^ 63 - 1) := by
  have ho : u.me.openJobs = [] := by
    unfold Core.openJobs
    rw [hj]
    rfl
  have hc : u.cardPeer k r = false := by
    unfold State.cardPeer
    rcases hp with h | ⟨h1, h2⟩
    · simp [h]
    · simp [h1, h2]
  show u.me.promiseOf _ _ _ _ (u.cardPeer k r) = _
  unfold Core.promiseOf
  rw [ho, hc]
  rfl

end

/-- Settles O28: each check of the card in its turn, and the job of one that passes them all. -/
theorem copySubmit : Obligations.CopySubmit := by
  intro s m a d z c k w
  refine ⟨execCpy_misplaced, fun h1 h2 h3 => ?_⟩
  have hx : exec (.cpy m a d) s = _ := execCpy_placed h1 h2 h3
  dsimp only at hx
  refine ⟨fun hf => hx.trans ?_, fun hf hb => ⟨fun hk => ⟨z.refuseCard d 1, hx.trans ?_, refuseCard_computes ..⟩,
    fun hk hl => ⟨z.refuseCard d 2, hx.trans ?_, refuseCard_computes ..⟩, ?_⟩⟩
  · rw [if_pos (by rw [hf]; rfl)]
  · rw [if_neg (by rw [hf]; simp), if_neg (by rw [hb]; simp), if_pos (by rw [hk]; rfl)]
  · rw [if_neg (by rw [hf]; simp), if_neg (by rw [hb]; simp), if_neg (by rw [hk]; simp), if_pos hl]
  · intro r u hk hl hr hs hcur code
    rw [if_neg (by rw [hf]; simp), if_neg (by rw [hb]; simp), if_neg (by rw [hk]; simp), if_neg (not_not.2 hl), hr] at hx
    dsimp only at hx
    rw [if_neg (by rw [hs]; simp)] at hx
    refine ⟨fun hc => ⟨u.refuseCard d code, hx.trans ?_, refuseCard_computes ..⟩, fun hc hbad => ?_⟩
    · rw [if_pos hc]
    · rw [if_neg (not_not.2 hc), hbad] at hx
      dsimp only at hx
      have ho : u.own = s.own := by
        unfold State.own
        rw [hub_readRec hr, show z.hub = s.hub from hub_fireHeld s s.cur]
      refine ⟨_, u.cardJob w k r m, (u.me.takeSeq k.stag u.nextId).2.seqs, hx, ?_, rfl, rfl, rfl, rfl, rfl, rfl, fun h0 => ?_, fun hj hp => ?_⟩
      · exact Completes_congr (submit_eq u.me k.stag u.nextId _ d) (State.sDone_spec u.fresh 1 4 _ (dbgBlind_submit _ _ _ _))
      · rw [h0]
        rfl
      · exact promise_first m w hj (by rw [ho]; exact hp)

end Sys2Proof.Machine
end

section
/-! The life of a copy job, `waitp` and `wm` (12 R208, R214, R217 to R219, R224, R225). -/

namespace Sys2Proof.Machine

/-! Bytes one after another. -/

theorem Memory.read_append (m : List Host.Cell) (a n k : Nat) : Memory.read m a (n + k) = Memory.read m a n ++ Memory.read m (a + n) k := by
  induction n generalizing a with
  | zero => rw [Nat.zero_add]; rfl
  | succ n ih =>
    rw [show n + 1 + k = (n + k) + 1 by omega]
    simp only [Memory.read]
    rw [ih, show a + 1 + n = a + (n + 1) by omega]
    rfl

theorem Memory.write_append (m : List Host.Cell) (a : Nat) (xs ys : List Byte) :
    Memory.write m a (xs ++ ys) = Memory.write (Memory.write m a xs) (a + xs.length) ys := by
  induction xs generalizing m a with
  | nil => rfl
  | cons x xs ih =>
    simp only [List.cons_append, Memory.write, List.length_cons]
    rw [ih, show a + 1 + xs.length = a + (xs.length + 1) by omega]

/-! `waitp` and `wm`. -/

section
variable {x : Core} {t : Word}

theorem missed_none (h : ∀ j ∈ x.jobs, j.st = 6 ∨ 1 < j.kind ∨ t.toNat < j.promise) : x.missed t = none := by
  unfold Core.missed Core.openJobs
  rw [Option.map_eq_none_iff, List.find?_eq_none]
  intro j hj
  rw [List.mem_filter, bne_iff_ne] at hj
  have := h j hj.1
  rw [Bool.and_eq_true, decide_eq_true_eq, decide_eq_true_eq]
  have := hj.2
  omega

theorem missed_first {j : Job} {r : List Job} (h : x.jobs = j :: r) (h6 : j.st ≠ 6) (hk : j.kind ≤ 1) (hp : j.promise ≤ t.toNat) :
    x.missed t = some j.promise := by
  unfold Core.missed Core.openJobs
  rw [h, List.filter_cons_of_pos (by simpa using h6), List.find?_cons_of_pos (by simp [hk, hp])]
  rfl

end

section
variable {s : State} {a d : Reg}

theorem execWaitp_passed (h : (s.me.rs a).toNat ≤ s.cyc % 2 ^ 64) : exec (.waitp a) s =
    .next (match s.me.missed (s.me.rs a) with | some p => s.sTrap 0x11#8 (BitVec.ofNat 64 p) | none => s.sDone 1 1 id) := by
  show execWaitp a s = _
  unfold execWaitp
  dsimp only
  rw [if_pos h] <;> rfl

theorem execWaitp_early (h : s.cyc % 2 ^ 64 < (s.me.rs a).toNat) : Waits (.waitp a) s s (.cycle (s.me.rs a) true) := by
  show execWaitp a s = _
  unfold execWaitp
  dsimp only
  rw [if_neg (by omega)]
  rfl

theorem execCycleWaitEnd_promise {c n k : Nat} {u : Word} (hh : (s.core c).dbg.halted = false) (hs : (s.core c).stat = .wait (.cycle u true) n k)
    (h : u.toNat ≤ s.cyc % 2 ^ 64) (hm : (s.core c).missed u = none) : exec (.cycleWaitEnd c) s = .next (s.wake c n k id) := by
  show execCycleWaitEnd c s = _
  rw [execCycleWaitEnd]
  simp only [hh, hs, h, hm, Bool.false_eq_true, if_false, if_true]

/-- A job whose channel has an armed watermark. -/
def Job.marks (t : Nat) (j : Job) : Bool := j.wmk && j.ch == t && (j.st == 2 || j.st == 3 || j.st == 4)

theorem marks_iff (t : Nat) (j : Job) : j.marks t = true ↔ j.wmk = true ∧ j.ch = t ∧ (j.st = 2 ∨ j.st = 3 ∨ j.st = 4) := by
  simp [Job.marks, and_assoc, or_assoc]

theorem execWm_eq : exec (.wm a d) s = .next (s.sDone 1 2 fun c => c.ws d
    (match s.me.jobs.find? (Job.marks ((s.me.rs a).toNat % 4)) with | some j => j.dst + BitVec.ofNat 64 j.done | none => BitVec.allOnes 64)) := by
  have hb : bits (s.me.rs a) 1 0 = (s.me.rs a).toNat % 4 := by
    unfold bits
    simp
  show execWm a d s = _
  unfold execWm
  dsimp only
  rw [hb] <;> rfl

end

/-! Jobs by their number. -/

section
variable {s : State} {c j : Nat} {k : Job}

theorem job_id (h : (s.core c).job j = some k) : k.id = j := by simpa using List.find?_some h

theorem job_updJob {x : Core} (h : x.job j = some k) (f : Job → Job) (hf : ∀ y, (f y).id = y.id) : (x.updJob j f).job j = some (f k) := by
  have hk : k.id = j := by simpa using List.find?_some h
  unfold Core.job Core.updJob at *
  rw [List.find?_map]
  have hc : ((fun y : Job => y.id == j) ∘ fun y : Job => if y.id = j then f y else y) = fun y => y.id == j := by
    funext y
    rw [Function.comp_apply]
    split <;> simp [hf]
  rw [hc, h, Option.map_some, if_pos hk]

theorem execJobRelease_ready (h : (s.core c).job j = some k) (h0 : k.st = 0)
    (he : ∀ e ∈ k.edges, ∀ y ∈ (s.core c).jobs, y.id = e → y.st = 6) :
    exec (.jobRelease c j) s = .next (s.updJob c j fun y => { y with st := 1, after := s.cyc }) := by
  have hn : (k.edges.any fun e => (s.core c).openJobs.any fun y => y.id == e) = false := by
    rw [List.any_eq_false]
    intro e hm
    rw [Bool.not_eq_true, List.any_eq_false]
    intro y hy
    rw [Core.openJobs, List.mem_filter, bne_iff_ne] at hy
    rw [beq_iff_eq]
    exact fun hi => hy.2 (he e hm y hy.1 hi)
  show execJobRelease c j s = _
  unfold execJobRelease
  dsimp only
  rw [h]
  dsimp only
  rw [if_pos ⟨h0, by rw [hn]; rfl⟩]

theorem execJobStart_ready (h : (s.core c).job j = some k) (h1 : k.st = 1) (hb : ∀ y ∈ (s.core c).jobs, y.ch = k.ch → y.st < 2 ∨ y.st = 5)
    (hf : ∀ y ∈ (s.core c).jobs, y.ch = k.ch → y.st = 1 → k.after < y.after ∨ k.after = y.after ∧ j ≤ y.id)
    (hs : s.streamClear c k = true) : exec (.jobStart c j) s = .next (s.updJob c j fun y => { y with st := 2 }) := by
  show execJobStart c j s = _
  unfold execJobStart
  dsimp only
  rw [h]
  dsimp only
  refine congrArg Host.Outcome.next (if_pos ⟨h1, ?_, ?_, hs⟩)
  · rw [Bool.not_eq_true', List.any_eq_false]
    intro y hy ht
    simp only [Bool.and_eq_true, Bool.or_eq_true, beq_iff_eq] at ht
    have := hb y hy ht.1
    omega
  · rw [Bool.not_eq_true', List.any_eq_false]
    intro y hy ht
    simp only [Bool.and_eq_true, Bool.or_eq_true, beq_iff_eq, decide_eq_true_eq] at ht
    have := hf y hy ht.1.1 ht.1.2
    omega

end

/-! One iteration. -/

section
variable {s u v : State} {c : Nat}

/-- Pieces of a run in device memory lie there, within the run. -/
theorem flat_mem {ps : List Piece} {a n : Nat} (h : Flat ps a n) {p : Piece} (hp : p ∈ ps) : ∃ pa, p.at_ = .dram pa ∧ a ≤ pa ∧ pa + p.n ≤ a + n := by
  induction ps generalizing a n with
  | nil => cases hp
  | cons q r ih =>
    obtain ⟨h1, h2, h3⟩ := h
    rcases List.mem_cons.1 hp with rfl | hp
    · exact ⟨a, h1, Nat.le_refl a, by omega⟩
    · obtain ⟨pa, e, l1, l2⟩ := ih h3 hp
      exact ⟨pa, e, by omega, by omega⟩

theorem anyPeer_flat {ps : List Piece} {a n : Nat} (h : Flat ps a n) : anyPeer ps = false := by
  refine anyPeer_false fun p hp v e => ?_
  obtain ⟨pa, e', -⟩ := flat_mem h hp
  rw [e'] at e
  cases e

theorem struckPs_flat {ps : List Piece} {a n : Nat} (h : Flat ps a n) (hw : s.WholeAt a n) : s.struckPs ps = none := by
  unfold State.struckPs
  induction ps generalizing a n with
  | nil => rfl
  | cons p r ih =>
    obtain ⟨h1, h2, h3⟩ := h
    have hn : s.struckAt p.at_ p.n = none := by
      rw [h1]
      refine struck_none _ _ _ fun e he => ?_
      have := hw e he
      omega
    rw [List.foldl_cons, hn]
    exact ih h3 fun e he => by
      have := hw e he
      omega

/-- The bytes of a run in device memory. -/
theorem runBytes_flat {ps : List Piece} {a n : Nat} (h : Flat ps a n) (m : Nat) (e : JobErr) : s.runBytes c ps m e = some (Memory.read s.mem a n) := by
  unfold State.runBytes
  rw [anyPeer_flat h, if_neg (by decide)]
  refine congrArg some ?_
  induction ps generalizing a n with
  | nil =>
    cases h
    rfl
  | cons p r ih =>
    obtain ⟨h1, h2, h3⟩ := h
    rw [List.map_cons, List.flatten_cons, ih h3, show n = p.n + (n - p.n) by omega, Memory.read_append, h1, Nat.add_sub_cancel_left]
    rfl

/-- A run written to device memory is written byte after byte, and the cores stay. -/
theorem writeRun_flat (k : Job) {ps : List Piece} {a n : Nat} (h : Flat ps a n) (bs : List Byte) (hb : bs.length = n) :
    (s.writeRun c k bs ps).mem = Memory.write s.mem a bs ∧ (s.writeRun c k bs ps).cores = s.cores := by
  unfold State.writeRun
  generalize s.dtag k.dom = t
  induction ps generalizing s a n bs with
  | nil =>
    cases h
    rw [List.length_eq_zero_iff.1 hb]
    exact ⟨rfl, rfl⟩
  | cons p r ih =>
    obtain ⟨h1, h2, h3⟩ := h
    rw [List.foldl_cons]
    dsimp only
    rw [h1]
    dsimp only
    obtain ⟨i1, i2⟩ := ih (s := s.storeTo (.dram a) p.va (bs.take p.n) t k.ctx c) h3 (bs.drop p.n) (by rw [List.length_drop, hb])
    have hst : (s.storeTo (.dram a) p.va (bs.take p.n) t k.ctx c).mem = Memory.write s.mem a (bs.take p.n) ∧
        (s.storeTo (.dram a) p.va (bs.take p.n) t k.ctx c).cores = s.cores := by
      unfold State.storeTo
      dsimp only
      rw [touchLine_frame]
      exact ⟨rfl, rfl⟩
    refine ⟨i1.trans ?_, i2.trans hst.2⟩
    have hl : (bs.take p.n).length = p.n := by
      rw [List.length_take, hb]
      omega
    rw [hst.1]
    conv_rhs => rw [← List.take_append_drop p.n bs, Memory.write_append, hl]

/-- What the streamer's read of a run changes (R180, R264, R302). -/
theorem looked_frame (ps : List Piece) {a n : Nat} (h : Flat ps a n) : let t := ((s.seeLate c).touch ps).mendPs ps
    t.mem = s.mem ∧ t.hub = s.hub ∧ (t.core c).jobs = (s.core c).jobs := by
  have h1 : (s.seeLate c).mem = s.mem ∧ (s.seeLate c).hub = s.hub ∧ ((s.seeLate c).core c).jobs = (s.core c).jobs := by
    unfold State.seeLate
    split
    · exact ⟨rfl, rfl, rfl⟩
    · refine ⟨rfl, rfl, ?_⟩
      rw [State.core_upd_same]
      rfl
  generalize s.seeLate c = t1 at h1
  have h2 : (t1.touch ps).mem = t1.mem ∧ (t1.touch ps).hub = t1.hub ∧ (t1.touch ps).cores = t1.cores := by
    unfold State.touch
    refine ⟨foldl_keeps State.mem (fun s p => ?_) ps t1, foldl_keeps State.hub (fun s p => ?_) ps t1, foldl_keeps State.cores (fun s p => ?_) ps t1⟩
    all_goals rw [touchLine_frame]
  generalize t1.touch ps = t2 at h2
  have h3 : (t2.mendPs ps).mem = t2.mem ∧ (t2.mendPs ps).hub = t2.hub ∧ (t2.mendPs ps).cores = t2.cores := by
    unfold State.mendPs
    clear h1 h2
    induction ps generalizing t2 a n with
    | nil => exact ⟨rfl, rfl, rfl⟩
    | cons p r ih =>
      obtain ⟨e1, -, e3⟩ := h
      rw [List.foldl_cons, e1]
      exact ih e3 _
  exact ⟨h3.1.trans (h2.1.trans h1.1), h3.2.1.trans (h2.2.1.trans h1.2.1), by
    rw [State.core, h3.2.2, h2.2.2]
    exact h1.2.2⟩

end

section
variable {s u v : State} {c j : Nat} {k : Job}

/-- A job's access whose checks pass (R200, R219). -/
theorem jobAcc_ok {acc : Acc} {a : Word} {n : Nat} {ps : List Piece} {f : List Piece → State → State} (hk : k.kind = 0)
    (h : s.chkRun ⟨c, k.ctx, k.task, 0, s.dtag k.dom, false⟩ .st acc (some k.fps) (runParts n a n) = .ok ps u) : s.jobAcc c k acc a n f = f ps u := by
  unfold State.jobAcc
  dsimp only
  rw [if_pos (by omega), h]

theorem step_id (y : Job) (n : Nat) : (y.step n).id = y.id := by
  unfold Job.step
  split <;> rfl

/-- One iteration of a copy within device memory. -/
theorem copyIter_flat {ps qs : List Piece} {a b : Nat} (hj : (s.core c).job k.id = some k) (hk : k.kind = 0) (hr : k.run ≠ 0) (hf : k.flight = 0)
    (h1 : s.chkRun ⟨c, k.ctx, k.task, 0, s.dtag k.dom, false⟩ .st .jobRead (some k.fps)
      (runParts k.run (k.src + BitVec.ofInt 64 (nestSum (ints k.ss) k.iter)) k.run) = .ok ps u)
    (h2 : u.chkRun ⟨c, k.ctx, k.task, 0, s.dtag k.dom, false⟩ .st .jobWrite (some k.fps)
      (runParts k.run (k.dst + BitVec.ofInt 64 (nestSum (ints k.ds) k.iter)) k.run) = .ok qs v)
    (hp : Flat ps a k.run) (hq : Flat qs b k.run) (hw : s.WholeAt a k.run) :
    (s.copyIter c k .none).mem = Memory.write s.mem b (Memory.read s.mem a k.run) ∧
      ((s.copyIter c k .none).core c).job k.id = some (k.step k.run) := by
  have hu := fills_chkRun h1
  have hv := hu.trans (fills_chkRun h2)
  rw [← dtag_hub hu.hub] at h2
  have hup : v.upsets = s.upsets := by rw [hv.1]
  have hjobs : (v.core c).jobs = (s.core c).jobs := by
    obtain ⟨_, _, _, hc⟩ := hv.core c
    rw [hc]
  have hst : v.struckPs ps = none := struckPs_flat hp fun e he => hw e (hup ▸ he)
  have hlog : (qs.any fun q => v.logStop k.ctx q.at_) = false := by
    refine List.any_eq_false.2 fun q hm => ?_
    obtain ⟨pa, e, -⟩ := flat_mem hq hm
    rw [e]
    exact Bool.false_ne_true
  unfold State.copyIter
  dsimp only
  rw [if_neg hr, jobAcc_ok hk h1]
  rw [if_neg (by omega), jobAcc_ok hk h2]
  rw [if_neg (by rw [hlog]; exact Bool.false_ne_true)]
  unfold State.jobErr
  rw [hst]
  dsimp only
  rw [if_neg JobErr.noConfusion]
  obtain ⟨l1, l2, l3⟩ := looked_frame (s := v) (c := c) ps hp
  generalize ((v.seeLate c).touch ps).mendPs ps = t at l1 l2 l3
  rw [runBytes_flat hp]
  dsimp only
  show ((t.writeRun c k (Memory.read t.mem a k.run) qs).updJob c k.id _).mem = _ ∧ _
  obtain ⟨w1, w2⟩ := writeRun_flat (s := t) (c := c) k hq (Memory.read t.mem a k.run) (Memory.length_read ..)
  rw [l1, hv.mem] at w1 w2
  have hjob : ((t.writeRun c k (Memory.read s.mem a k.run) qs).core c).job k.id = some k := by
    rw [State.core, w2]
    unfold Core.job at hj ⊢
    rw [show ((tGet t.cores c).getD Core.zero).jobs = (s.core c).jobs from l3.trans hjobs, hj]
  rw [l1, hv.mem]
  refine ⟨w1, ?_⟩
  rw [State.updJob, State.core_upd_same]
  refine (job_updJob hjob _ fun y => ?_).trans (congrArg some (if_pos hf))
  split
  · exact step_id y _
  · rfl

/-- Requests for what a job reads leave memory and cores as they are. -/
theorem askJob_frame (e : JobErr) : (s.askJob c k e).mem = s.mem ∧ (s.askJob c k e).cores = s.cores := by
  unfold State.askJob
  split
  · dsimp only
    generalize (if k.kind ≤ 1 then k.run else k.chunk) = n
    split
    · split <;> exact ⟨rfl, rfl⟩
    · exact ⟨rfl, rfl⟩
  · exact ⟨rfl, rfl⟩

theorem execJobIteration_copies (h : (s.core c).job j = some k) (h2 : k.st = 2) (hk : k.kind = 0) (hf : k.flight = 0) (hw : k.wr = false)
    (he : s.expired c (s.dtag k.dom) = false) : exec (.jobIteration c j .none) s = .next ((s.copyIter c k .none).askJob c k .none) := by
  show execJobIteration c j .none s = _
  unfold execJobIteration
  rw [h]
  dsimp only
  rw [if_neg (by omega), if_neg (by rw [hw]; exact Bool.false_ne_true), if_pos ⟨h2, by omega⟩, if_neg (by rw [he]; exact Bool.false_ne_true),
    if_pos (by omega)]

/-! The end of a job. -/

/-- The arrival of a completion looks at no job. -/
theorem arrive_jobs (x : Core) (l : List Job) (off : Nat) (dep ann : Bool) (st : Option (BitVec 48)) :
    ({ x with jobs := l } : Core).arrive off dep ann st = { x.arrive off dep ann st with jobs := l } := by
  have hw (o : Nat) : ({ x with jobs := l } : Core).spWord o = x.spWord o := by
    unfold Core.spWord
    congr 1
  unfold Core.arrive
  simp only [hw]
  split
  · rfl
  · split <;> rfl

theorem execJobComplete_done (h : (s.core c).job j = some k) (h4 : k.st = 4) (hf : k.flight = 0) (hs : k.sig = 0#64 ∨ k.sigSent = true) :
    exec (.jobComplete c j) s = .next (s.upd c fun x =>
      let x := { x with jobs := x.jobs.filter fun y => y.id != j }
      if k.cmpl = 0 then x
      else ((x.arrive k.cmpl false false (some (engSt k.code))).evalArmed k.cmpl s.cyc).evalArmed (k.cmpl + 8) s.cyc) := by
  show execJobComplete c j s = _
  unfold execJobComplete
  rw [h]
  dsimp only
  rw [if_pos ⟨h4, hf, hs⟩]

end

/-- Settles O29: the job goes from one state to the next, each when nothing holds it back. -/
theorem copyProgress : Obligations.CopyProgress := by
  refine ⟨fun s c a d => ?_, fun s c j k h => ⟨execJobRelease_ready h, execJobStart_ready h, ?_, fun h4 hf hs => ?_⟩⟩
  · intro t
    refine ⟨fun h1 h2 => does_intro _ s 1 1 id dbgBlind_id ?_, fun j r h1 h2 h3 h4 h5 => ?_, execWaitp_early, fun n k u hh hs hu hj => ?_,
      fun h => ⟨_, execWm_eq, ?_⟩, fun j r h1 h2 h3 h4 => ⟨_, execWm_eq, ?_⟩⟩
    · rw [execWaitp_passed h1, missed_none h2]
    · show exec _ s = _
      rw [execWaitp_passed h1, missed_first h2 h3 h4 h5]
    · exact wake_wakes _ s c n k id dbgBlind_id (execCycleWaitEnd_promise hh hs hu (missed_none hj))
    · have hn : s.me.jobs.find? (Job.marks ((s.me.rs a).toNat % 4)) = none := by
        refine List.find?_eq_none.2 fun j hj hm => ?_
        obtain ⟨m1, m2, m3⟩ := (marks_iff _ j).1 hm
        rcases h j hj with h | h | h
        · rw [h] at m1
          cases m1
        · exact h m2
        · omega
      rw [hn]
      exact s.sDone_ws 1 2 d _
    · rw [h1, List.find?_cons_of_pos ((marks_iff _ j).2 ⟨h2, h3, h4⟩)]
      exact s.sDone_ws 1 2 d _
  · intro ps qs a b u v h2 hk hr hf hw he w h3 h4 hp hq hwh
    have hid := job_id h
    obtain ⟨m1, m2⟩ := copyIter_flat (by rw [hid]; exact h) hk hr hf h3 h4 hp hq hwh
    obtain ⟨a1, a2⟩ := askJob_frame (s := s.copyIter c k .none) (c := c) (k := k) .none
    refine ⟨_, execJobIteration_copies h h2 hk hf hw he, a1.trans m1, ?_⟩
    rw [← hid, State.core, a2]
    exact m2
  · refine ⟨_, execJobComplete_done h h4 hf hs, rfl, rfl, ?_, fun h0 => ?_, ?_, fun h0 => ?_⟩
    all_goals rw [State.core_upd_same]
    · dsimp only
      split
      · rfl
      · rw [arrive_jobs]
        rfl
    · dsimp only
      rw [if_pos h0]
    · dsimp only
      split
      · rfl
      · rw [arrive_jobs]
        exact r_arrive (s.core c) k.cmpl false false (some (engSt k.code))
    · dsimp only
      rw [if_neg h0, arrive_jobs]
      rfl

end Sys2Proof.Machine
end

section
/-! One-sided operations and armed puts (15 R269 to R277). -/

namespace Sys2Proof.Machine

/-- A completion after an effect on the core, which leaves its debug module, its pc and what it has read at peers as they were. -/
theorem completes_after_updMe {s t : State} {ws k : Nat} {f g : Core → Core} (hd : (f s.me).dbg = s.me.dbg) (hp : (f s.me).pread = s.me.pread)
    (hpc : (f s.me).pc = s.me.pc) (h : (s.updMe f).Completes t ws k g) : s.Completes t ws k fun x => g (f x) := by
  unfold State.Completes at h ⊢
  have hme : (s.updMe f).me = f s.me := State.me_updMe s f
  rw [hme, hpc] at h
  obtain ⟨h1, h2, h3⟩ := h
  rw [hme, hd] at h2
  rw [hme, hp] at h3
  refine ⟨(State.OnlyCore.upd s s.cur f).trans ⟨?_, ?_⟩ h1, h2, h3⟩
  · rw [State.core_upd_same]
    exact congrArg Dbg.trBase hd
  · rw [State.core_upd_same]
    exact congrArg Dbg.trSize hd

/-! Submissions. -/

section
variable {s : State} {o : Side} {x : DmR} {a d : Reg}

theorem offOk_iff (v : Word) (n : Nat) : offOk v n = true ↔ v.toNat % n = 0 ∧ 0x800 ≤ v.toNat ∧ v.toNat + n ≤ 0x80000 := by
  simp [offOk, and_assoc]

/-- What follows the checks on the descriptor's place, from the state after the held firings. -/
def State.sideFrom (z : State) (o : Side) (x : DmR) (a d : Reg) : State :=
  let k := readDesc (z.me.spRead (z.me.rs a).toNat 64)
  let w := z.who z.cur false
  if k.code z.own z.cur o ≠ 0 then z.sDone 1 4 fun c => c.ws d (BitVec.ofNat 64 (2 ^ 63 + k.code z.own z.cur o))
  else match z.sideBad w k o with
    | some (acc, v) => z.sViol acc v
    | none =>
      let t := z.sideDom x (z.dmr x).1
      if ! t.2 then (z.deadSide k o w.ctx).sDone 1 4 fun c => c.ws d 0#64
      else if o = .padd ∧ k.ety = 2 ∧ (! z.me.wbuf.isEmpty ∨ z.me.sl.inbox.length ≥ 8) then z.sStall (z.me.rs a)
      else (z.submitSide k o t.1 w).sDone 1 4 fun c => c.ws d 0#64

theorem sideOp_eq (o : Side) (x : DmR) (a d : Reg) (s : State) : sideOp o x a d s = .next (
    let z := s.fireHeld s.cur
    if ! (z.dmr x).2 then z.sTrap 0x08#8 ((z.dmr x).1.setWidth 64)
    else if ! offOk (z.me.rs a) 64 then z.sTrap 0x02#8 (z.me.rs a)
    else if ! z.me.slotFree then z.sStall (z.me.rs a)
    else if z.me.spBusy z.cur then z.sRetry
    else z.sideFrom o x a d) := by
  unfold sideOp State.sideFrom
  rfl

/-- The kind of an operation's job. -/
def sideKind (o : Side) (k : Desc) : Nat := match o with | .get => 3 | .padd => if k.ety = 2 then 5 else 4 | _ => 2

/-- The job of a good descriptor. -/
def State.sideJob (z : State) (k : Desc) (o : Side) (dom : DTag) : Job :=
  Machine.sideJob z.nextId z.own k (sideKind o k) dom (z.who z.cur false) (z.me.act.map (·.id))
    (z.me.edgesOf (if sideKind o k = 5 then [] else k.fps z.own) 0#16)

/-- The slice with the part of a tile add. -/
def State.sideSlice (z : State) (k : Desc) (o : Side) (dom : DTag) : Slice :=
  if sideKind o k = 5 then { z.me.sl with inbox := z.me.sl.inbox ++ [⟨0#32, k.src, dom, (z.who z.cur false).task, z.cyc + 1, z.cur, z.nextId,
    (z.who z.cur false).ctx, none⟩] } else z.me.sl

theorem submitSide_completes (z : State) (k : Desc) (o : Side) (dom : DTag) (d : Reg) :
    z.used.Completes ((z.submitSide k o dom (z.who z.cur false)).sDone 1 4 fun c => c.ws d 0#64) 1 4
      fun c => ({ c with jobs := c.jobs ++ [z.sideJob k o dom], sl := z.sideSlice k o dom } : Core).ws d 0#64 := by
  refine Completes_congr (f := fun c => ({ c with
      jobs := c.jobs ++ [z.sideJob k o dom]
      sl := if sideKind o k = 5 then { c.sl with inbox := c.sl.inbox ++ [⟨0#32, k.src, dom, (z.who z.cur false).task, z.cyc + 1, z.cur, z.nextId,
        (z.who z.cur false).ctx, none⟩] } else c.sl } : Core).ws d 0#64) rfl ?_
  exact completes_after_updMe rfl rfl rfl (State.sDone_spec _ 1 4 _ (dbgBlind_ws d _))

variable {i : Instr} {kind : Desc → Nat}

/-- Each operation submits the job that its descriptor names. -/
theorem submits_sideOp (hi : exec i s = sideOp o x a d s) (hk : ∀ k, kind k = sideKind o k) (ho : o ≠ .arm) : Submits i s o kind x a d := by
  unfold Submits
  intro z off k
  have hx := hi.trans (sideOp_eq o x a d s)
  dsimp only at hx
  refine ⟨fun m hm => hx.trans ?_, fun m hm => ⟨fun h => hx.trans ?_, fun h1 h2 h3 hf => hx.trans ?_, fun h1 h2 h3 hf hb => ?_⟩⟩
  · show Host.Outcome.next (if ! (z.dmr x).2 then _ else _) = _
    rw [hm]
    rfl
  · have hn : offOk off 64 = false := by
      rw [← Bool.not_eq_true, offOk_iff]
      omega
    show Host.Outcome.next (if ! (z.dmr x).2 then _ else if ! offOk off 64 then _ else _) = _
    rw [hm, hn]
    rfl
  · show Host.Outcome.next (if ! (z.dmr x).2 then _ else if ! offOk off 64 then _ else if ! z.me.slotFree then _ else _) = _
    rw [hm, (offOk_iff off 64).2 ⟨h1, h2, h3⟩, hf]
    rfl
  · have hg : exec i s = .next (z.sideFrom o x a d) := by
      refine hx.trans ?_
      show Host.Outcome.next (if ! (z.dmr x).2 then _ else if ! offOk off 64 then _ else if ! z.me.slotFree then _ else if z.me.spBusy z.cur then _
        else _) = _
      rw [hm, (offOk_iff off 64).2 ⟨h1, h2, h3⟩, hf, hb]
      rfl
    clear hx
    refine ⟨fun hc => ⟨_, hg.trans (congrArg _ (if_pos hc)), z.sDone_ws 1 4 d _⟩, fun hc hbad => ?_⟩
    have hsf : z.sideFrom o x a d = _ := if_neg (not_not.2 hc)
    dsimp only at hsf
    rw [show z.sideBad (z.who z.cur false) (readDesc (z.me.spRead (z.me.rs a).toNat 64)) o = none from hbad, hm] at hsf
    dsimp only at hsf
    rw [hsf] at hg
    refine ⟨fun hd hr => ?_, fun hd hc0 hsg => ?_⟩
    · rw [if_neg (by rw [hd]; decide), if_neg] at hg
      · refine ⟨_, z.sideJob k o (z.sideDom x m).1, z.sideSlice k o (z.sideDom x m).1, hg, submitSide_completes z k o _ d, fun hn => ?_, rfl, ?_, rfl,
          rfl, rfl, rfl, rfl, rfl⟩
        · rw [hk] at hn
          exact if_neg hn
        · exact (hk k).symm
      · rintro ⟨ho, he, hw⟩
        have h5 : kind k = 5 := by
          rw [hk, ho]
          exact if_pos he
        obtain ⟨r1, r2⟩ := hr h5
        rw [r1] at hw
        rcases hw with hw | hw
        · exact absurd hw (by decide)
        · omega
    · rw [if_pos (by rw [hd]; rfl)] at hg
      have hdead : z.deadSide k o (z.who z.cur false).ctx = z := by
        unfold State.deadSide
        dsimp only
        rw [if_neg fun h : (o = .putsg ∨ o = .arm) ∧ _ => h.1.elim hsg ho, if_pos (Or.inl hc0)]
      refine ⟨_, hg, ?_⟩
      show z.Computes ((z.deadSide k o (z.who z.cur false).ctx).sDone 1 4 _) 1 4 d 0#64
      rw [hdead]
      exact z.sDone_ws 1 4 d _

end

/-! `arm` and held firings. -/

section
variable {s : State} {x : DmR} {a d : Reg}

/-- The entry of a good descriptor. -/
def State.armEntry (z : State) (k : Desc) (dom : DTag) : Armed :=
  ⟨bits k.trig 55 0, k.thr, k.src, k.dst, k.len, k.sig, k.cmpl, dom, (z.who z.cur false).ctx, (z.who z.cur false).task, none, (z.who z.cur false).act⟩

/-- The first check of `arm` that fails (R271). -/
def State.armCode (z : State) (k : Desc) (live : Bool) : Nat :=
  if k.code z.own z.cur .arm = 0 ∧ live ∧ z.me.armed.length ≥ 32 then 7 else k.code z.own z.cur .arm

/-- `arm` after the checks on the descriptor's place, from the state after the held firings. -/
def State.armFrom (z : State) (x : DmR) (a d : Reg) : State :=
  let k := readDesc (z.me.spRead (z.me.rs a).toNat 64)
  let t := z.sideDom x (z.dmr x).1
  if z.armCode k t.2 ≠ 0 then z.sDone 1 4 fun c => c.ws d (BitVec.ofNat 64 (2 ^ 63 + z.armCode k t.2))
  else match z.sideBad (z.who z.cur false) k .arm with
    | some (acc, v) => z.sViol acc v
    | none =>
      if ! t.2 then (z.deadSide k .arm (z.who z.cur false).ctx).sDone 1 4 fun c =>
        (if k.cmpl = 0 then c
         else ((c.arrive k.cmpl false false (some (engSt 5))).evalArmed k.cmpl z.cyc).evalArmed (k.cmpl + 8) z.cyc).ws d 0#64
      else z.sDone 1 4 fun c => ({ c with armed := c.armed ++ [z.armEntry k t.1] }.evalArmed (bits k.trig 55 0) z.cyc).ws d 0#64

theorem execArm_placed (h : (s.fireHeld s.cur).dmr x = (m, true)) (h1 : ((s.fireHeld s.cur).me.rs a).toNat % 64 = 0)
    (h2 : 0x800 ≤ ((s.fireHeld s.cur).me.rs a).toNat) (h3 : ((s.fireHeld s.cur).me.rs a).toNat + 64 ≤ 0x80000)
    (hb : (s.fireHeld s.cur).me.spBusy (s.fireHeld s.cur).cur = false) : exec (.arm x a d) s = .next ((s.fireHeld s.cur).armFrom x a d) := by
  show execArm x a d s = _
  unfold execArm State.armFrom
  dsimp only
  rw [if_neg (by rw [h]; simp), if_neg (by rw [(offOk_iff _ 64).2 ⟨h1, h2, h3⟩]; decide), if_neg (by rw [hb]; decide)]
  rfl

section
variable {z : State} {k : Desc} {m : Dom}

theorem armFrom_refuses (hk : readDesc (z.me.spRead (z.me.rs a).toNat 64) = k) (hc : k.code z.own z.cur .arm ≠ 0) :
    z.armFrom x a d = z.sDone 1 4 fun c => c.ws d (BitVec.ofNat 64 (2 ^ 63 + k.code z.own z.cur .arm)) := by
  have he (b : Bool) : z.armCode k b = k.code z.own z.cur .arm := if_neg fun h => hc h.1
  unfold State.armFrom
  dsimp only
  rw [hk, he, if_pos hc]

theorem armFrom_full (hm : z.dmr x = (m, true)) (hk : readDesc (z.me.spRead (z.me.rs a).toNat 64) = k) (hc : k.code z.own z.cur .arm = 0)
    (hd : (z.sideDom x m).2 = true) (hl : 32 ≤ z.me.armed.length) :
    z.armFrom x a d = z.sDone 1 4 fun c => c.ws d (BitVec.ofNat 64 (2 ^ 63 + 7)) := by
  have he : z.armCode k (z.sideDom x m).2 = 7 := if_pos ⟨hc, hd, hl⟩
  unfold State.armFrom
  dsimp only
  rw [hk, hm]
  dsimp only
  rw [he, if_pos (by decide)]

theorem armFrom_places (hm : z.dmr x = (m, true)) (hk : readDesc (z.me.spRead (z.me.rs a).toNat 64) = k) (hc : k.code z.own z.cur .arm = 0)
    (hd : (z.sideDom x m).2 = true) (hl : z.me.armed.length < 32) (hb : z.sideBad (z.who z.cur false) k .arm = none) :
    z.armFrom x a d = z.sDone 1 4 fun c =>
      (({ c with armed := c.armed ++ [z.armEntry k (z.sideDom x m).1] } : Core).evalArmed (bits k.trig 55 0) z.cyc).ws d 0#64 := by
  have he : z.armCode k (z.sideDom x m).2 = 0 := (if_neg fun h => Nat.not_lt.2 h.2.2 hl).trans hc
  unfold State.armFrom
  dsimp only
  rw [hk, hm]
  dsimp only
  rw [he, if_neg (by decide), hb]
  dsimp only
  rw [if_neg (by rw [hd]; decide)]

end

theorem dbgBlind_armEntry (e : Armed) (t : Nat) (d : Reg) :
    DbgBlind fun c => (({ c with armed := c.armed ++ [e] } : Core).evalArmed e.trig t).ws d 0#64 := by
  intro y g
  exact dbgBlind_ws d 0#64 (({ y with armed := y.armed ++ [e] } : Core).evalArmed e.trig t) g

/-- The least number of a firing. -/
def firstFired (l : List Armed) (m : Option Nat) : Option Nat :=
  l.foldl (fun (m : Option Nat) a =>
    match a.fired, m with
    | some (t, _), none => some t
    | some (t, _), some u => some (min t u)
    | none, m => m) m

theorem firstFired_least {l : List Armed} {t : Nat} (h : ∀ y ∈ l, ∀ q, y.fired = some q → t ≤ q.1) : firstFired l (some t) = some t := by
  unfold firstFired
  induction l with
  | nil => rfl
  | cons y l ih =>
    have hy := h y List.mem_cons_self
    rw [List.foldl_cons]
    cases hf : y.fired with
    | none => exact ih fun z hz => h z (List.mem_cons_of_mem _ hz)
    | some q =>
      have := hy q hf
      dsimp only
      rw [Nat.min_eq_right this]
      exact ih fun z hz => h z (List.mem_cons_of_mem _ hz)

/-- The job of a put that has fired. -/
def State.firedJob (s : State) (c : Nat) (e : Armed) (n : Bool) : Job :=
  let k : Desc := ⟨e.dst, e.src, BitVec.ofNat 64 e.len, e.sig, 0#64, 0#64, true⟩
  { Machine.sideJob s.nextId s.own k 2 e.dom ⟨c, e.ctx, e.task, e.act, e.dom, false⟩ (if e.act = 0 then none else some e.act)
      ((s.core c).edgesOf (k.fps s.own) 0#16) with cmpl := e.cmpl, sigA := n }

theorem fireOne_eq (s : State) (c : Nat) : s.fireOne c =
    match (firstFired (s.core c).armed none).bind fun t => (s.core c).armed.find? fun a => (a.fired.map (·.1)) == some t with
    | none => s
    | some a =>
      if (s.core c).openJobs.length ≥ 16 then s
      else (s.fresh).upd c fun y =>
        { y with jobs := y.jobs ++ [s.firedJob c a (match a.fired with | some (_, b) => b | none => false)], armed := y.armed.erase a } := rfl

theorem execHeldFiringSubmit_first {c : Nat} {e : Armed} {l : List Armed} {t0 : Nat} {n : Bool} (h : (s.core c).armed = e :: l)
    (hf : e.fired = some (t0, n)) (hl : ∀ y ∈ l, ∀ q, y.fired = some q → t0 ≤ q.1) (hj : (s.core c).openJobs.length < 16) :
    exec (.heldFiringSubmit c) s = .next ((s.fresh).upd c fun y => { y with jobs := y.jobs ++ [s.firedJob c e n], armed := y.armed.erase e }) := by
  have h1 : firstFired (s.core c).armed none = some t0 := by
    rw [h]
    show firstFired l (match e.fired, none with | some (t, _), none => some t | some (t, _), some u => some (min t u) | none, m => m) = _
    rw [hf]
    exact firstFired_least hl
  have h2 : (s.core c).armed.find? (fun a => (a.fired.map (·.1)) == some t0) = some e := by
    rw [h, List.find?_cons_of_pos (by rw [hf]; simp)]
  show Host.Outcome.next (s.fireOne c) = _
  rw [fireOne_eq, h1, Option.bind_some, h2]
  dsimp only
  rw [if_neg (by omega), hf]

end

/-- Settles O30: the operations are `sideOp`; `arm` places its entry; the put that fired first becomes a job. -/
theorem sideOperations : Obligations.SideOperations := by
  refine ⟨fun s x a d => ⟨submits_sideOp rfl (fun _ => rfl) Side.noConfusion, submits_sideOp rfl (fun _ => rfl) Side.noConfusion,
    submits_sideOp rfl (fun _ => rfl) Side.noConfusion, submits_sideOp rfl (fun _ => rfl) Side.noConfusion⟩, fun s x a d m => ?_⟩
  intro z off k hm
  refine ⟨fun h1 h2 h3 hb => ?_, fun c e l t0 n h hf hl hlen hj => ?_⟩
  · have hx := execArm_placed (d := d) hm h1 h2 h3 hb
    refine ⟨fun hc => ⟨_, hx, ?_⟩, fun hc hd => ⟨fun hl => ⟨_, hx, ?_⟩, fun hl hbad => ?_⟩⟩
    · rw [armFrom_refuses (k := k) rfl hc]
      exact z.sDone_ws 1 4 d _
    · rw [armFrom_full hm rfl hc hd hl]
      exact z.sDone_ws 1 4 d _
    · rw [armFrom_places hm rfl hc hd hl hbad] at hx
      have ht : bits k.trig 55 0 = k.trig.toNat % 2 ^ 56 := by
        unfold bits
        simp
      refine ⟨_, z.armEntry k (z.sideDom x m).1, hx, z.sDone_spec 1 4 _ (dbgBlind_armEntry (z.armEntry k (z.sideDom x m).1) z.cyc d), ?_, rfl, rfl⟩
      rw [← ht]
      rfl
  · refine ⟨_, s.firedJob c e n, execHeldFiringSubmit_first h hf hl hj, ?_, rfl, ?_, rfl, ?_⟩
    · rw [State.core_upd_same]
      show (s.core c).armed.erase e = l
      rw [h, List.erase_cons_head]
    · rw [State.core_upd_same]
      rfl
    · have : bits (BitVec.ofNat 64 e.len) 39 0 = e.len := by
        unfold bits
        rw [BitVec.toNat_ofNat]
        omega
      show (e.src, e.dst, bits (BitVec.ofNat 64 e.len) 39 0, e.sig, e.cmpl, n, e.dom) = _
      rw [this]

end Sys2Proof.Machine
end

section
/-! Arrivals of one-sided operations, and the signal that a job sends (15 R272, R273). -/

namespace Sys2Proof.Machine

section
variable {s u : State} {i : Nat} {k : Pkt}

/-- Data written to device memory is written byte after byte, and nothing but memory, its soft errors and the engines' lines changes. -/
theorem storeRun_flat (t : DTag) (x : Ctx) (src : Nat) {ps : List Piece} {a n : Nat} (h : Flat ps a n) (bs : List Byte) (hb : bs.length = n) :
    let r := ps.foldl (fun (r : State × List Byte) q => (r.1.storeTo q.at_ q.va (r.2.take q.n) t x src, r.2.drop q.n)) (s, bs)
    r.1.mem = Memory.write s.mem a bs ∧ r.1.net = s.net := by
  induction ps generalizing s a n bs with
  | nil =>
    cases h
    rw [List.length_eq_zero_iff.1 hb]
    exact ⟨rfl, rfl⟩
  | cons p r ih =>
    obtain ⟨h1, h2, h3⟩ := h
    rw [List.foldl_cons]
    dsimp only
    rw [h1]
    obtain ⟨i1, i2⟩ := ih (s := s.storeTo (.dram a) p.va (bs.take p.n) t x src) h3 (bs.drop p.n) (by rw [List.length_drop, hb])
    have hst : (s.storeTo (.dram a) p.va (bs.take p.n) t x src).mem = Memory.write s.mem a (bs.take p.n) ∧
        (s.storeTo (.dram a) p.va (bs.take p.n) t x src).net = s.net := by
      unfold State.storeTo
      dsimp only
      rw [touchLine_frame]
      exact ⟨rfl, rfl⟩
    have hl : (bs.take p.n).length = p.n := by
      rw [List.length_take, hb]
      omega
    refine ⟨i1.trans ?_, i2.trans hst.2⟩
    rw [hst.1]
    conv_rhs => rw [← List.take_append_drop p.n bs, Memory.write_append, hl]

theorem updIn_frame (s : State) (c : Nat) (x : Ctx) (f : Core → Core) : (s.updIn c x f).mem = s.mem ∧ (s.updIn c x f).net = s.net := by
  unfold State.updIn
  split <;> exact ⟨rfl, rfl⟩

/-- On a core that runs the context the core itself is acted on. -/
theorem updIn_here {c : Nat} {x : Ctx} (h : s.away c x = false) (f : Core → Core) : s.updIn c x f = s.upd c f := by
  unfold State.away at h
  rw [Option.isSome_eq_false_iff, Option.isNone_iff_eq_none] at h
  unfold State.updIn
  rw [h]

theorem execPutDataArrival_flat {a : Word} {bs : List Byte} {src job : Nat} {ps : List Piece} {pa : Nat} (hk : s.pkt i = some k) (hd : k.dev = s.own)
    (hb : k.body = .data a bs src job) (hp : k.peer = false)
    (hc : s.chkRun (pktWho s.own k src) .st .jobWrite none (runParts bs.length (BitVec.ofNat 64 (a.toNat % 2 ^ 56)) bs.length) = .ok ps u)
    (hf : Flat ps pa bs.length) (he : ∀ p ∈ ps, u.expired (u.placeEp p.at_ p.sysa false) k.dom = false) :
    exec (.putDataArrival i) s = .next ((ps.foldl (fun (r : State × List Byte) q =>
      (r.1.storeTo q.at_ q.va (r.2.take q.n) k.dom k.ctx src, r.2.drop q.n)) (u.dropPkt i, bs)).1.dataDone k src job) := by
  have hn : ((ps.map fun q => u.placeEp q.at_ q.sysa false).find? fun ep => u.expired ep k.dom) = none := by
    refine List.find?_eq_none.2 fun ep hm => ?_
    obtain ⟨q, hq, rfl⟩ := List.mem_map.1 hm
    rw [he q hq]
    exact Bool.false_ne_true
  have hlog : (ps.any fun q => u.logStop k.ctx q.at_) = false := by
    refine List.any_eq_false.2 fun q hm => ?_
    obtain ⟨pa, e, -⟩ := flat_mem hf hm
    rw [e]
    exact Bool.false_ne_true
  show execPutDataArrival i s = _
  unfold execPutDataArrival
  rw [hk]
  dsimp only
  rw [hb]
  dsimp only
  rw [if_neg (not_not.2 hd), and_low56, hc]
  dsimp only
  rw [hn]
  dsimp only
  rw [if_neg (by rw [hlog]; exact Bool.false_ne_true), hp]
  rfl

/-! Signals. -/

theorem signal_word (x : Core) {off : Nat} (ann : Bool) (tick : Nat) (h : off + 8 ≤ 0x80000) : (x.signal off ann tick).full off = true ∧
    ((x.signal off ann tick).spWord off).toNat =
      (if 2 ^ 63 ≤ (x.spWord off).toNat ∨ ann = true then 2 ^ 63 else 0) + ((x.spWord off).toNat + 1) % 2 ^ 63 := by
  generalize hw : x.spWord off = w
  have hs : (x.signal off ann tick).spWord off = BitVec.ofBool (w.getLsbD 63 || ann) ++ ((w.setWidth 63) + 1#63) := by
    show ((x.spWrite off (wordBytes _)).setTag off true).spWord off = _
    rw [show ∀ (y : Core) o, (y.setTag o true).spWord off = y.spWord off from fun _ _ => rfl, spWord_spWrite_same _ _ h, hw]
  refine ⟨full_setTag _ _, ?_⟩
  rw [hs, toNat_append_eq, BitVec.toNat_add, BitVec.toNat_setWidth, toNat_ofBool_ite, Nat.mod_add_mod]
  have hb : (w.getLsbD 63 || ann) = true ↔ 2 ^ 63 ≤ w.toNat ∨ ann = true := by
    rw [Bool.or_eq_true, getLsbD_iff]
    refine or_congr_left ?_
    have := w.isLt
    omega
  by_cases hc : 2 ^ 63 ≤ w.toNat ∨ ann = true
  · rw [if_pos (hb.2 hc), if_pos hc, one_mul]
    rfl
  · rw [if_neg fun h => hc (hb.1 h), if_neg hc, zero_mul]
    rfl

theorem execSignalArrival_here {c off src job : Nat} {ann : Bool} (hk : s.pkt i = some k) (hd : k.dev = s.own) (hb : k.body = .signal c off ann src job)
    (ha : s.away c k.ctx = false) (hp : k.peer = false) (hr : src % 4096 ≠ c → s.runsCtx c k.ctx = true) :
    exec (.signalArrival i) s = .next ((s.dropPkt i).upd c fun x => x.signal off ann s.cyc) := by
  have hn : ¬ ((k.peer ∨ src % 4096 ≠ c) ∧ (! s.runsCtx c k.ctx) = true) := by
    rintro ⟨h | h, h'⟩
    · rw [hp] at h
      cases h
    · rw [hr h] at h'
      cases h'
  show execSignalArrival i s = _
  unfold execSignalArrival
  rw [hk]
  dsimp only
  rw [hb]
  dsimp only
  rw [if_neg (not_not.2 hd), if_neg hn, if_neg (by rw [ha]; exact Bool.false_ne_true)]

/-! Drop notices, and signals sent. -/

section
variable {c j : Nat} {y : Job}

theorem execDropNoticeArrival_found (h : s.net.find? (fun p => p.dev == s.own && p.body == .dropNotice c j) = some k) (ha : s.away c k.ctx = false) :
    exec (.dropNoticeArrival c j) s = .next ((s.dropPkt k.id).upd c fun x => x.updJob j Job.lost) := by
  show execDropNoticeArrival c j s = _
  unfold execDropNoticeArrival
  rw [h]
  exact congrArg Host.Outcome.next (updIn_here (s := s.dropPkt k.id) ha _)

/-- The code that a loss leaves (R272). -/
theorem lost_code (y : Job) : y.lost.code = if y.code = 0 then 5 else y.code := by
  unfold Job.lost
  dsimp only
  split
  · rfl
  · split
    · rfl
    · split <;> rfl

theorem lost_id (y : Job) : y.lost.id = y.id := by
  unfold Job.lost
  dsimp only
  split
  · rfl
  · split
    · rfl
    · split <;> rfl

theorem lost_flight (h : 0 < y.flight) : y.lost = { y with flight := y.flight - 1, code := if y.code = 0 then 5 else y.code } := if_pos h

theorem execSignalSend_due (h : (s.core c).job j = some y) (h4 : y.st = 4) (hf : y.flight = 0) (hs : y.sig ≠ 0#64) (hn : y.sigSent = false) :
    exec (.signalSend c j) s =
      .next ((s.sendSig c y.ctx y.sig (y.sigA || y.code != 0) j).updJob c j fun y => { y with sigSent := true }) := by
  show execSignalSend c j s = _
  unfold execSignalSend
  rw [h]
  exact congrArg Host.Outcome.next (if_pos ⟨h4, hf, hs, by rw [hn]; rfl⟩)

theorem sendSig_frame (x : Ctx) (sig : Word) (ann : Bool) (n : Nat) :
    (s.sendSig c x sig ann n).mem = s.mem ∧ (s.sendSig c x sig ann n).cores = s.cores := by
  unfold State.sendSig
  split <;> exact ⟨rfl, rfl⟩

end
end

/-- Settles O31: each arrival does its step at its place. -/
theorem sideArrivals : Obligations.SideArrivals := by
  intro s i k hk hd
  refine ⟨fun a bs src job ps pa u hb hp _ hc hf he _ => ?_, ?_, fun c j y _ hf ha hj => ?_,
    fun c j y hj h4 hf hs hn => ?_⟩
  · refine ⟨_, execPutDataArrival_flat hk hd hb hp hc hf he, ?_⟩
    have hr := storeRun_flat (s := u.dropPkt i) k.dom k.ctx src hf bs rfl
    dsimp only at hr
    generalize (ps.foldl (fun (r : State × List Byte) q =>
      (r.1.storeTo q.at_ q.va (r.2.take q.n) k.dom k.ctx src, r.2.drop q.n)) (u.dropPkt i, bs)).1 = t at hr
    have hu := fills_chkRun hc
    unfold State.dataDone
    rw [if_neg (by rw [hp]; exact Bool.false_ne_true), (updIn_frame ..).1, (updIn_frame ..).2, hr.1, hr.2]
    refine ⟨?_, ?_⟩
    · rw [← hu.mem]
      rfl
    · rw [← hu.net]
      rfl
  · intro c off ann src job hb ha hp hr ho w
    refine ⟨_, execSignalArrival_here hk hd hb ha hp hr, rfl, ?_, ?_⟩
    · rw [State.core_upd_same]
      exact (signal_word _ ann s.cyc ho).1
    · rw [State.core_upd_same]
      exact (signal_word _ ann s.cyc ho).2
  · have hl : (((s.dropPkt k.id).upd c fun x => x.updJob j Job.lost).core c).job j = some y.lost := by
      rw [State.core_upd_same]
      exact job_updJob hj Job.lost lost_id
    refine ⟨_, execDropNoticeArrival_found hf ha, fun h => hl.trans (congrArg some (lost_flight h)), fun z hz => ?_⟩
    rw [hl] at hz
    cases hz
    rw [lost_code]
    exact ⟨fun h => if_pos h, fun h => if_neg h⟩
  · obtain ⟨m, hc⟩ := sendSig_frame (s := s) (c := c) y.ctx y.sig (y.sigA || y.code != 0) j
    refine ⟨_, execSignalSend_due hj h4 hf hs hn, m, ?_, fun dev c' off ht => ?_⟩
    · rw [State.updJob, State.core_upd_same]
      refine job_updJob (k := y) ?_ _ fun _ => rfl
      rw [State.core, hc]
      exact hj
    · unfold State.sendSig
      rw [ht]
      exact ⟨_, rfl, rfl, rfl, rfl⟩

end Sys2Proof.Machine
end

section
/-! The W stream: dispatch, issue and landing (02 R21, R22, R26). -/

namespace Sys2Proof.Machine

/-! Dispatch and issue. -/

/-- A W instruction is one word, placed in the buffer with its constant, and at the head its function issues it. -/
theorem exec_wInstr {i : Instr} {f : State → WOut} (h : issueOf i = some f) : ∃ w, encode i = [w] ∧ ∀ s, exec i s = wInstr w (cstOf i) f s := by
  cases i <;> cases h <;> exact ⟨_, rfl, fun _ => rfl⟩

theorem decodeWord_single {i : Instr} {w : BitVec 32} (hw : i.wf = true) (he : encode i = [w]) : decodeWord .none w = some i := by
  obtain ⟨x, v, h1, h2, h3⟩ := encodes_of_wf i hw (by rw [he]; exact List.cons_ne_nil _ _)
  rw [he] at h1
  cases x with
  | none =>
    cases h1
    exact h3
  | one a => exact absurd (congrArg List.length h1) (by simp [Pfx.words])
  | two a b => exact absurd (congrArg List.length h1) (by simp [Pfx.words])

section
variable {s : State}

theorem dispatch_room {w : BitVec 32} {cst : Word} (h : s.me.wbuf.length < 16) : s.dispatch w cst =
    s.sDone 1 1 fun k => { k with wbuf := k.wbuf ++ [⟨w, cst, s.me.pc, s.cyc, none, s.nextId⟩] } := if_pos h

theorem dispatch_full {w : BitVec 32} {cst : Word} (h : 16 ≤ s.me.wbuf.length) (hs : s.me.wStuck = none) :
    s.dispatch w cst = s.updMe fun k => { k with ready := s.cyc + 1 } := by
  unfold State.dispatch
  dsimp only
  rw [if_neg (by omega), hs]

theorem execWDispatch_due {w : BitVec 32} {i : Instr} (hd : decodeWord .none w = some i) (hi : (issueOf i).isSome = true)
    (hr : s.sReady s.cur = true) : exec (.wDispatch w) s = .next (s.dispatch w (cstOf i s)) := by
  show execWDispatch w s = _
  unfold execWDispatch
  rw [hd]
  dsimp only
  rw [hi, hr, if_pos (by decide)]

theorem execWIssue_due {c : Nat} {w : BitVec 32} {i : Instr} {f : State → WOut} (hr : s.wReady c = true)
    (hw : (s.core c).wbuf.head?.map (·.word) = some w) (hd : decodeWord .none w = some i) (hi : issueOf i = some f) :
    exec (.wIssue c) s = .next (({ s with cur := c, phase := .w } : State).wIssue f) := by
  have hh : ({ s with cur := c, phase := .w } : State).head.word = w := by
    show ((s.core c).wbuf.head?.getD _).word = w
    cases h : (s.core c).wbuf.head? with
    | none =>
      rw [h] at hw
      cases hw
    | some e =>
      rw [h] at hw
      exact Option.some.inj hw
  show execWIssue c s = _
  unfold execWIssue
  dsimp only
  rw [hr, if_neg (by decide), hh, hd, Option.bind_some, hi]

end

/-! Landing. -/

theorem firstDue_mem {now : Nat} {l : List WPend} {q : WPend} (h : firstDue now l = some q) : q ∈ l := by
  induction l generalizing q with
  | nil => cases h
  | cons p r ih =>
    unfold firstDue at h
    split at h
    · next q' hq =>
      split at h
      · cases h
        exact List.mem_cons_self
      · cases h
        exact List.mem_cons_of_mem _ (ih hq)
    · split at h
      · cases h
        exact List.mem_cons_self
      · cases h

/-- The write at the head, when none behind it lands earlier. -/
theorem firstDue_head {now : Nat} {p : WPend} {r : List WPend} (hp : p.land ≤ now) (hr : ∀ q ∈ r, p.land ≤ q.land) : firstDue now (p :: r) = some p := by
  unfold firstDue
  cases h : firstDue now r with
  | none => exact if_pos hp
  | some q => exact if_pos ⟨hp, hr q (firstDue_mem h)⟩

theorem execWWriteLanding_first {s : State} {c : Nat} {p : WPend} {r : List WPend} (h : (s.core c).wpend = p :: r) (hp : p.land ≤ s.cyc)
    (hr : ∀ q ∈ r, p.land ≤ q.land) (hs : p.land = s.cyc → s.wReady c = false ∧ s.sReady c = false) :
    exec (.wWriteLanding c) s = .next (s.upd c fun x =>
      { x with wpend := x.wpend.erase p, wReady := max x.wReady (p.land + 1), ready := max x.ready (p.land + 1) }.landOne p) := by
  show execWWriteLanding c s = _
  unfold execWWriteLanding
  rw [h, firstDue_head hp hr]
  dsimp only
  rw [if_neg]
  rintro ⟨he, hb⟩
  rw [(hs he).1, (hs he).2] at hb
  exact hb.elim Bool.false_ne_true Bool.false_ne_true

section
variable (x : Core) {p : WPend}

/-- What every landing leaves alone, and its flags. -/
theorem landOne_keeps : (x.landOne p).wpend = x.wpend ∧ (x.landOne p).sp = x.sp ∧ (∀ r, (x.landOne p).rs r = x.rs r) ∧
    (x.landOne p).c.fl = x.c.fl ||| p.fl := by
  unfold Core.landOne
  dsimp only
  split
  · exact ⟨rfl, rfl, fun _ => rfl, rfl⟩
  · split <;> exact ⟨rfl, rfl, fun _ => rfl, rfl⟩
  · exact ⟨rfl, rfl, fun _ => rfl, rfl⟩
  · exact ⟨rfl, rfl, fun _ => rfl, rfl⟩

theorem landOne_lanes {d : VReg} {m : BitVec 48} {v : Lanes} (h : p.tgt = .v d m v) :
    (∀ n : Fin 48, ((x.landOne p).rv d)[n] = if laneMask m n then v[n] else (x.rv d)[n]) ∧ ∀ e, e ≠ d → (x.landOne p).rv e = x.rv e := by
  unfold Core.landOne
  rw [h]
  refine ⟨fun n => ?_, fun e he => ?_⟩
  · unfold Core.rv
    simp
  · have hn : d.toNat ≠ e.toNat := fun h => he (BitVec.eq_of_toNat_eq h.symm)
    unfold Core.rv
    exact Vector.getElem_set_ne d.isLt e.isLt hn

theorem landOne_bits {d : KReg} {m v : BitVec 48} (h : p.tgt = .k d m v) (hd : d ≠ 0#3) :
    (x.landOne p).rk d = (x.rk d &&& ~~~ m) ||| (v &&& m) := by
  unfold Core.landOne
  rw [h]
  dsimp only
  rw [if_neg hd]
  unfold Core.rk
  rw [if_neg hd]
  simp [hd]

theorem landOne_queue {n : BitVec 2} {v : Word} {k : Nat} (h : p.tgt = .q n v k) :
    (x.landOne p).rq (1#1 ++ n) = x.rq (1#1 ++ n) ++ [v] ∧ (x.landOne p).qinfo = (x.enqueued (1#1 ++ n) v (p.land + 1) k).qinfo := by
  unfold Core.landOne
  rw [h]
  refine ⟨?_, rfl⟩
  unfold Core.push Core.rq Core.wq
  simp

end

/-- Settles O32: dispatch and issue by the one shape of W instructions; a landing by the kind of its target. -/
theorem wStream : Obligations.WStream := by
  refine ⟨fun s i hi hp => ?_, fun s c => ⟨fun w i f hr hw hd hf => ?_, fun p r h hp hr hs => ?_⟩⟩
  · obtain ⟨f, hf⟩ := Option.isSome_iff_exists.1 hi
    obtain ⟨w, he, hx⟩ := exec_wInstr hf
    have hx : exec i s = .next (s.dispatch w (cstOf i s)) := by
      rw [hx, wInstr, hp]
    refine ⟨w, he, fun hl => ?_, fun hl hw hr => ?_, fun hl hst => ⟨_, hx, ?_⟩⟩
    · exact does_intro i s 1 1 _ (fun _ _ => rfl) (by rw [hx, dispatch_room hl])
    · exact does_intro _ s 1 1 _ (fun _ _ => rfl) (by rw [execWDispatch_due (decodeWord_single hw he) hi hr, dispatch_room hl])
    · rw [dispatch_full hl hst, State.me_updMe]
  · obtain ⟨v, -, hx⟩ := exec_wInstr hf
    exact ⟨_, execWIssue_due hr hw hd hf, (hx _).trans (exec_w f v _ _ rfl)⟩
  · refine ⟨_, execWWriteLanding_first h hp hr hs, rfl, fun e he => State.core_upd_other _ _ _ _ he, ?_⟩
    rw [State.core_upd_same]
    generalize hy : ({ s.core c with wpend := (s.core c).wpend.erase p, wReady := max (s.core c).wReady (p.land + 1), ready := max (s.core c).ready (p.land + 1) } : Core) = y
    obtain ⟨k1, k2, k3, k4⟩ := landOne_keeps y (p := p)
    have hr : y.r = (s.core c).r := by rw [← hy]
    have hq : y.qinfo = (s.core c).qinfo := by rw [← hy]
    refine ⟨k1.trans ?_, k2.trans ?_, fun x => (k3 x).trans ?_, fun d m x ht => ?_, fun d m x ht hd => ?_, fun m x _ => rfl, fun n x k ht => ?_, k4.trans ?_⟩
    · rw [← hy, h, List.erase_cons_head]
    · rw [← hy]
    · rw [← hy]
      rfl
    · have hv (e : VReg) : y.rv e = (s.core c).rv e := by rw [← hy] <;> rfl
      simp only [← hv]
      exact landOne_lanes y ht
    · rw [landOne_bits y ht hd, Core.rk, hr]
      rfl
    · have he : (s.core c).rq (1#1 ++ n) = y.rq (1#1 ++ n) := by rw [← hy] <;> rfl
      have hi : ((s.core c).enqueued (1#1 ++ n) x (p.land + 1) k).qinfo = (y.enqueued (1#1 ++ n) x (p.land + 1) k).qinfo := by
        unfold Core.enqueued
        simp only [hq]
      rw [he, hi]
      exact landOne_queue y ht
    · rw [← hy]

end Sys2Proof.Machine
end

section
/-! The vector instructions and their results (06 R99 to R105, R114). -/

namespace Sys2Proof.Machine

/-- At the head a W instruction is issued by its function. -/
theorem exec_atHead {i : Instr} {f : State → WOut} (h : issueOf i = some f) (s : State) (hp : s.phase = .w) : exec i s = .next (s.wIssue f) := by
  obtain ⟨w, -, hx⟩ := exec_wInstr h
  rw [hx, exec_w f w _ s hp]

/-! The forms. -/

section
variable {lat cost : Nat}

theorem issues2_of {i : KReg → VReg → VReg → VReg → Instr} {f : Lane → Lane → Lane × BitVec 5}
    (h : ∀ k b a d, issueOf (i k b a d) = some (iV2 lat 1 f k b a d)) : Issues2 i lat f :=
  fun k b a d => iV2_lanes _ k b a d lat 1 f (exec_atHead (h k b a d))

theorem issues3_of {i : KReg → VReg → VReg → VReg → VReg → Instr} {f : Lane → Lane → Lane → Lane × BitVec 5}
    (h : ∀ k c b a d, issueOf (i k c b a d) = some (iV3 6 f k c b a d)) : Issues3 i f :=
  fun k c b a d => iV3_lanes _ k c b a d 6 f (exec_atHead (h k c b a d))

theorem popStrips_twice (a : VReg) : Core.popStrips [a, a] = Core.popStrips [a] := by
  unfold Core.popStrips
  rw [show [a, a].eraseDups = [a].eraseDups by simp [List.eraseDups_cons]]

/-- A unary instruction reads its source once. -/
theorem issues1_of {i : KReg → VReg → VReg → Instr} {f : Lane → Lane → Lane × BitVec 5}
    (h : ∀ k a d, issueOf (i k a d) = some (iV2 lat cost f k a a d)) : Issues1 i cost lat fun x => f x x := by
  intro k a d s hc
  have := iV2_lanes _ k a a d lat cost f (exec_atHead (h k a d)) s ⟨hc.1, fun r hr => hc.2.1 r (by simpa using hr), hc.2.2⟩
  rw [popStrips_twice] at this
  exact this

theorem issuesC_of {t : VTy} {i : KReg → CIx → VReg → VReg → Instr} {f : VTy → Lane → Lane → Lane × BitVec 5}
    (h : ∀ k c a d, issueOf (i k c a d) = some (iVC lat t f k a d)) : IssuesC t i lat (f t) :=
  fun k c a d => iVC_lanes _ k a d lat t f (exec_atHead (h k c a d))

end

section
variable {i : Instr} {f : State → WOut}

theorem iSel_lanes {k : KReg} {b a d : VReg} (h : issueOf i = some (iSel k b a d)) : IssuesLanes i [a, b] 0#3 d 1 2 fun s n =>
    (if laneMask (s.me.rk k) n then (s.me.src a)[n] else (s.me.src b)[n], 0#5) :=
  issuesLanes_of i _ 0#3 d 1 2 _ _ (fun s => Vector.ofFn fun n => if laneMask (s.me.rk k) n then (s.me.src a)[n] else (s.me.src b)[n]) (fun _ => 0#5)
    (exec_atHead h) (fun _ => rfl) (fun s n => by simp) fun s b => by simp

theorem iPerm_lanes {k : KReg} {b a d : VReg} (h : issueOf i = some (iPerm k b a d)) : IssuesLanes i [a, b] k d 1 3 fun s n =>
    (if h : ((s.me.src b)[n]).toNat % 64 < 48 then (s.me.src a)[((s.me.src b)[n]).toNat % 64]'h else 0#32, 0#5) :=
  issuesLanes_of i _ k d 1 3 _ _ (fun s => Vector.ofFn fun n => (s.me.src a).toList.getD ((s.me.src b)[n].toNat % 64) 0#32) (fun _ => 0#5)
    (exec_atHead h) (fun _ => rfl) (fun s n => by
      by_cases hl : ((s.me.src b)[n]).toNat % 64 < 48
      · simp only [Fin.getElem_fin, Vector.getElem_ofFn, Fin.eta] at hl ⊢
        rw [dif_pos hl, List.getD_eq_getElem _ _ (by simpa using hl)]
        simp
      · simp only [Fin.getElem_fin, Vector.getElem_ofFn, Fin.eta] at hl ⊢
        rw [dif_neg hl, List.getD_eq_default _ _ (by simpa using hl)]) fun s b => by simp

end

/-! The functions of a lane, as the table writes them. -/

theorem opMin_eq (t : VTy) : opMin t = op2 fMin (fun a b => if a.toInt < b.toInt then a else b) t := by
  unfold opMin
  simp only [slt_toInt, decide_eq_true_eq]

theorem opMax_eq (t : VTy) : opMax t = op2 fMax (fun a b => if b.toInt < a.toInt then a else b) t := by
  unfold opMax
  simp only [slt_toInt, decide_eq_true_eq]

theorem opAbs_eq (t : VTy) (a : Lane) : opAbs t a a = op2 (fun x _ => (x.abs, false)) (fun x _ => if x.toInt < 0 then -x else x) t a a := by
  unfold opAbs
  simp only [slt_toInt, decide_eq_true_eq]
  rfl

/-- Settles O33: every instruction has one of the shapes, with the function of the table. -/
theorem vectorResults : Obligations.VectorResults := by
  refine ⟨⟨fun t => issues2_of fun _ _ _ _ => rfl, fun t => issues2_of fun _ _ _ _ => rfl, fun t => issues2_of fun _ _ _ _ => ?_, fun t => ?_, fun t => ?_,
      fun t => issues2_of fun _ _ _ _ => rfl, fun t => issues2_of fun _ _ _ _ => rfl, fun t => issues2_of fun _ _ _ _ => rfl,
      issues2_of fun _ _ _ _ => rfl, issues2_of fun _ _ _ _ => rfl, issues2_of fun _ _ _ _ => rfl, fun t => ?_,
      fun t => issues1_of (f := opNeg t) fun _ _ _ => rfl, issues3_of fun _ _ _ _ _ => rfl, issues3_of fun _ _ _ _ _ => rfl,
      issues3_of fun _ _ _ _ _ => rfl, issues3_of fun _ _ _ _ _ => rfl, issues3_of fun _ _ _ _ _ => rfl, issues3_of fun _ _ _ _ _ => rfl⟩,
    fun k t b a d => iCmp_mask _ k b a d t relEq (exec_atHead rfl), fun k t b a d => iCmp_mask _ k b a d t relLt (exec_atHead rfl),
    fun k t b a d => iCmp_mask _ k b a d t relLe (exec_atHead rfl), fun k t b a d => iSel_lanes rfl, fun k b a d => iPerm_lanes rfl,
    fun t u => issues1_of (f := fun x _ => opCvt t u x) fun _ _ _ => rfl,
    fun t => issues1_of (f := opTrans rcp32 t) fun _ _ _ => rfl, fun t => issues1_of (f := opTrans rsq32 t) fun _ _ _ => rfl,
    fun t => issues1_of (f := opTrans exp32 t) fun _ _ _ => rfl, fun t => issues1_of (f := opTrans log32 t) fun _ _ _ => rfl,
    fun t => issues1_of (f := opTrans tanh32 t) fun _ _ _ => rfl, fun t => issues1_of (f := opTrans sig32 t) fun _ _ _ => rfl⟩
  · cases t <;> rfl
  · rw [← opMin_eq]
    exact issues2_of fun _ _ _ _ => rfl
  · rw [← opMax_eq]
    exact issues2_of fun _ _ _ _ => rfl
  · simp only [← opAbs_eq]
    exact issues1_of (f := opAbs t) fun _ _ _ => rfl

/-! Constants. -/

theorem opRel_i32_eq (a b : Lane) : opRel relEq .i32 a b = (decide (a = b), 0#5) := by
  have : (a.toInt - b.toInt).sign = 0 ↔ a = b := by
    rw [Int.sign_eq_zero_iff_zero, ← BitVec.toInt_inj]
    omega
  show ((a.toInt - b.toInt).sign == 0, 0#5) = _
  refine congrArg (·, 0#5) ?_
  rw [Bool.eq_iff_iff, beq_iff_eq, decide_eq_true_eq]
  exact this

theorem opRel_i32_lt (a b : Lane) : opRel relLt .i32 a b = (decide (a.toInt < b.toInt), 0#5) := by
  have : (a.toInt - b.toInt).sign < 0 ↔ a.toInt < b.toInt := by
    rw [Int.sign_neg_iff]
    omega
  simp only [opRel, relLt, this]

theorem opRel_i32_le (a b : Lane) : opRel relLe .i32 a b = (decide (a.toInt ≤ b.toInt), 0#5) := by
  have : (a.toInt - b.toInt).sign ≤ 0 ↔ a.toInt ≤ b.toInt := by
    rw [← not_lt, Int.sign_pos_iff]
    omega
  simp only [opRel, relLe, this]

theorem opMin_i32 (a b : Lane) : opMin .i32 a b = (if a.toInt < b.toInt then a else b, 0#5) := by
  rw [opMin_eq]
  rfl

theorem opMax_i32 (a b : Lane) : opMax .i32 a b = (if b.toInt < a.toInt then a else b, 0#5) := by
  rw [opMax_eq]
  rfl

/-- A compare with a constant. -/
theorem issuesMaskC_of {i : KReg → CIx → VReg → KReg → Instr} {t : VTy} {rf : Int → Bool}
    (h : ∀ k c a d, issueOf (i k c a d) = some (iCmpC rf t k a d)) (k : KReg) (c : CIx) (a : VReg) (d : KReg) :
    IssuesMask (i k c a d) [a] k d fun s n => opRel rf t (s.me.src a)[n] (constLane t s.head.cst) :=
  iCmpC_mask _ k a d t rf (exec_atHead (h k c a d))

/-- Settles O34: a constant form has the register form's function, on the constant in every lane. -/
theorem vectorConstant : Obligations.VectorConstant := by
  unfold Obligations.VectorConstant
  simp only [← opMin_i32, ← opMax_i32]
  have hc {rf : Int → Bool} {i : KReg → CIx → VReg → KReg → Instr} {g : Lane → Lane → Bool × BitVec 5} (hg : ∀ a b, opRel rf .i32 a b = g a b)
      (h : ∀ k c a d, issueOf (i k c a d) = some (iCmpC rf .i32 k a d)) (k : KReg) (c : CIx) (a : VReg) (d : KReg) :
      IssuesMask (i k c a d) [a] k d fun s n => g (s.me.src a)[n] (s.head.cst.extractLsb' 0 32) := by
    have := issuesMaskC_of h k c a d
    simp only [hg] at this
    exact this
  exact ⟨issuesC_of (f := opAdd) fun _ _ _ _ => rfl, issuesC_of (f := opAdd) fun _ _ _ _ => rfl, issuesC_of (f := opAdd) fun _ _ _ _ => rfl,
    issuesC_of (f := opSub) fun _ _ _ _ => rfl, issuesC_of (f := opSub) fun _ _ _ _ => rfl, issuesC_of (f := opSub) fun _ _ _ _ => rfl,
    issuesC_of (f := opMul) fun _ _ _ _ => rfl, issuesC_of (f := opMul) fun _ _ _ _ => rfl, issuesC_of (f := opMul) fun _ _ _ _ => rfl,
    issuesC_of (f := opMin) fun _ _ _ _ => rfl, issuesC_of (f := opMin) fun _ _ _ _ => rfl, issuesC_of (f := opMin) fun _ _ _ _ => rfl,
    issuesC_of (f := opMax) fun _ _ _ _ => rfl, issuesC_of (f := opMax) fun _ _ _ _ => rfl, issuesC_of (f := opMax) fun _ _ _ _ => rfl,
    issuesC_of (f := opAnd) fun _ _ _ _ => rfl, issuesC_of (f := opAnd) fun _ _ _ _ => rfl, issuesC_of (f := opAnd) fun _ _ _ _ => rfl,
    issuesC_of (f := opOr) fun _ _ _ _ => rfl, issuesC_of (f := opOr) fun _ _ _ _ => rfl, issuesC_of (f := opOr) fun _ _ _ _ => rfl,
    issuesC_of (f := opXor) fun _ _ _ _ => rfl, issuesC_of (f := opXor) fun _ _ _ _ => rfl, issuesC_of (f := opXor) fun _ _ _ _ => rfl,
    issuesC_of (f := opShl) fun _ _ _ _ => rfl, issuesC_of (f := opShr) fun _ _ _ _ => rfl, issuesC_of (f := opSra) fun _ _ _ _ => rfl,
    issuesMaskC_of fun _ _ _ _ => rfl, issuesMaskC_of fun _ _ _ _ => rfl, issuesMaskC_of fun _ _ _ _ => rfl,
    issuesMaskC_of fun _ _ _ _ => rfl, issuesMaskC_of fun _ _ _ _ => rfl, issuesMaskC_of fun _ _ _ _ => rfl,
    hc opRel_i32_eq fun _ _ _ _ => rfl, hc opRel_i32_lt fun _ _ _ _ => rfl, hc opRel_i32_le fun _ _ _ _ => rfl⟩

end Sys2Proof.Machine
end

section
/-! Moves between queues and the vector unit, and reductions (02 R24, R25; 06 R106, R107, R114). -/

namespace Sys2Proof.Machine

section
variable {s : State} {i : Instr} {f : State → WOut} {q : BitVec 2}

/-- A W head that stalls is tried again in the next cycle. -/
theorem stalls_of (hi : issueOf i = some f) (hp : s.phase = .w) (hf : f s = .stall s) : ∃ t, exec i s = .next t ∧ t.me.wbuf = s.me.wbuf ∧
    t.me.wReady = s.cyc + 1 ∧ t.me.wpend = s.me.wpend ∧ t.me.r = s.me.r := by
  refine ⟨_, exec_atHead hi s hp, ?_⟩
  unfold State.wIssue
  rw [hf]
  dsimp only
  obtain ⟨h1, -, r, o, h2⟩ := (s.updMe fun x => { x with wReady := s.cyc + 1 }).count_spec s.cur 3#3 s.head.pc true
  generalize (s.updMe fun x => { x with wReady := s.cyc + 1 }).count s.cur 3#3 s.head.pc true = t at h1 h2
  have hm : t.me = { s.me with wReady := s.cyc + 1, dbg := { s.me.dbg with ctr := r, ovf := o } } := by
    have hc : t.cur = s.cur := h1.cur
    rw [State.me_eq, hc, h2, State.updMe_eq, State.core_upd_same] <;> rfl
  show t.me.wbuf = _ ∧ t.me.wReady = _ ∧ t.me.wpend = _ ∧ t.me.r = _
  rw [hm]
  exact ⟨rfl, rfl, rfl, rfl⟩

theorem pushQ_room {l : Nat} {fl : BitVec 5} {x : Word} (h : (s.me.rq (1#1 ++ q)).length + s.me.taken q < 4) :
    pushQ q l fl x s = .done s 1 l (.q q x s.nextId) fl := if_pos h

theorem pushQ_full {l : Nat} {fl : BitVec 5} {x : Word} (h : 4 ≤ (s.me.rq (1#1 ++ q)).length + s.me.taken q) : pushQ q l fl x s = .stall s :=
  if_neg (Nat.not_lt.2 h)

/-- A push that reads vector registers. -/
theorem issuesPush_of {l : List VReg} {lat : Nat} {v : State → Word} {fl : State → BitVec 5}
    (hi : issueOf i = some (withSrc l none fun s => pushQ q lat (fl s) (v s) s)) : IssuesPush i l q lat v fl := by
  intro s hc
  refine ⟨fun h => ⟨_, exec_atHead hi s hc.1, ?_⟩, fun h => stalls_of hi hc.1 ?_⟩
  · simpa using done_pops hc (fun s => pushQ q lat (fl s) (v s) s) 1 lat _ _ (pushQ_room h)
  · rw [withSrc_ok hc, pushQ_full h]

theorem popStrips_nil (c : Core) : c.popStrips [] = c := rfl

/-- `kget` reads no vector register. -/
theorem kget_push (q : BitVec 2) (r : KReg) : IssuesPush (.kget q r) [] q 2 (fun s => (s.me.rk r).setWidth 64) fun _ => 0#5 := by
  intro s hc
  refine ⟨fun h => ⟨_, exec_atHead rfl s hc.1, ?_⟩, fun h => stalls_of rfl hc.1 (pushQ_full h)⟩
  have hi := wIssue_done s s (issueKget q r) 1 2 (.q q ((s.me.rk r).setWidth 64) s.nextId) 0#5 (Core.popStrips []) (pushQ_room h) rfl (fun _ _ => rfl)
    (Dbg.Counted.refl _) s.me.wbuf rfl rfl
  rwa [if_neg fun h => WTgt.noConfusion h.1] at hi

/-- A function that pops a queue issues with the entry taken. -/
def popsTo (tgt : State → Word → WTgt) (x : Word) (s : State) : WOut := .done s 1 2 (tgt s x) 0#5

variable {tgt : State → Word → WTgt}

theorem popQ_takes {x : Word} {r : List Word} (h : s.me.rq (0#1 ++ q) = x :: r) (ha : (s.me.qhead (0#1 ++ q)).1 ≤ s.cyc) :
    popQ q (popsTo tgt) s = popsTo tgt x (s.updMe fun c => c.popW (0#1 ++ q)) := by
  unfold popQ
  rw [h]
  exact if_neg (Nat.not_lt.2 ha)

theorem popQ_stalls (h : s.me.rq (0#1 ++ q) = [] ∧ s.me.stat = .run ∨ s.me.rq (0#1 ++ q) ≠ [] ∧ s.cyc < (s.me.qhead (0#1 ++ q)).1) :
    popQ q (popsTo tgt) s = .stall s := by
  unfold popQ
  rcases h with ⟨h, hs⟩ | ⟨h, ha⟩
  · rw [h]
    dsimp only
    unfold emptyQ
    rw [hs]
  · cases hq : s.me.rq (0#1 ++ q) with
    | nil => exact absurd hq h
    | cons x r => exact if_pos ha

/-- What a pop that issues does to the machine, whether or not its destination is tested for stream mode. -/
theorem issued_pop {x : Word} (ht : tgt (s.updMe fun c => c.popW (0#1 ++ q)) x = tgt s x) (hn : tgt s x ≠ .none) {t : State}
    (hf : f s = .done t 1 2 (tgt (s.updMe fun c => c.popW (0#1 ++ q)) x) 0#5) (hc : t = { s with cores := t.cores })
    (ho : ∀ d, t.core d = (s.updMe fun c => c.popW (0#1 ++ q)).core d) :
    s.Issued (s.wIssue f) 1 [⟨s.cyc + 1, tgt s x, 0#5⟩]
      fun c => { c.dequeued (0#1 ++ q) with wAfter := max c.wAfter (c.qhead (0#1 ++ q)).2 } := by
  have hm : t.me = s.me.popW (0#1 ++ q) := by
    have : t.cur = s.cur := by rw [hc]
    rw [State.me_eq, this, ho, State.updMe_eq, State.core_upd_same]
    rfl
  rw [ht] at hf
  have := wIssue_done s t f 1 2 (tgt s x) 0#5 (fun c => c.popW (0#1 ++ q)) hf hc
    (fun d hd => (ho d).trans (State.core_updMe_other _ _ _ hd)) (by rw [hm]; exact Dbg.Counted.refl _) s.me.wbuf (by rw [hm]; rfl) rfl
  rw [if_neg fun h => hn h.1] at this
  exact this

theorem issuesPop_bare (hi : issueOf i = some (popQ q (popsTo tgt))) (ht : ∀ s x, tgt (s.updMe fun c => c.popW (0#1 ++ q)) x = tgt s x)
    (hn : ∀ s x, tgt s x ≠ .none) : IssuesPop i q none tgt := by
  intro s hc n
  refine ⟨fun x r h ha => ⟨_, exec_atHead hi s hc.1, ?_⟩, fun h => stalls_of hi hc.1 (popQ_stalls h)⟩
  exact issued_pop (ht s x) (hn s x) (popQ_takes h ha) rfl fun _ => rfl

theorem issuesPop_tested {d : VReg} (hi : issueOf i = some (withSrc [] (some d) (popQ q (popsTo tgt))))
    (ht : ∀ s x, tgt (s.updMe fun c => c.popW (0#1 ++ q)) x = tgt s x) (hn : ∀ s x, tgt s x ≠ .none) : IssuesPop i q (some d) tgt := by
  intro s hc n
  refine ⟨fun x r h ha => ⟨_, exec_atHead hi s hc.1, ?_⟩, fun h => stalls_of hi hc.1 ?_⟩
  · refine issued_pop (ht s x) (hn s x) (by rw [withSrc_ok hc, popQ_takes h ha, popsTo]) rfl fun e => ?_
    by_cases he : e = s.cur
    · subst he
      exact (State.core_upd_same _ s.cur _).trans (popStrips_nil _)
    · exact State.core_upd_other _ _ _ _ he
  · rw [withSrc_ok hc, popQ_stalls h]

theorem kput_deadlock {r : KReg} {a : Option Word} (hp : s.phase = .w) (hq : s.me.rq (0#1 ++ q) = []) (hs : s.me.stat = .ending a) :
    exec (.kput q r) s = .next { s.wTrap s.cur 0x04#8 s.head.pc (q.setWidth 64) with phase := .s } := by
  have hf : issueKput q r s = .other (s.wTrap s.cur 0x04#8 s.head.pc (q.setWidth 64)) := by
    unfold issueKput popQ
    rw [hq]
    dsimp only
    unfold emptyQ
    rw [hs]
  rw [exec_atHead rfl s hp]
  unfold State.wIssue
  rw [hf]

end

theorem getD_lane (x : Lanes) (l : Nat) : x.toList.getD l 0#32 = if h : l < 48 then x[l]'h else 0#32 := by
  split
  · next h => rw [List.getD_eq_getElem _ _ (by simpa using h), Vector.getElem_toList]
  · next h => rw [List.getD_eq_default _ _ (by simpa using h)]

/-- Settles O35: pushes and pops by the two shapes of queue instructions. -/
theorem vectorQueues : Obligations.VectorQueues := by
  refine ⟨fun t l q v => ?_, fun k t q v => ?_, fun k t q v => issuesPush_of rfl, fun k t q v => issuesPush_of rfl, kget_push,
    fun t l q v => issuesPop_tested (tgt := fun _ x => .v v (1#48 <<< l.toNat) (Vector.replicate 48 (x.setWidth 32))) rfl (fun _ _ => rfl)
      fun _ _ => WTgt.noConfusion,
    fun k t q v => issuesPop_tested (tgt := fun s x => .v v (s.me.rk k) (Vector.replicate 48 (x.setWidth 32))) rfl (fun s x => ?_)
      fun _ _ => WTgt.noConfusion,
    fun q r => issuesPop_bare (tgt := fun _ x => .k r (BitVec.allOnes 48) (x.setWidth 48)) rfl (fun _ _ => rfl) fun _ _ => WTgt.noConfusion,
    fun s q r a => kput_deadlock⟩
  · refine issuesPush_of (congrArg some (congrArg (withSrc [v] none) (funext fun s => ?_)))
    dsimp only
    rw [getD_lane]
    cases t <;> rfl
  · exact issuesPush_of (by cases t <;> rfl)
  · rw [State.me_updMe] <;> rfl

end Sys2Proof.Machine
end

section
/-! Vector and block memory within the own scratchpad (06 R108 to R113). -/

namespace Sys2Proof.Machine

/-! The base (06 R108). -/

/-- The base noted in the W head. -/
def Core.noteBase (q : BitVec 2) (b : Word) (c : Core) : Core :=
  match c.wbuf with
  | e :: r => { c with wbuf := { e with base := some b } :: r, wAfter := max c.wAfter (c.qhead (0#1 ++ q)).2 }
  | [] => c

/-- The state once the base has been read. -/
def State.based (s : State) (q : BitVec 2) (b : Word) : State := if s.head.base.isSome then s else s.updMe (Core.noteBase q b)

/-- The base leaves its queue. -/
def State.took (t : State) (pk : Bool) (q : BitVec 2) : State := if pk then t else t.updMe fun c => c.popW (0#1 ++ q)

/-- What the issue of a W access has changed of the machine before its entry leaves the buffer. -/
structure State.AtBase (s : State) (q : BitVec 2) (t : State) : Prop where
  frame : t = { s with cores := t.cores }
  other : ∀ d, d ≠ s.cur → t.core d = s.core d
  me : t.me = { s.sawBase q with wbuf := t.me.wbuf, dbg := t.me.dbg, sp := t.me.sp, late := t.me.late, ups := t.me.ups }
  dbg : Dbg.Counted s.me.dbg t.me.dbg
  tail : t.me.wbuf.tail = s.me.wbuf.tail
  pc : t.head.pc = s.head.pc

/-- Nothing has been stored. -/
def State.SameSp (s t : State) : Prop := t.me.sp = s.me.sp ∧ t.me.late = s.me.late ∧ t.me.ups = s.me.ups

section
variable {s t u : State} {q : BitVec 2} {b : Word} {pk : Bool}

theorem withBase_has (h : s.HasBase q b) (k : Word → State → WOut) : withBase pk q k s = match k b (s.based q b) with
    | .done t i l tgt fl => .done (t.took pk q) i l tgt fl
    | o => o := by
  have hk : ∀ t, (match k b t with
      | .done t i l tgt fl => WOut.done (if pk then t else t.updMe fun c => c.popW (0#1 ++ q)) i l tgt fl
      | o => o) = match k b t with
      | .done t i l tgt fl => .done (t.took pk q) i l tgt fl
      | o => o := fun t => by cases k b t <;> rfl
  obtain ⟨-, h | ⟨h0, h1, h2⟩⟩ := h
  · unfold withBase State.based
    rw [h]
    exact hk s
  · unfold withBase State.based
    rw [h0]
    dsimp only
    cases hq : s.me.rq (0#1 ++ q) with
    | nil => rw [hq] at h1; cases h1
    | cons x r =>
      rw [hq] at h1
      cases h1
      dsimp only
      rw [if_neg (Nat.not_lt.2 h2)]
      exact hk _

theorem based_same (h : s.HasBase q b) : s.AtBase q (s.based q b) ∧ s.SameSp (s.based q b) := by
  unfold State.based
  by_cases hb : s.head.base.isSome = true
  · rw [if_pos hb]
    refine ⟨⟨rfl, fun _ _ => rfl, ?_, .refl _, rfl, rfl⟩, rfl, rfl, rfl⟩
    rw [State.sawBase, if_pos hb] <;> rfl
  · rw [if_neg hb]
    obtain ⟨hw, -⟩ := h
    obtain ⟨e, r, he⟩ := List.exists_cons_of_ne_nil hw
    have hm : (s.updMe (Core.noteBase q b)).me = { s.me.sawEntry q with wbuf := { e with base := some b } :: r } := by
      rw [State.me_updMe, Core.noteBase, he]
      rfl
    have hs : s.sawBase q = s.me.sawEntry q := by rw [State.sawBase, if_neg hb]
    refine ⟨⟨rfl, fun d hd => State.core_updMe_other _ _ _ hd, ?_, ?_, ?_, ?_⟩, ?_⟩
    · rw [hm, hs]
    · rw [hm]
      exact .refl _
    · rw [hm, he]
      rfl
    · rw [State.head, State.head, hm, he]
      rfl
    · unfold State.SameSp
      rw [hm]
      exact ⟨rfl, rfl, rfl⟩

theorem State.AtBase.cur (h : s.AtBase q t) : t.cur = s.cur := by rw [h.frame]

theorem State.AtBase.cyc (h : s.AtBase q t) : t.cyc = s.cyc := by rw [h.frame]

theorem sawBase_after (s : State) (q : BitVec 2) : ∃ n, s.sawBase q = { s.me with wAfter := n } := by
  unfold State.sawBase
  split
  · exact ⟨_, rfl⟩
  · exact ⟨_, rfl⟩

/-- What a W access reads of its core. -/
theorem State.AtBase.reads (h : s.AtBase q t) : t.me.r = s.me.r ∧ t.me.str = s.me.str ∧ t.me.c = s.me.c ∧ t.me.jobs = s.me.jobs ∧
    t.me.acc = s.me.acc ∧ t.me.stat = s.me.stat ∧ t.me.wpend = s.me.wpend ∧ t.me.act = s.me.act ∧ t.me.res = s.me.res := by
  have hm := h.me
  obtain ⟨n, hn⟩ := sawBase_after s q
  rw [hn] at hm
  refine ⟨?_, ?_, ?_, ?_, ?_, ?_, ?_, ?_, ?_⟩ <;> rw [hm]

theorem State.AtBase.rk (h : s.AtBase q t) (k : KReg) : t.me.rk k = s.me.rk k := by
  unfold Core.rk
  rw [h.reads.1]

theorem State.AtBase.src (h : s.AtBase q t) (r : VReg) : t.me.src r = s.me.src r := by
  obtain ⟨hr, hs, -⟩ := h.reads
  unfold Core.src Core.rv
  rw [hr, hs]

theorem State.AtBase.wmBlocks (h : s.AtBase q t) (a : Word) (n : Nat) : t.me.wmBlocks a n = s.me.wmBlocks a n := by
  obtain ⟨-, -, -, hj, -⟩ := h.reads
  unfold Core.wmBlocks
  rw [hj]

theorem State.AtBase.spFree (h : s.AtBase q t) (hf : (s.sawBase q).SpFree s.cur true) : (t.core t.cur).SpFree t.cur true := by
  rw [← State.me_eq, h.cur]
  have hm := h.me
  unfold Core.SpFree Core.afterOf at hf ⊢
  rw [hm]
  exact hf

theorem atBase_marked (h : s.AtBase q t) (hm : Marked t u) : s.AtBase q u ∧ t.SameSp u := by
  obtain ⟨m1, m2, x, m3, m4⟩ := hm
  have hf : u = { t with cores := u.cores } := by rw [m1.1]; simp [m2]
  refine ⟨⟨?_, fun d hd => (m1.2.1 d (by rwa [h.cur])).trans (h.other d hd), ?_, ?_, ?_, ?_⟩, ?_⟩
  · rw [hf, h.frame]
  · rw [m3]
    dsimp only
    have := h.me
    generalize t.me = y at this ⊢
    generalize y.sp = a at *
    rw [this]
  · rw [m3]
    obtain ⟨d1, d2⟩ := h.dbg
    exact ⟨by dsimp only; rw [d1], fun hw => (m4 (by rw [d1]; exact hw)).trans (d2 hw)⟩
  · rw [m3]
    exact h.tail
  · rw [State.head, m3]
    exact h.pc
  · unfold State.SameSp
    rw [m3]
    exact ⟨rfl, rfl, rfl⟩

theorem State.SameSp.trans (h : s.SameSp t) (h' : t.SameSp u) : s.SameSp u :=
  ⟨h'.1.trans h.1, h'.2.1.trans h.2.1, h'.2.2.trans h.2.2⟩

/-- The strips that are taken depend on the streams only. -/
theorem popStrips_alike (l : List VReg) (x y : Core) (h : x.str = y.str) :
    ∃ z, x.popStrips l = { x with str := z } ∧ y.popStrips l = { y with str := z } := by
  unfold Core.popStrips
  generalize l.eraseDups = l
  induction l generalizing x y with
  | nil => exact ⟨x.str, rfl, by rw [h]; rfl⟩
  | cons r l ih =>
    rw [List.foldl_cons, List.foldl_cons, ← h]
    cases tGet x.str r.toNat with
    | none => exact ih x y h
    | some st =>
      dsimp only
      cases st.buf with
      | nil => exact ih x y h
      | cons v b =>
        obtain ⟨z, hx, hy⟩ := ih { x with str := tPut x.str r.toNat { st with buf := b, last := v } }
          { y with str := tPut x.str r.toNat { st with buf := b, last := v } } rfl
        exact ⟨z, hx, hy⟩

/-- A core whose base is taken. -/
theorem took_eq (h : s.AtBase q t) : (if pk then t.me else t.me.popW (0#1 ++ q)) =
    { s.afterBase pk q s.me with wbuf := t.me.wbuf, dbg := t.me.dbg, sp := t.me.sp, late := t.me.late, ups := t.me.ups } := by
  have hm := h.me
  unfold State.afterBase Core.tookBase
  change t.me = { s.sawBase q with wbuf := t.me.wbuf, dbg := t.me.dbg, sp := t.me.sp, late := t.me.late, ups := t.me.ups } at hm
  change _ = { (if pk then s.sawBase q else _) with wbuf := t.me.wbuf, dbg := t.me.dbg, sp := t.me.sp, late := t.me.late, ups := t.me.ups }
  generalize t.me = y at hm
  split
  · exact hm
  · rw [hm]
    rfl

theorem afterBase_keeps (s : State) (pk : Bool) (q : BitVec 2) :
    (s.afterBase pk q s.me).pread = s.me.pread ∧ (s.afterBase pk q s.me).wpend = s.me.wpend := by
  unfold State.afterBase Core.tookBase
  split <;> split <;> exact ⟨rfl, rfl⟩

/-- `Issued` speaks of the core at the start only. -/
theorem Issued_congr {cost : Nat} {l : List WPend} {f g : Core → Core} (h : f s.me = g s.me) (hi : s.Issued t cost l f) :
    s.Issued t cost l g := by
  obtain ⟨h1, h2, h3, h4⟩ := hi
  exact ⟨h1, h2, h3, by rw [← h]; exact h4⟩

/-- A W access whose function answers `done` issues, and its base is taken. -/
theorem issued_atBase {l : List VReg} {d : Option VReg} (hc : s.CanIssue l d) (hb : s.HasBase q b) {k : Word → State → WOut} {cost lat : Nat}
    {tgt : WTgt} {fl : BitVec 5} (hk : k b (s.based q b) = .done t cost lat tgt fl) (ht : s.AtBase q t) :
    s.Issued (s.wIssue (withSrc l d (withBase pk q k))) cost (if tgt = .none ∧ fl = 0#5 then [] else [⟨s.cyc + (lat - 1), tgt, fl⟩])
      fun c => { (s.afterBase pk q c).popStrips l with sp := t.me.sp, late := t.me.late, ups := t.me.ups } := by
  have hm : ((t.took pk q).updMe (Core.popStrips l)).me = (if pk then t.me else t.me.popW (0#1 ++ q)).popStrips l := by
    rw [State.me_updMe]
    congr 1
    unfold State.took
    split
    · rfl
    · rw [State.me_updMe]
  have hf : (t.took pk q).updMe (Core.popStrips l) = { t with cores := ((t.took pk q).updMe (Core.popStrips l)).cores } := by
    unfold State.took
    split <;> rfl
  have hcur : (t.took pk q).cur = s.cur := by
    unfold State.took
    split
    · exact ht.cur
    · exact ht.cur
  obtain ⟨z, hx, hy⟩ := popStrips_alike l (if pk then t.me else t.me.popW (0#1 ++ q)) (s.afterBase pk q s.me) (by
    rw [took_eq ht])
  refine wIssue_done s _ _ cost lat tgt fl _ (by rw [withSrc_ok hc, withBase_has hb, hk]) ?_ ?_ ?_ t.me.wbuf ?_ ht.tail
  · rw [hf, ht.frame]
  · intro d hd
    rw [State.core_updMe_other _ _ _ (by rw [hcur]; exact hd)]
    unfold State.took
    split
    · exact ht.other d hd
    · rw [State.core_updMe_other _ _ _ (by rw [ht.cur]; exact hd)]
      exact ht.other d hd
  · rw [hm, hx, took_eq ht]
    exact ht.dbg
  · rw [hm, hx, hy, took_eq ht]
    obtain ⟨hp, hw⟩ := afterBase_keeps s pk q
    dsimp only
    rw [← hp, ← hw]

/-! The checks (06 R112). -/

theorem Marked.refl (s : State) : Marked s s := ⟨.refl s s.cur, rfl, _, rfl, fun _ => rfl⟩

theorem Marked.trans (h : Marked s t) (h' : Marked t u) : Marked s u := by
  obtain ⟨m1, m2, x, m3, m4⟩ := h
  obtain ⟨n1, n2, y, n3, n4⟩ := h'
  have hc : t.cur = s.cur := m1.cur
  rw [hc] at n1
  refine ⟨m1.trans ?_ n1, n2.trans m2, y, by rw [n3, m3], fun hw => ?_⟩
  · rw [← hc, ← State.me_eq, m3, hc, ← State.me_eq]
    exact ⟨rfl, rfl⟩
  · rw [n4 (by rw [m3]; exact hw), m3]
    exact m4 hw

/-- The instruction of such an access. -/
theorem issues_atBase {i : Instr} {l : List VReg} {d : Option VReg} {k : Word → State → WOut} (hi : issueOf i = some (withSrc l d (withBase pk q k)))
    (hc : s.CanIssue l d) (hb : s.HasBase q b) {cost lat : Nat} {tgt : WTgt} {fl : BitVec 5}
    (hk : k b (s.based q b) = .done t cost lat tgt fl) (ht : s.AtBase q t) : ∃ v, exec i s = .next v ∧
    s.Issued v cost (if tgt = .none ∧ fl = 0#5 then [] else [⟨s.cyc + (lat - 1), tgt, fl⟩])
      fun c => { (s.afterBase pk q c).popStrips l with sp := t.me.sp, late := t.me.late, ups := t.me.ups } :=
  ⟨_, exec_atHead hi s hc.1, issued_atBase hc hb hk ht⟩

/-- The piece of a lane in the own scratchpad. -/
def lanePiece (c n : Nat) (p : Nat × Word) : Nat × List Piece := (p.1, [⟨p.2, .sp c p.2.toNat, n, .sp, false⟩])

/-- Lanes in the own scratchpad pass their checks. -/
theorem chkLanes_local {w : Who} {acc : Acc} {n : Nat} (h0 : 0 < n) (l : List (Nat × Word)) (hl : ∀ p ∈ l, InSp p.2 n)
    (hs : accWrite acc = true → ∀ p ∈ l, 0x80 ≤ p.2.toNat) (t : State) (hw : w.core = t.cur) :
    ∃ u, Marked t u ∧ t.chkLanes w acc n l = .ok (l.map (lanePiece t.cur n), u) := by
  induction l generalizing t with
  | nil => exact ⟨t, .refl t, rfl⟩
  | cons p r ih =>
    obtain ⟨i, a⟩ := p
    obtain ⟨ha, hn⟩ := hl (i, a) (List.mem_cons_self ..)
    have hm := watch_marked t acc a n
    have hc : (t.watch t.cur acc a n).cur = t.cur := hm.1.cur
    obtain ⟨u, hu, he⟩ := ih (fun p hp => hl p (List.mem_cons_of_mem _ hp)) (fun h p hp => hs h p (List.mem_cons_of_mem _ hp))
      (t.watch t.cur acc a n) (hw.trans hc.symm)
    refine ⟨u, hm.trans hu, ?_⟩
    unfold State.chkLanes
    dsimp only at ha hn
    rw [if_neg (not_not.2 hn), classify_local _ _ _ (by omega),
      chk_local t w .d acc _ a n ha h0 hn (fun h => hs h (i, a) (List.mem_cons_self ..)), hw]
    dsimp only
    rw [he, hc]
    rfl

/-! Loads (06 R109, R110). -/

/-- No soft error is met in lanes that are whole. -/
theorem struckPs_lanes {c n : Nat} (l : List (Nat × Word)) (h : ∀ p ∈ l, (t.core c).Whole p.2.toNat n) :
    t.struckPs ((l.map (lanePiece c n)).map (·.2)).flatten = none := by
  unfold State.struckPs
  induction l with
  | nil => rfl
  | cons p r ih =>
    have hp := (h p (List.mem_cons_self ..)).struck
    simp only [List.map_cons, lanePiece, List.flatten_cons, List.cons_append, List.nil_append, List.foldl_cons, State.struckAt, hp]
    exact ih fun x hx => h x (List.mem_cons_of_mem _ hx)

/-- A load of the W stream from the own scratchpad reads its bytes. -/
theorem loadPieces_lane {p : Nat × Word} {n : Nat} (h : InSp p.2 n) (hf : (t.core t.cur).SpFree t.cur true) :
    t.loadPieces t.cur true (lanePiece t.cur n p).2 = Memory.read t.me.sp p.2.toNat n := by
  have ho : ∀ a ∈ (t.core t.cur).acc.filter (fun a => a.w == true), overlaps a.p.at_ a.p.n (.sp t.cur p.2.toNat) n = false := by
    intro a ha
    obtain ⟨ha, hw⟩ := List.mem_filter.1 ha
    have := hf a ha
    rw [if_pos (by simpa using hw)] at this
    exact overlaps_sameSp (by rw [sameSp_off _ _ _ 0]; exact this)
  unfold State.loadPieces lanePiece
  simp only [List.map_cons, List.map_nil, List.flatten_cons, List.flatten_nil, List.append_nil]
  rw [show t.readAt (.sp t.cur p.2.toNat) n = (t.core t.cur).spRead p.2.toNat n from rfl, overlay_other _ _ _ _ (length_spRead _ _ _) ho]
  exact spRead_local _ _ _ h.1

/-- The bytes of each lane. -/
def State.laneBytes (t : State) (n : Nat) (l : List (Nat × Word)) : List (Nat × List Byte) :=
  l.map fun p => (p.1, Memory.read t.me.sp p.2.toNat n)

/-- Nothing holds back a W load of these lanes of the own scratchpad. -/
structure State.LaneLoad (s : State) (q : BitVec 2) (n : Nat) (l : List (Nat × Word)) : Prop where
  free : (s.sawBase q).SpFree s.cur true
  inSp : ∀ p ∈ l, InSp p.2 n
  open_ : ∀ p ∈ l, s.me.wmBlocks p.2 n = false
  whole : ∀ p ∈ l, s.me.Whole p.2.toNat n

theorem wLoad_local {n : Nat} (h0 : 0 < n) {l : List (Nat × Word)} (h : s.LaneLoad q n l) (ht : s.AtBase q t) (hs : s.SameSp t)
    (fin : List (Nat × List Byte) → State → WOut) :
    ∃ u, s.AtBase q u ∧ s.SameSp u ∧ wLoad n l fin t = fin (s.laneBytes n l) u := by
  obtain ⟨u, hu, he⟩ := chkLanes_local h0 l h.inSp (fun ha => absurd ha (by simp [accWrite])) t (who_core t t.cur true) (acc := .load)
  obtain ⟨hbu, hsu⟩ := atBase_marked ht hu
  have hsu := hs.trans hsu
  refine ⟨u, hbu, hsu, ?_⟩
  have hfind : l.find? (fun p => t.me.wmBlocks p.2 n) = none := by
    rw [List.find?_eq_none]
    intro p hp
    rw [ht.wmBlocks, h.open_ p hp]
    exact Bool.false_ne_true
  have hcu : u.cur = t.cur := hu.1.cur
  have hfu := hbu.spFree h.free
  have he : t.chkLanes (t.who t.cur true) .load n l = .ok (l.map (lanePiece u.cur n), u) := by rw [he, hcu]
  have hread : ((l.map (lanePiece u.cur n)).map fun p => (p.1, u.loadPieces u.cur true p.2)) = s.laneBytes n l := by
    rw [List.map_map]
    refine List.map_congr_left fun p hp => ?_
    simp only [Function.comp, loadPieces_lane (h.inSp p hp) hfu, hsu.1]
    rfl
  have hown : ((l.map (lanePiece u.cur n)).all fun p => ownSp u.cur p.2) = true := by
    rw [List.all_map, List.all_eq_true]
    intro p _
    simp [ownSp, lanePiece]
  have hready : u.me.loadReady true ((l.map (lanePiece u.cur n)).map (·.2)).flatten = true := by
    refine Core.SpFree.loadReady hfu _ fun p hp => ?_
    simp only [List.map_map, List.mem_flatten, List.mem_map] at hp
    obtain ⟨_, ⟨x, -, rfl⟩, hp⟩ := hp
    rw [List.mem_singleton.1 hp]
    exact ⟨rfl, _, rfl⟩
  have hwhole : u.struckPs ((l.map (lanePiece u.cur n)).map (·.2)).flatten = none := by
    refine struckPs_lanes l fun p hp => ?_
    have := h.whole p hp
    unfold Core.Whole at this ⊢
    rw [← State.me_eq, hsu.2.2]
    exact this
  unfold wLoad
  rw [hfind]
  dsimp only
  rw [he]
  dsimp only
  rw [if_pos hown, if_pos hready, hwhole]
  dsimp only
  rw [hread]

theorem mem_lanesOf {m : BitVec 48} {n : Fin 48} : n ∈ lanesOf m ↔ laneMask m n = true := by
  simp [lanesOf]

/-- The word of each lane in the mask. -/
theorem lanesFrom_lane {m : BitVec 48} {a : Fin 48 → Word} {n : Fin 48} (h : laneMask m n = true) :
    (lanesFrom (s.laneBytes 4 ((lanesOf m).map fun i => (i.val, a i))))[n] = BitVec.ofNat 32 (s.spNat (a n) 4) := by
  have hf : (s.laneBytes 4 ((lanesOf m).map fun i => (i.val, a i))).find? (fun p => p.1 == n.val) =
      some (n.val, Memory.read s.me.sp (a n).toNat 4) := by
    have hm := mem_lanesOf.2 h
    unfold State.laneBytes
    rw [List.map_map]
    generalize lanesOf m = l at hm
    induction l with
    | nil => cases hm
    | cons i r ih =>
      rw [List.map_cons, List.find?_cons]
      by_cases hi : i = n
      · subst hi
        simp
      · have : (i.val == n.val) = false := by simpa [Fin.ext_iff] using hi
        simp only [Function.comp, this]
        exact ih ((List.mem_cons.1 hm).resolve_left fun e => hi e.symm)
  unfold lanesFrom
  simp only [Fin.getElem_fin, Vector.getElem_ofFn, Fin.eta, hf]
  rfl

/-- A load of lanes issues as its row says. -/
theorem loadsLanes_of {i : Instr} {l : List VReg} {k : KReg} {d : VReg} {cost lat : Nat} {a : State → Word → Fin 48 → Word}
    {f : Word → State → List (Nat × Word)} (hf : ∀ b s, f b s = (lanesOf (s.me.rk k)).map fun n => (n.val, a s b n))
    (hi : issueOf i = some (withSrc l (some d) (withBase pk q fun b s => if ! plainBase b then s.wAlign b else
      wLoad 4 (f b s) (fun x s' => .done s' cost lat (.v d (s.me.rk k) (lanesFrom x)) 0#5) s)))
    (ha : ∀ s t b, s.AtBase q t → a t b = a s b) : LoadsLanes i l pk q k d cost lat a := by
  intro s b hc hb hp ⟨hfree, hin⟩ hok
  obtain ⟨ht, hs⟩ := based_same hb
  have hl : f b (s.based q b) = (lanesOf (s.me.rk k)).map fun n => (n.val, a s b n) := by rw [hf, ht.rk, ha s _ b ht]
  have hmem : ∀ p ∈ f b (s.based q b), ∃ n, laneMask (s.me.rk k) n = true ∧ p = (n.val, a s b n) := by
    intro p hm
    rw [hl] at hm
    obtain ⟨n, hn, rfl⟩ := List.mem_map.1 hm
    exact ⟨n, mem_lanesOf.1 hn, rfl⟩
  have hload : s.LaneLoad q 4 (f b (s.based q b)) := by
    refine ⟨hfree, fun p hm => ?_, fun p hm => ?_, fun p hm => ?_⟩ <;> obtain ⟨n, hn, rfl⟩ := hmem p hm
    · exact (hin n hn).1
    · exact (hok n hn).1
    · exact (hok n hn).2
  obtain ⟨u, hu, ⟨h1, h2, h3⟩, he⟩ := wLoad_local (by decide) hload ht hs
    fun x s' => .done s' cost lat (.v d ((s.based q b).me.rk k) (lanesFrom x)) 0#5
  refine ⟨_, lanesFrom (s.laneBytes 4 (f b (s.based q b))), exec_atHead hi s hc.1, fun n hn => ?_, ?_⟩
  · rw [hl]
    exact lanesFrom_lane hn
  · have := issued_atBase (pk := pk) (cost := cost) (lat := lat) (tgt := .v d (s.me.rk k) (lanesFrom (s.laneBytes 4 (f b (s.based q b)))))
      (fl := 0#5) hc hb (k := fun b s => if ! plainBase b then s.wAlign b else
      wLoad 4 (f b s) (fun x s' => .done s' cost lat (.v d (s.me.rk k) (lanesFrom x)) 0#5) s) (t := u) (by
        rw [hp, if_neg (by decide), he, ht.rk]) hu
    rw [if_neg fun h => WTgt.noConfusion h.1] at this
    refine Issued_congr ?_ this
    obtain ⟨x, hx⟩ := popStrips_str l (s.afterBase pk q s.me)
    rw [hx, h1, h2, h3]
    unfold State.afterBase Core.tookBase
    split <;> split <;> rfl

/-! Stores (06 R109, R111). -/

theorem who_w (s : State) (c : Nat) (w : Bool) : (s.who c w).w = w := by
  unfold State.who
  dsimp only
  split <;> rfl

/-- The bytes of a lane are stored at once. -/
theorem doStore_lane {w : Who} {n : Nat} {p : Nat × Word} (bs : List Byte) (dom : DTag) (fl : BitVec 5) (hc : w.core = t.cur) (hw : w.w = true)
    (hf : (t.core t.cur).SpFree t.cur true) :
    t.doStore w (lanePiece t.cur n p).2 bs dom false fl = t.updMe fun x => x.spStore p.2.toNat bs := by
  unfold State.doStore lanePiece
  dsimp only
  rw [hc, hw, hf.storeReady fun h => absurd h Bool.false_ne_true, if_pos ⟨rfl, rfl⟩]
  rfl

theorem lanesHold_local {w : Who} {n : Nat} {l : List (Nat × Word)} (hc : w.core = t.cur) (hw : w.w = true)
    (hf : (t.core t.cur).SpFree t.cur true) : t.lanesHold w (l.map (lanePiece t.cur n)) = false := by
  unfold State.lanesHold
  rw [List.any_eq_false]
  intro p _
  unfold State.storeHolds
  rw [hc, hw, hf.storeReady fun h => absurd h Bool.false_ne_true]
  simp

theorem atBase_spStore (h : s.AtBase q t) (a : Nat) (bs : List Byte) : s.AtBase q (t.updMe fun x => x.spStore a bs) := by
  refine ⟨?_, fun d hd => ?_, ?_, ?_, ?_, ?_⟩
  · rw [h.frame]
    rfl
  · rw [State.core_updMe_other _ _ _ (by rw [h.cur]; exact hd)]
    exact h.other d hd
  · have hm := h.me
    rw [State.me_updMe]
    generalize t.me = y at hm ⊢
    unfold Core.spStore
    generalize y.spRead a bs.length = b
    generalize y.sp = m at *
    rw [hm]
  · rw [State.me_updMe]
    exact h.dbg
  · rw [State.me_updMe]
    exact h.tail
  · rw [State.head, State.me_updMe]
    exact h.pc

/-- What the lanes leave of a byte of the scratchpad, in ascending order. -/
def laneByte (l : List (Nat × Word)) (f : Nat → List Byte) (o : Nat) (x : Byte) : Byte :=
  l.foldl (fun x p => if p.2.toNat ≤ o ∧ o < p.2.toNat + (f p.1).length then (f p.1).getD (o - p.2.toNat) 0#8 else x) x

/-- The lanes are stored one after the other. -/
theorem storeLanes {w : Who} {n : Nat} (l : List (Nat × Word)) (f : Nat → List Byte) (dom : DTag) (fl : BitVec 5) (hc : w.core = s.cur)
    (hw : w.w = true) (hf : (s.sawBase q).SpFree s.cur true) (t : State) (ht : s.AtBase q t) :
    ∃ u, (l.map (lanePiece t.cur n)).foldl (fun (t : State) p => t.doStore w p.2 (f p.1) dom false fl) t = u ∧ s.AtBase q u ∧
      ∀ o, Memory.get u.me.sp o = laneByte l f o (Memory.get t.me.sp o) := by
  induction l generalizing t with
  | nil => exact ⟨t, rfl, ht, fun o => rfl⟩
  | cons p r ih =>
    obtain ⟨u, he, hu, ho⟩ := ih (t.updMe fun x => x.spStore p.2.toNat (f p.1)) (atBase_spStore ht _ _)
    refine ⟨u, ?_, hu, fun o => ?_⟩
    · rw [List.map_cons, List.foldl_cons, doStore_lane (p := p) _ _ _ (by rw [hc, ht.cur]) hw (ht.spFree hf)]
      exact he
    · rw [ho o, State.me_updMe, Core.spStore_sp, Memory.get_write]
      rfl

/-- Nothing holds back a W store to these lanes of the own scratchpad. -/
structure State.LaneStore (s : State) (q : BitVec 2) (n : Nat) (l : List (Nat × Word)) : Prop where
  free : (s.sawBase q).SpFree s.cur true
  inSp : ∀ p ∈ l, InSp p.2 n
  above : ∀ p ∈ l, 0x80 ≤ p.2.toNat

/-- The checks of a store of lanes pass, and nothing holds it back. -/
theorem laneStore_checks {n : Nat} (h0 : 0 < n) {l : List (Nat × Word)} (h : s.LaneStore q n l) (ht : s.AtBase q t) :
    ∃ u, s.AtBase q u ∧ t.SameSp u ∧ t.chkLanes (t.who t.cur true) .store n l = .ok (l.map (lanePiece u.cur n), u) ∧
      u.lanesHold (t.who t.cur true) (l.map (lanePiece u.cur n)) = false := by
  obtain ⟨u, hu, he⟩ := chkLanes_local h0 l h.inSp (fun _ => h.above) t (who_core t t.cur true) (acc := .store)
  have hcu : u.cur = t.cur := hu.1.cur
  obtain ⟨hbu, hsu⟩ := atBase_marked ht hu
  exact ⟨u, hbu, hsu, by rw [he, hcu], lanesHold_local (by rw [who_core, hcu]) (who_w _ _ _) (hbu.spFree h.free)⟩

theorem wStore_local {n : Nat} (h0 : 0 < n) {l : List (Nat × Word)} (h : s.LaneStore q n l) (ht : s.AtBase q t) (hs : s.SameSp t)
    (f : Nat → List Byte) (i : Nat) :
    ∃ u, s.AtBase q u ∧ wStore n l f i t = .done u i 1 .none 0#5 ∧ ∀ o, Memory.get u.me.sp o = laneByte l f o (Memory.get s.me.sp o) := by
  obtain ⟨u, hu, hsu, he, hh⟩ := laneStore_checks h0 h ht
  obtain ⟨v, hv, hbv, ho⟩ := storeLanes (n := n) l f (t.who t.cur true).dom 0#5 ((who_core t t.cur true).trans ht.cur) (who_w t t.cur true) h.free u hu
  refine ⟨v, hbv, ?_, fun o => by rw [ho, hsu.1, hs.1]⟩
  unfold wStore
  dsimp only
  rw [he]
  dsimp only
  rw [if_neg (by rw [hh]; decide), hv]

theorem leBytes_getD (n v k : Nat) (h : k < n) : (leBytes n v).getD k 0#8 = BitVec.ofNat 8 (v / 256 ^ k) := by
  induction n generalizing v k with
  | zero => omega
  | succ n ih =>
    cases k with
    | zero => simp [leBytes]
    | succ k =>
      rw [leBytes, List.getD_cons_succ, ih _ _ (by omega), Nat.div_div_eq_div_mul, pow_succ, Nat.mul_comm]

/-- A byte of a lane. -/
theorem leBytes_lane (x : Lane) (k : Nat) (h : k < 4) : (leBytes 4 x.toNat).getD k 0#8 = x.extractLsb' (8 * k) 8 := by
  rw [leBytes_getD _ _ _ h]
  apply BitVec.eq_of_toNat_eq
  rw [BitVec.toNat_ofNat, BitVec.extractLsb'_toNat, Nat.shiftRight_eq_div_pow, Nat.pow_mul]

/-- The bytes of a store of 32-bit lanes. -/
theorem laneByte_lanes (m : BitVec 48) (a : Fin 48 → Word) (x : Lanes) (o : Nat) (y : Byte) :
    laneByte ((lanesOf m).map fun n => (n.val, a n)) (fun n => leBytes 4 (x.toList.getD n 0#32).toNat) o y =
      (List.finRange 48).foldl (fun z n => if laneMask m n = true ∧ (a n).toNat ≤ o ∧ o < (a n).toNat + 4 then
        (x[n]).extractLsb' (8 * (o - (a n).toNat)) 8 else z) y := by
  unfold laneByte lanesOf
  rw [List.foldl_map, List.foldl_filter]
  congr 1
  funext z n
  by_cases hn : laneMask m n = true
  · simp only [hn, if_true, true_and, leBytes_length]
    split
    · next h => rw [leBytes_lane _ _ (by omega), getD_lane, dif_pos n.isLt, Fin.getElem_fin]
    · rfl
  · simp [hn]

/-- A store of lanes issues as its row says. -/
theorem storesLanes_of {i : Instr} {l : List VReg} {k : KReg} {d : VReg} {cost : Nat} {a : State → Word → Fin 48 → Word}
    {f : Word → State → List (Nat × Word)} (hf : ∀ b s, f b s = (lanesOf (s.me.rk k)).map fun n => (n.val, a s b n))
    (hi : issueOf i = some (withSrc l none (withBase pk q fun b s => if ! plainBase b then s.wAlign b else
      wStore 4 (f b s) (fun n => leBytes 4 ((s.me.src d).toList.getD n 0#32).toNat) cost s)))
    (ha : ∀ s t b, s.AtBase q t → a t b = a s b) : StoresLanes i l pk q k d cost a := by
  intro s b hc hb hp ⟨hfree, hin⟩
  obtain ⟨ht, hs⟩ := based_same hb
  have hl : f b (s.based q b) = (lanesOf (s.me.rk k)).map fun n => (n.val, a s b n) := by rw [hf, ht.rk, ha s _ b ht]
  have hmem : ∀ p ∈ f b (s.based q b), ∃ n, laneMask (s.me.rk k) n = true ∧ p = (n.val, a s b n) := by
    intro p hm
    rw [hl] at hm
    obtain ⟨n, hn, rfl⟩ := List.mem_map.1 hm
    exact ⟨n, mem_lanesOf.1 hn, rfl⟩
  have hstore : s.LaneStore q 4 (f b (s.based q b)) := by
    refine ⟨hfree, fun p hm => ?_, fun p hm => ?_⟩ <;> obtain ⟨n, hn, rfl⟩ := hmem p hm
    · exact (hin n hn).1
    · exact (hin n hn).2
  obtain ⟨u, hu, he, ho⟩ := wStore_local (by decide) hstore ht hs (fun n => leBytes 4 (((s.based q b).me.src d).toList.getD n 0#32).toNat) cost
  have := issued_atBase (pk := pk) (cost := cost) (lat := 1) (tgt := .none) (fl := 0#5) hc hb (k := fun b s => if ! plainBase b then s.wAlign b else
    wStore 4 (f b s) (fun n => leBytes 4 ((s.me.src d).toList.getD n 0#32).toNat) cost s) (t := u) (by
      rw [hp, if_neg (by decide), he]) hu
  rw [if_pos ⟨rfl, rfl⟩] at this
  refine ⟨_, _, _, _, exec_atHead hi s hc.1, this, fun o => ?_⟩
  rw [ho, hl, ht.src]
  exact laneByte_lanes _ _ _ _ _

/-! Traps (06 R108, R110). -/

/-- A W trap of a core whose writes have not landed waits. -/
theorem wTrap_waits {c : Nat} {cause : BitVec 8} {pc v : Word} (hs : (t.core c).stat = .run) (hw : (t.core c).wpend ≠ []) :
    ((t.wTrap c cause pc v).core c).stat = .trapping ⟨cause, pc, v, true⟩ ∧ (t.wTrap c cause pc v).cur = t.cur := by
  have hu : t.unask c = t := by
    unfold State.unask
    rw [hs]
  have ha : t.asked c = false := by
    unfold State.asked
    rw [hs]
  unfold State.wTrap
  rw [hs, ha, if_neg (by simp)]
  dsimp only
  rw [hu, if_neg]
  · rw [State.core_upd_same]
    exact ⟨rfl, rfl⟩
  · rw [State.core_upd_same]
    unfold Core.wDrained
    simp [hw]

/-- A W access that traps once its base is at hand leaves the core trapping. -/
theorem traps_atBase {i : Instr} {l : List VReg} {d : Option VReg} {k : Word → State → WOut} {cause : BitVec 8} {v : Word}
    (hi : issueOf i = some (withSrc l d (withBase pk q k))) (hc : s.CanIssue l d) (hb : s.HasBase q b) (ht : s.AtBase q t)
    (hk : k b (s.based q b) = .other (t.wTrap t.cur cause t.head.pc v)) (hw : s.me.wpend ≠ []) (hs : s.me.stat = .run) :
    ∃ u, exec i s = .next u ∧ u.me.stat = .trapping ⟨cause, s.head.pc, v, true⟩ := by
  refine ⟨_, exec_atHead hi s hc.1, ?_⟩
  obtain ⟨-, -, -, -, -, hst, hwp, -⟩ := ht.reads
  obtain ⟨h1, h2⟩ := wTrap_waits (c := t.cur) (cause := cause) (pc := t.head.pc) (v := v) (by rw [← State.me_eq, hst, hs])
    (by rw [← State.me_eq, hwp]; exact hw)
  unfold State.wIssue
  rw [withSrc_ok hc, withBase_has hb, hk]
  show ((t.wTrap t.cur cause t.head.pc v).core (t.wTrap t.cur cause t.head.pc v).cur).stat = _
  rw [h2, h1, ht.pc]

/-! Blocks (06 R110, R111). -/

/-- A block within the own scratchpad is one lane of 64 bytes. -/
theorem wLoad_block {ea : Word} (hsp : InSp ea 64) (hf : (s.sawBase q).SpFree s.cur true) (hm : s.me.wmBlocks ea 64 = false)
    (hw : s.me.Whole ea.toNat 64) (ht : s.AtBase q t) (hs : s.SameSp t) (fin : List (Nat × List Byte) → State → WOut) :
    ∃ u, s.AtBase q u ∧ s.SameSp u ∧ wLoad 64 [(0, ea)] fin t = fin [(0, Memory.read s.me.sp ea.toNat 64)] u := by
  refine wLoad_local (by decide) ⟨hf, fun p hp => ?_, fun p hp => ?_, fun p hp => ?_⟩ ht hs fin <;> rw [List.mem_singleton.1 hp]
  · exact hsp
  · exact hm
  · exact hw

theorem length_blkBytes (fmt sc : BitVec 8) (pay : BitVec 480) : (blkBytes fmt sc pay).length = 64 := by
  simp [blkBytes, leBytes_length]

/-- The lanes of `vbld`. -/
def bldLanes (t : BTy) (x : Blk) (txc : Bool) (m : BitVec 48) : Lanes × BitVec 5 := lanesF m fun n => blkLane t x txc n.val

section
variable {k : KReg} {ty : BTy} {o : BitVec 12} {d : VReg}

theorem vbld_block (hc : s.CanIssue [] (some d)) (hb : s.HasBase q b) (hp : plainBase b = true) (hsp : InSp (vmAddr b o) 64)
    (hf : (s.sawBase q).SpFree s.cur true) (hm : s.me.wmBlocks (vmAddr b o) 64 = false) (hw : s.me.Whole (vmAddr b o).toNat 64)
    (x : Blk) (hx : x = blkOf (Memory.read s.me.sp (vmAddr b o).toNat 64)) :
    (x.eval (accepts ty) ≤ 1 → ∃ u y fl, exec (.vbld k ty pk q o d) s = .next u ∧
      FlagsOf fl (s.me.rk k) (fun n => (blkLane ty x s.me.c.txc n.val).2) ∧ (∀ n : Fin 48, y[n] = (blkLane ty x s.me.c.txc n.val).1) ∧
      s.Issued u 1 [⟨s.cyc + 7, .v d (s.me.rk k) y, fl⟩] fun c => s.afterBase pk q c) ∧
    (1 < x.eval (accepts ty) → s.me.wpend ≠ [] → s.me.stat = .run → ∃ u, exec (.vbld k ty pk q o d) s = .next u ∧ u.me.stat = .trapping
      ⟨0x05#8, s.head.pc, vmAddr b o + BitVec.ofNat 64 (x.eval (accepts ty)), true⟩) := by
  obtain ⟨ht, hs⟩ := based_same hb
  obtain ⟨u, hu, ⟨h1, h2, h3⟩, he⟩ := wLoad_block hsp hf hm hw ht hs fun l s =>
    let x := blkOf ((l.head?.map (·.2)).getD [])
    if x.eval (accepts ty) ≤ 1 then
      .done s 1 8 (.v d (s.me.rk k) (bldLanes ty x s.me.c.txc (s.me.rk k)).1) (bldLanes ty x s.me.c.txc (s.me.rk k)).2
    else s.wBlock (vmAddr b o) (x.eval (accepts ty))
  dsimp only [List.head?_cons, Option.map_some, Option.getD_some] at he
  rw [← hx] at he
  refine ⟨fun hx1 => ?_, fun hx1 hwp hst => ?_⟩
  · obtain ⟨v, hv, this⟩ := issues_atBase (i := .vbld k ty pk q o d) rfl hc hb (cost := 1) (lat := 8)
      (tgt := .v d (s.me.rk k) (bldLanes ty x s.me.c.txc (s.me.rk k)).1) (fl := (bldLanes ty x s.me.c.txc (s.me.rk k)).2) (t := u) (by
        dsimp only
        rw [hp, if_neg (by decide)]
        refine he.trans ?_
        rw [if_pos hx1, hu.rk, hu.reads.2.2.1]) hu
    refine ⟨v, (bldLanes ty x s.me.c.txc (s.me.rk k)).1, (bldLanes ty x s.me.c.txc (s.me.rk k)).2, hv, lanesF_flags _ _,
      fun n => lanesF_lane _ _ n, ?_⟩
    rw [if_neg fun h => WTgt.noConfusion h.1] at this
    refine Issued_congr ?_ this
    rw [popStrips_nil, h1, h2, h3]
    unfold State.afterBase Core.tookBase
    split <;> split <;> rfl
  · refine traps_atBase rfl hc hb hu ?_ hwp hst
    rw [hp, if_neg (by decide)]
    refine he.trans ?_
    rw [if_neg (by omega)]
    rfl

/-- A base with reserved bits (06 R108). -/
theorem vld_base {t : VTy} (hc : s.CanIssue [] (some d)) (hb : s.HasBase q b) (hp : plainBase b = false) (hwp : s.me.wpend ≠ [])
    (hst : s.me.stat = .run) : ∃ u, exec (.vld k t pk q o d) s = .next u ∧ u.me.stat = .trapping ⟨0x02#8, s.head.pc, b, true⟩ := by
  refine traps_atBase rfl hc hb (based_same hb).1 ?_ hwp hst
  rw [hp]
  rfl

/-- The source of an element of a block that is stored, if its lane is in the mask (06 R111). -/
def blkElem (ty : BTy) (m : BitVec 48) (x : Lanes) (n : Nat) : Option FV :=
  if five ty then if m.getLsbD (n / 2) then some (bf16Val ((x.toList.getD (n / 2) 0#32).extractLsb' (16 * (n % 2)) 16)) else none
  else if m.getLsbD n then some (f32Val (x.toList.getD n 0#32)) else none

/-- What `vbst` stores: the payload with its flags. -/
def blkPay (ty : BTy) (c : Core) (k : KReg) (d : VReg) (b : Word) : BitVec 480 × BitVec 5 :=
  packBlk ty c.c.txc (b.extractLsb' 56 8).toNat (b.extractLsb' 0 4).toInt (blkElem ty (c.rk k) (c.src d))

theorem half_extract (x : Lane) (n : Nat) : (if n % 2 = 0 then lo16 x else hi16 x) = x.extractLsb' (16 * (n % 2)) 16 := by
  rcases Nat.mod_two_eq_zero_or_one n with h | h <;> rw [h] <;> rfl

/-- A block is stored whole. -/
theorem vbst_puts (hc : s.CanIssue [d] none) (hb : s.HasBase q b) (h1 : bits b 5 4 = 0) (h2 : five ty = false → bits b 3 0 = 0)
    (hsp : InSp (vmAddr b o) 64) (hf : (s.sawBase q).SpFree s.cur true) (ha : 0x80 ≤ (vmAddr b o).toNat) (bs : List Byte) (fl : BitVec 5)
    (hl : bs.length = 64)
    (hbs : (b.extractLsb' 56 8 = 0xFF#8 ∧ bs = blkBytes (classFmt ty) 0xFF#8 0#480 ∧ fl = 0#5) ∨
      (b.extractLsb' 56 8 ≠ 0xFF#8 ∧ ¬ (five ty = true ∧ (((b.extractLsb' 56 8).toNat : Int) + (b.extractLsb' 0 4).toInt < 0 ∨
          ((b.extractLsb' 56 8).toNat : Int) + (b.extractLsb' 0 4).toInt > 254)) ∧
        bs = blkBytes (if five ty then classFmt ty ||| (b.extractLsb' 0 4).setWidth 8 else classFmt ty) (b.extractLsb' 56 8) (blkPay ty s.me k d b).1 ∧
        fl = (blkPay ty s.me k d b).2)) :
    ∃ u sp lt ups, exec (.vbst k ty pk q o d) s = .next u ∧
      s.Issued u 2 (if fl = 0#5 then [] else [⟨s.cyc, .none, fl⟩]) (fun c => { (s.afterBase pk q c).popStrips [d] with sp := sp, late := lt, ups := ups }) ∧
      ∀ x, Memory.get sp x = if (vmAddr b o).toNat ≤ x ∧ x < (vmAddr b o).toNat + 64 then bs.getD (x - (vmAddr b o).toNat) 0#8
        else Memory.get s.me.sp x := by
  obtain ⟨ht, hs⟩ := based_same hb
  have hstore : s.LaneStore q 64 [(0, vmAddr b o)] := by
    refine ⟨hf, fun p hp => ?_, fun p hp => ?_⟩ <;> rw [List.mem_singleton.1 hp]
    · exact hsp
    · exact ha
  obtain ⟨u, hu, hsu, he, hh⟩ := laneStore_checks (by decide) hstore ht
  obtain ⟨v, hv, hbv, ho⟩ := storeLanes (n := 64) [(0, vmAddr b o)] (fun _ => bs) ((s.based q b).who (s.based q b).cur true).dom 0#5
    ((who_core _ _ true).trans ht.cur) (who_w _ _ true) hf u hu
  have hn : ¬ (bits b 5 4 ≠ 0 ∨ (! five ty) = true ∧ bits b 3 0 ≠ 0) := by
    rintro (h | ⟨h, h'⟩)
    · exact h h1
    · exact h' (h2 (by simpa using h))
  have hown : ([(0, vmAddr b o)].map (lanePiece u.cur 64)).all (fun p => ownSp u.cur p.2) = true := by simp [ownSp, lanePiece]
  obtain ⟨w, hw, hi⟩ := issues_atBase (i := .vbst k ty pk q o d) rfl hc hb (cost := 2) (lat := 1) (tgt := .none) (fl := fl) (t := v) (by
      dsimp only
      rw [if_neg hn, he]
      dsimp only
      rw [if_neg (by rw [hh]; decide), hown, if_pos rfl]
      rcases hbs with ⟨hx, rfl, rfl⟩ | ⟨hx, hx', rfl, rfl⟩
      · rw [if_pos hx, ← hv] <;> rfl
      · rw [if_neg hx, if_neg hx', ← hv, hu.rk, hu.src, hu.reads.2.2.1]
        unfold blkPay blkElem
        simp only [half_extract] <;> rfl) hbv
  refine ⟨w, _, _, _, hw, by simpa using hi, fun x => ?_⟩
  rw [ho, hsu.1, hs.1]
  unfold laneByte
  rw [List.foldl_cons, List.foldl_nil, hl]

end

/-- Settles O36: the base is read, the lanes pass their checks in the own scratchpad, and the bytes are read or written there. -/
theorem vectorMemory : Obligations.VectorMemory := by
  refine ⟨⟨fun k t p q o d => loadsLanes_of (fun _ _ => by unfold runAddrs; rfl) rfl fun _ _ _ _ => rfl,
    fun k t p q v d => loadsLanes_of (fun _ _ => by unfold gathAddrs; rfl) rfl fun s t b h => ?_, fun s k t p q o d b hc hb hp hsp hf hm hw => ?_,
    fun s k t p q o d b hc hb hp hwp hst => vld_base hc hb hp hwp hst⟩,
    fun k t p q o d => storesLanes_of (fun _ _ => by unfold runAddrs; rfl) rfl fun _ _ _ _ => rfl,
    fun k t p q v d => storesLanes_of (fun _ _ => by unfold gathAddrs; rfl) rfl fun s t b h => ?_, fun s k t p q o d b hc hb h1 h2 hsp hf ha => ?_⟩
  · rw [h.src]
  · exact vbld_block hc hb hp hsp hf hm hw _ rfl
  · rw [h.src]
  · intro sc dl m elem pay done
    refine ⟨fun h => vbst_puts hc hb h1 h2 hsp hf ha _ _ (length_blkBytes _ _ _) (.inl ⟨h, rfl, rfl⟩),
      fun h h' => vbst_puts hc hb h1 h2 hsp hf ha _ _ (length_blkBytes _ _ _) (.inr ⟨h, ?_, rfl, rfl⟩)⟩
    rintro ⟨hx, hy⟩
    have h3 : 0 ≤ ((b.extractLsb' 56 8).toNat : Int) + (b.extractLsb' 0 4).toInt ∧
      ((b.extractLsb' 56 8).toNat : Int) + (b.extractLsb' 0 4).toInt ≤ 254 := h' hx
    omega

end

end Sys2Proof.Machine
end

section
/-! Stream mode and its strips (12 R228, R229). -/

namespace Sys2Proof.Machine

section
variable {s : State} {d : BitVec 3}

/-! `smode` and `soff`. -/

theorem vPending_none {c : Core} {v : VReg} (h : ∀ p ∈ c.wpend, ∀ m x, p.tgt ≠ .v v m x) : c.vPending v = false := by
  unfold Core.vPending
  rw [List.any_eq_false]
  intro p hp
  have := h p hp
  cases ht : p.tgt with
  | v r m x =>
    by_cases hr : r = v
    · exact absurd (hr ▸ ht) (this m x)
    · simpa using hr
  | k => simp
  | q => simp
  | none => simp

theorem smode_past (hp : s.phase = .w) (hv : s.me.vPending (3#2 ++ d) = false) (ho : 0x80000 < s.head.cst.toNat + 32) (c : CIx) :
    exec (.smode c d) s =
      .next { s.wTrap s.cur 0x09#8 s.head.pc (BitVec.ofNat 64 ((3#2 ++ d : VReg).toNat * 256 + 1)) with phase := .s } := by
  have hf : issueSmode d s = .other (s.strTrap (3#2 ++ d) 1) := by
    unfold issueSmode strReg
    dsimp only
    rw [hv, if_neg Bool.false_ne_true, if_pos ho]
  rw [exec_atHead (f := issueSmode d) rfl s hp]
  unfold State.wIssue
  rw [hf]
  rfl

/-- The stream that a good descriptor opens. -/
def smodeStr (s : State) (k : Core) (d : BitVec 3) (r : LayRec) : Stream :=
  ⟨s.me.spWord (s.head.cst.toNat + 8), recCnt r, recSs r, some (s.me.spWord (s.head.cst.toNat + 16)), [],
    ((tGet k.str (3#2 ++ d : VReg).toNat).map (·.last)).getD (k.rv (3#2 ++ d)), none⟩

/-- The register in stream mode. -/
def Core.openStr (s : State) (d : BitVec 3) (r : LayRec) (k : Core) : Core := { k with str := tPut k.str (3#2 ++ d : VReg).toNat (smodeStr s k d r) }

theorem smode_opens (hp : s.phase = .w) (hv : s.me.vPending (3#2 ++ d) = false) {r : LayRec} (ho : s.head.cst.toNat + 32 ≤ 0x80000)
    (h0 : s.me.spWord (s.head.cst.toNat + 24) = 0#64) (h1 : bits (s.me.spWord (s.head.cst.toNat + 16)) 63 60 = 0)
    (h2 : (s.me.spWord s.head.cst.toNat).toNat % 128 = 0) (hr : s.readRec (s.who s.cur true) (s.me.spWord s.head.cst.toNat) = .ok r s)
    (hs : recSealed r = true) (hsh : recShaped r = true) (hrun : recRun r = 192) (hg : recGran r ≤ 4)
    (hi : iterOk (recCnt r) (s.me.spWord (s.head.cst.toNat + 16)) = true) (c : CIx) :
    ∃ t, exec (.smode c d) s = .next t ∧
      s.Issued t 1 [] fun k => { k with str := tPut k.str (3#2 ++ d : VReg).toNat (smodeStr s s.me d r) } := by
  have hf : issueSmode d s = .done (s.updMe (Core.openStr s d r)) 1 1 .none 0#5 := by
    unfold issueSmode strReg
    dsimp only
    rw [hv, if_neg Bool.false_ne_true, if_neg (by omega), if_neg (by simp only [h0, h1, h2]; simp), hr]
    dsimp only
    rw [hs, if_neg (by decide), hsh, hi, if_neg (by simp only [hrun]; simp; omega)]
    rfl
  have := wIssue_upd s _ 1 1 .none 0#5 _ hf rfl rfl rfl rfl
  rw [if_pos ⟨rfl, rfl⟩] at this
  exact ⟨_, exec_atHead rfl s hp, Issued_congr rfl this⟩

theorem soff_none (hp : s.phase = .w) (h : tGet s.me.str (3#2 ++ d : VReg).toNat = none) :
    ∃ t, exec (.soff d) s = .next t ∧ s.Issued t 1 [] id := by
  have hf : issueSoff d s = .done s 1 1 .none 0#5 := by
    unfold issueSoff strReg
    dsimp only
    rw [h]
  have := wIssue_done s s (issueSoff d) 1 1 .none 0#5 id hf rfl (fun _ _ => rfl) (.refl _) s.me.wbuf rfl rfl
  rw [if_pos ⟨rfl, rfl⟩] at this
  exact ⟨_, exec_atHead rfl s hp, this⟩

/-- A core whose register holds the strip popped last. -/
def Core.closeStr (v : VReg) (x : Stream) (c : Core) : Core :=
  { c with str := tDel c.str v.toNat, r := { c.r with v := c.r.v.set v.toNat x.last v.isLt } }

theorem closeStr_rv (v u : VReg) (x : Stream) (c : Core) : (c.closeStr v x).rv u = if u = v then x.last else c.rv u := by
  unfold Core.rv Core.closeStr
  dsimp only
  rw [Vector.getElem_set]
  exact if_congr (by rw [eq_comm, BitVec.toNat_inj]) rfl rfl

theorem soff_closes (hp : s.phase = .w) {x : Stream} (h : tGet s.me.str (3#2 ++ d : VReg).toNat = some x) :
    ∃ t, exec (.soff d) s = .next t ∧ s.Issued t 1 [] (Core.closeStr (3#2 ++ d) x) := by
  have hf : issueSoff d s = .done (s.updMe (Core.closeStr (3#2 ++ d) x)) 1 1 .none 0#5 := by
    unfold issueSoff strReg
    dsimp only
    rw [h]
    rfl
  have := wIssue_upd s _ 1 1 .none 0#5 _ hf rfl rfl rfl rfl
  rw [if_pos ⟨rfl, rfl⟩] at this
  exact ⟨_, exec_atHead rfl s hp, this⟩

/-! The fetch of a strip. -/

theorem seeLate_frame (s : State) (c : Nat) : (s.seeLate c).mem = s.mem ∧ ((s.seeLate c).core c).str = (s.core c).str := by
  unfold State.seeLate
  split
  · exact ⟨rfl, rfl⟩
  · rw [State.core_upd_same]
    exact ⟨rfl, rfl⟩

/-- The streamer reads a flat run in one piece. -/
theorem readPieces_flat {ps : List Piece} {q n key : Nat} (w : Who) (a : Word) (hf : Flat ps q n) (hk : 1 < key) :
    s.readPieces w key a n (.ok ps s) = .ok (Memory.read s.mem q n) (s.seeLate w.core) := by
  unfold State.readPieces
  dsimp only
  rw [anyPeer_flat hf, if_neg Bool.false_ne_true, if_pos hk]
  have := runBytes_flat (s := s.seeLate w.core) (c := w.core) hf n .none
  unfold State.runBytes at this
  rw [anyPeer_flat hf, if_neg Bool.false_ne_true, (seeLate_frame s w.core).1] at this
  rw [Option.some.inj this]

/-- The lanes of 192 bytes. -/
def stripLanes (bs : List Byte) : Lanes := Vector.ofFn fun i => BitVec.ofNat 32 (leNat ((bs.drop (4 * i.val)).take 4))

theorem stripLanes_read (m : List Host.Cell) (q : Nat) (n : Fin 48) :
    (stripLanes (Memory.read m q 192))[n] = BitVec.ofNat 32 (leNat (Memory.read m (q + 4 * n.val) 4)) := by
  have := n.isLt
  unfold stripLanes
  rw [Fin.getElem_fin, Vector.getElem_ofFn, Memory.read_drop _ _ _ _ (by omega), Memory.read_take _ _ _ _ (by omega)]

theorem stripFetch_takes {c : Nat} {x : Stream} {it : Word} {ps : List Piece} {q : Nat} (hx : tGet (s.core c).str (3#2 ++ d : VReg).toNat = some x)
    (hn : x.next = some it) (hl : x.buf.length < 4) (hb : x.bad = none)
    (hc : s.chkRun (s.who c true) .st .strip (s.taskFps (s.who c true).task) (runParts 192 (x.base + BitVec.ofInt 64 (nestSum (ints x.ss) it)) 192) =
      .ok ps s) (hf : Flat ps q 192) :
    ∃ t, exec (.stripFetch c d) s = .next t ∧
      tGet (t.core c).str (3#2 ++ d : VReg).toNat =
        some { x with buf := x.buf ++ [stripLanes (Memory.read s.mem q 192)], next := iterNext x.cnt it } ∧ t.mem = s.mem := by
  refine ⟨(s.seeLate c).upd c fun y => { y with
    str := tPut y.str (3#2 ++ d : VReg).toNat { x with buf := x.buf ++ [stripLanes (Memory.read s.mem q 192)], next := iterNext x.cnt it },
    pread := tDel y.pread (2 + d.toNat) }, ?_, ?_, (seeLate_frame s c).1⟩
  · show execStripFetch c d s = _
    unfold execStripFetch strReg
    dsimp only
    rw [hx]
    dsimp only
    rw [hn]
    dsimp only
    rw [if_neg (by rw [hb]; simp; omega), hc, readPieces_flat _ _ hf (by omega), who_core]
    rfl
  · rw [State.core_upd_same]
    exact tGet_tPut_same _ _ _

end

/-- Settles O38: a good descriptor opens the stream, `soff` closes it, and a fetch appends the 48 words of the next run. -/
theorem streamMode : Obligations.StreamMode := by
  intro s d v
  refine ⟨fun hp hw => ?_, fun hp => ⟨soff_none hp, fun x hx => ?_⟩, fun c x it ps q a hx hn hl hb => ?_⟩
  · intro off ra start
    have hv := vPending_none hw
    refine ⟨smode_past hp hv, fun r ho h0 h1 h2 hr hs hsh hrun hg hi c => ?_⟩
    obtain ⟨t, he, ht⟩ := smode_opens hp hv ho h0 h1 h2 hr hs hsh hrun hg hi c
    exact ⟨t, smodeStr s s.me d r, he, ht, rfl⟩
  · obtain ⟨t, he, -, -, -, hm⟩ := soff_closes hp hx
    refine ⟨t, he, ?_⟩
    rw [hm]
    refine ⟨tGet_tDel_same _ _, (closeStr_rv v v x s.me).trans (if_pos rfl), fun u hu => (closeStr_rv v u x s.me).trans (if_neg hu), rfl, rfl⟩
  · intro w ha hc hf
    subst ha
    obtain ⟨t, he, ht, hm⟩ := stripFetch_takes hx hn hl hb hc hf
    exact ⟨t, _, he, ht, hm, stripLanes_read _ _⟩

end Sys2Proof.Machine
end

section
/-! A soft error in a block that `afil` reads (09 R175, 18 R302). -/

namespace Sys2Proof.Machine

/-- What a slice part does once its busy count has run. -/
def State.partEffect (s : State) (c : Nat) (p : Part) : State :=
  match p.fn with
  | 2 => s.doAclr c p
  | 3 => if p.as_ = p.at_ then s else s.doLinear c p true
  | 4 => if p.as_ = p.at_ then s.doScale c p (fun x => cellAdd x x) else s.doLinear c p false
  | 5 => s.doScale c p (cellScl p.md)
  | 6 => s.doRdout c p
  | 7 => s.doPubl c p
  | 9 => s.doAspl c p
  | 10 => s.doAfil c p
  | 11 => s.doMwait c p
  | _ => s

/-- The slice is idle again. -/
def State.partOver (s : State) (c : Nat) : State := s.updSl c fun l => { l with cur := none }

theorem exec_partComplete {s : State} {c e : Nat} {p : Part} (hc : (s.core c).sl.cur = some (p, e)) (he : e < s.cyc) (ha : p.isAdd = false) :
    exec (.slicePartComplete c) s = .next ((s.partOver c).partEffect c p) := by
  show execSlicePartComplete c s = _
  unfold execSlicePartComplete State.sl
  rw [hc]
  dsimp only
  rw [if_neg (by omega), ha, if_neg Bool.false_ne_true]
  unfold State.partEffect
  have hn : p.fn < 16 := (p.word.extractLsb' 28 4).isLt
  generalize p.fn = n at hn
  interval_cases n <;> rfl

/-- A block that a soft error has struck fails its check. -/
theorem spBlk_struck {x : Core} {off : Nat} (h : struck x.ups off 64 = some true) (acc : Blk → Bool) : (x.spBlk off).eval acc = 2 := by
  unfold Core.spBlk
  dsimp only
  rw [if_pos h]
  rfl

theorem core_updSl (s : State) (c : Nat) (f : Slice → Slice) : (s.updSl c f).core c = { s.core c with sl := f (s.core c).sl } :=
  State.core_upd_same s c _

/-- A slice that already has BAD keeps it; the cells stay. -/
theorem bad_cells (l : Slice) (fn : Nat) : (l.bad fn).cells = l.cells ∧ (l.bad fn).stBad = true := by
  unfold Slice.bad
  split
  · next h => exact ⟨rfl, h⟩
  · exact ⟨rfl, rfl⟩

/-- `afil` of one block that is struck leaves the cells as they are. -/
theorem doAfil_struck {s : State} {c : Nat} {p : Part} {q : Nat × Nat} (hr : rowOk p.cst = true) (he : rowEnd p.cst ≤ 0x80000)
    (hq : rowParts p.cst = [q]) (h : struck (s.core c).ups (bits p.cst 18 0) 64 = some true) :
    ((s.doAfil c p).core c).sl.cells = (s.core c).sl.cells := by
  unfold State.doAfil
  rw [hr, hq, if_neg (by simp; omega)]
  dsimp only
  simp only [List.length_cons, List.length_nil, List.range_succ, List.range_zero, List.nil_append, List.zip_cons_cons, List.zip_nil_left,
    List.map_cons, List.map_nil, Nat.mul_zero, Nat.add_zero, spBlk_struck h, List.find?_cons, Nat.reduceAdd]
  simp only [Nat.one_lt_ofNat, decide_true]
  rw [core_updSl]
  exact (bad_cells _ _).1

/-- `afil c0, a0` at the head of a W buffer, with the descriptor of one block at 0x800. -/
def afilHead : State :=
  { State.reset with phase := .w, cores := [(0, { Core.zero with wbuf := [⟨0xA000002D#32, 0x200000800#64, 0#64, 0, none, 0⟩] })] }

/-- A spill block of zeros at 0x800. -/
def zeroBlock : List Host.Cell := [(0x800, 0x40#8), (0x83E, 0x24#8), (0x83F, 0xCD#8)]

/-- A slice that has run a part, with cell 0 of tile 0 at 5, while a soft error stands in the block at 0x800. -/
def struckSlice (p : Part) : State :=
  { State.reset with
    cyc := 1
    cores := [(0, { Core.zero with res := some 0#16, sp := zeroBlock, ups := [(0x100, true)], sl := { Slice.zero with cur := some (p, 0), cells := [(0, 5#48)] } })] }

theorem zeroBlock_bytes : Memory.read zeroBlock 0x800 64 = (0x40#8 :: List.replicate 61 0#8) ++ [0x24#8, 0xCD#8] := by decide +kernel

/-- The CRC of the block, in three parts. -/
theorem zeroBlock_crc : crc16 (0x40#8 :: List.replicate 61 0#8) = 0xCD24#16 := by
  have h : (0x40#8 :: List.replicate 61 0#8 : List Byte) = (0x40#8 :: List.replicate 21 0#8) ++ List.replicate 20 0#8 ++ List.replicate 20 0#8 := by
    decide
  have h1 : List.foldl crc16Byte 0xFFFF#16 (0x40#8 :: List.replicate 21 0#8) = 19182#16 := by decide +kernel
  have h2 : List.foldl crc16Byte 19182#16 (List.replicate 20 0#8) = 11403#16 := by decide +kernel
  have h3 : List.foldl crc16Byte 11403#16 (List.replicate 20 0#8) = 0xCD24#16 := by decide +kernel
  unfold crc16
  rw [h, List.foldl_append, List.foldl_append, h1, h2, h3]

/-- The block as it stands in memory: a good spill block of part 0, of zeros. -/
theorem zeroBlock_blk : blkOf (Memory.read zeroBlock 0x800 64) = ⟨0x40#8, 0#8, 0#480, true⟩ := by
  have hp : BitVec.ofNat 480 (leNat (((Memory.read zeroBlock 0x800 64).drop 2).take 60)) = 0#480 := by decide +kernel
  have hc : BitVec.ofNat 16 (leNat (((Memory.read zeroBlock 0x800 64).drop 62).take 2)) = 0xCD24#16 := by decide +kernel
  have ht : (Memory.read zeroBlock 0x800 64).take 62 = 0x40#8 :: List.replicate 61 0#8 := by decide +kernel
  unfold blkOf
  rw [hp, hc, ht, zeroBlock_crc, zeroBlock_bytes]
  rfl

theorem struckSlice_core (p : Part) : (struckSlice p).core 0 =
    { Core.zero with res := some 0#16, sp := zeroBlock, ups := [(0x100, true)], sl := { Slice.zero with cur := some (p, 0), cells := [(0, 5#48)] } } := rfl

/-- Refutes O37: where a soft error that cannot be corrected stands in the block that `afil` reads, the slice takes it as a block whose
check fails, and does not fill the tile, though the bytes of the block are good. -/
theorem not_matrixIssue : ¬ Obligations.MatrixIssue := by
  rintro ⟨-, h⟩
  obtain ⟨-, -, -, -, -, -, -, -, -, h, -⟩ := h afilHead rfl (by decide) (by decide)
  obtain ⟨t, p, -, ⟨-, hw, hd, -⟩, hrun⟩ := h 0#8 0#4 (by decide)
  have hw : p.word = 0xA000002D#32 := hw
  have hd : p.cst = 0x200000800#64 := hd
  obtain ⟨v, hv, -, -, -, hfill⟩ := hrun (struckSlice p) 0 0 rfl Nat.zero_lt_one (by rw [struckSlice_core]; exact Option.some_ne_none _)
  rw [exec_partComplete (p := p) (e := 0) rfl Nat.zero_lt_one (by unfold Part.isAdd; rw [hw]; decide)] at hv
  have hf : p.fn = 10 := by unfold Part.fn; rw [hw]; decide
  have hv : ((struckSlice p).partOver 0).doAfil 0 p = v := by
    have := Host.Outcome.next.inj hv
    unfold State.partEffect at this
    rwa [hf] at this
  have hx : ((struckSlice p).partOver 0).core 0 =
    { Core.zero with res := some 0#16, sp := zeroBlock, ups := [(0x100, true)], sl := { Slice.zero with cells := [(0, 5#48)] } } := core_updSl _ _ _
  have hcells : (v.core 0).sl.cells = [(0, 5#48)] := by
    rw [← hv, doAfil_struck (q := (0, 0)) (by rw [hd]; decide) (by rw [hd]; decide) (by rw [hd]; decide) (by rw [hx, hd]; decide), hx]
  have hq : (rowParts afilHead.head.cst)[0]? = some (0, 0) := by decide
  have hb : blkOf (((struckSlice p).core 0).spRead 0x800 64) = ⟨0x40#8, 0#8, 0#480, true⟩ := by
    rw [struckSlice_core, spRead_local _ _ _ (by decide)]
    exact zeroBlock_blk
  obtain ⟨hgood, -⟩ := hfill (by decide) (by decide)
  have hall : ∀ i q, (rowParts afilHead.head.cst)[i]? = some q → i = 0 ∧ q = (0, 0) := by
    rw [show rowParts afilHead.head.cst = [(0, 0)] by decide]
    intro i q hi
    cases i with
    | zero => exact ⟨rfl, (Option.some.inj hi).symm⟩
    | succ i => cases hi
  have h5 := hgood (fun i q hi => by
    obtain ⟨rfl, rfl⟩ := hall i q hi
    show (blkOf (((struckSlice p).core 0).spRead 0x800 64)).eval _ ≤ 1
    rw [hb]
    decide) 0 (0, 0) 0 hq (by decide)
  have h0 : (if (blkOf (((struckSlice p).core 0).spRead 0x800 64)).isNull = true then 0#48
      else (blkOf (((struckSlice p).core 0).spRead 0x800 64)).cell 0 &&& 0x3FFFFFFFFFFF#48) = 0#48 := by
    rw [hb]
    decide
  have h0 := h5.trans h0
  unfold Slice.cell at h0
  rw [hcells] at h0
  exact absurd h0 (by decide)

end Sys2Proof.Machine
end

section
/-! Cells, headers and the ripple table of a slice (09 R173, 13 R231 to R245). -/

namespace Sys2Proof.Machine

/-! Cells and headers. -/

theorem tile_cell_number {t u : AReg} {k j : Nat} (hk : k < 1536) (hj : j < 1536) : 1536 * u.toNat + j = 1536 * t.toNat + k ↔ u = t ∧ j = k := by
  rw [← BitVec.toNat_inj]
  omega

theorem cell_setCell (l : Slice) (t u : AReg) (k j : Nat) (v : BitVec 48) (hk : k < 1536) (hj : j < 1536) :
    (l.setCell t k v).cell u j = if u = t ∧ j = k then v else l.cell u j := by
  unfold Slice.setCell Slice.cell
  dsimp only
  by_cases hv : v = 0#48
  · rw [if_pos hv, tGet_tDel]
    simp only [tile_cell_number hk hj]
    split
    · exact hv.symm
    · rfl
  · rw [if_neg hv, tGet_tPut]
    simp only [tile_cell_number hk hj]
    split <;> rfl

/-- A slice with other cells. -/
def Slice.withCells (l : Slice) (x : Tab (BitVec 48)) : Slice := { l with cells := x }

theorem setCell_frame (l : Slice) (t : AReg) (k : Nat) (v : BitVec 48) : ∃ x, l.setCell t k v = l.withCells x := ⟨_, rfl⟩

/-- Cells set one after the other: only cells change. -/
theorem foldl_setCell_frame {α : Type} (xs : List α) (t : AReg) (k : α → Nat) (v : α → BitVec 48) (l : Slice) :
    ∃ x, xs.foldl (fun (l : Slice) a => l.setCell t (k a) (v a)) l = l.withCells x := by
  induction xs generalizing l with
  | nil => exact ⟨l.cells, rfl⟩
  | cons a r ih =>
    obtain ⟨x, hx⟩ := ih (l.setCell t (k a) (v a))
    exact ⟨x, hx.trans rfl⟩

/-- A cell of another tile stays. -/
theorem foldl_setCell_other {α : Type} (xs : List α) (t u : AReg) (k : α → Nat) (v : α → BitVec 48) (hk : ∀ a ∈ xs, k a < 1536) (hu : u ≠ t)
    {j : Nat} (hj : j < 1536) (l : Slice) : (xs.foldl (fun (l : Slice) a => l.setCell t (k a) (v a)) l).cell u j = l.cell u j := by
  induction xs generalizing l with
  | nil => rfl
  | cons a r ih =>
    rw [List.foldl_cons, ih (fun b hb => hk b (List.mem_cons_of_mem _ hb)), cell_setCell _ _ _ _ _ _ (hk a (List.mem_cons_self ..)) hj,
      if_neg fun h => hu h.1]

theorem fillTile_frame (l : Slice) (t : AReg) (f : Nat → BitVec 48) : ∃ x, l.fillTile t f = l.withCells x :=
  foldl_setCell_frame (List.range 1536) t (fun k => k) f l

theorem cell_fillTile (l : Slice) (t u : AReg) (f : Nat → BitVec 48) {j : Nat} (hj : j < 1536) :
    (l.fillTile t f).cell u j = if u = t then f j else l.cell u j := by
  have key : ∀ n, n ≤ 1536 → ((List.range n).foldl (fun (m : Slice) k => m.setCell t k (f k)) l).cell u j =
      if u = t ∧ j < n then f j else l.cell u j := by
    intro n hn
    induction n with
    | zero => simp
    | succ n ih =>
      rw [List.range_succ, List.foldl_append, List.foldl_cons, List.foldl_nil, cell_setCell _ _ _ _ _ _ (by omega) hj, ih (by omega)]
      by_cases hu : u = t
      · by_cases hjn : j = n
        · rw [if_pos ⟨hu, hjn⟩, if_pos ⟨hu, by omega⟩, hjn]
        · rw [if_neg fun h => hjn h.2]
          exact if_congr (and_congr_right fun _ => by omega) rfl rfl
      · rw [if_neg fun h => hu h.1, if_neg fun h => hu h.1, if_neg fun h => hu h.1]
  exact (key 1536 (Nat.le_refl _)).trans (if_congr (and_iff_left hj) rfl rfl)

theorem cell_setTile (l : Slice) (t : AReg) (h : Tile) (u : AReg) (j : Nat) : (l.setTile t h).cell u j = l.cell u j := rfl

theorem tile_setTile (l : Slice) (t u : AReg) (h : Tile) : (l.setTile t h).tile u = if u = t then h else l.tile u := by
  unfold Slice.tile Slice.setTile
  dsimp only
  rw [Vector.getElem_set]
  exact if_congr (by rw [eq_comm, BitVec.toNat_inj]) rfl rfl

theorem tile_setTile_same (l : Slice) (t : AReg) (h : Tile) : (l.setTile t h).tile t = h := by rw [tile_setTile, if_pos rfl]

/-- A tile that is filled and gets a header. -/
theorem filled_tile (l : Slice) (t : AReg) (f : Nat → BitVec 48) (h : Tile) :
    (∀ u j, j < 1536 → ((l.fillTile t f).setTile t h).cell u j = if u = t then f j else l.cell u j) ∧
    (∀ u, ((l.fillTile t f).setTile t h).tile u = if u = t then h else l.tile u) ∧ ((l.fillTile t f).setTile t h).cur = l.cur := by
  refine ⟨fun u j hj => by rw [cell_setTile, cell_fillTile l t u f hj], fun u => ?_, ?_⟩
  · rw [tile_setTile]
    obtain ⟨x, hx⟩ := fillTile_frame l t f
    rw [hx]
    rfl
  · obtain ⟨x, hx⟩ := fillTile_frame l t f
    rw [hx]
    rfl

/-! The ripple table. -/

/-- A slice with another ripple table and other arrivals. -/
def Slice.withRip (l : Slice) (r : Tab RipEnt) (n : Nat) (a : List Arr) : Slice := { l with rip := r, ripGen := n, arrs := a }

theorem makeEntries_frame (l : Slice) (s : AReg) (dd : BitVec 8) (dc : BitVec 12) (dt : AReg) (w : Bool) (ns : List (Nat × NewSlot)) :
    ∃ r n, (l.makeEntries s dd dc dt w ns).1 = l.withRip r n l.arrs := by
  induction ns generalizing l with
  | nil => exact ⟨l.rip, l.ripGen, rfl⟩
  | cons p rs ih =>
    obtain ⟨ss, x⟩ := p
    unfold Slice.makeEntries
    split
    · exact ⟨l.rip, l.ripGen, rfl⟩
    · next e he =>
      obtain ⟨r, n, h⟩ := ih { l with rip := tPut l.rip e ⟨0#16, 0#16, dd, dc, dt, 0, s, ss, false, true, [], 64 * l.ripGen + e, w⟩, ripGen := l.ripGen + 1 }
      exact ⟨r, n, h⟩

/-- What sending ripples, marks and acknowledgements does: packets leave, and the slice itself may get an arrival. -/
structure State.Ripples (c : Nat) (s t : State) : Prop where
  frame : t = { s with cores := t.cores, net := t.net, nextId := t.nextId }
  other : ∀ d, d ≠ c → t.core d = s.core d
  core : t.core c = { s.core c with sl := { (s.core c).sl with arrs := (t.core c).sl.arrs } }

section
variable {s t u : State} {c : Nat} {ctx : Ctx}

theorem State.Ripples.refl (s : State) (c : Nat) : s.Ripples c s := ⟨rfl, fun _ _ => rfl, rfl⟩

theorem State.Ripples.trans (h : s.Ripples c t) (h' : t.Ripples c u) : s.Ripples c u := by
  refine ⟨?_, fun d hd => (h'.other d hd).trans (h.other d hd), ?_⟩
  · rw [h'.frame, h.frame]
  · rw [h'.core, h.core]

theorem State.Ripples.res (h : s.Ripples c t) : (t.core c).res = (s.core c).res := by rw [h.core]

theorem ripples_send (dev : Nat) (b : PBody) (dom : DTag) (ctx : Ctx) (src : Nat) (stag : BitVec 16) : s.Ripples c (s.send dev b dom ctx src stag) :=
  ⟨rfl, fun _ _ => rfl, rfl⟩

theorem ripples_arrive (a : Arr) : s.Ripples c (s.updSl c fun l => { l with arrs := l.arrs ++ [a] }) := by
  refine ⟨rfl, fun d hd => State.core_upd_other _ _ _ _ hd, ?_⟩
  rw [core_updSl]

/-- An arrival at the slice of a context that runs on its core. -/
theorem toSlice_resident (h : (s.core c).res = some ctx) (a : Arr) : s.toSlice c ctx a = s.updSl c fun l => { l with arrs := l.arrs ++ [a] } := by
  unfold State.toSlice
  split
  · rw [if_pos h]
  · rfl

theorem ripples_ripPkt (h : (s.core c).res = some ctx) (x : RipEnt) (q : BitVec 16) (mark psn : Bool) (cells : Tab (BitVec 48)) :
    s.Ripples c (s.ripPkt c ctx x q mark psn cells) := by
  unfold State.ripPkt
  dsimp only
  split
  · rw [toSlice_resident h]
    exact ripples_arrive _
  · exact ripples_send _ _ _ _ _ _

/-- A fold of steps that keep the resident context. -/
theorem ripples_foldl {α : Type} (f : State → α → State) (hf : ∀ (s : State) a, (s.core c).res = some ctx → s.Ripples c (f s a)) (l : List α) (s : State)
    (h : (s.core c).res = some ctx) : s.Ripples c (l.foldl f s) := by
  induction l generalizing s with
  | nil => exact .refl s c
  | cons a r ih =>
    have ha := hf s a h
    exact ha.trans (ih (f s a) (ha.res.trans h))

theorem ripples_ripGo (h : (s.core c).res = some ctx) (old : Slice) (t : AReg) (ss : Nat) (mark psn : Bool) (cells : Tab (BitVec 48)) :
    s.Ripples c (s.ripGo c ctx old t ss mark psn cells) := by
  unfold State.ripGo
  refine ripples_foldl _ (fun s p hs => ?_) _ s h
  split
  · exact ripples_ripPkt hs _ _ _ _ _
  · exact .refl s c

/-- Ripples or marks that are sent change nothing of the slice but its table and its arrivals. -/
theorem ripSend_frame (h : (s.core c).res ≠ none) (t : AReg) (ss : Nat) (mark psn : Bool) (cells : Tab (BitVec 48)) :
    ∃ r a, (s.ripSend c t ss mark psn cells) =
        { s with cores := (s.ripSend c t ss mark psn cells).cores, net := (s.ripSend c t ss mark psn cells).net,
                 nextId := (s.ripSend c t ss mark psn cells).nextId } ∧
      (∀ d, d ≠ c → (s.ripSend c t ss mark psn cells).core d = s.core d) ∧
      (s.ripSend c t ss mark psn cells).core c = { s.core c with sl := (s.core c).sl.withRip r (s.core c).sl.ripGen a } := by
  obtain ⟨x, hx⟩ := Option.ne_none_iff_exists'.1 h
  have hr : ((s.updSl c fun l => l.ripNote t ss mark psn cells).core c).res = some (((s.core c).res).getD 0#16) := by
    rw [core_updSl, hx]
    rfl
  have hg := ripples_ripGo hr (s.sl c) t ss mark psn cells
  have hc := hg.core
  rw [core_updSl] at hc
  refine ⟨_, _, hg.frame, fun d hd => (hg.other d hd).trans (State.core_upd_other _ _ _ _ hd), hc⟩

end

end Sys2Proof.Machine
end

section
/-! The effects of slice parts (09 R173 to R176, 13 R235 to R237). -/

namespace Sys2Proof.Machine

/-- What no slice part touches: memory, the registers, the part in progress, and every tile but its own. -/
structure State.PartFrame (c : Nat) (t : AReg) (s u : State) : Prop where
  mem : u.mem = s.mem
  regs : (u.core c).r = (s.core c).r
  cur : (u.core c).sl.cur = (s.core c).sl.cur
  cells : ∀ a k, a ≠ t → k < 1536 → (u.core c).sl.cell a k = (s.core c).sl.cell a k
  tiles : ∀ a, a ≠ t → (u.core c).sl.tile a = (s.core c).sl.tile a

section
variable {s : State} {c : Nat} {p : Part}

theorem partFrame_refl (t : AReg) : s.PartFrame c t s := ⟨rfl, rfl, rfl, fun _ _ _ _ => rfl, fun _ _ => rfl⟩

/-- A slice part that only replaces the slice. -/
theorem partFrame_sl {t : AReg} {f : Slice → Slice} (hc : (f (s.core c).sl).cur = (s.core c).sl.cur)
    (hk : ∀ a k, a ≠ t → k < 1536 → (f (s.core c).sl).cell a k = (s.core c).sl.cell a k)
    (ht : ∀ a, a ≠ t → (f (s.core c).sl).tile a = (s.core c).sl.tile a) : s.PartFrame c t (s.updSl c f) := by
  refine ⟨rfl, ?_, ?_, ?_, ?_⟩ <;> rw [core_updSl]
  · exact hc
  · exact hk
  · exact ht

/-- A slice part that fills its tile and gives it a header. -/
theorem partFrame_fill {t : AReg} {f : Slice → Slice} {g : Nat → BitVec 48} {h : Tile} {m : Slice} (hf : f (s.core c).sl = m.setTile t h)
    (hk : ∀ a k, k < 1536 → m.cell a k = if a = t then g k else (s.core c).sl.cell a k) (hc : m.cur = (s.core c).sl.cur)
    (ht : m.tiles = (s.core c).sl.tiles) :
    s.PartFrame c t (s.updSl c f) ∧ (∀ k, k < 1536 → ((s.updSl c f).core c).sl.cell t k = g k) ∧ ((s.updSl c f).core c).sl.tile t = h := by
  refine ⟨partFrame_sl (by rw [hf]; exact hc) (fun a k ha hk' => ?_) fun a ha => ?_, fun k hk' => ?_, ?_⟩
  · rw [hf, cell_setTile, hk a k hk', if_neg ha]
  · rw [hf, tile_setTile, if_neg ha]
    unfold Slice.tile
    simp only [ht]
  · rw [core_updSl]
    dsimp only
    rw [hf, cell_setTile, hk t k hk', if_pos rfl]
  · rw [core_updSl]
    dsimp only
    rw [hf, tile_setTile_same]

/-- A tile that is filled, whatever becomes of the ripple table. -/
theorem filled_rip {l y : Slice} {t : AReg} {g : Nat → BitVec 48} {r : Tab RipEnt} {n : Nat} (R : Tab RipEnt)
    (hy : (l.withRip r n l.arrs).fillTile t g = y) :
    (∀ a k, k < 1536 → ({ y with rip := R } : Slice).cell a k = if a = t then g k else l.cell a k) ∧ y.cur = l.cur ∧ y.tiles = l.tiles := by
  obtain ⟨x, hx⟩ := fillTile_frame (l.withRip r n l.arrs) t g
  rw [hy] at hx
  refine ⟨fun a k hk => ?_, ?_, ?_⟩
  · show y.cell a k = _
    rw [← hy, cell_fillTile _ _ _ _ hk]
    rfl
  · rw [hx]
    rfl
  · rw [hx]
    rfl

/-- A tile that is filled. -/
theorem filled_plain (l : Slice) (t : AReg) (g : Nat → BitVec 48) :
    (∀ a k, k < 1536 → (l.fillTile t g).cell a k = if a = t then g k else l.cell a k) ∧ (l.fillTile t g).cur = l.cur ∧
      (l.fillTile t g).tiles = l.tiles := by
  obtain ⟨x, hx⟩ := fillTile_frame l t g
  refine ⟨fun a k hk => cell_fillTile l t a g hk, ?_, ?_⟩ <;> rw [hx] <;> rfl

theorem aclr_effect : s.PartFrame c p.at_ (s.doAclr c p) ∧ (∀ k, k < 1536 → ((s.doAclr c p).core c).sl.cell p.at_ k = 0#48) ∧
    ((s.doAclr c p).core c).sl.tile p.at_ = { Tile.zero with dom := p.dom } :=
  let h := filled_plain (s.core c).sl p.at_ fun _ => 0#48
  partFrame_fill (m := (s.core c).sl.fillTile p.at_ fun _ => 0#48) rfl h.1 h.2.1 h.2.2

/-- The cells that a part of two tiles gives. -/
def linCell (l : Slice) (p : Part) (copy : Bool) (k : Nat) : BitVec 48 :=
  if copy then l.cell p.as_ k &&& 0x3FFFFFFFFFFF#48 else cellAdd (l.cell p.at_ k) (l.cell p.as_ k)

theorem linear_effect (copy : Bool) : s.PartFrame c p.at_ (s.doLinear c p copy) ∧
    ∀ k, k < 1536 → ((s.doLinear c p copy).core c).sl.cell p.at_ k = linCell (s.core c).sl p copy k := by
  unfold State.doLinear State.sl
  dsimp only
  obtain ⟨r, n, hr⟩ := makeEntries_frame (s.core c).sl p.as_ s.hub.dev (BitVec.ofNat 12 c) p.at_ false ((s.core c).sl.newSlots s.hub.dev c p.as_)
  rw [hr]
  generalize hy : Slice.fillTile _ _ _ = y
  exact And.imp_right And.left (partFrame_fill (g := linCell (s.core c).sl p copy) rfl (filled_rip _ hy).1 (filled_rip [] hy).2.1 (filled_rip [] hy).2.2)

/-- The slice of a tile that is scaled. -/
def scaleSl (p : Part) (f : BitVec 48 → BitVec 48) (l : Slice) : Slice :=
  (l.fillTile p.at_ fun k => f (l.cell p.at_ k)).setTile p.at_ { l.tile p.at_ with
    dom := p.dom, slots := (List.range 4).foldl (fun (v : Vector Slot 4) j =>
      let x := v.toList.getD j Slot.zero
      v.setIfInBounds j (if x.v then { x with coef := f x.coef } else x)) (l.tile p.at_).slots }

theorem doScale_eq (f : BitVec 48 → BitVec 48) : s.doScale c p f = s.updSl c (scaleSl p f) := rfl

theorem scale_effect (f : BitVec 48 → BitVec 48) : s.PartFrame c p.at_ (s.doScale c p f) ∧
    ∀ k, k < 1536 → ((s.doScale c p f).core c).sl.cell p.at_ k = f ((s.core c).sl.cell p.at_ k) := by
  obtain ⟨h1, h2, h3⟩ := filled_plain (s.core c).sl p.at_ fun k => f ((s.core c).sl.cell p.at_ k)
  rw [doScale_eq]
  obtain ⟨hf, hk, -⟩ := partFrame_fill (s := s) (c := c) (f := scaleSl p f) (m := (s.core c).sl.fillTile p.at_ fun k => f ((s.core c).sl.cell p.at_ k))
    rfl h1 h2 h3
  exact ⟨hf, hk⟩

theorem partFrame_bad (t : AReg) (fn : Nat) : s.PartFrame c t (s.updSl c fun l => l.bad fn) ∧
    ((s.updSl c fun l => l.bad fn).core c).sl.stBad = true ∧ ((s.updSl c fun l => l.bad fn).core c).sl.cells = (s.core c).sl.cells ∧
    ((s.updSl c fun l => l.bad fn).core c).sp = (s.core c).sp := by
  have hb : ∀ l : Slice, (l.bad fn).cur = l.cur ∧ (l.bad fn).cells = l.cells ∧ (l.bad fn).tiles = l.tiles := fun l => by
    unfold Slice.bad
    split <;> exact ⟨rfl, rfl, rfl⟩
  obtain ⟨h1, h2, h3⟩ := hb (s.core c).sl
  refine ⟨partFrame_sl h1 (fun a k _ _ => by unfold Slice.cell; rw [h2]) fun a _ => by unfold Slice.tile; simp only [h3], ?_⟩
  rw [core_updSl]
  exact ⟨(bad_cells _ _).2, h2, rfl⟩

/-! Output (09 R174, R175). -/

theorem outBytes_cells {l m : Slice} (h : m.cells = l.cells) (y : Nat) (d : Word) (t : AReg) : outBytes y d m t = outBytes y d l t := by
  have hc : ∀ k, m.cell t k = l.cell t k := fun k => by unfold Slice.cell; rw [h]
  unfold outBytes outElem
  simp only [hc]

theorem spillBlk_cells {l m : Slice} (h : m.cells = l.cells) (t : AReg) (r q : Nat) : spillBlk m t r q = spillBlk l t r q := by
  have hc : ∀ k, m.cell t k = l.cell t k := fun k => by unfold Slice.cell; rw [h]
  unfold spillBlk
  simp only [hc]

theorem wrote_spWrite {x y : Core} {o : Nat} {bs : List Byte} (h : y.sp = Memory.write x.sp o bs) : x.Wrote y o bs := by
  intro a
  rw [h]
  exact Memory.get_write _ _ _ _

/-- A slice part that writes the scratchpad, and then what the slice keeps of it. -/
theorem partFrame_write (t : AReg) {g : Core → Core} {f : Slice → Slice} (hg : ∀ x, (g x).r = x.r ∧ (g x).sl = x.sl)
    (hc : (f (s.core c).sl).cur = (s.core c).sl.cur) (hk : (f (s.core c).sl).cells = (s.core c).sl.cells)
    (ht : (f (s.core c).sl).tiles = (s.core c).sl.tiles) : s.PartFrame c t ((s.upd c g).updSl c f) ∧
    ((s.upd c g).updSl c f).core c = { g (s.core c) with sl := f (s.core c).sl } := by
  obtain ⟨h1, h2⟩ := hg (s.core c)
  have hcore : ((s.upd c g).updSl c f).core c = { g (s.core c) with sl := f (s.core c).sl } := by
    rw [core_updSl, State.core_upd_same, h2]
  refine ⟨⟨rfl, ?_, ?_, fun a k _ _ => ?_, fun a _ => ?_⟩, hcore⟩ <;> rw [hcore]
  · exact h1
  · exact hc
  · unfold Slice.cell
    dsimp only
    rw [hk]
  · unfold Slice.tile
    simp only [ht]

theorem rdout_effect (ho : rdoutOk p.md.toNat p.cst = true) : s.PartFrame c p.at_ (s.doRdout c p) ∧
    (s.core c).Wrote ((s.doRdout c p).core c) (bits p.cst 18 0 + 64 * (s.core c).sl.blk)
      ((outBytes p.md.toNat p.cst (s.core c).sl p.at_).1.drop (64 * (s.core c).sl.blk)) ∧
    ((s.doRdout c p).core c).c.fl = (s.core c).c.fl ||| (outBytes p.md.toNat p.cst (s.core c).sl p.at_).2 := by
  unfold State.doRdout State.sl
  dsimp only
  rw [ho, if_neg (by decide)]
  obtain ⟨hf, hc⟩ := partFrame_write (s := s) (c := c) p.at_
    (g := fun x => (x.spWrite (bits p.cst 18 0 + 64 * (s.core c).sl.blk)
      ((outBytes p.md.toNat p.cst (s.core c).sl p.at_).1.drop (64 * (s.core c).sl.blk))).raise (outBytes p.md.toNat p.cst (s.core c).sl p.at_).2)
    (f := fun l => { l with
      stChk := l.stChk || (List.range 1536).any fun k => ! (cellVal ((s.core c).sl.cell p.at_ k)).2,
      stClmp := l.stClmp || (outBytes p.md.toNat p.cst (s.core c).sl p.at_).2 &&& (flIS ||| flOF) != 0#5 })
    (fun x => ⟨rfl, rfl⟩) rfl rfl rfl
  refine ⟨hf, wrote_spWrite ?_, ?_⟩
  · exact (congrArg Core.sp hc).trans rfl
  · exact (congrArg (fun x : Core => x.c.fl) hc).trans rfl

theorem rdout_bad (ho : rdoutOk p.md.toNat p.cst = false) : s.doRdout c p = s.updSl c fun l => l.bad 6 := by
  unfold State.doRdout
  dsimp only
  rw [ho]
  rfl

theorem aspl_effect (h1 : rowOk p.cst = true) (h2 : rowEnd p.cst ≤ 0x80000) :
    s.doAspl c p = s.upd c fun x => x.spWrite (bits p.cst 18 0 + 64 * (s.core c).sl.blk) ((splBytes (s.core c).sl p).drop (64 * (s.core c).sl.blk)) := by
  unfold State.doAspl
  rw [h1, if_neg (by simp; omega)]
  rfl

theorem aspl_bad (h : rowOk p.cst = false ∨ 0x80000 < rowEnd p.cst) : s.doAspl c p = s.updSl c fun l => l.bad 9 := by
  unfold State.doAspl
  exact if_pos (by simpa using h)

theorem afil_bad (h : rowOk p.cst = false ∨ 0x80000 < rowEnd p.cst) : s.doAfil c p = s.updSl c fun l => l.bad 10 := by
  unfold State.doAfil
  exact if_pos (by simpa using h)

end

end Sys2Proof.Machine
end

section
/-! Slice parts (09 R163, R173 to R176, 13 R235 to R247). -/

namespace Sys2Proof.Machine

section
variable {s : State} {c : Nat} {p : Part}

/-! `publ` and `mwait`. -/

theorem publOpen_effect (h : p.md ≠ 1#3) : s.PartFrame c p.at_ (s.doPubl c p) ∧
    ((s.doPubl c p).core c).sl.tile p.at_ = { (s.core c).sl.tile p.at_ with st := .published, dom := p.dom } := by
  have he : s.doPubl c p = s.updSl c fun l => l.setTile p.at_ { (s.core c).sl.tile p.at_ with st := .published, dom := p.dom } := by
    unfold State.doPubl
    exact if_neg h
  rw [he]
  refine ⟨partFrame_sl rfl (fun _ _ _ _ => rfl) fun a ha => by rw [tile_setTile, if_neg ha], ?_⟩
  rw [core_updSl]
  exact tile_setTile_same _ _ _

theorem publClose_bad (h : p.md = 1#3) (hp : ((s.core c).sl.tile p.at_).st ≠ .published) : s.doPubl c p = s.updSl c fun l => l.bad 7 := by
  unfold State.doPubl State.sl
  dsimp only
  rw [if_pos h, if_pos hp]

theorem publClose_effect (h : p.md = 1#3) (hp : ((s.core c).sl.tile p.at_).st = .published) (hr : (s.core c).res ≠ none) :
    s.PartFrame c p.at_ (s.doPubl c p) ∧
      ((s.doPubl c p).core c).sl.tile p.at_ = { (s.core c).sl.tile p.at_ with st := .settled } := by
  have he : s.doPubl c p = (s.updSl c fun l => l.setTile p.at_ { (s.core c).sl.tile p.at_ with st := .settled }).ripSend c p.at_ 4 true false [] := by
    unfold State.doPubl State.sl
    dsimp only
    rw [if_pos h, if_neg (by simpa using hp)]
  rw [he]
  generalize hu : (s.updSl c fun l => l.setTile p.at_ { (s.core c).sl.tile p.at_ with st := .settled }) = u
  have huc : u.core c = { s.core c with sl := (s.core c).sl.setTile p.at_ { (s.core c).sl.tile p.at_ with st := .settled } } := by
    rw [← hu, core_updSl]
  obtain ⟨r, a, h1, h2, h3⟩ := ripSend_frame (s := u) (c := c) (by rw [huc]; exact hr) p.at_ 4 true false []
  have hm : (u.ripSend c p.at_ 4 true false []).mem = s.mem := by
    rw [h1, ← hu]
    rfl
  rw [huc] at h3
  generalize u.ripSend c p.at_ 4 true false [] = v at hm h3
  have hsl : (v.core c).sl = ((s.core c).sl.setTile p.at_ { (s.core c).sl.tile p.at_ with st := .settled }).withRip r
      ((s.core c).sl.setTile p.at_ { (s.core c).sl.tile p.at_ with st := .settled }).ripGen a := by rw [h3]
  refine ⟨⟨hm, by rw [h3], by rw [hsl]; rfl, fun a k ha hk => by rw [hsl]; rfl, fun a ha => ?_⟩, ?_⟩ <;> rw [hsl]
  · exact (tile_setTile _ _ _ _).trans (if_neg ha)
  · exact tile_setTile_same _ _ _

/-- The status word of `mwait` (09 R176). -/
def mwaitWord (l : Slice) : Word :=
  0#48 ++ l.stOpc ++ l.stFop ++ 0#4 ++ BitVec.ofBool l.stChk ++ BitVec.ofBool l.stClmp ++ BitVec.ofBool l.stBad ++ 1#1

/-- The bytes that a core reads of its scratchpad and its inbox. -/
theorem spWord_same {x y : Core} (hs : x.sp = y.sp) (hi : x.inbox = y.inbox) (o : Nat) : x.spWord o = y.spWord o := by
  have h : ∀ n o, x.spRead o n = y.spRead o n := by
    intro n
    induction n with
    | zero => exact fun _ => rfl
    | succ n ih =>
      intro o
      simp only [Core.spRead, Core.spGet, hs, hi, ih]
  unfold Core.spWord
  rw [h]

/-- The slice of a status that has been reported. -/
def Slice.reported (l : Slice) : Slice := { l with stBad := false, stChk := false, stClmp := false, stOpc := 0#4, stFop := 0#4 }

/-- A core whose status word is written. -/
def Core.writeStatus (o : Nat) (w : Word) (t : Nat) (x : Core) : Core := ((x.spWrite o (wordBytes w)).setTag o true).evalArmed o t

theorem writeStatus_frame (o : Nat) (w : Word) (t : Nat) (x : Core) : (x.writeStatus o w t).r = x.r ∧ (x.writeStatus o w t).sl = x.sl ∧
    (x.writeStatus o w t).full o = true ∧ (o + 8 ≤ 0x80000 → (x.writeStatus o w t).spWord o = w) :=
  ⟨rfl, rfl, full_setTag (x.spWrite o (wordBytes w)) o,
    fun h => (spWord_same (x := x.writeStatus o w t) (y := x.spWrite o (wordBytes w)) rfl rfl o).trans (spWord_spWrite_same x w h)⟩

theorem doMwait_eq : s.doMwait c p = (s.upd c (Core.writeStatus p.cst.toNat (mwaitWord (s.core c).sl) s.cyc)).updSl c Slice.reported := by
  unfold State.doMwait State.sl
  dsimp only
  rw [show (0#48 ++ (s.core c).sl.stOpc ++ (s.core c).sl.stFop ++ 0#4 ++ BitVec.ofBool (s.core c).sl.stChk ++ BitVec.ofBool (s.core c).sl.stClmp ++
    BitVec.ofBool (s.core c).sl.stBad ++ 1#1 : Word) = mwaitWord (s.core c).sl from rfl]
  generalize mwaitWord (s.core c).sl = w
  rfl

theorem mwait_effect : s.PartFrame c p.at_ (s.doMwait c p) ∧ ((s.doMwait c p).core c).sl = (s.core c).sl.reported ∧
    ((s.doMwait c p).core c).full p.cst.toNat = true ∧
    (p.cst.toNat + 8 ≤ 0x80000 → ((s.doMwait c p).core c).spWord p.cst.toNat = mwaitWord (s.core c).sl) := by
  rw [doMwait_eq]
  generalize mwaitWord (s.core c).sl = w
  obtain ⟨h1, h2, h3, h4⟩ := writeStatus_frame p.cst.toNat w s.cyc (s.core c)
  obtain ⟨hf, hc⟩ := partFrame_write (s := s) (c := c) p.at_ (f := Slice.reported) (g := Core.writeStatus p.cst.toNat w s.cyc)
    (fun x => ⟨rfl, rfl⟩) rfl rfl rfl
  rw [hc]
  exact ⟨hf, rfl, h3, fun h => (spWord_same rfl rfl _).trans (h4 h)⟩

/-! `afil`. -/

theorem rowParts_bound {d : Word} (h : rowOk d = true) {q : Nat × Nat} (hq : q ∈ rowParts d) : q.1 ≤ 31 ∧ q.2 ≤ 4 := by
  unfold rowOk at h
  simp only [Bool.and_eq_true, decide_eq_true_eq] at h
  obtain ⟨⟨-, hr⟩, -⟩ := h
  unfold rowParts at hq
  simp only [List.mem_flatMap, List.mem_range, List.mem_map, List.mem_filter] at hq
  obtain ⟨i, hi, n, ⟨hn, -⟩, rfl⟩ := hq
  refine ⟨by dsimp only; omega, ?_⟩
  simp only [List.mem_cons, List.not_mem_nil, or_false] at hn
  dsimp only
  omega

theorem rowPart_cell {q : Nat × Nat} (h : q.1 ≤ 31 ∧ q.2 ≤ 4) {n : Nat} (hn : n < partLen q.2) : 48 * q.1 + 10 * q.2 + n < 1536 := by
  unfold partLen at hn
  split at hn <;> omega

/-- The cells that `afil` sets. -/
def afilCells (t : AReg) (l : Slice) (bl : List ((Nat × Nat) × Blk)) : Slice :=
  bl.foldl (fun (l : Slice) q => (List.range (partLen q.1.2)).foldl (fun (l : Slice) n =>
    l.setCell t (48 * q.1.1 + 10 * q.1.2 + n) (if q.2.isNull then 0#48 else q.2.cell n &&& 0x3FFFFFFFFFFF#48)) l) l

theorem afilCells_frame (t : AReg) (bl : List ((Nat × Nat) × Blk)) (hb : ∀ q ∈ bl, q.1.1 ≤ 31 ∧ q.1.2 ≤ 4) (l : Slice) :
    (∃ x, afilCells t l bl = l.withCells x) ∧ ∀ a k, a ≠ t → k < 1536 → (afilCells t l bl).cell a k = l.cell a k := by
  unfold afilCells
  induction bl generalizing l with
  | nil => exact ⟨⟨l.cells, rfl⟩, fun _ _ _ _ => rfl⟩
  | cons q r ih =>
    rw [List.foldl_cons]
    generalize hm : (List.range (partLen q.1.2)).foldl _ l = m
    obtain ⟨x, hx⟩ := foldl_setCell_frame (List.range (partLen q.1.2)) t (fun n => 48 * q.1.1 + 10 * q.1.2 + n)
      (fun n => if q.2.isNull then 0#48 else q.2.cell n &&& 0x3FFFFFFFFFFF#48) l
    obtain ⟨⟨y, hy⟩, hc⟩ := ih (fun q hq => hb q (List.mem_cons_of_mem _ hq)) m
    rw [hm] at hx
    refine ⟨⟨y, hy.trans (by rw [hx]; rfl)⟩, fun a k ha hk => (hc a k ha hk).trans ?_⟩
    rw [← hm]
    exact foldl_setCell_other _ t a _ _ (fun n hn => rowPart_cell (hb q (List.mem_cons_self ..)) (List.mem_range.1 hn)) ha hk l

theorem afil_frame : s.PartFrame c p.at_ (s.doAfil c p) := by
  by_cases h : rowOk p.cst = false ∨ 0x80000 < rowEnd p.cst
  · rw [afil_bad h]
    exact (partFrame_bad p.at_ 10).1
  · have hr : rowOk p.cst = true := by
      by_contra hr
      exact h (.inl (by simpa using hr))
    unfold State.doAfil
    rw [if_neg (by simpa using h)]
    dsimp only
    split
    · obtain ⟨h1, h2, h3⟩ : ((s.core c).sl.bad 10).cur = (s.core c).sl.cur ∧ ((s.core c).sl.bad 10).cells = (s.core c).sl.cells ∧
          ((s.core c).sl.bad 10).tiles = (s.core c).sl.tiles := by
        unfold Slice.bad
        split <;> exact ⟨rfl, rfl, rfl⟩
      exact partFrame_sl h1 (fun a k _ _ => by unfold Slice.cell; dsimp only; rw [h2]) fun a _ => by unfold Slice.tile; simp only [h3]
    · have hb : ∀ q ∈ ((List.range (rowParts p.cst).length).zip (rowParts p.cst)).map fun q =>
          (q.2, (s.core c).spBlk (bits p.cst 18 0 + 64 * q.1)), q.1.1 ≤ 31 ∧ q.1.2 ≤ 4 := by
        intro q hq
        obtain ⟨x, hx, rfl⟩ := List.mem_map.1 hq
        exact rowParts_bound hr (List.of_mem_zip hx).2
      obtain ⟨⟨x, hx⟩, hc⟩ := afilCells_frame p.at_ _ hb (s.core c).sl
      generalize hy : afilCells p.at_ _ _ = y at hx hc
      have : s.PartFrame c p.at_ (s.updSl c fun l => (afilCells p.at_ l (((List.range (rowParts p.cst).length).zip (rowParts p.cst)).map fun q =>
          (q.2, (s.core c).spBlk (bits p.cst 18 0 + 64 * q.1)))).setTile p.at_ ((l.tile p.at_).written p.dom)) := by
        refine partFrame_sl ?_ (fun a k ha hk => ?_) fun a ha => ?_ <;> rw [hy]
        · rw [hx]
          rfl
        · exact hc a k ha hk
        · rw [tile_setTile, if_neg ha, hx]
          rfl
      exact this

end

end Sys2Proof.Machine
end

section
/-! When a slice part starts, and its end (09 R163, 13 R238 to R247). -/

namespace Sys2Proof.Machine

section
variable {s : State} {c : Nat} {p : Part} {r : List Part}

/-- Without an expired tile that is published nothing is closed. -/
theorem closeExpired_none (h : ∀ t : AReg, ((s.core c).sl.tile t).st = .published → s.expired c (s.dtag ((s.core c).sl.tile t).dom) = false) :
    s.closeExpired c = s := by
  unfold State.closeExpired
  generalize List.range 16 = l
  induction l with
  | nil => rfl
  | cons i l ih =>
    rw [List.foldl_cons]
    dsimp only
    rw [if_neg fun hx => by
      rw [State.sl, h _ hx.1] at hx
      exact absurd hx.2 Bool.false_ne_true]
    exact ih

/-- A part is taken from the inbox. -/
def Slice.popPart (l : Slice) (r : List Part) (now n : Nat) : Slice := { l with inbox := r, waitFrom := none, busy := now + n }

/-- What becomes of the part at the head by its gate. -/
def Slice.gated (l : Slice) (p : Part) (r : List Part) (now : Nat) : Gate → Slice
  | .go => { l.popPart r now p.busy with cur := some (p, now + p.busy - 1), blk := 0 }
  | .gone => l.popPart r now 0
  | .bad => (l.popPart r now p.busy).bad p.fn
  | .wait => l

theorem addFails_other (h : p.isAdd = false) : s.addFails c p = s := by
  unfold State.addFails
  rw [h, if_neg (by simp), if_neg Bool.false_ne_true]

theorem exec_partStart (hi : (s.core c).sl.inbox = p :: r) (hs : s.slIdle c = true) (hg : s.gangtoDue (rowOf c) = false)
    (ha : (s.core c).sl.arrs = []) (hp : p.isGang = false) (hadd : p.isAdd = false) (ht : p.t ≤ s.cyc)
    (hx : ∀ t : AReg, ((s.core c).sl.tile t).st = .published → s.expired c (s.dtag ((s.core c).sl.tile t).dom) = false) (hw : s.gate c p ≠ .wait) :
    exec (.slicePartStart c) s = .next (s.updSl c fun l => l.gated p r s.cyc (s.gate c p)) := by
  show execSlicePartStart c s = _
  unfold execSlicePartStart State.sl
  dsimp only
  rw [hi]
  dsimp only
  rw [hs, ha, hp, hg, if_neg (by simp; omega), closeExpired_none hx]
  cases h : s.gate c p with
  | go => rfl
  | gone => exact congrArg Host.Outcome.next (addFails_other hadd)
  | bad => exact congrArg Host.Outcome.next (addFails_other hadd)
  | wait => exact absurd h hw

/-! Gates. -/

theorem gate_gone (hadd : p.isAdd = false) (he : s.expired c (s.dtag p.dom) = true) (hf : p.fn ≠ 7) : s.gate c p = .gone := by
  unfold State.gate
  dsimp only
  rw [hadd, he, if_pos ⟨rfl, by simp [hf]⟩]

section
variable (hadd : p.isAdd = false) (he : s.expired c (s.dtag p.dom) = false)
include hadd he

theorem gate_published (hf : p.fn = 2 ∨ p.fn = 5 ∨ p.fn = 6 ∨ p.fn = 9 ∨ p.fn = 10) (hst : ((s.core c).sl.tile p.at_).st = .published) :
    s.gate c p = .bad := by
  unfold State.gate State.sl
  rcases hf with hf | hf | hf | hf | hf <;> simp [hadd, he, hf, hst]

theorem gate_settled (hf : p.fn = 2 ∨ p.fn = 5 ∨ p.fn = 6 ∨ p.fn = 9 ∨ p.fn = 10) (hst : ((s.core c).sl.tile p.at_).st = .settled) :
    s.gate c p = .go := by
  unfold State.gate State.sl
  rcases hf with hf | hf | hf | hf | hf <;> simp [hadd, he, hf, hst]

omit hadd he in
/-- A read of a settled tile needs no entries. -/
theorem ripGate_settled {l : Slice} {dev : BitVec 8} {t : AReg} (h : (l.tile t).st = .settled) : l.newSlots dev c t = [] ∧ l.ripGate dev c t = .go := by
  have hn : l.newSlots dev c t = [] := by
    unfold Slice.newSlots
    dsimp only
    rw [h]
  refine ⟨hn, ?_⟩
  unfold Slice.ripGate
  rw [hn, if_pos (by simp)]

theorem gate_linear (hf : p.fn = 3 ∨ p.fn = 4) (hst : ((s.core c).sl.tile p.at_).st = .settled)
    (hsa : ((s.core c).sl.tile p.as_).st = .settled) : s.gate c p = .go := by
  obtain ⟨hn, hg⟩ := ripGate_settled (c := c) (dev := s.hub.dev) hsa
  have hv : ((s.core c).sl.tile p.at_).valid.length ≤ 4 := by
    unfold Tile.valid
    exact (List.length_filter_le _ _).trans (by simp)
  unfold State.gate State.sl
  rcases hf with hf | hf <;> simp [hadd, he, hf, hst, hn, hg, hv]

theorem gate_open (hf : p.fn = 7) (hm : p.md ≠ 1#3) (hst : ((s.core c).sl.tile p.at_).st = .settled)
    (hr : ∀ e ∈ (s.core c).sl.rip, e.2.stile ≠ p.at_) : s.gate c p = .go := by
  have ha : ((s.core c).sl.rip.any fun e => e.2.v && e.2.stile == p.at_ && e.2.sslot == 4) = false := by
    rw [List.any_eq_false]
    intro e h
    simp [hr e h]
  unfold State.gate State.sl
  simp only [hadd, Bool.false_eq_true, if_false]
  rw [ha]
  simp [he, hf, hm, hst]

theorem gate_report (hf : p.fn = 7 ∧ p.md = 1#3 ∨ p.fn = 11) (hg : (s.row (rowOf c)).gangs = []) : s.gate c p = .go := by
  unfold State.gate
  rcases hf with ⟨hf, hm⟩ | hf
  · simp [hadd, he, hf, hm, hg]
  · simp [hadd, he, hf, hg]

theorem gate_still (hf : p.fn = 8) (h1 : bits p.cst 63 16 = 0) (h2 : bits p.cst 15 0 ≠ 0) (hst : ∀ t, ((s.core c).sl.tile t).st = .settled) :
    s.gate c p = .go := by
  unfold State.gate State.sl
  simp [hadd, he, hf, h1, h2, hst]

end

/-! The end of a part. -/

/-- A slice part that only writes the scratchpad. -/
theorem partFrame_upd {t : AReg} {g : Core → Core} (hg : ∀ x, (g x).r = x.r ∧ (g x).sl = x.sl) : s.PartFrame c t (s.upd c g) := by
  obtain ⟨h1, h2⟩ := hg (s.core c)
  refine ⟨rfl, ?_, ?_, fun a k _ _ => ?_, fun a _ => ?_⟩ <;> rw [State.core_upd_same]
  · exact h1
  · rw [h2]
  · rw [h2]
  · rw [h2]

/-! The effect of each function. -/

theorem effect_aclr (hf : p.fn = 2) : s.partEffect c p = s.doAclr c p := by
  unfold State.partEffect
  rw [hf] <;> rfl

theorem effect_acpy (hf : p.fn = 3) (h : p.as_ ≠ p.at_) : s.partEffect c p = s.doLinear c p true := by
  unfold State.partEffect
  rw [hf]
  exact if_neg h

theorem effect_radd (hf : p.fn = 4) :
    s.partEffect c p = if p.as_ = p.at_ then s.doScale c p (fun x => cellAdd x x) else s.doLinear c p false := by
  unfold State.partEffect
  rw [hf] <;> rfl

theorem effect_rscl (hf : p.fn = 5) : s.partEffect c p = s.doScale c p (cellScl p.md) := by
  unfold State.partEffect
  rw [hf] <;> rfl

theorem effect_rdout (hf : p.fn = 6) : s.partEffect c p = s.doRdout c p := by
  unfold State.partEffect
  rw [hf] <;> rfl

theorem effect_publ (hf : p.fn = 7) : s.partEffect c p = s.doPubl c p := by
  unfold State.partEffect
  rw [hf] <;> rfl

theorem effect_aspl (hf : p.fn = 9) : s.partEffect c p = s.doAspl c p := by
  unfold State.partEffect
  rw [hf] <;> rfl

theorem effect_afil (hf : p.fn = 10) : s.partEffect c p = s.doAfil c p := by
  unfold State.partEffect
  rw [hf] <;> rfl

theorem effect_mwait (hf : p.fn = 11) : s.partEffect c p = s.doMwait c p := by
  unfold State.partEffect
  rw [hf] <;> rfl

/-- `radd` gives the sum, of a tile and itself too. -/
theorem radd_effect (hf : p.fn = 4) {k : Nat} (hk : k < 1536) :
    ((s.partEffect c p).core c).sl.cell p.at_ k = cellAdd ((s.core c).sl.cell p.at_ k) ((s.core c).sl.cell p.as_ k) := by
  rw [effect_radd hf]
  split
  · next h => rw [(scale_effect _).2 k hk, h]
  · exact (linear_effect false).2 k hk

/-- The frame of every slice part. -/
theorem partEffect_frame (hr : (s.core c).res ≠ none) : s.PartFrame c p.at_ (s.partEffect c p) := by
  unfold State.partEffect
  split
  · exact aclr_effect.1
  · split
    · exact partFrame_refl _
    · exact (linear_effect true).1
  · split
    · exact (scale_effect _).1
    · exact (linear_effect false).1
  · exact (scale_effect _).1
  · by_cases ho : rdoutOk p.md.toNat p.cst = true
    · exact (rdout_effect ho).1
    · rw [rdout_bad (by simpa using ho)]
      exact (partFrame_bad _ _).1
  · by_cases hm : p.md = 1#3
    · by_cases hst : ((s.core c).sl.tile p.at_).st = .published
      · exact (publClose_effect hm hst hr).1
      · rw [publClose_bad hm hst]
        exact (partFrame_bad _ _).1
    · exact (publOpen_effect hm).1
  · by_cases h : rowOk p.cst = false ∨ 0x80000 < rowEnd p.cst
    · rw [aspl_bad h]
      exact (partFrame_bad _ _).1
    · rw [not_or] at h
      rw [aspl_effect (by simpa using h.1) (by omega)]
      exact partFrame_upd fun _ => ⟨rfl, rfl⟩
  · exact afil_frame
  · exact mwait_effect.1
  · exact partFrame_refl _

/-! While a part is busy (04 R66, 10 R192). -/

/-- The bytes that a part writes block by block. -/
def blkOut (l : Slice) (p : Part) : List Byte :=
  if p.isAdd then []
  else if p.fn = 6 ∧ rdoutOk p.md.toNat p.cst then (outBytes p.md.toNat p.cst l p.at_).1
  else if p.fn = 9 ∧ rowOk p.cst ∧ rowEnd p.cst ≤ 0x80000 then splBytes l p
  else []

theorem blkOut_cases (hadd : p.isAdd = false) {l : Slice} {bs : List Byte}
    (h : p.fn = 6 ∧ rdoutOk p.md.toNat p.cst = true ∧ bs = (outBytes p.md.toNat p.cst l p.at_).1 ∨
       p.fn = 9 ∧ rowOk p.cst = true ∧ rowEnd p.cst ≤ 0x80000 ∧ bs = (rowParts p.cst).flatMap fun q => spillBlk l p.at_ q.1 q.2) : blkOut l p = bs := by
  unfold blkOut
  rw [hadd, if_neg Bool.false_ne_true]
  rcases h with ⟨hf, ho, rfl⟩ | ⟨hf, h1, h2, rfl⟩
  · rw [if_pos ⟨hf, ho⟩]
  · rw [if_neg (by omega), if_pos ⟨hf, h1, h2⟩]
    rfl

theorem exec_partBusy {e : Nat} (hc : (s.core c).sl.cur = some (p, e)) (he : s.cyc ≤ e) : exec (.slicePartComplete c) s = .next (s.nextBlk c p) := by
  show execSlicePartComplete c s = _
  unfold execSlicePartComplete State.sl
  rw [hc]
  exact if_pos he

theorem nextBlk_none (h : (blkOut (s.core c).sl p).length ≤ 64 * (s.core c).sl.blk) : s.nextBlk c p = s := by
  have : ((blkOut (s.core c).sl p).drop (64 * (s.core c).sl.blk)).take 64 = [] := by rw [List.drop_eq_nil_of_le h, List.take_nil]
  unfold blkOut at this
  unfold State.nextBlk State.sl
  dsimp only
  rw [this]
  rfl

theorem nextBlk_some (h : 64 * (s.core c).sl.blk < (blkOut (s.core c).sl p).length) :
    s.nextBlk c p = (s.upd c fun x => x.spWrite (bits p.cst 18 0 + 64 * (s.core c).sl.blk)
      (((blkOut (s.core c).sl p).drop (64 * (s.core c).sl.blk)).take 64)).updSl c fun l => { l with blk := l.blk + 1 } := by
  have : (((blkOut (s.core c).sl p).drop (64 * (s.core c).sl.blk)).take 64).isEmpty = false := by
    rw [List.isEmpty_eq_false_iff, ← List.length_pos_iff]
    simp
    omega
  unfold blkOut at this
  unfold State.nextBlk State.sl
  dsimp only
  rw [this]
  rfl

/-! The three clauses. -/

theorem core_partOver (s : State) (c : Nat) : (s.partOver c).core c = { s.core c with sl := { (s.core c).sl with cur := none } } := core_updSl _ _ _

/-- The slice keeps its cells and headers, whatever the gate. -/
theorem gated_frame (l : Slice) (p : Part) (r : List Part) (now : Nat) (g : Gate) :
    (l.gated p r now g).cells = l.cells ∧ (l.gated p r now g).tiles = l.tiles := by
  cases g
  · exact ⟨rfl, rfl⟩
  · exact ⟨rfl, rfl⟩
  · show ((l.popPart r now p.busy).bad p.fn).cells = _ ∧ ((l.popPart r now p.busy).bad p.fn).tiles = _
    unfold Slice.bad
    split <;> exact ⟨rfl, rfl⟩
  · exact ⟨rfl, rfl⟩

theorem gated_bad (l : Slice) (p : Part) (r : List Part) (now : Nat) :
    (l.gated p r now .bad).inbox = r ∧ (l.gated p r now .bad).cur = l.cur ∧ (l.gated p r now .bad).stBad = true ∧
      (l.stBad = false → (l.gated p r now .bad).stFop = BitVec.ofNat 4 p.fn) := by
  show ((l.popPart r now p.busy).bad p.fn).inbox = r ∧ ((l.popPart r now p.busy).bad p.fn).cur = l.cur ∧
    ((l.popPart r now p.busy).bad p.fn).stBad = true ∧ (l.stBad = false → ((l.popPart r now p.busy).bad p.fn).stFop = BitVec.ofNat 4 p.fn)
  unfold Slice.bad
  split
  · next h => exact ⟨rfl, rfl, h, fun h' => absurd (h.symm.trans h') Bool.true_eq_false_eq_False⟩
  · exact ⟨rfl, rfl, rfl, fun _ => rfl⟩

/-- A part that waits, or has waited too long, leaves the cells and the headers. -/
theorem exec_partWaits (hi : (s.core c).sl.inbox = p :: r) (hs : s.slIdle c = true) (hg : s.gangtoDue (rowOf c) = false)
    (ha : (s.core c).sl.arrs = []) (hp : p.isGang = false) (hadd : p.isAdd = false) (ht : p.t ≤ s.cyc)
    (hx : ∀ t : AReg, ((s.core c).sl.tile t).st = .published → s.expired c (s.dtag ((s.core c).sl.tile t).dom) = false) (hw : s.gate c p = .wait) :
    ∃ t, exec (.slicePartStart c) s = .next t ∧ t.mem = s.mem ∧ (t.core c).r = (s.core c).r ∧ (t.core c).sl.cells = (s.core c).sl.cells ∧
      (t.core c).sl.tiles = (s.core c).sl.tiles := by
  have he : exec (.slicePartStart c) s = .next (
      if p.counts && decide ((s.core c).sl.waitFrom.getD s.cyc + s.waitLimit c ≤ s.cyc) then s.updSl c fun l => l.gated p r s.cyc .bad
      else if p.counts then s.updSl c fun l => { l with waitFrom := some ((s.core c).sl.waitFrom.getD s.cyc) } else s) := by
    show execSlicePartStart c s = _
    unfold execSlicePartStart State.sl
    dsimp only
    rw [hi]
    dsimp only
    rw [hs, ha, hp, hg, if_neg (by simp; omega), closeExpired_none hx, hw]
    dsimp only
    split
    · exact congrArg Host.Outcome.next (addFails_other hadd)
    · split <;> rfl
  refine ⟨_, he, ?_⟩
  split
  · obtain ⟨h1, h2⟩ := gated_frame (s.core c).sl p r s.cyc .bad
    rw [core_updSl]
    exact ⟨rfl, rfl, h1, h2⟩
  · split
    · rw [core_updSl]
      exact ⟨rfl, rfl, rfl, rfl⟩
    · exact ⟨rfl, rfl, rfl, rfl⟩

theorem idle_cur (h : s.slIdle c = true) : (s.core c).sl.cur = none := by
  unfold State.slIdle State.sl at h
  simp only [Bool.and_eq_true, Option.isNone_iff_eq_none] at h
  exact h.1.1

end

/-- A part at the head starts, is refused, or is consumed, by its gate; or it waits. -/
theorem sliceParts_start (s : State) (c : Nat) (p : Part) (r : List Part) (hi : (s.core c).sl.inbox = p :: r) (hs : s.slIdle c = true)
    (hg : s.gangtoDue (rowOf c) = false) (ha : (s.core c).sl.arrs = []) (hp : p.isGang = false) (hadd : p.isAdd = false) (ht : p.t ≤ s.cyc)
    (hx : ∀ t : AReg, ((s.core c).sl.tile t).st = .published → s.expired c (s.dtag ((s.core c).sl.tile t).dom) = false) :
    ∃ t, exec (.slicePartStart c) s = .next t ∧ t.mem = s.mem ∧ (t.core c).r = (s.core c).r ∧ (t.core c).sl.cells = (s.core c).sl.cells ∧
      (t.core c).sl.tiles = (s.core c).sl.tiles ∧ (s.gate c p ≠ .wait → (t.core c).sl = (s.core c).sl.gated p r s.cyc (s.gate c p)) := by
  by_cases hw : s.gate c p = .wait
  · obtain ⟨t, hf, hm, hr, hc, htl⟩ := exec_partWaits hi hs hg ha hp hadd ht hx hw
    exact ⟨t, hf, hm, hr, hc, htl, fun h => absurd hw h⟩
  · obtain ⟨hc, htl⟩ := gated_frame (s.core c).sl p r s.cyc (s.gate c p)
    refine ⟨_, exec_partStart hi hs hg ha hp hadd ht hx hw, rfl, ?_, ?_, ?_, fun _ => ?_⟩ <;> rw [core_updSl]
    · exact hc
    · exact htl

/-- Settles O39: the gate decides whether a part starts, each effect is that of its row, and output appears block by block. -/
theorem sliceParts : Obligations.SliceParts := by
  refine ⟨?_, ?_, ?_⟩
  · intro s c p r l hi hs hg ha hp hadd ht hx
    have hcur := idle_cur hs
    obtain ⟨t, he, hm, hr, hcl, htl, hsl⟩ := sliceParts_start s c p r hi hs hg ha hp hadd ht hx
    refine ⟨t, he, ?_⟩
    intro m h
    refine ⟨hm, hr, hcl, htl, fun hx hf => ?_, fun hx => ⟨fun hf hst => ?_, ?_⟩⟩
    · have hgone := gate_gone hadd hx hf
      have hm : m = (s.core c).sl.popPart r s.cyc 0 := by
        have := hsl (by rw [hgone]; exact Gate.noConfusion)
        rw [hgone] at this
        exact this
      rw [hm]
      exact ⟨rfl, hcur, rfl⟩
    · have hbad := gate_published hadd hx hf hst
      have hm : m = (s.core c).sl.gated p r s.cyc .bad := by
        have := hsl (by rw [hbad]; exact Gate.noConfusion)
        rw [hbad] at this
        exact this
      obtain ⟨h1, h2, h3, h4⟩ := gated_bad (s.core c).sl p r s.cyc
      rw [hm]
      exact ⟨h1, h2.trans hcur, h3, h4⟩
    · intro starts
      have hgo : s.gate c p = .go → starts := by
        intro hgo
        have hm : m = (s.core c).sl.gated p r s.cyc .go := by
          have := hsl (by rw [hgo]; exact Gate.noConfusion)
          rw [hgo] at this
          exact this
        show m.inbox = r ∧ m.cur = some (p, s.cyc + p.busy - 1) ∧ m.busy = s.cyc + p.busy ∧ m.stBad = l.stBad
        rw [hm]
        exact ⟨rfl, rfl, rfl, rfl⟩
      exact ⟨fun hf hst => hgo (gate_settled hadd hx hf hst), fun hf hst hsa => hgo (gate_linear hadd hx hf hst hsa),
        fun hf hm hst hr => hgo (gate_open hadd hx hf hm hst hr), fun hf hgs => hgo (gate_report hadd hx hf hgs),
        fun hf h1 h2 hst => hgo (gate_still hadd hx hf h1 h2 hst)⟩
  · intro s c p e l hc he hadd hr
    have hx := exec_partComplete hc he hadd
    have hu := core_partOver s c
    have hfr := partEffect_frame (s := s.partOver c) (c := c) (p := p) (by rw [hu]; exact hr)
    have hcells : ((s.partOver c).core c).sl.cells = l.cells := by rw [hu]
    have hcell : ∀ a k, ((s.partOver c).core c).sl.cell a k = l.cell a k := fun a k => by unfold Slice.cell; rw [hcells]
    have htile : ∀ a, ((s.partOver c).core c).sl.tile a = l.tile a := fun a => by rw [hu]; rfl
    refine ⟨_, hx, ?_⟩
    intro m h d
    refine ⟨hfr.cur.trans (by rw [hu]), hfr.regs.trans (by rw [hu]), hfr.mem, fun k hk => ⟨fun hf => ?_, fun hf hne => ?_, fun hf => ?_, fun hf => ?_⟩,
      fun a k hne hk => (hfr.cells a k hne hk).trans (hcell a k), fun a hne => (hfr.tiles a hne).trans (htile a), fun hf => ?_, fun hf hm => ?_,
      fun hf hm hst => ?_, fun hf ho _ => ?_, fun hf h1 h2 => ?_, fun hf ho => ?_, fun hf hbad => ?_, fun hf hd => ?_⟩
    · show ((State.partEffect _ c p).core c).sl.cell _ _ = _
      rw [effect_aclr hf, aclr_effect.2.1 k hk]
    · show ((State.partEffect _ c p).core c).sl.cell _ _ = _
      rw [effect_acpy hf hne, (linear_effect true).2 k hk]
      exact congrArg (· &&& 0x3FFFFFFFFFFF#48) (hcell _ _)
    · show ((State.partEffect _ c p).core c).sl.cell _ _ = _
      rw [radd_effect hf hk, hcell, hcell]
    · show ((State.partEffect _ c p).core c).sl.cell _ _ = _
      rw [effect_rscl hf, (scale_effect _).2 k hk, hcell]
    · show ((State.partEffect _ c p).core c).sl.tile _ = _
      rw [effect_aclr hf, aclr_effect.2.2]
    · show ((State.partEffect _ c p).core c).sl.tile _ = _
      rw [effect_publ hf, (publOpen_effect hm).2, htile]
    · show ((State.partEffect _ c p).core c).sl.tile _ = _
      rw [effect_publ hf, (publClose_effect hm (by rw [htile]; exact hst) (by rw [hu]; exact hr)).2, htile]
    · have ho' := (rdout_effect (s := s.partOver c) (c := c) ho).2
      rw [outBytes_cells hcells, hu] at ho'
      rw [effect_rdout hf]
      exact ho'
    · have hsp : splBytes ((s.partOver c).core c).sl p = (rowParts p.cst).flatMap fun q => spillBlk l p.at_ q.1 q.2 := by
        unfold splBytes
        simp only [spillBlk_cells hcells]
      rw [effect_aspl hf, aspl_effect h1 h2, State.core_upd_same, hsp, hu]
      exact wrote_spWrite rfl
    · show ((State.partEffect _ c p).core c).sl.stBad = _
      rw [effect_rdout hf, rdout_bad ho]
      exact (partFrame_bad p.at_ 6).2.1
    · show ((State.partEffect _ c p).core c).sl.stBad = _ ∧ ((State.partEffect _ c p).core c).sl.cells = _
      rcases hf with hf | hf
      · rw [effect_aspl hf, aspl_bad hbad]
        exact ⟨(partFrame_bad p.at_ 9).2.1, (partFrame_bad p.at_ 9).2.2.1.trans hcells⟩
      · rw [effect_afil hf, afil_bad hbad]
        exact ⟨(partFrame_bad p.at_ 10).2.1, (partFrame_bad p.at_ 10).2.2.1.trans hcells⟩
    · obtain ⟨-, h1, h2, h3⟩ := mwait_effect (s := s.partOver c) (c := c) (p := p)
      rw [← effect_mwait hf] at h1 h2 h3
      rw [hu] at h3
      refine ⟨h3 hd, h2, ?_⟩
      show ((State.partEffect _ c p).core c).sl.stBad = _ ∧ ((State.partEffect _ c p).core c).sl.stChk = _ ∧ ((State.partEffect _ c p).core c).sl.stClmp = _
      rw [h1]
      exact ⟨rfl, rfl, rfl⟩
  · intro s c p e bs l hc he hadd hb
    have hout := blkOut_cases hadd hb
    refine ⟨fun hl => ?_, fun hl => ⟨_, (exec_partBusy hc he).trans (congrArg _ (nextBlk_some (by rw [hout]; exact hl))), ?_⟩⟩
    · rw [exec_partBusy hc he, nextBlk_none (by rw [hout]; exact hl)]
    · rw [core_updSl, State.core_upd_same, hout]
      exact ⟨rfl, rfl, rfl, wrote_spWrite rfl⟩

end Sys2Proof.Machine
end

section
/-! An iteration of `mmaj` on a published tile of a context that is not resident (09 R172, 13 R242, 18 R310). -/

namespace Sys2Proof.Machine

/-! A null block. -/

/-- FMT 0x10, SCALE 0xFF, CHK. -/
def nullBlock : List Byte := (0x10#8 :: 0xFF#8 :: List.replicate 60 0#8) ++ [0xD8#8, 0x1A#8]

theorem nullBlock_crc : crc16 (0x10#8 :: 0xFF#8 :: List.replicate 60 0#8) = 0x1AD8#16 := by
  have h : (0x10#8 :: 0xFF#8 :: List.replicate 60 0#8 : List Byte) =
      (0x10#8 :: 0xFF#8 :: List.replicate 20 0#8) ++ List.replicate 20 0#8 ++ List.replicate 20 0#8 := by decide
  have h1 : List.foldl crc16Byte 0xFFFF#16 (0x10#8 :: 0xFF#8 :: List.replicate 20 0#8) = 19176#16 := by decide +kernel
  have h2 : List.foldl crc16Byte 19176#16 (List.replicate 20 0#8) = 51339#16 := by decide +kernel
  have h3 : List.foldl crc16Byte 51339#16 (List.replicate 20 0#8) = 0x1AD8#16 := by decide +kernel
  unfold crc16
  rw [h, List.foldl_append, List.foldl_append, h1, h2, h3]

theorem nullBlock_good (five : Bool) : (blkOf nullBlock).eval (stepCls five) = 1 := by
  have hc : BitVec.ofNat 16 (leNat ((nullBlock.drop 62).take 2)) = 0x1AD8#16 := by decide +kernel
  have ht : nullBlock.take 62 = 0x10#8 :: 0xFF#8 :: List.replicate 60 0#8 := by decide +kernel
  unfold blkOf
  rw [hc, ht, nullBlock_crc]
  rfl

/-- A step whose blocks are all null blocks is good. -/
theorem stepFail_null {five : Bool} {asl : Nat} {as : List Blk} {bs : List (List Blk)} (ha : ∀ b ∈ as, b = blkOf nullBlock)
    (hb : ∀ l ∈ bs, ∀ b ∈ l, b = blkOf nullBlock) : stepFail five asl as bs = none := by
  unfold stepFail
  have h : ∀ b : Blk, b = blkOf nullBlock → (if b.eval (stepCls five) ≤ 1 then none else some (b.eval (stepCls five))) = none := by
    rintro b rfl
    rw [nullBlock_good, if_pos (Nat.le_refl 1)]
  have h1 : as.findSome? (fun b => if b.eval (stepCls five) ≤ 1 then none else some (b.eval (stepCls five))) = none :=
    List.findSome?_eq_none_iff.2 fun b hb => h b (ha b hb)
  dsimp only
  rw [h1]
  dsimp only
  refine List.findSome?_eq_none_iff.2 fun p hp => ?_
  rw [List.findSome?_eq_none_iff.2 fun b hb' => h b (hb p.2 (List.of_mem_zip hp).2 b hb')]
  rfl

/-! The state. -/

/-- Null blocks one after the other from 0x800 on. -/
def nullBlocks : Nat → List Host.Cell
  | 0 => []
  | n + 1 => Memory.write (nullBlocks n) (64 * (32 + n)) nullBlock

theorem nullBlocks_read {r n : Nat} (h : r < n) : Memory.read (nullBlocks n) (64 * (32 + r)) 64 = nullBlock := by
  have hl : nullBlock.length = 64 := by decide
  induction n with
  | zero => omega
  | succ n ih =>
    unfold nullBlocks
    by_cases hr : r = n
    · subst hr
      have := Memory.read_write (nullBlocks r) (64 * (32 + r)) nullBlock
      rwa [hl] at this
    · exact (Memory.read_congr fun x hx hx' => Memory.get_write_outside _ _ _ _ (by rw [hl]; omega)).trans (ih (by omega))

/-- The entry that tile 0 feeds. -/
def rippleEnt : RipEnt := ⟨0#16, 0#16, 0#8, 0#12, 0#4, 0, 0#4, 4, false, true, [], 0, false⟩

/-- Core 0 holds no context; its tile 0 is published and feeds a tile of its own. -/
def rippleCore : Core :=
  { Core.zero with
    sp := nullBlocks 32
    sl := { Slice.zero with
      wb := (List.range 48).map fun n => (n, nullBlock)
      tiles := Slice.zero.tiles.set 0 { Tile.zero with st := .published }
      rip := [(0, rippleEnt)] } }

theorem rippleCore_sp : rippleCore.sp = nullBlocks 32 := by
  unfold rippleCore
  dsimp only

theorem rippleCore_clean : rippleCore.ups = [] ∧ rippleCore.wbUps = [] ∧ rippleCore.res = none ∧ rippleCore.sl.rip = [(0, rippleEnt)] ∧
    (rippleCore.sl.tile 0#4).st = .published := by
  unfold rippleCore
  dsimp only
  exact ⟨rfl, rfl, rfl, rfl, rfl⟩

/-- An `mmaj` of one part in its steps. -/
def ripplePart : Part := ⟨0x1000002D#32, 0#64, DTag.imm, none, 0, 0, 0, 0#16, none⟩
def rippleGang : Gang := ⟨[ripplePart], [], 0, 48, 0x2000000080#64, 0#64, [], some 0#64, 0, 0#4, 0#4, 0#3, 0#3, none⟩

/-- Context 0 stands in a save area at address 0, with its LOGEND at 48. -/
def rippleState (x : Byte) : State :=
  { State.reset with
    mem := [(48, x)]
    cores := [(0, rippleCore)]
    rows := [(0, { Row.zero with gangs := [rippleGang] })]
    hub := { Hub.zero with ctxs := [(0, ⟨⟨0#64, 0#64, 0#64, 0#64, 0#6, false⟩, []⟩)], saves := [(0, ⟨0#16, true, 0, 0, Core.zero, [], []⟩)] } }

theorem rippleState_core (x : Byte) : (rippleState x).core 0 = rippleCore := rfl

theorem rippleState_good (x : Byte) : (rippleState x).StepGood 0 [ripplePart] false 0x2000000080#64 32 0 := by
  refine stepFail_null (fun b hb => ?_) fun l hl b hb => ?_
  · unfold State.aBlks at hb
    obtain ⟨r, hr, rfl⟩ := List.mem_map.1 hb
    have hr := List.mem_range.1 hr
    have h : rippleCore.spRead (64 * (32 + r)) 64 = nullBlock := by
      rw [spRead_local _ _ _ (by omega), rippleCore_sp]
      exact nullBlocks_read hr
    rw [show 8 * 0 + dAsl 0x2000000080#64 = 0 by decide, rippleState_core]
    unfold Core.spBlk
    rw [h]
    rfl
  · rw [List.map_cons, List.map_nil, List.mem_singleton] at hl
    subst hl
    unfold Core.bBlks at hb
    obtain ⟨n, hn, rfl⟩ := List.mem_map.1 hb
    have h : ∀ n < 48, (tGet rippleCore.sl.wb (0 + 0 + n)).getD (List.replicate 64 0#8) = nullBlock := by decide +kernel
    show rippleCore.wbBlk (0 + 0 + n) = _
    unfold Core.wbBlk
    rw [h n (List.mem_range.1 hn)]
    rfl

/-! What the step does to memory. -/

theorem foldl_updSl_mem {α : Type} (l : List α) (c : α → Nat) (f : α → Slice → Slice) (s : State) :
    (l.foldl (fun (s : State) a => s.updSl (c a) (f a)) s).mem = s.mem := by
  induction l generalizing s with
  | nil => rfl
  | cons a r ih => exact ih _

/-- An arrival at a slice whose context is away goes to the log, and LOGEND moves. -/
theorem ripple_logs (s : State) (c : Nat) (ctx : Ctx) {v : Save} {k : Context} (slot : Nat) (t : AReg) (q : BitVec 16) (x : Tab (BitVec 48)) (src e : Nat)
    (hv : tGet s.hub.saves (saveKey ctx c) = some v) (hk : tGet s.hub.ctxs ctx.toNat = some k) (hr : (s.core c).res ≠ some ctx) :
    Memory.get (s.toSlice c ctx (.ripple slot t q x src e)).mem (k.record.save.toNat + c * k.record.ssz.toNat + 48) =
      BitVec.ofNat 8 (0xC2000 + Config.logBytes (v.log.length + 1)) := by
  unfold State.toSlice
  rw [show ctx.toNat * 4096 + c = saveKey ctx c from rfl, hv]
  dsimp only
  rw [if_neg hr]
  unfold State.toLog State.logImage
  dsimp only
  rw [hv, hk]
  dsimp only [Option.getD_some]
  show Memory.get (Memory.write _ _ _) _ = _
  rw [Memory.get_write, if_pos ⟨Nat.le_refl _, by rw [leBytes_length]; omega⟩, Nat.sub_self]
  rfl

section
variable {s : State} {row : Nat} {g : Gang} {r : List Gang} {it : Word}

/-- An iteration boundary leaves of memory what its step leaves. -/
theorem boundary_mem (hg : (s.row row).gangs = g :: r) (hi : g.iter = some it) (hc : g.g + g.k * g.per ≤ s.cyc) (hx : s.allExpired g.parts = false) :
    ∃ t, exec (.mmajIterationBoundary row) s = .next t ∧ t.mem = (s.gangIter row g it).1.mem := by
  have he : exec (.mmajIterationBoundary row) s = .next (
      let s1 := if (s.gangIter row g it).2.k = g.k then (s.gangIter row g it).1
        else g.parts.foldl (fun (s : State) p => s.updSl p.src fun l => { l with busy := g.g + (g.k + 1) * g.per }) (s.gangIter row g it).1
      s1.setRow row { s1.row row with gangs := (s1.row row).gangs.map fun x => if x = g then (s.gangIter row g it).2 else x }) := by
    show execMmajIterationBoundary row s = _
    unfold execMmajIterationBoundary
    dsimp only
    rw [hg, List.find?_cons, hi]
    dsimp only [Option.isSome]
    rw [hi]
    dsimp only
    rw [if_neg (by omega), hx, if_neg Bool.false_ne_true]
  refine ⟨_, he, ?_⟩
  dsimp only
  split
  · rfl
  · exact foldl_updSl_mem g.parts (fun p => p.src) (fun _ l => { l with busy := g.g + (g.k + 1) * g.per }) _

/-- A good iteration of one part is the step of its tile. -/
theorem gangIter_one {p : Part} (hp : g.parts = [p]) (ho : offsOk (iterOffs g.base g.lv it).1 (iterOffs g.base g.lv it).2 = true)
    (hs : s.StepGood row [p] p.five g.base (iterOffs g.base g.lv it).1.toNat (iterOffs g.base g.lv it).2.toNat) :
    ∃ x, (s.gangIter row g it).1 = (s.stepSoft row [p] g.base (iterOffs g.base g.lv it).1.toNat (iterOffs g.base g.lv it).2.toNat).stepTile p.src
      (iterTile p.at_ g.lv it) (iterClr p.clr g.lv it) p.dom x := by
  unfold State.StepGood at hs
  unfold State.gangIter State.gangStep
  rw [hp]
  dsimp only [List.headD_cons]
  rw [ho, if_neg (by decide), hs]
  exact ⟨_, rfl⟩

end

/-- Without soft errors a step fetches its blocks and no more. -/
theorem stepSoft_clean {s : State} {row : Nat} {ps : List Part} {d : Word} {a b : Nat}
    (ha : (s.core (8 * row + dAsl d)).ups = []) (hw : ∀ p ∈ ps, (s.core p.src).wbUps = []) : s.stepSoft row ps d a b = s := by
  unfold State.stepSoft
  dsimp only
  rw [ha, if_neg (by simp [struck])]
  induction ps with
  | nil => rfl
  | cons p r ih =>
    rw [List.foldl_cons, hw p (List.mem_cons_self ..)]
    exact ih fun q hq => hw q (List.mem_cons_of_mem _ hq)

/-- A step into a published tile ripples on. -/
theorem stepTile_published {s : State} {c : Nat} {t : AReg} (h : ((s.core c).sl.tile t).st = .published) (clr : Bool) (dom : DTag)
    (x : Tab (BitVec 48)) : ∃ l, s.stepTile c t clr dom x = (s.updSl c fun _ => l).ripSend c t 4 false false x ∧ l.rip = (s.core c).sl.rip := by
  unfold State.stepTile State.sl
  dsimp only
  rw [if_pos h]
  refine ⟨_, rfl, ?_⟩
  generalize hf : Slice.fillTile _ _ _ = y
  obtain ⟨z, hz⟩ := fillTile_frame (s.core c).sl t _
  rw [hf] at hz
  show y.rip = _
  rw [hz]
  rfl

/-- A ripple of the one entry that a tile feeds. -/
theorem ripSend_one {s : State} {c : Nat} {t : AReg} {e : RipEnt} (hr : (s.core c).sl.rip = [(0, e)]) (hf : e.feeds t 4 = true) (hw : e.wait = false)
    (hd : e.ddev.toNat = s.own) (hc : e.dcore.toNat = c) (x : Tab (BitVec 48)) :
    s.ripSend c t 4 false false x = (s.updSl c fun l => l.ripNote t 4 false false x).toSlice c (((s.core c).res).getD 0#16)
      (.ripple e.dslot e.dtile e.seq x (s.own * 4096 + c) e.uid) := by
  unfold State.ripSend State.ripGo State.sl
  rw [hr, List.foldl_cons, List.foldl_nil]
  dsimp only
  rw [hf, hw, if_pos (by decide)]
  unfold State.ripPkt
  dsimp only
  rw [if_pos ⟨hd, hc⟩]
  rfl

/-- What the iteration does to memory. -/
theorem ripple_step (x : Byte) (t : State) (h : exec (.mmajIterationBoundary 0) (rippleState x) = .next t) :
    Memory.get t.mem 48 = BitVec.ofNat 8 (0xC2000 + Config.logBytes 1) := by
  obtain ⟨u, hu, hm⟩ := boundary_mem (s := rippleState x) (row := 0) (g := rippleGang) (r := []) (it := 0#64) rfl rfl (Nat.le_refl _) rfl
  obtain ⟨y, hy⟩ := gangIter_one (s := rippleState x) (row := 0) (g := rippleGang) (it := 0#64) (p := ripplePart) rfl (by decide) (rippleState_good x)
  rw [hu] at h
  cases h
  obtain ⟨hups, hwb, hres, hrip, hst⟩ := rippleCore_clean
  rw [hm, hy, stepSoft_clean (by rw [show 8 * 0 + dAsl rippleGang.base = 0 by decide, rippleState_core, hups])
    (fun p hp => by rw [List.mem_singleton.1 hp, show ripplePart.src = 0 from rfl, rippleState_core, hwb])]
  rw [show ripplePart.src = 0 from rfl, show iterTile ripplePart.at_ rippleGang.lv 0#64 = 0#4 by decide]
  obtain ⟨l, hl, hr⟩ := stepTile_published (s := rippleState x) (c := 0) (t := 0#4) (by rw [rippleState_core, hst])
    (iterClr ripplePart.clr rippleGang.lv 0#64) ripplePart.dom y
  rw [rippleState_core, hrip] at hr
  have hres : (((rippleState x).updSl 0 fun _ => l).core 0).res = none := by rw [core_updSl, rippleState_core, hres]
  rw [hl, ripSend_one (c := 0) (e := rippleEnt) (by rw [core_updSl]; exact hr) rfl rfl rfl rfl, hres]
  generalize hz : State.updSl _ 0 (fun l => l.ripNote 0#4 4 false false y) = z
  have hhub : z.hub = (rippleState x).hub := by rw [← hz]; rfl
  have hzres : (z.core 0).res = none := by rw [← hz, core_updSl, hres]
  exact ripple_logs _ 0 0#16 _ _ _ _ _ _ (v := ⟨0#16, true, 0, 0, Core.zero, [], []⟩) (k := ⟨⟨0#64, 0#64, 0#64, 0#64, 0#6, false⟩, []⟩)
    (by rw [hhub, show saveKey 0#16 0 = 0 by decide]; rfl) (by rw [hhub]; rfl) (by rw [hzres]; exact (Option.some_ne_none _).symm)

/-- A state whose LOGEND does not stand at what the log's next entry makes it. -/
def rippleStart : State := rippleState (BitVec.ofNat 8 (0xC2000 + Config.logBytes 1) + 1#8)

/-- Refutes O40: the context whose tile is published stands in a save area, so the ripple of the iteration goes into its arrival log, and
the log's end in memory moves, though the clause on iteration boundaries has memory unchanged. -/
theorem not_gangOperation : ¬ Obligations.GangOperation := by
  intro h
  obtain ⟨-, -, -, h⟩ := h rippleStart 0
  obtain ⟨-, h⟩ := h rippleGang [] 0#64 rfl rfl (Nat.le_refl _)
  obtain ⟨t, fl, he, hm, -⟩ := h rfl (by decide) (by decide) (by decide) (rippleState_good _)
  have h48 := ripple_step _ t he
  rw [hm] at h48
  have hx : BitVec.ofNat 8 (0xC2000 + Config.logBytes 1) + 1#8 = BitVec.ofNat 8 (0xC2000 + Config.logBytes 1) := h48
  revert hx
  generalize BitVec.ofNat 8 (0xC2000 + Config.logBytes 1) = b
  revert b
  decide

end Sys2Proof.Machine
end

section
/-! What arrives at a slice (13 R236 to R249, 15 R276, 09 R161). -/

namespace Sys2Proof.Machine

/-- What the slice of a core sends leaves memory and the hub, and of the core all but the ripple table and the arrivals behind those that
stand there. -/
structure State.Sends (c : Nat) (s t : State) : Prop where
  mem : t.mem = s.mem
  hub : t.hub = s.hub
  core : ∃ r n z, t.core c = { s.core c with sl := (s.core c).sl.withRip r n ((s.core c).sl.arrs ++ z) }

section
variable {s t u : State} {c : Nat} {ctx : Ctx}

theorem State.Sends.refl (s : State) (c : Nat) : s.Sends c s :=
  ⟨rfl, rfl, (s.core c).sl.rip, (s.core c).sl.ripGen, [], by rw [List.append_nil]; rfl⟩

theorem State.Sends.trans (h : s.Sends c t) (h' : t.Sends c u) : s.Sends c u := by
  obtain ⟨r, n, z, e⟩ := h.core
  obtain ⟨r', n', z', e'⟩ := h'.core
  refine ⟨h'.mem.trans h.mem, h'.hub.trans h.hub, r', n', z ++ z', ?_⟩
  rw [e', e, ← List.append_assoc]
  rfl

theorem State.Sends.res (h : s.Sends c t) : (t.core c).res = (s.core c).res := by
  obtain ⟨r, n, z, e⟩ := h.core
  rw [e]

theorem sends_send (dev : Nat) (b : PBody) (dom : DTag) (ctx : Ctx) (src : Nat) (stag : BitVec 16) : s.Sends c (s.send dev b dom ctx src stag) :=
  ⟨rfl, rfl, (State.Sends.refl s c).core⟩

theorem sends_rip (f : Slice → Slice) (h : ∃ r, f (s.core c).sl = { (s.core c).sl with rip := r }) : s.Sends c (s.updSl c f) := by
  obtain ⟨r, hr⟩ := h
  refine ⟨rfl, rfl, r, (s.core c).sl.ripGen, [], ?_⟩
  rw [core_updSl, hr, List.append_nil]
  rfl

theorem sends_toSlice (h : (s.core c).res = some ctx) (a : Arr) : s.Sends c (s.toSlice c ctx a) := by
  rw [toSlice_resident h]
  refine ⟨rfl, rfl, (s.core c).sl.rip, (s.core c).sl.ripGen, [a], ?_⟩
  rw [core_updSl]
  rfl

theorem sends_ripPkt (h : (s.core c).res = some ctx) (x : RipEnt) (q : BitVec 16) (mark psn : Bool) (cells : Tab (BitVec 48)) :
    s.Sends c (s.ripPkt c ctx x q mark psn cells) := by
  unfold State.ripPkt
  dsimp only
  split
  · exact sends_toSlice h _
  · exact sends_send _ _ _ _ _ _

theorem sends_foldl {α : Type} {f : State → α → State} (hf : ∀ (s : State) a, (s.core c).res = some ctx → s.Sends c (f s a)) (l : List α) (s : State)
    (h : (s.core c).res = some ctx) : s.Sends c (l.foldl f s) := by
  induction l generalizing s with
  | nil => exact .refl s c
  | cons a r ih => exact (hf s a h).trans (ih (f s a) ((hf s a h).res.trans h))

theorem sends_ripSend (h : (s.core c).res ≠ none) (t : AReg) (ss : Nat) (mark psn : Bool) (cells : Tab (BitVec 48)) :
    s.Sends c (s.ripSend c t ss mark psn cells) := by
  obtain ⟨x, hx⟩ := Option.ne_none_iff_exists'.1 h
  have h1 : s.Sends c (s.updSl c fun l => l.ripNote t ss mark psn cells) := sends_rip _ ⟨_, rfl⟩
  refine h1.trans ?_
  unfold State.ripSend State.ripGo
  refine sends_foldl (ctx := ((s.core c).res).getD 0#16) (fun s p hs => ?_) _ _ (by rw [h1.res, hx]; rfl)
  split
  · exact sends_ripPkt hs _ _ _ _ _
  · exact .refl s c

/-! Acknowledgements. -/

theorem ack_rip (l : Slice) (e : Nat) (q : BitVec 16) : ∃ r, l.ack e q = { l with rip := r } := by
  unfold Slice.ack
  split
  · exact ⟨l.rip, rfl⟩
  · dsimp only
    split
    · exact ⟨l.rip, rfl⟩
    · split
      · exact ⟨_, rfl⟩
      · exact ⟨_, rfl⟩

theorem sends_sendAck (src e : Nat) (q : BitVec 16) : s.Sends c (s.sendAck c src e q) := by
  unfold State.sendAck
  split
  · exact sends_rip _ (ack_rip _ e q)
  · exact sends_send _ _ _ _ _ _

/-- An acknowledgement frees the entry of its mark, and else notes what it has acknowledged. -/
theorem ack_entry {l : Slice} {e : Nat} {y : RipEnt} (h : tGet l.rip (e % 64) = some y) (hu : y.uid = e) (q : BitVec 16) :
    tGet (l.ack e q).rip (e % 64) = if y.fin = true ∧ q = y.seq then none
      else some { y with ack := q, sent := y.sent.filter fun p => (p.1 - q).toNat < 32768 } := by
  unfold Slice.ack
  rw [h]
  dsimp only
  rw [if_neg (not_not.2 hu)]
  by_cases hf : y.fin = true ∧ q = y.seq
  · rw [if_pos hf, if_pos (by simpa using hf)]
    exact tGet_tDel_same _ _
  · rw [if_neg hf, if_neg (by simpa using hf)]
    exact tGet_tPut_same _ _ _

/-! Arrivals. -/

/-- The slice once its oldest arrival is taken. -/
theorem core_takeArr (s : State) (c n : Nat) :
    (s.takeArr c n).core c = { s.core c with sl := { (s.core c).sl with arrs := (s.core c).sl.arrs.tail, busy := s.cyc + n } } := core_updSl _ _ _

/-- What has been sent leaves the cells, the headers and the busy count. -/
theorem State.Sends.slice (h : s.Sends c t) : (∃ z, (t.core c).sl.arrs = (s.core c).sl.arrs ++ z) ∧ (t.core c).sl.busy = (s.core c).sl.busy ∧
    (∀ a k, (t.core c).sl.cell a k = (s.core c).sl.cell a k) ∧ ∀ a, (t.core c).sl.tile a = (s.core c).sl.tile a := by
  obtain ⟨r, n, z, e⟩ := h.core
  refine ⟨⟨z, by rw [e]; rfl⟩, by rw [e]; rfl, fun a k => by rw [e]; rfl, fun a => by rw [e]; rfl⟩

theorem expired_hub {s t : State} (hh : t.hub = s.hub) (hn : t.now = s.now) (ep : Nat) (d : DTag) :
    t.expired ep (t.dtag d) = s.expired ep (s.dtag d) := by
  rw [dtag_hub hh]
  simp only [State.expired, State.domView, State.dom, hh, hn]

/-- The slice after a ripple that its slot expects: the slot's number moves on, and the cells gain what it brings, unless the tile's domain has
expired. -/
def Slice.rippled (l : Slice) (t : AReg) (j : Nat) (y : Slot) (x : Tab (BitVec 48)) (dead : Bool) : Slice :=
  (if dead then l else l.fillTile t fun k => cellAdd (l.cell t k) (cellMul y.coef (cellAt x k))).setTile t
    { l.tile t with slots := (l.tile t).slots.setIfInBounds j { y with seq := y.seq + 1#16, psn := y.psn || dead } }

theorem rippled_slice (l : Slice) (t : AReg) (j : Nat) (y : Slot) (x : Tab (BitVec 48)) (dead : Bool) :
    (l.rippled t j y x dead).arrs = l.arrs ∧ (l.rippled t j y x dead).busy = l.busy ∧
      ∀ k, k < 1536 → (l.rippled t j y x dead).cell t k = if dead = false then cellAdd (l.cell t k) (cellMul y.coef (cellAt x k)) else l.cell t k := by
  unfold Slice.rippled
  cases dead
  · obtain ⟨z, hz⟩ := fillTile_frame l t fun k => cellAdd (l.cell t k) (cellMul y.coef (cellAt x k))
    refine ⟨?_, ?_, fun k hk => ?_⟩
    · rw [if_neg Bool.false_ne_true, hz]
      rfl
    · rw [if_neg Bool.false_ne_true, hz]
      rfl
    · rw [if_neg Bool.false_ne_true, cell_setTile, cell_fillTile _ _ _ _ hk, if_pos rfl, if_pos rfl]
  · exact ⟨rfl, rfl, fun _ _ => rfl⟩

/-- A ripple is applied when its slot expects its number, and else only acknowledged. -/
theorem applyRipple_spec {t : AReg} {src e j : Nat} {y : Slot} (hs : ((s.core c).sl.tile t).slotOf src e = some (j, y)) (q : BitVec 16)
    (x : Tab (BitVec 48)) (hr : (s.core c).res ≠ none) :
    (q ≠ y.seq → s.Sends c (s.applyRipple c t q x src e)) ∧
    (q = y.seq → (s.updSl c fun _ => (s.core c).sl.rippled t j y x (s.expired c (s.dtag ((s.core c).sl.tile t).dom))).Sends c (s.applyRipple c t q x src e)) := by
  unfold State.applyRipple State.sl
  dsimp only
  rw [hs]
  dsimp only
  refine ⟨fun h => ?_, fun h => ?_⟩
  · rw [if_pos h]
    exact sends_sendAck _ _ _
  · rw [if_neg (not_not.2 h), h]
    have hr' : ((s.updSl c fun _ => (s.core c).sl.rippled t j y x (s.expired c (s.dtag ((s.core c).sl.tile t).dom))).core c).res ≠ none := by
      rw [core_updSl]
      exact hr
    unfold Slice.rippled at hr' ⊢
    exact (sends_ripSend hr' t j false false x).trans (sends_sendAck _ _ _)

theorem rippleArrival_spec {n : Nat} {t : AReg} {q : BitVec 16} {x : Tab (BitVec 48)} {src e j : Nat} {r : List Arr} {y : Slot}
    (hr : (s.core c).res ≠ none) (ha : (s.core c).sl.arrs = .ripple n t q x src e :: r) (hi : s.slIdle c = true)
    (hs : ((s.core c).sl.tile t).slotOf src e = some (j, y)) :
    ∃ u, exec (.rippleArrival c) s = .next u ∧ u.mem = s.mem ∧ (∃ z, (u.core c).sl.arrs = r ++ z) ∧ (u.core c).sl.busy = s.cyc + 32 ∧
      ∀ k, k < 1536 → (u.core c).sl.cell t k = if q = y.seq ∧ s.expired c (s.dtag ((s.core c).sl.tile t).dom) = false
        then cellAdd ((s.core c).sl.cell t k) (cellMul y.coef (cellAt x k)) else (s.core c).sl.cell t k := by
  have he : exec (.rippleArrival c) s = .next ((s.takeArr c 32).applyRipple c t q x src e) := by
    show execRippleArrival c s = _
    unfold execRippleArrival State.sl
    rw [ha]
    dsimp only
    rw [hi, if_pos rfl]
  have hk := core_takeArr s c 32
  rw [ha, List.tail_cons] at hk
  obtain ⟨h1, h2⟩ := applyRipple_spec (s := s.takeArr c 32) (c := c) (t := t) (src := src) (e := e) (by rw [hk]; exact hs) q x (by rw [hk]; exact hr)
  have hd : (s.takeArr c 32).expired c ((s.takeArr c 32).dtag (((s.takeArr c 32).core c).sl.tile t).dom) =
      s.expired c (s.dtag ((s.core c).sl.tile t).dom) := by
    rw [hk]
    exact expired_hub rfl rfl _ _
  refine ⟨_, he, ?_⟩
  by_cases hq : q = y.seq
  · obtain hu := h2 hq
    obtain ⟨⟨z, hz⟩, hb, hc, -⟩ := hu.slice
    obtain ⟨f1, f2, f3⟩ := rippled_slice ((s.takeArr c 32).core c).sl t j y x (s.expired c (s.dtag ((s.core c).sl.tile t).dom))
    rw [core_updSl, hd] at hz hb hc
    refine ⟨hu.mem, ⟨z, ?_⟩, ?_, fun k hk' => ?_⟩
    · rw [hz]
      dsimp only
      rw [f1, hk]
    · rw [hb]
      dsimp only
      rw [f2, hk]
    · rw [hc]
      dsimp only
      rw [f3 k hk', hk]
      exact if_congr (by simp [hq]) rfl rfl
  · obtain ⟨⟨z, hz⟩, hb, hc, -⟩ := (h1 hq).slice
    rw [hk] at hz hb hc
    exact ⟨(h1 hq).mem, ⟨z, hz⟩, hb, fun k _ => (hc t k).trans (if_neg fun h => hq h.1).symm⟩

/-! Marks. -/

/-- The header after a mark on its slot. -/
def Tile.marked (h : Tile) (j : Nat) (y : Slot) (psn : Bool) : Tile :=
  { h with slots := h.slots.setIfInBounds j { y with seq := y.seq + 1#16, fin := true, psn := y.psn || psn } }

/-- A slot that an arrival names stands where it says, and is valid. -/
theorem slotOf_some {h : Tile} {src e j : Nat} {y : Slot} (hs : h.slotOf src e = some (j, y)) : h.slots.toList[j]? = some y ∧ y.v = true := by
  unfold Tile.slotOf at hs
  have hp := List.find?_some hs
  have hm := List.mem_of_find?_eq_some hs
  simp only [Bool.and_eq_true] at hp
  obtain ⟨⟨⟨hv, -⟩, -⟩, -⟩ := hp
  refine ⟨?_, hv⟩
  rw [List.mem_iff_getElem?] at hm
  obtain ⟨i, hi⟩ := hm
  rw [List.getElem?_zip_eq_some] at hi
  obtain ⟨h1, h2⟩ := hi
  rw [List.getElem?_eq_some_iff] at h1
  obtain ⟨_, h1⟩ := h1
  rw [List.getElem_range] at h1
  rw [show j = i from h1.symm]
  exact h2

/-- A tile whose only slot has got its mark is settled, or poisoned. -/
theorem settle_marked {h : Tile} {y : Slot} {psn : Bool} (hy : y.v = true)
    (ho : ∀ j, 0 < j → j < 4 → (h.slots.toList.getD j Slot.zero).v = false) :
    (h.marked 0 y psn).settle.st = if h.pnd = true ∨ y.psn = true ∨ psn = true then .poisoned else .settled := by
  have hv : (h.marked 0 y psn).valid = [{ y with seq := y.seq + 1#16, fin := true, psn := y.psn || psn }] := by
    obtain ⟨d, p, st, ⟨⟨l⟩, hl⟩⟩ := h
    match l, hl with
    | [a, b, c, e], _ =>
      have h1 : b.v = false := ho 1 (by decide) (by decide)
      have h2 : c.v = false := ho 2 (by decide) (by decide)
      have h3 : e.v = false := ho 3 (by decide) (by decide)
      simp [Tile.marked, Tile.valid, hy, h1, h2, h3]
  unfold Tile.settle
  rw [hv]
  cases hp : h.pnd <;> cases y.psn <;> cases psn <;> simp [Tile.marked, hp]

theorem applyMark_due {t : AReg} {src e j : Nat} {y : Slot} (hs : ((s.core c).sl.tile t).slotOf src e = some (j, y)) (psn : Bool)
    (hr : (s.core c).res ≠ none) : (s.applyMark c t y.seq psn src e).mem = s.mem ∧
      ((s.applyMark c t y.seq psn src e).core c).sl.tile t = (((s.core c).sl.tile t).marked j y psn).settle := by
  have he : s.applyMark c t y.seq psn src e =
      (((s.updSl c fun l => l.setTile t (((s.core c).sl.tile t).marked j y psn)).ripSend c t j true psn []).updSl c
        fun l => l.setTile t (((s.core c).sl.tile t).marked j y psn).settle).sendAck c src e (y.seq + 1#16) := by
    unfold State.applyMark State.sl
    dsimp only
    rw [hs]
    dsimp only
    rw [if_neg (not_not.2 rfl)]
    rfl
  rw [he]
  generalize hw : (s.updSl c fun l => l.setTile t (((s.core c).sl.tile t).marked j y psn)) = w
  have h1 : w.Sends c (w.ripSend c t j true psn []) := sends_ripSend (by rw [← hw, core_updSl]; exact hr) _ _ _ _ _
  generalize w.ripSend c t j true psn [] = v at h1
  have h2 := sends_sendAck (s := v.updSl c fun l => l.setTile t (((s.core c).sl.tile t).marked j y psn).settle) (c := c) src e (y.seq + 1#16)
  refine ⟨h2.mem.trans (h1.mem.trans (by rw [← hw]; rfl)), ?_⟩
  rw [h2.slice.2.2.2, core_updSl]
  exact tile_setTile_same _ _ _

theorem markArrival_spec {n : Nat} {t : AReg} {psn : Bool} {src e : Nat} {r : List Arr} {y : Slot}
    (hr : (s.core c).res ≠ none) (ha : (s.core c).sl.arrs = .mark n t y.seq psn src e :: r) (hi : s.slIdle c = true)
    (hs : ((s.core c).sl.tile t).slotOf src e = some (0, y))
    (ho : ∀ j, 0 < j → j < 4 → (((s.core c).sl.tile t).slots.toList.getD j Slot.zero).v = false) :
    ∃ u, exec (.markArrival c) s = .next u ∧ u.mem = s.mem ∧ ((u.core c).sl.tile t).st =
      if ((s.core c).sl.tile t).pnd = true ∨ y.psn = true ∨ psn = true then .poisoned else .settled := by
  have he : exec (.markArrival c) s = .next ((s.takeArr c 1).applyMark c t y.seq psn src e) := by
    show execMarkArrival c s = _
    unfold execMarkArrival State.sl
    rw [ha]
    dsimp only
    rw [hi, if_pos rfl]
  have hk := core_takeArr s c 1
  obtain ⟨h1, h2⟩ := applyMark_due (s := s.takeArr c 1) (c := c) (t := t) (src := src) (e := e) (by rw [hk]; exact hs) psn (by rw [hk]; exact hr)
  refine ⟨_, he, h1, ?_⟩
  rw [h2, hk]
  exact settle_marked (slotOf_some hs).2 ho

/-! A tile of a remote add. -/

/-- The slice after a tile that it could take. -/
def Slice.tileAdded (l : Slice) (t : AReg) (x : Tab (BitVec 48)) (ns : List NewSlot) : Slice :=
  (l.fillTile t fun k => cellAdd (l.cell t k) (cellAt x k)).setTile t ((l.tile t).afterLinear false ns (l.tile t).dom)

theorem tileAdded_slice (l : Slice) (t : AReg) (x : Tab (BitVec 48)) (ns : List NewSlot) : (l.tileAdded t x ns).arrs = l.arrs ∧
    ∀ k, k < 1536 → (l.tileAdded t x ns).cell t k = cellAdd (l.cell t k) (cellAt x k) := by
  unfold Slice.tileAdded
  refine ⟨?_, fun k hk => by rw [cell_setTile, cell_fillTile _ _ _ _ hk, if_pos rfl]⟩
  obtain ⟨z, hz⟩ := fillTile_frame l t fun k => cellAdd (l.cell t k) (cellAt x k)
  rw [hz]
  rfl

theorem applyTile_spec (t : AReg) (x : Tab (BitVec 48)) (ns : List NewSlot) (src job : Nat) :
    (s.applyTile c t x ns src job).mem = s.mem ∧ ((s.applyTile c t x ns src job).core c).sl =
      if ((s.core c).sl.tile t).st = .published ∨ ((s.core c).sl.tile t).valid.length + ns.length > 4 then (s.core c).sl
      else (s.core c).sl.tileAdded t x ns := by
  unfold State.applyTile State.sl
  dsimp only
  split
  · exact ⟨rfl, rfl⟩
  · refine ⟨rfl, ?_⟩
    unfold Slice.tileAdded
    rw [core_send, core_updSl]

theorem tileArrival_spec {t : AReg} {x : Tab (BitVec 48)} {ns : List NewSlot} {src job : Nat} {ring : Option Nat} {r : List Arr}
    (ha : (s.core c).sl.arrs = .tile t x ns src job ring :: r) (hi : s.slIdle c = true) :
    ∃ u, exec (.remoteTileArrival c) s = .next u ∧ u.mem = s.mem ∧ (u.core c).sl.arrs = r ∧ ∀ k, k < 1536 →
      (u.core c).sl.cell t k = if ((s.core c).sl.tile t).st = .published ∨ 4 < ((s.core c).sl.tile t).valid.length + ns.length then (s.core c).sl.cell t k
        else cellAdd ((s.core c).sl.cell t k) (cellAt x k) := by
  have he : exec (.remoteTileArrival c) s = .next ((s.takeArr c 32).applyTile c t x ns src job) := by
    show execRemoteTileArrival c s = _
    unfold execRemoteTileArrival State.sl
    rw [ha]
    dsimp only
    rw [hi, if_pos rfl]
  have hk : ((s.takeArr c 32).core c).sl = { (s.core c).sl with arrs := r, busy := s.cyc + 32 } := by
    rw [core_takeArr, ha]
    rfl
  obtain ⟨h1, h2⟩ := applyTile_spec (s := s.takeArr c 32) (c := c) t x ns src job
  obtain ⟨f1, f2⟩ := tileAdded_slice ((s.takeArr c 32).core c).sl t x ns
  rw [show ((s.takeArr c 32).core c).sl.tile t = (s.core c).sl.tile t by rw [hk]; rfl] at h2
  refine ⟨_, he, h1, ?_, fun k hk' => ?_⟩ <;> rw [h2]
  · split
    · rw [hk]
    · rw [f1, hk]
  · rw [apply_ite fun l : Slice => l.cell t k, f2 k hk', hk]
    rfl

/-! Acknowledgements, resends and held writes. -/

theorem rippleAck_spec {e : Nat} {q : BitVec 16} {k : Pkt} {y : RipEnt}
    (hk : s.net.find? (fun p => p.dev == s.own && p.body == .rippleAck c e q) = some k) (ha : s.away c k.ctx = false)
    (hy : tGet (s.core c).sl.rip (e % 64) = some y) (hu : y.uid = e) : ∃ u, exec (.rippleAck c e q) s = .next u ∧
      tGet (u.core c).sl.rip (e % 64) = if y.fin = true ∧ q = y.seq then none
        else some { y with ack := q, sent := y.sent.filter fun p => (p.1 - q).toNat < 32768 } := by
  refine ⟨({ s with net := s.net.erase k }).updSl c fun l => l.ack e q, ?_, ?_⟩
  · show execRippleAck c e q s = _
    unfold execRippleAck
    rw [hk]
    have hs : tGet s.hub.saves (saveKey k.ctx c) = none := by
      unfold State.away at ha
      simpa using ha
    dsimp only
    unfold State.updIn
    rw [hs]
    rfl
  · rw [core_updSl]
    exact ack_entry hy hu q

theorem wbHeldWrite_spec {i j : Nat} {bs : List Byte} {r : List (Nat × List Byte × Nat)} (hh : (s.core c).sl.wbHeld = (i, bs, j) :: r)
    (hw : s.wbInUse c (decide (1024 ≤ i)) = false) : ∃ u, exec (.wbHeldWrite c) s = .next u ∧ (u.core c).sl.wbHeld = r ∧
      tGet (u.core c).sl.wb i = some bs ∧ ∀ k, (s.core c).job j = some k → (u.core c).job j = some { k with flight := k.flight - 1 } := by
  have he : exec (.wbHeldWrite c) s = .next ((s.updSl c fun l => { l with wb := tPut l.wb i bs, wbHeld := l.wbHeld.erase (i, bs, j) }).upd c fun x =>
      { x with wbUps := tDel x.wbUps i, jobs := x.jobs.map fun k => if k.id = j then { k with flight := k.flight - 1 } else k }) := by
    show execWbHeldWrite c s = _
    unfold execWbHeldWrite State.sl
    rw [hh, List.find?_cons]
    dsimp only
    rw [hw]
    rfl
  refine ⟨_, he, ?_⟩
  rw [State.core_upd_same, core_updSl]
  refine ⟨?_, tGet_tPut_same _ _ _, fun k hk => job_updJob (x := s.core c) hk (fun k => { k with flight := k.flight - 1 }) fun _ => rfl⟩
  dsimp only
  rw [hh]
  exact List.erase_cons_head _ _

/-- Packets put on their way, one step after the other: what holds of the packets of each step holds of all of them. -/
theorem foldl_packets {α : Type} {f : State → α → State} {T : α → List Pkt → Prop} (hT : ∀ a ps qs, (∀ p ∈ ps, p ∈ qs) → T a ps → T a qs)
    (l : List α) (hf : ∀ (v : State) a, a ∈ l → s.Sends c v → v.Sends c (f v a) ∧ ∃ ps, (f v a).net = v.net ++ ps ∧ T a ps) (v : State)
    (hv : s.Sends c v) : v.Sends c (l.foldl f v) ∧ ∃ ps, (l.foldl f v).net = v.net ++ ps ∧ ∀ a ∈ l, T a ps := by
  induction l generalizing v with
  | nil => exact ⟨.refl v c, [], (List.append_nil _).symm, fun _ h => absurd h List.not_mem_nil⟩
  | cons a r ih =>
    obtain ⟨h1, ps, hp, ht⟩ := hf v a (List.mem_cons_self ..) hv
    obtain ⟨h2, qs, hq, hts⟩ := ih (fun v b hb => hf v b (List.mem_cons_of_mem _ hb)) (f v a) (hv.trans h1)
    refine ⟨h1.trans h2, ps ++ qs, ?_, fun b hb => ?_⟩
    · rw [List.foldl_cons, hq, hp, List.append_assoc]
    · rcases List.mem_cons.1 hb with rfl | hb
      · exact hT b ps _ (fun p hp => List.mem_append_left _ hp) ht
      · exact hT b qs _ (fun p hp => List.mem_append_right _ hp) (hts b hb)

/-- The packet that carries what an entry has sent to another slice. -/
def resent (own c : Nat) (x : RipEnt) (a : BitVec 16 × Bool × Bool × Tab (BitVec 48)) (ps : List Pkt) : Prop :=
  x.ddev.toNat ≠ own ∨ x.dcore.toNat ≠ c → ∃ p ∈ ps, p.dev = x.ddev.toNat ∧
    p.body = if a.2.1 then .mark x.dcore.toNat x.dslot x.dtile a.1 a.2.2.1 (own * 4096 + c) x.uid
      else .ripple x.dcore.toNat x.dslot x.dtile a.1 a.2.2.2 (own * 4096 + c) x.uid

theorem resent_mono {own : Nat} {x : RipEnt} (a : BitVec 16 × Bool × Bool × Tab (BitVec 48)) (ps qs : List Pkt) (h : ∀ p ∈ ps, p ∈ qs)
    (hr : resent own c x a ps) : resent own c x a qs := fun ho => (hr ho).imp fun p hp => ⟨h p hp.1, hp.2⟩

theorem ripPkt_packet (h : (s.core c).res = some ctx) (x : RipEnt) (a : BitVec 16 × Bool × Bool × Tab (BitVec 48)) :
    ∃ ps, (s.ripPkt c ctx x a.1 a.2.1 a.2.2.1 a.2.2.2).net = s.net ++ ps ∧ resent s.own c x a ps := by
  unfold State.ripPkt
  dsimp only
  split
  · next hx =>
    rw [toSlice_resident h]
    refine ⟨[], (List.append_nil _).symm, fun ho => ?_⟩
    rcases ho with ho | ho
    · exact absurd hx.1 ho
    · exact absurd hx.2 ho
  · exact ⟨_, rfl, fun _ => ⟨_, List.mem_singleton_self _, rfl, rfl⟩⟩

theorem own_hub {s t : State} (h : t.hub = s.hub) : t.own = s.own := by
  unfold State.own
  rw [h]

theorem rippleResend_spec (hr : (s.core c).res ≠ none) : ∃ u ps, exec (.rippleResend c) s = .next u ∧ u.mem = s.mem ∧ u.net = s.net ++ ps ∧
    ∀ i x, (i, x) ∈ (s.core c).sl.rip → x.wait = false → ∀ a ∈ x.sent, resent s.own c x a ps := by
  obtain ⟨ctx, hx⟩ := Option.ne_none_iff_exists'.1 hr
  have hpkt : ∀ (v : State) (x : RipEnt) (a : BitVec 16 × Bool × Bool × Tab (BitVec 48)), s.Sends c v →
      v.Sends c (v.ripPkt c ctx x a.1 a.2.1 a.2.2.1 a.2.2.2) ∧
        ∃ ps, (v.ripPkt c ctx x a.1 a.2.1 a.2.2.1 a.2.2.2).net = v.net ++ ps ∧ resent s.own c x a ps := by
    intro v x a hv
    have hres := hv.res.trans hx
    obtain ⟨ps, h1, h2⟩ := ripPkt_packet hres x a
    rw [own_hub hv.hub] at h2
    exact ⟨sends_ripPkt hres _ _ _ _ _, ps, h1, h2⟩
  obtain ⟨h1, ps, h2, h3⟩ := foldl_packets (s := s) (c := c)
    (T := fun (p : Nat × RipEnt) ps => p.2.wait = false → ∀ a ∈ p.2.sent, resent s.own c p.2 a ps)
    (f := fun (v : State) p => if ((s.core c).sl.rip.map fun p => p.2.uid).contains p.2.uid && ! p.2.wait then
      p.2.sent.foldl (fun (v : State) k => v.ripPkt c ctx p.2 k.1 k.2.1 k.2.2.1 k.2.2.2) v else v)
    (fun p ps qs h ht hw a ha => resent_mono a ps qs h (ht hw a ha)) (s.core c).sl.rip (fun v p hp hv => by
      have hmem : ((s.core c).sl.rip.map fun p => p.2.uid).contains p.2.uid = true := by
        rw [List.contains_iff_mem]
        exact List.mem_map_of_mem hp
      rw [hmem]
      cases hw : p.2.wait with
      | true => exact ⟨.refl v c, [], (List.append_nil _).symm, fun h => absurd h Bool.true_eq_false_eq_False⟩
      | false =>
        obtain ⟨g1, qs, g2, g3⟩ := foldl_packets (fun a ps qs h ht => resent_mono a ps qs h ht) p.2.sent (fun v a _ hv => hpkt v p.2 a hv) v hv
        exact ⟨g1, qs, g2, fun _ => g3⟩) s (.refl s c)
  refine ⟨_, ps, ?_, h1.mem, h2, fun i x hi hw a ha => h3 (i, x) hi hw a ha⟩
  show execRippleResend c s = _
  unfold execRippleResend State.flush State.sl
  rw [hx]
  rfl

end

/-- Settles O41: each arrival by what it applies, with what the slice sends on and answers left aside. -/
theorem sliceArrivals : Obligations.SliceArrivals := by
  intro s c hr l
  refine ⟨fun n t q x src e r j y ha hi hs => rippleArrival_spec hr ha hi hs, fun n t q p src e r y ha hi hs hq ho => ?_,
    fun t x ns src job ring r ha hi => tileArrival_spec ha hi, fun e q k y hk ha hy hu => rippleAck_spec hk ha hy hu, ?_,
    fun i bs j r hh hw => wbHeldWrite_spec hh hw⟩
  · subst hq
    exact markArrival_spec hr ha hi hs ho
  · obtain ⟨u, ps, he, hm, hn, h⟩ := rippleResend_spec hr
    exact ⟨u, ps, he, hm, hn, fun i x q m psn z hx hw ha ho => h i x hx hw (q, m, psn, z) ha ho⟩

end Sys2Proof.Machine
end

section
/-! Ring sequencers (15 R278 to R282). -/

namespace Sys2Proof.Machine

/-! What a job's access reads and writes in device memory. -/

section
variable {s : State} {port : Nat} {j : RingJob} {ps : List Piece} {pa n : Nat}

theorem touch_frame (ps : List Piece) : s.touch ps = { s with sys := (s.touch ps).sys } := by
  unfold State.touch
  induction ps generalizing s with
  | nil => rfl
  | cons p r ih =>
    rw [List.foldl_cons, ih, touchLine_frame]

theorem ringAcc_ok {acc : Acc} {a : Word} {f : List Piece → State → State}
    (h : s.chkRun ⟨j.core, j.ctx, j.task, 0, s.dtag j.dom, false⟩ .st acc none (runParts n a n) = .ok ps s) :
    s.ringAcc port j acc a n f = f ps s := by
  unfold State.ringAcc
  dsimp only
  rw [h]

theorem readPs_flat (h : Flat ps pa n) : s.readPs j ps = Memory.read s.mem pa n := by
  unfold State.readPs
  induction ps generalizing pa n with
  | nil =>
    cases h
    rfl
  | cons p r ih =>
    obtain ⟨h1, h2, h3⟩ := h
    rw [List.map_cons, List.flatten_cons, ih h3, show n = p.n + (n - p.n) by omega, Memory.read_append, h1, Nat.add_sub_cancel_left]
    rfl

theorem ringErr_flat (h : Flat ps pa n) (hw : s.WholeAt pa n) : s.ringErr j ps = none := by
  unfold State.ringErr
  dsimp only
  induction ps generalizing pa n with
  | nil => rfl
  | cons p r ih =>
    obtain ⟨h1, h2, h3⟩ := h
    have hn : s.struckAt (.dram pa) p.n = none := struck_none _ _ _ fun e he => by
      have := hw e he
      omega
    rw [List.foldl_cons, h1]
    dsimp only
    rw [hn]
    exact ih h3 fun e he => by
      have := hw e he
      omega

theorem any_flat {f : Place → Bool} (hf : ∀ a, f (.dram a) = false) (h : Flat ps pa n) : (ps.any fun p => f p.at_) = false := by
  rw [List.any_eq_false]
  intro p hp
  obtain ⟨a, e, -⟩ := flat_mem h hp
  rw [e, hf]
  decide

/-- What a job reads of whole words of device memory, with the lines that it has used. -/
theorem ringRead_flat {a : Word} {f : List Byte → State → State}
    (hc : s.chkRun ⟨j.core, j.ctx, j.task, 0, s.dtag j.dom, false⟩ .st .jobRead none (runParts j.chunk a j.chunk) = .ok ps s)
    (h : Flat ps pa j.chunk) (hw : s.WholeAt pa j.chunk) : s.ringRead port j a f = f (Memory.read s.mem pa j.chunk) (s.touch ps) := by
  unfold State.ringRead
  rw [ringAcc_ok hc]
  dsimp only
  rw [any_flat (f := fun p => s.placeAway j.core j.ctx p) (fun _ => rfl) h, if_neg Bool.false_ne_true, ringErr_flat h hw, readPs_flat h]

theorem writePs_flat (h : Flat ps pa n) (bs : List Byte) (hb : bs.length = n) :
    (s.writePs j ps bs).mem = Memory.write s.mem pa bs ∧
      s.writePs j ps bs = { s with mem := (s.writePs j ps bs).mem, upsets := (s.writePs j ps bs).upsets, sys := (s.writePs j ps bs).sys } := by
  refine ⟨(storeRun_flat (s.dtag j.dom) j.ctx j.core h bs hb).1, ?_⟩
  unfold State.writePs
  generalize s.dtag j.dom = t
  clear hb
  induction ps generalizing s pa n bs with
  | nil => rfl
  | cons p r ih =>
    obtain ⟨h1, h2, h3⟩ := h
    rw [List.foldl_cons]
    dsimp only
    rw [h1]
    have e : s.storeTo (.dram pa) p.va (bs.take p.n) t j.ctx j.core =
        { s with mem := Memory.write s.mem pa (bs.take p.n), upsets := mended s.upsets pa (bs.take p.n).length
                 sys := (s.storeTo (.dram pa) p.va (bs.take p.n) t j.ctx j.core).sys } := by
      unfold State.storeTo
      dsimp only
      rw [touchLine_frame]
      rfl
    rw [ih h3 (bs.drop p.n), e]

/-- What a job writes to device memory. -/
theorem ringWrite_flat {a : Word} {bs : List Byte} {f : State → State}
    (hc : s.chkRun ⟨j.core, j.ctx, j.task, 0, s.dtag j.dom, false⟩ .st .jobWrite none (runParts j.chunk a j.chunk) = .ok ps s)
    (h : Flat ps pa j.chunk) : s.ringWrite port j a bs f = f (s.writePs j ps bs) := by
  unfold State.ringWrite
  rw [ringAcc_ok hc, any_flat (f := fun p => s.logStop j.ctx p) (fun _ => rfl) h, if_neg Bool.false_ne_true]

end

/-! What a job sends. -/

section
variable {s : State} {port : Nat}

theorem setRing_ring {x k : RingJob} {r : List RingJob} (h : (s.port port).ring = x :: r) : ((s.setRing port k).port port).ring = k :: r := by
  unfold State.setRing
  rw [port_updPort_same, h]
  rfl

theorem port_emit (o : Out) (p : Nat) : (s.emit o).port p = s.port p := rfl

theorem putFlits_ring (pl id n p : Nat) : ((s.putFlits pl id n).port p).ring = (s.port p).ring := by
  induction n with
  | zero => rfl
  | succ n ih =>
    rw [putFlits_succ]
    rw [port_emit]
    by_cases hp : p = pl
    · rw [hp] at ih ⊢
      rw [port_updPort_same]
      exact ih
    · rw [port_updPort_other _ _ hp, ih]

/-- Flits of the job at the head leave; the job and its queue stay. -/
theorem ringPump_spec {k : RingJob} {r : List RingJob} (h : (s.port port).ring = k :: r) :
    (s.ringPump port).mem = s.mem ∧ (∃ f, ((s.ringPump port).port port).ring = { k with flits := f } :: r) ∧
      ∃ l, (s.ringPump port).out = s.out ++ l ∧ ∀ x ∈ l, ∃ q d, x = .flit port q d := by
  unfold State.ringPump
  rw [h]
  dsimp only
  generalize min k.flits (1024 - (s.port port).retry.length) = n
  split
  · exact ⟨rfl, ⟨k.flits, h⟩, [], (List.append_nil _).symm, fun _ hx => absurd hx List.not_mem_nil⟩
  · refine ⟨?_, ⟨k.flits - n, ?_⟩, _, putFlits_out _ _ _ _, fun x hx => ?_⟩
    · show ((s.setRing port _).putFlits port s.nextId n).mem = _
      rw [putFlits_frame]
      rfl
    · exact (putFlits_ring _ _ _ _).trans (setRing_ring h)
    · obtain ⟨i, -, rfl⟩ := List.mem_map.1 hx
      exact ⟨_, _, rfl⟩

/-- A job that goes on as `k` sends, or its bytes are dropped at the port. -/
theorem ringSend_spec (k : RingJob) (n : Nat) (o : Out) {x : RingJob} {r : List RingJob} (h : (s.port port).ring = x :: r) :
    (s.ringSend port k n o).mem = s.mem ∧ s.RingSent (s.ringSend port k n o) port o k r := by
  unfold State.ringSend
  cases hc : s.ringCut port k with
  | true =>
    rw [if_pos rfl]
    refine ⟨rfl, ⟨k.flits, setRing_ring (x := x) ?_⟩, fun hf => (Bool.noConfusion (hc.symm.trans hf)), fun _ => ⟨rfl, ?_⟩⟩
    · rw [port_updPort_same]
      exact h
    · unfold State.setRing
      rw [port_updPort_same, port_updPort_same]
      rfl
  | false =>
    rw [if_neg Bool.false_ne_true]
    have hp : (((s.markPeer k.dom.id k.nextd).emit o).port port).ring = x :: r := by
      rw [markPeer_frame]
      exact h
    obtain ⟨h1, ⟨f, h2⟩, l, h3, h4⟩ := ringPump_spec (setRing_ring (k := { k with flits := k.flits + 3 * ((n + 63) / 64) }) hp)
    refine ⟨h1.trans ?_, ⟨f, h2⟩, fun _ => ⟨l, h3.trans ?_, h4⟩, fun hf => (Bool.noConfusion (hc.symm.trans hf))⟩
    · rw [markPeer_frame]
      rfl
    · rw [markPeer_frame]
      exact List.append_assoc _ [o] l

/-- The same from a state with another hub of the same contents, and what has been put out. -/
theorem RingSent.congr {u t : State} {o : Out} {k : RingJob} {r : List RingJob} (hh : u.hub = s.hub) (ho : u.out = s.out)
    (h : u.RingSent t port o k r) : s.RingSent t port o k r := by
  have hp : u.port port = s.port port := by
    unfold State.port
    rw [hh]
  have hc : u.ringCut port k = s.ringCut port k := by
    unfold State.ringCut
    rw [hp, hh]
  obtain ⟨h1, h2, h3⟩ := h
  rw [hc] at h2 h3
  rw [ho] at h2 h3
  rw [hp] at h3
  exact ⟨h1, h2, h3⟩

/-- A job sends from a state that differs in neither hub nor output. -/
theorem ringSend_from {u : State} (k : RingJob) (n : Nat) (o : Out) {x : RingJob} {r : List RingJob} (hh : u.hub = s.hub) (ho : u.out = s.out)
    (h : (s.port port).ring = x :: r) : (u.ringSend port k n o).mem = u.mem ∧ s.RingSent (u.ringSend port k n o) port o k r := by
  have hp : (u.port port).ring = x :: r := by
    unfold State.port at h ⊢
    rw [hh]
    exact h
  obtain ⟨h1, h2⟩ := ringSend_spec k n o hp
  exact ⟨h1, RingSent.congr hh ho h2⟩

end


/-! The steps of a job. -/

section
variable {s : State} {port : Nat} {j : RingJob} {r : List RingJob}

theorem touch_hub (ps : List Piece) : (s.touch ps).hub = s.hub := by rw [touch_frame]

theorem touch_mem (ps : List Piece) : (s.touch ps).mem = s.mem := by rw [touch_frame]

theorem touch_out (ps : List Piece) : (s.touch ps).out = s.out := by rw [touch_frame]

theorem touch_cyc (ps : List Piece) : (s.touch ps).cyc = s.cyc := by rw [touch_frame]

theorem touch_dtag (ps : List Piece) (d : DTag) : (s.touch ps).dtag d = s.dtag d := by rw [touch_frame]; rfl

theorem execRingJobStart_sends {ps : List Piece} {pa : Nat} (h : (s.port port).ring = j :: r) (hp : j.park = none) (hs : j.started = false)
    (hc : j.code = none) (he : s.expired hubEp (s.dtag j.dom) = false) (hd : j.dt < 3) (hk : j.kind ≠ 2)
    (ha : s.chkRun ⟨j.core, j.ctx, j.task, 0, s.dtag j.dom, false⟩ .st .jobRead none
      (runParts j.chunk (j.srcOf ((j.rank + j.nr - 1) % j.nr)) j.chunk) = .ok ps s)
    (hf : Flat ps pa j.chunk) (hw : s.WholeAt pa j.chunk) : execRingJobStart port s =
      .next ((s.touch ps).ringSend port { j with started := true, lastAt := s.cyc } (Memory.read s.mem pa j.chunk).length
        (.ring port 0 (Memory.read s.mem pa j.chunk) (s.dtag j.dom))) := by
  unfold execRingJobStart
  rw [h]
  dsimp only
  have hg (x : List Byte) : ringGood j.dt x = true := by
    unfold ringGood
    have : (j.dt != 3) = true := by simpa using (by omega : j.dt ≠ 3)
    rw [this]
    rfl
  rw [if_neg (by simp [hs, hp, hc]), he, if_neg Bool.false_ne_true, if_neg (by omega), if_neg hk, ringRead_flat ha hf hw, if_neg (by simp [hg]),
    if_neg hk, touch_dtag]

/-- A chunk at a started job that is not stopped, and whose domain is live. -/
theorem execRingChunkStep_live (ctx : Ctx) (card : RingKey) (bs : List Byte) (h : (s.port port).ring = j :: r) (hp : j.park = none)
    (hs : j.started = true) (hc : j.code = none) (hf : j.flits = 0) (he : s.expired hubEp (s.dtag j.dom) = false) :
    exec (.ringChunkStep port (.chunk ctx card bs)) s = .next (s.ringTake port j ctx card (
      if j.dt = 4 ∨ bs.length ≠ j.chunk then s
      else
        if j.adding then
          s.ringRead port j (j.srcOf j.cid) fun own s =>
            match ringSum j.dt (bs.length / ringElem j.dt) bs own with
            | none => s.setRing port { j with code := some 6 }
            | some v =>
              if j.step + 2 = j.nr then s.ringWrite port j (j.dstOf j.cid) v fun s => s.ringNext port j v else s.ringNext port j v
        else s.ringWrite port j (j.dstOf j.cid) bs fun s => s.ringNext port j bs)) := by
  show execRingChunkStep port (.chunk ctx card bs) s = _
  unfold execRingChunkStep
  rw [h]
  dsimp only
  rw [if_neg (by simp [hs, hp, hc, hf]), he, if_neg Bool.false_ne_true] <;> rfl

theorem execRingChunkStep_expired (i : RingIn) (h : (s.port port).ring = j :: r) (hp : j.park = none) (hs : j.started = true)
    (hc : j.code = none) (hf : j.flits = 0) (he : s.expired hubEp (s.dtag j.dom) = true) :
    execRingChunkStep port i s = .next (s.setRing port { j with code := some 5 }) := by
  unfold execRingChunkStep
  rw [h]
  dsimp only
  rw [if_neg (by simp [hs, hp, hc, hf]), he, if_pos rfl]

/-- What comes without an entry of the port's map. -/
theorem ringTake_unmapped {ctx : Ctx} {card : RingKey} (f : State)
    (hm : (s.port port).map.find? (fun e => e.1 == BitVec.ofNat 8 j.prevd && e.2.1 == ctx) = none) : s.ringTake port j ctx card f =
      (s.emit (.sideband 20 (BitVec.ofNat 64 j.prevd))).send j.prevd (.refusal (ringNo port) 0#64 0#16 none) DTag.imm ctx nCores 0#16 := by
  unfold State.ringTake
  rw [hm]

theorem ringTake_mapped {ctx a : Ctx} {b : BitVec 8} {card : RingKey} (f : State)
    (hm : (s.port port).map.find? (fun e => e.1 == BitVec.ofNat 8 j.prevd && e.2.1 == ctx) = some (b, a, j.ctx)) :
    s.ringTake port j ctx card f = if card ≠ j.key then s.setRing port { j with code := some 1 } else f := by
  unfold State.ringTake
  rw [hm]
  dsimp only
  rw [if_neg (fun h => h rfl)]

theorem ringNext_last {bs : List Byte} (h : j.last ≤ j.step) : s.ringNext port j bs = s.setRing port { j with code := some 0 } := if_pos h

theorem ringNext_goes {bs : List Byte} (h : j.step < j.last) : s.ringNext port j bs =
    s.ringSend port { j with step := j.step + 1, lastAt := s.cyc } bs.length (.ring port (j.step + 1) bs (s.dtag j.dom)) :=
  if_neg (by omega)

/-! A lost neighbour (R282). -/

theorem withdraw_frame (c : Nat) (p : Party → Bool) : s.withdraw c p = { s with cls := (s.withdraw c p).cls } := rfl

/-- The job that a loss has stopped. -/
def RingJob.lostBy (j : RingJob) (mask : BitVec 192) (first : Nat) (fwd : Bool) : RingJob := { j with
  lost := j.lost ||| mask, first := if j.lost = 0#192 then first else j.first
  code := if j.code = some 0 then some 8 else some (j.code.getD 8), lossSent := j.lossSent || fwd, park := none }

theorem ringLost_sends (mask : BitVec 192) (first : Nat) (fwd : Bool) (hl : j.lossSent = false) : s.ringLost port j mask first fwd =
    (s.withdraw j.core fun p => p == .ring port).ringSend port (j.lostBy mask first fwd) 24 (.lossMark port (j.lostBy mask first fwd).lost) := by
  unfold State.ringLost
  dsimp only
  rw [hl, if_neg Bool.false_ne_true]
  unfold RingJob.lostBy
  rw [hl]

theorem ringLost_kept (mask : BitVec 192) (first : Nat) (fwd : Bool) (hl : j.lossSent = true) : s.ringLost port j mask first fwd =
    (s.withdraw j.core fun p => p == .ring port).setRing port (j.lostBy mask first fwd) := by
  unfold State.ringLost
  dsimp only
  rw [hl, if_pos rfl]
  unfold RingJob.lostBy
  rw [hl]

/-- The mark of a loss leaves, and the job goes on as the one that the loss has stopped. -/
theorem ringLost_sent (mask : BitVec 192) (first : Nat) (fwd : Bool) {x : RingJob} (hl : j.lossSent = false) (h : (s.port port).ring = x :: r) :
    (s.ringLost port j mask first fwd).mem = s.mem ∧
      s.RingSent (s.ringLost port j mask first fwd) port (.lossMark port (j.lostBy mask first fwd).lost) (j.lostBy mask first fwd) r := by
  rw [ringLost_sends mask first fwd hl]
  obtain ⟨h1, h2⟩ := ringSend_from (u := s.withdraw j.core fun p => p == .ring port) (j.lostBy mask first fwd) 24
    (.lossMark port (j.lostBy mask first fwd).lost) rfl rfl h
  exact ⟨h1, h2⟩

/-- The first device of a mask. -/
def firstOf (m : BitVec 192) : Nat := ((List.range 192).find? fun i => m.getLsbD i).getD 0

theorem execLossMarkArrival_stops (m : BitVec 192) (h : (s.port port).ring = j :: r) (hm : m ≠ 0#192) (hc : j.code = none ∨ j.code = some 8) :
    execLossMarkArrival port m s = .next (s.ringLost port { j with started := true } m (firstOf m) true) := by
  unfold execLossMarkArrival
  rw [h]
  dsimp only
  rw [if_pos ⟨hm, hc.elim (fun h => .inl (by rw [h]; rfl)) fun h => .inr (.inl h)⟩]
  rfl

theorem execRingLossTimeout_due (h : (s.port port).ring = j :: r) (hp : j.park = none) (hs : j.started = true) (hc : j.code = none)
    (ht : j.lastAt + 1200 * j.tmo ≤ s.cyc) : execRingLossTimeout port s = .next (s.ringLost port j (1#192 <<< j.prev) j.prev false) := by
  unfold execRingLossTimeout
  rw [h]
  dsimp only
  rw [if_pos ⟨hs, by rw [hc]; rfl, by rw [hp]; rfl, ht⟩]

/-! The end of a job. -/

/-- What the end of a job does to its core. -/
def Core.ringEnd (x : Core) (j : RingJob) (k cyc : Nat) : Core :=
  let st : BitVec 48 := if k = 8 then BitVec.ofNat 48 (8 * 2 ^ 36 + j.step * 2 ^ 27 + j.first * 2 ^ 19) else engSt (j.endCode k)
  let x := if k = 8 then x.spWrite j.lrec (leBytes 24 j.lost.toNat ++ leBytes 4 j.step ++ leBytes 4 0) else x
  ((x.arrive j.cmpl false false (some st)).evalArmed j.cmpl cyc).evalArmed (j.cmpl + 8) cyc

theorem execRingJobEnd_ends {k : Nat} (h : (s.port port).ring = j :: r) (hc : j.code = some k) (hb : s.ringBusy port j = false)
    (ho : k = 0 → j.flits = 0 ∧ j.due = 0) : execRingJobEnd port s =
      .next ((s.updPort port fun p => { p with ring := r }).updIn j.core j.ctx fun x => x.ringEnd j k s.cyc) := by
  unfold execRingJobEnd
  rw [h]
  dsimp only
  rw [hc]
  dsimp only
  rw [hb, if_neg (by
    rintro (hf | ⟨hk, hf⟩)
    · exact Bool.false_ne_true hf
    · obtain ⟨h1, h2⟩ := ho hk
      exact hf.elim (fun hf => hf h1) fun hf => hf h2)]
  rfl

/-- An arrival writes nothing before its object. -/
theorem arrive_below {x : Core} {off o : Nat} (h : o < off) (dep ann : Bool) (st : Option (BitVec 48)) :
    Memory.get (x.arrive off dep ann st).sp o = Memory.get x.sp o := by
  have hw (y : Core) (p : Nat) (w : Word) (hp : o < p) : Memory.get (y.spWrite p (wordBytes w)).sp o = Memory.get y.sp o :=
    Memory.get_write_outside _ _ _ _ (.inl hp)
  unfold Core.arrive
  dsimp only
  split
  · exact hw _ _ _ (by omega)
  · split
    · rw [Core.setTag_sp, hw _ _ _ (by omega), hw _ _ _ h]
    · rw [hw _ _ _ (by omega), hw _ _ _ h]

/-- The loss record stays when the object stands behind it. -/
theorem read_ringEnd (x : Core) (cyc : Nat) (h : j.lrec + 32 ≤ j.cmpl) :
    Memory.read (x.ringEnd j 8 cyc).sp j.lrec 28 = leBytes 24 j.lost.toNat ++ leBytes 4 j.step := by
  have hl : (leBytes 24 j.lost.toNat ++ leBytes 4 j.step).length = 28 := by simp [leBytes_length]
  have ha : Memory.read (x.ringEnd j 8 cyc).sp j.lrec 28 =
      Memory.read (Memory.write x.sp j.lrec ((leBytes 24 j.lost.toNat ++ leBytes 4 j.step) ++ leBytes 4 0)) j.lrec 28 :=
    Memory.read_congr fun i _ hi => by
      unfold Core.ringEnd
      dsimp only
      rw [if_pos rfl, Core.evalArmed_sp, Core.evalArmed_sp, arrive_below (by omega)]
      rfl
  have hb : Memory.read (Memory.write x.sp j.lrec ((leBytes 24 j.lost.toNat ++ leBytes 4 j.step) ++ leBytes 4 0)) j.lrec 28 =
      Memory.read (Memory.write x.sp j.lrec (leBytes 24 j.lost.toNat ++ leBytes 4 j.step)) j.lrec 28 := by
    rw [Memory.write_append, hl]
    exact Memory.read_congr fun i _ hi => Memory.get_write_outside _ _ _ _ (.inl (by omega))
  have hr := Memory.read_write x.sp j.lrec (leBytes 24 j.lost.toNat ++ leBytes 4 j.step)
  rw [hl] at hr
  exact ha.trans (hb.trans hr)

end

/-! `ringj`. -/

section
variable {s : State} {x : DmR} {a d : Reg}

theorem dbgBlind_arrive (off : Nat) (dep ann : Bool) (st : Option (BitVec 48)) : DbgBlind fun c => c.arrive off dep ann st := by
  intro x e
  have hw (o : Nat) : ({ x with dbg := e } : Core).spWord o = x.spWord o := by
    unfold Core.spWord
    congr 1
  show ({ x with dbg := e } : Core).arrive off dep ann st = _
  unfold Core.arrive
  simp only [hw]
  split
  · rfl
  · split <;> rfl

/-- The job of a good card. -/
def State.ringJob (s : State) (k : RCard) (t : DTag) : RingJob :=
  let w := s.who s.cur false
  { core := s.cur, nr := k.nr, rank := k.rank, nextd := bits k.w0 47 40, prevd := bits k.w0 39 32, dt := k.dt, kind := k.kind
    tmo := bits k.w0 15 0, src := k.src, dst := k.dst, len := k.len.toNat, cmpl := k.cmpl.toNat, lrec := k.lrec.toNat
    dom := t, ctx := w.ctx, task := w.task, started := false, step := 0, lastAt := s.cyc, lost := 0#192, first := 0
    code := none, lossSent := false, id := s.nextId, park := none, act := s.me.act.map (·.id), flits := 0, due := 0
    refused := false }

theorem execRingj_eq (x : DmR) (a d : Reg) (s : State) : exec (.ringj x a d) s = .next (
    let k := readRCard (s.me.spRead (s.me.rs a).toNat 128)
    if ! (s.dmr x).2 then s.sTrap 0x08#8 ((s.dmr x).1.setWidth 64)
    else if ! offOk (s.me.rs a) 128 then s.sTrap 0x02#8 (s.me.rs a)
    else if s.me.spBusy s.cur then s.sRetry
    else if k.port < nPorts ∧ (s.port k.port).ring.length ≥ 4 then s.sStall (s.me.rs a)
    else if k.code s.own ≠ 0 then s.sDone 1 4 fun c => c.ws d (BitVec.ofNat 64 (2 ^ 63 + k.code s.own))
    else match s.ringBad (s.who s.cur false) k with
      | some (acc, v) => s.sViol acc v
      | none =>
        let t := s.sideDom x (s.dmr x).1
        if ! t.2 then s.sDone 1 4 fun c =>
          (((c.arrive k.cmpl.toNat false false (some (engSt 5))).evalArmed k.cmpl.toNat s.cyc).evalArmed (k.cmpl.toNat + 8) s.cyc).ws d 0#64
        else (s.fresh.updPort k.port fun p => { p with ring := p.ring ++ [s.ringJob k t.1] }).sDone 1 4 fun c => c.ws d 0#64) := by
  rfl

end

/-- Settles O42: a sequencer that reads or writes whole words of device memory does nothing else to the hub and the output before it sends. -/
theorem ringCollective : Obligations.RingCollective := by
  intro s
  refine ⟨fun x a d m => ?_, fun port j r hr hp => ?_⟩
  · intro off k
    have hx := execRingj_eq x a d s
    dsimp only at hx
    refine ⟨fun hm => ?_, fun hm => ⟨fun ho => ?_, fun h1 h2 h3 hb h4 h5 => ?_, fun h1 h2 h3 hb h4 => ?_⟩⟩
    · rw [hm] at hx
      exact hx
    · rw [hm, if_neg (by simp), if_pos] at hx
      · exact hx
      · have : offOk off 128 ≠ true := fun h => by
          have := (offOk_iff off 128).1 h
          omega
        simpa using this
    · rw [hm, if_neg (by simp), if_neg (by rw [(offOk_iff off 128).2 ⟨h1, h2, h3⟩]; decide), hb, if_neg Bool.false_ne_true,
        if_pos ⟨h4, h5⟩] at hx
      exact hx
    · rw [hm, if_neg (by simp), if_neg (by rw [(offOk_iff off 128).2 ⟨h1, h2, h3⟩]; decide), hb, if_neg Bool.false_ne_true,
        if_neg (fun h => absurd h.2 (Nat.not_le.2 h4))] at hx
      refine ⟨fun hc hbad hs => ?_, fun hc => ?_, fun hc hbad hs => ?_⟩
      · rw [if_neg (fun h => h hc), hbad] at hx
        dsimp only at hx
        rw [hs, if_pos (show (!false) = true from rfl)] at hx
        exact does_intro _ _ _ _ _ (((((dbgBlind_arrive _ _ _ _).comp (dbgBlind_evalArmed _ _)).comp (dbgBlind_evalArmed _ _)).comp
          (dbgBlind_ws _ _))) hx
      · rw [if_pos hc] at hx
        exact ⟨_, hx, s.sDone_ws 1 4 d _⟩
      · rw [if_neg (fun h => h hc), hbad] at hx
        dsimp only at hx
        rw [hs, if_neg (by decide)] at hx
        exact ⟨_, s.ringJob k (s.sideDom x m).1, _, hx, State.sDone_spec _ _ _ _ (dbgBlind_ws _ _), rfl, rfl, rfl, rfl, rfl, rfl, rfl⟩
  · intro w c0 at_
    refine ⟨?_, fun hs hc hf => ⟨fun he i => ?_, fun he => ⟨fun ctx card bs hm => ?_, fun ctx card bs a b hm => ⟨fun hk => ?_,
      fun pa hk hd hb hadd hat => ?_, fun v pa hk hd hb hadd hn hl hat hw hv => ?_⟩⟩, fun ht hl => ?_, fun m hm hl => ?_⟩,
      fun m hm hc => ⟨fun hl => ?_, fun hl => ?_⟩, fun k hc ha hb ho => ?_⟩
    · intro pa hs hc he hd hk hat hw
      obtain ⟨ps, hps, hf⟩ := hat
      obtain ⟨h1, h2⟩ := ringSend_from (u := s.touch ps) (s := s) { j with started := true, lastAt := s.cyc }
        (Memory.read s.mem pa j.chunk).length (.ring port 0 (Memory.read s.mem pa j.chunk) (s.dtag j.dom)) (touch_hub ps) (touch_out ps) hr
      exact ⟨_, execRingJobStart_sends hr hp hs hc he hd hk hps hf hw, h1.trans (touch_mem ps), h2⟩
    · exact ⟨_, execRingChunkStep_expired i hr hp hs hc hf he, rfl, setRing_ring hr⟩
    · refine ⟨_, _, (execRingChunkStep_live ctx card bs hr hp hs hc hf he).trans (congrArg _ (ringTake_unmapped _ hm)), rfl, hr, rfl, rfl, rfl,
        ringNo port, rfl⟩
    · refine ⟨_, (execRingChunkStep_live ctx card bs hr hp hs hc hf he).trans (congrArg _ ((ringTake_mapped _ hm).trans (if_pos hk))), rfl, setRing_ring hr⟩
    · obtain ⟨ps, hps, hfl⟩ := hat
      obtain ⟨w1, w2⟩ := writePs_flat (s := s) (j := j) hfl bs hb
      have hx : exec (.ringChunkStep port (.chunk ctx card bs)) s = .next ((s.writePs j ps bs).ringNext port j bs) := by
        refine (execRingChunkStep_live ctx card bs hr hp hs hc hf he).trans (congrArg _ ?_)
        rw [ringTake_mapped _ hm, if_neg (fun h => h hk), if_neg (by omega), hadd, if_neg Bool.false_ne_true, ringWrite_flat hps hfl]
      by_cases hl : j.last ≤ j.step
      · rw [ringNext_last hl] at hx
        refine ⟨_, hx, w1, fun _ => ⟨?_, ?_⟩, fun h => absurd hl (Nat.not_le.2 h)⟩
        · show (s.writePs j ps bs).out = _
          rw [w2]
        · refine setRing_ring (x := j) ?_
          rw [w2]
          exact hr
      · rw [ringNext_goes (Nat.not_le.1 hl)] at hx
        obtain ⟨h1, h2⟩ := ringSend_from (u := s.writePs j ps bs) (s := s) { j with step := j.step + 1, lastAt := s.cyc }
          bs.length (.ring port (j.step + 1) bs (s.dtag j.dom)) (by rw [w2]) (by rw [w2]) hr
        have e1 : (s.writePs j ps bs).cyc = s.cyc := by rw [w2]
        have e2 : (s.writePs j ps bs).dtag j.dom = s.dtag j.dom := by rw [w2]; rfl
        rw [e1, e2] at hx
        exact ⟨_, hx, h1.trans w1, fun h => absurd h hl, fun _ => h2⟩
    · obtain ⟨ps, hps, hfl⟩ := hat
      have hx : exec (.ringChunkStep port (.chunk ctx card bs)) s = .next ((s.touch ps).ringNext port j v) := by
        refine (execRingChunkStep_live ctx card bs hr hp hs hc hf he).trans (congrArg _ ?_)
        rw [ringTake_mapped _ hm, if_neg (fun h => h hk), if_neg (by omega), hadd, if_pos rfl, ringRead_flat hps hfl hw, hv]
        exact if_neg hn
      rw [ringNext_goes hl, touch_dtag, touch_cyc] at hx
      obtain ⟨h1, h2⟩ := ringSend_from (u := s.touch ps) (s := s) { j with step := j.step + 1, lastAt := s.cyc }
        v.length (.ring port (j.step + 1) v (s.dtag j.dom)) (touch_hub ps) (touch_out ps) hr
      exact ⟨_, hx, h1.trans (touch_mem ps), h2⟩
    · obtain ⟨h1, h2⟩ := ringLost_sent (1#192 <<< j.prev) j.prev false hl hr
      exact ⟨_, _, execRingLossTimeout_due hr hp hs hc ht, h1, h2, by unfold RingJob.lostBy; rw [hc]; rfl, rfl, rfl, rfl⟩
    · obtain ⟨h1, h2⟩ := ringLost_sent (j := { j with started := true }) m (firstOf m) true hl hr
      exact ⟨_, _, execLossMarkArrival_stops m hr hm (.inl hc), h1, h2, by unfold RingJob.lostBy; rw [hc]; rfl, rfl, Bool.or_true _, rfl⟩
    · obtain ⟨h1, h2⟩ := ringLost_sent (j := { j with started := true }) m (firstOf m) true hl hr
      exact ⟨_, _, execLossMarkArrival_stops m hr hm (.inr hc), h1, h2, rfl, Bool.or_true _, rfl⟩
    · refine ⟨_, RingJob.lostBy { j with started := true } m (firstOf m) true, (execLossMarkArrival_stops m hr hm (.inr hc)).trans
        (congrArg _ (ringLost_kept (j := { j with started := true }) m (firstOf m) true hl)), rfl, rfl, setRing_ring hr, rfl⟩
    · have hx := execRingJobEnd_ends hr hc hb ho
      rw [updIn_here (s := s.updPort port fun p => { p with ring := r }) ha] at hx
      have hcore : ((s.updPort port fun p => { p with ring := r }).upd j.core fun x => x.ringEnd j k s.cyc).core j.core =
          (s.core j.core).ringEnd j k s.cyc := State.core_upd_same _ _ _
      refine ⟨_, hx, rfl, congrArg Port.ring (port_updPort_same s port fun p => { p with ring := r }), fun hk => ?_, fun hk hl => ?_⟩
      · intro code
        rw [hcore]
        unfold Core.ringEnd
        dsimp only
        rw [if_neg hk, if_neg hk]
        rfl
      · rw [hcore, hk]
        exact read_ringEnd _ _ hl

end Sys2Proof.Machine
end

section
/-! A late violation of a core that has registered a barrier object of a peer (07 R134, 18 R300). -/

namespace Sys2Proof.Machine

/-- A store of the running activation to a peer, whose packet has left. -/
def lateAcc : PAcc := ⟨0, false, ⟨0#64, .peer 0#64, 8, .so, false⟩, .store [], DTag.imm, false, none, 0#16, 7, 0, some 0, 0#5⟩

/-- The core of the refused store, with a registration at an object of a peer. -/
def lateCore : Core := { Core.zero with
  stat := .run, acc := [lateAcc], regsB := [(nCores + 2, 0xFE000000001000)]
  act := some ⟨msgZero, 0#2, 0, 0#16, none, 0, 0, none, 7⟩ }

/-- The refusal of the store has come back. -/
def lateState : State := { State.reset with
  cores := [(0, lateCore)]
  net := [⟨0, 0, .refusal 0 0#64 0#16 none, DTag.imm, 0#16, nCores, false, 0, 0#16, false, none⟩] }

/-- The accesses that a core of the next state has pending. -/
def pendingOf (o : Out1) (c : Nat) : Nat := match o with | .next t => (t.core c).acc.length | _ => 0

/-- The departure from the peer's object is an access that the core has now pending (07 R134, 10 R191). -/
theorem late_departs : pendingOf (exec (.lateViolationReport 0 0#64 0#16 none) lateState) 0 = 1 := by decide +kernel

/-- Refutes O43: a violation departs from the core's registrations, and the departure from an object of a peer is a new pending access, so
the core is not left with the refused access taken out of its list and nothing else. -/
theorem not_faultResolution : ¬ Obligations.FaultResolution := by
  intro h
  obtain ⟨-, -, -, -, h, -⟩ := h lateState
  obtain ⟨-, h⟩ := h 0 0#64 0#16 none _ rfl (by decide)
  obtain ⟨t, ht, -, -, ha⟩ := h lateAcc rfl rfl (by decide)
  have h1 := late_departs
  rw [ht] at h1
  have h0 : (t.core 0).acc.length = 0 := by
    rw [ha]
    rfl
  exact absurd (h0.symm.trans h1) (by decide)

end Sys2Proof.Machine
end

section
/-! Walks, shoot-downs and lease recalls (11 R199, R203, R204, R207, 20 R322). -/

namespace Sys2Proof.Machine

/-! Walks. -/

section
variable {s : State} {c : Nat}

theorem execTableWalk_ok {va v : Word} {acc : Acc} {ps : List Piece} {t : State} (hv : classify s.own c va = .dva v)
    (h : s.chkPiece c (bufOf acc) (s.who c false).ctx acc (s.taskFps (s.who c false).task) v 1 = .ok ps t) :
    exec (.tableWalk c va acc) s = .next t := by
  show execTableWalk c va acc s = _
  unfold execTableWalk
  dsimp only
  rw [hv]
  dsimp only
  rw [h]

theorem execTableWalk_dem {va v a : Word} {acc : Acc} {fk : BitVec 4} {l : Bool} (hv : classify s.own c va = .dva v)
    (h : s.chkPiece c (bufOf acc) (s.who c false).ctx acc (s.taskFps (s.who c false).task) v 1 = .dem a fk l) :
    exec (.tableWalk c va acc) s = .next (s.walkFault c acc a fk l) := by
  show execTableWalk c va acc s = _
  unfold execTableWalk
  dsimp only
  rw [hv]
  dsimp only
  rw [h]

/-- The fault of a walk for a running core parks it. -/
theorem walkFault_run {acc : Acc} {a : Word} {fk : BitVec 4} {l : Bool} (hacc : acc = .load ∨ acc = .store ∨ acc = .fetch)
    (hs : (s.core c).stat = .run) (ha : (s.core c).act ≠ none) (hp : (s.core c).park = none) :
    s.walkFault c acc a fk l = s.demand c acc false (s.core c).pc a fk l := by
  have hb : ((s.core c).act.isSome && (s.core c).park.isNone) = true := by
    rw [hp, Option.isSome_iff_ne_none.2 ha]
    rfl
  unfold State.walkFault
  dsimp only
  rcases hacc with rfl | rfl | rfl <;> dsimp only <;> rw [hs] <;> exact if_pos hb

/-- A demand fault parks its core, whose pc and registers stay. -/
theorem demand_parks (acc : Acc) (w : Bool) (pc a : Word) (fk : BitVec 4) (l : Bool) :
    (s.demand c acc w pc a fk l).mem = s.mem ∧ ((s.demand c acc w pc a fk l).core c).park = some (s.nextId, s.cyc) ∧
      ((s.demand c acc w pc a fk l).core c).pc = (s.core c).pc ∧ ((s.demand c acc w pc a fk l).core c).r = (s.core c).r := by
  obtain ⟨ho, hm, r, o, hc⟩ := s.count_spec c 5#3 pc w
  unfold State.demand
  dsimp only
  generalize s.count c 5#3 pc w = u at ho hm hc ⊢
  rw [State.core_upd_same, ← ho.cyc]
  refine ⟨hm, rfl, ?_, ?_⟩
  · show (u.core c).pc = _
    rw [hc]
  · show (u.core c).r = _
    rw [hc]

end

/-! Shoot-downs. -/

section
variable {s : State} {cl : Nat}

/-- A shoot-down that no pin holds goes to every cluster, and without leases to no peer. -/
theorem execShootdown_go {cmd : BitVec 128} (h : s.shootPinned cmd = false) (hl : s.hub.leases = []) :
    ∃ t, exec (.shootdown cmd) s = .next t ∧ t.cores = s.cores ∧ t.cls = s.cls ∧
      ∃ k, t.hub.shoot = s.hub.shoot ++ [k] ∧ (k.cmd, k.held, k.acks, k.peers) = (cmd, false, List.range nClusters, []) := by
  have hx : exec (.shootdown cmd) s = .next (s.shootGo cmd) := if_neg (by rw [h]; exact Bool.false_ne_true)
  rw [hx]
  unfold State.shootGo
  dsimp only
  rw [hl, List.filter_nil, List.map_nil, List.foldl_nil]
  exact ⟨_, rfl, rfl, rfl, _, rfl, rfl⟩

/-- What a shoot-down leaves of a core's buffers. -/
def Core.Shot (x : Core) (cmd : BitVec 128) : Prop := ∀ e, (e ∈ x.itlb ∨ e ∈ x.dtlb ∨ e ∈ x.stlb) → shootTlb cmd e = false

theorem shoot_buffers (x : Core) (ctx : Ctx) (cmd : BitVec 128) (now : Nat) :
    let f (l : List Tlb) : List Tlb := l.filter fun e => ! shootTlb cmd e
    (x.shoot ctx cmd now).itlb = f x.itlb ∧ (x.shoot ctx cmd now).dtlb = f x.dtlb ∧ (x.shoot ctx cmd now).stlb = f x.stlb ∧
      (x.shoot ctx cmd now).r = x.r ∧ (x.shoot ctx cmd now).acc = x.acc := by
  unfold Core.shoot
  dsimp only
  rw [apply_ite Core.itlb, apply_ite Core.dtlb, apply_ite Core.stlb, apply_ite Core.r, apply_ite Core.acc]
  exact ⟨ite_self _, ite_self _, ite_self _, ite_self _, ite_self _⟩

theorem shoot_shot (x : Core) (ctx : Ctx) (cmd : BitVec 128) (now : Nat) : (x.shoot ctx cmd now).Shot cmd := by
  have hf (l : List Tlb) (e : Tlb) (h : e ∈ l.filter fun e => ! shootTlb cmd e) : shootTlb cmd e = false := by
    simpa using (List.mem_filter.1 h).2
  obtain ⟨h1, h2, h3, -⟩ := shoot_buffers x ctx cmd now
  intro e he
  rw [h1, h2, h3] at he
  exact he.elim (hf _ e) fun he => he.elim (hf _ e) (hf _ e)

/-- The cores of a list are shot down one after another. -/
def State.shootList (s : State) (cmd : BitVec 128) (l : List Nat) : State :=
  l.foldl (fun (s : State) c => match tGet s.cores c with | none => s | some x => s.setCore c (x.shoot (s.who c false).ctx cmd s.cyc)) s

theorem shootList_frame (cmd : BitVec 128) (l : List Nat) : s.shootList cmd l = { s with cores := (s.shootList cmd l).cores } := by
  unfold State.shootList
  induction l generalizing s with
  | nil => rfl
  | cons c l ih =>
    rw [List.foldl_cons, ih]
    split <;> rfl

/-- Every core keeps its registers and accesses, and those of the list lose the entries of the command. -/
theorem shootList_core (cmd : BitVec 128) (l : List Nat) (d : Nat) :
    ((s.shootList cmd l).core d).r = (s.core d).r ∧ ((s.shootList cmd l).core d).acc = (s.core d).acc ∧
      ((tGet (s.shootList cmd l).cores d).isSome = (tGet s.cores d).isSome) ∧
      ((tGet s.cores d).isSome = true → d ∈ l ∨ (s.core d).Shot cmd → ((s.shootList cmd l).core d).Shot cmd) := by
  unfold State.shootList
  induction l generalizing s with
  | nil => exact ⟨rfl, rfl, rfl, fun _ h => h.elim (fun h => absurd h List.not_mem_nil) id⟩
  | cons c l ih =>
    rw [List.foldl_cons]
    cases hx : tGet s.cores c with
    | none =>
      obtain ⟨h1, h2, h3, h4⟩ := ih (s := s)
      refine ⟨h1, h2, h3, fun hs h => h4 hs (h.imp_left fun h => ?_)⟩
      refine (List.mem_cons.1 h).elim (fun e => ?_) id
      rw [e, hx] at hs
      exact absurd hs (by decide)
    | some x =>
      dsimp only
      generalize hy : x.shoot (s.who c false).ctx cmd s.cyc = y
      have hc : s.core c = x := by
        unfold State.core
        rw [hx]
        rfl
      obtain ⟨h1, h2, h3, h4⟩ := ih (s := s.setCore c y)
      obtain ⟨-, -, -, b1, b2⟩ := shoot_buffers x (s.who c false).ctx cmd s.cyc
      rw [hy] at b1 b2
      by_cases hd : d = c
      · rw [hd] at h1 h2 h3 h4 ⊢
        rw [State.core_setCore_same] at h1 h2 h4
        have hg : tGet (s.setCore c y).cores c = some y := by simp
        rw [hg] at h3 h4
        refine ⟨h1.trans (b1.trans (by rw [hc])), h2.trans (b2.trans (by rw [hc])), h3.trans (by rw [hx]; rfl), fun _ _ => h4 rfl (.inr ?_)⟩
        rw [← hy]
        exact shoot_shot _ _ _ _
      · rw [State.core_setCore_other _ _ _ _ hd] at h1 h2 h4
        have hg : tGet (s.setCore c y).cores d = tGet s.cores d := by
          rw [State.setCore_cores, tGet_tPut_other _ _ _ _ hd]
        rw [hg] at h3 h4
        exact ⟨h1, h2, h3, fun hs h => h4 hs (h.imp_left fun h => (List.mem_cons.1 h).resolve_left hd)⟩

theorem shootCl_eq (cmd : BitVec 128) :
    s.shootCl cl cmd = (s.updCl cl fun k => { k with l2 := k.l2.filter fun e => ! shootTlb cmd e }).shootList cmd (clCores cl) := rfl

theorem shootList_cl (cmd : BitVec 128) (l : List Nat) (d : Nat) : (s.shootList cmd l).cl d = s.cl d := by
  rw [shootList_frame]
  rfl

theorem shootCl_l2 (cmd : BitVec 128) : ((s.shootCl cl cmd).cl cl).l2 = (s.cl cl).l2.filter fun e => ! shootTlb cmd e := by
  rw [shootCl_eq, shootList_cl]
  unfold State.updCl State.cl
  rw [tGet_tPut_same]
  rfl

theorem shootCl_mem (cmd : BitVec 128) : (s.shootCl cl cmd).mem = s.mem := by
  rw [shootCl_eq]
  generalize clCores cl = l
  rw [shootList_frame]
  rfl

/-- A cluster whose cores have nothing pending acknowledges at once. -/
theorem execClusterShootdownAck_acks {k : Shoot} (h : s.hub.shoot = [k]) (hh : k.held = false) (hk : cl ∈ k.acks)
    (ha : ∀ c ∈ clCores cl, (s.core c).acc = []) : exec (.clusterShootdownAck cl) s =
      .next ((s.shootCl cl k.cmd).updHub fun h => { h with shoot := [{ k with acks := k.acks.erase cl }] }) := by
  have hw : (s.shootCl cl k.cmd).shootWaits cl k.cmd = false := by
    unfold State.shootWaits
    rw [List.any_eq_false]
    intro c hc
    rw [shootCl_eq, (shootList_core k.cmd (clCores cl) c).2.1]
    show ¬ ((s.core c).acc.any _) = true
    rw [ha c hc]
    exact Bool.false_ne_true
  have hs : (s.shootCl cl k.cmd).hub.shoot = [k] := by
    rw [shootCl_eq, shootList_frame]
    exact h
  show execClusterShootdownAck cl s = _
  unfold execClusterShootdownAck
  rw [h, List.foldl_cons, List.foldl_nil, if_neg (by simp [hh, hk])]
  dsimp only
  generalize s.shootCl cl k.cmd = u at hw hs
  rw [hw, if_neg Bool.false_ne_true]
  refine congrArg (fun l => Host.Outcome.next (u.updHub fun h => { h with shoot := l })) ?_
  rw [hs]
  simp

end

/-- Settles O44: each walk, shoot-down and recall is its own function of the state, and the acknowledgement of a cluster the fold over its
cores. -/
theorem translationEvents : Obligations.TranslationEvents := by
  intro s
  refine ⟨fun c va v acc hv => ?_, fun cmd => ⟨fun h => ?_, fun h hl => ?_⟩, fun cl k hs hh hk ha => ?_, fun k r hs hh hk hp hr => ?_,
    fun dev n => ⟨fun h => ?_, fun h => ?_⟩, fun dev => ?_⟩
  · intro w
    refine ⟨fun ps t h => execTableWalk_ok hv h, fun a fk l h hacc hs ha hp => ?_⟩
    obtain ⟨h1, h2, h3, h4⟩ := demand_parks (s := s) (c := c) acc false (s.core c).pc a fk l
    exact ⟨_, (execTableWalk_dem hv h).trans (congrArg _ (walkFault_run hacc hs ha hp)), h1, ⟨_, h2⟩, h3, h4⟩
  · refine ⟨s.updHub fun h => { h with shoot := h.shoot ++ [⟨cmd, true, [], [], s.cyc⟩] }, ?_, rfl, rfl, rfl, _, rfl, rfl, rfl⟩
    show execShootdown cmd s = _
    exact if_pos h
  · exact execShootdown_go h hl
  · have hm := shootCl_mem (s := s) (cl := cl) k.cmd
    have hl := shootCl_l2 (s := s) (cl := cl) k.cmd
    have hc (c : Nat) (hc : c ∈ clCores cl) : ((s.shootCl cl k.cmd).core c).r = (s.core c).r ∧
        ((tGet s.cores c).isSome = true → ((s.shootCl cl k.cmd).core c).Shot k.cmd) := by
      obtain ⟨h1, -, -, h4⟩ := shootList_core (s := s.updCl cl fun y => { y with l2 := y.l2.filter fun e => ! shootTlb k.cmd e })
        k.cmd (clCores cl) c
      exact ⟨h1, fun hx => h4 hx (.inl hc)⟩
    have hx := execClusterShootdownAck_acks hs hh hk ha
    generalize s.shootCl cl k.cmd = u at hm hl hc hx
    refine ⟨_, hx, hm, ⟨_, rfl, rfl⟩, fun e he => ?_, hc⟩
    have he : e ∈ (u.cl cl).l2 := he
    rw [hl] at he
    simpa using (List.mem_filter.1 he).2
  · have hf : s.hub.shoot.find? (fun x => x.held && ! s.shootPinned x.cmd) = none := by
      rw [List.find?_eq_none, hs]
      intro x hx
      have : x.held = false := (List.mem_cons.1 hx).elim (fun e => e ▸ hh) (hr x)
      rw [this]
      exact Bool.false_ne_true
    have hg : s.hub.shoot.find? (fun x => ! x.held && x.acks.isEmpty && x.peers.isEmpty) = some k := by
      rw [hs, List.find?_cons_of_pos]
      rw [hh, hk, hp]
      rfl
    refine ⟨(s.updHub fun h => { h with shoot := h.shoot.erase k }).emit (.shootDone k.cmd), ?_, ?_, rfl, rfl, rfl⟩
    · show execShootdownComplete s = _
      unfold execShootdownComplete
      rw [hf]
      dsimp only
      rw [hg]
    · show s.hub.shoot.erase k = r
      rw [hs, List.erase_cons_head]
  · obtain ⟨k, hk, hp⟩ := h
    have ha : (s.hub.shoot.any fun k => k.peers.contains (dev, n)) = true :=
      List.any_eq_true.2 ⟨k, hk, List.contains_iff_mem.2 hp⟩
    refine ⟨_, if_pos ha, rfl, fun y hy hm => ?_⟩
    obtain ⟨z, -, rfl⟩ := List.mem_map.1 (show y ∈ s.hub.shoot.map _ from hy)
    have := (List.mem_filter.1 (show (dev, n) ∈ z.peers.filter fun p => p != (dev, n) from hm)).2
    simp at this
  · refine if_neg fun ha => ?_
    obtain ⟨k, hk, hp⟩ := List.any_eq_true.1 ha
    exact h k hk (List.contains_iff_mem.1 hp)
  · refine ⟨_, rfl, rfl, rfl, fun y hy ht p hp => ?_⟩
    obtain ⟨z, -, rfl⟩ := List.mem_map.1 (show y ∈ s.hub.shoot.map _ from hy)
    by_cases hz : z.t + 1200000 ≤ s.cyc
    · rw [if_pos hz] at hp
      simpa using (List.mem_filter.1 hp).2
    · rw [if_neg hz] at ht
      exact absurd ht hz

end Sys2Proof.Machine
end

section
/-! A refused store of a peer (20 R321). -/

namespace Sys2Proof.Machine

/-- A reserved address of this device, as a peer names it. -/
def refusedAddr : Word := 0x01FE000100000000#64

/-- A peer's store to it, which has come here. -/
def refusedPkt : Pkt := ⟨0, 0, .store refusedAddr [0#8], DTag.imm, 0#16, 4096, true, 0, 0#16, false, none⟩

def refusedState : State := { State.reset with net := [refusedPkt] }

/-- The check looks at the address without its device, and names that one. -/
theorem refused_viol : refusedState.peerChk refusedPkt .store refusedAddr 1 = .viol 0xFE000100000000#64 := rfl

/-- The refusal that the source is sent names the address as the packet gave it. -/
theorem refused_answer : exec (.peerAccess 0) refusedState = .next (refusedState.refuse refusedPkt 0 refusedAddr) := rfl

/-- Refutes O45: the refusal of a store carries the address of the packet, with the device that it names, and the violation is found at the
address without it. -/
theorem not_peerPackets : ¬ Obligations.PeerPackets := by
  intro h
  obtain ⟨-, h⟩ := h refusedState
  obtain ⟨-, -, h, -⟩ := h 0 refusedPkt rfl rfl rfl rfl
  obtain ⟨t, q, ht, -, -, hn, -, hq⟩ := h refusedAddr [0#8] _ rfl refused_viol
  rw [refused_answer] at ht
  cases ht
  have hb : [PBody.refusal 0 refusedAddr 0#16 none] = [q.body] := congrArg (List.map Pkt.body) hn
  rw [hq] at hb
  simp only [List.cons.injEq, PBody.refusal.injEq, and_true] at hb
  exact absurd hb.2.1 (by decide)

end Sys2Proof.Machine
end

section
/-! Pre-emption, saves and resumption (18 R303 to R310, 24 R347). -/

namespace Sys2Proof.Machine

/-! Bytes of a scratchpad put back over another. -/

/-- Cells put one after another over a memory. -/
def Memory.over (m l : List Host.Cell) : List Host.Cell := l.foldl (fun m p => tPut m p.1 p.2) m

theorem Memory.get_below {l : List Host.Cell} {n a : Nat} (h : Memory.wfFrom n l = true) (ha : a < n) : Memory.get l a = 0#8 := by
  induction l generalizing n with
  | nil => rfl
  | cons p r ih =>
    obtain ⟨k, b⟩ := p
    simp only [Memory.wfFrom, Bool.and_eq_true, decide_eq_true_eq] at h
    obtain ⟨⟨h1, -⟩, h2⟩ := h
    unfold Memory.get
    rw [if_neg (by omega)]
    exact ih h2 (by omega)

theorem Memory.get_over (m : List Host.Cell) {l : List Host.Cell} {n : Nat} (h : Memory.wfFrom n l = true) (a : Nat) :
    Memory.get (Memory.over m l) a = if Memory.get l a = 0#8 then Memory.get m a else Memory.get l a := by
  unfold Memory.over
  induction l generalizing n m with
  | nil => rfl
  | cons p r ih =>
    obtain ⟨k, b⟩ := p
    simp only [Memory.wfFrom, Bool.and_eq_true, decide_eq_true_eq] at h
    obtain ⟨⟨-, hb⟩, h2⟩ := h
    have hs : tPut m k b = Memory.set m k b := (if_neg hb).symm
    rw [List.foldl_cons, ih (tPut m k b) h2, hs, Memory.get_set]
    by_cases hk : a = k
    · rw [if_pos hk, Memory.get_below h2 (by omega), if_pos rfl, hk]
      simp [Memory.get, hb]
    · rw [if_neg hk, show Memory.get ((k, b) :: r) a = Memory.get r a from if_neg (fun e => hk e.symm)]

theorem Memory.get_filter (m : List Host.Cell) (f : Nat → Bool) (a : Nat) :
    Memory.get (m.filter fun p => f p.1) a = if f a then Memory.get m a else 0#8 := by
  induction m with
  | nil => exact (ite_self _).symm
  | cons p r ih =>
    obtain ⟨k, b⟩ := p
    by_cases hk : k = a
    · subst hk
      cases hf : f k <;> simp [List.filter_cons, hf, Memory.get, ih]
    · cases hf : f k <;> simp [List.filter_cons, hf, Memory.get, ih, hk]

theorem Memory.get_outside {m : List Host.Cell} {f : Nat → Bool} (h : ∀ p ∈ m, f p.1 = true) {a : Nat} (ha : f a = false) :
    Memory.get m a = 0#8 := by
  have e : m.filter (fun p => f p.1) = m := List.filter_eq_self.2 h
  rw [← e, Memory.get_filter, ha, if_neg Bool.false_ne_true]

theorem mem_setIns {a b : Nat} (l : List Nat) : b ∈ setIns a l ↔ b = a ∨ b ∈ l := by
  induction l with
  | nil => simp [setIns]
  | cons k r ih =>
    unfold setIns
    split
    · simp
    · split
      · next h => simp [h]
      · simp only [List.mem_cons, ih]
        tauto

theorem mem_setIns_all (l m : List Nat) (b : Nat) : b ∈ l.foldl (fun m w => setIns w m) m ↔ b ∈ l ∨ b ∈ m := by
  induction l generalizing m with
  | nil => simp
  | cons k r ih =>
    rw [List.foldl_cons, ih, mem_setIns, List.mem_cons]
    tauto

/-! A save. -/

section
variable {s : State} {c : Nat} {ctx : Ctx}

/-- A core whose waits and parks have been taken back, to be issued again after the resumption. -/
def Core.quieted (x : Core) : Core := { x with
  stat := match x.stat with | .wait _ _ _ => .run | t => t
  park := none, waitFrom := none, wFrom := none, pread := []
  jobs := x.jobs.map fun j => if j.st = 3 then { j with st := 2 } else j }

/-- The entries that the core or one of its jobs parks. -/
def Party.parks (c : Nat) : Party → Bool
  | .core k => k == c
  | .job k _ => k == c
  | .ring _ | .none => false

theorem quiet_eq (s : State) (c : Nat) : s.quiet c = ((s.unask c).withdraw c (Party.parks c)).upd c Core.quieted := by
  unfold State.quiet
  refine congrArg (fun p => State.upd (State.withdraw (s.unask c) c p) c Core.quieted) (funext fun p => ?_)
  cases p <;> rfl

theorem unask_frame (s : State) (c : Nat) : s.unask c = { s with net := (s.unask c).net, nextId := (s.unask c).nextId } := by
  unfold State.unask
  split
  · split
    · split
      · rfl
      · split <;> rfl
    · rfl
  · rfl

/-- What the save of a core's context holds. -/
def State.saveOf (s : State) (c : Nat) (ctx : Ctx) : Save :=
  let y := ((s.core c).quieted.only (s.fullKeep c ctx)).physOf Core.zero
  ⟨ctx, true, 0, s.cycs, { y with res := none, preqAt := 0, late := [], c := { y.c with preq := false } }, [], s.fullKeep c ctx⟩

theorem stopMmaj_none (h : (s.row r).gangs = []) : s.stopMmaj r = s := by
  unfold State.stopMmaj
  dsimp only
  rw [h]
  rfl

theorem saveImage_frame (s : State) (c : Nat) (ctx : Ctx) (x : Core) (k i n : Nat) :
    s.saveImage c ctx x k i n = { s with mem := (s.saveImage c ctx x k i n).mem } := by
  have eta (m : List Host.Cell) : ({ s with mem := m } : State) = { s with mem := ({ s with mem := m } : State).mem } := rfl
  unfold State.saveImage
  split
  · rfl
  · exact eta _

theorem memOut_frame (s : State) : s.memOut = { s with sys := { s.sys with buf := s.memOut.sys.buf }, out := s.memOut.out } := by
  unfold State.memOut
  split <;> rfl

/-- A quiet core: what else of the machine differs. -/
theorem quiet_frame (s : State) (c : Nat) : s.quiet c =
    { s with cores := tPut s.cores c (s.core c).quieted, cls := (s.quiet c).cls, net := (s.quiet c).net, nextId := (s.quiet c).nextId } := by
  rw [quiet_eq, withdraw_frame, unask_frame]
  rfl

theorem quiet_core (s : State) (c : Nat) : (s.quiet c).core c = (s.core c).quieted := by
  rw [quiet_eq, State.core_upd_same, withdraw_frame, unask_frame]
  rfl

theorem quiet_hub (s : State) (c : Nat) : (s.quiet c).hub = s.hub := by rw [quiet_frame]

theorem quiet_cyc (s : State) (c : Nat) : (s.quiet c).cyc = s.cyc := by rw [quiet_frame]

theorem quiet_keep (s : State) (c : Nat) (ctx : Ctx) : (s.quiet c).fullKeep c ctx = s.fullKeep c ctx := by
  unfold State.fullKeep
  rw [quiet_core, quiet_hub]
  rfl

theorem putAway_frame (s : State) (c : Nat) (ctx : Ctx) (x : Core) (keep : List (Nat × Nat)) : s.putAway c ctx x true 0 keep =
    { s with
      mem := (s.putAway c ctx x true 0 keep).mem, cores := tPut s.cores c (s.core c).vacant
      hub := { s.hub with saves := tPut s.hub.saves (saveKey ctx c) ⟨ctx, true, 0, s.cycs,
        { (x.only keep).physOf Core.zero with
          res := none, preqAt := 0, late := [], c := { ((x.only keep).physOf Core.zero).c with preq := false } }, [], keep⟩ } } := by
  unfold State.putAway
  dsimp only
  rw [saveImage_frame]
  rfl

/-- A full save: the core is out, and its context stands in its save area. -/
theorem fullSave_frame (hr : (s.core c).res = some ctx) (hg : (s.row (rowOf c)).gangs = []) : s.fullSave c = State.memOut { s with
    cores := tPut (tPut s.cores c (s.core c).quieted) c (s.core c).quieted.vacant
    hub := { s.hub with saves := tPut s.hub.saves (saveKey ctx c) (s.saveOf c ctx) }
    mem := ((s.quiet c).putAway c ctx (s.core c).quieted true 0 (s.fullKeep c ctx)).mem
    cls := (s.quiet c).cls, net := (s.quiet c).net, nextId := (s.quiet c).nextId } := by
  unfold State.fullSave
  rw [hr]
  dsimp only
  rw [stopMmaj_none hg, quiet_core, quiet_keep, putAway_frame, quiet_core]
  refine congrArg State.memOut ?_
  generalize hm : (State.putAway _ c ctx _ true 0 _).mem = m
  have hs : (s.quiet c).cycs = s.cycs := by
    unfold State.cycs
    rw [quiet_cyc]
  rw [hs, quiet_hub]
  have hq := quiet_frame s c
  generalize s.quiet c = q at hq ⊢
  rw [hq]
  rfl

theorem fullSave_core (hr : (s.core c).res = some ctx) (hg : (s.row (rowOf c)).gangs = []) :
    (s.fullSave c).core c = (s.core c).quieted.vacant := by
  rw [fullSave_frame hr hg, memOut_frame]
  unfold State.core
  dsimp only
  rw [tGet_tPut_same]
  rfl

theorem fullSave_hub (hr : (s.core c).res = some ctx) (hg : (s.row (rowOf c)).gangs = []) :
    (s.fullSave c).hub = { s.hub with saves := tPut s.hub.saves (saveKey ctx c) (s.saveOf c ctx) } := by
  rw [fullSave_frame hr hg, memOut_frame]

theorem fullSave_cyc (hr : (s.core c).res = some ctx) (hg : (s.row (rowOf c)).gangs = []) : (s.fullSave c).cyc = s.cyc := by
  rw [fullSave_frame hr hg, memOut_frame]

theorem fullSave_none (hr : (s.core c).res = none) : s.fullSave c = s := by
  unfold State.fullSave
  rw [hr]

end

/-! A resumption. -/

section
variable {s : State} {c : Nat} {v : Save}

/-- The context stands on the core again, before its published tiles are looked at. -/
def State.back (s : State) (c : Nat) (v : Save) : State :=
  (s.updHub fun h => { h with saves := tDel h.saves (saveKey v.ctx c) }).upd c fun y => v.restore s.cyc y

theorem back_core (s : State) (c : Nat) (v : Save) : (s.back c v).core c = v.restore s.cyc (s.core c) := State.core_upd_same _ c _

theorem resume_noLog (hl : v.log = []) : s.resume c v = (s.back c v).closeExpired c := by
  unfold State.resume
  dsimp only
  rw [hl, List.foldl_nil, List.nil_append]
  generalize hw : State.closeExpired _ c = w
  exact hw.symm

/-- Without published tiles and arrivals, the core is what its save makes it. -/
theorem resume_eq (hl : v.log = []) (hp : ∀ t : AReg, (v.core.sl.tile t).st ≠ .published) : s.resume c v = s.back c v := by
  rw [resume_noLog hl, closeExpired_none]
  intro t ht
  rw [back_core] at ht
  exact absurd ht (hp t)

/-- What the closing of published tiles keeps of a core. -/
structure Core.Seated (x y : Core) : Prop where
  res : y.res = x.res
  phys : y.phys = x.phys
  wb : y.sl.wb = x.sl.wb

theorem closeExpired_seated (h : (s.core c).res ≠ none) : (s.core c).Seated ((s.closeExpired c).core c) := by
  unfold State.closeExpired
  generalize List.range 16 = l
  induction l generalizing s with
  | nil => exact ⟨rfl, rfl, rfl⟩
  | cons i l ih =>
    rw [List.foldl_cons]
    dsimp only
    split
    · generalize ht : (s.sl c).tile (BitVec.ofNat 4 i) = h'
      generalize hu : (s.updSl c fun l => l.setTile (BitVec.ofNat 4 i) { h' with st := .poisoned }) = u
      have hc : (s.core c).Seated (u.core c) := by
        rw [← hu, core_updSl]
        exact ⟨rfl, rfl, rfl⟩
      obtain ⟨-, -, r, n, z, hz⟩ := sends_ripSend (s := u) (c := c) (by rw [hc.res]; exact h) (BitVec.ofNat 4 i) 4 true true []
      have hd : (u.core c).Seated ((u.ripSend c (BitVec.ofNat 4 i) 4 true true []).core c) := by
        rw [hz]
        exact ⟨rfl, rfl, rfl⟩
      generalize u.ripSend c (BitVec.ofNat 4 i) 4 true true [] = w at hd ⊢
      have hi := ih (s := w) (by rw [hd.res, hc.res]; exact h)
      exact ⟨hi.res.trans (hd.res.trans hc.res), hi.phys.trans (hd.phys.trans hc.phys), hi.wb.trans (hd.wb.trans hc.wb)⟩
    · exact ih h

/-- Without arrivals, the core has the context again, in the same place. -/
theorem resume_seated (hl : v.log = []) : (v.restore s.cyc (s.core c)).Seated ((s.resume c v).core c) := by
  have := closeExpired_seated (s := s.back c v) (c := c) (by rw [back_core]; exact Option.some_ne_none _)
  rw [resume_noLog hl]
  rwa [back_core] at this

/-- The scratchpad after the resumption of a full save. -/
theorem restore_full_get {now : Nat} {y : Core} (hf : v.full = true) (hv : Memory.wf v.core.sp = true)
    (hk : ∀ p ∈ v.core.sp, inRanges v.keep p.1 = true) (a : Nat) :
    Memory.get (v.restore now y).sp a = if inRanges v.keep a then Memory.get v.core.sp a else Memory.get y.sp a := by
  have e : (v.restore now y).sp = Memory.over (y.sp.filter fun p => ! inRanges v.keep p.1) v.core.sp := by
    unfold Save.restore Save.scratch
    dsimp only
    rw [hf]
    rfl
  rw [e, Memory.get_over _ hv, Memory.get_filter _ (fun a => ! inRanges v.keep a)]
  cases ha : inRanges v.keep a with
  | true =>
    rw [if_pos rfl]
    split
    · next h => rw [h]; rfl
    · rfl
  | false =>
    rw [if_neg Bool.false_ne_true, Memory.get_outside hk ha, if_pos rfl]
    rfl

/-- On a core whose scratchpad is empty a full save puts back what it has kept, and nothing else. -/
theorem restore_full_fresh {now : Nat} {y : Core} (hf : v.full = true) (hv : Memory.wf v.core.sp = true) (hy : y.sp = []) (a : Nat) :
    Memory.get (v.restore now y).sp a = Memory.get v.core.sp a := by
  have e : (v.restore now y).sp = Memory.over (y.sp.filter fun p => ! inRanges v.keep p.1) v.core.sp := by
    unfold Save.restore Save.scratch
    dsimp only
    rw [hf]
    rfl
  rw [e, Memory.get_over _ hv, hy]
  split
  · next h => rw [h]; rfl
  · rfl

theorem restore_full_empties {now : Nat} {y : Core} (hf : v.full = true) (w : Nat) : w ∈ (v.restore now y).empties ↔
    w ∈ v.core.empties ∨ w ∈ y.empties ∧ inRanges v.keep (8 * w) = false := by
  have e : (v.restore now y).empties = v.core.empties.foldl (fun l w => setIns w l) (y.empties.filter fun w => ! inRanges v.keep (8 * w)) := by
    unfold Save.restore Save.scratch
    dsimp only
    rw [hf]
    rfl
  rw [e, mem_setIns_all, List.mem_filter, Bool.not_eq_true']

theorem restore_part_sp {now : Nat} {y : Core} (hf : v.full = false) : (v.restore now y).sp = v.core.sp := by
  unfold Save.restore Save.scratch
  dsimp only
  rw [hf]
  rfl

end

/-! Retirement (R303). -/

section
variable {s : State} {c : Nat} {ctx : Ctx}

/-- The row of a core has its spare in use. -/
def State.spareUsed (s : State) (c : Nat) : Bool := (rowCores (rowOf c)).any fun k => (s.core k).phys == 8

theorem spareUsed_false (h : ∀ k ∈ rowCores (rowOf c), (s.core k).phys ≠ 8) : s.spareUsed c = false := by
  rw [State.spareUsed, List.any_eq_false]
  intro k hk he
  exact h k hk (by simpa using he)

theorem spareUsed_true (h : ∃ k ∈ rowCores (rowOf c), (s.core k).phys = 8) : s.spareUsed c = true := by
  obtain ⟨k, hk, he⟩ := h
  exact List.any_eq_true.2 ⟨k, hk, by simpa using he⟩

/-- The core that the spare takes the place of. -/
def Core.spare (x : Core) : Core :=
  { x with phys := 8, sl := { x.sl with wb := [] }, sp := [], empties := [], ups := [], wbUps := [], itlb := [], dtlb := [], stlb := [] }

/-- On the spare c13 reads 8. -/
def Save.moved (v : Save) : Save := { v with core := { v.core with sp := (v.core.spWrite 0x68 (wordBytes 8#64)).sp } }

/-- The saves of a core, moved to the row's spare. -/
def movedSaves (c : Nat) (l : Tab Save) : Tab Save := l.map fun p => if p.1 % 4096 = c then (p.1, p.2.moved) else p

theorem tGet_movedSaves (c k : Nat) (l : Tab Save) :
    tGet (movedSaves c l) k = (tGet l k).map fun v => if k % 4096 = c then v.moved else v := by
  unfold movedSaves
  induction l with
  | nil => rfl
  | cons p r ih =>
    obtain ⟨a, v⟩ := p
    rw [List.map_cons]
    by_cases h : a % 4096 = c
    · rw [if_pos h]
      unfold tGet
      by_cases ha : a = k
      · rw [if_pos ha, if_pos ha, Option.map_some, if_pos (ha ▸ h)]
      · rw [if_neg ha, if_neg ha, ih]
    · rw [if_neg h]
      unfold tGet
      by_cases ha : a = k
      · rw [if_pos ha, if_pos ha, Option.map_some, if_neg (ha ▸ h)]
      · rw [if_neg ha, if_neg ha, ih]

/-- The state in which the spare is in the core's place, its context not resident yet. -/
def State.onSpare (s : State) (c : Nat) : State :=
  ((s.fullSave c).upd c Core.spare).updHub fun h => { h with saves := movedSaves c h.saves }

theorem execCoreRetire_spare (hb : s.atBoundary c = true) (hu : s.spareUsed c = false) (hp : (s.core c).phys ≠ 9) :
    execCoreRetire c s = .next (
      match (s.core c).res.bind fun k => tGet (s.onSpare c).hub.saves (saveKey k c) with
      | some v => (s.onSpare c).resume c v
      | none => s.onSpare c) := by
  unfold State.spareUsed at hu
  unfold execCoreRetire
  dsimp only
  rw [hb, if_neg (by simpa using hp), hu, if_neg Bool.false_ne_true]
  unfold State.onSpare Core.spare movedSaves Save.moved
  generalize s.fullSave c = u
  dsimp only
  generalize State.updHub (u.upd c _) _ = z
  cases (s.core c).res.bind fun k => tGet z.hub.saves (saveKey k c) <;> rfl

theorem execCoreRetire_dead (hb : s.atBoundary c = true) (hu : s.spareUsed c = true) (hp : (s.core c).phys ≠ 9) :
    execCoreRetire c s = .next ((s.fullSave c).upd c fun x => { x with phys := 9 }) := by
  unfold State.spareUsed at hu
  unfold execCoreRetire
  dsimp only
  rw [hb, if_neg (by simpa using hp), hu, if_pos rfl]

end

/-! The spare's core. -/

section
variable {s : State} {c : Nat} {ctx : Ctx}

theorem onSpare_core (s : State) (c : Nat) : (s.onSpare c).core c = ((s.fullSave c).core c).spare := State.core_upd_same _ c _

theorem onSpare_save (hr : (s.core c).res = some ctx) (hg : (s.row (rowOf c)).gangs = []) : tGet (s.onSpare c).hub.saves (saveKey ctx c) =
    some (if saveKey ctx c % 4096 = c then (s.saveOf c ctx).moved else s.saveOf c ctx) := by
  show tGet (movedSaves c (s.fullSave c).hub.saves) _ = _
  rw [tGet_movedSaves, fullSave_hub hr hg, tGet_tPut_same]
  rfl

/-- With a spare to go to, the context of the core goes on there. -/
theorem execCoreRetire_moves (hb : s.atBoundary c = true) (hu : s.spareUsed c = false) (hp : (s.core c).phys ≠ 9)
    (hr : (s.core c).res = some ctx) (hg : (s.row (rowOf c)).gangs = []) : execCoreRetire c s =
      .next ((s.onSpare c).resume c (if saveKey ctx c % 4096 = c then (s.saveOf c ctx).moved else s.saveOf c ctx)) := by
  rw [execCoreRetire_spare hb hu hp, hr, Option.bind_some, onSpare_save hr hg]

/-- The scratchpad of a context that has gone to the spare. -/
theorem moved_get (hw : Memory.wf (s.core c).sp = true) (a : Nat) : Memory.get (s.saveOf c ctx).moved.core.sp a =
    if 0x68 ≤ a ∧ a < 0x70 then (leBytes 8 8).getD (a - 0x68) 0#8
    else if inRanges (s.fullKeep c ctx) a then Memory.get (s.core c).sp a else 0#8 := by
  show Memory.get (Memory.write ((s.core c).sp.filter fun p => inRanges (s.fullKeep c ctx) p.1) 0x68 (leBytes 8 8)) a = _
  rw [Memory.get_write, leBytes_length, Memory.get_filter _ (inRanges (s.fullKeep c ctx))]

theorem moved_wf (hw : Memory.wf (s.core c).sp = true) : Memory.wf (s.saveOf c ctx).moved.core.sp = true :=
  Memory.wf_write _ _ _ (Memory.wf_filter _ _ hw)

/-- The core, once its context goes on at the spare. -/
theorem retired_core (hb : s.atBoundary c = true) (hu : s.spareUsed c = false) (hp : (s.core c).phys ≠ 9) (hg : (s.row (rowOf c)).gangs = []) :
    ∃ t, exec (.coreRetire c) s = .next t ∧ (t.core c).phys = 8 ∧ (t.core c).sl.wb = [] ∧ (t.core c).res = (s.core c).res ∧
      (c < nCores → ∀ ctx, (s.core c).res = some ctx → (∀ t : AReg, ((s.core c).sl.tile t).st ≠ .published) →
        ∃ u, t.core c = (s.saveOf c ctx).moved.restore u ((s.fullSave c).core c).spare) := by
  cases hr : (s.core c).res with
  | none =>
    refine ⟨s.onSpare c, ?_, ?_, ?_, ?_, fun _ _ h => absurd h (Option.some_ne_none _).symm⟩
    · show execCoreRetire c s = _
      rw [execCoreRetire_spare hb hu hp, hr, Option.bind_none]
    · rw [onSpare_core]
      rfl
    · rw [onSpare_core]
      rfl
    · rw [onSpare_core, fullSave_none hr]
      exact hr
  | some ctx =>
    have hx := execCoreRetire_moves hb hu hp hr hg
    generalize hv : (if saveKey ctx c % 4096 = c then (s.saveOf c ctx).moved else s.saveOf c ctx) = v at hx
    have hvl : v.log = [] ∧ v.ctx = ctx := by
      rw [← hv]
      split <;> exact ⟨rfl, rfl⟩
    obtain ⟨h1, h2, h3⟩ := resume_seated (s := s.onSpare c) (c := c) hvl.1
    rw [onSpare_core] at h1 h2 h3
    refine ⟨_, hx, h2, h3, h1.trans (congrArg some hvl.2), fun hc k hk ht => ⟨(s.onSpare c).cyc, ?_⟩⟩
    obtain rfl : ctx = k := Option.some.inj hk
    have hm : saveKey ctx c % 4096 = c := by
      have : nCores ≤ 4096 := by decide
      unfold saveKey
      omega
    rw [if_pos hm] at hv
    rw [← hv, resume_eq rfl ht, back_core, onSpare_core]

end

/-! The checkpoint of the device. -/

theorem foldl_same {α : Type} {f : State → α → State} {s : State} {l : List α} (h : ∀ p ∈ l, f s p = s) : l.foldl f s = s := by
  induction l with
  | nil => rfl
  | cons p r ih =>
    rw [List.foldl_cons, h p List.mem_cons_self]
    exact ih fun q hq => h q (List.mem_cons_of_mem p hq)

theorem memOut_goes {s : State} (h1 : s.sys.ckpting = true) (h2 : s.sys.buf = none) (h3 : s.cores.any (fun p => p.2.res.isSome) = false) :
    s.memOut = { s with sys := { s.sys with buf := some s.mem } }.emit (.memory s.mem) := by
  unfold State.memOut
  rw [if_pos]
  simp [h1, h2, h3]

theorem memOut_stays {s : State} {m : List Host.Cell} (h : s.sys.buf = some m) : s.memOut = s := by
  unfold State.memOut
  rw [if_neg]
  simp [h]

/-- The device is being saved. -/
def State.ckptStart (s : State) : State := { s with sys := { s.sys with ckpting := true } }

/-- A core with a context is saved at its boundary, or asked to be. -/
def State.ckptCore (s : State) (p : Nat × Core) : State :=
  if p.2.res.isNone then s
  else if s.atBoundary p.1 then s.fullSave p.1
  else s.upd p.1 fun x => { x with c := { x.c with preq := true }, preqAt := 0 }

theorem execCheckpoint_eq (s : State) : exec .checkpoint s = .next (s.cores.foldl State.ckptCore s.ckptStart).memOut := rfl

/-- Device memory has been read back. -/
def State.readBack (s : State) : State :=
  { s with sys := { s.sys with ckpting := false, buf := none }, mem := s.sys.buf.getD s.mem, upsets := if s.sys.buf.isSome then [] else s.upsets }

/-- On a core without a context the one saved last is resumed. -/
def State.restoreCore (s : State) (p : Nat × Core) : State :=
  if p.2.res.isSome ∨ p.2.phys = 9 then s
  else
    let l := s.hub.saves.filter fun v => v.1 % 4096 == p.1
    match l.foldl (fun (b : Option Save) v =>
        match b with
        | some w => if w.cycs < v.2.cycs then some v.2 else b
        | none => some v.2) none with
    | some v => s.resume p.1 v
    | none => s

theorem execRestore_eq {s : State} (h : s.sys.ckpting = true) : exec .restore s = .next (s.cores.foldl State.restoreCore s.readBack) := by
  show execRestore s = _
  unfold execRestore
  rw [h, if_neg (by decide)]
  rfl

theorem restoreCore_none {s : State} {p : Nat × Core} (h : s.hub.saves = []) : s.restoreCore p = s := by
  unfold State.restoreCore
  split
  · rfl
  · rw [h]
    rfl

theorem restoreCore_one {s : State} {c k : Nat} {x : Core} {v : Save} (h : s.hub.saves = [(k, v)]) (hk : k % 4096 = c) (hr : x.res = none)
    (hp : x.phys ≠ 9) : s.restoreCore (c, x) = s.resume c v := by
  unfold State.restoreCore
  rw [if_neg (by simp [hr, hp]), h]
  dsimp only
  rw [List.filter_cons_of_pos (by simpa using hk), List.filter_nil]
  rfl

theorem core_only {s : State} {c : Nat} {x : Core} (h : s.cores = [(c, x)]) : s.core c = x := by
  unfold State.core
  rw [h]
  simp [tGet]

/-- The only core of the machine with a context is saved, and then memory goes to the host. -/
theorem checkpoint_one {s : State} {c : Nat} {x : Core} {ctx : Ctx} (hbuf : s.sys.buf = none) (hcs : s.cores = [(c, x)]) (hr : x.res = some ctx)
    (hb : s.atBoundary c = true) (hg : (s.row (rowOf c)).gangs = []) : ∃ t, exec .checkpoint s = .next t ∧ t.sys.ckpting = true ∧
      t.core c = (s.core c).quieted.vacant ∧ tGet t.hub.saves (saveKey ctx c) = some (s.saveOf c ctx) ∧ t.sys.buf = some t.mem ∧
      .memory t.mem ∈ t.out := by
  have hc : (s.ckptStart.core c).res = some ctx := by rw [← hr, ← core_only hcs]; rfl
  have h1 : s.ckptStart.ckptCore (c, x) = s.ckptStart.fullSave c := by
    unfold State.ckptCore
    rw [if_neg (by rw [hr]; exact Bool.false_ne_true)]
    exact if_pos hb
  have hcore := fullSave_core hc hg
  have hhub := fullSave_hub hc hg
  have hx := execCheckpoint_eq s
  rw [hcs, List.foldl_cons, List.foldl_nil, h1] at hx
  have hw : ∃ w : State, s.ckptStart.fullSave c = w.memOut ∧ w.sys = s.ckptStart.sys ∧ w.cores.any (fun p => p.2.res.isSome) = false := by
    refine ⟨_, fullSave_frame hc hg, rfl, ?_⟩
    show ((tPut (tPut s.cores c _) c _).any fun p => p.2.res.isSome) = false
    rw [hcs]
    simp [tPut]
    rfl
  obtain ⟨w, e, hs, ha⟩ := hw
  rw [e, memOut_goes (by rw [hs]; rfl) (by rw [hs]; exact hbuf) ha] at hx hcore hhub
  rw [memOut_stays rfl] at hx
  refine ⟨_, hx, ?_, hcore, (congrArg (fun h : Hub => tGet h.saves (saveKey ctx c)) hhub).trans (tGet_tPut_same _ _ _), rfl,
    List.mem_append_right _ List.mem_cons_self⟩
  show w.sys.ckpting = true
  rw [hs]
  rfl

/-- Settles O46: a save and its resumption are inverse to each other but for what the clauses name. -/
theorem preemption : Obligations.Preemption := by
  intro s
  refine ⟨fun c => ⟨fun hr hq => ?_, fun ctx hr hq ht hb hg => ?_, fun ctx v hv hr hp hk hl hc htl => ?_, fun hb hg hu hp => ?_,
    fun hb hu hp => ?_⟩, fun hr hbuf => ?_, fun c x ctx hbuf hcs hr hb hg => ?_, fun h => ?_, fun c x k v hk hcs hr hp hs hkc hl htl => ?_,
    fun hk hs => ?_⟩
  · refine congrArg Host.Outcome.next (if_pos ⟨Option.isSome_iff_ne_none.2 hr, ?_⟩)
    rw [hq]
    rfl
  · refine ⟨s.fullSave c, s.saveOf c ctx, ?_, ?_, ?_, ?_, rfl, rfl, rfl, rfl, rfl, rfl, rfl, rfl, rfl, rfl, rfl, rfl, rfl, rfl⟩
    · show execPreemptTimeout c s = _
      unfold execPreemptTimeout
      dsimp only
      rw [if_pos ⟨hq, by rw [hr]; rfl, .inr ht⟩, if_pos hb]
    · rw [fullSave_core hr hg]
      rfl
    · rw [fullSave_core hr hg]
      rfl
    · rw [fullSave_hub hr hg]
      exact tGet_tPut_same _ _ _
  · have hx : exec (.contextResume c ctx) s = .next (s.back c v) := by
      show execContextResume c ctx s = _
      unfold execContextResume
      rw [hv]
      dsimp only
      rw [if_pos ⟨by rw [hr]; rfl, hp, by rw [hk]; rfl⟩, resume_eq hl htl]
    have hcore := back_core s c v
    refine ⟨_, hx, rfl, hcore, ?_, ?_, ?_, ?_, ?_, fun hf => ?_, fun hf hw _ hin a => ?_⟩
    · rw [hcore, ← hc]
      rfl
    · rw [hcore]
      rfl
    · rw [hcore]
      rfl
    · rw [hcore]
      rfl
    · show tGet (tDel s.hub.saves (saveKey v.ctx c)) _ = none
      rw [hc, tGet_tDel_same]
    · rw [hcore, restore_part_sp hf]
    · rw [hcore, restore_full_get hf hw hin]
  · obtain ⟨t, hx, h1, h2, h3, h4⟩ := retired_core hb (spareUsed_false hu) hp hg
    refine ⟨t, hx, h1, h2, h3, fun hc ctx hr ht => ?_⟩
    obtain ⟨u, hu⟩ := h4 hc ctx hr ht
    rw [hu]
    refine ⟨rfl, rfl, fun w => ?_, fun hw a => ?_⟩
    · rw [restore_full_empties rfl]
      show w ∈ (s.core c).empties.filter _ ∨ w ∈ ([] : List Nat) ∧ _ ↔ _
      rw [List.mem_filter]
      exact ⟨fun h => h.resolve_right fun h => List.not_mem_nil h.1, .inl⟩
    · rw [restore_full_fresh rfl (moved_wf hw) rfl, moved_get hw]
  · exact ⟨_, execCoreRetire_dead hb (spareUsed_true hu) hp, by rw [State.core_upd_same]⟩
  · have hx := execCheckpoint_eq s
    rw [foldl_same (f := State.ckptCore) fun p hp => if_pos (by rw [hr p hp]; rfl), memOut_goes (s := s.ckptStart) rfl hbuf (by
      rw [List.any_eq_false]
      intro p hp
      rw [show p.2.res = none from hr p hp]
      exact Bool.false_ne_true)] at hx
    exact ⟨_, hx, rfl, rfl, rfl, rfl, rfl⟩
  · obtain ⟨t, hx, h1, h2, h3, h4, h5⟩ := checkpoint_one hbuf hcs hr hb hg
    have hc := core_only hcs
    refine ⟨t, s.saveOf c ctx, hx, h1, ?_, h3, rfl, ?_, ?_, h4, h5⟩
    · rw [h2]
      rfl
    · rw [← hc]
      rfl
    · rw [← hc]
      rfl
  · exact if_pos (by rw [h]; rfl)
  · have hx := execRestore_eq hk
    rw [hcs, List.foldl_cons, List.foldl_nil, restoreCore_one (s := s.readBack) hs hkc hr hp, resume_eq hl htl] at hx
    have hcore := back_core s.readBack c v
    rw [show s.readBack.core c = x from core_only hcs] at hcore
    refine ⟨_, hx, rfl, rfl, hcore, ?_, rfl⟩
    rw [hcore]
    rfl
  · have hx := execRestore_eq hk
    rw [foldl_same (s := s.readBack) fun p _ => restoreCore_none hs] at hx
    exact ⟨_, hx, rfl, rfl, rfl, rfl⟩

end Sys2Proof.Machine
end

section
/-! The Wellhead (07 R125, R126, R132, 11 R205). -/

namespace Sys2Proof.Machine

/-! Reports. -/

theorem tGet_range {α : Type} (f : Nat → α) (b n i : Nat) (h : i < n) : tGet ((List.range n).map fun i => (b + i, f (b + i))) (b + i) = some (f (b + i)) := by
  rw [List.range_eq_range']
  have go (n m : Nat) (h1 : m ≤ i) (h2 : i < m + n) : tGet ((List.range' m n).map fun i => (b + i, f (b + i))) (b + i) = some (f (b + i)) := by
    induction n generalizing m with
    | zero => omega
    | succ n ih =>
      rw [List.range'_succ, List.map_cons]
      unfold tGet
      split
      · next e => rw [e]
      · exact ih (m + 1) (by omega) (by omega)
  exact go n 0 (Nat.zero_le i) (by omega)

/-! Records. -/

section
variable {s : State} {l r : Nat} {x : Launch} {y : Rec}

theorem recOf_of (hx : s.launchOf l = some x) (hy : x.recs[r]? = some y) : s.recOf l r = some y := by
  unfold State.recOf
  rw [hx]
  exact hy

theorem setRec_eq (hx : s.launchOf l = some x) (f : Rec → Rec) : s.setRec l r f =
    s.updHub fun h => { h with launches := tPut h.launches l { x with recs := x.recs.modify r f } } := by
  unfold State.setRec
  rw [hx]

theorem onlyHub_setRec (f : Rec → Rec) : s.OnlyHub (s.setRec l r f) := by
  unfold State.setRec
  split
  · exact OnlyHub_updHub _ _
  · exact OnlyHub_refl s

theorem recOf_setRec (hx : s.launchOf l = some x) (hy : x.recs[r]? = some y) (f : Rec → Rec) : (s.setRec l r f).recOf l r = some (f y) := by
  rw [setRec_eq hx]
  unfold State.recOf State.launchOf State.updHub
  dsimp only
  rw [tGet_tPut_same, Option.bind_some, List.getElem?_modify_eq, hy]
  rfl

/-- A step of a record in its list: with the launch and the record at hand. -/
theorem execRecordReady_eq (hx : s.launchOf l = some x) (hy : x.recs[r]? = some y) : exec (.recordReady l r) s = .next (
    if ! y.st.early then s
    else if y.intake.isSome then s.setRec l r fun y => { y with intake := none }
    else if (x.preds r).any Rec.lost then s.failRec l r
    else if y.st ≠ .waiting then s
    else if (x.preds r).all fun p => p.st == .done || p.st == .discarded then s.setRec l r fun y => { y with st := .ready, readyAt := s.cyc }
    else s) := by
  show execRecordReady l r s = _
  unfold execRecordReady
  rw [hx, recOf_of hx hy]

/-! A record that fails. -/

/-- The record as it fails. -/
def Rec.fails (y : Rec) : Rec := { y with st := .failed, pins := [], intake := none }

theorem failRec_eq (hx : s.launchOf l = some x) : s.failRec l r =
    ((s.unpin x.ctx (((x.recs[r]?).map (·.pins)).getD [])).updHub fun h => { h with
      launches := tPut h.launches l { x with recs := x.recs.modify r Rec.fails, firstFail := some (x.firstFail.getD r) } }).dropResv := by
  unfold State.failRec
  rw [hx]
  rfl

theorem recOf_failRec (hx : s.launchOf l = some x) (hy : x.recs[r]? = some y) : (s.failRec l r).recOf l r = some y.fails := by
  rw [failRec_eq hx]
  unfold State.dropResv State.recOf State.launchOf State.updHub
  dsimp only
  rw [tGet_tPut_same, Option.bind_some, List.getElem?_modify_eq, hy]
  rfl

/-- Reservations that wait for a placement stay, the others are given up. -/
theorem onlyResv_dropResv {t : State} (h : s.OnlyHub t) (hr : t.rows = s.rows) : s.OnlyResv t.dropResv := by
  obtain ⟨h1, h2⟩ := h
  refine ⟨?_, h2, fun k => ?_⟩
  · unfold State.dropResv
    rw [h1]
  · have hg (g : Option (Nat × Nat) → Option (Nat × Nat)) (hg : g none = none) (rs : Tab Row) :
        (tGet (rs.map fun q => (q.1, { q.2 with resv := g q.2.resv })) k).getD Row.zero =
          { (tGet rs k).getD Row.zero with resv := g ((tGet rs k).getD Row.zero).resv } := by
      induction rs with
      | nil => 
        show Row.zero = { Row.zero with resv := g Row.zero.resv }
        rw [show Row.zero.resv = none from rfl, hg]
        rfl
      | cons q rs ih =>
        obtain ⟨a, v⟩ := q
        rw [List.map_cons]
        unfold tGet
        split
        · rfl
        · exact ih
    have e : t.dropResv.row k = { s.row k with resv := (s.row k).resv.filter fun p =>
        (((tGet t.hub.launches p.1).bind fun x => x.recs[p.2]?).map (·.st.early)).getD false } := by
      unfold State.row State.dropResv
      dsimp only
      rw [hr]
      exact hg (fun o => o.filter _) rfl s.rows
    rw [e]
    refine ⟨rfl, ?_⟩
    dsimp only
    cases (s.row k).resv with
    | none => exact .inl rfl
    | some p =>
      rw [Option.filter_some]
      split
      · exact .inl rfl
      · exact .inr rfl

theorem onlyResv_failRec (hx : s.launchOf l = some x) : s.OnlyResv (s.failRec l r) := by
  rw [failRec_eq hx]
  exact onlyResv_dropResv (OnlyHub_trans (OnlyHub_updHub s _) (OnlyHub_updHub _ _)) rfl

/-- A row reserved for a record that has failed is free again. -/
theorem resvRow_failRec (hx : s.launchOf l = some x) (hy : x.recs[r]? = some y) : (s.failRec l r).resvRow l r = none := by
  have hr := recOf_failRec hx hy
  rw [failRec_eq hx] at hr ⊢
  generalize (State.updHub _ _ : State) = t at hr ⊢
  unfold State.resvRow State.dropResv
  dsimp only
  rw [Option.map_eq_none_iff, List.find?_eq_none]
  intro q hq he
  obtain ⟨p, -, rfl⟩ := List.mem_map.1 hq
  obtain ⟨-, hw⟩ := Option.filter_eq_some_iff.1 (beq_iff_eq.1 he)
  have hr : (tGet t.hub.launches l).bind (fun x => x.recs[r]?) = some y.fails := hr
  rw [hr] at hw
  exact Bool.false_ne_true hw

/-! Leases. -/

theorem execLeaseRefusal_fails (hx : s.launchOf l = some x) (hy : x.recs[r]? = some y) (h1 : y.st = .ready) (h2 : y.granted = false) :
    exec (.leaseRefusal l r) s = .next (s.failRec l r) := by
  show execLeaseRefusal l r s = _
  unfold execLeaseRefusal
  rw [recOf_of hx hy]
  exact congrArg _ (if_pos ⟨h1, by rw [h2]; rfl⟩)

/-- The record with one page more pinned. -/
def Rec.pinned (y : Rec) (w : Word) : Rec :=
  let y := { y with pins := y.pins ++ [w] }
  if y.granted then { y with st := .leased } else y

theorem granted_pins {y z : Rec} (hf : z.fps = y.fps) (hp : z.pins = y.pins) : z.granted = y.granted := by
  unfold Rec.granted Rec.leased
  rw [hf, hp]

theorem pinned_spec (w : Word) (hs : y.st = .ready) : (y.pinned w).pins = y.pins ++ [w] ∧ ((y.pinned w).st = .leased ↔ (y.pinned w).granted = true) := by
  unfold Rec.pinned
  dsimp only
  cases hg : ({ y with pins := y.pins ++ [w] } : Rec).granted with
  | true =>
    rw [if_pos rfl]
    exact ⟨rfl, fun _ => (granted_pins rfl rfl).trans hg, fun _ => rfl⟩
  | false =>
    rw [if_neg Bool.false_ne_true]
    refine ⟨rfl, fun h => ?_, fun h => ?_⟩
    · rw [show ({ y with pins := y.pins ++ [w] } : Rec).st = y.st from rfl, hs] at h
      cases h
    · exact absurd (hg.symm.trans h) Bool.false_ne_true

/-- A page of a context has one pin more. -/
def State.pinPage (s : State) (ctx : Ctx) (w : Word) : State :=
  s.updHub fun h => { h with pins := tPut h.pins (pinKey ctx w) ((tGet s.hub.pins (pinKey ctx w)).getD 0 + 1) }

theorem execLeaseGrant_pins {va : Word} {k : Context} {e : Word} {lg : Nat} {f : BitVec 128} (hx : s.launchOf l = some x) (hy : x.recs[r]? = some y)
    (hs : y.st = .ready) (hk : tGet s.hub.ctxs x.ctx.toNat = some k) (hw : walk s.mem k.record.root va = .leaf e lg) (hl : y.leased = [f])
    (h1 : (f.extractLsb' 0 56).toNat < va.toNat / 2 ^ lg * 2 ^ lg + 2 ^ lg)
    (h2 : va.toNat / 2 ^ lg * 2 ^ lg < (f.extractLsb' 0 56).toNat + (f.extractLsb' 64 64).toNat)
    (h3 : f.getLsbD 57 = true → e.getLsbD 2 = true) (h4 : f.getLsbD 58 = true → e.getLsbD 3 = true)
    (hp : BitVec.ofNat 64 (va.toNat / 2 ^ lg * 2 ^ lg + lg) ∉ y.pins) : exec (.leaseGrant l r va) s =
      .next ((s.pinPage x.ctx (BitVec.ofNat 64 (va.toNat / 2 ^ lg * 2 ^ lg + lg))).setRec l r fun y =>
        y.pinned (BitVec.ofNat 64 (va.toNat / 2 ^ lg * 2 ^ lg + lg))) := by
  show execLeaseGrant l r va s = _
  unfold execLeaseGrant
  rw [hx, recOf_of hx hy]
  dsimp only
  rw [hk]
  dsimp only
  rw [hw]
  dsimp only
  have hb : ((! f.getLsbD 57 || e.getLsbD 2) && (! f.getLsbD 58 || e.getLsbD 3)) = true := by
    cases e1 : f.getLsbD 57 <;> cases e2 : f.getLsbD 58 <;> simp_all
  rw [hl, List.filter_cons_of_pos (by rw [decide_eq_true h1, decide_eq_true h2]; rfl), List.filter_nil, List.all_cons, List.all_nil, hb, if_neg (by simp [hs, hp])]
  rfl

/-! Placement. -/

/-- A copy of a task's message goes to a core. -/
def State.placeAt (s : State) (l r : Nat) (q : BitVec 2) (m : Msg) (ctx : Ctx) (c : Nat) : State :=
  (s.send s.own (.msg c q m (some (l, r)) nCores 0 0) (msgTag m) ctx nCores 0#16).updCl (clusterOf c) fun k =>
    { k with placed := tPut k.placed (4 * c + q.toNat) ((tGet k.placed (4 * c + q.toNat)).getD 0 + 1) }

/-- The task goes to every core that has been chosen for it. -/
def State.placeAll (s : State) (l r : Nat) (q : BitVec 2) (m : Msg) (ctx : Ctx) (cs : List Nat) : State :=
  cs.foldl (fun s c => s.placeAt l r q m ctx c) s

/-- One message is sent to each core. -/
theorem placeAt_all (l r : Nat) (q : BitVec 2) (m : Msg) (ctx : Ctx) (cs : List Nat) (s : State) :
    let t := s.placeAll l r q m ctx cs
    t.cores = s.cores ∧ t.mem = s.mem ∧ t.hub = s.hub ∧ t.rows = s.rows ∧
      ∃ ps, t.net = s.net ++ ps ∧ ps.map (·.body) = cs.map fun c => .msg c q m (some (l, r)) nCores 0 0 := by
  induction cs generalizing s with
  | nil => exact ⟨rfl, rfl, rfl, rfl, [], (List.append_nil _).symm, rfl⟩
  | cons c cs ih =>
    obtain ⟨h1, h2, h3, h4, ps, h5, h6⟩ := ih (s.placeAt l r q m ctx c)
    exact ⟨h1, h2, h3, h4, _ :: ps, h5.trans (List.append_assoc _ [_] _), by rw [List.map_cons, List.map_cons, h6]⟩

/-- The reservation of a record that is placed is given up. -/
def State.unreserve (s : State) (l r : Nat) : State :=
  match s.resvRow l r with
  | some row => s.setRow row { s.row row with resv := none }
  | none => s

theorem unreserve_frame (s : State) (l r : Nat) : s.unreserve l r = { s with rows := (s.unreserve l r).rows } := by
  unfold State.unreserve
  split <;> rfl

theorem execTaskPlacement_places {cs : List Nat} (hx : s.launchOf l = some x) (hy : x.recs[r]? = some y) (hp : s.pickOf l = some (r, cs))
    (ht : s.turnOf = some l) : exec (.taskPlacement l r) s =
      .next (((((s.placeAll l r y.q (s.taskMsg x y) x.ctx cs).unreserve l r).setRec l r fun y => { y with st := .placed }).updHub
        fun h => { h with rr := l })) := by
  show execTaskPlacement l r s = _
  unfold execTaskPlacement
  rw [hx, recOf_of hx hy, hp]
  dsimp only
  rw [if_pos ⟨ht, rfl⟩]
  unfold State.unreserve State.placeAll State.placeAt
  generalize List.foldl _ s cs = t
  cases t.resvRow l r <;> rfl

/-! Completion. -/

theorem execTaskComplete_ends (hx : s.launchOf l = some x) (hy : x.recs[r]? = some y) (hs : y.st = .placed)
    (hw : s.taskWork (some (l, r)) = false) : exec (.taskComplete l r) s =
      .next ((s.unpin x.ctx y.pins).setRec l r fun y => { y with st := if y.tainted || (x.preds r).any Rec.lost then .failed else .done, pins := [] }) := by
  show execTaskComplete l r s = _
  unfold execTaskComplete
  rw [hx, recOf_of hx hy]
  exact if_pos ⟨hs, by rw [hw]; rfl⟩

end

/-! Reservations. -/

/-- The first of the best of a list. -/
def bestOf (f : Nat → Nat) (l : List Nat) (b : Option Nat) : Option Nat :=
  l.foldl (fun (b : Option Nat) k => match b with | some j => if f j < f k then some k else b | none => some k) b

theorem bestOf_spec (f : Nat → Nat) (l : List Nat) (j : Nat) :
    ∃ k, bestOf f l (some j) = some k ∧ (k = j ∨ k ∈ l) ∧ f j ≤ f k ∧ ∀ i ∈ l, f i ≤ f k := by
  unfold bestOf
  induction l generalizing j with
  | nil => exact ⟨j, rfl, .inl rfl, Nat.le_refl _, fun _ h => absurd h List.not_mem_nil⟩
  | cons a l ih =>
    rw [List.foldl_cons]
    dsimp only
    split
    · next h =>
      obtain ⟨k, h1, h2, h3, h4⟩ := ih a
      refine ⟨k, h1, .inr (h2.elim (fun e => e ▸ List.mem_cons_self) (List.mem_cons_of_mem a)), by omega, fun i hi => ?_⟩
      rcases List.mem_cons.1 hi with rfl | hi
      · exact h3
      · exact h4 i hi
    · next h =>
      obtain ⟨k, h1, h2, h3, h4⟩ := ih j
      refine ⟨k, h1, h2.imp_right (List.mem_cons_of_mem a), h3, fun i hi => ?_⟩
      rcases List.mem_cons.1 hi with rfl | hi
      · omega
      · exact h4 i hi

theorem bestOf_some (f : Nat → Nat) {l : List Nat} (h : l ≠ []) : ∃ k, bestOf f l none = some k ∧ k ∈ l ∧ ∀ i ∈ l, f i ≤ f k := by
  cases l with
  | nil => exact absurd rfl h
  | cons a l =>
    obtain ⟨k, h1, h2, h3, h4⟩ := bestOf_spec f l a
    refine ⟨k, h1, h2.elim (fun e => e ▸ List.mem_cons_self) (List.mem_cons_of_mem a), fun i hi => ?_⟩
    rcases List.mem_cons.1 hi with rfl | hi
    · exact h3
    · exact h4 i hi

/-- The cores of a row that are idle by the latest report. -/
def State.idleIn (s : State) (row : Nat) : Nat := ((rowCores row).filter fun c => s.idleCore c).length

theorem execGangReservation_best {s : State} {l r : Nat} {x : Launch} {y : Rec} (hx : s.launchOf l = some x) (hy : x.recs[r]? = some y)
    (hg : y.gang = true) (hs : y.st = .ready ∨ y.st = .leased) (ht : y.readyAt + 4096 ≤ s.cyc) (hr : s.resvRow l r = none) :
    exec (.gangReservation l r) s =
      match bestOf s.idleIn (x.rows.filter fun row => (s.row row).resv.isNone) none with
      | some row => .next (s.setRow row { s.row row with resv := some (l, r) })
      | none => .next s := by
  show execGangReservation l r s = _
  unfold execGangReservation
  rw [hx, recOf_of hx hy]
  dsimp only
  rw [if_pos ⟨hg, hs, ht, by rw [hr]; rfl⟩]
  generalize (x.rows.filter fun row => (s.row row).resv.isNone) = rows
  unfold bestOf State.idleIn
  rfl

/-- Settles O47: each step of a record is an equation of its own. -/
theorem wellhead : Obligations.Wellhead := by
  intro s
  refine ⟨fun cl hc => ?_, fun l r x y hx hy => ⟨fun hw hi => ?_, fun hw hi hp => ?_, fun hw hi hp => ?_, fun hs hg => ?_,
    fun va k e lg f hs hk hwk hl => ?_, fun cs hp ht => ?_, fun hg hs ht hr he => ?_, fun hs hw => ?_⟩⟩
  · refine ⟨s.updCl cl fun k => { k with
      report := (List.range 64).map fun i => (64 * cl + i, (s.core (64 * cl + i)).reportOf), repAt := s.cyc, placed := [] }, ?_, rfl, rfl, rfl, ?_, ?_,
      fun i hi => ?_⟩
    · show execClusterReport cl s = _
      unfold execClusterReport
      dsimp only
      rw [if_neg]
      rcases hc with h | h
      · simp [h]
      · simp [h]
    all_goals
      unfold State.updCl State.cl
      rw [tGet_tPut_same]
    · rfl
    · rfl
    · exact tGet_range (fun i => (s.core i).reportOf) (64 * cl) 64 i hi
  · refine ⟨_, ?_, onlyHub_setRec (l := l) (r := r) _, recOf_setRec hx hy fun y => { y with intake := none }⟩
    rw [execRecordReady_eq hx hy, hw, if_neg (by decide), if_pos (Option.isSome_iff_ne_none.2 hi)]
  · refine ⟨_, ?_, onlyHub_setRec (l := l) (r := r) _, recOf_setRec hx hy fun y => { y with st := .ready, readyAt := s.cyc }⟩
    have h1 : (x.preds r).any Rec.lost = false := by
      rw [List.any_eq_false]
      intro p hp'
      rw [(hp p hp').1]
      exact Bool.false_ne_true
    have h2 : ((x.preds r).all fun p => p.st == .done || p.st == .discarded) = true := by
      rw [List.all_eq_true]
      intro p hp'
      simpa using (hp p hp').2
    rw [execRecordReady_eq hx hy, hw, if_neg (by decide), hi, if_neg (by decide), h1, if_neg Bool.false_ne_true, if_neg (fun h => h rfl), h2, if_pos rfl]
  · refine ⟨_, _, ?_, onlyResv_failRec (r := r) hx, recOf_failRec hx hy, rfl, rfl⟩
    obtain ⟨p, hp1, hp2⟩ := hp
    rw [execRecordReady_eq hx hy, hw, if_neg (by decide), hi, if_neg (by decide), if_pos (List.any_eq_true.2 ⟨p, hp1, hp2⟩)]
  · exact ⟨_, _, execLeaseRefusal_fails hx hy hs hg, onlyResv_failRec hx, recOf_failRec hx hy, rfl, resvRow_failRec hx hy⟩
  · intro base w h1 h2 h3 h4 hp
    obtain ⟨p1, p2⟩ := pinned_spec w hs
    refine ⟨_, _, execLeaseGrant_pins hx hy hs hk hwk hl h1 h2 h3 h4 hp, OnlyHub_trans (OnlyHub_updHub _ _) (onlyHub_setRec _),
      recOf_setRec (s := s.pinPage x.ctx w) hx hy _, p1, ?_, p2⟩
    rw [setRec_eq (s := s.pinPage x.ctx w) hx]
    exact tGet_tPut_same _ _ _
  · have hx' := execTaskPlacement_places hx hy hp ht
    obtain ⟨h1, h2, h3, h4, ps, h5, h6⟩ := placeAt_all l r y.q (s.taskMsg x y) x.ctx cs s
    generalize s.placeAll l r y.q (s.taskMsg x y) x.ctx cs = t at hx' h1 h2 h3 h4 h5
    have hu := unreserve_frame t l r
    generalize t.unreserve l r = u at hx' hu
    have hl : u.launchOf l = some x := by
      unfold State.launchOf
      rw [hu]
      show tGet t.hub.launches l = _
      rw [h3]
      exact hx
    have hz := recOf_setRec hl hy fun y => { y with st := .placed }
    rw [setRec_eq hl] at hx' hz
    rw [hu] at hx' hz
    exact ⟨_, ps, _, hx', h1, h2, h5, h6, hz, rfl, rfl⟩
  · have hne : (x.rows.filter fun row => (s.row row).resv.isNone) ≠ [] := by
      obtain ⟨row, h1, h2⟩ := he
      exact List.ne_nil_of_mem (List.mem_filter.2 ⟨h1, by rw [h2]; rfl⟩)
    obtain ⟨row, h1, h2, h3⟩ := bestOf_some s.idleIn hne
    obtain ⟨h4, h5⟩ := List.mem_filter.1 h2
    have hx' := execGangReservation_best hx hy hg hs ht hr
    rw [h1] at hx'
    refine ⟨_, row, hx', h4, Option.isNone_iff_eq_none.1 h5, ?_, rfl, fun k hk hn => h3 k (List.mem_filter.2 ⟨hk, by rw [hn]; rfl⟩)⟩
    unfold State.setRow State.row
    rw [tGet_tPut_same]
    rfl
  · refine ⟨_, _, execTaskComplete_ends hx hy hs hw, OnlyHub_trans (OnlyHub_updHub _ _) (onlyHub_setRec _),
      recOf_setRec (s := s.unpin x.ctx y.pins) hx hy _, rfl, ?_⟩
    by_cases h : y.tainted = true ∨ ∃ p ∈ x.preds r, p.lost = true
    · rw [if_pos h]
      exact if_pos (by simpa [List.any_eq_true] using h)
    · rw [if_neg h]
      exact if_neg (by simpa [List.any_eq_true] using h)

end Sys2Proof.Machine
end

section
/-! The debug module (24 R339 to R343). -/

namespace Sys2Proof.Machine

section
variable {s : State} {c : Nat}

theorem core_updDbg (s : State) (c : Nat) (f : Dbg → Dbg) : (s.updDbg c f).core c = { s.core c with dbg := f (s.core c).dbg } :=
  State.core_upd_same s c _

/-- A released core, with its debug module as the release leaves it. -/
theorem release_frame (x : Core) (now : Nat) (d : Dbg) : ({ x.release now with dbg := d } : Core).pc = x.pc ∧
    ({ x.release now with dbg := d } : Core).r = x.r := ⟨rfl, rfl⟩

theorem execHaltRelease_eq (s : State) (c : Nat) : exec (.haltRelease c) s = .next (
    let t := s.updDbg c fun d => { d with halt := false }
    if (t.core c).dbg.halted ∧ (t.core c).stat ≠ .frozen then
      t.upd c fun x => { x.release t.cyc with dbg := { (x.release t.cyc).dbg with hcause := 0#8 } }
    else t) := rfl

theorem execHaltRelease_stays (h : (s.core c).dbg.halted = false ∨ (s.core c).stat = .frozen) :
    exec (.haltRelease c) s = .next (s.updDbg c fun d => { d with halt := false }) := by
  rw [execHaltRelease_eq]
  dsimp only
  rw [core_updDbg, if_neg]
  rintro ⟨h1, h2⟩
  exact h.elim (fun h => Bool.false_ne_true (h.symm.trans h1)) h2

theorem execHaltRelease_goes (h : (s.core c).dbg.halted = true) (hf : (s.core c).stat ≠ .frozen) :
    let t := s.updDbg c fun d => { d with halt := false }
    exec (.haltRelease c) s = .next (t.upd c fun x => { x.release t.cyc with dbg := { (x.release t.cyc).dbg with hcause := 0#8 } }) := by
  rw [execHaltRelease_eq]
  dsimp only
  rw [core_updDbg, if_pos ⟨h, hf⟩]

theorem execSingleStep_goes (h : (s.core c).dbg.halted = true) (hf : (s.core c).stat ≠ .frozen) :
    exec (.singleStep c) s = .next (s.upd c fun x => { x.release s.cyc with dbg := { (x.release s.cyc).dbg with step := true } }) :=
  congrArg _ (if_pos ⟨h, hf⟩)

/-- A due halt stops the core where it stands. -/
theorem execDebugHalt_stops {k : BitVec 8} (h : s.haltCause c = some k) :
    exec (.debugHalt c) s = .next ((s.updDbg c fun d => { d with hit := false }).halt c k) := by
  show execDebugHalt c s = _
  unfold execDebugHalt
  rw [h]

/-- A record stands in the trace ring of a core. -/
def State.putRecord (s : State) (c : Nat) (w : BitVec 256) : State :=
  { s with mem := Memory.write s.mem ((s.core c).dbg.trBase.toNat + (s.core c).dbg.trPos) (leBytes 32 w.toNat) }

theorem traceAt_room {k : BitVec 8} {a b d : Word} {n : Nat} (h : (s.core c).dbg.trSize ≠ 0#64)
    (h' : (s.core c).dbg.trPos + 32 ≤ (s.core c).dbg.trSize.toNat) : s.traceAt c k a b d n =
      (s.putRecord c (d ++ b ++ a ++ k ++ BitVec.ofNat 12 c ++ BitVec.ofNat 44 n)).upd c
        fun x => { x with dbg := { x.dbg with trPos := x.dbg.trPos + 32 } } := by
  unfold State.traceAt
  dsimp only
  rw [if_neg h, if_neg (by omega)]
  rfl

theorem execCounterOverflow_head {n : BitVec 2} {code : BitVec 3} {pc : Word} {w : Bool} {at_ : Nat} {r : List (BitVec 2 × BitVec 3 × Word × Bool × Nat)}
    (h : (s.core c).dbg.ovf = (n, code, pc, w, at_) :: r) : exec (.counterOverflow c n) s =
      .next ((s.updDbg c fun d => { d with ovf := d.ovf.erase (n, code, pc, w, at_) }).traceAt c 5#8
        (BitVec.ofNat 64 (n.toNat * 256 + code.toNat)) pc (if w then 1#64 else 0#64) at_) := by
  show execCounterOverflow c n s = _
  unfold execCounterOverflow
  have hf : (s.core c).dbg.ovf.find? (fun o => o.1 == n) = some (n, code, pc, w, at_) := by
    rw [h]
    exact List.find?_cons_of_pos (beq_self_eq_true n)
  rw [hf]

end

/-- Settles O48: each request writes the debug module of its core, and a sample its 32 bytes of the trace ring. -/
theorem debugModule : Obligations.DebugModule := by
  intro s c d
  refine ⟨rfl, fun h => execHaltRelease_stays (.inl h), fun h hf => ⟨congrArg _ (if_neg fun h => h.2 hf), execHaltRelease_stays (.inr hf)⟩, fun h hf => ?_,
    fun h hf => ?_, fun k hk => ?_, fun hk => ?_, fun n k => ?_, fun n code pc w at_ r ho hs hp => ?_, ?_⟩
  · refine ⟨_, execHaltRelease_goes h hf, (State.OnlyCore.upd s c _).trans ?_ (State.OnlyCore.upd _ c _), ?_⟩
    · rw [State.core_upd_same]
      exact ⟨rfl, rfl⟩
    · rw [State.core_upd_same, core_updDbg]
      exact ⟨rfl, rfl, rfl, rfl, rfl⟩
  · refine ⟨_, execSingleStep_goes h hf, State.OnlyCore.upd s c _, ?_⟩
    rw [State.core_upd_same]
    exact ⟨rfl, rfl, rfl, rfl⟩
  · obtain ⟨h1, p, l, h2⟩ := (s.updDbg c fun d => { d with hit := false }).halt_spec c k
    refine ⟨_, execDebugHalt_stops hk, (State.OnlyCore.upd s c _).trans ?_ h1, ?_⟩
    · rw [State.core_upd_same]
      exact ⟨rfl, rfl⟩
    · rw [h2, core_updDbg]
      exact ⟨rfl, rfl, rfl, rfl⟩
  · show execDebugHalt c s = _
    unfold execDebugHalt
    rw [hk]
  · refine ⟨_, rfl, State.OnlyCore.upd s c _, rfl, ?_⟩
    rw [core_updDbg]
    refine ⟨?_, ?_, rfl⟩
    · simp
    · simp
  · have hx := execCounterOverflow_head ho
    have hc := core_updDbg s c fun d => { d with ovf := d.ovf.erase (n, code, pc, w, at_) }
    have hm : (s.updDbg c fun d => { d with ovf := d.ovf.erase (n, code, pc, w, at_) }).mem = s.mem := rfl
    generalize (s.updDbg c fun d => { d with ovf := d.ovf.erase (n, code, pc, w, at_) }) = u at hx hc hm
    rw [traceAt_room (by rw [hc]; exact hs) (by rw [hc]; exact hp)] at hx
    refine ⟨_, hx, ?_, ?_, ?_⟩
    · rw [State.core_upd_same]
      show (u.core c).dbg.ovf = r
      rw [hc]
      show (s.core c).dbg.ovf.erase _ = r
      rw [show (s.core c).dbg.ovf = _ from ho, List.erase_cons_head]
    · rw [State.core_upd_same]
      show (u.core c).r = _
      rw [hc]
    · show Memory.write u.mem ((u.core c).dbg.trBase.toNat + (u.core c).dbg.trPos) _ = _
      rw [hc, hm]
  · refine ⟨_, rfl, rfl, rfl, ?_, ?_⟩
    · rw [core_updDbg]
      rfl
    · rw [core_updDbg]
      rfl

end Sys2Proof.Machine
end

section
/-! Rintur links (20 R316, R317, R349). -/

namespace Sys2Proof.Machine

section
variable {s : State} {port : Nat}

/-- What neither the sequence number nor the retry buffer says of a port, flits that leave keep. -/
theorem putFlits_keeps {α : Type} (π : Port → α) (h : ∀ (p : Port) q l, π { p with txSeq := q, retry := l } = π p) (pl id n p : Nat) :
    π ((s.putFlits pl id n).port p) = π (s.port p) := by
  induction n with
  | zero => rfl
  | succ n ih =>
    rw [putFlits_succ, port_emit]
    by_cases hp : p = pl
    · rw [hp] at ih ⊢
      rw [port_updPort_same, h, ih]
    · rw [port_updPort_other _ _ hp, ih]

/-- The flits of a ring job leave; the rest of the machine stays. -/
theorem ringPump_frame (s : State) (port : Nat) : (s.ringPump port).cores = s.cores ∧ (s.ringPump port).mem = s.mem ∧
    ((s.ringPump port).port port).fails = (s.port port).fails ∧ ((s.ringPump port).port port).rxSeq = (s.port port).rxSeq ∧
    ∃ l, (s.ringPump port).out = s.out ++ l ∧ ∀ x ∈ l, ∃ q d, x = .flit port q d := by
  cases hr : (s.port port).ring with
  | nil =>
    have e : s.ringPump port = s := by
      unfold State.ringPump
      rw [hr]
    rw [e]
    exact ⟨rfl, rfl, rfl, rfl, [], (List.append_nil _).symm, fun _ hx => absurd hx List.not_mem_nil⟩
  | cons k r =>
    obtain ⟨h1, -, h2⟩ := ringPump_spec hr
    refine ⟨?_, h1, ?_, ?_, h2⟩
    all_goals
      unfold State.ringPump
      rw [hr]
      dsimp only
      split
      · rfl
    · show ((s.setRing port _).putFlits port s.nextId _).cores = _
      rw [putFlits_frame]
      rfl
    · refine (putFlits_keeps Port.fails (fun _ _ _ => rfl) _ _ _ _).trans ?_
      unfold State.setRing
      rw [port_updPort_same]
    · refine (putFlits_keeps Port.rxSeq (fun _ _ _ => rfl) _ _ _ _).trans ?_
      unfold State.setRing
      rw [port_updPort_same]

/-- Without flits that wait, nothing leaves. -/
theorem ringPump_idle (h : ∀ j ∈ (s.port port).ring, j.flits = 0) : s.ringPump port = s := by
  unfold State.ringPump
  split
  · rfl
  · next j r hr =>
    dsimp only
    rw [if_pos]
    rw [h j (by rw [hr]; exact List.mem_cons_self), Nat.zero_min]

theorem flits_spec (s : State) (port : Nat) (l : List (BitVec 16 × BitVec 256)) :
    s.flits port l = { s with out := s.out ++ l.map fun f => .flit port f.1 f.2 } := by
  unfold State.flits
  induction l generalizing s with
  | nil => rw [List.map_nil, List.append_nil]; rfl
  | cons f l ih =>
    rw [List.foldl_cons, ih, List.map_cons]
    show ({ s with out := (s.out ++ [_]) ++ _ } : State) = _
    rw [List.append_assoc]
    rfl

/-! Receiving. -/

/-- A flit that is next in sequence is taken, another refused. -/
def State.flitTaken (s : State) (port : Nat) (p : Port) (ok : Bool) (q : BitVec 16) : State :=
  if ok ∧ q = p.rxSeq then
    let s := if p.refused then s.hubEvent { fEnt0 with kind := 0x21#8, addr := BitVec.ofNat 64 port } else s
    (s.updPort port fun p => { p with rxSeq := p.rxSeq + 1#16, refused := false }).emit (.flitAck port (p.rxSeq + 1#16) true)
  else (s.updPort port fun p => { p with refused := true }).emit (.flitAck port p.rxSeq false)

theorem execFlitReceive_up (q : BitVec 16) (ok : Bool) (d : BitVec 256) (a : FlitAck) (h : (s.port port).down = false) :
    exec (.flitReceive port q ok d a) s =
      .next (((s.updPort port fun p => p.answered a.next a.refused).flitTaken port (s.port port) ok q).ringPump port) := by
  show execFlitReceive port q ok d a s = _
  unfold execFlitReceive
  dsimp only
  rw [h, if_neg Bool.false_ne_true]
  rfl

/-- What is done with a flit leaves all of the port but its own sequence number and mark. -/
theorem flitTaken_spec (p : Port) (ok : Bool) (q : BitVec 16) : let t := s.flitTaken port p ok q
    t.cores = s.cores ∧ t.mem = s.mem ∧ (t.port port).ring = (s.port port).ring ∧ (t.port port).retry = (s.port port).retry ∧
      (t.port port).fails = (s.port port).fails ∧
      (if ok = true ∧ q = p.rxSeq then t.out = s.out ++ [.flitAck port (p.rxSeq + 1#16) true] ∧ (t.port port).rxSeq = (s.port port).rxSeq + 1#16
        else t.out = s.out ++ [.flitAck port p.rxSeq false] ∧ (t.port port).rxSeq = (s.port port).rxSeq) := by
  unfold State.flitTaken
  dsimp only
  split
  · rw [port_emit, port_updPort_same]
    have hs (u : State) (hu : u.cores = s.cores ∧ u.mem = s.mem ∧ u.port port = s.port port ∧ u.out = s.out) :
        let t := (u.updPort port fun p => { p with rxSeq := p.rxSeq + 1#16, refused := false }).emit (.flitAck port (p.rxSeq + 1#16) true)
        t.cores = s.cores ∧ t.mem = s.mem ∧ (u.port port).ring = (s.port port).ring ∧ (u.port port).retry = (s.port port).retry ∧
          (u.port port).fails = (s.port port).fails ∧ t.out = s.out ++ [.flitAck port (p.rxSeq + 1#16) true] ∧
          (u.port port).rxSeq + 1#16 = (s.port port).rxSeq + 1#16 := by
      obtain ⟨h1, h2, h3, h4⟩ := hu
      exact ⟨h1, h2, by rw [h3], by rw [h3], by rw [h3], congrArg (· ++ [_]) h4, by rw [h3]⟩
    refine hs _ ?_
    split <;> exact ⟨rfl, rfl, rfl, rfl⟩
  · rw [port_emit, port_updPort_same]
    exact ⟨rfl, rfl, rfl, rfl, rfl, rfl, rfl⟩

theorem answered_frame (p : Port) (a : BitVec 16) (no : Bool) : (p.answered a no).ring = p.ring ∧ (p.answered a no).rxSeq = p.rxSeq ∧
    (p.answered a no).retry = p.retry.filter fun f => ! seqBefore f.1 a := by
  unfold Port.answered
  dsimp only
  split <;> exact ⟨rfl, rfl, rfl⟩

/-- A refusal that acknowledges nothing after a resend. -/
theorem answered_fails {p : Port} {a : BitVec 16} (hr : p.resent = true) (h : ∀ f ∈ p.retry, seqBefore f.1 a = false) :
    (p.answered a true).fails = p.fails + 1 := by
  have hl : p.retry.filter (fun f => ! seqBefore f.1 a) = p.retry := List.filter_eq_self.2 fun f hf => by rw [h f hf]; rfl
  unfold Port.answered
  dsimp only
  rw [hl, decide_eq_false (Nat.lt_irrefl _), hr, if_pos ⟨rfl, rfl⟩, if_neg Bool.false_ne_true]

/-! A plane that goes down. -/

/-- The job whose flits no retry buffer has taken. -/
theorem dropRing_frame (s : State) (port : Nat) : (s.dropRing port).cores = s.cores ∧ (s.dropRing port).mem = s.mem ∧ (s.dropRing port).out = s.out ∧
    (s.dropRing port).hub.deadAt = s.hub.deadAt ∧ ((s.dropRing port).port port).retry = (s.port port).retry ∧
    ∀ k, k ≠ port → (s.dropRing port).port k = s.port k := by
  unfold State.dropRing
  split
  · exact ⟨rfl, rfl, rfl, rfl, rfl, fun _ _ => rfl⟩
  · dsimp only
    unfold State.setRing
    refine ⟨rfl, rfl, rfl, rfl, ?_, fun k hk => ?_⟩
    · rw [port_updPort_same, port_updPort_same]
      rfl
    · rw [port_updPort_other _ _ hk, port_updPort_other _ _ hk]
      rfl

/-- The plane of a port is down, and the sideband knows it. -/
def State.planeDown (s : State) (port : Nat) : State :=
  ((s.dropRing port).updPort port fun p => { p with down := true, fails := 0, resent := false }).emit (.sideband 2 (BitVec.ofNat 64 port))

theorem planeDown_frame (s : State) (port : Nat) : let t := s.planeDown port
    t.cores = s.cores ∧ t.mem = s.mem ∧ t.out = s.out ++ [.sideband 2 (BitVec.ofNat 64 port)] ∧ t.hub.deadAt = s.hub.deadAt ∧
      (t.port port).retry = (s.port port).retry ∧ (t.port port).down = true ∧ ∀ k, k ≠ port → t.port k = s.port k := by
  obtain ⟨h1, h2, h3, h4, h5, h6⟩ := dropRing_frame s port
  unfold State.planeDown
  dsimp only
  refine ⟨h1, h2, congrArg (· ++ [_]) h3, h4, ?_, ?_, fun k hk => ?_⟩
  · rw [port_emit, port_updPort_same, h5]
  · rw [port_emit, port_updPort_same]
  · rw [port_emit, port_updPort_other _ _ hk, h6 k hk]

/-- The plane that takes over is the same, whether the other has been marked as down or not. -/
theorem otherPlane_down (s : State) (port : Nat) : (s.planeDown port).otherPlane port = s.otherPlane port := by
  obtain ⟨-, -, -, h4, -, -, h7⟩ := planeDown_frame s port
  unfold State.otherPlane State.upPorts
  rw [List.find?_filter, List.find?_filter, h4]
  refine congrArg (fun f => List.find? f (List.range nPorts)) (funext fun k => ?_)
  by_cases hk : k = port
  · simp [hk]
  · have e : (tGet (s.planeDown port).hub.ports k).getD Port.zero = (tGet s.hub.ports k).getD Port.zero := h7 k hk
    rw [e]

theorem otherPlane_some {k : Nat} (h : s.otherPlane port = some k) :
    k ≠ port ∧ (s.port k).down = false ∧ ∀ d ∈ s.hub.deadAt, d.2 ≠ k := by
  have h1 := List.find?_some h
  have h2 := (List.mem_filter.1 (List.mem_of_find?_eq_some h)).2
  simp only [Bool.and_eq_true, bne_iff_ne, ne_eq, Bool.not_eq_true', List.any_eq_false, beq_iff_eq] at h1
  exact ⟨h1.1, Bool.eq_false_of_not_eq_true' h2, h1.2⟩

theorem execLinkDown_due (hd : (s.port port).down = false) (hf : 16 ≤ (s.port port).fails) : exec (.linkDown port) s =
    match s.otherPlane port with
    | none => .next (s.planeDown port)
    | some k => .next ((((s.planeDown port).updPort port fun p => { p with retry := [] }).updPort k fun x =>
        { x with txSeq := x.txSeq + BitVec.ofNat 16 (renumber ((s.planeDown port).port k).txSeq (s.port port).retry).length
                 retry := x.retry ++ renumber ((s.planeDown port).port k).txSeq (s.port port).retry }).flits k
          (renumber ((s.planeDown port).port k).txSeq (s.port port).retry)) := by
  rw [← otherPlane_down]
  show execLinkDown port s = _
  unfold execLinkDown
  dsimp only
  rw [hd, if_neg (by simp; omega)]
  unfold State.planeDown
  rfl

end

/-- Settles O49: the flits that leave differ in no case but that of a job with flits to send, and the plane that takes over is found as before. -/
theorem linkFlits : Obligations.LinkFlits := by
  intro s port p
  refine ⟨fun q ok dat ack no hd => ?_, fun hd hr => ?_, fun hd hf => ?_, fun hd hf => ?_, fun hd => ?_⟩
  · have hx := execFlitReceive_up q ok dat ⟨ack, no⟩ hd
    obtain ⟨a1, a2, a3⟩ := answered_frame p ack no
    obtain ⟨b1, b2, b3, b4, b5, b6⟩ := flitTaken_spec (s := s.updPort port fun p => p.answered ack no) (port := port) p ok q
    rw [port_updPort_same] at b3 b4 b5 b6
    dsimp only at hx
    generalize (s.updPort port fun p => p.answered ack no).flitTaken port (s.port port) ok q = u at hx b1 b2 b3 b4 b5 b6
    obtain ⟨c1, c2, c3, c4, l, c5, c6⟩ := ringPump_frame u port
    refine ⟨_, l, hx, c1.trans b1, c2.trans b2, c6, fun hj => ?_, fun hn hs hb => ?_, ?_⟩
    · have hi := ringPump_idle (s := u) (port := port) (by rw [b3, a1]; exact hj)
      rw [hi] at c5 ⊢
      refine ⟨List.self_eq_append_right.1 c5, fun f => ?_⟩
      rw [b4, a3, List.mem_filter, Bool.not_eq_true']
    · rw [c3, b5, hn]
      exact answered_fails hs hb
    · split
      · next h =>
        rw [if_pos h] at b6
        exact ⟨c5.trans (by rw [b6.1, List.append_assoc]; rfl), c4.trans (b6.2.trans (by rw [a2]))⟩
      · next h =>
        rw [if_neg h] at b6
        exact ⟨c5.trans (by rw [b6.1, List.append_assoc]; rfl), c4.trans (b6.2.trans a2)⟩
  · have hx : exec (.flitResend port) s = .next ((s.updPort port fun p => { p with
        fails := if p.resent then p.fails + 1 else p.fails, resent := true }).flits port p.retry) := by
      show execFlitResend port s = _
      unfold execFlitResend
      dsimp only
      rw [if_neg]
      rintro (h | h)
      · exact Bool.false_ne_true (hd.symm.trans h)
      · exact hr (List.isEmpty_iff.1 h)
    rw [flits_spec] at hx
    refine ⟨_, hx, rfl, ?_⟩
    have hp := port_updPort_same s port fun p => { p with fails := if p.resent then p.fails + 1 else p.fails, resent := true }
    exact ⟨congrArg Port.fails hp, congrArg Port.resent hp, (congrArg Port.retry hp :), rfl⟩
  · exact if_pos (.inr hf)
  · have hx := execLinkDown_due hd hf
    obtain ⟨h1, h2, h3, h4, h5, h6, h7⟩ := planeDown_frame s port
    generalize s.planeDown port = u at hx h1 h2 h3 h4 h5 h6 h7
    cases ho : s.otherPlane port with
    | none =>
      rw [ho] at hx
      exact ⟨u, hx, h6, h1, h2, fun _ => ⟨h5, h3⟩, fun k hk => absurd hk (Option.some_ne_none k).symm⟩
    | some k =>
      obtain ⟨g1, g2, g3⟩ := otherPlane_some ho
      rw [ho] at hx
      dsimp only at hx
      rw [h7 k g1, flits_spec] at hx
      generalize hl : renumber (s.port k).txSeq (s.port port).retry = l at hx
      have hk : ((u.updPort port fun p => { p with retry := [] }).updPort k fun x => { x with
          txSeq := x.txSeq + BitVec.ofNat 16 l.length, retry := x.retry ++ l }).port k = { s.port k with
          txSeq := (s.port k).txSeq + BitVec.ofNat 16 l.length, retry := (s.port k).retry ++ l } := by
        rw [port_updPort_same, port_updPort_other _ _ g1, h7 k g1]
      have hq : ((u.updPort port fun p => { p with retry := [] }).updPort k fun x => { x with
          txSeq := x.txSeq + BitVec.ofNat 16 l.length, retry := x.retry ++ l }).port port = { u.port port with retry := [] } := by
        rw [port_updPort_other _ _ (Ne.symm g1), port_updPort_same]
      refine ⟨_, hx, (congrArg Port.down hq).trans h6, h1, h2, fun hn => absurd hn (Option.some_ne_none k), fun k' hk' => ?_⟩
      obtain rfl : k = k' := Option.some.inj hk'
      dsimp only
      rw [hl]
      refine ⟨g1, g2, g3, congrArg Port.retry hq, congrArg Port.retry hk, congrArg Port.txSeq hk, ?_⟩
      show u.out ++ _ = _
      rw [h3, List.append_assoc]
      rfl
  · have hx : exec (.linkLiveAgain port) s = .next ((s.updPort port fun p => { p with
        down := false, fails := 0, resent := false, refused := false, rxSeq := 0#16
        txSeq := BitVec.ofNat 16 (renumber 0#16 (s.port port).retry).length, retry := renumber 0#16 (s.port port).retry }).flits port
          (renumber 0#16 (s.port port).retry)) := by
      show execLinkLiveAgain port s = _
      unfold execLinkLiveAgain
      dsimp only
      rw [show (s.port port).down = true from hd]
      rfl
    rw [flits_spec] at hx
    refine ⟨_, hx, rfl, rfl, ?_⟩
    have hp := port_updPort_same s port fun p => { p with
        down := false, fails := 0, resent := false, refused := false, rxSeq := 0#16
        txSeq := BitVec.ofNat 16 (renumber 0#16 (s.port port).retry).length, retry := renumber 0#16 (s.port port).retry }
    exact ⟨congrArg Port.retry hp, congrArg Port.down hp, congrArg Port.rxSeq hp, rfl⟩

end Sys2Proof.Machine
end

section
/-! The Ethernet ports (20 R315, R323 to R327). -/

namespace Sys2Proof.Machine

/-- A list that holds what a partial function gives for each entry of another. -/
theorem mapM_some {α β : Type} (f : α → Option β) (xs : List α) (l : List β) (hl : l.length = xs.length)
    (h : ∀ (i : Nat) x y, xs[i]? = some x → l[i]? = some y → f x = some y) : xs.mapM f = some l := by
  induction xs generalizing l with
  | nil =>
    rw [List.length_eq_zero_iff.1 hl]
    rfl
  | cons x xs ih =>
    cases l with
    | nil => cases hl
    | cons y l =>
      rw [List.mapM_cons, h 0 x y rfl rfl, ih l (Nat.succ.inj hl) fun i a b ha hb => h (i + 1) a b ha hb]
      rfl

section
variable {s u : State} {port : Nat}

theorem eth_updEth (s : State) (port : Nat) (f : Eth → Eth) : (s.updEth port f).eth port = f (s.eth port) := by
  unfold State.updEth State.eth
  rw [show (s.updHub _).hub.eths = tPut s.hub.eths port _ from rfl, tGet_tPut_same]
  rfl

/-! Frames that come. -/

section
variable {f : List Byte} {ix : Nat} {w : Flow} {cb : List Byte}

theorem execFrameReceive_short (b : Bool) (h : f.length < 60 ∨ 9212 < f.length) : exec (.frameReceive port f b) s = .next s := if_pos h

theorem execFrameReceive_bad (h1 : 60 ≤ f.length) (h2 : f.length ≤ 9212) :
    exec (.frameReceive port f false) s = .next (s.updEth port fun x => { x with fcs := x.fcs + 1 }) := by
  show execFrameReceive port f false s = _
  unfold execFrameReceive
  dsimp only
  rw [if_neg (by omega)]
  rfl

theorem execFrameReceive_noMatch (h1 : 60 ≤ f.length) (h2 : f.length ≤ 9212) (h : (s.eth port).flow.find? (fun p => flowTakes p.2.f f) = none) :
    exec (.frameReceive port f true) s = .next (s.updEth port fun x => { x with noMatch := x.noMatch + 1 }) := by
  show execFrameReceive port f true s = _
  unfold execFrameReceive
  dsimp only
  rw [if_neg (by omega), if_neg (by decide), h]

/-- The flow has counted a frame. -/
def State.flowCounted (s : State) (port ix : Nat) (w : Flow) : State :=
  s.updEth port fun x => { x with flow := tPut x.flow ix { w with frames := w.frames + 1#64 } }

/-- What is done with a frame that matches a flow whose consumer word can be read. -/
theorem execFrameReceive_flow (h1 : 60 ≤ f.length) (h2 : f.length ≤ 9212)
    (h : (s.eth port).flow.find? (fun p => flowTakes p.2.f f) = some (ix, w)) (hc : s.feRead w.f.ctx w.f.cons.toNat 8 = some cb) :
    exec (.frameReceive port f true) s =
      let s1 := s.flowCounted port ix w
      let wait := (s.eth port).heldFor w.f.core.toNat w.f.q || s.noRoom w.f.ctx w.f.core.toNat w.f.q
      if (w.frames - bytesWord cb).toNat ≥ w.f.nslot.toNat ∨ (wait ∧ (s.eth port).held.length ≥ 64) then
        .next (s1.updEth port fun x => { x with full := x.full + 1 })
      else if f.length > 2 ^ w.f.slog.toNat then .next (s1.updEth port fun x => { x with oversize := x.oversize + 1 })
      else
        match (if w.f.budget = 0#32 then some 0#16 else s1.freeDom (s.eth port).domN (s.eth port).domLo) with
        | none => .next (s1.updEth port fun x => { x with nodom := x.nodom + 1 })
        | some d =>
          let s2 := if d = 0#16 then s1 else s1.setDom d (newDom (s1.nowW + w.f.budget.setWidth 64) .ord w.f.ctx)
          let slot := w.f.ring + BitVec.ofNat 64 (w.frames.toNat % w.f.nslot.toNat * 2 ^ w.f.slog.toNat)
          match feWrite w.f.ctx f slot.toNat s2 with
          | none => .next s
          | some s3 =>
            let r := (s3.eth port).takeSeq w.f.stag s3.nextId
            let s3 := s3.updEth port fun _ => r.2
            let m := s3.frameMsg port ix w.f d r.1 slot f.length w.frames
            let k : Pkt := ⟨s3.nextId, s3.own, .msg w.f.core.toNat w.f.q m none nCores 0 0, msgTag m, w.f.ctx, nCores, false, s3.cyc, w.f.stag, wait, none⟩
            let s4 := s3.fresh
            .next (if wait then s4.updEth port fun x => { x with held := x.held ++ [k] } else { s4 with net := s4.net ++ [k] }) := by
  show execFrameReceive port f true s = _
  unfold execFrameReceive
  dsimp only
  rw [if_neg (by omega), if_neg (by decide), h]
  dsimp only
  rw [hc]
  rfl

/-- A frame with nothing against it goes on as a message. -/
theorem execFrameReceive_delivers (h1 : 60 ≤ f.length) (h2 : f.length ≤ 9212)
    (h : (s.eth port).flow.find? (fun p => flowTakes p.2.f f) = some (ix, w)) (hc : s.feRead w.f.ctx w.f.cons.toNat 8 = some cb)
    (hr : (w.frames - bytesWord cb).toNat < w.f.nslot.toNat) (hh : (s.eth port).heldFor w.f.core.toNat w.f.q = false)
    (hn : s.noRoom w.f.ctx w.f.core.toNat w.f.q = false) (hl : f.length ≤ 2 ^ w.f.slog.toNat) (hb : w.f.budget = 0#32)
    (hw : feWrite w.f.ctx f (w.f.ring + BitVec.ofNat 64 (w.frames.toNat % w.f.nslot.toNat * 2 ^ w.f.slog.toNat)).toNat
      (s.flowCounted port ix w) = some u) :
    let z := (u.eth port).takeSeq w.f.stag u.nextId
    ∃ t p m, exec (.frameReceive port f true) s = .next t ∧ t.mem = u.mem ∧ t.cores = u.cores ∧ t.hub = (u.updEth port fun _ => z.2).hub ∧
      t.net = u.net ++ [p] ∧ p.body = .msg w.f.core.toNat w.f.q m none nCores 0 0 ∧ m.hnd = w.f.hnd ∧ m.stag = w.f.stag ∧ m.seq = z.1 ∧
      p.ctx = w.f.ctx := by
  have hx := execFrameReceive_flow h1 h2 h hc
  dsimp only at hx
  rw [hh, hn, if_neg (by
    rintro (h | ⟨h, -⟩)
    · omega
    · exact Bool.false_ne_true h), if_neg (by omega), if_pos hb] at hx
  dsimp only at hx
  rw [if_pos rfl, hw] at hx
  exact ⟨_, _, _, hx, rfl, rfl, rfl, rfl, rfl, rfl, rfl, rfl, rfl⟩

end

/-! Frames that leave. -/

section
variable {q : Nat} {g : Egress} {b : List Byte} {r : List (List Byte)}

/-- A descriptor is done with: its status is written, and the head moves on. -/
def State.descDone (s : State) (port q : Nat) (g : Egress) (r : List (List Byte)) : State :=
  s.updEth port fun x => { x with eg := tPut x.eg q { g with head := g.head + 1, desc := r } }

theorem eg_descDone : tGet ((u.descDone port q g r).eth port).eg q = some { g with head := g.head + 1, desc := r } := by
  unfold State.descDone
  rw [eth_updEth, tGet_tPut_same]

theorem execFrameTransmit_refused {st : BitVec 2} (hg : tGet (s.eth port).eg q = some g) (hd : g.desc = b :: r)
    (hs : st = 2#2 ∧ bN b 16 8 ≠ 0 ∧ bN b 16 8 < 2 ^ 64 ∧ bN b 16 8 ≤ s.nowW.toNat ∨ st = 3#2 ∧ bN b 16 8 = 0 ∧ (bN b 8 2 < 60 ∨ 9212 < bN b 8 2))
    (hw : feWrite g.ctx (wordBytes (st ++ s.nowW.extractLsb' 0 62)) (g.ring.toNat + 32 * (g.head % g.size.toNat) + 24) s = some u) :
    exec (.frameTransmit port q) s = .next (u.descDone port q g r) := by
  show execFrameTransmit port q s = _
  unfold execFrameTransmit
  rw [hg]
  dsimp only
  rw [hd]
  dsimp only
  rcases hs with ⟨rfl, h1, h2, h3⟩ | ⟨rfl, h1, h2⟩
  · have hi : BitVec.ofNat 64 (bN b 16 8) ≠ 0#64 ∧ BitVec.ofNat 64 (bN b 16 8) ≤ s.nowW := by
      have e : (BitVec.ofNat 64 (bN b 16 8)).toNat = bN b 16 8 := by
        rw [BitVec.toNat_ofNat]
        exact Nat.mod_eq_of_lt h2
      refine ⟨fun h => h1 ?_, ?_⟩
      · rw [← e, h]
        rfl
      · rw [BitVec.le_def, e]
        exact h3
    rw [if_pos hi, hw]
    rfl
  · rw [h1, if_neg (fun h => h.1 rfl), if_pos h2, hw]
    rfl

theorem execFrameTransmit_sent {f : List Byte} (hg : tGet (s.eth port).eg q = some g) (hd : g.desc = b :: r) (h0 : bN b 16 8 = 0)
    (h1 : 60 ≤ bN b 8 2) (h2 : bN b 8 2 ≤ 9212) (hf : s.feRead g.ctx (bN b 0 8) (bN b 8 2) = some f)
    (hw : feWrite g.ctx (wordBytes (1#2 ++ s.nowW.extractLsb' 0 62)) (g.ring.toNat + 32 * (g.head % g.size.toNat) + 24) (s.emit (.frame port f)) =
      some u) : exec (.frameTransmit port q) s = .next (u.descDone port q g r) := by
  show execFrameTransmit port q s = _
  unfold execFrameTransmit
  rw [hg]
  dsimp only
  rw [hd]
  dsimp only
  rw [h0, if_neg (fun h => h.1 rfl), if_neg (by omega), hf]
  dsimp only
  rw [show (s.emit (.frame port f)).nowW = s.nowW from rfl, hw]
  rfl

theorem descs_some {n : Nat} {l : List (List Byte)} (hl : l.length = min ((n + 2 ^ 64 - g.head % 2 ^ 64) % 2 ^ 64) g.size.toNat - g.desc.length)
    (h : ∀ i d, l[i]? = some d → s.feRead g.ctx (g.ring.toNat + 32 * ((g.head + (g.desc.length + i)) % g.size.toNat)) 32 = some d) :
    s.descs g n = some l := by
  unfold State.descs
  generalize min ((n + 2 ^ 64 - g.head % 2 ^ 64) % 2 ^ 64) g.size.toNat = m at hl
  refine mapM_some _ _ _ (by rw [List.length_drop, List.length_range, hl]) fun i x y hx hy => ?_
  rw [List.getElem?_drop] at hx
  obtain ⟨hi, rfl⟩ := List.getElem?_eq_some_iff.1 hx
  rw [List.getElem_range]
  exact h i y hy

end

end

/-- Settles O50: every outcome of a frame and of a descriptor is one branch of its step. -/
theorem ethernetPorts : Obligations.EthernetPorts := by
  intro s port e
  refine ⟨fun f b => ⟨execFrameReceive_short b, fun h1 h2 => ⟨execFrameReceive_bad h1 h2, execFrameReceive_noMatch h1 h2,
    fun ix w cb u h hc hr hh hn hl hb hw => execFrameReceive_delivers h1 h2 h hc hr hh hn hl hb hw, fun ix w cb h hc => ?_⟩⟩,
    fun k l hh hr => ?_, fun q g hg => ⟨fun b l hb hl h => ?_, fun b r st u hd hs hw => ?_, fun b r f u hd h0 h1 h2 hf hw => ?_⟩,
    fun l adv => ⟨fun h => if_pos h, fun h => ?_⟩⟩
  · have hx := execFrameReceive_flow h1 h2 h hc
    dsimp only at hx
    refine ⟨fun hr => ?_, fun hr hl hz => ?_⟩
    · rw [if_pos (.inl hr)] at hx
      exact hx
    · rw [if_neg (by
        rintro (h | ⟨-, h⟩)
        · omega
        · exact absurd hl (Nat.not_lt.2 h)), if_pos hz] at hx
      exact hx
  · refine ⟨{ s.updEth port fun x => { x with held := x.held.filter fun y => y.id != k.id } with net := s.net ++ [{ k with held := false }] }, ?_, rfl, ?_, rfl⟩
    · show execFrameHeldRelease port s = _
      unfold execFrameHeldRelease
      dsimp only
      rw [show (s.eth port).held = k :: l from hh, List.find?_cons_of_pos]
      split
      · next h => rw [hr _ _ _ _ _ _ _ h]; rfl
      · rfl
    · exact congrArg Eth.held (eth_updEth s port fun x => { x with held := x.held.filter fun y => y.id != k.id })
  · refine ⟨s.updEth port fun x => { x with eg := tPut x.eg q { g with tail := leNat b, desc := g.desc ++ l } }, ?_, rfl, ?_⟩
    · show execEgressTailWrite port q s = _
      unfold execEgressTailWrite
      rw [show tGet (s.eth port).eg q = some g from hg]
      dsimp only
      rw [hb]
      dsimp only
      rw [descs_some hl h]
    · rw [eth_updEth, tGet_tPut_same]
  · exact ⟨_, execFrameTransmit_refused hg hd hs hw, rfl, rfl, rfl, eg_descDone⟩
  · exact ⟨_, execFrameTransmit_sent hg hd h0 h1 h2 hf hw, rfl, rfl, rfl, eg_descDone⟩
  · refine ⟨_, if_neg h, rfl, rfl, rfl, ?_, rfl⟩
    show (if l = true ∧ (! s.sys.everLocked) = true then s.now + adv else s.now) = _
    cases s.sys.everLocked <;> simp

end Sys2Proof.Machine
end

section
/-! Residues (04 R67, R68, R69). -/

namespace Sys2Proof.Machine

/-! The four digits of a cell: what a cell made of digits, and the cell of an integer, hold. -/

section
variable (z : BitVec 2) (k : BitVec 16) (c b a : BitVec 10)

theorem extract_digit0 : (z ++ k ++ c ++ b ++ a).extractLsb' 0 10 = a := by
  ext i hi
  rw [BitVec.getElem_extractLsb', BitVec.getLsbD_append, if_pos (by omega), Nat.zero_add, BitVec.getLsbD_eq_getElem]

theorem extract_digit1 : (z ++ k ++ c ++ b ++ a).extractLsb' 10 10 = b := by
  ext i hi
  rw [BitVec.getElem_extractLsb', BitVec.getLsbD_append, if_neg (by omega), BitVec.getLsbD_append, if_pos (by omega),
    show 10 + i - 10 = i by omega, BitVec.getLsbD_eq_getElem]

theorem extract_digit2 : (z ++ k ++ c ++ b ++ a).extractLsb' 20 10 = c := by
  ext i hi
  rw [BitVec.getElem_extractLsb', BitVec.getLsbD_append, if_neg (by omega), BitVec.getLsbD_append, if_neg (by omega), BitVec.getLsbD_append,
    if_pos (by omega), show 20 + i - 10 - 10 = i by omega, BitVec.getLsbD_eq_getElem]

theorem extract_digit3 : (z ++ k ++ c ++ b ++ a).extractLsb' 30 16 = k := by
  ext i hi
  rw [BitVec.getElem_extractLsb', BitVec.getLsbD_append, if_neg (by omega), BitVec.getLsbD_append, if_neg (by omega), BitVec.getLsbD_append,
    if_neg (by omega), BitVec.getLsbD_append, if_pos (by omega), show 30 + i - 10 - 10 - 10 = i by omega, BitVec.getLsbD_eq_getElem]

end

section
variable (k c b a : Nat)

@[simp] theorem cDK_mkCell : cDK (mkCell k c b a) = k % 2 ^ 16 :=
  congrArg BitVec.toNat (extract_digit3 0#2 (BitVec.ofNat 16 k) (BitVec.ofNat 10 c) (BitVec.ofNat 10 b) (BitVec.ofNat 10 a))

@[simp] theorem cDC_mkCell : cDC (mkCell k c b a) = c % 2 ^ 10 :=
  congrArg BitVec.toNat (extract_digit2 0#2 (BitVec.ofNat 16 k) (BitVec.ofNat 10 c) (BitVec.ofNat 10 b) (BitVec.ofNat 10 a))

@[simp] theorem cDB_mkCell : cDB (mkCell k c b a) = b % 2 ^ 10 :=
  congrArg BitVec.toNat (extract_digit1 0#2 (BitVec.ofNat 16 k) (BitVec.ofNat 10 c) (BitVec.ofNat 10 b) (BitVec.ofNat 10 a))

@[simp] theorem cDA_mkCell : cDA (mkCell k c b a) = a % 2 ^ 10 :=
  congrArg BitVec.toNat (extract_digit0 0#2 (BitVec.ofNat 16 k) (BitVec.ofNat 10 c) (BitVec.ofNat 10 b) (BitVec.ofNat 10 a))

end

/-- The natural residue of an integer. -/
def resid (x : Int) (m : Nat) : Nat := (x % m).toNat

theorem ofInt_emod (w : Nat) (x : Int) (m : Nat) (hm : m ≠ 0) : BitVec.ofInt w (x % m) = BitVec.ofNat w (resid x m) := by
  rw [← BitVec.ofInt_natCast, resid, Int.toNat_of_nonneg (Int.emod_nonneg x (by omega))]

theorem cellOf_eq (x : Int) : cellOf x = mkCell (resid x 65521) (resid x 1024) (resid x 1023) (resid x 1021) := by
  have hk := ofInt_emod 16 x 65521 (by decide)
  have hc := ofInt_emod 10 x 1024 (by decide)
  have hb := ofInt_emod 10 x 1023 (by decide)
  have ha := ofInt_emod 10 x 1021 (by decide)
  rw [cellOf, mkCell, ← hk, ← hc, ← hb, ← ha]
  rfl

theorem cast_resid (x : Int) {m : Nat} (hm : m ≠ 0) : (resid x m : Int) = x % m :=
  Int.toNat_of_nonneg (Int.emod_nonneg x (by omega))

theorem resid_lt (x : Int) {m : Nat} (hm : m ≠ 0) : resid x m < m := by
  have h := Int.emod_lt_of_pos x (show (0 : Int) < m by omega)
  rw [← cast_resid x hm] at h
  exact_mod_cast h

theorem cDK_cellOf (x : Int) : cDK (cellOf x) = resid x 65521 := by
  rw [cellOf_eq, cDK_mkCell, Nat.mod_eq_of_lt ((resid_lt x (by decide)).trans (by decide))]

theorem cDC_cellOf (x : Int) : cDC (cellOf x) = resid x 1024 := by
  rw [cellOf_eq, cDC_mkCell, Nat.mod_eq_of_lt (show resid x 1024 < 2 ^ 10 from resid_lt x (by decide))]

theorem cDB_cellOf (x : Int) : cDB (cellOf x) = resid x 1023 := by
  rw [cellOf_eq, cDB_mkCell, Nat.mod_eq_of_lt ((resid_lt x (by decide)).trans (by decide))]

theorem cDA_cellOf (x : Int) : cDA (cellOf x) = resid x 1021 := by
  rw [cellOf_eq, cDA_mkCell, Nat.mod_eq_of_lt ((resid_lt x (by decide)).trans (by decide))]

/-! The residue of a sum, a product, an opposite. -/

theorem resid_eq_of_cast {x : Int} {m n : Nat} (hm : m ≠ 0) (h : (n : Int) % m = x % m) : n % m = resid x m := by
  have : ((n % m : Nat) : Int) = resid x m := by rw [cast_resid x hm, Int.natCast_emod, h]
  exact_mod_cast this

theorem resid_add (x y : Int) {m : Nat} (hm : m ≠ 0) : (resid x m + resid y m) % m = resid (x + y) m :=
  resid_eq_of_cast hm (by rw [Nat.cast_add, cast_resid x hm, cast_resid y hm, ← Int.add_emod])

theorem resid_mul (x y : Int) {m : Nat} (hm : m ≠ 0) : (resid x m * resid y m) % m = resid (x * y) m :=
  resid_eq_of_cast hm (by rw [Nat.cast_mul, cast_resid x hm, cast_resid y hm, ← Int.mul_emod])

theorem resid_mul_natCast (x : Int) (n : Nat) {m : Nat} (hm : m ≠ 0) : (resid x m * n) % m = resid (x * n) m :=
  resid_eq_of_cast hm (by rw [Nat.cast_mul, cast_resid x hm, Int.mul_emod, Int.emod_emod_of_dvd _ (dvd_refl _), ← Int.mul_emod])

theorem resid_neg (x : Int) {m : Nat} (hm : m ≠ 0) : (m - resid x m) % m = resid (-x) m :=
  resid_eq_of_cast hm (by
    rw [Nat.cast_sub (resid_lt x hm).le, cast_resid x hm, Int.sub_emod, Int.emod_self, Int.emod_emod_of_dvd _ (dvd_refl _), ← Int.zero_emod m,
      ← Int.sub_emod, zero_sub])

theorem cellAdd_cellOf (x y : Int) : cellAdd (cellOf x) (cellOf y) = cellOf (x + y) := by
  rw [cellAdd, cDK_cellOf, cDK_cellOf, cDC_cellOf, cDC_cellOf, cDB_cellOf, cDB_cellOf, cDA_cellOf, cDA_cellOf, cellOf_eq]
  simp only [resid_add x y (show 65521 ≠ 0 by decide), resid_add x y (show 1024 ≠ 0 by decide), resid_add x y (show 1023 ≠ 0 by decide),
    resid_add x y (show 1021 ≠ 0 by decide)]

theorem cellMul_cellOf (x y : Int) : cellMul (cellOf x) (cellOf y) = cellOf (x * y) := by
  rw [cellMul, cDK_cellOf, cDK_cellOf, cDC_cellOf, cDC_cellOf, cDB_cellOf, cDB_cellOf, cDA_cellOf, cDA_cellOf, cellOf_eq]
  simp only [resid_mul x y (show 65521 ≠ 0 by decide), resid_mul x y (show 1024 ≠ 0 by decide), resid_mul x y (show 1023 ≠ 0 by decide),
    resid_mul x y (show 1021 ≠ 0 by decide)]

theorem cellScl_neg (x : Int) : cellScl 7#3 (cellOf x) = cellOf (-x) := by
  rw [cellScl, if_pos rfl, cDK_cellOf, cDC_cellOf, cDB_cellOf, cDA_cellOf, cellOf_eq, Nat.mod_eq_of_lt (resid_lt x (by decide)),
    Nat.mod_eq_of_lt (resid_lt x (by decide)), Nat.mod_eq_of_lt (resid_lt x (by decide)), resid_neg x (by decide), resid_neg x (by decide),
    resid_neg x (by decide), resid_neg x (by decide)]

theorem cellScl_pow {j : BitVec 3} (hj : j ≠ 7#3) (x : Int) : cellScl j (cellOf x) = cellOf (x * 2 ^ j.toNat) := by
  have h : (x * 2 ^ j.toNat : Int) = x * (2 ^ j.toNat : Nat) := by push_cast; rfl
  rw [cellScl, if_neg hj, cDK_cellOf, cDC_cellOf, cDB_cellOf, cDA_cellOf, cellOf_eq, h]
  generalize 2 ^ j.toNat = n
  rw [resid_mul_natCast x n (by decide), resid_mul_natCast x n (by decide), resid_mul_natCast x n (by decide),
    resid_mul_natCast x n (by decide)]

/-- The mixed-radix digits of R69 rebuild the residue by the product of the three moduli. -/
theorem mixedRadix_eq {x g1 g2 g3 : Int} (h1 : g1 = x % 1021) (h2 : g2 = (x % 1023 - g1) * 511 % 1023)
    (h3 : g3 = ((x % 1024 - g1) * 341 - g2) * 1023 % 1024) : g1 + 1021 * g2 + 1044483 * g3 = x % 1069550592 := by omega

theorem cellVal_cellOf {x : Int} (hl : -534775296 ≤ x) (hu : x < 534775296) : cellVal (cellOf x) = (x, true) := by
  have ha : ((resid x 1021 : Nat) : Int) = x % 1021 := cast_resid x (by decide)
  have hb : ((resid x 1023 : Nat) : Int) = x % 1023 := cast_resid x (by decide)
  have hc : ((resid x 1024 : Nat) : Int) = x % 1024 := cast_resid x (by decide)
  have hk : ((resid x 65521 : Nat) : Int) = x % 65521 := cast_resid x (by decide)
  have hx : (if x % 1069550592 ≥ 534775296 then x % 1069550592 - 1069550592 else x % 1069550592) = x := by split <;> omega
  simp only [cellVal, cDA_cellOf, cDB_cellOf, cDC_cellOf, cDK_cellOf, ha, hb, hc, hk]
  rw [mixedRadix_eq rfl rfl rfl, hx]
  simp [resid_lt x (show 1021 ≠ 0 by decide), resid_lt x (show 1023 ≠ 0 by decide), resid_lt x (show 65521 ≠ 0 by decide)]

/-- Settles O55: digit by digit, the residues of a sum, a product and an opposite; the value is rebuilt by its mixed-radix digits. -/
theorem residueArithmetic : Obligations.ResidueArithmetic := by
  refine ⟨fun x hl hu => cellVal_cellOf hl hu, cellAdd_cellOf, cellMul_cellOf, fun j x => ?_⟩
  split
  · next h => rw [h]; exact cellScl_neg x
  · next h => exact cellScl_pow h x

end Sys2Proof.Machine
end

section
/-! Boot, attestation, handover and the power limit (24 R344 to R348). -/

namespace Sys2Proof.Machine

section
variable {s : State} {img : FwImage} {t0 : Nat}

/-- The key that the running image certifies, or the root key. -/
theorem key_eq (y : Sys) : y.key = match y.image with
    | some m => Config.certified m.digest
    | none => Config.rootKey := by
  rw [Sys.key] <;> rfl

/-- The state after power on: the reset one, with what stands outside the device. -/
def State.poweredOn (r s : State) : State :=
  { r with agenda := s.agenda, out := s.out, hostMem := s.hostMem, hub := { r.hub with deadAt := s.hub.deadAt }, sys := { r.sys with buf := s.sys.buf } }

/-- The image of a power on is the running one. -/
def Sys.started (y : Sys) (img : FwImage) : Sys := { y with slotB := img.slot, image := some img, version := img.version }

theorem execPowerOn_eq (img : FwImage) (s : State) : exec (.powerOn img) s = .next (
    if Config.verifies Config.rootKey img.digest then { State.poweredOn .reset s with sys := (State.poweredOn .reset s).sys.started img }
    else (State.poweredOn .reset s).emit (.sideband 3 0#64)) := rfl

theorem execPowerOn_good (h : Config.verifies Config.rootKey img.digest = true) : ∃ t, exec (.powerOn img) s = .next t ∧ t.sys.image = some img ∧
    t.sys.slotB = img.slot ∧ t.sys.version = img.version ∧ t.cores = State.reset.cores ∧ t.mem = State.reset.mem ∧ t.out = s.out ∧
    t.hub = { State.reset.hub with deadAt := s.hub.deadAt } ∧ t.cyc = State.reset.cyc ∧ t.hostMem = s.hostMem := by
  refine ⟨{ State.poweredOn .reset s with sys := (State.poweredOn .reset s).sys.started img }, ?_, ?_⟩
  · rw [execPowerOn_eq, if_pos h]
  · generalize State.reset = r
    exact ⟨rfl, rfl, rfl, rfl, rfl, rfl, rfl, rfl, rfl⟩

theorem execPowerOn_bad (h : Config.verifies Config.rootKey img.digest = false) : ∃ t, exec (.powerOn img) s = .next t ∧
    t.sys = { State.reset.sys with buf := s.sys.buf } ∧ t.out = s.out ++ [.sideband 3 0#64] := by
  refine ⟨(State.poweredOn .reset s).emit (.sideband 3 0#64), ?_, ?_⟩
  · rw [execPowerOn_eq, h, if_neg Bool.false_ne_true]
  · generalize State.reset = r
    exact ⟨rfl, rfl⟩

theorem execFirmwareHandover_good (h : s.sys.handover = none) (hs : img.slot ≠ s.sys.slotB) (hv : Config.verifies s.sys.key img.digest = true) :
    exec (.firmwareHandover img) s = .next { s with sys := { s.sys with pending := some img, handover := some s.cyc } } :=
  congrArg Host.Outcome.next ((if_neg (by simp [h, hs])).trans (if_pos hv))

theorem execFirmwareHandover_bad (h : s.sys.handover = none) (hs : img.slot ≠ s.sys.slotB) (hv : Config.verifies s.sys.key img.digest = false) :
    exec (.firmwareHandover img) s = .next (s.emit (.sideband 3 0#64)) :=
  congrArg Host.Outcome.next ((if_neg (by simp [h, hs])).trans (if_neg (by rw [hv]; exact Bool.false_ne_true)))

theorem execNewImageReady_eq (hp : s.sys.pending = some img) (hh : s.sys.handover = some t0) : exec .newImageReady s = .next (
    if t0 + 1200000000 ≤ s.cyc then s else
      { s with sys := { s.sys.started img with pending := none, handover := none } }.emit (.sideband 4 1#64)) := by
  show execNewImageReady s = _
  unfold execNewImageReady
  dsimp only
  rw [hp]
  dsimp only
  rw [hh, Option.all_some]
  beta_reduce
  by_cases h : t0 + 1200000000 ≤ s.cyc
  · rw [if_pos (decide_eq_true h), if_pos h]
  · rw [decide_eq_false h, if_neg h, if_neg Bool.false_ne_true]
    rfl

theorem execNewImageReady_inTime (hp : s.sys.pending = some img) (hh : s.sys.handover = some t0) (h : s.cyc < t0 + 1200000000) :
    ∃ t, exec .newImageReady s = .next t ∧ t.sys.image = some img ∧ t.sys.slotB = img.slot ∧ t.sys.handover = none ∧ t.cores = s.cores ∧
      t.mem = s.mem ∧ t.out = s.out ++ [.sideband 4 1#64] := by
  refine ⟨{ s with sys := { s.sys.started img with pending := none, handover := none } }.emit (.sideband 4 1#64), ?_, rfl, rfl, rfl, rfl, rfl, rfl⟩
  rw [execNewImageReady_eq hp hh, if_neg (Nat.not_le.2 h)]

theorem execHandoverTimeout_late (hh : s.sys.handover = some t0) (h : t0 + 1200000000 ≤ s.cyc) : ∃ t, exec .handoverTimeout s = .next t ∧
    t.sys.handover = none ∧ t.sys.image = s.sys.image ∧ t.cores = s.cores ∧ t.out = s.out ++ [.sideband 4 0#64] := by
  refine ⟨{ s with sys := { s.sys with pending := none, handover := none } }.emit (.sideband 4 0#64), ?_, rfl, rfl, rfl, rfl⟩
  show execHandoverTimeout s = _
  simp only [execHandoverTimeout, hh]
  rw [if_pos h]

theorem sReady_of_gate (h : s.sys.gate = true) (c : Nat) : s.sReady c = false := by simp [State.sReady, h]

theorem wReady_of_gate (h : s.sys.gate = true) (c : Nat) : s.wReady c = false := by simp [State.wReady, h]

end

/-- Settles O52: each step by the branch that its image, its clock or its gate takes. -/
theorem firmwareAndPower : Obligations.FirmwareAndPower := by
  intro s
  refine ⟨fun img => ⟨execPowerOn_good, execPowerOn_bad, fun hh hs => ?_, fun t0 hp hh h => ?_, fun t0 => execNewImageReady_inTime⟩,
    fun t0 => execHandoverTimeout_late, fun n => rfl, rfl, rfl, fun c h => ⟨sReady_of_gate h c, wReady_of_gate h c⟩⟩
  rotate_left
  · rw [execNewImageReady_eq hp hh, if_pos h]
  have hk : _ = s.sys.key := (key_eq s.sys).symm
  exact ⟨fun hv => execFirmwareHandover_good hh hs (hk ▸ hv), fun hv => execFirmwareHandover_bad hh hs (hk ▸ hv)⟩

end Sys2Proof.Machine
end

section
/-! Floating formats (04 R54, R55): the magnitudes of a format, and the one rounding. -/

namespace Sys2Proof.Machine

/-! The nearest natural number, ties to even. -/

/-- `r` is the nearest natural number to `y`, the even one of two. -/
structure Nearest (y : ℚ) (r : Nat) : Prop where
  half : |y - r| ≤ 1 / 2
  even : |y - r| = 1 / 2 → Even r

section
variable {y : ℚ} {r : Nat}

/-- No integer is nearer. -/
theorem Nearest.le_int (h : Nearest y r) (k : ℤ) : |y - r| ≤ |y - k| ∧ (|y - r| = |y - k| → k ≠ r → Even r) := by
  by_cases hk : k = r
  · subst hk
    exact ⟨le_of_eq rfl, fun _ hne => absurd rfl hne⟩
  · have h1 : (1 : ℚ) ≤ |(k : ℚ) - r| := by exact_mod_cast Int.one_le_abs (sub_ne_zero.2 hk)
    have h2 : |(k : ℚ) - r| ≤ |y - r| + |y - k| := by
      calc |(k : ℚ) - r| = |(y - r) - (y - k)| := by congr 1; ring
        _ ≤ |y - r| + |y - k| := abs_sub _ _
    have h3 := h.half
    exact ⟨by linarith, fun he _ => h.even (by linarith)⟩

theorem Nearest.le_of_le (h : Nearest y r) {k : Nat} (hk : (k : ℚ) ≤ y) : k ≤ r := by
  have h1 := (abs_le.1 h.half).2
  have h2 : (k : ℚ) < r + 1 := by linarith
  exact Nat.lt_succ_iff.1 (by exact_mod_cast h2)

theorem Nearest.le_of_lt (h : Nearest y r) {k : Nat} (hk : y < k) : r ≤ k := by
  have h1 := (abs_le.1 h.half).1
  have h2 : (r : ℚ) < k + 1 := by linarith
  exact Nat.lt_succ_iff.1 (by exact_mod_cast h2)

/-- An even number is reached from half below it on: the tie below it is not the odd number's. -/
theorem Nearest.even_le_iff (h : Nearest y r) {k : Nat} (hk : Even k) (hk0 : k ≠ 0) : k ≤ r ↔ (k : ℚ) - 1 / 2 ≤ y := by
  obtain ⟨hl, hu⟩ := abs_le.1 h.half
  constructor
  · intro hkr
    have : (k : ℚ) ≤ r := by exact_mod_cast hkr
    linarith
  · intro hky
    by_contra hn
    have h1 : (r : ℚ) + 1 ≤ k := by exact_mod_cast Nat.not_le.1 hn
    have h2 : y - r = 1 / 2 := by linarith
    have h3 : (k : ℚ) = (r + 1 : Nat) := by push_cast; linarith
    have h4 : k = r + 1 := by exact_mod_cast h3
    have h5 : Even r := h.even (by rw [h2]; norm_num)
    rw [h4] at hk
    exact absurd h5 (Nat.even_add_one.1 hk)

end

theorem Nearest.self (r : Nat) : Nearest (r : ℚ) r := ⟨by norm_num, by norm_num⟩

/-- Rounding a quotient by its remainder. -/
theorem Nearest.div (m : Nat) {d : Nat} (hd : 0 < d) :
    Nearest ((m : ℚ) / d) (if m % d * 2 > d ∨ (m % d * 2 = d ∧ m / d % 2 = 1) then m / d + 1 else m / d) := by
  have hm : (m : ℚ) / d = (m / d : Nat) + (m % d : Nat) / d := by
    have h : ((d * (m / d) + m % d : Nat) : ℚ) = m := by rw [Nat.div_add_mod]
    push_cast at h
    field_simp
    linarith
  have hd' : (0 : ℚ) < d := by exact_mod_cast hd
  have hlt : m % d < d := Nat.mod_lt m hd
  have h0 : (0 : ℚ) ≤ (m % d : Nat) / d := by positivity
  have h1 : ((m % d : Nat) : ℚ) / d < 1 := by rw [div_lt_one hd']; exact_mod_cast hlt
  have hle : m % d * 2 ≤ d → ((m % d : Nat) : ℚ) / d ≤ 1 / 2 := fun h => by
    have : ((m % d : Nat) : ℚ) * 2 ≤ d := by exact_mod_cast h
    rw [div_le_div_iff₀ hd' (by norm_num)]
    linarith
  have hge : d ≤ m % d * 2 → 1 / 2 ≤ ((m % d : Nat) : ℚ) / d := fun h => by
    have : (d : ℚ) ≤ ((m % d : Nat) : ℚ) * 2 := by exact_mod_cast h
    rw [div_le_div_iff₀ (by norm_num) hd']
    linarith
  have heq : ((m % d : Nat) : ℚ) / d = 1 / 2 → m % d * 2 = d := fun h => by
    rw [div_eq_div_iff hd'.ne' (by norm_num)] at h
    have : ((m % d : Nat) : ℚ) * 2 = d := by linarith
    exact_mod_cast this
  rw [hm]
  generalize ((m % d : Nat) : ℚ) / d = t at *
  split
  · next h =>
    have ht := hge (by omega)
    have hy : ((m / d : Nat) : ℚ) + t - (m / d + 1 : Nat) = -(1 - t) := by push_cast; ring
    refine ⟨?_, fun he => ?_⟩ <;> rw [hy, abs_neg, abs_of_pos (by linarith)] at *
    · linarith
    · have := heq (by linarith)
      exact Nat.even_add_one.2 (Nat.not_even_iff.2 (by omega))
  · next h =>
    have ht := hle (by omega)
    refine ⟨?_, fun he => ?_⟩ <;> rw [add_sub_cancel_left, abs_of_nonneg h0] at *
    · exact ht
    · exact Nat.even_iff.2 (by have := heq he; omega)

/-- What `rneInt` gives is the nearest, and it says whether it is another number. -/
theorem rneInt_nearest (m : Nat) (d : Int) :
    Nearest ((m : ℚ) * 2 ^ d) (rneInt m d).1 ∧ ((rneInt m d).2 = true ↔ (m : ℚ) * 2 ^ d ≠ (rneInt m d).1) := by
  cases d with
  | ofNat n =>
    have h : (m : ℚ) * 2 ^ (Int.ofNat n) = ((m * 2 ^ n : Nat) : ℚ) := by simp
    rw [h]
    exact ⟨Nearest.self _, by simp [rneInt]⟩
  | negSucc n =>
    have h : (m : ℚ) * 2 ^ (Int.negSucc n) = (m : ℚ) / (2 ^ (n + 1) : Nat) := by
      rw [zpow_negSucc, div_eq_mul_inv]
      push_cast
      rfl
    have hd : 0 < 2 ^ (n + 1) := Nat.two_pow_pos _
    rw [h]
    refine ⟨Nearest.div m hd, ?_⟩
    rw [rneInt]
    dsimp only
    generalize 2 ^ (n + 1) = d at hd
    have hd' : (d : ℚ) ≠ 0 := by exact_mod_cast hd.ne'
    rw [bne_iff_ne, not_iff_not, div_eq_iff hd']
    constructor
    · intro h0
      rw [if_neg (by omega)]
      exact_mod_cast (Nat.div_mul_cancel (Nat.dvd_of_mod_eq_zero h0)).symm
    · intro he
      exact Nat.mod_eq_zero_of_dvd (Dvd.intro_left _ (by exact_mod_cast he.symm))

/-! The magnitudes of a format. -/

/-- The number that a pattern without its sign stands for, below the format's end. -/
def Fmt.mag (f : Fmt) (b : Nat) : ℚ := ((b - (b / 2 ^ (f.p - 1) - 1) * 2 ^ (f.p - 1) : Nat) : ℚ) * 2 ^ (f.qmin + (b / 2 ^ (f.p - 1) - 1 : Nat))

/-- A pattern of magnitude: its binade above the least one, and its integer there. -/
structure Fmt.Split (f : Fmt) (k r : Nat) : Prop where
  le : r ≤ 2 ^ f.p
  normal : k = 0 ∨ 2 ^ (f.p - 1) ≤ r

section
variable {f : Fmt} {k r : Nat}

theorem two_pow_pred (hp : 2 ≤ f.p) : 2 ^ f.p = 2 * 2 ^ (f.p - 1) := by
  rw [← pow_succ', Nat.sub_add_cancel (by omega)]

theorem Fmt.Split.mag (hp : 2 ≤ f.p) (h : f.Split k r) : f.mag (k * 2 ^ (f.p - 1) + r) = r * 2 ^ (f.qmin + k) := by
  obtain ⟨hle, hn⟩ := h
  rw [two_pow_pred hp] at hle
  unfold Fmt.mag
  have hP : 0 < 2 ^ (f.p - 1) := Nat.two_pow_pos _
  generalize 2 ^ (f.p - 1) = P at *
  rw [Nat.mul_comm k P, Nat.mul_add_div hP]
  rcases Nat.lt_or_ge r P with hlt | hge
  · obtain rfl : k = 0 := hn.resolve_right (by omega)
    rw [Nat.div_eq_of_lt hlt]
    simp
  · rcases Nat.lt_or_ge r (2 * P) with h2 | h2
    · rw [Nat.div_eq_of_lt_le (by omega : 1 * P ≤ r) (by omega), Nat.add_sub_cancel, Nat.mul_comm k P, Nat.add_sub_cancel_left]
    · obtain rfl : r = 2 * P := by omega
      rw [Nat.mul_div_cancel _ hP, show k + 2 - 1 = k + 1 by omega, show P * k + 2 * P - (k + 1) * P = P by
        rw [Nat.add_mul, Nat.mul_comm k P]; omega]
      push_cast
      rw [show f.qmin + ((k : ℤ) + 1) = (f.qmin + k) + 1 by ring, zpow_add_one₀ (by norm_num)]
      ring

/-- Each pattern splits, with its integer below the binade's end. -/
theorem exists_split (hp : 2 ≤ f.p) (b : Nat) : ∃ k r, b = k * 2 ^ (f.p - 1) + r ∧ f.Split k r ∧ r < 2 ^ f.p := by
  have hP : 0 < 2 ^ (f.p - 1) := Nat.two_pow_pos _
  have h2 := two_pow_pred hp
  have hb := Nat.div_add_mod b (2 ^ (f.p - 1))
  have hr := Nat.mod_lt b hP
  rcases Nat.eq_zero_or_pos (b / 2 ^ (f.p - 1)) with h0 | h0
  · rw [h0] at hb
    exact ⟨0, b, by omega, ⟨by omega, .inl rfl⟩, by omega⟩
  · refine ⟨b / 2 ^ (f.p - 1) - 1, 2 ^ (f.p - 1) + b % 2 ^ (f.p - 1), ?_, ⟨by omega, .inr (by omega)⟩, by omega⟩
    obtain ⟨e, he⟩ := Nat.exists_eq_succ_of_ne_zero h0.ne'
    rw [he] at hb ⊢
    rw [Nat.succ_sub_one, ← Nat.add_assoc, ← Nat.succ_mul, Nat.mul_comm]
    exact hb.symm

end

/-- `x` is rounded to the integer `r` of the binade `k`: the nearest one, and no binade is too coarse or too fine for `x`. -/
structure Fmt.Rounded (f : Fmt) (x : ℚ) (k r : Nat) : Prop where
  near : Nearest (x / 2 ^ (f.qmin + k)) r
  normal : k = 0 ∨ 2 ^ (f.p - 1) ≤ x / 2 ^ (f.qmin + k)
  lt : x / 2 ^ (f.qmin + k) < 2 ^ f.p

section
variable {f : Fmt} {x : ℚ} {k r : Nat}

theorem Fmt.Rounded.split (h : f.Rounded x k r) : f.Split k r :=
  ⟨h.near.le_of_lt (by push_cast; exact h.lt), h.normal.imp_right fun hn => h.near.le_of_le (by push_cast; exact hn)⟩

theorem abs_sub_scaled (x z u : ℚ) (hu : 0 < u) : |x - z * u| = |x / u - z| * u := by
  rw [← abs_of_pos hu, ← abs_mul, abs_of_pos hu, sub_mul, div_mul_cancel₀ _ hu.ne']

/-- No multiple of the binade's unit is nearer. -/
theorem Fmt.Rounded.le_multiple (h : f.Rounded x k r) (n : ℤ) : |x - r * 2 ^ (f.qmin + k)| ≤ |x - n * 2 ^ (f.qmin + k)| ∧
    (|x - r * 2 ^ (f.qmin + k)| = |x - n * 2 ^ (f.qmin + k)| → (n : ℚ) * 2 ^ (f.qmin + k) ≠ r * 2 ^ (f.qmin + k) → Even r) := by
  have hu : (0 : ℚ) < 2 ^ (f.qmin + k) := by positivity
  obtain ⟨hle, he⟩ := h.near.le_int n
  rw [abs_sub_scaled x r _ hu, abs_sub_scaled x n _ hu]
  refine ⟨mul_le_mul_of_nonneg_right hle hu.le, fun heq hne => he (mul_right_cancel₀ hu.ne' heq) fun hn => hne ?_⟩
  rw [hn]
  rfl

/-- A magnitude of a finer binade lies below those of the binade. -/
theorem mag_lt_of_lt (hp : 2 ≤ f.p) {j n : Nat} (hj : j < k) (hn : n < 2 ^ f.p) :
    (n : ℚ) * 2 ^ (f.qmin + j) < 2 ^ (f.p - 1) * 2 ^ (f.qmin + k) := by
  have h1 : (n : ℚ) < 2 * 2 ^ (f.p - 1) := by
    have := two_pow_pred hp ▸ hn
    exact_mod_cast this
  calc (n : ℚ) * 2 ^ (f.qmin + j) < 2 * 2 ^ (f.p - 1) * 2 ^ (f.qmin + j) := mul_lt_mul_of_pos_right h1 (by positivity)
    _ = 2 ^ (f.p - 1) * 2 ^ (f.qmin + j + 1) := by rw [zpow_add_one₀ (by norm_num)]; ring
    _ ≤ 2 ^ (f.p - 1) * 2 ^ (f.qmin + k) := mul_le_mul_of_nonneg_left (zpow_le_zpow_right₀ (by norm_num) (by omega)) (by positivity)

/-- No number of the format is nearer. -/
theorem Fmt.Rounded.le_mag (hp : 2 ≤ f.p) (h : f.Rounded x k r) (b : Nat) {z : ℚ} (hz : z = f.mag b ∨ z = -f.mag b) :
    |x - r * 2 ^ (f.qmin + k)| ≤ |x - z| ∧ (|x - r * 2 ^ (f.qmin + k)| = |x - z| → z ≠ r * 2 ^ (f.qmin + k) → Even r) := by
  obtain ⟨j, n, rfl, hs, hn⟩ := exists_split hp b
  rw [hs.mag hp] at hz
  have hu : (0 : ℚ) < 2 ^ (f.qmin + k) := by positivity
  rcases Nat.lt_or_ge j k with hj | hj
  · have hx : 2 ^ (f.p - 1) * 2 ^ (f.qmin + k) ≤ x := (le_div_iff₀ hu).1 (h.normal.resolve_left (by omega))
    have hlt := mag_lt_of_lt (f := f) hp hj hn
    have hn0 : (0 : ℚ) ≤ (n : ℚ) * 2 ^ (f.qmin + j) := by positivity
    have hzlt : z < 2 ^ (f.p - 1) * 2 ^ (f.qmin + k) := by rcases hz with rfl | rfl <;> linarith
    obtain ⟨hle, -⟩ := h.le_multiple (2 ^ (f.p - 1))
    push_cast at hle
    rw [abs_of_nonneg (sub_nonneg.2 hx)] at hle
    rw [abs_of_pos (show 0 < x - z by linarith)]
    exact ⟨by linarith, fun he => absurd he (by linarith)⟩
  · have hzn : ∃ i : ℤ, z = i * 2 ^ (f.qmin + k) := by
      have hji : (2 : ℚ) ^ (f.qmin + j) = 2 ^ (j - k) * 2 ^ (f.qmin + k) := by
        rw [← zpow_natCast, ← zpow_add₀ (by norm_num), Nat.cast_sub hj]
        congr 1
        ring
      rcases hz with rfl | rfl
      · exact ⟨n * 2 ^ (j - k), by push_cast; rw [hji, mul_assoc]⟩
      · exact ⟨-(n * 2 ^ (j - k)), by push_cast; rw [hji]; ring⟩
    obtain ⟨i, rfl⟩ := hzn
    exact h.le_multiple i

end

/-- When a value reaches the midpoint above the greatest number of `p` bits in the binade `e`: it stands in a higher binade, or it is
rounded up to the end of this one. -/
theorem midpoint_le_iff {p : Nat} (hp : 2 ≤ p) {x : ℚ} {q e : ℤ} {r : Nat} (h : Nearest (x / 2 ^ q) r) (hlt : x / 2 ^ q < 2 ^ p)
    (hn : e < q → 2 ^ (p - 1) ≤ x / 2 ^ q) : (2 ^ (p + 1) - 1) * 2 ^ (e - 1) ≤ x ↔ e < q ∨ (q = e ∧ 2 ^ p ≤ r) := by
  have hu : (0 : ℚ) < 2 ^ q := by positivity
  have hv : (0 : ℚ) < 2 ^ (e - 1) := by positivity
  have hP : (1 : ℚ) ≤ 2 ^ p := one_le_pow₀ (by norm_num)
  have hs : (2 : ℚ) ^ (p + 1) = 2 * 2 ^ p := pow_succ' 2 p
  have hpp : (2 : ℚ) ^ p = 2 * 2 ^ (p - 1) := by rw [← pow_succ', Nat.sub_add_cancel (by omega)]
  rw [div_lt_iff₀ hu] at hlt
  rcases lt_trichotomy q e with hq | rfl | hq
  · have h1 : (2 : ℚ) ^ q ≤ 2 ^ (e - 1) := zpow_le_zpow_right₀ (by norm_num) (by omega)
    refine ⟨fun hx => absurd hx (not_le.2 ?_), fun hx => by omega⟩
    calc x < 2 ^ p * 2 ^ q := hlt
      _ ≤ 2 ^ p * 2 ^ (e - 1) := mul_le_mul_of_nonneg_left h1 (by positivity)
      _ ≤ (2 ^ (p + 1) - 1) * 2 ^ (e - 1) := mul_le_mul_of_nonneg_right (by linarith) hv.le
  · have he : (2 : ℚ) ^ q = 2 * 2 ^ (q - 1) := by rw [← zpow_one_add₀ (by norm_num)]; congr 1; ring
    have hr : 2 ^ p ≤ r ↔ ((2 : ℚ) ^ p - 1 / 2) ≤ x / 2 ^ q := by
      have := h.even_le_iff (k := 2 ^ p) (even_two.pow_of_ne_zero (by omega)) (by positivity)
      push_cast at this
      exact this
    rw [hr, le_div_iff₀ hu, he, hs]
    constructor
    · exact fun hx => .inr ⟨rfl, by linarith⟩
    · rintro (hx | ⟨-, hx⟩)
      · exact absurd hx (lt_irrefl _)
      · linarith
  · have h1 : (2 : ℚ) ^ (e - 1) * 4 ≤ 2 ^ q := by
      rw [show (4 : ℚ) = 2 ^ (2 : ℤ) by norm_num, ← zpow_add₀ (by norm_num)]
      exact zpow_le_zpow_right₀ (by norm_num) (by omega)
    refine ⟨fun _ => .inl hq, fun _ => ?_⟩
    calc (2 ^ (p + 1) - 1) * 2 ^ (e - 1) ≤ 2 ^ (p - 1) * (2 ^ (e - 1) * 4) := by rw [hs, hpp]; nlinarith
      _ ≤ 2 ^ (p - 1) * 2 ^ q := mul_le_mul_of_nonneg_left h1 (by positivity)
      _ ≤ x := (le_div_iff₀ hu).1 (hn hq)

/-- The pattern of a rounded value reaches the format's end exactly from the midpoint above its greatest number on. -/
theorem Fmt.Rounded.top_le_iff {f : Fmt} {x : ℚ} {k r t : Nat} (hp : 2 ≤ f.p) (ht : 3 ≤ t) (h : f.Rounded x k r) :
    t * 2 ^ (f.p - 1) ≤ k * 2 ^ (f.p - 1) + r ↔ (2 ^ (f.p + 1) - 1) * 2 ^ (f.qmin + t - 3) ≤ x := by
  have hm := midpoint_le_iff (e := f.qmin + t - 2) hp h.near h.lt fun hk => h.normal.resolve_left (by omega)
  rw [show f.qmin + (t : ℤ) - 2 - 1 = f.qmin + t - 3 by ring] at hm
  rw [hm]
  obtain ⟨hle, hn⟩ := h.split
  rw [two_pow_pred hp] at hle ⊢
  have hP : 0 < 2 ^ (f.p - 1) := Nat.two_pow_pos _
  generalize 2 ^ (f.p - 1) = P at *
  constructor
  · intro hb
    rcases Nat.lt_or_ge k (t - 2) with hk | hk
    · have : (k + 3) * P ≤ t * P := Nat.mul_le_mul_right P (by omega)
      rw [Nat.add_mul] at this
      omega
    · rcases Nat.eq_or_lt_of_le hk with rfl | hk
      · have : t * P = (t - 2) * P + 2 * P := by rw [← Nat.add_mul, Nat.sub_add_cancel (by omega)]
        exact .inr ⟨by omega, by omega⟩
      · exact .inl (by omega)
  · rintro (hk | ⟨hk, hr⟩)
    · have : t * P ≤ (k + 1) * P := Nat.mul_le_mul_right P (by omega)
      rw [Nat.add_mul] at this
      have := hn.resolve_left (by omega)
      omega
    · obtain rfl : t = k + 2 := by omega
      rw [Nat.add_mul]
      omega

/-! The one rounding. -/

theorem bitLen_bounds {m : Nat} (hm : m ≠ 0) : (2 : ℚ) ^ ((bitLen m : ℤ) - 1) ≤ m ∧ (m : ℚ) < 2 ^ (bitLen m : ℤ) := by
  rw [bitLen, if_neg hm, Nat.cast_add, Nat.cast_one, add_sub_cancel_right]
  refine ⟨?_, ?_⟩
  · rw [zpow_natCast]
    exact_mod_cast Nat.log2_self_le hm
  · have : m < 2 ^ (m.log2 + 1) := Nat.lt_log2_self
    rw [← Nat.cast_one, ← Nat.cast_add, zpow_natCast]
    exact_mod_cast this

/-- At its own precision the integer of a value has `p` bits. -/
theorem precise_bounds {m : Nat} (hm : m ≠ 0) (e : ℤ) {p : Nat} (hp : 2 ≤ p) :
    (2 : ℚ) ^ (p - 1) ≤ (m : ℚ) * 2 ^ e / 2 ^ (e + (bitLen m : ℤ) - p) ∧ (m : ℚ) * 2 ^ e / 2 ^ (e + (bitLen m : ℤ) - p) < 2 ^ p := by
  obtain ⟨hl, hu⟩ := bitLen_bounds hm
  have hy : (m : ℚ) * 2 ^ e / 2 ^ (e + (bitLen m : ℤ) - p) = m * 2 ^ ((p : ℤ) - bitLen m) := by
    rw [mul_div_assoc, ← zpow_sub₀ (by norm_num)]
    congr 2
    ring
  rw [hy]
  constructor
  · calc (2 : ℚ) ^ (p - 1) = 2 ^ ((bitLen m : ℤ) - 1) * 2 ^ ((p : ℤ) - bitLen m) := by
          rw [← zpow_natCast, ← zpow_add₀ (by norm_num), Nat.cast_sub (by omega)]
          congr 1
          ring
      _ ≤ m * 2 ^ ((p : ℤ) - bitLen m) := mul_le_mul_of_nonneg_right hl (by positivity)
  · calc (m : ℚ) * 2 ^ ((p : ℤ) - bitLen m) < 2 ^ (bitLen m : ℤ) * 2 ^ ((p : ℤ) - bitLen m) := mul_lt_mul_of_pos_right hu (by positivity)
      _ = 2 ^ p := by
          rw [← zpow_add₀ (by norm_num), ← zpow_natCast]
          congr 1
          ring

/-- What one rounding gives: the pattern of a rounded value, or the format's end; whether the value is another one, and whether it is tiny. -/
theorem roundMag_spec {f : Fmt} (hp : 2 ≤ f.p) (m : Nat) (e : ℤ) (htop : 0 < f.top) : ∃ k r lost tiny,
    f.Rounded ((m : ℚ) * 2 ^ e) k r ∧
    (lost = true ↔ (m : ℚ) * 2 ^ e ≠ r * 2 ^ (f.qmin + k)) ∧
    (tiny = true ↔ (m : ℚ) * 2 ^ e ≠ 0 ∧ (m : ℚ) * 2 ^ e < (2 ^ (f.p + 1) - 1) * 2 ^ (f.qmin - 2)) ∧
    roundMag f m e = if f.top ≤ k * 2 ^ (f.p - 1) + r then (f.top, flOF ||| flNX)
      else (k * 2 ^ (f.p - 1) + r, (if lost then flNX else 0#5) ||| (if lost && tiny then flUF else 0#5)) := by
  by_cases hm : m = 0
  · subst hm
    refine ⟨0, 0, false, false, ⟨?_, .inl rfl, ?_⟩, ?_, ?_, ?_⟩
    · have := Nearest.self 0
      simpa using this
    · simp
    · simp
    · simp
    · rw [if_neg (by omega), roundMag, if_pos rfl, Nat.zero_mul]
      rfl
  · have hx0 : (m : ℚ) * 2 ^ e ≠ 0 := mul_ne_zero (by exact_mod_cast hm) (by positivity)
    have hdiv : ∀ q : ℤ, (m : ℚ) * 2 ^ (e - q) = (m : ℚ) * 2 ^ e / 2 ^ q := fun q => by
      rw [zpow_sub₀ (by norm_num), mul_div_assoc]
    obtain ⟨hl, hu⟩ := precise_bounds hm e hp
    unfold roundMag
    rw [if_neg hm]
    dsimp only
    generalize e + (bitLen m : ℤ) - f.p = q0 at *
    obtain ⟨k, hk⟩ : ∃ k : Nat, max q0 f.qmin = f.qmin + k := ⟨(max q0 f.qmin - f.qmin).toNat, by omega⟩
    obtain ⟨h1, hlost⟩ := rneInt_nearest m (e - max q0 f.qmin)
    obtain ⟨h0, -⟩ := rneInt_nearest m (e - q0)
    rw [hk] at h1 hlost ⊢
    rw [hdiv] at h1 hlost h0
    refine ⟨k, (rneInt m (e - (f.qmin + k))).1, (rneInt m (e - (f.qmin + k))).2,
      decide (q0 < f.qmin) && ! decide ((rneInt m (e - q0)).1 = 2 ^ f.p ∧ q0 + 1 = f.qmin), ⟨h1, ?_, ?_⟩, ?_, ?_, ?_⟩
    rotate_left 4
    · rw [show f.qmin + (k : ℤ) - f.qmin = k by ring, Int.toNat_natCast]
    · by_cases hq : k = 0
      · exact .inl hq
      · rw [show f.qmin + (k : ℤ) = q0 by omega]
        exact .inr hl
    · refine lt_of_le_of_lt (div_le_div_of_nonneg_left (by positivity) (by positivity) ?_) hu
      exact zpow_le_zpow_right₀ (by norm_num) (by omega)
    · rw [hlost, ne_eq, div_eq_iff (by positivity)]
    · have hmid := midpoint_le_iff (e := f.qmin - 1) hp h0 hu fun _ => hl
      have hle : (rneInt m (e - q0)).1 ≤ 2 ^ f.p := h0.le_of_lt (by push_cast; exact hu)
      rw [show f.qmin - 1 - 1 = f.qmin - 2 by ring] at hmid
      rw [and_iff_right hx0, ← not_le (a := (2 ^ (f.p + 1) - 1) * (2 : ℚ) ^ (f.qmin - 2)), hmid, Bool.and_eq_true, decide_eq_true_iff, Bool.not_eq_true', decide_eq_false_iff_not]
      omega

end Sys2Proof.Machine
end

section
/-! Floating formats (04 R54, R55): what a pattern stands for, and the round trip. -/

namespace Sys2Proof.Machine

/-! Patterns: a sign and a magnitude. -/

/-- The pattern of a sign and a magnitude. -/
def signed (n : Nat) (s : Bool) (b : Nat) : BitVec n := BitVec.ofNat n (s.toNat * 2 ^ (n - 1) + b)

section
variable {n : Nat} {s : Bool} {b : Nat}

theorem signed_toNat (hn : 1 ≤ n) (hb : b < 2 ^ (n - 1)) : (signed n s b).toNat = s.toNat * 2 ^ (n - 1) + b := by
  have h2 : 2 ^ n = 2 * 2 ^ (n - 1) := by rw [← pow_succ', Nat.sub_add_cancel hn]
  rw [signed, BitVec.toNat_ofNat, Nat.mod_eq_of_lt]
  rw [h2]
  cases s <;> simp <;> omega

theorem getLsbD_signed (hn : 1 ≤ n) (hb : b < 2 ^ (n - 1)) : (signed n s b).getLsbD (n - 1) = s := by
  rw [BitVec.getLsbD, signed_toNat hn hb, Nat.testBit_eq_decide_div_mod_eq, Nat.mul_comm, Nat.mul_add_div (Nat.two_pow_pos _),
    Nat.div_eq_of_lt hb]
  cases s <;> rfl

theorem even_of_signed (hn : 2 ≤ n) (hb : b < 2 ^ (n - 1)) (he : Even b) : (signed n s b).getLsbD 0 = false := by
  obtain ⟨k, hk⟩ : ∃ k, n - 1 = k + 1 := ⟨n - 2, by omega⟩
  rw [BitVec.getLsbD, signed_toNat (by omega) hb, Nat.testBit_zero, decide_eq_false_iff_not, hk, pow_succ, ← Nat.mul_assoc]
  have := Nat.even_iff.1 he
  omega

theorem exists_signed (hn : 1 ≤ n) (w : BitVec n) : ∃ s b, b < 2 ^ (n - 1) ∧ w = signed n s b := by
  have h2 : 2 ^ n = 2 * 2 ^ (n - 1) := by rw [← pow_succ', Nat.sub_add_cancel hn]
  have hw := w.isLt
  refine ⟨decide (2 ^ (n - 1) ≤ w.toNat), w.toNat % 2 ^ (n - 1), Nat.mod_lt _ (Nat.two_pow_pos _), BitVec.eq_of_toNat_eq ?_⟩
  rw [signed_toNat hn (Nat.mod_lt _ (Nat.two_pow_pos _))]
  by_cases h : 2 ^ (n - 1) ≤ w.toNat
  · rw [decide_eq_true h, Nat.mod_eq_sub_mod h, Nat.mod_eq_of_lt (by omega)]
    simp
    omega
  · rw [decide_eq_false h, Nat.mod_eq_of_lt (Nat.not_le.1 h)]
    simp

end

/-- A pair of a reading and a rounding carries a format, whose end is the binade `t`. -/
structure Fmt.Carried (f : Fmt) {n : Nat} (o : FV → BitVec n × BitVec 5) (v : BitVec n → FV) (t : Nat) : Prop where
  prec : 2 ≤ f.p
  width : 2 ≤ n
  end3 : 3 ≤ t
  top_eq : f.top = t * 2 ^ (f.p - 1)
  top_lt : f.top < 2 ^ (n - 1)
  of_fin : ∀ s m e, o (.fin s m e) = (signed n s (roundMag f m e).1, (roundMag f m e).2)
  of_inf : ∀ s, o (.inf s) = (signed n s f.top, 0#5)
  val_fin : ∀ s b, b < f.top → ∃ m e, v (signed n s b) = .fin s m e ∧ (m : ℚ) * 2 ^ e = f.mag b
  val_inf : ∀ s, v (signed n s f.top) = .inf s
  val_nan : ∀ s b, f.top < b → b < 2 ^ (n - 1) → v (signed n s b) = .nan (v (signed n s b)).sig

/-- The factor of a sign. -/
def signum (s : Bool) : ℚ := if s then -1 else 1

theorem val_fin_eq (s : Bool) (m : Nat) (e : ℤ) : (FV.fin s m e).val = signum s * ((m : ℚ) * 2 ^ e) := mul_assoc _ _ _

theorem signum_mul_self (s : Bool) : signum s * signum s = 1 := by cases s <;> norm_num [signum]

theorem abs_signum (s : Bool) : |signum s| = 1 := by cases s <;> norm_num [signum]

theorem signum_sub (s : Bool) (x z : ℚ) : |signum s * x - z| = |x - signum s * z| := by
  have h : signum s * x - z = signum s * (x - signum s * z) := by linear_combination z * signum_mul_self s
  rw [h, abs_mul, abs_signum, one_mul]

section
variable {f : Fmt} {n : Nat} {o : FV → BitVec n × BitVec 5} {v : BitVec n → FV} {t : Nat}

/-- A finite number of the format, seen from the sign `s`, is a magnitude or its opposite. -/
theorem Fmt.Carried.finite (h : f.Carried o v t) {w : BitVec n} (hw : (v w).isFin = true) (s : Bool) :
    ∃ b, signum s * (v w).val = f.mag b ∨ signum s * (v w).val = -f.mag b := by
  obtain ⟨u, b, hb, rfl⟩ := exists_signed (by have := h.width; omega) w
  rcases lt_trichotomy b f.top with hlt | rfl | hgt
  · obtain ⟨m, e, hv, hm⟩ := h.val_fin u b hlt
    refine ⟨b, ?_⟩
    rw [hv, val_fin_eq, hm]
    cases s <;> cases u <;> simp [signum]
  · rw [h.val_inf] at hw
    exact absurd hw Bool.false_ne_true
  · rw [h.val_nan u b hgt hb] at hw
    exact absurd hw Bool.false_ne_true

/-- The rounding of a carried format is to nearest, ties to even, with its flags. -/
theorem Fmt.Carried.rounds (h : f.Carried o v t) (hq : f.qmin = -125 - f.p) : RoundsTo o v f.p ((2 ^ (f.p + 1) - 1) * 2 ^ (f.qmin + t - 3)) := by
  intro s m e
  have hn : 1 ≤ n := by have := h.width; omega
  have htop : 0 < f.top := by rw [h.top_eq]; exact Nat.mul_pos (by have := h.end3; omega) (Nat.two_pow_pos _)
  obtain ⟨k, r, lost, tiny, hr, hlost, htiny, hrm⟩ := roundMag_spec h.prec m e htop
  have hx : (0 : ℚ) ≤ (m : ℚ) * 2 ^ e := by positivity
  have habs : |(FV.fin s m e).val| = (m : ℚ) * 2 ^ e := by rw [val_fin_eq, abs_mul, abs_signum, one_mul, abs_of_nonneg hx]
  have hne : (FV.fin s m e).val ≠ 0 ↔ (m : ℚ) * 2 ^ e ≠ 0 := by rw [← habs, abs_ne_zero]
  have hbig := hr.top_le_iff h.prec h.end3
  rw [← h.top_eq] at hbig
  dsimp only
  rw [h.of_fin, habs, hne, hrm, show -127 - (f.p : ℤ) = f.qmin - 2 by omega, ← hbig, ← not_le, ← hbig]
  by_cases hb : f.top ≤ k * 2 ^ (f.p - 1) + r
  · rw [if_pos hb]
    exact ⟨getLsbD_signed hn h.top_lt, fun hc => absurd hb hc, fun _ => ⟨h.val_inf s, rfl⟩⟩
  · rw [if_neg hb]
    have hlt := (Nat.not_le.1 hb).trans h.top_lt
    refine ⟨getLsbD_signed hn hlt, fun _ => ?_, fun hc => absurd hc hb⟩
    obtain ⟨m', e', hv, hm'⟩ := h.val_fin s _ (Nat.not_le.1 hb)
    rw [hr.split.mag h.prec] at hm'
    dsimp only
    rw [hv]
    rw [val_fin_eq, val_fin_eq, hm']
    have hneq : signum s * (↑r * 2 ^ (f.qmin + ↑k)) ≠ signum s * (↑m * 2 ^ e) ↔ lost = true := by
      rw [hlost, ne_comm, ne_eq, mul_right_inj' (by cases s <;> norm_num [signum])]
    refine ⟨rfl, fun w hw => ?_, ?_, ?_, ?_⟩
    · obtain ⟨b, hz⟩ := h.finite hw s
      obtain ⟨hle, hev⟩ := hr.le_mag h.prec b hz
      rw [signum_sub, signum_sub, ← mul_assoc, signum_mul_self, one_mul]
      refine ⟨hle, fun heq hne => even_of_signed h.width hlt (Nat.even_add.2 ⟨fun _ => hev heq fun hc => hne ?_, fun _ => ?_⟩)⟩
      · rw [← hc, ← mul_assoc, signum_mul_self, one_mul]
      · refine Nat.even_mul.2 (.inr ((Nat.even_pow).2 ⟨even_two, ?_⟩))
        have := h.prec
        omega
    · rw [hneq]
      cases lost <;> cases tiny <;> decide
    · rw [hneq, ← htiny]
      cases lost <;> cases tiny <;> decide
    · cases lost <;> cases tiny <;> decide

/-- A magnitude has one pattern. -/
theorem mag_inj (hp : 2 ≤ f.p) {b c : Nat} (h : f.mag b = f.mag c) : b = c := by
  obtain ⟨k, r, rfl, hs, hr⟩ := exists_split hp b
  obtain ⟨j, i, rfl, ht, hi⟩ := exists_split hp c
  rw [hs.mag hp, ht.mag hp] at h
  have hle : ∀ {k r j i : Nat}, f.Split j i → r < 2 ^ f.p → (r : ℚ) * 2 ^ (f.qmin + k) = i * 2 ^ (f.qmin + j) → j ≤ k := by
    intro k r j i ht hr h
    by_contra hj
    have hlt := mag_lt_of_lt (f := f) hp (Nat.not_le.1 hj) hr
    have hn : ((2 ^ (f.p - 1) : Nat) : ℚ) ≤ i := Nat.cast_le.2 (ht.normal.resolve_left (by omega))
    push_cast at hn
    have := mul_le_mul_of_nonneg_right hn (show (0 : ℚ) ≤ 2 ^ (f.qmin + j) by positivity)
    linarith
  obtain rfl : k = j := Nat.le_antisymm (hle hs hi h.symm) (hle ht hr h)
  have hri : (r : ℚ) = i := mul_right_cancel₀ (by positivity) h
  rw [Nat.cast_injective hri]

/-- A number of a format is rounded to itself, with no flag. -/
theorem roundMag_mag (hp : 2 ≤ f.p) {b m : Nat} {e : ℤ} (hb : b < f.top) (hm : (m : ℚ) * 2 ^ e = f.mag b) : roundMag f m e = (b, 0#5) := by
  obtain ⟨k, r, lost, tiny, hr, hlost, -, hrm⟩ := roundMag_spec hp m e (by omega)
  have hle := (hr.le_mag hp b (.inl rfl)).1
  rw [hm, sub_self, abs_zero] at hle
  have hx : f.mag b = r * 2 ^ (f.qmin + k) := sub_eq_zero.1 (abs_eq_zero.1 (le_antisymm hle (abs_nonneg _)))
  rw [hm] at hlost
  obtain rfl : lost = false := Bool.eq_false_iff.2 fun hc => hlost.1 hc hx
  rw [← hr.split.mag hp] at hx
  rw [hrm, ← mag_inj hp hx, if_neg (Nat.not_le.2 hb), Bool.false_and, if_neg Bool.false_ne_true, if_neg Bool.false_ne_true, BitVec.or_self]

/-- A pattern that is no NaN, read and rounded again, is itself, with no flag. -/
theorem Fmt.Carried.roundTrip (h : f.Carried o v t) (w : BitVec n) (hw : (v w).isNan = false) : o (v w) = (w, 0#5) := by
  obtain ⟨s, b, hb, rfl⟩ := exists_signed (by have := h.width; omega) w
  rcases lt_trichotomy b f.top with hlt | rfl | hgt
  · obtain ⟨m, e, hv, hm⟩ := h.val_fin s b hlt
    rw [hv, h.of_fin, roundMag_mag h.prec hlt hm]
  · rw [h.val_inf, h.of_inf]
  · rw [h.val_nan s b hgt hb] at hw
    exact absurd hw.symm Bool.false_ne_true

end

end Sys2Proof.Machine
end

section
/-! binary32 and BF16 are formats; exact sums and products (04 R54, R55). -/

namespace Sys2Proof.Machine

section
variable {s : Bool} {b : Nat}

theorem ofBool_append_eq_signed {n : Nat} (hb : b < 2 ^ n) : BitVec.ofBool s ++ BitVec.ofNat n b = (signed (1 + n) s b : BitVec (1 + n)) := by
  refine BitVec.eq_of_toNat_eq ?_
  rw [signed_toNat (by omega) (by rwa [Nat.add_sub_cancel_left]), BitVec.toNat_append, BitVec.toNat_ofNat, Nat.mod_eq_of_lt hb, Nat.shiftLeft_eq,
    Nat.add_sub_cancel_left, ← Nat.shiftLeft_eq, ← Nat.shiftLeft_add_eq_or_of_lt hb,
    Nat.shiftLeft_eq]
  cases s <;> rfl

theorem exp_signed (hb : b < 2 ^ 31) : ((signed 32 s b).extractLsb' 23 8).toNat = b / 2 ^ 23 := by
  rw [BitVec.extractLsb'_toNat, signed_toNat (by decide) hb, Nat.shiftRight_eq_div_pow]
  cases s
  · rw [Bool.toNat_false]; omega
  · rw [Bool.toNat_true]; omega

theorem frac_signed (hb : b < 2 ^ 31) : ((signed 32 s b).extractLsb' 0 23).toNat = b % 2 ^ 23 := by
  rw [BitVec.extractLsb'_toNat, signed_toNat (by decide) hb, Nat.shiftRight_eq_div_pow]
  cases s
  · rw [Bool.toNat_false]; omega
  · rw [Bool.toNat_true]; omega

/-- What a binary32 pattern stands for, by its exponent and its fraction. -/
theorem f32Val_signed (hb : b < 2 ^ 31) : f32Val (signed 32 s b) =
    if b / 2 ^ 23 = 255 then (if b % 2 ^ 23 = 0 then .inf s else .nan (b % 2 ^ 23 < 2 ^ 22))
    else if b / 2 ^ 23 = 0 then .fin s (b % 2 ^ 23) (-149) else .fin s (2 ^ 23 + b % 2 ^ 23) ((b / 2 ^ 23 : Nat) - 150) := by
  have hs : (signed 32 s b).getLsbD 31 = s := getLsbD_signed (n := 32) (by decide) hb
  rw [f32Val, exp_signed hb, frac_signed hb, hs]

theorem bf16Val_signed (hb : b < 2 ^ 15) : bf16Val (signed 16 s b) = f32Val (signed 32 s (b * 2 ^ 16)) := by
  have h : signed 16 s b ++ 0#16 = signed 32 s (b * 2 ^ 16) := by
    refine BitVec.eq_of_toNat_eq ?_
    rw [signed_toNat (n := 32) (by decide) (by omega), BitVec.toNat_append, signed_toNat (by decide) hb, Nat.shiftLeft_eq]
    cases s
    · simp
    · simp; omega
  rw [bf16Val, h]

end

theorem roundMag_le_top {f : Fmt} (hp : 2 ≤ f.p) (ht : 0 < f.top) (m : Nat) (e : ℤ) : (roundMag f m e).1 ≤ f.top := by
  obtain ⟨k, r, lost, tiny, -, -, -, hrm⟩ := roundMag_spec hp m e ht
  rw [hrm]
  split
  · exact le_refl _
  · next h => exact (Nat.not_le.1 h).le

theorem f32Of_fin (s : Bool) (m : Nat) (e : ℤ) : f32Of (.fin s m e) = (signed 32 s (roundMag fmtF32 m e).1, (roundMag fmtF32 m e).2) := by
  have hle : (roundMag fmtF32 m e).1 ≤ 0x7F800000 := roundMag_le_top (by decide) (by decide) m e
  have h : (BitVec.ofBool s ++ BitVec.ofNat 31 (roundMag fmtF32 m e).1 : BitVec 32) = signed 32 s (roundMag fmtF32 m e).1 :=
    ofBool_append_eq_signed (n := 31) (by omega)
  rw [← h]
  rfl

theorem bf16Of_fin (s : Bool) (m : Nat) (e : ℤ) : bf16Of (.fin s m e) = (signed 16 s (roundMag fmtBF16 m e).1, (roundMag fmtBF16 m e).2) := by
  have hle : (roundMag fmtBF16 m e).1 ≤ 0x7F80 := roundMag_le_top (by decide) (by decide) m e
  have h : (BitVec.ofBool s ++ BitVec.ofNat 15 (roundMag fmtBF16 m e).1 : BitVec 16) = signed 16 s (roundMag fmtBF16 m e).1 :=
    ofBool_append_eq_signed (n := 15) (by omega)
  rw [← h]
  rfl

theorem mag_f32 (b : Nat) : fmtF32.mag b = ((b - (b / 2 ^ 23 - 1) * 2 ^ 23 : Nat) : ℚ) * 2 ^ ((-149 : ℤ) + (b / 2 ^ 23 - 1 : Nat)) := rfl

theorem mag_bf16 (b : Nat) : fmtBF16.mag b = ((b - (b / 2 ^ 7 - 1) * 2 ^ 7 : Nat) : ℚ) * 2 ^ ((-133 : ℤ) + (b / 2 ^ 7 - 1 : Nat)) := rfl

/-- A BF16 magnitude is the one of the binary32 pattern whose upper half it is. -/
theorem mag_bf16_eq (b : Nat) : fmtBF16.mag b = fmtF32.mag (b * 2 ^ 16) := by
  have hd : b * 2 ^ 16 / 2 ^ 23 = b / 2 ^ 7 := by omega
  rw [mag_f32, mag_bf16, hd, show b * 2 ^ 16 - (b / 2 ^ 7 - 1) * 2 ^ 23 = (b - (b / 2 ^ 7 - 1) * 2 ^ 7) * 2 ^ 16 by omega,
    show (-133 : ℤ) + (b / 2 ^ 7 - 1 : Nat) = 16 + (-149 + (b / 2 ^ 7 - 1 : Nat)) by ring, zpow_add₀ (by norm_num)]
  push_cast
  ring

theorem f32Val_finite {s : Bool} {b : Nat} (hb : b < 2139095040) : ∃ m e, f32Val (signed 32 s b) = .fin s m e ∧ (m : ℚ) * 2 ^ e = fmtF32.mag b := by
  rw [f32Val_signed (by omega), if_neg (by omega), mag_f32]
  split
  · next h => exact ⟨_, _, rfl, by rw [h, show b % 2 ^ 23 = b by omega]; norm_num⟩
  · next h =>
    refine ⟨_, _, rfl, ?_⟩
    rw [show b - (b / 2 ^ 23 - 1) * 2 ^ 23 = 2 ^ 23 + b % 2 ^ 23 by omega, show (-149 : ℤ) + (b / 2 ^ 23 - 1 : Nat) = (b / 2 ^ 23 : Nat) - 150 by omega]

theorem f32Val_nan {s : Bool} {b : Nat} (h1 : 2139095040 < b) (h2 : b < 2147483648) :
    f32Val (signed 32 s b) = .nan (f32Val (signed 32 s b)).sig := by
  rw [f32Val_signed h2, if_pos (by omega), if_neg (by omega)]
  rfl

theorem f32Val_inf (s : Bool) : f32Val (signed 32 s 2139095040) = .inf s := by
  rw [f32Val_signed (by norm_num), if_pos (by norm_num), if_pos (by norm_num)]

theorem carried_f32 : fmtF32.Carried f32Of f32Val 255 where
  prec := by decide
  width := by decide
  end3 := by decide
  top_eq := by decide
  top_lt := by decide
  of_fin := f32Of_fin
  of_inf s := by cases s <;> decide
  val_fin s b hb := f32Val_finite hb
  val_inf := f32Val_inf
  val_nan s b h1 h2 := f32Val_nan h1 h2

theorem carried_bf16 : fmtBF16.Carried bf16Of bf16Val 255 where
  prec := by decide
  width := by decide
  end3 := by decide
  top_eq := by decide
  top_lt := by decide
  of_fin := bf16Of_fin
  of_inf s := by cases s <;> decide
  val_fin s b hb := by
    have hb' : b < 32640 := hb
    rw [bf16Val_signed (by omega), mag_bf16_eq]
    exact f32Val_finite (by omega)
  val_inf s := (bf16Val_signed (b := 32640) (by norm_num)).trans (f32Val_inf s)
  val_nan s b h1 h2 := by
    have h1' : 32640 < b := h1
    have h2' : b < 32768 := h2
    rw [bf16Val_signed h2']
    exact f32Val_nan (by omega) (by omega)

/-- Settles O53: a number of a format is the nearest one to itself, and its pattern is the only one. -/
theorem floatRoundTrip : Obligations.FloatRoundTrip := ⟨carried_f32.roundTrip, carried_bf16.roundTrip⟩

/-! Exact sums and products. -/

theorem cast_sgn (s : Bool) (m : Nat) : ((sgn s m : ℤ) : ℚ) = signum s * m := by
  cases s
  · simp [sgn, signum]
  · simp [sgn, signum]

/-- A value at an exponent that is no greater than its own. -/
theorem val_eq_sgn_mul (s : Bool) (m : Nat) {e d : ℤ} (h : d ≤ e) : (FV.fin s m e).val = (sgn s (m * 2 ^ (e - d).toNat) : ℤ) * 2 ^ d := by
  have he : (2 : ℚ) ^ e = 2 ^ (e - d).toNat * 2 ^ d := by
    rw [← zpow_natCast, Int.toNat_of_nonneg (by omega), ← zpow_add₀ (by norm_num), sub_add_cancel]
  rw [val_fin_eq, cast_sgn, he]
  push_cast
  ring

theorem val_natAbs (v e : ℤ) : (FV.fin (decide (v < 0)) v.natAbs e).val = v * 2 ^ e := by
  rw [val_fin_eq, ← mul_assoc, ← cast_sgn, sgn]
  congr 2
  split <;> rename_i h <;> simp only [decide_eq_true_eq] at h <;> omega

theorem addFin_spec (s t : Bool) (m n : Nat) (e g : ℤ) : (addFin s m e t n g).isFin = true ∧
    (addFin s m e t n g).val = (FV.fin s m e).val + (FV.fin t n g).val ∧
    ((FV.fin s m e).val + (FV.fin t n g).val = 0 → (addFin s m e t n g).sign = (s && t)) := by
  rw [val_eq_sgn_mul s m (min_le_left e g), val_eq_sgn_mul t n (min_le_right e g), ← add_mul, ← Int.cast_add]
  unfold addFin
  dsimp only
  generalize sgn s _ + sgn t _ = v
  split
  · next h =>
    subst h
    exact ⟨rfl, by simp [FV.val], fun _ => rfl⟩
  · next h =>
    refine ⟨rfl, val_natAbs _ _, fun hc => absurd hc (mul_ne_zero ?_ (by positivity))⟩
    exact_mod_cast h

theorem val_mul (s t : Bool) (m n : Nat) (e g : ℤ) : (FV.fin (s != t) (m * n) (e + g)).val = (FV.fin s m e).val * (FV.fin t n g).val := by
  have hs : signum (s != t) = signum s * signum t := by cases s <;> cases t <;> norm_num [signum]
  rw [val_fin_eq, val_fin_eq, val_fin_eq, hs, zpow_add₀ (by norm_num)]
  push_cast
  ring

theorem exists_nan {a : FV} (h : a.isNan = true) : ∃ s, a = .nan s := by
  cases a with
  | nan s => exact ⟨s, rfl⟩
  | inf s => exact absurd h Bool.false_ne_true
  | fin s m e => exact absurd h Bool.false_ne_true

/-- An operation that gives the NaN of a NaN operand: of its first one, and, when that is none, of its second one. -/
theorem nan_of_either {op : FV → FV → FV × Bool} (hl : ∀ s b, op (.nan s) b = (.nan false, s || b.sig))
    (hr : ∀ a s, a.isNan = false → op a (.nan s) = (.nan false, s || a.sig)) {a b : FV} (h : a.isNan = true ∨ b.isNan = true) :
    op a b = (.nan false, a.sig || b.sig) := by
  rcases Bool.eq_false_or_eq_true a.isNan with ha | ha
  · obtain ⟨s, rfl⟩ := exists_nan ha
    exact hl s b
  · obtain ⟨s, rfl⟩ := exists_nan (h.resolve_left (by rw [ha]; exact Bool.false_ne_true))
    rw [hr a s ha, Bool.or_comm]
    rfl

theorem fAdd_nan {a b : FV} (h : a.isNan = true ∨ b.isNan = true) : fAdd a b = (.nan false, a.sig || b.sig) := by
  refine nan_of_either (fun _ _ => rfl) (fun a s ha => ?_) h
  cases a with
  | nan => exact absurd ha.symm Bool.false_ne_true
  | inf | fin => rfl

theorem fMul_nan {a b : FV} (h : a.isNan = true ∨ b.isNan = true) : fMul a b = (.nan false, a.sig || b.sig) := by
  refine nan_of_either (fun _ _ => rfl) (fun a s ha => ?_) h
  cases a with
  | nan => exact absurd ha.symm Bool.false_ne_true
  | inf | fin => rfl

/-- Settles O54: the exact forms by their values, the rounding by the format that it carries. -/
theorem floatArithmetic : Obligations.FloatArithmetic := by
  refine ⟨fun s m e t n g => ?_, fun a b h => ⟨fAdd_nan h, fMul_nan h⟩, fun s => ⟨?_, ?_, fun t e => ⟨rfl, rfl⟩, fun t m e => ⟨rfl, fun hm => if_neg hm⟩⟩, ?_, ?_⟩
  · obtain ⟨h1, h2, h3⟩ := addFin_spec s t m n e g
    refine ⟨⟨h1, rfl, h2, h3⟩, ⟨rfl, rfl, val_mul s t m n e g, rfl⟩, fun u k h => ?_⟩
    obtain ⟨h1, h2, -⟩ := addFin_spec (s != t) u (m * n) k (e + g) h
    exact ⟨h1, rfl, h2.trans (congrArg (· + _) (val_mul s t m n e g))⟩
  · cases s <;> rfl
  · exact if_pos rfl
  · have h := carried_f32.rounds (by decide)
    norm_num [fmtF32] at h ⊢
    exact h
  · have h := carried_bf16.rounds (by decide)
    norm_num [fmtBF16] at h ⊢
    exact h

end Sys2Proof.Machine
end

section
/-! The host's accesses and registers (20 R328, R329; 24 R340, R344). -/

namespace Sys2Proof.Machine

section
variable {s : State} {q n : Nat}

@[simp] theorem hq_updHq (s : State) (q : Nat) (f : HQ → HQ) : (s.updHq q f).hq q = f (s.hq q) :=
  congrArg (Option.getD · HQ.zero) (tGet_tPut_same s.hub.hqs q (f (s.hq q)))

/-- A write of a debug field leaves the registers of every core. -/
theorem r_updDbg (s : State) (c k : Nat) (f : Dbg → Dbg) : ((s.updDbg c f).core k).r = (s.core k).r := by
  rw [State.updDbg, State.core_upd]
  split
  · next h => rw [h]
  · rfl

theorem dbg_updDbg (s : State) (c : Nat) (f : Dbg → Dbg) : ((s.updDbg c f).core c).dbg = f (s.core c).dbg := by
  rw [core_updDbg]

/-! Configuration records (R344). -/

variable {v : BitVec 32} {d : BitVec 256} {l : List CfgSet} {m : FwImage}

theorem configure_noImage (h : s.sys.image = none) : s.configure n v d l = s.emit (.sideband 3 (BitVec.ofNat 64 n)) :=
  if_pos (.inr (by rw [h]; rfl))

theorem configure_bad (h : s.sys.image = some m) (hv : Config.verifies (Config.certified m.digest) d = false) :
    s.configure n v d l = s.emit (.sideband 3 (BitVec.ofNat 64 n)) :=
  if_pos (.inl (by rw [h]; exact (Bool.not_eq_true' _).mpr hv))

/-- The state in which a record that is used is kept, before its settings. -/
def State.recKept (s : State) (n : Nat) (v : BitVec 32) (d : BitVec 256) : State :=
  { s with sys := { s.sys with recs := tPut s.sys.recs n (v, d) } }

theorem configure_good (h : s.sys.image = some m) (hv : Config.verifies (Config.certified m.digest) d = true) : s.configure n v d l =
    if ((tGet s.sys.recs n).map (·.1)).any fun w => decide (v < w) then s else l.foldl State.setting (s.recKept n v d) :=
  if_neg (by rw [h]; simp [hv])

theorem configure_older {e : BitVec 32 × BitVec 256} (h : s.sys.image = some m) (hv : Config.verifies (Config.certified m.digest) d = true)
    (he : tGet s.sys.recs n = some e) (hlt : v < e.1) : s.configure n v d l = s := by
  rw [configure_good h hv, he, if_pos]
  exact decide_eq_true hlt

theorem configure_newer (h : s.sys.image = some m) (hv : Config.verifies (Config.certified m.digest) d = true)
    (he : ∀ e, tGet s.sys.recs n = some e → e.1 ≤ v) : s.configure n v d l = l.foldl State.setting (s.recKept n v d) := by
  rw [configure_good h hv, if_neg]
  cases hg : tGet s.sys.recs n with
  | none => exact Bool.false_ne_true
  | some e => exact fun hc => Nat.not_lt.2 (BitVec.le_def.1 (he e hg)) (BitVec.lt_def.1 (of_decide_eq_true hc))

/-- A setting changes neither the records nor memory nor what has left. -/
theorem setting_keeps (s : State) (c : CfgSet) : (s.setting c).sys = s.sys ∧ (s.setting c).mem = s.mem ∧ (s.setting c).out = s.out := by
  cases c with
  | podSize | portMap | domBlock => exact ⟨rfl, rfl, rfl⟩
  | spare c =>
    rw [State.setting]
    split <;> exact ⟨rfl, rfl, rfl⟩

theorem settings_keep (l : List CfgSet) (s : State) :
    (l.foldl State.setting s).sys = s.sys ∧ (l.foldl State.setting s).mem = s.mem ∧ (l.foldl State.setting s).out = s.out := by
  induction l generalizing s with
  | nil => exact ⟨rfl, rfl, rfl⟩
  | cons c l ih =>
    obtain ⟨h1, h2, h3⟩ := ih (s.setting c)
    obtain ⟨g1, g2, g3⟩ := setting_keeps s c
    exact ⟨h1.trans g1, h2.trans g2, h3.trans g3⟩

/-- The entry of a port map stands for its source alone. -/
theorem setting_portMap (s : State) (p : Nat) (dev : BitVec 8) (a b : Ctx) : (dev, a, b) ∈ ((s.setting (.portMap p dev a b)).port p).map ∧
    ∀ y ∈ ((s.setting (.portMap p dev a b)).port p).map, y.1 = dev → y.2.1 = a → y.2.2 = b := by
  rw [State.setting, port_updPort_same]
  refine ⟨List.mem_append_right _ (List.mem_singleton.2 rfl), fun y hy h1 h2 => ?_⟩
  rcases List.mem_append.1 hy with hy | hy
  · simp [h1, h2] at hy
  · rw [List.mem_singleton.1 hy]

theorem setting_domBlock (s : State) (p lo k : Nat) : ((s.setting (.domBlock p lo k)).eth p).domLo = lo ∧ ((s.setting (.domBlock p lo k)).eth p).domN = k := by
  rw [State.setting, eth_updEth]
  exact ⟨rfl, rfl⟩

/-! The debug module's reads and writes (R340). -/

theorem execRegisterWrite_coreRead (c : Nat) : exec (.registerWrite (.coreRead c)) s = .next (
    if (s.core c).dbg.halted then s.emit (.coreState c (s.core c)) else s) := rfl

theorem execRegisterWrite_coreWrite (c : Nat) (i : DbgItem) : exec (.registerWrite (.coreWrite c i)) s = .next (
    if (s.core c).dbg.halted then s.upd c fun x => x.poke c s.cyc s.nextId i else s) := rfl

/-! The registers of the host and of the firmware (R329). -/

theorem mem_deadAt {α : Type} [BEq α] [LawfulBEq α] (l : List α) (a : α) (live : Bool) :
    a ∈ (if live then l.filter (· != a) else l.filter (· != a) ++ [a]) ↔ live = false := by
  cases live <;> simp

theorem traceReg (s : State) (c : Nat) (b z : Word) : let d := ((s.updDbg c fun d => { d with trBase := b, trSize := z, trPos := 0 }).core c).dbg
    (d.trBase, d.trSize, d.trPos) = (b, z, 0) := by
  rw [dbg_updDbg]

theorem bpReg (s : State) (c : Nat) (n : BitVec 2) (v : Word) :
    ((s.updDbg c fun d => { d with bp := d.bp.setIfInBounds n.toNat v }).core c).dbg.bp[n.toNat]? = some v := by
  rw [dbg_updDbg]
  exact Vector.getElem?_setIfInBounds_self_of_lt n.isLt

theorem wpReg (s : State) (c : Nat) (n : Bool) (w : Word × Bool × Bool) :
    ((s.updDbg c fun d => { d with wp := d.wp.setIfInBounds n.toNat w }).core c).dbg.wp[n.toNat]? = some w := by
  rw [dbg_updDbg]
  exact Vector.getElem?_setIfInBounds_self_of_lt (by cases n <;> decide)

theorem dctlReg (s : State) (c : Nat) (b : BitVec 4) (w : BitVec 2) : let d := ((s.updDbg c fun d => { d with bpen := b, wpen := w }).core c).dbg
    d.bpen = b ∧ d.wpen = w := by
  rw [dbg_updDbg]
  exact ⟨rfl, rfl⟩

/-- What the host may write of a queue's registers while it is not enabled. -/
theorem ringReg (s : State) {n : Nat} (h : n = q) (f : HQ → HQ) : (s.updHq n fun h => h.ring f).hq q = if (s.hq q).en = true then s.hq q else f (s.hq q) := by
  rw [h, hq_updHq]
  rfl

/-- What the host may write of a queue's registers at any time. -/
theorem queueReg (s : State) {n : Nat} (h : n = q) (f : HQ → HQ) : (s.updHq n f).hq q = f (s.hq q) := by
  rw [h, hq_updHq]

end

end Sys2Proof.Machine
end

section
/-! Command queues (20 R330 to R333). -/

namespace Sys2Proof.Machine

/-- The packet at the head of a queue's ring has been taken. -/
def State.pktTaken (s : State) (q : Nat) : State := s.updHq q fun h => { h with head := h.head + 1#32 }

/-- `pk` is the packet that the front end takes next from the ring of queue `q`. -/
structure State.Takes (s : State) (q : Nat) (pk : BitVec 512) : Prop where
  open_ : s.accepts q = true
  noBuf : (s.hq q).ibuf = []
  some_ : (s.hq q).head ≠ (s.hq q).tail
  eq : pk = s.ringPkt q (s.hq q).head.toNat

section
variable {s : State} {q : Nat} {pk : BitVec 512}

theorem State.Takes.nextPkt (h : s.Takes q pk) : s.nextPkt q = some pk := by
  unfold State.nextPkt
  dsimp only
  rw [h.noBuf]
  exact (if_neg h.some_).trans (congrArg some h.eq.symm)

theorem State.Takes.guard (h : s.Takes q pk) : ¬ ((! s.accepts q) = true ∨ s.nextPkt q ≠ some pk) := by
  rw [h.open_, h.nextPkt]
  simp

theorem State.Takes.accept (h : s.Takes q pk) : s.accept q pk = some ((s.hq q).head.toNat, s.pktTaken q) := by
  unfold State.accept
  dsimp only
  rw [if_neg h.guard, h.noBuf]
  rfl

/-! NOP, INDIRECT, ANNUL, and an unknown opcode. -/

theorem execNopPacket_taken (h : s.Takes q pk) : exec (.nopPacket q pk) s = .next (
    if pkN pk 1 63 = 0 then (s.pktTaken q).complete q (s.hq q).head.toNat 0 0 0 0 0#16 else (s.pktTaken q).complete q (s.hq q).head.toNat 1 1 0 0 0#16) := by
  show execNopPacket q pk s = _
  rw [execNopPacket, h.accept]

/-- The fields of an INDIRECT packet, and the packet. -/
theorem pkJoin_extract (pk : BitVec 512) : pkJoin (pk.extractLsb' 0 64) (pk.extractLsb' 64 64) (pk.extractLsb' 128 384) = pk := by
  refine BitVec.eq_of_getLsbD_eq fun i hi => ?_
  unfold pkJoin
  rw [BitVec.getLsbD_append, BitVec.getLsbD_append, BitVec.getLsbD_extractLsb', BitVec.getLsbD_extractLsb', BitVec.getLsbD_extractLsb']
  split
  · split
    · next h => simp [h]
    · next h1 h2 => simp [show i - 64 < 64 by omega, show 64 + (i - 64) = i by omega]
  · simp [show i - 128 < 384 by omega, show 128 + (i - 128) = i by omega]

/-- The step of the INDIRECT packet whose bytes are those of `pk`. -/
def indirectStep (q : Nat) (pk : BitVec 512) (s : State) : Out1 :=
  execIndirect q (pk.extractLsb' 0 64) (pk.extractLsb' 64 64) (pk.extractLsb' 128 384) s

/-- The first field of an INDIRECT packet of the ring that is out of bounds. -/
def HQ.indirectField (h : HQ) (pk : BitVec 512) : Option Nat :=
  if pkN pk 1 7 ≠ 0 then some 1
  else if pkN pk 8 8 % 64 ≠ 0 ∨ ! h.covers (pkN pk 8 8) (pkN pk 16 4) then some 8
  else if pkN pk 16 4 % 64 ≠ 0 ∨ pkN pk 16 4 < 64 ∨ pkN pk 16 4 > 65536 then some 16
  else if pkN pk 20 44 ≠ 0 then some 20
  else none

/-- The lines of the host's memory that an INDIRECT packet names. -/
def State.lines (s : State) (pk : BitVec 512) : List (BitVec 512) := (List.range (pkN pk 16 4 / 64)).map fun k => s.hostPkt (pkN pk 8 8 + 64 * k)

theorem execIndirect_taken (h : s.Takes q pk) : indirectStep q pk s = .next (match (s.hq q).indirectField pk with
    | some f => (s.pktTaken q).complete q (s.hq q).head.toNat 1 f 0 0 0#16
    | none => ((s.pktTaken q).updHq q fun h => { h with ibuf := s.lines pk }).complete q (s.hq q).head.toNat 0 0 0 0 0#16) := by
  show execIndirect q (pk.extractLsb' 0 64) (pk.extractLsb' 64 64) (pk.extractLsb' 128 384) s = _
  unfold execIndirect
  dsimp only
  rw [pkJoin_extract, h.accept, h.noBuf, if_neg (by simp)]
  cases hf : (s.hq q).indirectField pk <;> unfold HQ.indirectField at hf <;> rw [hf] <;> rfl

theorem execIndirect_reads (h : s.Takes q pk) (h1 : pkN pk 1 7 = 0) (h2 : pkN pk 8 8 % 64 = 0)
    (h3 : (s.hq q).covers (pkN pk 8 8) (pkN pk 16 4) = true) (h4 : pkN pk 16 4 % 64 = 0) (h5 : 64 ≤ pkN pk 16 4) (h6 : pkN pk 16 4 ≤ 65536)
    (h7 : pkN pk 20 44 = 0) : indirectStep q pk s =
      .next (((s.pktTaken q).updHq q fun h => { h with ibuf := s.lines pk }).complete q (s.hq q).head.toNat 0 0 0 0 0#16) := by
  have hf : (s.hq q).indirectField pk = none := by
    unfold HQ.indirectField
    rw [if_neg (not_not.2 h1), if_neg (by rw [h2, h3]; simp), if_neg (by omega), if_neg (not_not.2 h7)]
  rw [execIndirect_taken h, hf]

theorem execIndirect_field (h : s.Takes q pk) (h1 : pkN pk 1 7 = 0)
    (h2 : pkN pk 8 8 % 64 ≠ 0 ∨ (s.hq q).covers (pkN pk 8 8) (pkN pk 16 4) = false) :
    indirectStep q pk s = .next ((s.pktTaken q).complete q (s.hq q).head.toNat 1 8 0 0 0#16) := by
  have hf : (s.hq q).indirectField pk = some 8 := by
    unfold HQ.indirectField
    rw [if_neg (not_not.2 h1), if_pos (h2.imp_right fun h => by rw [h]; rfl)]
  rw [execIndirect_taken h, hf]

theorem execAnnul_taken (h : s.Takes q pk) (h1 : pkN pk 1 3 = 0) (h2 : pkN pk 6 2 = 0) (h3 : pkN pk 10 54 = 0) :
    exec (.annul q pk) s = .next (
      if (pk.extractLsb' 64 16 == 0#16 || (s.dom (pk.extractLsb' 64 16)).st != .live || (s.dom (pk.extractLsb' 64 16)).ctx != pk.extractLsb' 32 16) = true
      then (s.pktTaken q).complete q (s.hq q).head.toNat 6 0 0 0 0#16
      else ((s.pktTaken q).annulAny (pk.extractLsb' 64 16)).complete q (s.hq q).head.toNat 0 0 0 0 0#16) := by
  show execAnnul q pk s = _
  unfold execAnnul
  dsimp only
  rw [h.accept, if_neg (not_not.2 h1), if_neg (not_not.2 h2), if_neg (not_not.2 h3)]

theorem execQueueStop_taken (h : s.Takes q pk) : exec (.queueStop q pk) s =
    .next (s.updHq q fun h' => { h' with stop := true, err := pk.extractLsb' 0 8, erridx := (s.hq q).head }) := by
  show execQueueStop q pk s = _
  unfold execQueueStop
  dsimp only
  rw [if_neg h.guard, h.noBuf]
  rfl

/-! Completion records and interrupts (R334, R335). -/

theorem execIrqCoalesceTimeout_due (hp : 0 < (s.hq q).pend) (ht : (s.hq q).pendAt + 24000 ≤ s.cyc) :
    exec (.irqCoalesceTimeout q) s = .next (s.raise q) := congrArg Host.Outcome.next (if_pos ⟨hp, ht⟩)

theorem pend_raise : ((s.raise q).hq q).pend = 0 := congrArg HQ.pend (hq_updHq (s.emit _) q fun h => { h with pend := 0 })

/-- Whether the interrupt is raised or not, a completion record changes neither cores nor memory. -/
theorem complete_keeps {α : Type} (π : State → α) (hh : ∀ (s : State) m o h, π { s with hostMem := m, out := o, hub := h } = π s) (s : State)
    (q i code field ridx nf : Nat) (d : Dom) : π (s.complete q i code field ridx nf d) = π s := by
  unfold State.complete
  dsimp only
  split
  · exact hh s _ _ _
  · exact hh s _ _ _

theorem complete_quiet (i code field ridx nf : Nat) (d : Dom) (h1 : 1 < ((s.hq q).irq.extractLsb' 16 16).toNat) (h2 : (s.hq q).pend = 0) :
    let t := s.complete q i code field ridx nf d
    let a := (s.hq q).cbase.toNat + 32 * ((s.hq q).cpos % (s.hq q).csize.toNat)
    let b := leBytes 8 i ++ leBytes 2 code ++ leBytes 2 field ++ leBytes 4 nf ++ leBytes 4 ridx ++ leBytes 2 d.toNat ++ leBytes 2 0 ++ wordBytes s.nowW
    t.hostMem = Memory.write s.hostMem a b ∧ t.out = s.out ++ [.host a b] := by
  dsimp only
  unfold State.complete
  dsimp only
  rw [if_neg (by omega)]
  exact ⟨rfl, rfl⟩

end

end Sys2Proof.Machine
end

section
/-! Launches and their end (20 R333, R334). -/

namespace Sys2Proof.Machine

section
variable {s : State} {q c k l : Nat} {pk : BitVec 512} {ctx : Ctx}

theorem runs_upd {f : Core → Core} (h : ∀ x, (f x).runs = x.runs) (s : State) (c k : Nat) : ((s.upd c f).core k).runs = (s.core k).runs := by
  rw [State.core_upd]
  split
  · next hk => rw [h, hk]
  · rfl

theorem runs_updIn {f : Core → Core} (h : ∀ x, (f x).runs = x.runs) (s : State) (c k : Nat) (ctx : Ctx) :
    ((s.updIn c ctx f).core k).runs = (s.core k).runs := by
  rw [State.updIn]
  split
  · rfl
  · exact runs_upd h s c k

theorem mem_updIn (s : State) (c : Nat) (ctx : Ctx) (f : Core → Core) : (s.updIn c ctx f).mem = s.mem := by
  rw [State.updIn]
  split <;> rfl

/-- A launch's context has its place at a core: resident there, or in a save area. -/
def State.seated (s : State) (c : Nat) (ctx : Ctx) : State :=
  if (s.core c).res = some ctx ∨ s.away c ctx then s
  else if (match (s.core c).res with
    | none => true
    | some k => (s.core c).quiet && ! (s.core c).runs.any fun r => r.1 == k) then
    s.upd c fun x => { x with res := some ctx, stat := if x.stat = .out then .idle else x.stat }
  else s.updHub fun h => { h with saves := tPut h.saves (saveKey ctx c) (saveNew ctx) }

/-- A launch's window, and its regions, at a core. -/
def Core.loaded (win : List Byte) (rs : List (Nat × List Byte × Bool)) (y : Core) : Core :=
  rs.foldl (fun (y : Core) r => y.putRegion r.1 r.2.1 r.2.2) ({ y with age := 0, empties := [] }.spWrite 0 win)

theorem launchCore_eq (s : State) (c : Nat) (ctx : Ctx) (l : Nat) (win : List Byte) (rs : List (Nat × List Byte × Bool)) :
    s.launchCore c ctx l win rs = ((s.seated c ctx).updIn c ctx (Core.loaded win rs)).upd c fun x => { x with runs := x.runs ++ [(ctx, l)] } := rfl

theorem runs_seated (s : State) (c k : Nat) (ctx : Ctx) : ((s.seated c ctx).core k).runs = (s.core k).runs := by
  rw [State.seated]
  split_ifs
  · rfl
  · refine runs_upd ?_ s c k
    exact fun _ => rfl
  · rfl

theorem mem_seated (s : State) (c : Nat) (ctx : Ctx) : (s.seated c ctx).mem = s.mem := by
  rw [State.seated]
  split_ifs <;> rfl

/-- A launch without regions reaches a core: the core runs the launch besides what it ran. -/
theorem runs_launchCore (s : State) (c k : Nat) (ctx : Ctx) (l : Nat) (win : List Byte) :
    ((s.launchCore c ctx l win []).core k).runs = if k = c then (s.core c).runs ++ [(ctx, l)] else (s.core k).runs := by
  have h : ∀ k, (((s.seated c ctx).updIn c ctx (Core.loaded win [])).core k).runs = (s.core k).runs := fun k =>
    (runs_updIn (f := Core.loaded win []) (fun _ => rfl) _ c k ctx).trans (runs_seated s c k ctx)
  rw [launchCore_eq, State.core_upd]
  split
  · exact congrArg (· ++ [(ctx, l)]) (h c)
  · exact h k

theorem mem_launchCore (s : State) (c : Nat) (ctx : Ctx) (l : Nat) (win : List Byte) (rs : List (Nat × List Byte × Bool)) :
    (s.launchCore c ctx l win rs).mem = s.mem :=
  (mem_updIn (s.seated c ctx) c ctx (Core.loaded win rs)).trans (mem_seated s c ctx)

/-- A launch without regions reaches the cores of a list. -/
theorem launchCores_spec (ks : List Nat) (first : Nat) (ctx : Ctx) (l : Nat) (win : State → Nat → List Byte) (s : State) :
    let t := ks.foldl (fun (t : State) k => t.launchCore (first + k) ctx l (win t k) []) s
    t.mem = s.mem ∧ (∀ c, (ctx, l) ∈ (s.core c).runs → (ctx, l) ∈ (t.core c).runs) ∧ ∀ k ∈ ks, (ctx, l) ∈ (t.core (first + k)).runs := by
  induction ks generalizing s with
  | nil => exact ⟨rfl, fun _ h => h, fun _ h => absurd h List.not_mem_nil⟩
  | cons k ks ih =>
    obtain ⟨h1, h2, h3⟩ := ih (s.launchCore (first + k) ctx l (win s k) [])
    have hk := runs_launchCore s (first + k) (first + k) ctx l (win s k)
    rw [if_pos rfl] at hk
    refine ⟨h1.trans (mem_launchCore _ _ _ _ _ _), fun c h => h2 c ?_, fun j hj => ?_⟩
    · rw [runs_launchCore]
      split
      · next hc => exact List.mem_append_left _ (hc ▸ h)
      · exact h
    · rcases List.mem_cons.1 hj with rfl | hj
      · exact h2 _ (hk ▸ List.mem_append_right _ (List.mem_singleton.2 rfl))
      · exact h3 j hj

theorem execLaunch_refused {f : Nat} (h : s.Takes q pk) (hf : (s.pktTaken q).launchField pk = some f) :
    exec (.launch q pk) s = .next ((s.pktTaken q).complete q (s.hq q).head.toNat 1 f 0 0 0#16) := by
  have hc : (s.pktTaken q).launchCheck pk = .no 1 0 f := by
    unfold State.launchCheck
    rw [hf]
  show execLaunch q pk s = _
  unfold execLaunch
  rw [h.accept]
  dsimp only
  rw [hc]

/-- The cores of a launch without regions run it. -/
def State.launchCores (u : State) (q i : Nat) (pk : BitVec 512) (ci : List Byte) : State :=
  (List.range (lCount pk)).foldl (fun (t : State) k => t.launchCore (lFirst pk + k) (lCtx pk) u.nextId
    (t.idWords (lFirst pk + k) (lFirst pk) (lCount pk) (lGraph pk) (BitVec.ofNat 64 (q * 2 ^ 32 + i)) ++ ci) []) u.fresh

/-- The record of a launch without handlers, regions and instant. -/
def State.launchEntry (t : State) (q i : Nat) (pk : BitVec 512) (recs : List (List Byte)) : Launch :=
  ⟨q, i, lCtx pk, t.tagOf 0#16, lFirst pk, lCount pk, BitVec.ofNat 64 (lGraph pk), [], recs.map (recNew t (t.tagOf 0#16)), false, none, false, []⟩

theorem execLaunch_go {recs : List (List Byte)} {ci : List Byte} (h : s.Takes q pk) (hc : (s.pktTaken q).launchCheck pk = .go recs [] [] ci)
    (hi : lInst pk = 0#64) : let t := (s.pktTaken q).launchCores q (s.hq q).head.toNat pk ci
    exec (.launch q pk) s = .next (t.updHub fun h =>
      { h with launches := tPut h.launches (s.pktTaken q).nextId (t.launchEntry q (s.hq q).head.toNat pk recs) }) := by
  show execLaunch q pk s = _
  unfold execLaunch
  rw [h.accept]
  dsimp only
  rw [hc]
  dsimp only
  rw [if_neg (by simp [State.tableReady]), launchBinds]
  dsimp only
  rw [dramRegions]
  dsimp only
  rw [if_pos hi, if_pos rfl]
  rfl

/-- A launch without handlers, regions and instant: its record, and the cores that run it. -/
theorem execLaunch_goes {recs : List (List Byte)} {ci : List Byte} (h : s.Takes q pk) (hc : (s.pktTaken q).launchCheck pk = .go recs [] [] ci)
    (hi : lInst pk = 0#64) : ∃ t x, exec (.launch q pk) s = .next t ∧ t.mem = s.mem ∧ tGet t.hub.launches s.nextId = some x ∧
      (x.q, x.pidx, x.ctx, x.first, x.ncore, x.done) = (q, (s.hq q).head.toNat, lCtx pk, lFirst pk, lCount pk, false) ∧
      x.recs.length = recs.length ∧ ∀ k, k < lCount pk → (lCtx pk, s.nextId) ∈ (t.core (lFirst pk + k)).runs := by
  obtain ⟨h1, -, h3⟩ := launchCores_spec (List.range (lCount pk)) (lFirst pk) (lCtx pk) s.nextId
    (fun t k => t.idWords (lFirst pk + k) (lFirst pk) (lCount pk) (lGraph pk) (BitVec.ofNat 64 (q * 2 ^ 32 + (s.hq q).head.toNat)) ++ ci)
    (s.pktTaken q).fresh
  exact ⟨_, _, execLaunch_go h hc hi, h1, tGet_tPut_same _ _ _, rfl, List.length_map _, fun k hk => h3 k (List.mem_range.2 hk)⟩

/-! The end of a launch (R334). -/

theorem mem_leaveRun (y : Core) (ctx : Ctx) (l : Nat) (r : Ctx × Nat) : r ∈ (y.leaveRun ctx l).runs ↔ r ∈ y.runs ∧ r ≠ (ctx, l) := by
  simp [Core.leaveRun, List.mem_filter]

theorem mem_upd_leaveRun (s : State) (c k : Nat) (ctx : Ctx) (l : Nat) (r : Ctx × Nat) : r ∈ ((s.upd c fun y => y.leaveRun ctx l).core k).runs ↔
    r ∈ (s.core k).runs ∧ (k = c → r ≠ (ctx, l)) := by
  rw [State.core_upd]
  split
  · next h => rw [mem_leaveRun, h, and_congr_right_iff]; exact fun _ => ⟨fun h _ => h, fun h => h rfl⟩
  · next h => exact ⟨fun h1 => ⟨h1, fun hc => absurd hc h⟩, And.left⟩

theorem leaveRuns_spec (cs : List Nat) (ctx : Ctx) (l : Nat) (s : State) : let t := cs.foldl (fun (s : State) c => s.upd c fun y => y.leaveRun ctx l) s
    t.mem = s.mem ∧ t.hub = s.hub ∧ ∀ k, (ctx, l) ∈ (t.core k).runs ↔ (ctx, l) ∈ (s.core k).runs ∧ k ∉ cs := by
  induction cs generalizing s with
  | nil => exact ⟨rfl, rfl, fun k => ⟨fun h => ⟨h, List.not_mem_nil⟩, And.left⟩⟩
  | cons c cs ih =>
    obtain ⟨h1, h2, h3⟩ := ih (s.upd c fun y => y.leaveRun ctx l)
    refine ⟨h1, h2, fun k => (h3 k).trans ?_⟩
    rw [mem_upd_leaveRun, List.mem_cons, not_or, and_assoc]
    exact and_congr_right' (and_congr_left' ⟨fun h hk => h hk rfl, fun h hk => absurd hk h⟩)

/-- The cores of a launch run it no more, once its completion record is written. -/
def State.launchLeft (s : State) (l : Nat) (x : Launch) : State :=
  ((List.range x.ncore).map fun i => x.first + i).foldl (fun (s : State) c => s.upd c fun y => y.leaveRun x.ctx l)
    (s.complete x.q x.pidx (if x.ann then 7 else 0) 0 (x.firstFail.getD 0) (x.recs.filter fun r => r.st == .failed || r.st == .discarded).length x.dom.id)

theorem execLaunchComplete_eq {x : Launch} (hx : s.launchOf l = some x) (hd : x.done = false)
    (ho : ∀ r ∈ x.recs, r.st = .done ∨ r.st = .failed ∨ r.st = .discarded) : ∃ f : Hub → Tab Save, exec (.launchComplete l) s =
      .next ((s.launchLeft l x).updHub fun h => { h with launches := tPut h.launches l { x with done := true }, saves := f h }) := by
  have hall : x.recs.all Rec.over = true := List.all_eq_true.2 fun r hr => by
    have := ho r hr
    simpa [Rec.over, or_assoc] using this
  have h : exec (.launchComplete l) s = execLaunchComplete l s := rfl
  rw [h]
  unfold execLaunchComplete
  rw [hx]
  dsimp only
  rw [hd, hall, if_neg (by simp)]
  exact ⟨_, rfl⟩

theorem execLaunchComplete_ends {x : Launch} (hx : s.launchOf l = some x) (hd : x.done = false)
    (ho : ∀ r ∈ x.recs, r.st = .done ∨ r.st = .failed ∨ r.st = .discarded) : ∃ t, exec (.launchComplete l) s = .next t ∧ t.mem = s.mem ∧
      t.launchOf l = some { x with done := true } ∧ ∀ k, k < x.ncore → (x.ctx, l) ∉ (t.core (x.first + k)).runs := by
  obtain ⟨f, hf⟩ := execLaunchComplete_eq hx hd ho
  obtain ⟨h1, -, h3⟩ := leaveRuns_spec ((List.range x.ncore).map fun i => x.first + i) x.ctx l
    (s.complete x.q x.pidx (if x.ann then 7 else 0) 0 (x.firstFail.getD 0) (x.recs.filter fun r => r.st == .failed || r.st == .discarded).length x.dom.id)
  refine ⟨_, hf, h1.trans (complete_keeps State.mem (fun _ _ _ _ => rfl) _ _ _ _ _ _ _ _), tGet_tPut_same _ _ _, fun k hk hm => ?_⟩
  exact ((h3 (x.first + k)).1 hm).2 (List.mem_map.2 ⟨k, List.mem_range.2 hk, rfl⟩)

end

end Sys2Proof.Machine
end

section
/-! The host interface's statement (O51). -/

namespace Sys2Proof.Machine

/-- Settles O51: each access, register, packet and completion by its own equation. -/
theorem hostInterface : Obligations.HostInterface := by
  intro s
  refine ⟨fun pa n bs => ⟨rfl, rfl, rfl⟩, fun n v d l => ?config, fun c => ⟨fun h => ?halted, fun h => ?running⟩, fun q => ⟨fun v => ?doorbell,
    fun b => ?enable, fun h1 h2 h3 => ?restart, fun r h1 h2 h3 h4 => ?register, fun pk ho hb hn hpk => ?packet, fun hp ht => ?irq⟩,
    fun q i code field ridx nf d h1 h2 => ?complete, fun l x hx hd ho => execLaunchComplete_ends hx hd ho⟩
  case config =>
    refine ⟨?_, fun m hm hv => ⟨fun e he hlt => ?_, fun he => ?_⟩⟩
    · rintro (h | ⟨m, h, hv⟩)
      · exact congrArg Host.Outcome.next (configure_noImage h)
      · exact congrArg Host.Outcome.next (configure_bad h hv)
    · exact congrArg Host.Outcome.next (configure_older hm hv he hlt)
    · obtain ⟨k1, k2, k3⟩ := settings_keep l (s.recKept n v d)
      refine ⟨_, congrArg Host.Outcome.next (configure_newer hm hv he), ?_, k2, k3, ?_, ?_, ?_⟩
      · rw [k1]
        exact tGet_tPut_same _ _ _
      · rintro k own rfl
        exact ⟨rfl, rfl⟩
      · rintro p lo k rfl
        exact setting_domBlock _ p lo k
      · rintro p dev a b rfl
        exact setting_portMap _ p dev a b
  case halted =>
    exact ⟨congrArg Host.Outcome.next (if_pos h), fun v => congrArg Host.Outcome.next (if_pos h), fun r v => congrArg Host.Outcome.next (if_pos h),
      fun off bs => congrArg Host.Outcome.next (if_pos h)⟩
  case running =>
    have hn : ¬ (s.core c).dbg.halted = true := by rw [h]; exact Bool.false_ne_true
    exact ⟨congrArg Host.Outcome.next (if_neg hn), fun i => congrArg Host.Outcome.next (if_neg hn)⟩
  case doorbell => exact ⟨_, rfl, hq_updHq _ _ _, rfl, rfl⟩
  case enable => exact ⟨_, rfl, hq_updHq _ _ _, rfl, rfl⟩
  case restart =>
    refine ⟨_, rfl, (hq_updHq _ _ _).trans ?_⟩
    rw [h1, h2, h3]
    rfl
  case register =>
    cases r with
    | config n v d l => exact absurd rfl (h1 n v d l)
    | coreRead c => exact absurd rfl (h2 c)
    | coreWrite c i => exact absurd rfl (h3 c i)
    | sideband i => exact absurd rfl (h4 i)
    | rbase | rsize | cbase | csize => exact ⟨_, rfl, rfl, rfl, fun _ => rfl, fun _ => rfl, fun h => ringReg s h _⟩
    | irq | caps => exact ⟨_, rfl, rfl, rfl, fun _ => rfl, fun _ => rfl, fun h => queueReg s h _⟩
    | flow p n f =>
      refine ⟨_, rfl, rfl, rfl, fun _ => rfl, fun _ => rfl, ?_⟩
      dsimp only
      rw [eth_updEth]
      exact ⟨_, tGet_tPut_same _ _ _, rfl⟩
    | egress p n ring size tv ctx =>
      refine ⟨_, rfl, rfl, rfl, fun _ => rfl, fun _ => rfl, ?_⟩
      dsimp only
      rw [eth_updEth]
      exact tGet_tPut_same _ _ _
    | planeAt dev p live => exact ⟨_, rfl, rfl, rfl, fun _ => rfl, fun _ => rfl, mem_deadAt _ _ _⟩
    | context c x => exact ⟨_, rfl, rfl, rfl, fun _ => rfl, fun _ => rfl, _, tGet_tPut_same _ _ _, rfl⟩
    | traceRing c b z => exact ⟨_, rfl, rfl, rfl, fun _ => r_updDbg _ _ _ _, fun _ => rfl, traceReg s c b z⟩
    | bp c n v => exact ⟨_, rfl, rfl, rfl, fun _ => r_updDbg _ _ _ _, fun _ => rfl, bpReg s c n v⟩
    | wp c n v ld st => exact ⟨_, rfl, rfl, rfl, fun _ => r_updDbg _ _ _ _, fun _ => rfl, wpReg s c n _⟩
    | dctlEn c b w => exact ⟨_, rfl, rfl, rfl, fun _ => r_updDbg _ _ _ _, fun _ => rfl, dctlReg s c b w⟩
    | pte pa v => exact ⟨_, rfl, rfl, rfl, fun _ => rfl, fun h => absurd rfl (h pa v), rfl⟩
    | frame c va pa => exact ⟨_, rfl, rfl, rfl, fun _ => rfl, fun _ => rfl, tGet_tPut_same _ _ _⟩
  case packet =>
    have h : s.Takes q pk := ⟨ho, hb, hn, hpk⟩
    refine ⟨fun h0 => ?_, fun h0 => ?_, fun h1 h2 h3 h4 h5 h6 h7 => execIndirect_reads h h1 h2 h3 h4 h5 h6 h7, fun h1 h2 => execIndirect_field h h1 h2,
      fun h1 h2 h3 => ⟨fun hd hl hx => ?_, fun hd => ?_⟩, ?_, fun f hf => execLaunch_refused h hf, fun recs ci hc hi => execLaunch_goes h hc hi⟩
    · rw [execNopPacket_taken h, if_pos h0]
      rfl
    · rw [execNopPacket_taken h, if_neg h0]
      rfl
    · rw [execAnnul_taken h h1 h2 h3, hl, hx, if_neg (by simpa using hd)]
      rfl
    · rw [execAnnul_taken h h1 h2 h3, if_pos (by rcases hd with hd | hd <;> simp [hd])]
      rfl
    · exact ⟨_, execQueueStop_taken h, hq_updHq _ _ _, rfl, rfl⟩
  case irq => exact ⟨_, execIrqCoalesceTimeout_due hp ht, rfl, pend_raise, rfl⟩
  case complete =>
    obtain ⟨g1, g2⟩ := complete_quiet i code field ridx nf d h1 h2
    exact ⟨complete_keeps State.mem (fun _ _ _ _ => rfl) s q i code field ridx nf d, complete_keeps State.cores (fun _ _ _ _ => rfl) s q i code field ridx nf d,
      g1, g2⟩

end Sys2Proof.Machine
end
